-- ==== Sys2Proof/Word.lean ====
section
/-! DEFINITION. The word types of the Isakel 7 and the plainest arithmetic over them (R4, R11, R16). -/

namespace Sys2Proof

/-- A scalar register's 64 bits (R11). -/
abbrev Word := BitVec 64
/-- One byte (R4). -/
abbrev Byte := BitVec 8
/-- A 32-bit instruction word or literal (R58). -/
abbrev Half := BitVec 32
/-- The 1,024 bits of one tile row, byte k in bits [8k+7:8k] (R4, "Tile registers and their tags"). -/
abbrev RowData := BitVec 1024
/-- What one slot of a bank can move, at most 256 bytes (R294). -/
abbrev SlotData := BitVec 2048
/-- A scalar register number (R11). -/
abbrev SReg := BitVec 5
/-- A condition register number (R11). -/
abbrev CReg := BitVec 3
/-- A tile register number (R14). -/
abbrev TReg := BitVec 4

/-- A bit as a Bool. -/
def bit {n : Nat} (v : BitVec n) (i : Nat) : Bool := v.getLsbD i

end Sys2Proof
end

