-- ==== Sys2Proof/Syntax.lean ====
section
/-! DEFINITION. The instructions and events of the Isakel 7: one constructor of `Instr` per row of
spec/opcode_table.json. The 191 encoded rows carry their operand fields (stall count and lone bit
belong to the bundle, R58, and stand in `Bundle` of Decode.lean); the 90 rows without an encoding are
events, whose arguments name the unit they happen at. -/

namespace Sys2Proof

/-- An immediate: the field of word 0, or the 32-bit literal of a lone bundle that replaces it (R66). -/
inductive Imm (n : Nat) where
  | short (v : BitVec n)
  | lone (v : Half)
  deriving DecidableEq, Repr

/-- The signed value of an immediate (R66, R67). -/
def Imm.signed {n : Nat} : Imm n → Int
  | .short v => v.toInt
  | .lone v => v.toInt

/-- The unsigned value of an immediate (R66: a count is unsigned). -/
def Imm.unsigned {n : Nat} : Imm n → Nat
  | .short v => v.toNat
  | .lone v => v.toNat

/-- A slot B guard (R69, R70). -/
structure Guard where
  c : CReg
  neg : Bool
  deriving DecidableEq, Repr

/-- The row field and W (R71): W = 1 names rows 0 to 15. -/
structure Rows where
  row : BitVec 4
  w : Bool
  deriving DecidableEq, Repr

/-- LD's M codes 0 to 6 (R115). -/
inductive LdMode where
  | b | bu | h | hu | w | wu | d
  deriving DecidableEq, Repr

/-- Access sizes (R115, R116). -/
inductive Size where
  | b | h | w | d
  deriving DecidableEq, Repr

/-- Scope codes 0 to 8 (R114). -/
inductive Scope where
  | ctx | core | cell | bay | court | pav | die | pkg | sys
  deriving DecidableEq, Repr

/-- AMO and RED kinds (R121). -/
inductive Kind where
  | relaxed | acq | rel | acqrel
  deriving DecidableEq, Repr

/-- FENCE kinds (R129). -/
inductive FenceKind where
  | acq | rel | acqrel | full
  deriving DecidableEq, Repr

/-- Barrier and combining-tree domains (R134). -/
inductive Domain where
  | core | cell | bay | court | pav | die | pkg | sys
  deriving DecidableEq, Repr

/-- RED operations 0 to 10 (R121). -/
inductive RedOp where
  | add | and | or | xor | maxs | mins | maxu | minu | fadd | fmax | fmin
  deriving DecidableEq, Repr

/-- CHAIN's engine codes (R268). -/
inductive EngineSel where
  | copy | mat | vec
  deriving DecidableEq, Repr

/-- A port value: a register (K = 0) or an immediate (K = 1) (R219). -/
inductive PortVal where
  | reg (a : SReg)
  | imm (v : Imm 6)
  deriving DecidableEq, Repr

/-- NRED operations other than MERGEK (R141). -/
inductive NredOp where
  | sum64 | max | min | maxkey | and | or | bcast
  deriving DecidableEq, Repr

/-- CMP relations (R90). -/
inductive CmpRel where
  | eq | ne | lt | ge | ltu | geu
  deriving DecidableEq, Repr

/-- FCMP relations (R98). -/
inductive FcmpRel where
  | eq | lt | le | un
  deriving DecidableEq, Repr

/-- EXT selectors (R87). -/
inductive ExtKind where
  | sb | sh | sw | zb | zh | zw
  deriving DecidableEq, Repr

/-- FCVT operations (R99). -/
inductive FcvtOp where
  | i64 | u64 | i32 | u32 | fromI64 | fromU64 | f16 | fromF16 | bf16 | fromBf16
  deriving DecidableEq, Repr

/-- FCVT rounding: mode.FRM or a static mode (R99, R37). -/
inductive FRound where
  | dyn | rne | rtz | rdn | rup
  deriving DecidableEq, Repr

/-- Row types 0 to 9 (R71). -/
inductive LaneType where
  | f32 | bf16 | f16 | i32 | i16 | i8 | u8 | u32 | f32b | bf16b
  deriving DecidableEq, Repr

/-- VLOGIC operations (R173). -/
inductive LogicOp where
  | and | or | xor | andn | not
  deriving DecidableEq, Repr

/-- VRED operations (R179). -/
inductive VredOp where
  | sum | max | min | argmax
  deriving DecidableEq, Repr

/-- VSCAN operations (R184). -/
inductive ScanOp where
  | sum | xsum | max
  deriving DecidableEq, Repr

/-- TCOLRED operations (R191). -/
inductive ColOp where
  | sum | max | min
  deriving DecidableEq, Repr

/-- TOPK's group sizes (R190). -/
inductive GroupSize where
  | g1 | g2 | g4
  deriving DecidableEq, Repr

/-- TOPK's element types (R190). -/
inductive TopkType where
  | f32 | i32 | u32
  deriving DecidableEq, Repr

/-- The unit whose timed action is due (R374): a context at WAITT or START, an engine queue at a chain WAITT. -/
inductive Timed where
  | ctx (k : Nat)
  | queue (q : Nat)
  deriving DecidableEq, Repr

/-- A register without behaviour of its own that the host, driver or firmware writes (R334, R348, R397, R342, R414). -/
inductive RegAddr where
  | tcb (die : Nat) (offset : BitVec 8)
  | qcb (pkg q : Nat) (word : BitVec 2)
  | window (index : BitVec 4) (word : BitVec 1)
  | pmargin (die : Nat)
  | pcap (pkg : Nat)
  | stvec (core : Nat)
  | domain
  /-- The firmware's clearing of a die's frozen latent record (R412). -/
  | latent (die : Nat)
  deriving DecidableEq, Repr

/-- An access of a package's host (R401): through BAR2, at an offset of the aperture, with its bytes for a write; through BAR0,
the choice of the aperture's die field and asid, or the read of a register. -/
inductive HostAcc where
  | read (pkg off : Nat) (size : Size)
  | write (pkg off : Nat) (size : Size) (v : Word)
  | choose (pkg : Nat) (die : BitVec 10) (asid : BitVec 16)
  | register (r : RegAddr)
  deriving DecidableEq, Repr

/-- What the boot self-test of a core finds (R409): the register-file banks that fail, and the rows that reported corrected
errors. -/
structure SelfTest where
  bad : BitVec 4
  corrected : List Nat
  deriving DecidableEq, Repr

/-- What the governor measures (R414): the draw that it projects, and the busiest units, as class and unit. -/
structure Draw where
  projected : Nat
  busiest : List (Nat × Nat)
  deriving DecidableEq, Repr

/-- An image header, with the reserved bytes' being zero, and the image (R404). -/
structure BootImage where
  magic : Word
  stage : Half
  version : Half
  length : Word
  digest : BitVec 512
  signature : BitVec 912
  /-- The image after the header, the first byte lowest. -/
  body : Nat
  reserved : Bool
  deriving DecidableEq, Repr

/-- A storage unit in which an error is found (R407, R408), by scrubbing or as a context reads it: 8 bytes of a bank, at a
bank-space offset, or a 64-byte HBM granule; a bank's descriptor; an entry of a bank's waiter registry, or of a die's; 4 bytes
of a tile row, by their number, 32 standing for the row's tag; a scalar, condition or control register; a tray entry, by its
place; a calibration word of a core's plate, at a REFIX. -/
inductive EccUnit where
  | bank (addr : Nat)
  | hbm (addr : Nat)
  | bankRead (ctx addr : Nat)
  | hbmRead (ctx addr : Nat)
  | desc (bank : Nat)
  | waiter (bank entry : Nat)
  | dieWaiter (die entry : Nat)
  | row (ctx key unit : Nat)
  | reg (ctx : Nat) (r : SReg)
  | cond (ctx : Nat) (r : CReg)
  | ctl (ctx number : Nat)
  | tray (ctx entry : Nat)
  | cal (core plate word : Nat)
  deriving DecidableEq, Repr

/-- The steps of the part: instructions of slot A (word 0), of slot B (word 1), and events. -/
inductive Instr where
  /-- BR (R101). Unconditional branch to PC + 8 x offset. -/
  | br (off : Imm 22)
  /-- BC (R101). Conditional branch, taken when the condition register equals the sense bit. -/
  | bc (c : CReg) (sense : Bool) (off : Imm 18)
  /-- BPEND (R102). Branch taken when the scalar register is pending; it never waits. -/
  | bpend (a : SReg) (off : Imm 16)
  /-- BNPEND (R102). Branch taken when the scalar register is not pending. -/
  | bnpend (a : SReg) (off : Imm 16)
  /-- CALL (R103). Writes the link PC + 8 to s30 and branches. -/
  | call (off : Imm 22)
  /-- JR (R103). Jumps to a register target and optionally writes a link to sd. -/
  | jr (d a : SReg)
  /-- LOOP (R106). Opens a hardware loop level with its count taken from a register. -/
  | loop (level : BitVec 2) (stop : BitVec 12) (a : SReg)
  /-- LOOPI (R106). Opens a hardware loop level with an immediate count. -/
  | loopi (level : BitVec 2) (stop : BitVec 12) (cnt : Imm 7)
  /-- LD (R115). Scalar load of 1, 2, 4 or 8 bytes, sign- or zero-extended, with a signed offset. -/
  | ld (d a : SReg) (m : LdMode) (off : Imm 9)
  /-- LD_ACQ (R115). Acquire load at a named scope. -/
  | ldAcq (d a : SReg) (z : Size) (u : Bool) (sc : Scope) (off : Imm 0)
  /-- ST (R116). Scalar store of the low bytes of sd with a signed offset. -/
  | st (d a : SReg) (z : Size) (off : Imm 9)
  /-- ST_REL (R116). Release store at a named scope. -/
  | stRel (d a : SReg) (z : Size) (sc : Scope) (off : Imm 0)
  /-- LDP (R117). Single-copy-atomic 16-byte load into a register pair. -/
  | ldp (d a : SReg) (off : Imm 10)
  /-- LDP_ACQ (R117). Acquire pair load at a named scope. -/
  | ldpAcq (d a : SReg) (sc : Scope) (off : Imm 0)
  /-- STP (R117). Single-copy-atomic 16-byte store from a register pair. -/
  | stp (d a : SReg) (off : Imm 10)
  /-- STP_REL (R117). Release pair store at a named scope. -/
  | stpRel (d a : SReg) (sc : Scope) (off : Imm 0)
  /-- LDS (R118). Load that lands a personality status in sk instead of trapping. -/
  | lds (d a : SReg) (z : Size) (k : SReg) (off : Imm 4)
  /-- STS (R118). Store that lands a personality status in sk instead of trapping. -/
  | sts (d a : SReg) (z : Size) (k : SReg) (off : Imm 4)
  /-- XCH (R119). Atomic exchange of a 32- or 64-bit word with sd. -/
  | xch (d a : SReg) (w : Bool) (off : Imm 9)
  /-- XCH_S (R119). Atomic exchange that lands a personality status in sk. -/
  | xchS (d a : SReg) (w : Bool) (k : SReg) (off : Imm 4)
  /-- CAS (R119). Atomic compare-and-swap with a register pair holding the expected and new values. -/
  | cas (d a : SReg) (w : Bool) (off : Imm 9)
  /-- AADD (R121). Atomic fetch-add that returns the old word. -/
  | aadd (d a : SReg) (w : Bool) (sc : Scope) (k : Kind) (off : Imm 0)
  /-- AAND (R121). Atomic fetch-and that returns the old word. -/
  | aand (d a : SReg) (w : Bool) (sc : Scope) (k : Kind) (off : Imm 0)
  /-- AOR (R121). Atomic fetch-or that returns the old word. -/
  | aor (d a : SReg) (w : Bool) (sc : Scope) (k : Kind) (off : Imm 0)
  /-- AXOR (R121). Atomic fetch-xor that returns the old word. -/
  | axor (d a : SReg) (w : Bool) (sc : Scope) (k : Kind) (off : Imm 0)
  /-- AMAXS (R121). Atomic signed maximum that returns the old word. -/
  | amaxs (d a : SReg) (w : Bool) (sc : Scope) (k : Kind) (off : Imm 0)
  /-- AMINS (R121). Atomic signed minimum that returns the old word. -/
  | amins (d a : SReg) (w : Bool) (sc : Scope) (k : Kind) (off : Imm 0)
  /-- AMAXU (R121). Atomic unsigned maximum that returns the old word. -/
  | amaxu (d a : SReg) (w : Bool) (sc : Scope) (k : Kind) (off : Imm 0)
  /-- AMINU (R121). Atomic unsigned minimum that returns the old word. -/
  | aminu (d a : SReg) (w : Bool) (sc : Scope) (k : Kind) (off : Imm 0)
  /-- AFADD (R121). Atomic FP32 add, rounded RNE, that returns the old word. -/
  | afadd (d a : SReg) (sc : Scope) (k : Kind) (off : Imm 0)
  /-- AFMAX (R121). Atomic FP32 maximumNumber that returns the old word. -/
  | afmax (d a : SReg) (sc : Scope) (k : Kind) (off : Imm 0)
  /-- AFMIN (R121). Atomic FP32 minimumNumber that returns the old word. -/
  | afmin (d a : SReg) (sc : Scope) (k : Kind) (off : Imm 0)
  /-- RED (R121). Atomic read-modify-write of the selected operation that returns nothing. -/
  | red (d a : SReg) (op : RedOp) (w : Bool) (sc : Scope) (k : Kind) (off : Imm 0)
  /-- FADDT (R124). Threshold add: adds to a 64-bit word as a release and wakes waiters when it crosses the threshold. -/
  | faddt (d a : SReg) (sc : Scope) (off : Imm 0)
  /-- WAITW (R125). Waits until a word reaches a threshold or a deadline passes, registering at the home if needed. -/
  | waitw (d a : SReg) (off : Imm 0)
  /-- WAITW_TIMEOUT (R126). A registered waiter's deadline passes and sd lands TIMEOUT. -/
  | waitwTimeout (ctx : Nat)
  /-- SCLD (R127). Sequentially consistent load. -/
  | scld (d a : SReg) (w : Bool) (off : Imm 9)
  /-- SCST (R127). Sequentially consistent store. -/
  | scst (d a : SReg) (w : Bool) (off : Imm 9)
  /-- SCX (R127). Sequentially consistent exchange. -/
  | scx (d a : SReg) (w : Bool) (off : Imm 9)
  /-- SC_WINDOW_DELIVERY (R366). The announcements of one 16-cycle window are delivered at every core of the package 64 cycles after the window starts. -/
  | scWindowDelivery (pkg : Nat)
  /-- FENCE (R129). Orders the context's memory accesses with the given kind and scope. -/
  | fence (k : FenceKind) (sc : Scope)
  /-- TLD (R130). Loads one tile row or a whole tile from memory with exact tags. -/
  | tld (t : TReg) (a : SReg) (r : Rows) (off : Imm 6)
  /-- TST (R131). Stores one tile row or a whole tile; a bounded row traps TYPE. -/
  | tst (t : TReg) (a : SReg) (r : Rows) (off : Imm 6)
  /-- TST_B (R131). Stores bounded or exact rows and drops their tags. -/
  | tstB (t : TReg) (a : SReg) (r : Rows) (off : Imm 6)
  /-- TLDX (R132). Strided, masked load of tile rows. -/
  | tldx (t : TReg) (a b : SReg)
  /-- BGUISE_CLEAR (R157). Gives an own bank a new descriptor and a zeroed image. -/
  | bguiseClear (d a : SReg) (bank : BitVec 4)
  /-- BGUISE_KEEP (R157). Gives an own bank a new descriptor and keeps its image after checking the header. -/
  | bguiseKeep (d a : SReg) (bank : BitVec 4)
  /-- BGUISE_CONVERT (R157). Converts an own bank's live elements into a new personality, counting inserts and drops. -/
  | bguiseConvert (d a : SReg) (bank : BitVec 4)
  /-- BGUISE_COMPLETE (R157). A running BGUISE finishes: GEN increases, the old descriptor lands and the bank stops answering CLOSED. -/
  | bguiseComplete (core bank : Nat)
  /-- BDESC (R156). Reads an own bank's descriptor through a slot-0 operation. -/
  | bdesc (d : SReg) (bank : BitVec 4)
  /-- ARCADE (R161). Composes up to 16 banks of the bay into one arcade. -/
  | arcade (d a b : SReg)
  /-- ARCADE_DIS (R161). Dissolves the arcade led by the named bank. -/
  | arcadeDis (d a : SReg)
  /-- ARCADE_COMPLETE (R161). A composition or dissolution finishes and lands its result code. -/
  | arcadeComplete (ctx : Nat)
  /-- BAR_ARRIVE (R135). Arrives at the next phase of a barrier and lands the phase number. -/
  | barArrive (d b : SReg) (dom : Domain) (gather swap : Bool)
  /-- BAR_WAIT (R135). Parks until a named barrier phase completes. -/
  | barWait (a : SReg) (dom : Domain)
  /-- BAR_SYNC (R135). Arrives at a barrier phase and parks until it completes. -/
  | barSync (d b : SReg) (dom : Domain) (gather swap : Bool)
  /-- BAR_DEPART (R136). Removes the context from the barrier for the rest of the launch. -/
  | barDepart (dom : Domain)
  /-- BARRIER_PHASE_COMPLETE (R135). A phase completes once every remaining member has arrived; members resume with release and acquire. -/
  | barrierPhaseComplete (launch inst : Nat) (dom : Domain)
  /-- FORK (R269). Starts copy, matrix and vector chains together as a fork group. -/
  | fork (d a : SReg) (q : BitVec 3) (mask : BitVec 3)
  /-- FORK_TRY (R271). As FORK, but writes refused tokens at once instead of parking when a queue is full. -/
  | forkTry (d a : SReg) (q : BitVec 3) (mask : BitVec 3)
  /-- RENDEZ (R270). Waits for the next meeting of the fork group, parking or landing its dial time. -/
  | rendez (d : SReg)
  /-- FORK_MEETING_COMPLETE (R270). Every chain of the group reaches its RENDEZ entry or ends, and the meeting completes. -/
  | forkMeetingComplete (ctx : Nat)
  /-- CHAIN (R268). Hands a command chain to an engine queue, with token registers pending until it ends. -/
  | chain (d a b : SReg) (e : EngineSel) (q : BitVec 3)
  /-- CHAIN_TRY (R271). As CHAIN, but writes a refused token at once when the queue is full. -/
  | chainTry (d a b : SReg) (e : EngineSel) (q : BitVec 3)
  /-- PMOV_PSEL (R220). Selects the plate that the context's port moves address. -/
  | pmovPsel (v : PortVal)
  /-- PMOV_XIN (R220). Latches 256 i8 inputs from a tile row pair. -/
  | pmovXin (t : TReg) (row : BitVec 4)
  /-- PMOV_GAIN (R220). Latches the full-scale gain code. -/
  | pmovGain (v : PortVal)
  /-- PMOV_XSCL (R220). Latches the FP32 input scale. -/
  | pmovXscl (v : PortVal)
  /-- PMOV_WSCL (R220). Latches the FP32 weight scale. -/
  | pmovWscl (v : PortVal)
  /-- PMOV_YOUT (R220). Latches the output tile and base row. -/
  | pmovYout (v : PortVal)
  /-- PMOV_WROW (R230). Latches a plate row index and 256 clamped weights. -/
  | pmovWrow (t : TReg) (a : SReg) (row : BitVec 4)
  /-- PMOV_STAT (R231). Reads the selected plate's status word when the move is applied, clearing WSAT and WBAD. -/
  | pmovStat (d : SReg)
  /-- PMOV_CALW_WRITE (R232). Supervisor write of a calibration word, marking the reading stale. -/
  | pmovCalwWrite (d a : SReg)
  /-- PMOV_CALW_READ (R232). Reads a calibration word. -/
  | pmovCalwRead (d a : SReg)
  /-- PORT_MOVE_APPLY (R218). The plate unit applies the move at the head of the port queue. -/
  | portMoveApply (core : Nat)
  /-- REFERENCE_PASS (R223). A 48-cycle reference exposure renews a stale drift reading before EXPOSE issues. -/
  | referencePass (core : Nat)
  /-- EXPOSURE_COMPLETE (R224). An exposure's eight YOUT rows land with their bound tags and the drift reading updates. -/
  | exposureComplete (core : Nat)
  /-- WGO_COMPLETE (R230). Row programming finishes after 6,000 cycles, counting unverified weights. -/
  | wgoComplete (core : Nat)
  /-- REFIX_COMPLETE (R229). Calibration finishes, rewriting calibration words and setting or clearing FAILED. -/
  | refixComplete (core : Nat)
  /-- TRAYQ (R250). Returns the number of closures held in the tray. -/
  | trayq (d : SReg)
  /-- TRAYQ_DEP (R250). Returns the number of closures that captured sa by name. -/
  | trayqDep (d a : SReg)
  /-- TRAYQ_STOP (R250). Returns the stop PC during DEFERRED handling. -/
  | trayqStop (d : SReg)
  /-- TRAYQ_LAND (R250). Completes the faulted closure by landing sa in its destination and removing it. -/
  | trayqLand (a : SReg)
  /-- CLOSURE_RUN (R243). A ready closure runs from the tray using its captured values. -/
  | closureRun (ctx : Nat)
  /-- ATTACH (R290). Rejoins the last leader at the next barrier phase. -/
  | attach (dom : Domain)
  /-- FOLLOW (R290). Names a leader and joins its team at the next barrier phase. -/
  | follow (a : SReg) (dom : Domain)
  /-- RDTIME (R292). Samples dial time into sd. -/
  | rdtime (d : SReg)
  /-- WAITT (R292). Parks the context until dial time reaches a target. -/
  | waitt (a : SReg)
  /-- WAITT_EXPIRE (R374). Dial time reaches a timed action's target and the waiting unit acts. -/
  | waittExpire (who : Timed)
  /-- WSPLIT (R139). Splits off half the termination weight, borrowing from the root at weight 1. -/
  | wsplit (d : SReg)
  /-- WRETURN (R139). Returns termination weight to the phase root as a release at sys. -/
  | wreturn (a : SReg)
  /-- WSPLIT_ADD (R139). Adds returned weight to the context's wgt. -/
  | wsplitAdd (a : SReg)
  /-- WEIGHT_RETURN_ARRIVE (R332). Returned or borrowed units reach the phase root and change its outstanding count. -/
  | weightReturnArrive (launch : Nat)
  /-- NRED (R141). Contributes to a combining-tree round of the selected operation at a domain. -/
  | nred (d a b : SReg) (dom : Domain) (op : NredOp)
  /-- NRED_MERGEK (R142). Contributes a row of key-index entries to a merge of the top 16. -/
  | nredMergek (t u : TReg) (row : BitVec 4) (dom : Domain)
  /-- NRED_ROUND_LAND (R369). A tree round completes and its result lands at every member. -/
  | nredRoundLand (launch inst : Nat) (dom : Domain)
  /-- SPILL (R133). Stores up to eight registers below s31 in the carve-out or overflow area. -/
  | spill (d : SReg) (n : BitVec 3)
  /-- FILL (R133). Reloads up to eight registers from the carve-out or overflow area. -/
  | fill (d : SReg) (n : BitVec 3)
  /-- CSRR (R284). Reads a control register. -/
  | csrr (d : SReg) (csr : BitVec 10)
  /-- CSRW (R284). Writes a control register, optionally returning the old value. -/
  | csrw (d a : SReg) (csr : BitVec 10)
  /-- CSRS (R284). Sets bits of a control register. -/
  | csrs (d a : SReg) (csr : BitVec 10)
  /-- CSRC (R284). Clears bits of a control register. -/
  | csrc (d a : SReg) (csr : BitVec 10)
  /-- TRAP (R286). Lets its bundle finish, then takes cause TRAP with a code. -/
  | trap (a : SReg) (code : BitVec 5)
  /-- BREAK (R286). Lets its bundle finish, then takes cause BREAK with a code. -/
  | break_ (a : SReg) (code : BitVec 5)
  /-- ERET_TO (R287). Ends trap handling and resumes at a register target. -/
  | eretTo (a : SReg)
  /-- WFI (R288). Parks until a pending register lands, a deadline passes or pre-emption. -/
  | wfi (a : SReg)
  /-- WFI_DEADLINE (R288). Dial time reaches a WFI deadline and the context resumes. -/
  | wfiDeadline (ctx : Nat)
  /-- REPLAY (R289). Answers fault records up to a number so their requesters retry, as a release at sys. -/
  | replay (a b : SReg)
  /-- REPLAY_FAIL (R289). Answers one fault record as a failure. -/
  | replayFail (a b : SReg)
  /-- MOVI (R93). Writes a sign-extended immediate or literal to sd. -/
  | movi (d : SReg) (imm : Imm 12)
  /-- ADD (R82). Integer add, 64- or 32-bit. -/
  | add (g : Guard) (d a b : SReg) (w : Bool)
  /-- SUB (R82). Integer subtract, 64- or 32-bit. -/
  | sub (g : Guard) (d a b : SReg) (w : Bool)
  /-- ADDI (R82). Add of a signed 11-bit immediate. -/
  | addi (g : Guard) (d a : SReg) (imm : BitVec 11)
  /-- MUL (R83). Low 64 bits of the product, with variable latency. -/
  | mul (g : Guard) (d a b : SReg) (w : Bool)
  /-- MULH (R83). High 64 bits of the signed product. -/
  | mulh (g : Guard) (d a b : SReg)
  /-- MULH_U (R83). High 64 bits of the unsigned product. -/
  | mulhU (g : Guard) (d a b : SReg)
  /-- MULH_SU (R83). High 64 bits of the signed-by-unsigned product. -/
  | mulhSu (g : Guard) (d a b : SReg)
  /-- DIV (R83). Integer quotient under R33. -/
  | div (g : Guard) (d a b : SReg) (u w : Bool)
  /-- REM (R83). Integer remainder under R33. -/
  | rem (g : Guard) (d a b : SReg) (u w : Bool)
  /-- AND (R82). Bitwise and. -/
  | and_ (g : Guard) (d a b : SReg)
  /-- OR (R82). Bitwise or. -/
  | or_ (g : Guard) (d a b : SReg)
  /-- XOR (R82). Bitwise exclusive or. -/
  | xor_ (g : Guard) (d a b : SReg)
  /-- ANDN (R82). Bitwise and-not. -/
  | andn (g : Guard) (d a b : SReg)
  /-- SHL (R84). Shift left by a register amount. -/
  | shl (g : Guard) (d a b : SReg) (w : Bool)
  /-- SHL_IMM (R84). Shift left by an immediate amount. -/
  | shlImm (g : Guard) (d a : SReg) (n : BitVec 6) (w : Bool)
  /-- SHR (R84). Logical shift right by a register amount. -/
  | shr (g : Guard) (d a b : SReg) (w : Bool)
  /-- SHR_IMM (R84). Logical shift right by an immediate amount. -/
  | shrImm (g : Guard) (d a : SReg) (n : BitVec 6) (w : Bool)
  /-- SRA (R84). Arithmetic shift right by a register amount. -/
  | sra (g : Guard) (d a b : SReg) (w : Bool)
  /-- SRA_IMM (R84). Arithmetic shift right by an immediate amount. -/
  | sraImm (g : Guard) (d a : SReg) (n : BitVec 6) (w : Bool)
  /-- ROT (R84). Rotate right by a register amount. -/
  | rot (g : Guard) (d a b : SReg) (w : Bool)
  /-- ROT_IMM (R84). Rotate right by an immediate amount. -/
  | rotImm (g : Guard) (d a : SReg) (n : BitVec 6) (w : Bool)
  /-- CLZ (R85). Leading zero count. -/
  | clz (g : Guard) (d a : SReg) (w : Bool)
  /-- CTZ (R85). Trailing zero count. -/
  | ctz (g : Guard) (d a : SReg) (w : Bool)
  /-- POPC (R85). Count of one bits. -/
  | popc (g : Guard) (d a : SReg) (w : Bool)
  /-- REV (R85). Bit reversal. -/
  | rev (g : Guard) (d a : SReg) (w : Bool)
  /-- MIN (R86). Signed minimum. -/
  | min_ (g : Guard) (d a b : SReg) (w : Bool)
  /-- MAX (R86). Signed maximum. -/
  | max_ (g : Guard) (d a b : SReg) (w : Bool)
  /-- MINU (R86). Unsigned minimum. -/
  | minu (g : Guard) (d a b : SReg) (w : Bool)
  /-- MAXU (R86). Unsigned maximum. -/
  | maxu (g : Guard) (d a b : SReg) (w : Bool)
  /-- CMP (R90). Integer compare that writes a condition register. -/
  | cmp (g : Guard) (c : CReg) (a b : SReg) (r : CmpRel)
  /-- SEL (R92). Selects sa or sb by a condition register. -/
  | sel (g : Guard) (d a b : SReg) (neg : Bool) (c : CReg)
  /-- EXT (R87). Sign- or zero-extends a low field of sa. -/
  | ext (g : Guard) (d a : SReg) (x : ExtKind)
  /-- BFX (R88). Extracts a bit field, zero- or sign-extended. -/
  | bfx (g : Guard) (d a b : SReg) (sx : Bool)
  /-- BFI (R88). Inserts the low bits of sa into a field of sd. -/
  | bfi (g : Guard) (d a b : SReg)
  /-- LEA (R89). Computes sa + (sb << sh) with no memory access. -/
  | lea (g : Guard) (d a b : SReg) (sh : BitVec 3)
  /-- COND (R91). Any function of two condition bits, given by a truth table. -/
  | cond (g : Guard) (c x y : CReg) (table : BitVec 4)
  /-- FADD (R96). FP32 add. -/
  | fadd (g : Guard) (d a b : SReg)
  /-- FSUB (R96). FP32 subtract. -/
  | fsub (g : Guard) (d a b : SReg)
  /-- FMUL (R96). FP32 multiply. -/
  | fmul (g : Guard) (d a b : SReg)
  /-- FFMA (R96). FP32 fused multiply-add with one rounding. -/
  | ffma (g : Guard) (d a b c : SReg)
  /-- FMIN (R97). FP32 minimumNumber. -/
  | fmin (g : Guard) (d a b : SReg)
  /-- FMAX (R97). FP32 maximumNumber. -/
  | fmax (g : Guard) (d a b : SReg)
  /-- FCMP (R98). FP32 compare that writes a condition register. -/
  | fcmp (g : Guard) (c : CReg) (a b : SReg) (r : FcmpRel)
  /-- FCVT (R99). Conversion between FP formats and integers. -/
  | fcvt (g : Guard) (d a : SReg) (op : FcvtOp) (m : FRound)
  /-- FCLASS (R100). Writes a one-hot class mask of an FP32 value. -/
  | fclass (g : Guard) (d a : SReg)
  /-- VADD (R171). Lane-wise add of rows. -/
  | vadd (g : Guard) (d a b : TReg) (r : Rows) (y : LaneType)
  /-- VSUB (R171). Lane-wise subtract of rows. -/
  | vsub (g : Guard) (d a b : TReg) (r : Rows) (y : LaneType)
  /-- VMUL (R171). Lane-wise multiply of rows. -/
  | vmul (g : Guard) (d a b : TReg) (r : Rows) (y : LaneType)
  /-- VFMA (R171). Lane-wise fused multiply-add into the destination. -/
  | vfma (g : Guard) (d a b : TReg) (r : Rows) (y : LaneType)
  /-- VMIN (R171). Lane-wise minimum. -/
  | vmin (g : Guard) (d a b : TReg) (r : Rows) (y : LaneType)
  /-- VMAX (R171). Lane-wise maximum. -/
  | vmax (g : Guard) (d a b : TReg) (r : Rows) (y : LaneType)
  /-- VABS (R172). Lane-wise absolute value. -/
  | vabs (g : Guard) (d a : TReg) (r : Rows) (y : LaneType)
  /-- VNEG (R172). Lane-wise negation. -/
  | vneg (g : Guard) (d a : TReg) (r : Rows) (y : LaneType)
  /-- VNABS (R172). Lane-wise negated absolute value. -/
  | vnabs (g : Guard) (d a : TReg) (r : Rows) (y : LaneType)
  /-- VLOGIC (R173). Bitwise logic on 1,024-bit rows. -/
  | vlogic (g : Guard) (d a b : TReg) (r : Rows) (op : LogicOp)
  /-- VSHIFT (R174). Lane-wise shift by signed per-lane amounts. -/
  | vshift (g : Guard) (d a b : TReg) (r : Rows) (y : LaneType)
  /-- VCMP (R175). Lane-wise compare into a mask row. -/
  | vcmp (g : Guard) (d a b : TReg) (r : Rows) (lt : Bool) (y : LaneType)
  /-- VSEL (R176). Lane-wise select by the destination's mask lanes. -/
  | vsel (g : Guard) (d a b : TReg) (r : Rows) (y : LaneType)
  /-- VCVT (R177). Lane-wise conversion between row types. -/
  | vcvt (g : Guard) (d a : TReg) (x : LaneType) (r : Rows) (y : LaneType)
  /-- VPACK (R178). Packs FP32 lanes into BFP blocks. -/
  | vpack (g : Guard) (d a b : TReg) (r : Rows) (m : BitVec 4)
  /-- VUNPK (R178). Unpacks BFP blocks into FP32 lanes. -/
  | vunpk (g : Guard) (d a b : TReg) (r : Rows) (m : BitVec 4)
  /-- VRED (R179). Reduces a row or tile to a scalar. -/
  | vred (g : Guard) (d : SReg) (a : TReg) (op : VredOp) (r : Rows) (y : LaneType)
  /-- VBCAST (R180). Broadcasts a scalar to every lane. -/
  | vbcast (g : Guard) (d : TReg) (a : SReg) (r : Rows) (y : LaneType)
  /-- VSCALE (R181). Scales each lane by a power of two. -/
  | vscale (g : Guard) (d a b : TReg) (r : Rows) (y : LaneType)
  /-- VEXP2 (R52). Lane-wise 2^x by the defined evaluation. -/
  | vexp2 (g : Guard) (d a : TReg) (r : Rows) (y : LaneType)
  /-- VLOG2 (R53). Lane-wise log2 by the defined evaluation. -/
  | vlog2 (g : Guard) (d a : TReg) (r : Rows) (y : LaneType)
  /-- VRCP (R54). Lane-wise reciprocal, rounded once. -/
  | vrcp (g : Guard) (d a : TReg) (r : Rows) (y : LaneType)
  /-- VRSQRT (R54). Lane-wise reciprocal square root, rounded once. -/
  | vrsqrt (g : Guard) (d a : TReg) (r : Rows) (y : LaneType)
  /-- VPERM (R183). Permutes lanes by per-lane indices. -/
  | vperm (g : Guard) (d a b : TReg) (r : Rows) (y : LaneType)
  /-- VSCAN (R184). Prefix sum, exclusive sum or running maximum over lanes. -/
  | vscan (g : Guard) (d a : TReg) (op : ScanOp) (r : Rows) (y : LaneType)
  /-- VSRCH (R185). Counts table entries below each query lane. -/
  | vsrch (g : Guard) (d a b : TReg) (r : Rows) (y : LaneType)
  /-- VMIX (R186). Computes MIX64 of per-lane seeds and counters. -/
  | vmix (g : Guard) (d a b : TReg) (r : Rows) (y : LaneType)
  /-- VIOTA (R187). Writes a scalar plus a shifted lane index to each lane. -/
  | viota (g : Guard) (d : TReg) (a : SReg) (p : Bool) (h : BitVec 2) (r : Rows) (y : LaneType)
  /-- TMOV (R188). Copies rows with their tags. -/
  | tmov (g : Guard) (d a : TReg) (r : Rows)
  /-- TZERO (R188). Zeroes rows with exact tags. -/
  | tzero (g : Guard) (d : TReg) (r : Rows)
  /-- TTRANS (R189). Transposes 16 x 16 lane blocks of a tile. -/
  | ttrans (g : Guard) (d a : TReg) (y : LaneType)
  /-- TOPK (R190). Selects the K best rows per column of a tile group. -/
  | topk (g : Guard) (d a b : TReg) (k : BitVec 4) (grp : GroupSize) (e : TopkType)
  /-- TCOLRED (R191). Reduces each column over 16 rows into one row. -/
  | tcolred (g : Guard) (d a : TReg) (op : ColOp) (row : BitVec 4) (y : LaneType)
  /-- TFIX (R192). Copies rows with exact tags and writes the largest bound exponent to xstat. -/
  | tfix (g : Guard) (d a : TReg) (r : Rows) (y : LaneType)
  /-- TBND_RD (R193). Reads a row's tag into a scalar. -/
  | tbndRd (g : Guard) (d : SReg) (a : TReg) (row : BitVec 4) (y : LaneType)
  /-- TBND_SET (R193). Widens the bound tags of rows. -/
  | tbndSet (g : Guard) (d : TReg) (a : SReg) (r : Rows) (y : LaneType)
  /-- ROW_START (R195). A row of a queued row instruction is granted a lane group and starts. -/
  | rowStart (core : Nat)
  /-- MMA (R202). Names K and the operand descriptors of a joint-array operation started by GANG. -/
  | mma (g : Guard) (d a b : SReg)
  /-- MZERO (R210). Sets the core's accumulator quarter to +0 and clears its flags. -/
  | mzero (g : Guard)
  /-- MDRAIN (R212). Drains the quarter's rows to memory, tiles or the row handler. -/
  | mdrain (g : Guard) (d a : SReg)
  /-- RLEAVE (R214). Handler sends or drops the delivered row and parks for the next. -/
  | rleave (g : Guard) (drop : Bool)
  /-- MATRIX_BLOCK_COMPLETE (R204). One block of a joint-array operation accumulates into every member quarter. -/
  | matrixBlockComplete (cell : Nat)
  /-- DRAIN_BEGIN (R212). A drain starts once the operation has ended and earlier drains have landed. -/
  | drainBegin (core : Nat)
  /-- DRAIN_ROW_DELIVER (R213). A drained row is landed in the delivery tile and the handler becomes ready. -/
  | drainRowDeliver (core : Nat)
  /-- DRAIN_ROW_WRITE (R214). A drained row is converted and written to its destination; the last write lands sd. -/
  | drainRowWrite (core : Nat)
  /-- VALUE_LAND (R27). A variable-latency value lands, clears its pending bit and wakes parked readers. -/
  | valueLand (ctx idx : Nat)
  /-- FIXED_RESULT_LAND (R65). A fixed-latency result lands at its stated cycle. -/
  | fixedResultLand (ctx : Nat)
  /-- CWAIT_TIMEOUT (R426). A park on a barrier phase, NRED round or fork meeting exceeds CWAIT and traps TIMEOUT. -/
  | cwaitTimeout (ctx : Nat)
  /-- CONTEXT_EXIT (R327). After a transfer to EXIT and its waits, the context returns its weight, departs and releases its quarter. -/
  | contextExit (ctx : Nat)
  /-- BANK_ACCESS (R299). An access is performed at a bank in its slot of the bank frame. -/
  | bankAccess (core bank : Nat)
  /-- CLOSED_REPLAY (R148). A plain port access that met CLOSED is replayed at the same slot of the next frame. -/
  | closedReplay (core bank : Nat)
  /-- GLOBAL_REQUEST (R355). A request for a global address is translated and checked at the owning die and performed. -/
  | globalRequest (ctx idx : Nat)
  /-- INVALIDATION_COMPLETE (R354). An invalidation finishes once no TLB holds the range and its users are performed, and INVDONE increases. -/
  | invalidationComplete (die : Nat)
  /-- COPY_ENTRY (R256). Copies one, N1 or N1 x N2 rows, item by item. -/
  | copyEntry (q : Nat)
  /-- GATHER_ENTRY (R256). Copies indexed source ranges to consecutive destinations. -/
  | gatherEntry (q : Nat)
  /-- SCATTER_ENTRY (R256). Copies consecutive sources to indexed destinations. -/
  | scatterEntry (q : Nat)
  /-- FILL_ENTRY (R256). Fills rows with an 8-byte pattern. -/
  | fillEntry (q : Nat)
  /-- REDCOPY_ENTRY (R256). Applies each source element to the destination as a relaxed RED. -/
  | redcopyEntry (q : Nat)
  /-- END_ENTRY (R260). Ends the chain and lands its token. -/
  | endEntry (q : Nat)
  /-- WAITT_ENTRY (R260). Holds the chain until a dial time. -/
  | waittEntry (q : Nat)
  /-- WAITV_ENTRY (R260). Holds the chain until a word reaches a threshold. -/
  | waitvEntry (q : Nat)
  /-- WAITV_REREAD (R260). With the registry full, the waiting entry re-reads its word every 1 us. -/
  | waitvReread (q : Nat)
  /-- SIGNAL_ENTRY (R260). Performs FADDT as a release at a scope. -/
  | signalEntry (q : Nat)
  /-- LOOP_ENTRY (R260). Repeats a body of entries using a chain loop counter. -/
  | loopEntry (q : Nat)
  /-- IFZ_ENTRY (R260). Skips the next S entries when a word is zero. -/
  | ifzEntry (q : Nat)
  /-- IFNZ_ENTRY (R260). Skips the next S entries when a word is not zero. -/
  | ifnzEntry (q : Nat)
  /-- QFENCE_ENTRY (R260). Waits until earlier chains of named queues have ended. -/
  | qfenceEntry (q : Nat)
  /-- TOKEN_ENTRY (R260). Releases earlier entries and lands the chain's second token. -/
  | tokenEntry (q : Nat)
  /-- RENDEZ_ENTRY (R270). Waits at the fork group's next meeting. -/
  | rendezEntry (q : Nat)
  /-- MMA_ENTRY (R261). Arrives at the gang barrier with values from an operation block. -/
  | mmaEntry (q : Nat)
  /-- DRAIN_ENTRY (R261). Drains the queue's core's quarter as MDRAIN does. -/
  | drainEntry (q : Nat)
  /-- ATTR_ENTRY (R262). Gives completion record, deadline and generation attributes to the next entry. -/
  | attrEntry (q : Nat)
  /-- ENTRY_DEADLINE (R264). Dial time reaches an entry's LIMIT and it ends TIMEOUT. -/
  | entryDeadline (q : Nat)
  /-- RECORD_FETCH (R335). The part reads the front record of a host work queue and advances HEAD. -/
  | recordFetch (pkg q : Nat)
  /-- DEPENDENCE_SATISFIED (R336). A dependence word reaches its threshold and the record becomes eligible. -/
  | dependenceSatisfied (pkg q : Nat) (second : Bool)
  /-- DEPENDENCE_REREAD (R336). With the registry full, the dispatcher re-reads a dependence word every 1 us. -/
  | dependenceReread (pkg q : Nat) (second : Bool)
  /-- DISPATCH_CHOOSE (R337). The package dispatcher chooses the highest eligible record by priority and age. -/
  | dispatchChoose (pkg : Nat)
  /-- LAUNCH_PLACE (R322). A launch is placed all at once, its image list performed and its members prepared. -/
  | launchPlace (launch : Nat)
  /-- LAUNCH_START (R339). Dial time reaches START and every placed member starts. -/
  | launchStart (launch : Nat)
  /-- RESERVATION_TIMEOUT (R338). The first record has waited 2 ms unplaced and the dispatcher reserves for it. -/
  | reservationTimeout (pkg : Nat)
  /-- LAUNCH_CLASSIFY (R340). 50 us after start the launch is classed compute-bound or memory-bound. -/
  | launchClassify (launch : Nat)
  /-- PREEMPT (R342). The dispatcher pre-empts victim launches, draining and saving every member. -/
  | preempt (pkg : Nat)
  /-- LAUNCH_RESTORE (R345). A saved launch is restored all at once under the placement rules. -/
  | launchRestore (launch : Nat)
  /-- CORE_RELEASE (R328). A draining core with no engine item in flight is cleared and released. -/
  | coreRelease (core : Nat)
  /-- GRANDMASTER_TAKEOVER (R373). The next lowest live package takes over as grandmaster. -/
  | grandmasterTakeover (pkg : Nat)
  /-- REMOTE_PATH_TIMEOUT (R396). A remote access finds no live path for 2 ms and fails. -/
  | remotePathTimeout (ctx idx : Nat)
  /-- MERGE_FLUSH (R398). A merge entry held for 1 us sends one merged update to the home. -/
  | mergeFlush (entry : Nat)
  /-- ACKNOWLEDGEMENT_ARRIVAL (R122). The acknowledgement of an issued store, RED or other access with no destination returns to the issuing core, bringing its flags or its failure. -/
  | acknowledgementArrival (ctx : Nat)
  /-- SWITCH_ACKNOWLEDGEMENT (R399). The home's acknowledgement of a forwarded or merged RED reaches the Polier switch, which records the page's SEAL answer and acknowledges the contributors. -/
  | switchAcknowledgement (entry : Nat)
  /-- NOP (R73). Slot A no-operation; it has no effect beyond its stall count. -/
  | nop
  /-- RET (R103). Jumps to s30; a return to EXIT ends the context. -/
  | ret
  /-- LBRK (R108). Clears the active loop count and transfers control past the loop end. -/
  | lbrk
  /-- GANG (R203). Arrives at the cell's wired gang barrier and, with MMA, starts a joint-array operation when every member has arrived. -/
  | gang
  /-- PMOV_EXPOSE (R223). Starts an exposure once the queue is empty and the drift reading is fresh, or traps REFIX. -/
  | pmovExpose
  /-- PMOV_WGO (R230). Trigger: programs the latched row into the plate with write-verify. -/
  | pmovWgo
  /-- PMOV_REFIX (R229). Trigger: calibrates the selected plate. -/
  | pmovRefix
  /-- TRAYDRAIN (R250). Parks the context until its tray is empty. -/
  | traydrain
  /-- DETACH (R290). Leaves the team and continues independently. -/
  | detach
  /-- ERET (R287). Ends trap handling and resumes at xpc, xpc + 8 or the stop PC. -/
  | eret
  /-- ERET_U (R287). Forwards a trap to the user vector at user level. -/
  | eretU
  /-- NOP_B (R74). Slot B no-operation. -/
  | nopB
  /-- REPLAY_REGISTER_WRITE (R358). A write to the REPLAY register answers fault records up to that number. -/
  | replayRegisterWrite (die : Nat) (num : Half)
  /-- RFAIL_REGISTER_WRITE (R358). A write to RFAIL answers one fault record as a failure. -/
  | rfailRegisterWrite (die : Nat) (num : Half)
  /-- INV_REGISTER_WRITE (R354). A write to INV starts invalidation of a translation range. -/
  | invRegisterWrite (die : Nat) (cmd : Word)
  /-- REGISTER_WRITE (R348). Write to a register that has no behaviour of its own. -/
  | registerWrite (reg : RegAddr) (v : Word)
  /-- QUEUE_TAIL_WRITE (R335). A doorbell write of TAIL posts records, or clears EN when it overruns the ring. -/
  | queueTailWrite (pkg q : Nat) (v : Half)
  /-- LAUNCH_KILL_REQUEST (R281). The host requests the kill of a whole launch through the BAR0 mailbox. -/
  | launchKillRequest (launch : Nat)
  /-- HOST_ACCESS (R401). A host access through the BAR2 aperture is translated as a class 0 request. -/
  | hostAccess (acc : HostAcc)
  /-- DIAL_EPOCH_SET (R371). The firmware loads the domain epoch into every dial. -/
  | dialEpochSet (v : Word)
  /-- DIAL_SYNC_EXCHANGE (R373). Every 1 ms each link runs a two-step timing exchange to discipline the dials. -/
  | dialSyncExchange (pkg : Nat) (ns : Nat) (ahead : Bool)
  /-- GRANDMASTER_LOST (R373). The grandmaster package is lost and packages hold over. -/
  | grandmasterLost (pkg : Nat)
  /-- FLIT_RECEIVE (R395). A Polier flit arrives and is checked by CRC and tag. -/
  | flitReceive (pkg : Nat) (link : Nat) (good : Bool)
  /-- SWITCH_RED_MERGE (R398). A Polier switch merges an eligible relaxed RED into a merge entry. -/
  | switchRedMerge (ctx idx : Nat)
  /-- DIE_HEARTBEAT_MISS (R410). A die misses ten heartbeats and is declared failed; surviving dies report its items. -/
  | dieHeartbeatMiss (die : Nat)
  /-- PACKAGE_LOST (R415). A package misses 1,000 link heartbeats and is declared lost. -/
  | packageLost (pkg : Nat)
  /-- BOOT_IMAGE_VERIFY (R404). Boot ROM verifies a firmware image's signature and extends its measurement. -/
  | bootImageVerify (pkg : Nat) (img : BootImage)
  /-- BOOT_SELF_TEST (R409). Boot self-test maps out failing register-file banks and withholds failing cores. -/
  | bootSelfTest (core : Nat) (found : SelfTest) (withheld : Bool)
  /-- COLD_RESET (R412). Cold reset clears the latent record and restarts the part. -/
  | coldReset (pkg : Nat)
  /-- WARM_RESET (R217). Warm reset restarts the part, keeping a frozen latent record. -/
  | warmReset (pkg : Nat)
  /-- ATTESTATION_REQUEST (R405). A host nonce through the mailbox returns a report signed by the identity key. -/
  | attestationRequest (pkg : Nat) (nonce : BitVec 256)
  /-- TENANT_KEY_LOAD (R406). The firmware unwraps a tenant key and writes it into the HBM controllers' slots. -/
  | tenantKeyLoad (die : Nat) (index : Byte) (tenant : Nat) (key : BitVec 512)
  /-- LATENT_READOUT (R413). A host nonce returns the die's latent-record entries with a signature. -/
  | latentReadout (die : Nat) (nonce : BitVec 256)
  /-- LATENT_RECORD_FREEZE (R412). A fatal error writes the freeze event, stops the ring and raises the interrupt. -/
  | latentRecordFreeze (die : Nat) (cause : Word)
  /-- ECC_SCRUB (R407). Periodic scrubbing reads and corrects a storage word. -/
  | eccScrub (unit : EccUnit) (correctable : Bool)
  /-- GOVERNOR_TICK (R414). Every 1 us the governor measures power and adjusts unit duty cycles. -/
  | governorTick (pkg : Nat) (draw : Draw)
  /-- THERMAL_STEP (R414). A temperature step above 95 C lowers the power cap. -/
  | thermalStep (pkg : Nat) (temp : Nat)
  deriving DecidableEq, Repr

/-- A decoded bundle (R58): stall count, literal of the lone form, slot A, slot B. -/
structure Bundle where
  stall : BitVec 3
  lone : Option Half
  a : Instr
  b : Instr
  deriving DecidableEq, Repr

end Sys2Proof
end

