-- ==== Sys2Proof/WellFormed.lean ====
section
/-! DEFINITION. Which operand values of an instruction are encodable and legal at decode (R70, R71, R75, R170):
a term outside them is refused ILLEGAL by name. Checks that trap OPERAND are made at issue (Issue.lean). -/

namespace Sys2Proof

/-- A guard g = 0 with gn = 1 is reserved (R70). -/
def Guard.ok (g : Guard) : Bool := !(g.c == 0 && g.neg)

/-- W = 1 needs a zero row field (R71). -/
def Rows.ok (r : Rows) : Bool := !r.w || r.row == 0

/-- The code of a row type (R71). -/
def LaneType.code : LaneType → Nat
  | .f32 => 0 | .bf16 => 1 | .f16 => 2 | .i32 => 3 | .i16 => 4 | .i8 => 5 | .u8 => 6 | .u32 => 7 | .f32b => 8 | .bf16b => 9

/-- An exact type, 0 to 7. -/
def LaneType.exact (y : LaneType) : Bool := y.code ≤ 7
/-- A float type of the transcendental rows (R170). -/
def LaneType.flt (y : LaneType) : Bool := y.code ≤ 2
/-- An integer type (R170). -/
def LaneType.int (y : LaneType) : Bool := 3 ≤ y.code && y.code ≤ 7
/-- A bounded type. -/
def LaneType.bounded (y : LaneType) : Bool := 8 ≤ y.code

/-- Lone immediates of a class: none is excluded here; the bundle fixes them. A nonzero scope needs an ordered kind (R121). -/
def kindOk (k : Kind) (sc : Scope) : Bool := k != .relaxed || sc == .ctx

/-- A number of tiles in a group (R190). -/
def GroupSize.tiles : GroupSize → Nat
  | .g1 => 1 | .g2 => 2 | .g4 => 4

/-- Legal at decode: the operand values that the instruction's entry admits. An NRED that uses no sb names s0 there (log
entry 34). -/
def wellFormed : Instr → Bool
  | .loop _ stop _ => stop != 0
  | .loopi _ stop _ => stop != 0
  | .ldAcq _ _ z u _ _ => !u || z != .d
  | .aadd _ _ _ sc k _ => kindOk k sc
  | .aand _ _ _ sc k _ => kindOk k sc
  | .aor _ _ _ sc k _ => kindOk k sc
  | .axor _ _ _ sc k _ => kindOk k sc
  | .amaxs _ _ _ sc k _ => kindOk k sc
  | .amins _ _ _ sc k _ => kindOk k sc
  | .amaxu _ _ _ sc k _ => kindOk k sc
  | .aminu _ _ _ sc k _ => kindOk k sc
  | .afadd _ _ sc k _ => kindOk k sc
  | .afmax _ _ sc k _ => kindOk k sc
  | .afmin _ _ sc k _ => kindOk k sc
  | .red _ _ op w sc k _ => kindOk k sc && (k == .relaxed || k == .rel) && (w || (op != .fadd && op != .fmax && op != .fmin))
  | .tld _ _ r _ => r.ok
  | .tst _ _ r _ => r.ok
  | .tstB _ _ r _ => r.ok
  | .barArrive _ b dom ga sw => (ga || b == 0) && (!sw || dom == .court || dom == .pav)
  | .barSync _ b dom ga sw => (ga || b == 0) && (!sw || dom == .court || dom == .pav)
  | .fork d a q mask => forkOk d a q mask
  | .forkTry d a q mask => forkOk d a q mask
  | .chain d _ _ e q => d != 0 && (e == .copy || q == 0)
  | .chainTry d _ _ e q => d != 0 && (e == .copy || q == 0)
  | .pmovXin _ row => row.toNat % 2 == 0
  | .pmovWrow _ _ row => row.toNat % 2 == 0
  | .nred _ _ b _ op => op == .maxkey || b == 0
  | .spill d n => d != 0 && d.toNat + n.toNat ≤ 30
  | .fill d n => d != 0 && d.toNat + n.toNat ≤ 30
  | .add g _ _ _ _ => g.ok
  | .sub g _ _ _ _ => g.ok
  | .addi g _ _ _ => g.ok
  | .mul g _ _ _ _ => g.ok
  | .mulh g _ _ _ => g.ok
  | .mulhU g _ _ _ => g.ok
  | .mulhSu g _ _ _ => g.ok
  | .div g _ _ _ _ _ => g.ok
  | .rem g _ _ _ _ _ => g.ok
  | .and_ g _ _ _ => g.ok
  | .or_ g _ _ _ => g.ok
  | .xor_ g _ _ _ => g.ok
  | .andn g _ _ _ => g.ok
  | .shl g _ _ _ _ => g.ok
  | .shlImm g _ _ n w => g.ok && (!w || n.toNat < 32)
  | .shr g _ _ _ _ => g.ok
  | .shrImm g _ _ n w => g.ok && (!w || n.toNat < 32)
  | .sra g _ _ _ _ => g.ok
  | .sraImm g _ _ n w => g.ok && (!w || n.toNat < 32)
  | .rot g _ _ _ _ => g.ok
  | .rotImm g _ _ n w => g.ok && (!w || n.toNat < 32)
  | .clz g _ _ _ => g.ok
  | .ctz g _ _ _ => g.ok
  | .popc g _ _ _ => g.ok
  | .rev g _ _ _ => g.ok
  | .min_ g _ _ _ _ => g.ok
  | .max_ g _ _ _ _ => g.ok
  | .minu g _ _ _ _ => g.ok
  | .maxu g _ _ _ _ => g.ok
  | .cmp g _ _ _ _ => g.ok
  | .sel g _ _ _ _ _ => g.ok
  | .ext g _ _ _ => g.ok
  | .bfx g _ _ _ _ => g.ok
  | .bfi g _ _ _ => g.ok
  | .lea g _ _ _ _ => g.ok
  | .cond g _ _ _ _ => g.ok
  | .fadd g _ _ _ => g.ok
  | .fsub g _ _ _ => g.ok
  | .fmul g _ _ _ => g.ok
  | .ffma g _ _ _ _ => g.ok
  | .fmin g _ _ _ => g.ok
  | .fmax g _ _ _ => g.ok
  | .fcmp g _ _ _ _ => g.ok
  | .fcvt g _ _ op m => g.ok && ((op != .fromF16 && op != .fromBf16) || m == .dyn)
  | .fclass g _ _ => g.ok
  | .vadd g _ _ _ r _ => g.ok && r.ok
  | .vsub g _ _ _ r _ => g.ok && r.ok
  | .vmul g _ _ _ r _ => g.ok && r.ok
  | .vfma g _ _ _ r _ => g.ok && r.ok
  | .vmin g _ _ _ r _ => g.ok && r.ok
  | .vmax g _ _ _ r _ => g.ok && r.ok
  | .vabs g _ _ r y => g.ok && r.ok && y.exact
  | .vneg g _ _ r y => g.ok && r.ok && y.exact
  | .vnabs g _ _ r y => g.ok && r.ok && y.exact
  | .vlogic g _ _ b r op => g.ok && r.ok && (op != .not || b == 0)
  | .vshift g _ _ _ r y => g.ok && r.ok && y.int
  | .vcmp g _ _ _ r _ y => g.ok && r.ok && y.exact
  | .vsel g _ _ _ r y => g.ok && r.ok && y.exact
  | .vcvt g _ _ x r y => g.ok && r.ok && (x.bounded == y.bounded)
  | .vpack g d _ b r m => g.ok && r.ok && d != b && 2 ≤ m.toNat && m.toNat ≤ 8
  | .vunpk g d _ b r m => g.ok && r.ok && d != b && 2 ≤ m.toNat && m.toNat ≤ 8
  | .vred g _ _ _ r y => g.ok && r.ok && y.exact
  | .vbcast g _ _ r y => g.ok && r.ok && y.exact
  | .vscale g _ _ _ r y => g.ok && r.ok && (y.flt || y.bounded)
  | .vexp2 g _ _ r y => g.ok && r.ok && y.flt
  | .vlog2 g _ _ r y => g.ok && r.ok && y.flt
  | .vrcp g _ _ r y => g.ok && r.ok && y.flt
  | .vrsqrt g _ _ r y => g.ok && r.ok && y.flt
  | .vperm g _ _ _ r y => g.ok && r.ok && y.exact
  | .vscan g _ _ _ r y => g.ok && r.ok && y.exact
  | .vsrch g _ _ _ r y => g.ok && r.ok && (y.code ≤ 4 || y == .u32)
  | .vmix g _ _ _ r y => g.ok && r.ok && (y == .f32 || y == .u32)
  | .viota g _ _ p _ r y => g.ok && r.ok && y.int && (!p || y == .u32)
  | .tmov g _ _ r => g.ok && r.ok
  | .tzero g _ r => g.ok && r.ok
  | .ttrans g _ _ y => g.ok && y.exact
  | .topk g d a b _ grp _ => g.ok && d != b && outside d a grp && outside b a grp
  | .tcolred g _ _ _ _ y => g.ok && y.exact
  | .tfix g _ _ r y => g.ok && r.ok && y.bounded
  | .tbndRd g _ _ _ y => g.ok && y.bounded
  | .tbndSet g _ _ r y => g.ok && r.ok && y.bounded
  | .mma g _ _ _ => g.ok
  | .mzero g => g.ok
  | .mdrain g _ _ => g.ok
  | .rleave g _ => g.ok
  | _ => true
where
  /-- FORK's ILLEGAL cases (R269): mask 0, a copy queue without a copy chain, d = 0, a register beyond s31. -/
  forkOk (d a : SReg) (q mask : BitVec 3) : Bool :=
    mask != 0 && (q == 0 || mask.getLsbD 0) && d != 0 &&
    (List.range 3).all fun i => !mask.getLsbD i || (d.toNat + i ≤ 31 && a.toNat + i ≤ 31)
  /-- A tile outside a group (R190). -/
  outside (t a : TReg) (g : GroupSize) : Bool := t.toNat < a.toNat || a.toNat + g.tiles ≤ t.toNat

end Sys2Proof
end

