-- ==== Sys2Proof/Decode.lean ====
section
/-! DEFINITION. The decoder of a bundle (R58 to R76) and the encoder, both from the field tables of the class
chapters: word 0 is a slot A instruction, word 1 a slot B instruction or a literal. A pattern that no entry
admits is refused by name. -/

namespace Sys2Proof

/-- w[hi:lo] (R4). -/
def bits (w hi lo : Nat) : Nat := w / 2 ^ lo % 2 ^ (hi + 1 - lo)

/-- A scalar register field at a bit. -/
def sreg (w lo : Nat) : SReg := BitVec.ofNat 5 (w / 2 ^ lo % 32)
/-- A tile register field, or another 4-bit field, at a bit. -/
def treg (w lo : Nat) : BitVec 4 := BitVec.ofNat 4 (w / 2 ^ lo % 16)
/-- A condition register field, or another 3-bit field, at a bit. -/
def creg (w lo : Nat) : BitVec 3 := BitVec.ofNat 3 (w / 2 ^ lo % 8)
/-- A Bool as 0 or 1. -/
def bnat (b : Bool) : Nat := if b then 1 else 0
/-- The guard fields of slot B (R69). -/
def guardOf (w : Nat) : Guard := ⟨creg w 22, bits w 21 21 = 1⟩
/-- The row field and W (R69). -/
def rowsOf (w : Nat) : Rows := ⟨treg w 5, bits w 4 4 = 1⟩

/-- The immediate of word 0, or the literal that replaces it; the field it replaces must be zero (R66). -/
def immOf (l : Option Half) (n v : Nat) : Option (Imm n) :=
  match l with
  | none => some (.short (BitVec.ofNat n v))
  | some x => if v = 0 then some (.lone x) else none

/-- The field bits of an immediate: zero in the lone form (R66). -/
def Imm.low {n : Nat} : Imm n → Nat
  | .short v => v.toNat
  | .lone _ => 0

/-- The literal of an immediate in the lone form. -/
def Imm.lit {n : Nat} : Imm n → Option Half
  | .short _ => none
  | .lone v => some v

/-- The value of a port move (R219): a register for K = 0, an immediate for K = 1; the field not used is zero. -/
def portOf (l : Option Half) (w : Nat) : Option PortVal :=
  if bits w 10 10 = 0 then if bits w 5 0 = 0 then some (.reg (sreg w 12)) else none
  else if bits w 16 12 = 0 then do let v ← immOf l 6 (bits w 5 0); some (.imm v) else none

/-- The operand bits of a port move. -/
def portBits : PortVal → Nat
  | .reg a => a.toNat * 2 ^ 12
  | .imm v => 2 ^ 10 + v.low

/-- LdMode from its code (R115). -/
def LdMode.of : Nat → Option LdMode
  | 0 => some .b | 1 => some .bu | 2 => some .h | 3 => some .hu | 4 => some .w | 5 => some .wu | 6 => some .d | _ => none

/-- The code of a LdMode (R115). -/
def LdMode.code : LdMode → Nat
  | .b => 0 | .bu => 1 | .h => 2 | .hu => 3 | .w => 4 | .wu => 5 | .d => 6

/-- Size from its code (R115, R116). -/
def Size.of : Nat → Option Size
  | 0 => some .b | 1 => some .h | 2 => some .w | 3 => some .d | _ => none

/-- The code of a Size (R115, R116). -/
def Size.code : Size → Nat
  | .b => 0 | .h => 1 | .w => 2 | .d => 3

/-- Scope from its code (R114). -/
def Scope.of : Nat → Option Scope
  | 0 => some .ctx | 1 => some .core | 2 => some .cell | 3 => some .bay | 4 => some .court | 5 => some .pav | 6 => some .die | 7 => some .pkg | 8 => some .sys | _ => none

/-- The code of a Scope (R114). -/
def Scope.code : Scope → Nat
  | .ctx => 0 | .core => 1 | .cell => 2 | .bay => 3 | .court => 4 | .pav => 5 | .die => 6 | .pkg => 7 | .sys => 8

/-- Kind from its code (R121). -/
def Kind.of : Nat → Option Kind
  | 0 => some .relaxed | 1 => some .acq | 2 => some .rel | 3 => some .acqrel | _ => none

/-- The code of a Kind (R121). -/
def Kind.code : Kind → Nat
  | .relaxed => 0 | .acq => 1 | .rel => 2 | .acqrel => 3

/-- FenceKind from its code (R129). -/
def FenceKind.of : Nat → Option FenceKind
  | 0 => some .acq | 1 => some .rel | 2 => some .acqrel | 3 => some .full | _ => none

/-- The code of a FenceKind (R129). -/
def FenceKind.code : FenceKind → Nat
  | .acq => 0 | .rel => 1 | .acqrel => 2 | .full => 3

/-- Domain from its code (R134). -/
def Domain.of : Nat → Option Domain
  | 0 => some .core | 1 => some .cell | 2 => some .bay | 3 => some .court | 4 => some .pav | 5 => some .die | 6 => some .pkg | 7 => some .sys | _ => none

/-- The code of a Domain (R134). -/
def Domain.code : Domain → Nat
  | .core => 0 | .cell => 1 | .bay => 2 | .court => 3 | .pav => 4 | .die => 5 | .pkg => 6 | .sys => 7

/-- RedOp from its code (R121). -/
def RedOp.of : Nat → Option RedOp
  | 0 => some .add | 1 => some .and | 2 => some .or | 3 => some .xor | 4 => some .maxs | 5 => some .mins | 6 => some .maxu | 7 => some .minu | 8 => some .fadd | 9 => some .fmax | 10 => some .fmin | _ => none

/-- The code of a RedOp (R121). -/
def RedOp.code : RedOp → Nat
  | .add => 0 | .and => 1 | .or => 2 | .xor => 3 | .maxs => 4 | .mins => 5 | .maxu => 6 | .minu => 7 | .fadd => 8 | .fmax => 9 | .fmin => 10

/-- EngineSel from its code (R268). -/
def EngineSel.of : Nat → Option EngineSel
  | 0 => some .copy | 1 => some .mat | 2 => some .vec | _ => none

/-- The code of a EngineSel (R268). -/
def EngineSel.code : EngineSel → Nat
  | .copy => 0 | .mat => 1 | .vec => 2

/-- NredOp from its code (R141). -/
def NredOp.of : Nat → Option NredOp
  | 0 => some .sum64 | 1 => some .max | 2 => some .min | 3 => some .maxkey | 5 => some .and | 6 => some .or | 7 => some .bcast | _ => none

/-- The code of a NredOp (R141). -/
def NredOp.code : NredOp → Nat
  | .sum64 => 0 | .max => 1 | .min => 2 | .maxkey => 3 | .and => 5 | .or => 6 | .bcast => 7

/-- CmpRel from its code (R90). -/
def CmpRel.of : Nat → Option CmpRel
  | 0 => some .eq | 1 => some .ne | 2 => some .lt | 3 => some .ge | 4 => some .ltu | 5 => some .geu | _ => none

/-- The code of a CmpRel (R90). -/
def CmpRel.code : CmpRel → Nat
  | .eq => 0 | .ne => 1 | .lt => 2 | .ge => 3 | .ltu => 4 | .geu => 5

/-- FcmpRel from its code (R98). -/
def FcmpRel.of : Nat → Option FcmpRel
  | 0 => some .eq | 1 => some .lt | 2 => some .le | 3 => some .un | _ => none

/-- The code of a FcmpRel (R98). -/
def FcmpRel.code : FcmpRel → Nat
  | .eq => 0 | .lt => 1 | .le => 2 | .un => 3

/-- ExtKind from its code (R87). -/
def ExtKind.of : Nat → Option ExtKind
  | 0 => some .sb | 1 => some .sh | 2 => some .sw | 4 => some .zb | 5 => some .zh | 6 => some .zw | _ => none

/-- The code of a ExtKind (R87). -/
def ExtKind.code : ExtKind → Nat
  | .sb => 0 | .sh => 1 | .sw => 2 | .zb => 4 | .zh => 5 | .zw => 6

/-- FcvtOp from its code (R99). -/
def FcvtOp.of : Nat → Option FcvtOp
  | 0 => some .i64 | 1 => some .u64 | 2 => some .i32 | 3 => some .u32 | 4 => some .fromI64 | 5 => some .fromU64 | 6 => some .f16 | 7 => some .fromF16 | 8 => some .bf16 | 9 => some .fromBf16 | _ => none

/-- The code of a FcvtOp (R99). -/
def FcvtOp.code : FcvtOp → Nat
  | .i64 => 0 | .u64 => 1 | .i32 => 2 | .u32 => 3 | .fromI64 => 4 | .fromU64 => 5 | .f16 => 6 | .fromF16 => 7 | .bf16 => 8 | .fromBf16 => 9

/-- FRound from its code (R99). -/
def FRound.of : Nat → Option FRound
  | 0 => some .dyn | 4 => some .rne | 5 => some .rtz | 6 => some .rdn | 7 => some .rup | _ => none

/-- The code of a FRound (R99). -/
def FRound.code : FRound → Nat
  | .dyn => 0 | .rne => 4 | .rtz => 5 | .rdn => 6 | .rup => 7

/-- LogicOp from its code (R173). -/
def LogicOp.of : Nat → Option LogicOp
  | 0 => some .and | 1 => some .or | 2 => some .xor | 3 => some .andn | 4 => some .not | _ => none

/-- The code of a LogicOp (R173). -/
def LogicOp.code : LogicOp → Nat
  | .and => 0 | .or => 1 | .xor => 2 | .andn => 3 | .not => 4

/-- VredOp from its code (R179). -/
def VredOp.of : Nat → Option VredOp
  | 0 => some .sum | 1 => some .max | 2 => some .min | 3 => some .argmax | _ => none

/-- The code of a VredOp (R179). -/
def VredOp.code : VredOp → Nat
  | .sum => 0 | .max => 1 | .min => 2 | .argmax => 3

/-- ScanOp from its code (R184). -/
def ScanOp.of : Nat → Option ScanOp
  | 0 => some .sum | 1 => some .xsum | 2 => some .max | _ => none

/-- The code of a ScanOp (R184). -/
def ScanOp.code : ScanOp → Nat
  | .sum => 0 | .xsum => 1 | .max => 2

/-- ColOp from its code (R191). -/
def ColOp.of : Nat → Option ColOp
  | 0 => some .sum | 1 => some .max | 2 => some .min | _ => none

/-- The code of a ColOp (R191). -/
def ColOp.code : ColOp → Nat
  | .sum => 0 | .max => 1 | .min => 2

/-- GroupSize from its code (R190). -/
def GroupSize.of : Nat → Option GroupSize
  | 0 => some .g1 | 1 => some .g2 | 2 => some .g4 | _ => none

/-- The code of a GroupSize (R190). -/
def GroupSize.code : GroupSize → Nat
  | .g1 => 0 | .g2 => 1 | .g4 => 2

/-- TopkType from its code (R190). -/
def TopkType.of : Nat → Option TopkType
  | 0 => some .f32 | 1 => some .i32 | 2 => some .u32 | _ => none

/-- The code of a TopkType (R190). -/
def TopkType.code : TopkType → Nat
  | .f32 => 0 | .i32 => 1 | .u32 => 2

/-- LaneType from its code (R71). -/
def LaneType.of : Nat → Option LaneType
  | 0 => some .f32 | 1 => some .bf16 | 2 => some .f16 | 3 => some .i32 | 4 => some .i16 | 5 => some .i8 | 6 => some .u8 | 7 => some .u32 | 8 => some .f32b | 9 => some .bf16b | _ => none

/-- Slot A major 0x00 (R72, R74). -/
def decA00 (w : Nat) : Option Instr :=
  if bits w 21 0 = 0 then some (.nop)
    else none

/-- Slot A major 0x01 (R72, R74). -/
def decA01 (w : Nat) (l : Option Half) : Option Instr :=
  (do let off ← immOf l 22 (bits w 21 0); some (.br off))

/-- Slot A major 0x02 (R72, R74). -/
def decA02 (w : Nat) (l : Option Half) : Option Instr :=
  (do let off ← immOf l 18 (bits w 17 0); some (.bc (creg w 19) (bits w 18 18 = 1) off))

/-- Slot A major 0x03 (R72, R74). -/
def decA03 (w : Nat) (l : Option Half) : Option Instr :=
  if bits w 16 16 = 1 then (do let off ← immOf l 16 (bits w 15 0); some (.bpend (sreg w 17) off))
    else if bits w 16 16 = 0 then (do let off ← immOf l 16 (bits w 15 0); some (.bnpend (sreg w 17) off))
    else none

/-- Slot A major 0x04 (R72, R74). -/
def decA04 (w : Nat) (l : Option Half) : Option Instr :=
  (do let off ← immOf l 22 (bits w 21 0); some (.call off))

/-- Slot A major 0x05 (R72, R74). -/
def decA05 (w : Nat) : Option Instr :=
  if bits w 11 0 = 0 then some (.jr (sreg w 17) (sreg w 12))
    else if bits w 21 0 = 1 then some (.ret)
    else none

/-- Slot A major 0x06 (R72, R74). -/
def decA06 (w : Nat) (l : Option Half) : Option Instr :=
  if bits w 6 5 = 0 ∧ bits w 19 19 = 0 then some (.loop (BitVec.ofNat 2 (bits w 21 20)) (BitVec.ofNat 12 (bits w 18 7)) (sreg w 0))
    else if bits w 19 19 = 1 then (do let cnt ← immOf l 7 (bits w 6 0); some (.loopi (BitVec.ofNat 2 (bits w 21 20)) (BitVec.ofNat 12 (bits w 18 7)) cnt))
    else none

/-- Slot A major 0x07 (R72, R74). -/
def decA07 (w : Nat) : Option Instr :=
  if bits w 21 0 = 0 then some (.lbrk)
    else none

/-- Slot A major 0x08 (R72, R74). -/
def decA08 (w : Nat) (l : Option Half) : Option Instr :=
  if bits w 1 0 = 0 ∧ bits w 11 9 = 7 then (do let z ← Size.of (bits w 8 7); let sc ← Scope.of (bits w 5 2); let off ← immOf l 0 0; some (.ldAcq (sreg w 17) (sreg w 12) z (bits w 6 6 = 1) sc off))
    else (do let m ← LdMode.of (bits w 11 9); let off ← immOf l 9 (bits w 8 0); some (.ld (sreg w 17) (sreg w 12) m off))

/-- Slot A major 0x09 (R72, R74). -/
def decA09 (w : Nat) (l : Option Half) : Option Instr :=
  if bits w 9 9 = 0 then (do let z ← Size.of (bits w 11 10); let off ← immOf l 9 (bits w 8 0); some (.st (sreg w 17) (sreg w 12) z off))
    else if bits w 4 0 = 0 ∧ bits w 9 9 = 1 then (do let z ← Size.of (bits w 11 10); let sc ← Scope.of (bits w 8 5); let off ← immOf l 0 0; some (.stRel (sreg w 17) (sreg w 12) z sc off))
    else none

/-- Slot A major 0x0A (R72, R74). -/
def decA0A (w : Nat) (l : Option Half) : Option Instr :=
  if bits w 11 10 = 0 then (do let off ← immOf l 10 (bits w 9 0); some (.ldp (sreg w 17) (sreg w 12) off))
    else if bits w 5 0 = 0 ∧ bits w 11 10 = 1 then (do let sc ← Scope.of (bits w 9 6); let off ← immOf l 0 0; some (.ldpAcq (sreg w 17) (sreg w 12) sc off))
    else if bits w 11 10 = 2 then (do let off ← immOf l 10 (bits w 9 0); some (.stp (sreg w 17) (sreg w 12) off))
    else if bits w 5 0 = 0 ∧ bits w 11 10 = 3 then (do let sc ← Scope.of (bits w 9 6); let off ← immOf l 0 0; some (.stpRel (sreg w 17) (sreg w 12) sc off))
    else none

/-- Slot A major 0x0B (R72, R74). -/
def decA0B (w : Nat) (l : Option Half) : Option Instr :=
  if bits w 11 11 = 0 then (do let z ← Size.of (bits w 10 9); let off ← immOf l 4 (bits w 3 0); some (.lds (sreg w 17) (sreg w 12) z (sreg w 4) off))
    else if bits w 11 11 = 1 then (do let z ← Size.of (bits w 10 9); let off ← immOf l 4 (bits w 3 0); some (.sts (sreg w 17) (sreg w 12) z (sreg w 4) off))
    else none

/-- Slot A major 0x0C (R72, R74). -/
def decA0C (w : Nat) (l : Option Half) : Option Instr :=
  if bits w 11 10 = 0 then (do let off ← immOf l 9 (bits w 8 0); some (.xch (sreg w 17) (sreg w 12) (bits w 9 9 = 1) off))
    else if bits w 11 10 = 1 then (do let off ← immOf l 4 (bits w 3 0); some (.xchS (sreg w 17) (sreg w 12) (bits w 9 9 = 1) (sreg w 4) off))
    else if bits w 11 10 = 2 then (do let off ← immOf l 9 (bits w 8 0); some (.cas (sreg w 17) (sreg w 12) (bits w 9 9 = 1) off))
    else none

/-- Slot A major 0x0D (R72, R74). -/
def decA0D (w : Nat) (l : Option Half) : Option Instr :=
  if bits w 11 8 = 0 then (do let sc ← Scope.of (bits w 6 3); let k ← Kind.of (bits w 2 0); let off ← immOf l 0 0; some (.aadd (sreg w 17) (sreg w 12) (bits w 7 7 = 1) sc k off))
    else if bits w 11 8 = 1 then (do let sc ← Scope.of (bits w 6 3); let k ← Kind.of (bits w 2 0); let off ← immOf l 0 0; some (.aand (sreg w 17) (sreg w 12) (bits w 7 7 = 1) sc k off))
    else if bits w 11 8 = 2 then (do let sc ← Scope.of (bits w 6 3); let k ← Kind.of (bits w 2 0); let off ← immOf l 0 0; some (.aor (sreg w 17) (sreg w 12) (bits w 7 7 = 1) sc k off))
    else if bits w 11 8 = 3 then (do let sc ← Scope.of (bits w 6 3); let k ← Kind.of (bits w 2 0); let off ← immOf l 0 0; some (.axor (sreg w 17) (sreg w 12) (bits w 7 7 = 1) sc k off))
    else if bits w 11 8 = 4 then (do let sc ← Scope.of (bits w 6 3); let k ← Kind.of (bits w 2 0); let off ← immOf l 0 0; some (.amaxs (sreg w 17) (sreg w 12) (bits w 7 7 = 1) sc k off))
    else if bits w 11 8 = 5 then (do let sc ← Scope.of (bits w 6 3); let k ← Kind.of (bits w 2 0); let off ← immOf l 0 0; some (.amins (sreg w 17) (sreg w 12) (bits w 7 7 = 1) sc k off))
    else if bits w 11 8 = 6 then (do let sc ← Scope.of (bits w 6 3); let k ← Kind.of (bits w 2 0); let off ← immOf l 0 0; some (.amaxu (sreg w 17) (sreg w 12) (bits w 7 7 = 1) sc k off))
    else if bits w 11 8 = 7 then (do let sc ← Scope.of (bits w 6 3); let k ← Kind.of (bits w 2 0); let off ← immOf l 0 0; some (.aminu (sreg w 17) (sreg w 12) (bits w 7 7 = 1) sc k off))
    else if bits w 11 7 = 17 then (do let sc ← Scope.of (bits w 6 3); let k ← Kind.of (bits w 2 0); let off ← immOf l 0 0; some (.afadd (sreg w 17) (sreg w 12) sc k off))
    else if bits w 11 7 = 19 then (do let sc ← Scope.of (bits w 6 3); let k ← Kind.of (bits w 2 0); let off ← immOf l 0 0; some (.afmax (sreg w 17) (sreg w 12) sc k off))
    else if bits w 11 7 = 21 then (do let sc ← Scope.of (bits w 6 3); let k ← Kind.of (bits w 2 0); let off ← immOf l 0 0; some (.afmin (sreg w 17) (sreg w 12) sc k off))
    else none

/-- Slot A major 0x0E (R72, R74). -/
def decA0E (w : Nat) (l : Option Half) : Option Instr :=
  (do let op ← RedOp.of (bits w 11 8); let sc ← Scope.of (bits w 6 3); let k ← Kind.of (bits w 2 0); let off ← immOf l 0 0; some (.red (sreg w 17) (sreg w 12) op (bits w 7 7 = 1) sc k off))

/-- Slot A major 0x0F (R72, R74). -/
def decA0F (w : Nat) (l : Option Half) : Option Instr :=
  if bits w 6 0 = 0 ∧ bits w 11 11 = 0 then (do let sc ← Scope.of (bits w 10 7); let off ← immOf l 0 0; some (.faddt (sreg w 17) (sreg w 12) sc off))
    else if bits w 11 0 = 2048 then (do let off ← immOf l 0 0; some (.waitw (sreg w 17) (sreg w 12) off))
    else none

/-- Slot A major 0x10 (R72, R74). -/
def decA10 (w : Nat) (l : Option Half) : Option Instr :=
  if bits w 11 10 = 0 then (do let off ← immOf l 9 (bits w 8 0); some (.scld (sreg w 17) (sreg w 12) (bits w 9 9 = 1) off))
    else if bits w 11 10 = 1 then (do let off ← immOf l 9 (bits w 8 0); some (.scst (sreg w 17) (sreg w 12) (bits w 9 9 = 1) off))
    else if bits w 11 10 = 2 then (do let off ← immOf l 9 (bits w 8 0); some (.scx (sreg w 17) (sreg w 12) (bits w 9 9 = 1) off))
    else none

/-- Slot A major 0x11 (R72, R74). -/
def decA11 (w : Nat) : Option Instr :=
  if bits w 21 6 = 0 then (do let k ← FenceKind.of (bits w 5 4); let sc ← Scope.of (bits w 3 0); some (.fence k sc))
    else none

/-- Slot A major 0x12 (R72, R74). -/
def decA12 (w : Nat) (l : Option Half) : Option Instr :=
  if bits w 6 6 = 0 ∧ bits w 21 21 = 0 then (do let off ← immOf l 6 (bits w 5 0); some (.tld (treg w 17) (sreg w 12) ⟨BitVec.ofNat 4 (bits w 10 7), bits w 11 11 = 1⟩ off))
    else none

/-- Slot A major 0x13 (R72, R74). -/
def decA13 (w : Nat) (l : Option Half) : Option Instr :=
  if bits w 6 6 = 0 ∧ bits w 21 21 = 0 then (do let off ← immOf l 6 (bits w 5 0); some (.tst (treg w 17) (sreg w 12) ⟨BitVec.ofNat 4 (bits w 10 7), bits w 11 11 = 1⟩ off))
    else if bits w 6 6 = 1 ∧ bits w 21 21 = 0 then (do let off ← immOf l 6 (bits w 5 0); some (.tstB (treg w 17) (sreg w 12) ⟨BitVec.ofNat 4 (bits w 10 7), bits w 11 11 = 1⟩ off))
    else none

/-- Slot A major 0x14 (R72, R74). A literal beside TLDX is ignored, as R66 has it of format A-R, though R110 would let a
memory instruction without offset bits take one as its byte offset (DESIGN CHOICE; log entry 108). -/
def decA14 (w : Nat) : Option Instr :=
  if bits w 6 0 = 0 ∧ bits w 21 21 = 0 then some (.tldx (treg w 17) (sreg w 12) (sreg w 7))
    else none

/-- Slot A major 0x15 (R72, R74). -/
def decA15 (w : Nat) : Option Instr :=
  if bits w 11 4 = 0 then some (.bguiseClear (sreg w 17) (sreg w 12) (treg w 0))
    else if bits w 11 4 = 1 then some (.bguiseKeep (sreg w 17) (sreg w 12) (treg w 0))
    else if bits w 11 4 = 2 then some (.bguiseConvert (sreg w 17) (sreg w 12) (treg w 0))
    else none

/-- Slot A major 0x16 (R72, R74). -/
def decA16 (w : Nat) : Option Instr :=
  if bits w 16 4 = 0 then some (.bdesc (sreg w 17) (treg w 0))
    else if bits w 6 0 = 64 then some (.arcade (sreg w 17) (sreg w 12) (sreg w 7))
    else if bits w 11 0 = 80 then some (.arcadeDis (sreg w 17) (sreg w 12))
    else none

/-- Slot A major 0x17 (R72, R74). -/
def decA17 (w : Nat) : Option Instr :=
  if bits w 1 0 = 0 ∧ bits w 16 12 = 0 then (do let dom ← Domain.of (bits w 6 4); some (.barArrive (sreg w 17) (sreg w 7) dom (bits w 3 3 = 1) (bits w 2 2 = 1)))
    else if bits w 3 0 = 1 ∧ bits w 11 7 = 0 ∧ bits w 21 17 = 0 then (do let dom ← Domain.of (bits w 6 4); some (.barWait (sreg w 12) dom))
    else if bits w 1 0 = 2 ∧ bits w 16 12 = 0 then (do let dom ← Domain.of (bits w 6 4); some (.barSync (sreg w 17) (sreg w 7) dom (bits w 3 3 = 1) (bits w 2 2 = 1)))
    else if bits w 3 0 = 3 ∧ bits w 21 7 = 0 then (do let dom ← Domain.of (bits w 6 4); some (.barDepart dom))
    else none

/-- Slot A major 0x18 (R72, R74). -/
def decA18 (w : Nat) : Option Instr :=
  if bits w 21 0 = 0 then some (.gang)
    else none

/-- Slot A major 0x19 (R72, R74). -/
def decA19 (w : Nat) : Option Instr :=
  if bits w 11 6 = 0 then some (.fork (sreg w 17) (sreg w 12) (creg w 3) (creg w 0))
    else if bits w 11 6 = 1 then some (.forkTry (sreg w 17) (sreg w 12) (creg w 3) (creg w 0))
    else none

/-- Slot A major 0x1A (R72, R74). -/
def decA1A (w : Nat) : Option Instr :=
  if bits w 16 0 = 0 then some (.rendez (sreg w 17))
    else none

/-- Slot A major 0x1B (R72, R74). -/
def decA1B (w : Nat) : Option Instr :=
  if bits w 0 0 = 0 ∧ bits w 6 6 = 0 then (do let e ← EngineSel.of (bits w 5 4); some (.chain (sreg w 17) (sreg w 12) (sreg w 7) e (creg w 1)))
    else if bits w 0 0 = 0 ∧ bits w 6 6 = 1 then (do let e ← EngineSel.of (bits w 5 4); some (.chainTry (sreg w 17) (sreg w 12) (sreg w 7) e (creg w 1)))
    else none

/-- Slot A major 0x1C (R72, R74). -/
def decA1C (w : Nat) (l : Option Half) : Option Instr :=
  if bits w 9 6 = 0 ∧ bits w 11 11 = 0 ∧ bits w 21 17 = 0 then (do let v ← portOf l w; some (.pmovPsel v))
    else if bits w 16 4 = 132 ∧ bits w 21 21 = 0 then some (.pmovXin (treg w 17) (treg w 0))
    else if bits w 9 6 = 2 ∧ bits w 11 11 = 0 ∧ bits w 21 17 = 0 then (do let v ← portOf l w; some (.pmovGain v))
    else if bits w 9 6 = 3 ∧ bits w 11 11 = 0 ∧ bits w 21 17 = 0 then (do let v ← portOf l w; some (.pmovXscl v))
    else if bits w 9 6 = 4 ∧ bits w 11 11 = 0 ∧ bits w 21 17 = 0 then (do let v ← portOf l w; some (.pmovWscl v))
    else if bits w 9 6 = 5 ∧ bits w 11 11 = 0 ∧ bits w 21 17 = 0 then (do let v ← portOf l w; some (.pmovYout v))
    else if bits w 21 0 = 1408 ∧ (l = none ∨ l = some 0) then some (.pmovExpose)
    else if bits w 11 4 = 156 ∧ bits w 21 21 = 0 then some (.pmovWrow (treg w 17) (sreg w 12) (treg w 0))
    else if bits w 21 0 = 1536 ∧ (l = none ∨ l = some 0) then some (.pmovWgo)
    else if bits w 21 0 = 1600 ∧ (l = none ∨ l = some 0) then some (.pmovRefix)
    else if bits w 16 0 = 3712 then some (.pmovStat (sreg w 17))
    else if bits w 11 0 = 704 then some (.pmovCalwWrite (sreg w 17) (sreg w 12))
    else if bits w 11 0 = 3776 then some (.pmovCalwRead (sreg w 17) (sreg w 12))
    else none

/-- Slot A major 0x1D (R72, R74). -/
def decA1D (w : Nat) : Option Instr :=
  if bits w 16 0 = 0 then some (.trayq (sreg w 17))
    else if bits w 11 0 = 1 then some (.trayqDep (sreg w 17) (sreg w 12))
    else if bits w 16 0 = 2 then some (.trayqStop (sreg w 17))
    else if bits w 11 0 = 3 ∧ bits w 21 17 = 0 then some (.trayqLand (sreg w 12))
    else if bits w 21 0 = 4 then some (.traydrain)
    else none

/-- Slot A major 0x1E (R72, R74). -/
def decA1E (w : Nat) : Option Instr :=
  if bits w 21 0 = 0 then some (.detach)
    else if bits w 3 0 = 1 ∧ bits w 21 7 = 0 then (do let dom ← Domain.of (bits w 6 4); some (.attach dom))
    else if bits w 3 0 = 2 ∧ bits w 11 7 = 0 ∧ bits w 21 17 = 0 then (do let dom ← Domain.of (bits w 6 4); some (.follow (sreg w 12) dom))
    else none

/-- Slot A major 0x1F (R72, R74). -/
def decA1F (w : Nat) : Option Instr :=
  if bits w 16 0 = 0 then some (.rdtime (sreg w 17))
    else if bits w 11 0 = 1 ∧ bits w 21 17 = 0 then some (.waitt (sreg w 12))
    else none

/-- Slot A major 0x20 (R72, R74). The register fields that a form does not use are zero (log entry 15). -/
def decA20 (w : Nat) : Option Instr :=
  if bits w 16 0 = 0 then some (.wsplit (sreg w 17))
    else if bits w 11 0 = 1 ∧ bits w 21 17 = 0 then some (.wreturn (sreg w 12))
    else if bits w 11 0 = 2 ∧ bits w 21 17 = 0 then some (.wsplitAdd (sreg w 12))
    else none

/-- Slot A major 0x21 (R72, R74). -/
def decA21 (w : Nat) : Option Instr :=
  if bits w 3 0 = 4 ∧ bits w 11 11 = 0 ∧ bits w 16 16 = 0 ∧ bits w 21 21 = 0 then (do let dom ← Domain.of (bits w 6 4); some (.nredMergek (treg w 17) (treg w 12) (treg w 7) dom))
    else (do let dom ← Domain.of (bits w 6 4); let op ← NredOp.of (bits w 3 0); some (.nred (sreg w 17) (sreg w 12) (sreg w 7) dom op))

/-- Slot A major 0x22 (R72, R74). -/
def decA22 (w : Nat) : Option Instr :=
  if bits w 16 3 = 15872 then some (.spill (sreg w 17) (creg w 0))
    else if bits w 16 3 = 15873 then some (.fill (sreg w 17) (creg w 0))
    else none

/-- Slot A major 0x23 (R72, R74). -/
def decA23 (w : Nat) (l : Option Half) : Option Instr :=
  if bits w 16 10 = 0 ∧ l = none then some (.csrr (sreg w 17) (BitVec.ofNat 10 (bits w 9 0)))
    else if bits w 11 10 = 1 ∧ l = none then some (.csrw (sreg w 17) (sreg w 12) (BitVec.ofNat 10 (bits w 9 0)))
    else if bits w 11 10 = 2 ∧ l = none then some (.csrs (sreg w 17) (sreg w 12) (BitVec.ofNat 10 (bits w 9 0)))
    else if bits w 11 10 = 3 ∧ l = none then some (.csrc (sreg w 17) (sreg w 12) (BitVec.ofNat 10 (bits w 9 0)))
    else none

/-- Slot A major 0x24 (R72, R74). -/
def decA24 (w : Nat) : Option Instr :=
  if bits w 6 0 = 0 ∧ bits w 21 17 = 0 then some (.trap (sreg w 12) (sreg w 7))
    else if bits w 6 0 = 1 ∧ bits w 21 17 = 0 then some (.break_ (sreg w 12) (sreg w 7))
    else if bits w 21 0 = 2 then some (.eret)
    else if bits w 21 0 = 3 then some (.eretU)
    else if bits w 11 0 = 4 ∧ bits w 21 17 = 0 then some (.eretTo (sreg w 12))
    else if bits w 11 0 = 5 ∧ bits w 21 17 = 0 then some (.wfi (sreg w 12))
    else if bits w 6 0 = 6 ∧ bits w 21 17 = 0 then some (.replay (sreg w 12) (sreg w 7))
    else if bits w 6 0 = 7 ∧ bits w 21 17 = 0 then some (.replayFail (sreg w 12) (sreg w 7))
    else none

/-- Slot A major 0x25 (R72, R74). -/
def decA25 (w : Nat) (l : Option Half) : Option Instr :=
  if bits w 16 12 = 0 then (do let imm ← immOf l 12 (bits w 11 0); some (.movi (sreg w 17) imm))
    else none

/-- Slot B major 0x00 (R72, R74). -/
def decB00 (w : Nat) : Option Instr :=
  if bits w 5 1 = 0 then some (.add (guardOf w) (sreg w 16) (sreg w 11) (sreg w 6) (bits w 0 0 = 1))
    else none

/-- Slot B major 0x01 (R72, R74). -/
def decB01 (w : Nat) : Option Instr :=
  if bits w 5 1 = 0 then some (.sub (guardOf w) (sreg w 16) (sreg w 11) (sreg w 6) (bits w 0 0 = 1))
    else none

/-- Slot B major 0x02 (R72, R74). -/
def decB02 (w : Nat) : Option Instr :=
  some (.addi (guardOf w) (sreg w 16) (sreg w 11) (BitVec.ofNat 11 (bits w 10 0)))

/-- Slot B major 0x03 (R72, R74). -/
def decB03 (w : Nat) : Option Instr :=
  if bits w 5 1 = 0 then some (.mul (guardOf w) (sreg w 16) (sreg w 11) (sreg w 6) (bits w 0 0 = 1))
    else none

/-- Slot B major 0x04 (R72, R74). -/
def decB04 (w : Nat) : Option Instr :=
  if bits w 5 0 = 0 then some (.mulh (guardOf w) (sreg w 16) (sreg w 11) (sreg w 6))
    else if bits w 5 0 = 2 then some (.mulhU (guardOf w) (sreg w 16) (sreg w 11) (sreg w 6))
    else if bits w 5 0 = 4 then some (.mulhSu (guardOf w) (sreg w 16) (sreg w 11) (sreg w 6))
    else none

/-- Slot B major 0x05 (R72, R74). -/
def decB05 (w : Nat) : Option Instr :=
  if bits w 5 2 = 0 then some (.div (guardOf w) (sreg w 16) (sreg w 11) (sreg w 6) (bits w 1 1 = 1) (bits w 0 0 = 1))
    else none

/-- Slot B major 0x06 (R72, R74). -/
def decB06 (w : Nat) : Option Instr :=
  if bits w 5 2 = 0 then some (.rem (guardOf w) (sreg w 16) (sreg w 11) (sreg w 6) (bits w 1 1 = 1) (bits w 0 0 = 1))
    else none

/-- Slot B major 0x07 (R72, R74). -/
def decB07 (w : Nat) : Option Instr :=
  if bits w 5 0 = 0 then some (.and_ (guardOf w) (sreg w 16) (sreg w 11) (sreg w 6))
    else none

/-- Slot B major 0x08 (R72, R74). -/
def decB08 (w : Nat) : Option Instr :=
  if bits w 5 0 = 0 then some (.or_ (guardOf w) (sreg w 16) (sreg w 11) (sreg w 6))
    else none

/-- Slot B major 0x09 (R72, R74). -/
def decB09 (w : Nat) : Option Instr :=
  if bits w 5 0 = 0 then some (.xor_ (guardOf w) (sreg w 16) (sreg w 11) (sreg w 6))
    else none

/-- Slot B major 0x0A (R72, R74). -/
def decB0A (w : Nat) : Option Instr :=
  if bits w 5 0 = 0 then some (.andn (guardOf w) (sreg w 16) (sreg w 11) (sreg w 6))
    else none

/-- Slot B major 0x0B (R72, R74). -/
def decB0B (w : Nat) : Option Instr :=
  if bits w 5 1 = 0 then some (.shl (guardOf w) (sreg w 16) (sreg w 11) (sreg w 6) (bits w 0 0 = 1))
    else if bits w 3 1 = 0 ∧ bits w 5 5 = 1 then some (.shlImm (guardOf w) (sreg w 16) (sreg w 11) (BitVec.ofNat 6 (bits w 10 6 + 32 * bits w 4 4)) (bits w 0 0 = 1))
    else none

/-- Slot B major 0x0C (R72, R74). -/
def decB0C (w : Nat) : Option Instr :=
  if bits w 5 1 = 0 then some (.shr (guardOf w) (sreg w 16) (sreg w 11) (sreg w 6) (bits w 0 0 = 1))
    else if bits w 3 1 = 0 ∧ bits w 5 5 = 1 then some (.shrImm (guardOf w) (sreg w 16) (sreg w 11) (BitVec.ofNat 6 (bits w 10 6 + 32 * bits w 4 4)) (bits w 0 0 = 1))
    else none

/-- Slot B major 0x0D (R72, R74). -/
def decB0D (w : Nat) : Option Instr :=
  if bits w 5 1 = 0 then some (.sra (guardOf w) (sreg w 16) (sreg w 11) (sreg w 6) (bits w 0 0 = 1))
    else if bits w 3 1 = 0 ∧ bits w 5 5 = 1 then some (.sraImm (guardOf w) (sreg w 16) (sreg w 11) (BitVec.ofNat 6 (bits w 10 6 + 32 * bits w 4 4)) (bits w 0 0 = 1))
    else none

/-- Slot B major 0x0E (R72, R74). -/
def decB0E (w : Nat) : Option Instr :=
  if bits w 5 1 = 0 then some (.rot (guardOf w) (sreg w 16) (sreg w 11) (sreg w 6) (bits w 0 0 = 1))
    else if bits w 3 1 = 0 ∧ bits w 5 5 = 1 then some (.rotImm (guardOf w) (sreg w 16) (sreg w 11) (BitVec.ofNat 6 (bits w 10 6 + 32 * bits w 4 4)) (bits w 0 0 = 1))
    else none

/-- Slot B major 0x0F (R72, R74). -/
def decB0F (w : Nat) : Option Instr :=
  if bits w 1 0 = 0 ∧ bits w 10 3 = 0 then some (.clz (guardOf w) (sreg w 16) (sreg w 11) (bits w 2 2 = 1))
    else if bits w 1 0 = 1 ∧ bits w 10 3 = 0 then some (.ctz (guardOf w) (sreg w 16) (sreg w 11) (bits w 2 2 = 1))
    else if bits w 1 0 = 2 ∧ bits w 10 3 = 0 then some (.popc (guardOf w) (sreg w 16) (sreg w 11) (bits w 2 2 = 1))
    else if bits w 1 0 = 3 ∧ bits w 10 3 = 0 then some (.rev (guardOf w) (sreg w 16) (sreg w 11) (bits w 2 2 = 1))
    else none

/-- Slot B major 0x10 (R72, R74). -/
def decB10 (w : Nat) : Option Instr :=
  if bits w 1 0 = 0 ∧ bits w 5 3 = 0 then some (.min_ (guardOf w) (sreg w 16) (sreg w 11) (sreg w 6) (bits w 2 2 = 1))
    else if bits w 1 0 = 1 ∧ bits w 5 3 = 0 then some (.max_ (guardOf w) (sreg w 16) (sreg w 11) (sreg w 6) (bits w 2 2 = 1))
    else if bits w 1 0 = 2 ∧ bits w 5 3 = 0 then some (.minu (guardOf w) (sreg w 16) (sreg w 11) (sreg w 6) (bits w 2 2 = 1))
    else if bits w 1 0 = 3 ∧ bits w 5 3 = 0 then some (.maxu (guardOf w) (sreg w 16) (sreg w 11) (sreg w 6) (bits w 2 2 = 1))
    else none

/-- Slot B major 0x11 (R72, R74). -/
def decB11 (w : Nat) : Option Instr :=
  if bits w 5 3 = 0 ∧ bits w 20 19 = 0 then (do let r ← CmpRel.of (bits w 2 0); some (.cmp (guardOf w) (creg w 16) (sreg w 11) (sreg w 6) r))
    else none

/-- Slot B major 0x12 (R72, R74). -/
def decB12 (w : Nat) : Option Instr :=
  if bits w 5 4 = 0 then some (.sel (guardOf w) (sreg w 16) (sreg w 11) (sreg w 6) (bits w 3 3 = 1) (creg w 0))
    else none

/-- Slot B major 0x13 (R72, R74). -/
def decB13 (w : Nat) : Option Instr :=
  if bits w 10 3 = 0 then (do let x ← ExtKind.of (bits w 2 0); some (.ext (guardOf w) (sreg w 16) (sreg w 11) x))
    else none

/-- Slot B major 0x14 (R72, R74). -/
def decB14 (w : Nat) : Option Instr :=
  if bits w 5 1 = 0 then some (.bfx (guardOf w) (sreg w 16) (sreg w 11) (sreg w 6) (bits w 0 0 = 1))
    else none

/-- Slot B major 0x15 (R72, R74). -/
def decB15 (w : Nat) : Option Instr :=
  if bits w 5 0 = 0 then some (.bfi (guardOf w) (sreg w 16) (sreg w 11) (sreg w 6))
    else none

/-- Slot B major 0x16 (R72, R74). -/
def decB16 (w : Nat) : Option Instr :=
  if bits w 5 3 = 0 then some (.lea (guardOf w) (sreg w 16) (sreg w 11) (sreg w 6) (creg w 0))
    else none

/-- Slot B major 0x17 (R72, R74). -/
def decB17 (w : Nat) : Option Instr :=
  if bits w 5 4 = 0 ∧ bits w 10 9 = 0 ∧ bits w 15 14 = 0 ∧ bits w 20 19 = 0 then some (.cond (guardOf w) (creg w 16) (creg w 11) (creg w 6) (treg w 0))
    else none

/-- Slot B major 0x18 (R72, R74). -/
def decB18 (w : Nat) : Option Instr :=
  if bits w 5 0 = 0 then some (.fadd (guardOf w) (sreg w 16) (sreg w 11) (sreg w 6))
    else none

/-- Slot B major 0x19 (R72, R74). -/
def decB19 (w : Nat) : Option Instr :=
  if bits w 5 0 = 0 then some (.fsub (guardOf w) (sreg w 16) (sreg w 11) (sreg w 6))
    else none

/-- Slot B major 0x1A (R72, R74). -/
def decB1A (w : Nat) : Option Instr :=
  if bits w 5 0 = 0 then some (.fmul (guardOf w) (sreg w 16) (sreg w 11) (sreg w 6))
    else none

/-- Slot B major 0x1B (R72, R74). -/
def decB1B (w : Nat) : Option Instr :=
  if bits w 5 5 = 0 then some (.ffma (guardOf w) (sreg w 16) (sreg w 11) (sreg w 6) (sreg w 0))
    else none

/-- Slot B major 0x1C (R72, R74). -/
def decB1C (w : Nat) : Option Instr :=
  if bits w 5 0 = 0 then some (.fmin (guardOf w) (sreg w 16) (sreg w 11) (sreg w 6))
    else if bits w 5 0 = 1 then some (.fmax (guardOf w) (sreg w 16) (sreg w 11) (sreg w 6))
    else none

/-- Slot B major 0x1D (R72, R74). -/
def decB1D (w : Nat) : Option Instr :=
  if bits w 5 2 = 0 ∧ bits w 20 19 = 0 then (do let r ← FcmpRel.of (bits w 1 0); some (.fcmp (guardOf w) (creg w 16) (sreg w 11) (sreg w 6) r))
    else none

/-- Slot B major 0x1E (R72, R74). -/
def decB1E (w : Nat) : Option Instr :=
  if bits w 5 3 = 0 then (do let op ← FcvtOp.of (bits w 10 6); let m ← FRound.of (bits w 2 0); some (.fcvt (guardOf w) (sreg w 16) (sreg w 11) op m))
    else none

/-- Slot B major 0x1F (R72, R74). -/
def decB1F (w : Nat) : Option Instr :=
  if bits w 10 0 = 0 then some (.fclass (guardOf w) (sreg w 16) (sreg w 11))
    else none

/-- Slot B major 0x20 (R72, R74). -/
def decB20 (w : Nat) : Option Instr :=
  (do let y ← LaneType.of (bits w 3 0); some (.vadd (guardOf w) (treg w 17) (treg w 13) (treg w 9) (rowsOf w) y))

/-- Slot B major 0x21 (R72, R74). -/
def decB21 (w : Nat) : Option Instr :=
  (do let y ← LaneType.of (bits w 3 0); some (.vsub (guardOf w) (treg w 17) (treg w 13) (treg w 9) (rowsOf w) y))

/-- Slot B major 0x22 (R72, R74). -/
def decB22 (w : Nat) : Option Instr :=
  (do let y ← LaneType.of (bits w 3 0); some (.vmul (guardOf w) (treg w 17) (treg w 13) (treg w 9) (rowsOf w) y))

/-- Slot B major 0x23 (R72, R74). -/
def decB23 (w : Nat) : Option Instr :=
  (do let y ← LaneType.of (bits w 3 0); some (.vfma (guardOf w) (treg w 17) (treg w 13) (treg w 9) (rowsOf w) y))

/-- Slot B major 0x24 (R72, R74). -/
def decB24 (w : Nat) : Option Instr :=
  (do let y ← LaneType.of (bits w 3 0); some (.vmin (guardOf w) (treg w 17) (treg w 13) (treg w 9) (rowsOf w) y))

/-- Slot B major 0x25 (R72, R74). -/
def decB25 (w : Nat) : Option Instr :=
  (do let y ← LaneType.of (bits w 3 0); some (.vmax (guardOf w) (treg w 17) (treg w 13) (treg w 9) (rowsOf w) y))

/-- Slot B major 0x26 (R72, R74). -/
def decB26 (w : Nat) : Option Instr :=
  if bits w 12 9 = 0 then (do let y ← LaneType.of (bits w 3 0); some (.vabs (guardOf w) (treg w 17) (treg w 13) (rowsOf w) y))
    else if bits w 12 9 = 1 then (do let y ← LaneType.of (bits w 3 0); some (.vneg (guardOf w) (treg w 17) (treg w 13) (rowsOf w) y))
    else if bits w 12 9 = 2 then (do let y ← LaneType.of (bits w 3 0); some (.vnabs (guardOf w) (treg w 17) (treg w 13) (rowsOf w) y))
    else none

/-- Slot B major 0x27 (R72, R74). -/
def decB27 (w : Nat) : Option Instr :=
  (do let op ← LogicOp.of (bits w 3 0); some (.vlogic (guardOf w) (treg w 17) (treg w 13) (treg w 9) (rowsOf w) op))

/-- Slot B major 0x28 (R72, R74). -/
def decB28 (w : Nat) : Option Instr :=
  (do let y ← LaneType.of (bits w 3 0); some (.vshift (guardOf w) (treg w 17) (treg w 13) (treg w 9) (rowsOf w) y))

/-- Slot B major 0x29 (R72, R74). -/
def decB29 (w : Nat) : Option Instr :=
  (do let y ← LaneType.of (bits w 2 0); some (.vcmp (guardOf w) (treg w 17) (treg w 13) (treg w 9) (rowsOf w) (bits w 3 3 = 1) y))

/-- Slot B major 0x2A (R72, R74). -/
def decB2A (w : Nat) : Option Instr :=
  (do let y ← LaneType.of (bits w 3 0); some (.vsel (guardOf w) (treg w 17) (treg w 13) (treg w 9) (rowsOf w) y))

/-- Slot B major 0x2B (R72, R74). -/
def decB2B (w : Nat) : Option Instr :=
  (do let x ← LaneType.of (bits w 12 9); let y ← LaneType.of (bits w 3 0); some (.vcvt (guardOf w) (treg w 17) (treg w 13) x (rowsOf w) y))

/-- Slot B major 0x2C (R72, R74). -/
def decB2C (w : Nat) : Option Instr :=
  some (.vpack (guardOf w) (treg w 17) (treg w 13) (treg w 9) (rowsOf w) (treg w 0))

/-- Slot B major 0x2D (R72, R74). -/
def decB2D (w : Nat) : Option Instr :=
  some (.vunpk (guardOf w) (treg w 17) (treg w 13) (treg w 9) (rowsOf w) (treg w 0))

/-- Slot B major 0x2E (R72, R74). -/
def decB2E (w : Nat) : Option Instr :=
  if bits w 12 12 = 0 then (do let op ← VredOp.of (bits w 11 10); let y ← LaneType.of (bits w 3 0); some (.vred (guardOf w) (BitVec.ofNat 5 (bits w 20 17 + 16 * bits w 9 9)) (treg w 13) op (rowsOf w) y))
    else none

/-- Slot B major 0x2F (R72, R74). -/
def decB2F (w : Nat) : Option Instr :=
  if bits w 12 10 = 0 then (do let y ← LaneType.of (bits w 3 0); some (.vbcast (guardOf w) (treg w 17) (BitVec.ofNat 5 (bits w 16 13 + 16 * bits w 9 9)) (rowsOf w) y))
    else none

/-- Slot B major 0x30 (R72, R74). -/
def decB30 (w : Nat) : Option Instr :=
  (do let y ← LaneType.of (bits w 3 0); some (.vscale (guardOf w) (treg w 17) (treg w 13) (treg w 9) (rowsOf w) y))

/-- Slot B major 0x31 (R72, R74). -/
def decB31 (w : Nat) : Option Instr :=
  if bits w 12 9 = 0 then (do let y ← LaneType.of (bits w 3 0); some (.vexp2 (guardOf w) (treg w 17) (treg w 13) (rowsOf w) y))
    else none

/-- Slot B major 0x32 (R72, R74). -/
def decB32 (w : Nat) : Option Instr :=
  if bits w 12 9 = 0 then (do let y ← LaneType.of (bits w 3 0); some (.vlog2 (guardOf w) (treg w 17) (treg w 13) (rowsOf w) y))
    else none

/-- Slot B major 0x33 (R72, R74). -/
def decB33 (w : Nat) : Option Instr :=
  if bits w 12 9 = 0 then (do let y ← LaneType.of (bits w 3 0); some (.vrcp (guardOf w) (treg w 17) (treg w 13) (rowsOf w) y))
    else if bits w 12 9 = 1 then (do let y ← LaneType.of (bits w 3 0); some (.vrsqrt (guardOf w) (treg w 17) (treg w 13) (rowsOf w) y))
    else none

/-- Slot B major 0x34 (R72, R74). -/
def decB34 (w : Nat) : Option Instr :=
  (do let y ← LaneType.of (bits w 3 0); some (.vperm (guardOf w) (treg w 17) (treg w 13) (treg w 9) (rowsOf w) y))

/-- Slot B major 0x35 (R72, R74). -/
def decB35 (w : Nat) : Option Instr :=
  if bits w 12 11 = 0 then (do let op ← ScanOp.of (bits w 10 9); let y ← LaneType.of (bits w 3 0); some (.vscan (guardOf w) (treg w 17) (treg w 13) op (rowsOf w) y))
    else none

/-- Slot B major 0x36 (R72, R74). -/
def decB36 (w : Nat) : Option Instr :=
  (do let y ← LaneType.of (bits w 3 0); some (.vsrch (guardOf w) (treg w 17) (treg w 13) (treg w 9) (rowsOf w) y))

/-- Slot B major 0x37 (R72, R74). -/
def decB37 (w : Nat) : Option Instr :=
  (do let y ← LaneType.of (bits w 3 0); some (.vmix (guardOf w) (treg w 17) (treg w 13) (treg w 9) (rowsOf w) y))

/-- Slot B major 0x38 (R72, R74). -/
def decB38 (w : Nat) : Option Instr :=
  (do let y ← LaneType.of (bits w 3 0); some (.viota (guardOf w) (treg w 17) (BitVec.ofNat 5 (bits w 16 13 + 16 * bits w 9 9)) (bits w 12 12 = 1) (BitVec.ofNat 2 (bits w 11 10)) (rowsOf w) y))

/-- Slot B major 0x40 (R72, R74). -/
def decB40 (w : Nat) : Option Instr :=
  if bits w 3 0 = 0 ∧ bits w 12 9 = 0 then some (.tmov (guardOf w) (treg w 17) (treg w 13) (rowsOf w))
    else none

/-- Slot B major 0x41 (R72, R74). -/
def decB41 (w : Nat) : Option Instr :=
  if bits w 3 0 = 0 ∧ bits w 16 9 = 0 then some (.tzero (guardOf w) (treg w 17) (rowsOf w))
    else none

/-- Slot B major 0x42 (R72, R74). -/
def decB42 (w : Nat) : Option Instr :=
  if bits w 12 4 = 1 then (do let y ← LaneType.of (bits w 3 0); some (.ttrans (guardOf w) (treg w 17) (treg w 13) y))
    else none

/-- Slot B major 0x43 (R72, R74). -/
def decB43 (w : Nat) : Option Instr :=
  if bits w 4 4 = 0 then (do let grp ← GroupSize.of (bits w 3 2); let e ← TopkType.of (bits w 1 0); some (.topk (guardOf w) (treg w 17) (treg w 13) (treg w 9) (treg w 5) grp e))
    else none

/-- Slot B major 0x44 (R72, R74). -/
def decB44 (w : Nat) : Option Instr :=
  if bits w 4 4 = 0 ∧ bits w 12 11 = 0 then (do let op ← ColOp.of (bits w 10 9); let y ← LaneType.of (bits w 3 0); some (.tcolred (guardOf w) (treg w 17) (treg w 13) op (treg w 5) y))
    else none

/-- Slot B major 0x45 (R72, R74). -/
def decB45 (w : Nat) : Option Instr :=
  if bits w 12 9 = 0 then (do let y ← LaneType.of (bits w 3 0); some (.tfix (guardOf w) (treg w 17) (treg w 13) (rowsOf w) y))
    else none

/-- Slot B major 0x46 (R72, R74). -/
def decB46 (w : Nat) : Option Instr :=
  if bits w 4 4 = 0 ∧ bits w 12 10 = 0 then (do let y ← LaneType.of (bits w 3 0); some (.tbndRd (guardOf w) (BitVec.ofNat 5 (bits w 20 17 + 16 * bits w 9 9)) (treg w 13) (treg w 5) y))
    else if bits w 12 10 = 1 then (do let y ← LaneType.of (bits w 3 0); some (.tbndSet (guardOf w) (treg w 17) (BitVec.ofNat 5 (bits w 16 13 + 16 * bits w 9 9)) (rowsOf w) y))
    else none

/-- Slot B major 0x50 (R72, R74). -/
def decB50 (w : Nat) : Option Instr :=
  if bits w 5 0 = 0 then some (.mma (guardOf w) (sreg w 16) (sreg w 11) (sreg w 6))
    else none

/-- Slot B major 0x51 (R72, R74). -/
def decB51 (w : Nat) : Option Instr :=
  if bits w 20 0 = 0 then some (.mzero (guardOf w))
    else none

/-- Slot B major 0x52 (R72, R74). -/
def decB52 (w : Nat) : Option Instr :=
  if bits w 10 0 = 0 then some (.mdrain (guardOf w) (sreg w 16) (sreg w 11))
    else none

/-- Slot B major 0x53 (R72, R74). -/
def decB53 (w : Nat) : Option Instr :=
  if bits w 20 1 = 0 then some (.rleave (guardOf w) (bits w 0 0 = 1))
    else none

/-- Slot B major 0x7F (R72, R74). -/
def decB7F (w : Nat) : Option Instr :=
  if bits w 24 0 = 0 then some (.nopB)
    else none

/-- The slot A instruction of word 0, or none (R72, R75); l is the literal of a lone bundle. -/
def rawA (w : Nat) (l : Option Half) : Option Instr :=
  match bits w 27 22 with
  | 0x00 => decA00 w
  | 0x01 => decA01 w l
  | 0x02 => decA02 w l
  | 0x03 => decA03 w l
  | 0x04 => decA04 w l
  | 0x05 => decA05 w
  | 0x06 => decA06 w l
  | 0x07 => decA07 w
  | 0x08 => decA08 w l
  | 0x09 => decA09 w l
  | 0x0A => decA0A w l
  | 0x0B => decA0B w l
  | 0x0C => decA0C w l
  | 0x0D => decA0D w l
  | 0x0E => decA0E w l
  | 0x0F => decA0F w l
  | 0x10 => decA10 w l
  | 0x11 => decA11 w
  | 0x12 => decA12 w l
  | 0x13 => decA13 w l
  | 0x14 => decA14 w
  | 0x15 => decA15 w
  | 0x16 => decA16 w
  | 0x17 => decA17 w
  | 0x18 => decA18 w
  | 0x19 => decA19 w
  | 0x1A => decA1A w
  | 0x1B => decA1B w
  | 0x1C => decA1C w l
  | 0x1D => decA1D w
  | 0x1E => decA1E w
  | 0x1F => decA1F w
  | 0x20 => decA20 w
  | 0x21 => decA21 w
  | 0x22 => decA22 w
  | 0x23 => decA23 w l
  | 0x24 => decA24 w
  | 0x25 => decA25 w l
  | _ => none

/-- The slot B instruction of word 1, or none (R74, R75). -/
def rawB (w : Nat) : Option Instr :=
  match bits w 31 25 with
  | 0x00 => decB00 w
  | 0x01 => decB01 w
  | 0x02 => decB02 w
  | 0x03 => decB03 w
  | 0x04 => decB04 w
  | 0x05 => decB05 w
  | 0x06 => decB06 w
  | 0x07 => decB07 w
  | 0x08 => decB08 w
  | 0x09 => decB09 w
  | 0x0A => decB0A w
  | 0x0B => decB0B w
  | 0x0C => decB0C w
  | 0x0D => decB0D w
  | 0x0E => decB0E w
  | 0x0F => decB0F w
  | 0x10 => decB10 w
  | 0x11 => decB11 w
  | 0x12 => decB12 w
  | 0x13 => decB13 w
  | 0x14 => decB14 w
  | 0x15 => decB15 w
  | 0x16 => decB16 w
  | 0x17 => decB17 w
  | 0x18 => decB18 w
  | 0x19 => decB19 w
  | 0x1A => decB1A w
  | 0x1B => decB1B w
  | 0x1C => decB1C w
  | 0x1D => decB1D w
  | 0x1E => decB1E w
  | 0x1F => decB1F w
  | 0x20 => decB20 w
  | 0x21 => decB21 w
  | 0x22 => decB22 w
  | 0x23 => decB23 w
  | 0x24 => decB24 w
  | 0x25 => decB25 w
  | 0x26 => decB26 w
  | 0x27 => decB27 w
  | 0x28 => decB28 w
  | 0x29 => decB29 w
  | 0x2A => decB2A w
  | 0x2B => decB2B w
  | 0x2C => decB2C w
  | 0x2D => decB2D w
  | 0x2E => decB2E w
  | 0x2F => decB2F w
  | 0x30 => decB30 w
  | 0x31 => decB31 w
  | 0x32 => decB32 w
  | 0x33 => decB33 w
  | 0x34 => decB34 w
  | 0x35 => decB35 w
  | 0x36 => decB36 w
  | 0x37 => decB37 w
  | 0x38 => decB38 w
  | 0x40 => decB40 w
  | 0x41 => decB41 w
  | 0x42 => decB42 w
  | 0x43 => decB43 w
  | 0x44 => decB44 w
  | 0x45 => decB45 w
  | 0x46 => decB46 w
  | 0x50 => decB50 w
  | 0x51 => decB51 w
  | 0x52 => decB52 w
  | 0x53 => decB53 w
  | 0x7F => decB7F w
  | _ => none

/-- An instruction refused unless it is well formed (R75). -/
def checked (i : Option Instr) : Option Instr :=
  match i with
  | some i => if wellFormed i then some i else none
  | none => none

/-- The slot A decoder. -/
def decodeA (w : Nat) (l : Option Half) : Option Instr := checked (rawA w l)

/-- The slot B decoder. -/
def decodeB (w : Nat) : Option Instr := checked (rawB w)

/-- Why a pattern is not a bundle (R75). -/
inductive Illegal where
  /-- Word 0 is no slot A instruction. -/
  | word0 (w : Half)
  /-- Word 1 is no slot B instruction. -/
  | word1 (w : Half)
  /-- MMA without GANG in slot A (R202). -/
  | mmaWithoutGang
  deriving DecidableEq, Repr

/-- Whether an instruction is MMA. -/
def isMma : Instr → Bool
  | .mma .. => true
  | _ => false

/-- The bundle of two words, or the reason it is ILLEGAL: word 0 first (R76). -/
def decode (w0 w1 : Half) : Except Illegal Bundle :=
  let w := w0.toNat
  if bits w 31 31 = 1 then
    match decodeA w (some w1) with
    | some a => .ok ⟨creg w 28, some w1, a, .nopB⟩
    | none => .error (.word0 w0)
  else
    match decodeA w none with
    | none => .error (.word0 w0)
    | some a =>
      match decodeB w1.toNat with
      | none => .error (.word1 w1)
      | some b => if isMma b && a != .gang then .error .mmaWithoutGang else .ok ⟨creg w 28, none, a, b⟩

/-- Whether the instruction's row stands in slot A (true), slot B (false), or has no encoding. -/
def slotA? : Instr → Option Bool
  | .nop => some true
  | .br .. => some true
  | .bc .. => some true
  | .bpend .. => some true
  | .bnpend .. => some true
  | .call .. => some true
  | .jr .. => some true
  | .ret => some true
  | .loop .. => some true
  | .loopi .. => some true
  | .lbrk => some true
  | .ld .. => some true
  | .ldAcq .. => some true
  | .st .. => some true
  | .stRel .. => some true
  | .ldp .. => some true
  | .ldpAcq .. => some true
  | .stp .. => some true
  | .stpRel .. => some true
  | .lds .. => some true
  | .sts .. => some true
  | .xch .. => some true
  | .xchS .. => some true
  | .cas .. => some true
  | .aadd .. => some true
  | .aand .. => some true
  | .aor .. => some true
  | .axor .. => some true
  | .amaxs .. => some true
  | .amins .. => some true
  | .amaxu .. => some true
  | .aminu .. => some true
  | .afadd .. => some true
  | .afmax .. => some true
  | .afmin .. => some true
  | .red .. => some true
  | .faddt .. => some true
  | .waitw .. => some true
  | .scld .. => some true
  | .scst .. => some true
  | .scx .. => some true
  | .fence .. => some true
  | .tld .. => some true
  | .tst .. => some true
  | .tstB .. => some true
  | .tldx .. => some true
  | .bguiseClear .. => some true
  | .bguiseKeep .. => some true
  | .bguiseConvert .. => some true
  | .bdesc .. => some true
  | .arcade .. => some true
  | .arcadeDis .. => some true
  | .barArrive .. => some true
  | .barWait .. => some true
  | .barSync .. => some true
  | .barDepart .. => some true
  | .gang => some true
  | .fork .. => some true
  | .forkTry .. => some true
  | .rendez .. => some true
  | .chain .. => some true
  | .chainTry .. => some true
  | .pmovPsel .. => some true
  | .pmovXin .. => some true
  | .pmovGain .. => some true
  | .pmovXscl .. => some true
  | .pmovWscl .. => some true
  | .pmovYout .. => some true
  | .pmovExpose => some true
  | .pmovWrow .. => some true
  | .pmovWgo => some true
  | .pmovRefix => some true
  | .pmovStat .. => some true
  | .pmovCalwWrite .. => some true
  | .pmovCalwRead .. => some true
  | .trayq .. => some true
  | .trayqDep .. => some true
  | .trayqStop .. => some true
  | .trayqLand .. => some true
  | .traydrain => some true
  | .detach => some true
  | .attach .. => some true
  | .follow .. => some true
  | .rdtime .. => some true
  | .waitt .. => some true
  | .wsplit .. => some true
  | .wreturn .. => some true
  | .wsplitAdd .. => some true
  | .nred .. => some true
  | .nredMergek .. => some true
  | .spill .. => some true
  | .fill .. => some true
  | .csrr .. => some true
  | .csrw .. => some true
  | .csrs .. => some true
  | .csrc .. => some true
  | .trap .. => some true
  | .break_ .. => some true
  | .eret => some true
  | .eretU => some true
  | .eretTo .. => some true
  | .wfi .. => some true
  | .replay .. => some true
  | .replayFail .. => some true
  | .movi .. => some true
  | .add .. => some false
  | .sub .. => some false
  | .addi .. => some false
  | .mul .. => some false
  | .mulh .. => some false
  | .mulhU .. => some false
  | .mulhSu .. => some false
  | .div .. => some false
  | .rem .. => some false
  | .and_ .. => some false
  | .or_ .. => some false
  | .xor_ .. => some false
  | .andn .. => some false
  | .shl .. => some false
  | .shlImm .. => some false
  | .shr .. => some false
  | .shrImm .. => some false
  | .sra .. => some false
  | .sraImm .. => some false
  | .rot .. => some false
  | .rotImm .. => some false
  | .clz .. => some false
  | .ctz .. => some false
  | .popc .. => some false
  | .rev .. => some false
  | .min_ .. => some false
  | .max_ .. => some false
  | .minu .. => some false
  | .maxu .. => some false
  | .cmp .. => some false
  | .sel .. => some false
  | .ext .. => some false
  | .bfx .. => some false
  | .bfi .. => some false
  | .lea .. => some false
  | .cond .. => some false
  | .fadd .. => some false
  | .fsub .. => some false
  | .fmul .. => some false
  | .ffma .. => some false
  | .fmin .. => some false
  | .fmax .. => some false
  | .fcmp .. => some false
  | .fcvt .. => some false
  | .fclass .. => some false
  | .vadd .. => some false
  | .vsub .. => some false
  | .vmul .. => some false
  | .vfma .. => some false
  | .vmin .. => some false
  | .vmax .. => some false
  | .vabs .. => some false
  | .vneg .. => some false
  | .vnabs .. => some false
  | .vlogic .. => some false
  | .vshift .. => some false
  | .vcmp .. => some false
  | .vsel .. => some false
  | .vcvt .. => some false
  | .vpack .. => some false
  | .vunpk .. => some false
  | .vred .. => some false
  | .vbcast .. => some false
  | .vscale .. => some false
  | .vexp2 .. => some false
  | .vlog2 .. => some false
  | .vrcp .. => some false
  | .vrsqrt .. => some false
  | .vperm .. => some false
  | .vscan .. => some false
  | .vsrch .. => some false
  | .vmix .. => some false
  | .viota .. => some false
  | .tmov .. => some false
  | .tzero .. => some false
  | .ttrans .. => some false
  | .topk .. => some false
  | .tcolred .. => some false
  | .tfix .. => some false
  | .tbndRd .. => some false
  | .tbndSet .. => some false
  | .mma .. => some false
  | .mzero .. => some false
  | .mdrain .. => some false
  | .rleave .. => some false
  | .nopB => some false
  | _ => none

/-- The word of a well-formed slot A instruction, stall count and lone bit zero (the encoding tables of the class chapters). -/
def encodeWordA : Instr → Nat
  | .nop => 0x00000000
  | .br off => 0x00400000 + off.low
  | .bc c sense off => 0x00800000 + c.toNat * 0x80000 + bnat sense * 0x40000 + off.low
  | .bpend a off => 0x00C10000 + a.toNat * 0x20000 + off.low
  | .bnpend a off => 0x00C00000 + a.toNat * 0x20000 + off.low
  | .call off => 0x01000000 + off.low
  | .jr d a => 0x01400000 + d.toNat * 0x20000 + a.toNat * 0x1000
  | .ret => 0x01400001
  | .loop level stop a => 0x01800000 + level.toNat * 0x100000 + stop.toNat * 0x80 + a.toNat * 1
  | .loopi level stop cnt => 0x01880000 + level.toNat * 0x100000 + stop.toNat * 0x80 + cnt.low
  | .lbrk => 0x01C00000
  | .ld d a m off => 0x02000000 + d.toNat * 0x20000 + a.toNat * 0x1000 + m.code * 0x200 + off.low
  | .ldAcq d a z u sc _ => 0x02000E00 + d.toNat * 0x20000 + a.toNat * 0x1000 + z.code * 0x80 + bnat u * 0x40 + sc.code * 0x4
  | .st d a z off => 0x02400000 + d.toNat * 0x20000 + a.toNat * 0x1000 + z.code * 0x400 + off.low
  | .stRel d a z sc _ => 0x02400200 + d.toNat * 0x20000 + a.toNat * 0x1000 + z.code * 0x400 + sc.code * 0x20
  | .ldp d a off => 0x02800000 + d.toNat * 0x20000 + a.toNat * 0x1000 + off.low
  | .ldpAcq d a sc _ => 0x02800400 + d.toNat * 0x20000 + a.toNat * 0x1000 + sc.code * 0x40
  | .stp d a off => 0x02800800 + d.toNat * 0x20000 + a.toNat * 0x1000 + off.low
  | .stpRel d a sc _ => 0x02800C00 + d.toNat * 0x20000 + a.toNat * 0x1000 + sc.code * 0x40
  | .lds d a z k off => 0x02C00000 + d.toNat * 0x20000 + a.toNat * 0x1000 + z.code * 0x200 + k.toNat * 0x10 + off.low
  | .sts d a z k off => 0x02C00800 + d.toNat * 0x20000 + a.toNat * 0x1000 + z.code * 0x200 + k.toNat * 0x10 + off.low
  | .xch d a w off => 0x03000000 + d.toNat * 0x20000 + a.toNat * 0x1000 + bnat w * 0x200 + off.low
  | .xchS d a w k off => 0x03000400 + d.toNat * 0x20000 + a.toNat * 0x1000 + bnat w * 0x200 + k.toNat * 0x10 + off.low
  | .cas d a w off => 0x03000800 + d.toNat * 0x20000 + a.toNat * 0x1000 + bnat w * 0x200 + off.low
  | .aadd d a w sc k _ => 0x03400000 + d.toNat * 0x20000 + a.toNat * 0x1000 + bnat w * 0x80 + sc.code * 0x8 + k.code * 1
  | .aand d a w sc k _ => 0x03400100 + d.toNat * 0x20000 + a.toNat * 0x1000 + bnat w * 0x80 + sc.code * 0x8 + k.code * 1
  | .aor d a w sc k _ => 0x03400200 + d.toNat * 0x20000 + a.toNat * 0x1000 + bnat w * 0x80 + sc.code * 0x8 + k.code * 1
  | .axor d a w sc k _ => 0x03400300 + d.toNat * 0x20000 + a.toNat * 0x1000 + bnat w * 0x80 + sc.code * 0x8 + k.code * 1
  | .amaxs d a w sc k _ => 0x03400400 + d.toNat * 0x20000 + a.toNat * 0x1000 + bnat w * 0x80 + sc.code * 0x8 + k.code * 1
  | .amins d a w sc k _ => 0x03400500 + d.toNat * 0x20000 + a.toNat * 0x1000 + bnat w * 0x80 + sc.code * 0x8 + k.code * 1
  | .amaxu d a w sc k _ => 0x03400600 + d.toNat * 0x20000 + a.toNat * 0x1000 + bnat w * 0x80 + sc.code * 0x8 + k.code * 1
  | .aminu d a w sc k _ => 0x03400700 + d.toNat * 0x20000 + a.toNat * 0x1000 + bnat w * 0x80 + sc.code * 0x8 + k.code * 1
  | .afadd d a sc k _ => 0x03400880 + d.toNat * 0x20000 + a.toNat * 0x1000 + sc.code * 0x8 + k.code * 1
  | .afmax d a sc k _ => 0x03400980 + d.toNat * 0x20000 + a.toNat * 0x1000 + sc.code * 0x8 + k.code * 1
  | .afmin d a sc k _ => 0x03400A80 + d.toNat * 0x20000 + a.toNat * 0x1000 + sc.code * 0x8 + k.code * 1
  | .red d a op w sc k _ => 0x03800000 + d.toNat * 0x20000 + a.toNat * 0x1000 + op.code * 0x100 + bnat w * 0x80 + sc.code * 0x8 + k.code * 1
  | .faddt d a sc _ => 0x03C00000 + d.toNat * 0x20000 + a.toNat * 0x1000 + sc.code * 0x80
  | .waitw d a _ => 0x03C00800 + d.toNat * 0x20000 + a.toNat * 0x1000
  | .scld d a w off => 0x04000000 + d.toNat * 0x20000 + a.toNat * 0x1000 + bnat w * 0x200 + off.low
  | .scst d a w off => 0x04000400 + d.toNat * 0x20000 + a.toNat * 0x1000 + bnat w * 0x200 + off.low
  | .scx d a w off => 0x04000800 + d.toNat * 0x20000 + a.toNat * 0x1000 + bnat w * 0x200 + off.low
  | .fence k sc => 0x04400000 + k.code * 0x10 + sc.code * 1
  | .tld t a r off => 0x04800000 + t.toNat * 0x20000 + a.toNat * 0x1000 + r.row.toNat * 0x80 + bnat r.w * 0x800 + off.low
  | .tst t a r off => 0x04C00000 + t.toNat * 0x20000 + a.toNat * 0x1000 + r.row.toNat * 0x80 + bnat r.w * 0x800 + off.low
  | .tstB t a r off => 0x04C00040 + t.toNat * 0x20000 + a.toNat * 0x1000 + r.row.toNat * 0x80 + bnat r.w * 0x800 + off.low
  | .tldx t a b => 0x05000000 + t.toNat * 0x20000 + a.toNat * 0x1000 + b.toNat * 0x80
  | .bguiseClear d a bank => 0x05400000 + d.toNat * 0x20000 + a.toNat * 0x1000 + bank.toNat * 1
  | .bguiseKeep d a bank => 0x05400010 + d.toNat * 0x20000 + a.toNat * 0x1000 + bank.toNat * 1
  | .bguiseConvert d a bank => 0x05400020 + d.toNat * 0x20000 + a.toNat * 0x1000 + bank.toNat * 1
  | .bdesc d bank => 0x05800000 + d.toNat * 0x20000 + bank.toNat * 1
  | .arcade d a b => 0x05800040 + d.toNat * 0x20000 + a.toNat * 0x1000 + b.toNat * 0x80
  | .arcadeDis d a => 0x05800050 + d.toNat * 0x20000 + a.toNat * 0x1000
  | .barArrive d b dom gather swap => 0x05C00000 + d.toNat * 0x20000 + b.toNat * 0x80 + dom.code * 0x10 + bnat gather * 0x8 + bnat swap * 0x4
  | .barWait a dom => 0x05C00001 + a.toNat * 0x1000 + dom.code * 0x10
  | .barSync d b dom gather swap => 0x05C00002 + d.toNat * 0x20000 + b.toNat * 0x80 + dom.code * 0x10 + bnat gather * 0x8 + bnat swap * 0x4
  | .barDepart dom => 0x05C00003 + dom.code * 0x10
  | .gang => 0x06000000
  | .fork d a q mask => 0x06400000 + d.toNat * 0x20000 + a.toNat * 0x1000 + q.toNat * 0x8 + mask.toNat * 1
  | .forkTry d a q mask => 0x06400040 + d.toNat * 0x20000 + a.toNat * 0x1000 + q.toNat * 0x8 + mask.toNat * 1
  | .rendez d => 0x06800000 + d.toNat * 0x20000
  | .chain d a b e q => 0x06C00000 + d.toNat * 0x20000 + a.toNat * 0x1000 + b.toNat * 0x80 + e.code * 0x10 + q.toNat * 0x2
  | .chainTry d a b e q => 0x06C00040 + d.toNat * 0x20000 + a.toNat * 0x1000 + b.toNat * 0x80 + e.code * 0x10 + q.toNat * 0x2
  | .pmovPsel v => 0x07000000 + portBits v
  | .pmovXin t row => 0x07000840 + t.toNat * 0x20000 + row.toNat * 1
  | .pmovGain v => 0x07000080 + portBits v
  | .pmovXscl v => 0x070000C0 + portBits v
  | .pmovWscl v => 0x07000100 + portBits v
  | .pmovYout v => 0x07000140 + portBits v
  | .pmovExpose => 0x07000580
  | .pmovWrow t a row => 0x070009C0 + t.toNat * 0x20000 + a.toNat * 0x1000 + row.toNat * 1
  | .pmovWgo => 0x07000600
  | .pmovRefix => 0x07000640
  | .pmovStat d => 0x07000E80 + d.toNat * 0x20000
  | .pmovCalwWrite d a => 0x070002C0 + d.toNat * 0x20000 + a.toNat * 0x1000
  | .pmovCalwRead d a => 0x07000EC0 + d.toNat * 0x20000 + a.toNat * 0x1000
  | .trayq d => 0x07400000 + d.toNat * 0x20000
  | .trayqDep d a => 0x07400001 + d.toNat * 0x20000 + a.toNat * 0x1000
  | .trayqStop d => 0x07400002 + d.toNat * 0x20000
  | .trayqLand a => 0x07400003 + a.toNat * 0x1000
  | .traydrain => 0x07400004
  | .detach => 0x07800000
  | .attach dom => 0x07800001 + dom.code * 0x10
  | .follow a dom => 0x07800002 + a.toNat * 0x1000 + dom.code * 0x10
  | .rdtime d => 0x07C00000 + d.toNat * 0x20000
  | .waitt a => 0x07C00001 + a.toNat * 0x1000
  | .wsplit d => 0x08000000 + d.toNat * 0x20000
  | .wreturn a => 0x08000001 + a.toNat * 0x1000
  | .wsplitAdd a => 0x08000002 + a.toNat * 0x1000
  | .nred d a b dom op => 0x08400000 + d.toNat * 0x20000 + a.toNat * 0x1000 + b.toNat * 0x80 + dom.code * 0x10 + op.code * 1
  | .nredMergek t u row dom => 0x08400004 + t.toNat * 0x20000 + u.toNat * 0x1000 + row.toNat * 0x80 + dom.code * 0x10
  | .spill d n => 0x0881F000 + d.toNat * 0x20000 + n.toNat * 1
  | .fill d n => 0x0881F008 + d.toNat * 0x20000 + n.toNat * 1
  | .csrr d csr => 0x08C00000 + d.toNat * 0x20000 + csr.toNat * 1
  | .csrw d a csr => 0x08C00400 + d.toNat * 0x20000 + a.toNat * 0x1000 + csr.toNat * 1
  | .csrs d a csr => 0x08C00800 + d.toNat * 0x20000 + a.toNat * 0x1000 + csr.toNat * 1
  | .csrc d a csr => 0x08C00C00 + d.toNat * 0x20000 + a.toNat * 0x1000 + csr.toNat * 1
  | .trap a code => 0x09000000 + a.toNat * 0x1000 + code.toNat * 0x80
  | .break_ a code => 0x09000001 + a.toNat * 0x1000 + code.toNat * 0x80
  | .eret => 0x09000002
  | .eretU => 0x09000003
  | .eretTo a => 0x09000004 + a.toNat * 0x1000
  | .wfi a => 0x09000005 + a.toNat * 0x1000
  | .replay a b => 0x09000006 + a.toNat * 0x1000 + b.toNat * 0x80
  | .replayFail a b => 0x09000007 + a.toNat * 0x1000 + b.toNat * 0x80
  | .movi d imm => 0x09400000 + d.toNat * 0x20000 + imm.low
  | _ => 0

/-- The word of a well-formed slot B instruction (the encoding tables of the class chapters). -/
def encodeWordB : Instr → Nat
  | .add g d a b w => 0x00000000 + g.c.toNat * 0x400000 + bnat g.neg * 0x200000 + d.toNat * 0x10000 + a.toNat * 0x800 + b.toNat * 0x40 + bnat w * 1
  | .sub g d a b w => 0x02000000 + g.c.toNat * 0x400000 + bnat g.neg * 0x200000 + d.toNat * 0x10000 + a.toNat * 0x800 + b.toNat * 0x40 + bnat w * 1
  | .addi g d a imm => 0x04000000 + g.c.toNat * 0x400000 + bnat g.neg * 0x200000 + d.toNat * 0x10000 + a.toNat * 0x800 + imm.toNat * 1
  | .mul g d a b w => 0x06000000 + g.c.toNat * 0x400000 + bnat g.neg * 0x200000 + d.toNat * 0x10000 + a.toNat * 0x800 + b.toNat * 0x40 + bnat w * 1
  | .mulh g d a b => 0x08000000 + g.c.toNat * 0x400000 + bnat g.neg * 0x200000 + d.toNat * 0x10000 + a.toNat * 0x800 + b.toNat * 0x40
  | .mulhU g d a b => 0x08000002 + g.c.toNat * 0x400000 + bnat g.neg * 0x200000 + d.toNat * 0x10000 + a.toNat * 0x800 + b.toNat * 0x40
  | .mulhSu g d a b => 0x08000004 + g.c.toNat * 0x400000 + bnat g.neg * 0x200000 + d.toNat * 0x10000 + a.toNat * 0x800 + b.toNat * 0x40
  | .div g d a b u w => 0x0A000000 + g.c.toNat * 0x400000 + bnat g.neg * 0x200000 + d.toNat * 0x10000 + a.toNat * 0x800 + b.toNat * 0x40 + bnat u * 0x2 + bnat w * 1
  | .rem g d a b u w => 0x0C000000 + g.c.toNat * 0x400000 + bnat g.neg * 0x200000 + d.toNat * 0x10000 + a.toNat * 0x800 + b.toNat * 0x40 + bnat u * 0x2 + bnat w * 1
  | .and_ g d a b => 0x0E000000 + g.c.toNat * 0x400000 + bnat g.neg * 0x200000 + d.toNat * 0x10000 + a.toNat * 0x800 + b.toNat * 0x40
  | .or_ g d a b => 0x10000000 + g.c.toNat * 0x400000 + bnat g.neg * 0x200000 + d.toNat * 0x10000 + a.toNat * 0x800 + b.toNat * 0x40
  | .xor_ g d a b => 0x12000000 + g.c.toNat * 0x400000 + bnat g.neg * 0x200000 + d.toNat * 0x10000 + a.toNat * 0x800 + b.toNat * 0x40
  | .andn g d a b => 0x14000000 + g.c.toNat * 0x400000 + bnat g.neg * 0x200000 + d.toNat * 0x10000 + a.toNat * 0x800 + b.toNat * 0x40
  | .shl g d a b w => 0x16000000 + g.c.toNat * 0x400000 + bnat g.neg * 0x200000 + d.toNat * 0x10000 + a.toNat * 0x800 + b.toNat * 0x40 + bnat w * 1
  | .shlImm g d a n w => 0x16000020 + g.c.toNat * 0x400000 + bnat g.neg * 0x200000 + d.toNat * 0x10000 + a.toNat * 0x800 + n.toNat % 32 * 0x40 + n.toNat / 32 * 0x10 + bnat w * 1
  | .shr g d a b w => 0x18000000 + g.c.toNat * 0x400000 + bnat g.neg * 0x200000 + d.toNat * 0x10000 + a.toNat * 0x800 + b.toNat * 0x40 + bnat w * 1
  | .shrImm g d a n w => 0x18000020 + g.c.toNat * 0x400000 + bnat g.neg * 0x200000 + d.toNat * 0x10000 + a.toNat * 0x800 + n.toNat % 32 * 0x40 + n.toNat / 32 * 0x10 + bnat w * 1
  | .sra g d a b w => 0x1A000000 + g.c.toNat * 0x400000 + bnat g.neg * 0x200000 + d.toNat * 0x10000 + a.toNat * 0x800 + b.toNat * 0x40 + bnat w * 1
  | .sraImm g d a n w => 0x1A000020 + g.c.toNat * 0x400000 + bnat g.neg * 0x200000 + d.toNat * 0x10000 + a.toNat * 0x800 + n.toNat % 32 * 0x40 + n.toNat / 32 * 0x10 + bnat w * 1
  | .rot g d a b w => 0x1C000000 + g.c.toNat * 0x400000 + bnat g.neg * 0x200000 + d.toNat * 0x10000 + a.toNat * 0x800 + b.toNat * 0x40 + bnat w * 1
  | .rotImm g d a n w => 0x1C000020 + g.c.toNat * 0x400000 + bnat g.neg * 0x200000 + d.toNat * 0x10000 + a.toNat * 0x800 + n.toNat % 32 * 0x40 + n.toNat / 32 * 0x10 + bnat w * 1
  | .clz g d a w => 0x1E000000 + g.c.toNat * 0x400000 + bnat g.neg * 0x200000 + d.toNat * 0x10000 + a.toNat * 0x800 + bnat w * 0x4
  | .ctz g d a w => 0x1E000001 + g.c.toNat * 0x400000 + bnat g.neg * 0x200000 + d.toNat * 0x10000 + a.toNat * 0x800 + bnat w * 0x4
  | .popc g d a w => 0x1E000002 + g.c.toNat * 0x400000 + bnat g.neg * 0x200000 + d.toNat * 0x10000 + a.toNat * 0x800 + bnat w * 0x4
  | .rev g d a w => 0x1E000003 + g.c.toNat * 0x400000 + bnat g.neg * 0x200000 + d.toNat * 0x10000 + a.toNat * 0x800 + bnat w * 0x4
  | .min_ g d a b w => 0x20000000 + g.c.toNat * 0x400000 + bnat g.neg * 0x200000 + d.toNat * 0x10000 + a.toNat * 0x800 + b.toNat * 0x40 + bnat w * 0x4
  | .max_ g d a b w => 0x20000001 + g.c.toNat * 0x400000 + bnat g.neg * 0x200000 + d.toNat * 0x10000 + a.toNat * 0x800 + b.toNat * 0x40 + bnat w * 0x4
  | .minu g d a b w => 0x20000002 + g.c.toNat * 0x400000 + bnat g.neg * 0x200000 + d.toNat * 0x10000 + a.toNat * 0x800 + b.toNat * 0x40 + bnat w * 0x4
  | .maxu g d a b w => 0x20000003 + g.c.toNat * 0x400000 + bnat g.neg * 0x200000 + d.toNat * 0x10000 + a.toNat * 0x800 + b.toNat * 0x40 + bnat w * 0x4
  | .cmp g c a b r => 0x22000000 + g.c.toNat * 0x400000 + bnat g.neg * 0x200000 + c.toNat * 0x10000 + a.toNat * 0x800 + b.toNat * 0x40 + r.code * 1
  | .sel g d a b neg c => 0x24000000 + g.c.toNat * 0x400000 + bnat g.neg * 0x200000 + d.toNat * 0x10000 + a.toNat * 0x800 + b.toNat * 0x40 + bnat neg * 0x8 + c.toNat * 1
  | .ext g d a x => 0x26000000 + g.c.toNat * 0x400000 + bnat g.neg * 0x200000 + d.toNat * 0x10000 + a.toNat * 0x800 + x.code * 1
  | .bfx g d a b sx => 0x28000000 + g.c.toNat * 0x400000 + bnat g.neg * 0x200000 + d.toNat * 0x10000 + a.toNat * 0x800 + b.toNat * 0x40 + bnat sx * 1
  | .bfi g d a b => 0x2A000000 + g.c.toNat * 0x400000 + bnat g.neg * 0x200000 + d.toNat * 0x10000 + a.toNat * 0x800 + b.toNat * 0x40
  | .lea g d a b sh => 0x2C000000 + g.c.toNat * 0x400000 + bnat g.neg * 0x200000 + d.toNat * 0x10000 + a.toNat * 0x800 + b.toNat * 0x40 + sh.toNat * 1
  | .cond g c x y table => 0x2E000000 + g.c.toNat * 0x400000 + bnat g.neg * 0x200000 + c.toNat * 0x10000 + x.toNat * 0x800 + y.toNat * 0x40 + table.toNat * 1
  | .fadd g d a b => 0x30000000 + g.c.toNat * 0x400000 + bnat g.neg * 0x200000 + d.toNat * 0x10000 + a.toNat * 0x800 + b.toNat * 0x40
  | .fsub g d a b => 0x32000000 + g.c.toNat * 0x400000 + bnat g.neg * 0x200000 + d.toNat * 0x10000 + a.toNat * 0x800 + b.toNat * 0x40
  | .fmul g d a b => 0x34000000 + g.c.toNat * 0x400000 + bnat g.neg * 0x200000 + d.toNat * 0x10000 + a.toNat * 0x800 + b.toNat * 0x40
  | .ffma g d a b c => 0x36000000 + g.c.toNat * 0x400000 + bnat g.neg * 0x200000 + d.toNat * 0x10000 + a.toNat * 0x800 + b.toNat * 0x40 + c.toNat * 1
  | .fmin g d a b => 0x38000000 + g.c.toNat * 0x400000 + bnat g.neg * 0x200000 + d.toNat * 0x10000 + a.toNat * 0x800 + b.toNat * 0x40
  | .fmax g d a b => 0x38000001 + g.c.toNat * 0x400000 + bnat g.neg * 0x200000 + d.toNat * 0x10000 + a.toNat * 0x800 + b.toNat * 0x40
  | .fcmp g c a b r => 0x3A000000 + g.c.toNat * 0x400000 + bnat g.neg * 0x200000 + c.toNat * 0x10000 + a.toNat * 0x800 + b.toNat * 0x40 + r.code * 1
  | .fcvt g d a op m => 0x3C000000 + g.c.toNat * 0x400000 + bnat g.neg * 0x200000 + d.toNat * 0x10000 + a.toNat * 0x800 + op.code * 0x40 + m.code * 1
  | .fclass g d a => 0x3E000000 + g.c.toNat * 0x400000 + bnat g.neg * 0x200000 + d.toNat * 0x10000 + a.toNat * 0x800
  | .vadd g d a b r y => 0x40000000 + g.c.toNat * 0x400000 + bnat g.neg * 0x200000 + d.toNat * 0x20000 + a.toNat * 0x2000 + b.toNat * 0x200 + r.row.toNat * 0x20 + bnat r.w * 0x10 + y.code * 1
  | .vsub g d a b r y => 0x42000000 + g.c.toNat * 0x400000 + bnat g.neg * 0x200000 + d.toNat * 0x20000 + a.toNat * 0x2000 + b.toNat * 0x200 + r.row.toNat * 0x20 + bnat r.w * 0x10 + y.code * 1
  | .vmul g d a b r y => 0x44000000 + g.c.toNat * 0x400000 + bnat g.neg * 0x200000 + d.toNat * 0x20000 + a.toNat * 0x2000 + b.toNat * 0x200 + r.row.toNat * 0x20 + bnat r.w * 0x10 + y.code * 1
  | .vfma g d a b r y => 0x46000000 + g.c.toNat * 0x400000 + bnat g.neg * 0x200000 + d.toNat * 0x20000 + a.toNat * 0x2000 + b.toNat * 0x200 + r.row.toNat * 0x20 + bnat r.w * 0x10 + y.code * 1
  | .vmin g d a b r y => 0x48000000 + g.c.toNat * 0x400000 + bnat g.neg * 0x200000 + d.toNat * 0x20000 + a.toNat * 0x2000 + b.toNat * 0x200 + r.row.toNat * 0x20 + bnat r.w * 0x10 + y.code * 1
  | .vmax g d a b r y => 0x4A000000 + g.c.toNat * 0x400000 + bnat g.neg * 0x200000 + d.toNat * 0x20000 + a.toNat * 0x2000 + b.toNat * 0x200 + r.row.toNat * 0x20 + bnat r.w * 0x10 + y.code * 1
  | .vabs g d a r y => 0x4C000000 + g.c.toNat * 0x400000 + bnat g.neg * 0x200000 + d.toNat * 0x20000 + a.toNat * 0x2000 + r.row.toNat * 0x20 + bnat r.w * 0x10 + y.code * 1
  | .vneg g d a r y => 0x4C000200 + g.c.toNat * 0x400000 + bnat g.neg * 0x200000 + d.toNat * 0x20000 + a.toNat * 0x2000 + r.row.toNat * 0x20 + bnat r.w * 0x10 + y.code * 1
  | .vnabs g d a r y => 0x4C000400 + g.c.toNat * 0x400000 + bnat g.neg * 0x200000 + d.toNat * 0x20000 + a.toNat * 0x2000 + r.row.toNat * 0x20 + bnat r.w * 0x10 + y.code * 1
  | .vlogic g d a b r op => 0x4E000000 + g.c.toNat * 0x400000 + bnat g.neg * 0x200000 + d.toNat * 0x20000 + a.toNat * 0x2000 + b.toNat * 0x200 + r.row.toNat * 0x20 + bnat r.w * 0x10 + op.code * 1
  | .vshift g d a b r y => 0x50000000 + g.c.toNat * 0x400000 + bnat g.neg * 0x200000 + d.toNat * 0x20000 + a.toNat * 0x2000 + b.toNat * 0x200 + r.row.toNat * 0x20 + bnat r.w * 0x10 + y.code * 1
  | .vcmp g d a b r lt y => 0x52000000 + g.c.toNat * 0x400000 + bnat g.neg * 0x200000 + d.toNat * 0x20000 + a.toNat * 0x2000 + b.toNat * 0x200 + r.row.toNat * 0x20 + bnat r.w * 0x10 + bnat lt * 0x8 + y.code * 1
  | .vsel g d a b r y => 0x54000000 + g.c.toNat * 0x400000 + bnat g.neg * 0x200000 + d.toNat * 0x20000 + a.toNat * 0x2000 + b.toNat * 0x200 + r.row.toNat * 0x20 + bnat r.w * 0x10 + y.code * 1
  | .vcvt g d a x r y => 0x56000000 + g.c.toNat * 0x400000 + bnat g.neg * 0x200000 + d.toNat * 0x20000 + a.toNat * 0x2000 + x.code * 0x200 + r.row.toNat * 0x20 + bnat r.w * 0x10 + y.code * 1
  | .vpack g d a b r m => 0x58000000 + g.c.toNat * 0x400000 + bnat g.neg * 0x200000 + d.toNat * 0x20000 + a.toNat * 0x2000 + b.toNat * 0x200 + r.row.toNat * 0x20 + bnat r.w * 0x10 + m.toNat * 1
  | .vunpk g d a b r m => 0x5A000000 + g.c.toNat * 0x400000 + bnat g.neg * 0x200000 + d.toNat * 0x20000 + a.toNat * 0x2000 + b.toNat * 0x200 + r.row.toNat * 0x20 + bnat r.w * 0x10 + m.toNat * 1
  | .vred g d a op r y => 0x5C000000 + g.c.toNat * 0x400000 + bnat g.neg * 0x200000 + d.toNat % 16 * 0x20000 + d.toNat / 16 * 0x200 + a.toNat * 0x2000 + op.code * 0x400 + r.row.toNat * 0x20 + bnat r.w * 0x10 + y.code * 1
  | .vbcast g d a r y => 0x5E000000 + g.c.toNat * 0x400000 + bnat g.neg * 0x200000 + d.toNat * 0x20000 + a.toNat % 16 * 0x2000 + a.toNat / 16 * 0x200 + r.row.toNat * 0x20 + bnat r.w * 0x10 + y.code * 1
  | .vscale g d a b r y => 0x60000000 + g.c.toNat * 0x400000 + bnat g.neg * 0x200000 + d.toNat * 0x20000 + a.toNat * 0x2000 + b.toNat * 0x200 + r.row.toNat * 0x20 + bnat r.w * 0x10 + y.code * 1
  | .vexp2 g d a r y => 0x62000000 + g.c.toNat * 0x400000 + bnat g.neg * 0x200000 + d.toNat * 0x20000 + a.toNat * 0x2000 + r.row.toNat * 0x20 + bnat r.w * 0x10 + y.code * 1
  | .vlog2 g d a r y => 0x64000000 + g.c.toNat * 0x400000 + bnat g.neg * 0x200000 + d.toNat * 0x20000 + a.toNat * 0x2000 + r.row.toNat * 0x20 + bnat r.w * 0x10 + y.code * 1
  | .vrcp g d a r y => 0x66000000 + g.c.toNat * 0x400000 + bnat g.neg * 0x200000 + d.toNat * 0x20000 + a.toNat * 0x2000 + r.row.toNat * 0x20 + bnat r.w * 0x10 + y.code * 1
  | .vrsqrt g d a r y => 0x66000200 + g.c.toNat * 0x400000 + bnat g.neg * 0x200000 + d.toNat * 0x20000 + a.toNat * 0x2000 + r.row.toNat * 0x20 + bnat r.w * 0x10 + y.code * 1
  | .vperm g d a b r y => 0x68000000 + g.c.toNat * 0x400000 + bnat g.neg * 0x200000 + d.toNat * 0x20000 + a.toNat * 0x2000 + b.toNat * 0x200 + r.row.toNat * 0x20 + bnat r.w * 0x10 + y.code * 1
  | .vscan g d a op r y => 0x6A000000 + g.c.toNat * 0x400000 + bnat g.neg * 0x200000 + d.toNat * 0x20000 + a.toNat * 0x2000 + op.code * 0x200 + r.row.toNat * 0x20 + bnat r.w * 0x10 + y.code * 1
  | .vsrch g d a b r y => 0x6C000000 + g.c.toNat * 0x400000 + bnat g.neg * 0x200000 + d.toNat * 0x20000 + a.toNat * 0x2000 + b.toNat * 0x200 + r.row.toNat * 0x20 + bnat r.w * 0x10 + y.code * 1
  | .vmix g d a b r y => 0x6E000000 + g.c.toNat * 0x400000 + bnat g.neg * 0x200000 + d.toNat * 0x20000 + a.toNat * 0x2000 + b.toNat * 0x200 + r.row.toNat * 0x20 + bnat r.w * 0x10 + y.code * 1
  | .viota g d a p h r y => 0x70000000 + g.c.toNat * 0x400000 + bnat g.neg * 0x200000 + d.toNat * 0x20000 + a.toNat % 16 * 0x2000 + a.toNat / 16 * 0x200 + bnat p * 0x1000 + h.toNat * 0x400 + r.row.toNat * 0x20 + bnat r.w * 0x10 + y.code * 1
  | .tmov g d a r => 0x80000000 + g.c.toNat * 0x400000 + bnat g.neg * 0x200000 + d.toNat * 0x20000 + a.toNat * 0x2000 + r.row.toNat * 0x20 + bnat r.w * 0x10
  | .tzero g d r => 0x82000000 + g.c.toNat * 0x400000 + bnat g.neg * 0x200000 + d.toNat * 0x20000 + r.row.toNat * 0x20 + bnat r.w * 0x10
  | .ttrans g d a y => 0x84000010 + g.c.toNat * 0x400000 + bnat g.neg * 0x200000 + d.toNat * 0x20000 + a.toNat * 0x2000 + y.code * 1
  | .topk g d a b k grp e => 0x86000000 + g.c.toNat * 0x400000 + bnat g.neg * 0x200000 + d.toNat * 0x20000 + a.toNat * 0x2000 + b.toNat * 0x200 + k.toNat * 0x20 + grp.code * 0x4 + e.code * 1
  | .tcolred g d a op row y => 0x88000000 + g.c.toNat * 0x400000 + bnat g.neg * 0x200000 + d.toNat * 0x20000 + a.toNat * 0x2000 + op.code * 0x200 + row.toNat * 0x20 + y.code * 1
  | .tfix g d a r y => 0x8A000000 + g.c.toNat * 0x400000 + bnat g.neg * 0x200000 + d.toNat * 0x20000 + a.toNat * 0x2000 + r.row.toNat * 0x20 + bnat r.w * 0x10 + y.code * 1
  | .tbndRd g d a row y => 0x8C000000 + g.c.toNat * 0x400000 + bnat g.neg * 0x200000 + d.toNat % 16 * 0x20000 + d.toNat / 16 * 0x200 + a.toNat * 0x2000 + row.toNat * 0x20 + y.code * 1
  | .tbndSet g d a r y => 0x8C000400 + g.c.toNat * 0x400000 + bnat g.neg * 0x200000 + d.toNat * 0x20000 + a.toNat % 16 * 0x2000 + a.toNat / 16 * 0x200 + r.row.toNat * 0x20 + bnat r.w * 0x10 + y.code * 1
  | .mma g d a b => 0xA0000000 + g.c.toNat * 0x400000 + bnat g.neg * 0x200000 + d.toNat * 0x10000 + a.toNat * 0x800 + b.toNat * 0x40
  | .mzero g => 0xA2000000 + g.c.toNat * 0x400000 + bnat g.neg * 0x200000
  | .mdrain g d a => 0xA4000000 + g.c.toNat * 0x400000 + bnat g.neg * 0x200000 + d.toNat * 0x10000 + a.toNat * 0x800
  | .rleave g drop => 0xA6000000 + g.c.toNat * 0x400000 + bnat g.neg * 0x200000 + bnat drop * 1
  | .nopB => 0xFE000000
  | _ => 0

/-- The literal that an instruction's lone form carries. -/
def literal : Instr → Option Half
  | .br x => x.lit
  | .bc _ _ x => x.lit
  | .bpend _ x => x.lit
  | .bnpend _ x => x.lit
  | .call x => x.lit
  | .loopi _ _ x => x.lit
  | .ld _ _ _ x => x.lit
  | .ldAcq _ _ _ _ _ x => x.lit
  | .st _ _ _ x => x.lit
  | .stRel _ _ _ _ x => x.lit
  | .ldp _ _ x => x.lit
  | .ldpAcq _ _ _ x => x.lit
  | .stp _ _ x => x.lit
  | .stpRel _ _ _ x => x.lit
  | .lds _ _ _ _ x => x.lit
  | .sts _ _ _ _ x => x.lit
  | .xch _ _ _ x => x.lit
  | .xchS _ _ _ _ x => x.lit
  | .cas _ _ _ x => x.lit
  | .aadd _ _ _ _ _ x => x.lit
  | .aand _ _ _ _ _ x => x.lit
  | .aor _ _ _ _ _ x => x.lit
  | .axor _ _ _ _ _ x => x.lit
  | .amaxs _ _ _ _ _ x => x.lit
  | .amins _ _ _ _ _ x => x.lit
  | .amaxu _ _ _ _ _ x => x.lit
  | .aminu _ _ _ _ _ x => x.lit
  | .afadd _ _ _ _ x => x.lit
  | .afmax _ _ _ _ x => x.lit
  | .afmin _ _ _ _ x => x.lit
  | .red _ _ _ _ _ _ x => x.lit
  | .faddt _ _ _ x => x.lit
  | .waitw _ _ x => x.lit
  | .scld _ _ _ x => x.lit
  | .scst _ _ _ x => x.lit
  | .scx _ _ _ x => x.lit
  | .tld _ _ _ x => x.lit
  | .tst _ _ _ x => x.lit
  | .tstB _ _ _ x => x.lit
  | .movi _ x => x.lit
  | .pmovPsel (.imm x) => x.lit
  | .pmovGain (.imm x) => x.lit
  | .pmovXscl (.imm x) => x.lit
  | .pmovWscl (.imm x) => x.lit
  | .pmovYout (.imm x) => x.lit
  | _ => none

/-- The two words of an instruction alone: slot A beside NOP.B or its literal, slot B beside NOP (R59, R79). -/
def encode (i : Instr) : Option (Half × Half) :=
  match slotA? i with
  | some true =>
    match literal i with
    | none => some (BitVec.ofNat 32 (encodeWordA i), 0xFE000000)
    | some l => some (BitVec.ofNat 32 (encodeWordA i + 0x80000000), l)
  | some false => some (0, BitVec.ofNat 32 (encodeWordB i))
  | none => none

/-- The instruction that the decoder reads from a word whose bits are w, numbered as the opcode table numbers them:
a slot A word beside ADD s0, s0, s0 (word 1 zero), or a slot B word beside NOP. A word below 2^28 is read as slot A
first: the table does not say which slot a row belongs to, and no slot A row needs a higher bit. -/
def decodeTableWord (_nbits w : Nat) : Option Instr :=
  let a := if bits w 31 31 = 1 then decodeA w (some 0) else decodeA w none
  if w < 2 ^ 28 then a <|> decodeB w else decodeB w <|> a

end Sys2Proof
end

