-- ==== Sys2Proof/Config.lean ====
section
/-! DEFINITION. What the manual leaves open: free values and the functions of the security engines, as
constants without a body. No proof can see what they are (log entries 13 and 17). -/

namespace Sys2Proof

/-- The n-th free value (log entry 13): plate codes, readings, verification results, undefined quarter words. -/
opaque Config.freeWord : Nat → BitVec 64

/-- What an empty key slot of a die holds (R305, R406; log entry 17). -/
opaque Config.emptyKey : Nat → Nat → BitVec 512

/-- The key bits of empty entry i of MERGEK's result for some rows (R142; log entry 13). -/
opaque Config.padKey : List (BitVec 1024) → Nat → BitVec 32

/-- The host page at which a package's queue window stands, for leaves with LOC host, where it is mapped for device code
(R334; log entry 82). -/
opaque Config.queueWindow : Nat → Option Nat

/-- The identity key's Ed448 signature over a digest (R405, R413; log entry 17). -/
opaque Config.sign : BitVec 512 → BitVec 912

/-- Whether a signature over a digest verifies under a key whose own digest is fused (R404; log entry 17). -/
opaque Config.verifies : BitVec 512 → BitVec 912 → Bool

/-- The security version held by the fuse counter (R404; log entry 17). -/
opaque Config.fuseVersion : BitVec 32

/-- Whether the host completes PCI Express AtomicOps (R402; log entry 17). -/
opaque Config.hostAtomics : Bool

/-- Whether the records of a host work queue count as posted by the firmware or the host driver (R319; log entry 17). -/
opaque Config.driverQueue : Nat → Bool

end Sys2Proof
end

