-- ==== Sys2Proof/Machine/State.lean ====
section
/-! DEFINITION. The state of the Isakel 7 as plain data: contexts, cores, banks, cells, engine queues,
launches, dies, packages and the domain, each in a list of (key, record) pairs. A context's key is
8 x coreid + ctxid, a bank's 16 x coreid + bank, a cell's coreid / 4, a die's coreid / 1024 (its die field,
R25), a package's coreid / 4096. A key that is not listed holds the record of reset. -/

namespace Sys2Proof.Machine

/-- Why the model stops. Raised by no ordinary data; each constructor names the rule that leaves no effect. -/
inductive Fault where
  /-- Raised by nothing in the present model: kept so that the type is inhabited. Safe. -/
  | unreachable
  deriving DecidableEq, Repr

/-- Why an instruction has no meaning in the model. -/
inductive Refusal where
  /-- An instruction of the table whose meaning is not written: answered by its arm of Dispatch. Safe. -/
  | notModelled (mnemonic : String)
  deriving DecidableEq, Repr

/-! ## Sparse tables -/

/-- The record of key k, or d when the table does not list it. -/
def look {α : Type} (d : α) : List (Nat × α) → Nat → α
  | [], _ => d
  | (k', v) :: t, k => if k' = k then v else look d t k

/-- The record of key k, if listed. -/
def find? {α : Type} : List (Nat × α) → Nat → Option α
  | [], _ => none
  | (k', v) :: t, k => if k' = k then some v else find? t k

/-- The table with v at key k, keys rising. -/
def put {α : Type} (k : Nat) (v : α) : List (Nat × α) → List (Nat × α)
  | [] => [(k, v)]
  | (k', v') :: t =>
    if k < k' then (k, v) :: (k', v') :: t
    else if k = k' then (k, v) :: t
    else (k', v') :: put k v t

/-- The table without key k. -/
def drop {α : Type} (k : Nat) (m : List (Nat × α)) : List (Nat × α) := m.filter fun p => p.1 ≠ k

/-! ## Contexts -/

/-- The five states of a context (R9). -/
inductive Status where
  | idle | ready | running | parked | stopped
  deriving DecidableEq, Repr

/-- What a parked context waits for (R9). -/
inductive Park where
  /-- Not parked on anything. -/
  | none
  /-- The bundle at pc is issued again once it can issue: a pending operand (R28), queue or tray room, a held quarter. -/
  | reissue
  /-- An arrival behind the context's incomplete previous phase at a domain (R135); the bundle is issued again. -/
  | barPrevious (dom : Domain)
  /-- The completion of a phase (R135). -/
  | barPhase (dom : Domain) (phase : Nat)
  /-- A second NRED behind the context's earlier round at a domain (R141); the bundle is issued again. -/
  | nred (dom : Domain)
  /-- FOLLOW or ATTACH waiting for a phase, with its leader (R290). -/
  | team (dom : Domain) (phase : Nat) (leader : Nat)
  /-- WAITW's landing, in the register if it is not s0 (R125). -/
  | waitw (d : SReg)
  /-- WAITT's dial time (R292). -/
  | waitt (t : Word)
  /-- WFI with its deadline (R288); 0 when it has none. -/
  | wfi (t : Word)
  /-- A fork meeting (R270). -/
  | rendez (meeting : Nat)
  /-- The gang barrier (R203). -/
  | gang
  /-- The conditions of an exposure (R223); the bundle is issued again. -/
  | expose
  /-- An empty tray (R250). -/
  | traydrain
  /-- The handler's next row (R213). -/
  | nextRow
  /-- The waits of an exit (R327). -/
  | exit
  deriving DecidableEq, Repr

/-- Poison: the failed operation's cause and its address, if known (R30, R278). -/
structure Poison where
  cause : Byte
  addr : Word
  deriving DecidableEq, Repr

/-- A cause, subcause and address (R277). -/
structure TrapInfo where
  cause : Byte
  sub : Byte
  addr : Word
  /-- The word xstat takes, where the cause table states one (R278). -/
  stat : Option Word := none
  deriving DecidableEq, Repr

/-- A tile row: data, tag (R16), writers in flight (the pending bit of R27 is set while any is), poison (R30). -/
structure Row where
  data : RowData := 0
  b : Bool := false
  e : Byte := 0
  pend : Nat := 0
  poison : Option Poison := none
  /-- Its poisoned units of 4 bytes (R408); bit 32 stands for the tag. -/
  bad : BitVec 33 := 0
  deriving DecidableEq, Repr

/-- A closure of the tray (R235). -/
structure Closure where
  instr : Instr
  pc : Word
  /-- Age within the context: program order, slot A before slot B. -/
  age : Nat
  /-- The scalar registers as captured by value. -/
  s : Vector Word 32
  /-- The condition registers as captured. -/
  c : BitVec 8
  /-- mode.FRM and mode.FTZ as captured. -/
  frm : BitVec 2
  ftz : Bool
  /-- Pending scalar sources, read by name when the closure runs. -/
  byName : List SReg
  /-- The sources that it captured by name (R250). -/
  named : List SReg := byName
  /-- Age of the youngest older closure it must follow (R237, R238), if any. -/
  behind : List Nat
  /-- A TRAP entry marked this closure faulted (R245). -/
  faulted : Bool
  /-- Cycle from which it has been ready (R241). -/
  readyAt : Option Nat
  /-- A slot B's slot A, by age, when both were deferred: neither sees what the other writes (R60). -/
  mate : Option Nat := none
  /-- Poison of the sources whose values were fixed when that slot A ran. -/
  bad : List (Nat × Poison) := []
  /-- Its tray entry is poisoned (R408). -/
  ecc : Bool := false
  deriving DecidableEq, Repr

/-- A fixed-latency result in flight (R62). -/
structure Fixed where
  reg : SReg
  value : Word
  due : Nat
  /-- The register is pending until this result lands, because a closure computed it (R236). -/
  pends : Bool
  /-- The request that has not yet brought the value (R296). -/
  of : Option Nat := none
  /-- It lands poisoned (R30). -/
  bad : Option Poison := none
  deriving DecidableEq, Repr

/-- Where the value of an access or a late result goes. -/
inductive Dest where
  | none
  /-- A scalar register, with the extension of a value of `bytes` bytes. -/
  | reg (d : SReg) (bytes : Nat) (signed : Bool)
  /-- A pair of 64-bit registers. -/
  | pair (d : SReg)
  /-- A status register and, when the status is OK, a value register. -/
  | status (k : SReg) (d : Option (SReg × Nat))
  /-- Consecutive 64-bit registers (FILL). -/
  | regs (d : SReg) (n : Nat)
  /-- A tile row, by its key 16 x physical tile + row. -/
  | row (key : Nat)
  deriving DecidableEq, Repr

/-- Read-modify-write functions (R119, R121). -/
inductive Rmw where
  | xch (v : Word)
  | cas (expect new : Word)
  | red (op : RedOp) (v : Word)
  deriving DecidableEq, Repr

/-- BGUISE's modes (R157). -/
inductive GuiseMode where
  | clear | keep | convert
  deriving DecidableEq, Repr

/-- What an access does at its place. -/
inductive Access where
  /-- Reads n bytes. -/
  | read (n : Nat)
  /-- Writes the low n bytes of v. -/
  | write (n : Nat) (v : SlotData)
  /-- One atomic read and write of 4 or 8 bytes. -/
  | rmw (n : Nat) (f : Rmw)
  /-- FADDT (R124). -/
  | faddt (add thr : Word)
  /-- WAITW's test and registration (R125). -/
  | waitw (thr deadline : Word)
  /-- Reads the descriptor of the bank (R156). -/
  | desc
  /-- BGUISE's change of the bank (R157): mode and new descriptor. -/
  | guise (mode : GuiseMode) (new : Word)
  deriving DecidableEq, Repr

/-- The ordering an access carries (R114). -/
structure Order where
  acq : Bool := false
  rel : Bool := false
  scope : Scope := .ctx
  /-- A sequentially consistent operation (R127). -/
  sc : Bool := false
  deriving DecidableEq, Repr

/-- Where a request stands. -/
inductive ReqState where
  /-- Issued, not yet performed. -/
  | issued
  /-- Met CLOSED; replayed at the same slot of the next frame (R148). -/
  | closed
  /-- Suspended by a fault record of a die (R357). -/
  | suspended (die : Nat) (num : Nat)
  /-- The fault was answered and the request is tried again (R358). -/
  | retry
  /-- Registered at a waiter registry (R125). -/
  | registered
  /-- An SC operation announced and waiting for its place in the order (R128). -/
  | announced
  /-- A RED held in a switch merge entry (R398). -/
  | merging
  /-- The fault was answered as a failure (R280, R289). -/
  | failed (t : TrapInfo)
  deriving DecidableEq, Repr

/-- An issued memory access of a context that has not been performed. -/
structure Req where
  seq : Nat
  acc : Access
  addr : Word
  dest : Dest
  ord : Order
  /-- Issued at user level (R355). -/
  user : Bool
  /-- PC of the issuing bundle. -/
  pc : Word
  /-- A plain port form (R148): its status never lands. -/
  plain : Bool
  /-- It met CLOSED at least once (R148). -/
  metClosed : Bool
  /-- First cycle in which it may be performed. -/
  due : Nat
  state : ReqState
  /-- The cycle of its issue (R296, R297). -/
  issued : Nat := 0
  /-- The parts that have been performed, by bank, of an access that spans two (R295). -/
  did : BitVec 2 := 0
  /-- What those parts read, and the poison that one of them met. -/
  got : Nat := 0
  bad : Option Word := none
  /-- The latest landing cycle of those parts. -/
  land : Nat := 0
  /-- The first row's age, for the rows of one tile instruction (R131, R132). -/
  tile : Option Nat := none
  /-- Every row of its instruction has passed the checks of R111. -/
  checked : Bool := false
  /-- The cycle from which it has found no live path to its die (R396). -/
  lostAt : Option Nat := none
  deriving DecidableEq, Repr

/-- A plain port access or BDESC at an own bank, whose answer holds the context's next bundle (R149, R156): the
request, its bundle's loop counts, and the closure that issued it, for a precise trap. -/
structure PortWait where
  seq : Nat
  lct : Vector Word 4
  closure : Option Closure
  deriving DecidableEq, Repr

/-- Register writes that land together (R27): values, rows, flags with their counters, poison. -/
structure Landing where
  seq : Nat
  due : Nat
  regs : List (SReg × Word)
  /-- Registers whose pending bit clears with no write: the value of a status form that was not OK (R118). -/
  clears : List SReg
  rows : List (Nat × Row)
  /-- Flags NV DZ OF UF NX in the order of fflags, raised when it lands (R122, R169). -/
  flags : BitVec 5
  /-- BFP saturations for evc5 (R45). -/
  sats : Nat
  poison : Option Poison
  /-- The NRED domain whose round this landing ends (R141). -/
  nred : Option Domain
  /-- The landing of a row instruction (R169). -/
  row : Bool
  /-- Its cycle is fixed: it lands then, neither earlier nor later (R297, R300). -/
  firm : Bool := false
  /-- It ends a WAITW (R125). -/
  waitw : Bool := false
  deriving DecidableEq, Repr

/-- An acknowledgement on its way (R122, R280): it arrives in its cycle (R300), or at any time from then on. -/
structure Ack where
  flags : BitVec 5
  fail : Option TrapInfo
  due : Nat := 0
  firm : Bool := false
  deriving DecidableEq, Repr

/-- The port latches of a context (R218). -/
structure Latches where
  psel : BitVec 2 := 0
  xin : BitVec 2048 := 0
  gain : BitVec 4 := 0
  xscl : Half := 0
  wscl : Half := 0
  yout : Byte := 0
  wrowIndex : Byte := 0
  wrow : BitVec 2048 := 0
  deriving DecidableEq, Repr

/-- A context's part in the barriers of one domain (R135 to R138, R426). -/
structure BarMember where
  arrived : Nat := 0
  departed : Bool := false
  /-- The cycle of its last arrival, or of its departure (R368). -/
  since : Nat := 0
  timedOut : Option Nat := none
  swap : Bool := false
  gather : Option Word := none
  /-- Age of the record's write once it has been asked for (R138). -/
  gatherSeq : Option Nat := none
  deriving DecidableEq, Repr

/-- A context's fork group (R270): its number, RENDEZ issued, `rendez sd` registers waiting with their meetings, the
dial times of the completed meetings, and the dial time at which its last chain ended. -/
structure Fork where
  group : Nat
  issued : Nat
  waiting : List (SReg × Nat)
  times : List Word
  ended : Option Word
  deriving DecidableEq, Repr

/-- What a leader's bundle came to, for its followers (R291): its control transfer, its next PC unless it traps, its exit. -/
structure TeamOut where
  taken : Bool
  pc : Option Word
  exits : Bool
  deriving DecidableEq, Repr

/-- A bundle that a follower's leader has issued (R330): the earliest cycle of its own issue, and the leader's outcome; none
for a GANG bundle, whose gang forms later. -/
structure TeamStep where
  bundle : Bundle
  due : Nat
  out : Option TeamOut
  deriving DecidableEq, Repr

/-- How a member left its launch (R327, R281). -/
inductive Left where
  | no | exited | killed
  deriving DecidableEq, Repr

/-- A GANG bundle that has arrived (R203): its PC, and that its gang has formed, so that only its slot B is left. -/
structure GangWait where
  pc : Word
  /-- Issued while handling a trap. -/
  h : Bool
  formed : Bool := false
  deriving DecidableEq, Repr

/-- One context: its registers and everything that is saved with it (R344). -/
structure Ctx where
  status : Status := .idle
  park : Park := .none
  parkAt : Nat := 0
  /-- PC of the bundle that parked. -/
  parkPc : Word := 0
  /-- A bundle that parked once its slots were done and was left by a trap (R426): its PC, where it goes on, its wait. -/
  redo : Option (Word × Word × Park) := none
  s : Vector Word 32 := Vector.replicate 32 0
  c : BitVec 8 := 0
  pend : BitVec 32 := 0
  poison : List (Nat × Poison) := []
  /-- Poisoned condition registers, and control registers by number (R408). -/
  badC : BitVec 8 := 0
  badCtl : List Nat := []
  pc : Word := 0
  npc : Word := 0
  taken : Bool := false
  mode : BitVec 7 := 0
  basePriv : Bool := false
  h : Bool := false
  fflags : BitVec 5 := 0
  fmt : Vector Word 4 := Vector.replicate 4 0
  scl : Vector Word 4 := Vector.replicate 4 0
  evc : Vector Half 16 := Vector.replicate 16 0
  lsa : Vector Word 4 := Vector.replicate 4 0
  lea : Vector Word 4 := Vector.replicate 4 0
  lct : Vector Word 4 := Vector.replicate 4 0
  utvec : Word := 0
  hdlrow : BitVec 7 := 0
  hdlcnt : BitVec 8 := 0
  wgt : BitVec 63 := 0
  tbase : BitVec 4 := 0
  tcount : BitVec 5 := 0
  asid : BitVec 16 := 0
  spbase : Word := 0
  spsize : BitVec 14 := 0
  spovf : Word := 0
  lvl : Vector Half 8 := Vector.replicate 8 0
  xcause : Byte := 0
  xsub : Byte := 0
  xaddr : Word := 0
  xpc : Word := 0
  xstat : Word := 0
  fixed : List Fixed := []
  portWait : Option PortWait := none
  nextIssue : Nat := 0
  tray : List Closure := []
  /-- The closures that a kill discarded: what they would have written stays pending until the release (R249). -/
  lost : List Closure := []
  running : Option Closure := none
  stop : Option Word := none
  /-- The bundle that trapped TRAYFULL and has not issued since (R244). -/
  trayFull : Option Word := none
  reqs : List Req := []
  landings : List Landing := []
  acks : List Ack := []
  failure : Option TrapInfo := none
  /-- The cycle in which that failure was reported to the core. -/
  failedAt : Nat := 0
  latches : Latches := {}
  plateBase : Nat := 0
  plateCount : Nat := 0
  bars : Vector BarMember 8 := Vector.replicate 8 {}
  nredBusy : BitVec 8 := 0
  treeLeft : BitVec 8 := 0
  fork : Option Fork := none
  /-- Earlier groups with a `rendez sd` still to land. -/
  oldForks : List Fork := []
  leader : Option Nat := none
  lastLeader : Option Nat := none
  /-- The bundles of its leader that it has still to issue (R291, R330). -/
  backlog : List TeamStep := []
  launch : Option Nat := none
  left : Left := .no
  /-- The transfer to EXIT was taken (R327). -/
  exiting : Bool := false
  /-- A fetch fault record that stops the context (R282): die and number. -/
  fetchStop : Option (Nat × Nat) := none
  /-- The fetch was answered as a failure (R282): the FAULT.X to take. -/
  fetchFail : Option TrapInfo := none
  /-- K and the operand pairs that an executing MMA latches for the GANG of its bundle (R203). -/
  mma : Option (Word × (Word × Word) × (Word × Word)) := none
  /-- Its GANG bundle, from its arrival until it is done. -/
  gang : Option GangWait := none
  /-- The trap that the bundle takes once its slots are done (R286, R148). -/
  after : Option TrapInfo := none
  /-- The runtime firmware has queued `pmov refix, 0` for it and waits (R283). -/
  refixing : Bool := false
  deriving DecidableEq, Repr

/-! ## Cores -/

/-- A move in the port queue (R218), with the values read at issue (R221). -/
inductive PortOp where
  | psel (v : BitVec 2) | gain (v : BitVec 4) | xscl (v : Half) | wscl (v : Half) | yout (v : Byte)
  | xin (v : BitVec 2048) | wrow (index : Byte) (v : BitVec 2048) (clamped : Nat)
  | expose | wgo | refix
  | stat (d : SReg) | calwWrite (index : Nat) (v : Word) | calwRead (d : SReg) (index : Nat)
  deriving DecidableEq, Repr

/-- A move with its context. -/
structure PortMove where
  ctx : Nat
  op : PortOp
  deriving DecidableEq, Repr

/-- The trigger the plate unit runs (R218). -/
inductive Trigger where
  | reference (plate : Nat) | expose (plate ctx : Nat) (l : Latches) | wgo (plate : Nat) (row : Byte) (w : BitVec 2048)
  | refix (plate : Nat)
  deriving DecidableEq, Repr

/-- One plate (R216, R231, R232). -/
structure Plate where
  /-- Weight rows that are not all zero: row i as 256 bytes. -/
  w : List (Nat × BitVec 2048) := []
  /-- Calibration words that are not zero (390 words). -/
  cal : List (Nat × Word) := []
  /-- Dial time of the last reading. -/
  readAt : Nat := 0
  drift : Bool := false
  /-- Poisoned calibration words (R408). -/
  badCal : List Nat := []
  /-- Calibration words written since the reading. -/
  calWritten : Bool := false
  refixFailed : Bool := false
  badRows : List Nat := []
  clips : Byte := 0
  wsat : Byte := 0
  wbad : Byte := 0
  /-- The tenant whose launches it has served since it was last cleared (R217). -/
  tenant : Option (BitVec 16) := none
  deriving DecidableEq, Repr

/-- A quarter of the joint array's accumulator (R198). -/
structure Quarter where
  /-- Words by 32 i + j'; a word not listed is +0, or undefined under `free`. -/
  acc : List (Nat × Half) := []
  /-- The words acc does not list are undefined (R198): free values from this index on. -/
  free : Option Nat := none
  /-- Sticky flags NV, OF, UF, NX in the places of fflags. -/
  flags : BitVec 5 := 0
  m : Nat := 0
  n : Nat := 0
  out : BitVec 3 := 0
  bw : BitVec 4 := 0
  /-- Row and column scales read by the operation (R50, R201); an empty list is an absent vector. -/
  sa : List Half := []
  sb : List Half := []
  holder : Option Nat := none
  /-- The holder has departed: the quarter is released when its operation ends (R206). -/
  leaving : Bool := false
  /-- The cause recorded by a failed operation (R208). -/
  fail : Option TrapInfo := none
  deriving DecidableEq, Repr

/-- Who asked for a drain (R212, R261). -/
inductive DrainBy where
  | ctx (k : Nat) (d : SReg) | queue (q : Nat)
  deriving DecidableEq, Repr

/-- A drain of a quarter (R212). -/
structure Drain where
  by_ : DrainBy
  /-- The context whose tiles and address space it uses. -/
  ctx : Nat
  /-- At user level at issue (R355). -/
  user : Bool
  base : Word
  dest : Word
  hdl : Word
  begun : Bool
  /-- Rows still to take when begun. -/
  row : Nat
  m : Nat
  /-- A row is held by the handler (R213). -/
  held : Bool
  flags : BitVec 5
  sats : Nat
  poison : Option Poison
  /-- The subcause of the failed write (R265). -/
  sub : Byte := 0
  /-- The row written next, when it waits for its write (bytes and their count). -/
  ready : Option (RowData × Nat)
  /-- Its parts that have been written, by bank (R295). -/
  did : BitVec 2 := 0
  state : ReqState
  due : Nat
  deriving DecidableEq, Repr

/-- An entry of the dispatch queue (R194): the rows that have not started, in the groups that start together, the
lane-group cycles of each group (R195), and what lands with the last. -/
structure Dispatch where
  ctx : Nat
  units : List (List (Nat × Row))
  regs : List (SReg × Word)
  flags : BitVec 5
  sats : Nat
  cycles : Nat
  deriving DecidableEq, Repr

/-- The address of the runtime firmware's trap handler, which stvec holds from boot (R19, R283; log entry 4). -/
def firmwareEntry : Word := 0

/-- One core. -/
structure CoreSt where
  vshare : BitVec 4 := 1
  gmask : BitVec 4 := 0
  hdl : Word := 0
  stvec : Word := firmwareEntry
  rfout : BitVec 4 := 0
  ntile : BitVec 5 := 16
  rows : List (Nat × Row) := []
  running : Option Nat := none
  ring : Nat := 3
  nextSlot : Nat := 0
  ownAcc : List (Nat × Nat) := []
  queue : List Dispatch := []
  ports : List PortMove := []
  /-- The first cycle in which the head move may be applied (R218). -/
  portAt : Nat := 0
  trigger : Option (Trigger × Nat) := none
  plates : List (Nat × Plate) := []
  quarter : Quarter := {}
  drains : List Drain := []
  /-- Cores of the cell that departed since gmask was written (R206). -/
  broken : BitVec 4 := 0
  launch : Option Nat := none
  tenant : Option (BitVec 16) := none
  draining : Bool := false
  /-- It has been tested since the reset (R409). -/
  tested : Bool := false
  deriving DecidableEq, Repr

/-! ## Banks and cells -/

/-- A waiter of a registry (R125, R153): a context's request or an engine entry or a dependence of a queue. -/
inductive Waiter where
  | ctx (k seq : Nat)
  | queue (q : Nat)
  | dep (pkg q : Nat) (second : Bool)
  deriving DecidableEq, Repr

/-- A registration: waiter, word address and threshold. -/
structure Registered where
  who : Waiter
  addr : Nat
  thr : Word
  deadline : Word
  /-- Its entry is poisoned (R408). -/
  bad : Bool := false
  deriving DecidableEq, Repr

/-- The change that keeps a bank CLOSED (R157, R161): for a BGUISE the descriptor that lands, whether a KEEP was
refused, and CONVERT's counts for xstat. -/
inductive Closing where
  | guise (ctx : Nat) (d : SReg) (pc : Word) (old : Word) (due : Nat) (bad : Bool) (counts : Option Word)
  | arcade (ctx : Nat)
  deriving DecidableEq, Repr

/-- What stands beside a bank's 8 KiB. -/
structure Bank where
  desc : Word := 0
  /-- Its descriptor is poisoned (R408). -/
  badDesc : Bool := false
  /-- EXCH: the odd bank holds the front image (R155). -/
  flipped : Bool := false
  waiters : List Registered := []
  closing : Option Closing := none
  /-- Keys a generation check holds until its item's writes are performed (R263). -/
  held : List Word := []
  /-- Ages of the live elements in structure order of a QUEUE (oldest first) or STACK (bottom first) arcade member (R162). -/
  ages : List Nat := []
  deriving DecidableEq, Repr

/-- A bank's slots: one past the cycle of its last access (R294), and its pointers (R298), to the next core of the
pavilion at slot 2, the next cell at the even half of slot 3 and the next bay at the odd half. -/
structure Turn where
  served : Nat := 0
  core : Nat := 0
  cell : Nat := 0
  bay : Nat := 0
  deriving DecidableEq, Repr

/-- A composition or dissolution in progress (R161). -/
structure ArcadeOp where
  ctx : Nat
  d : SReg
  code : Nat
  named : List Nat
  due : Nat
  /-- The request that is still to read its list (R161, R299). -/
  list : Option Nat := none
  deriving DecidableEq, Repr

/-- A member's arrival at the gang barrier (R203). -/
structure Arrival where
  core : Nat
  /-- Age: the member's older accesses precede the operation's start (R204). -/
  seq : Nat
  by_ : DrainBy
  /-- Its context was at user level at issue (R355). -/
  user : Bool
  gmask : BitVec 4
  mma : Bool
  k : Word
  da : Word × Word
  db : Word × Word
  fmt : Vector Word 4
  scl : Vector Word 4
  /-- The quarter's holder before an MMA's arrival took it (R198): it holds again if the gang fails (R203). -/
  prev : Option Nat := none
  deriving DecidableEq, Repr

/-- What the array reads (R201): a vector of A, a vector of a member's B, exponents, scales. -/
inductive Part where
  | a (v : Nat) | b (member v : Nat) | ea | eb (member : Nat) | sa | sb (member : Nat)
  deriving DecidableEq, Repr

/-- A joint-array operation in flight (R204). -/
structure MatOp where
  members : List Arrival
  leader : Arrival
  next : Nat
  blocks : Nat
  due : Nat
  state : ReqState
  /-- What has been read from banks for the next block: part, byte in it, value. -/
  vals : List (Part × Nat × Nat) := []
  /-- A member is being pre-empted and the current block has finished (R209). -/
  rests : Bool := false
  deriving DecidableEq, Repr

/-- One cell. -/
structure Cell where
  arrivals : List Arrival := []
  /-- Its operations, of gangs with no core in common. -/
  ops : List MatOp := []
  /-- The cycle from which each lane group is free (R195). -/
  lanes : Vector Nat 4 := Vector.replicate 4 0
  /-- The arbiter's turn (R196; log entry 78): whose it is, and how many grants it has had in it. -/
  turn : Nat := 0
  granted : Nat := 0
  deriving DecidableEq, Repr

/-! ## Engines -/

/-- How a performed access ended. -/
inductive Perf where
  /-- Performed: status, value and flags. -/
  | done (status value : Nat) (fl : BitVec 5)
  | closed
  | registered
  /-- It read a poisoned unit, at this address (R408); a port operation returns no status. -/
  | poisoned (unit : Word) (port : Bool)
  | failed (t : TrapInfo)
  | fault (die num : Nat)
  /-- The fault buffer is full: it waits (R357). -/
  | blocked
  deriving DecidableEq, Repr

/-- An access that an engine is making for the present entry of a chain: what it asks for, since when, what its performed
pieces gave (byte in it, value), and how it ended if not with those. -/
structure EngineIo where
  addr : Word
  /-- Bytes from that address to the first one: the address names an arcade's lead, perhaps (R163). -/
  off : Nat := 0
  acc : Access
  /-- The REDs that a REDCOPY applies instead of a plain write: operation and bytes (R256). -/
  red : Option (RedOp × Nat) := none
  /-- A generation check (R263): bank, key, generation. -/
  gen : Option (Nat × Word × Nat) := none
  since : Nat
  parts : List (Nat × Nat) := []
  out : Option Perf := none
  /-- The cycle in which what its last piece gave is back at the engine. -/
  ready : Nat := 0
  deriving DecidableEq, Repr

/-- An engine's turns: its queue whose item began last (R251), and one past the cycle of its last move. -/
structure Engine where
  last : Nat := 0
  moved : Nat := 0
  deriving DecidableEq, Repr

/-- An ATTR pending on the next entry (R262). -/
structure Attr where
  w : Vector Word 4
  deriving DecidableEq, Repr

/-- What a chain's current entry waits for. -/
inductive ChainWait where
  | ready
  | waitt (t : Word)
  | waitv
  | meeting (j : Nat)
  | gang
  | operation
  | drain
  | suspended (die num : Nat)
  | retry
  /-- The item's fault was answered as a failure, or no live path was found (R259, R396). -/
  | failed (t : TrapInfo)
  /-- The gang it waited for was broken by these cores (R206). -/
  | broken (cores : BitVec 4)
  /-- A WAITV's waiter was woken with this status (R124, R153). -/
  | woken (v : Nat)
  deriving DecidableEq, Repr

/-- How an entry ended (R265), while its completion record is written: the address of the next entry, or the chain's end. -/
structure Ending where
  status : Nat
  cause : Byte
  sub : Byte
  next : Word
  last : Bool
  deriving DecidableEq, Repr

/-- A command chain (R252, R266). -/
structure Chain where
  owner : Nat
  /-- Its context was at user level at issue (R355). -/
  user : Bool
  /-- The address space of its context, which it keeps when the context is no more (R274, R353). -/
  asid : BitVec 16 := 0
  /-- Age: accepted after, and ordered after the accesses of, everything older (R260 QFENCE, R267). -/
  seq : Nat
  head : Word
  /-- The present entry. -/
  next : Word
  /-- Its words, once they have been read (R252). -/
  entry : Option (Vector Word 4)
  item : Nat
  /-- Bytes of the item already moved (R257, R259). -/
  piece : Nat
  counters : Vector Half 4
  /-- ATTR for the next entry (R262). -/
  attr : Option Attr
  /-- ATTR that acts on the present entry. -/
  active : Option Attr
  /-- A generation check that the present item has passed: bank and key (R263). -/
  admitted : Option (Nat × Word)
  meetings : Nat
  tok : SReg
  tok2 : SReg
  /-- The fork group it belongs to (R269). -/
  fork : Option Nat
  items : Nat
  stale : Nat
  /-- Items and STALE items of the present entry. -/
  entryItems : Nat
  entryStale : Nat
  wait : ChainWait
  ending : Option Ending
  /-- The chain stops at its next item boundary (R274, R328). -/
  cancel : Bool
  /-- The access that its engine is making. -/
  io : Option EngineIo := none
  /-- The present item has begun: its checks are made (R258). -/
  begun : Bool := false
  /-- The index of the present GATHER or SCATTER item, and the bytes read for its present move. -/
  index : Option Nat := none
  buf : Option Nat := none
  deriving DecidableEq, Repr

/-- One queue of an engine (R251). -/
structure Queue where
  chains : List Chain := []
  deriving DecidableEq, Repr

/-! ## Collectives -/

/-- A contribution to a combining-tree round (R141, R369). -/
structure Contribution where
  ctx : Nat
  op : NredOp
  merge : Bool
  value : Word
  payload : Half
  row : RowData
  dest : Dest
  deriving DecidableEq, Repr

/-- An open NRED round or barrier instance of a launch at one instance of a domain. -/
structure Round where
  launch : Nat
  dom : Domain
  inst : Nat
  parts : List Contribution
  due : Nat
  deriving DecidableEq, Repr

/-- The phases completed at a barrier instance (R135). -/
structure Barrier where
  launch : Nat
  dom : Domain
  inst : Nat
  done : Nat
  deriving DecidableEq, Repr

/-! ## Launches -/

/-- Where a launch record stands. -/
inductive Phase where
  | waiting | eligible | placed | imageFault | started | saved
  /-- It failed once placed: its cores drain and are given back (R326, R328). -/
  | failing
  | ended
  deriving DecidableEq, Repr

/-- The saved image of a pre-empted launch (R344): contexts, cores and banks as they stood. -/
structure Saved where
  ctxs : List (Nat × Ctx)
  cores : List (Nat × CoreSt)
  banks : List (Nat × Bank)
  bytes : List Host.Cell
  cells : List (Nat × Cell)
  queues : List (Nat × Queue)
  poison : List Nat
  deriving DecidableEq, Repr

/-- What a member of a released core leaves behind for barriers whose phase it had arrived at (R136 to R138): its counters
and its part in each domain. -/
structure Gone where
  ctx : Nat
  evc : Vector Half 16
  bars : Vector BarMember 8
  deriving DecidableEq, Repr

/-- A launch (R318 to R332). -/
structure Launch where
  w : Vector Word 32
  addr : Word
  pkg : Nat
  queue : Nat
  tenant : BitVec 16
  asid : BitVec 16
  prio : Nat
  age : Nat
  /-- The dial time from which it waits to be placed: it became eligible, or was saved (R338). -/
  waits : Nat := 0
  phase : Phase
  /-- The flat index of its first member (R321, R400). -/
  base : Nat := 0
  /-- Member contexts in the order of the flat index g. -/
  members : List Nat
  /-- Every core of the used instances (R322). -/
  cores : List Nat
  released : List Nat
  /-- Members of released cores. -/
  gone : List Gone := []
  exited : Nat
  killed : Nat
  /-- The first kill's cause and subcause, and its cycle (R329). -/
  killCause : Option (Byte × Byte)
  killedAt : Nat := 0
  /-- The oldest failure that no instruction reported, and its cycle (R280, R332). -/
  failure : Option (Byte × Byte)
  failedAt : Nat := 0
  outstanding : Int
  phaseEnded : Bool
  /-- Units on their way to the root (R140). -/
  returns : List Int
  /-- Where the owed PHASE write stands. -/
  phaseWrite : ReqState
  phaseOwed : Bool
  ops : Nat
  bytes : Nat
  cls : Option Bool
  /-- Its own counts have been classed (R340). -/
  classed : Bool
  startedAt : Nat
  saved : Option Saved
  /-- A pre-emption has been taken and waits for what R343 names. -/
  stopping : Bool
  /-- Where the reads of the image list (R326) or the write of the completion record (R329) stand. -/
  io : ReqState
  deriving DecidableEq, Repr

/-! ## Dies, packages, the domain -/

/-- A cached leaf (R353): asid, virtual page base, size and the leaf entry. -/
structure TlbEntry where
  asid : BitVec 16
  base : Nat
  size : Nat
  leaf : Word
  /-- Its way in its set of a pool. -/
  way : Nat := 0
  deriving DecidableEq, Repr

/-- An unanswered fault record (R356). -/
structure FaultRec where
  num : Nat
  va : Word
  asid : BitVec 16
  cause : Byte
  sub : Byte
  kind : BitVec 4
  deriving DecidableEq, Repr

/-- A fault that waits for room in the fault buffer (R357): what its record will say. -/
structure FaultWait where
  va : Word
  asid : BitVec 16
  core : Nat
  ctx : Nat
  queue : Nat
  cls : Nat
  kind : Nat
  sub : Nat
  deriving DecidableEq, Repr

/-- An invalidation in progress (R354). -/
structure Inval where
  asid : BitVec 16
  base : Nat
  size : Nat
  whole : Bool
  deriving DecidableEq, Repr

/-- A latent-record event (R411). -/
structure Event where
  time : Word
  seq : Half
  code : BitVec 16
  unit : BitVec 4
  inst : BitVec 12
  arg0 : Word
  arg1 : Word
  deriving DecidableEq, Repr

/-- One die. -/
structure Die where
  root : Word := 0
  fbase : Word := 0
  fsize : Nat := 4
  ftail : Half := 0
  fsig : Word := 0
  invdone : Half := 0
  ctbase : Word := 0
  cthr : BitVec 16 := 0xFFFF
  hbase : Word := 0
  hsize : Nat := 4
  htail : Half := 0
  hhead : Half := 0
  hdrop : Half := 0
  records : List FaultRec := []
  /-- Faults not yet recorded, in order of arrival (R357). -/
  faultWaits : List FaultWait := []
  invals : List Inval := []
  /-- Its pools: classes 0 to 3 and the last level, the most recent entry first. -/
  tlb : Vector (List TlbEntry) 5 := Vector.replicate 5 []
  /-- The trees of pseudo-LRU sets (R353), by 8,192 x pool + set: bit n is node n, of which node 1 is the root. -/
  trees : List (Nat × Nat) := []
  waiters : List Registered := []
  keys : List (Nat × Nat × BitVec 512) := []
  pmargin : Nat := 32
  /-- The dies' copy of the reduction windows (R397). -/
  windows : Vector (Word × Word) 16 := Vector.replicate 16 (0, 0)
  /-- What the dial adds to its count of cycles, in 1/30,000 ns (R371). -/
  dialBase : Int := 0
  /-- A correction, in the same unit, that the dial takes up at 100 parts per million from a cycle on (R371, R373). -/
  slew : Int := 0
  slewAt : Nat := 0
  epochSet : Bool := false
  /-- Dial time of the REFIX that the boot firmware gave every plate (R217). -/
  bootAt : Nat := 0
  latent : List Event := []
  seq : Half := 0
  /-- The cycle of the newest events of the ring, and how many of them entered in it (R411). -/
  latentAt : Nat := 0
  latentNow : Nat := 0
  frozen : Bool := false
  failed : Bool := false
  deriving DecidableEq, Repr

/-- A host work queue's control block and front record (R334, R336). -/
structure Qcb where
  base : Word := 0
  ctl : Word := 0
  tail : Half := 0
  head : Half := 0
  /-- The launch made from the record at the front. -/
  front : Option Nat := none
  dep0 : Bool := false
  dep1 : Bool := false
  /-- Its first and second word are to be tested at once (R336): the record has come to the front, or its waiter was woken. -/
  test0 : Bool := false
  test1 : Bool := false
  deriving DecidableEq, Repr

/-- A Polier link (R395). -/
structure Link where
  seq : Nat := 0
  retries : Nat := 0
  down : Bool := false
  deriving DecidableEq, Repr

/-- A stored class (R340): asid, code, compute-bound. -/
structure ClassEntry where
  asid : BitVec 16
  code : Word
  compute : Bool
  deriving DecidableEq, Repr

/-- One package. -/
structure Pkg where
  pcap : Nat := 2400
  thermalCap : Nat := 0
  classes : List ClassEntry := []
  /-- Records that dies are reserved for (R338). -/
  reserved : List Nat := []
  /-- The record that the dispatcher has chosen to place or restore (R337, R338). -/
  chosen : Option Nat := none
  /-- Duty cycles below 256 of units, in 1/256 (R414), by 2^24 x class + unit: the plates of a core, the joint array and
  the lane groups of a cell, the copy engine of a bay. -/
  duty : List (Nat × Nat) := []
  dutyAt : Nat := 0
  links : List (Nat × Link) := []
  measure : Vector (BitVec 512) 8 := Vector.replicate 8 0
  bootStopped : Bool := false
  lost : Bool := false
  /-- The cycle in which reset loaded its cycle count (R367). -/
  countAt : Nat := 0
  /-- The cycle from which the next timing exchange is due (R373). -/
  syncAt : Nat := 0
  /-- A launch has been placed since the reset: boot is over (R409). -/
  booted : Bool := false
  /-- The die field and asid of the aperture (R401). -/
  apDie : BitVec 10 := 0
  apAsid : BitVec 16 := 0
  /-- MSI-X vectors raised and not taken by the host (R403). -/
  msix : List Nat := []
  deriving DecidableEq, Repr

/-- A merge entry of the Polier switches (R398). -/
structure Merge where
  id : Nat
  addr : Word
  op : RedOp
  n : Nat
  /-- The merged REDs: context and request. -/
  parts : List (Nat × Nat)
  /-- A RED to a page not known to be unsealed: it is forwarded by itself (R399). -/
  alone : Bool
  /-- The cycle in which the entry was made (R398). -/
  since : Nat
  /-- The update has been performed; its acknowledgement carries the flags and the page's SEAL. -/
  sent : Option (BitVec 5 × Bool)
  deriving DecidableEq, Repr

/-- An SC announcement (R128, R366): window, core, context and request. -/
structure Announce where
  window : BitVec 60
  core : Nat
  ctx : Nat
  seq : Nat
  delivered : Bool
  deriving DecidableEq, Repr

/-- An answer to the host. -/
inductive HostMsg where
  /-- Data of a host read, or its failure (R401). -/
  | data (v : Word)
  | failed (cause sub : Byte)
  /-- A signed report of a package (R405): the register-file banks mapped out of each core, each asid's tenant, the key
  indices in use as die, index and tenant, the window descriptors, and the signature over its contents. -/
  | report (pkg : Nat) (nonce : BitVec 256) (measure : Vector (BitVec 512) 8) (caps : List (BitVec 16)) (mapOut : List (BitVec 5))
      (tenants : List (BitVec 16 × BitVec 16)) (keys : List (Nat × Nat × Nat)) (windows : Vector (Word × Word) 16) (time : Word)
      (signature : BitVec 912)
  /-- A die's ring, oldest first, with the oldest and newest SEQ (R413). -/
  | latent (die : Nat) (frozen : Bool) (oldest newest : Half) (nonce : BitVec 256) (events : List Event) (signature : BitVec 912)
  deriving DecidableEq, Repr

/-- A host access in progress, with the die and asid of the aperture at its issue: suspended by a fault record (R357), or
without a live path since a cycle (R396). -/
structure HostReq where
  acc : HostAcc
  die : BitVec 10
  asid : BitVec 16
  state : ReqState
  lostAt : Option Nat := none
  deriving DecidableEq, Repr

/-- The agenda's moves (log entry 1): an event, a bundle of the named context's core, or a cycle that passes while what
has no fixed time goes on waiting (R2, R27, R304). -/
inductive Move where
  | event (i : Instr)
  | turn (k : Nat)
  | pass
  deriving DecidableEq, Repr

/-- The machine. -/
structure State where
  /-- The package cycle count (R367). -/
  cycle : Nat
  /-- The context whose slot instruction `exec` runs, or last ran (log entry 1). -/
  cur : Nat
  /-- The agenda: moves that the step takes before any of its own (log entry 1). -/
  sched : List Move
  /-- The context as it stood before the bundle (R60), while its slots run. -/
  view : Option Ctx
  /-- Index of the next free value (log entry 13). -/
  freeCtr : Nat
  /-- Age of the next access, landing, chain or record. -/
  seq : Nat
  ctxs : List (Nat × Ctx)
  cores : List (Nat × CoreSt)
  banks : List (Nat × Bank)
  /-- Which party each bank's slots serve next (R298). -/
  turns : List (Nat × Turn)
  cells : List (Nat × Cell)
  queues : List (Nat × Queue)
  /-- Engines, by queue key / 16. -/
  engines : List (Nat × Engine)
  arcades : List ArcadeOp
  rounds : List Round
  barriers : List Barrier
  launches : List (Nat × Launch)
  dies : List (Nat × Die)
  pkgs : List (Nat × Pkg)
  qcbs : List (Nat × Qcb)
  /-- Packages of the domain (R394). -/
  domain : Nat
  /-- The switches' copy of the reduction windows (R397). -/
  windows : Vector (Word × Word) 16
  /-- Pages of reduction windows the switches know to be unsealed (R399): window, page. -/
  unsealed : List (Nat × Nat)
  merges : List Merge
  announces : List Announce
  grandmaster : Option Nat
  /-- The cycle in which the grandmaster was lost (R373). -/
  masterLostAt : Nat
  /-- What each core's last self-test reported corrected errors at (R409): row keys. -/
  corrected : List (Nat × List Nat)
  hostOut : List HostMsg
  hostReqs : List HostReq
  /-- Bank bytes, keyed bank x 8,192 + offset. -/
  bankMem : List Host.Cell
  /-- Own HBM bytes, keyed die x 2^52 + physical address. -/
  hbm : List Host.Cell
  /-- 16-byte blocks of HBM that stand encrypted, by key / 16, with their keys (R305). The bytes in hbm are as that key
  reads them. -/
  seals : List (Nat × BitVec 512)
  hostMem : List Host.Cell
  /-- Poisoned 8-byte units of banks and 64-byte granules of HBM, by key / 8 and key / 64 (R408). -/
  bankPoison : List Nat
  hbmPoison : List Nat
  /-- Accesses of engines, operations and fetches that find no live path (R396): agent, address, and since when. -/
  pathless : List (Nat × Word × Nat)
  deriving DecidableEq, Repr

/-- The machine right after cold reset, before any launch (log entries 2 to 6). -/
def State.reset : State where
  cycle := 0
  cur := 0
  sched := []
  view := none
  freeCtr := 0
  seq := 0
  ctxs := []
  cores := []
  banks := []
  turns := []
  cells := []
  queues := []
  engines := []
  arcades := []
  rounds := []
  barriers := []
  launches := []
  dies := []
  pkgs := []
  qcbs := []
  domain := 1
  windows := Vector.replicate 16 (0, 0)
  unsealed := []
  merges := []
  announces := []
  grandmaster := some 0
  masterLostAt := 0
  corrected := []
  hostOut := []
  hostReqs := []
  bankMem := []
  hbm := []
  seals := []
  hostMem := []
  bankPoison := []
  hbmPoison := []
  pathless := []

end Sys2Proof.Machine
end

