-- ==== Sys2Proof/Machine/Bits.lean ====
section
/-! DEFINITION. Bit fields, extensions, lanes and byte order (R4, R7, R81). -/

namespace Sys2Proof.Machine

/-- x[hi:lo] of a number (R7). -/
def field (x hi lo : Nat) : Nat := (x / 2 ^ lo) % 2 ^ (hi + 1 - lo)

/-- x[hi:lo] of a word, as a number. -/
def wf (x : Word) (hi lo : Nat) : Nat := field x.toNat hi lo

/-- The low n bits of x, read as a two's-complement integer. -/
def signed (n x : Nat) : Int :=
  let y := x % 2 ^ n
  if 2 * y < 2 ^ n then (y : Int) else (y : Int) - (2 ^ n : Nat)

/-- An integer modulo 2^n, as a number. -/
def wrap (n : Nat) (x : Int) : Nat := (x % ((2 ^ n : Nat) : Int)).toNat

/-- An integer as a 64-bit word. -/
def wordOf (x : Int) : Word := BitVec.ofInt 64 x

/-- Sign extension of the low n bits to 64. -/
def sext (n x : Nat) : Word := wordOf (signed n x)

/-- Sign extension of the low 32 bits (R81). -/
def sext32 (x : Word) : Word := (x.truncate 32).signExtend 64

/-- Zero extension of the low n bits to 64. -/
def zext (n x : Nat) : Word := BitVec.ofNat 64 (x % 2 ^ n)

/-- Lane k, w bits wide, of a row (R4). -/
def lane (w : Nat) (r : RowData) (k : Nat) : Nat := (r >>> (w * k)).toNat % 2 ^ w

/-- The row whose lane k is f k, for k below n (R4). -/
def ofLanes (w : Nat) : Nat → (Nat → Nat) → Nat
  | 0, _ => 0
  | n + 1, f => ofLanes w n f + (f n % 2 ^ w) * 2 ^ (w * n)

/-- A row from its lanes. -/
def rowOf (w n : Nat) (f : Nat → Nat) : RowData := BitVec.ofNat 1024 (ofLanes w n f)

/-- SatS(v, n) (R34). -/
def satS (v : Int) (n : Nat) : Int := min (max v (-(2 ^ (n - 1) : Nat))) ((2 ^ (n - 1) : Nat) - 1)

/-- SatU(v, n) (R34). -/
def satU (v : Int) (n : Nat) : Int := min (max v 0) ((2 ^ n : Nat) - 1)

/-- Saturating increment of a 32-bit counter (R22). -/
def satInc (x : Half) (n : Nat) : Half := BitVec.ofNat 32 (min (x.toNat + n) 0xFFFFFFFF)

/-- The numbers 0 to n - 1. -/
def upTo (n : Nat) : List Nat := List.range n

/-- Bytes in an access of a size (R115). -/
def sizeBytes : Size → Nat
  | .b => 1 | .h => 2 | .w => 4 | .d => 8

/-- The code of a barrier domain (R134). -/
def domCode : Domain → Nat
  | .core => 0 | .cell => 1 | .bay => 2 | .court => 3 | .pav => 4 | .die => 5 | .pkg => 6 | .sys => 7

/-- The place of a domain among eight. -/
def domFin : Domain → Fin 8
  | .core => 0 | .cell => 1 | .bay => 2 | .court => 3 | .pav => 4 | .die => 5 | .pkg => 6 | .sys => 7

/-- Cores in one instance of a domain (R3); 0 stands for the whole domain. -/
def domCores : Domain → Nat
  | .core => 1 | .cell => 4 | .bay => 16 | .court => 64 | .pav => 256 | .die => 1024 | .pkg => 4096 | .sys => 0

/-- The instance of a domain that holds a core. -/
def domInst (d : Domain) (core : Nat) : Nat := if domCores d = 0 then 0 else core / domCores d

/-- Cycles from the last contribution of a domain's round to its result (R368). -/
def treeLatency : Domain → Nat
  | .core => 4 | .cell => 8 | .bay => 12 | .court => 20 | .pav => 30 | .die => 60 | .pkg => 150 | .sys => 6000

end Sys2Proof.Machine
end

