-- ==== Sys2Proof/Machine/Ops.lean ====
section
/-! DEFINITION. Named operations over the state: tables, bytes, registers, landings, the latent record, taking
a trap (R277) and returning from it (R287), kills and parks. -/

namespace Sys2Proof.Machine

/-! ## Bytes -/

/-- One byte of a memory; an unlisted byte reads 0 (log entry 5). -/
def readByte (m : List Host.Cell) (a : Nat) : Byte := look 0 m a

/-- One byte written, in the canonical form: rising addresses, no zero listed. -/
def writeByte (m : List Host.Cell) (a : Nat) (v : Byte) : List Host.Cell := if v = 0 then drop a m else put a v m

/-- n bytes from address a, little-endian (R4). -/
def readN (m : List Host.Cell) (a : Nat) : Nat → Nat
  | 0 => 0
  | n + 1 => (readByte m a).toNat + 256 * readN m (a + 1) n

/-- The low n bytes of v written at address a, little-endian (R4). -/
def writeN (m : List Host.Cell) (a : Nat) : Nat → Nat → List Host.Cell
  | 0, _ => m
  | n + 1, v => writeN (writeByte m a (BitVec.ofNat 8 (v % 256))) (a + 1) n (v / 256)

/-- n bytes from address a set to zero. -/
def eraseN (m : List Host.Cell) (a n : Nat) : List Host.Cell := m.filter fun p => !(a ≤ p.1 && p.1 < a + n)

/-- The canonical form of a memory: addresses strictly rising, no entry equal to what an unlisted one reads as. -/
def Memory.wf : List Host.Cell → Bool
  | [] => true
  | [(_, v)] => v != 0
  | (a, v) :: (b, w) :: t => v != 0 && decide (a < b) && Memory.wf ((b, w) :: t)

/-! ## Tables of the state -/

/-- The context of a key. -/
def State.ctx (s : State) (k : Nat) : Ctx := look {} s.ctxs k
/-- The state with a context changed. -/
def State.modCtx (s : State) (k : Nat) (f : Ctx → Ctx) : State := { s with ctxs := put k (f (s.ctx k)) s.ctxs }
/-- The core of a coreid. -/
def State.core (s : State) (c : Nat) : CoreSt := look {} s.cores c
/-- The state with a core changed. -/
def State.modCore (s : State) (c : Nat) (f : CoreSt → CoreSt) : State := { s with cores := put c (f (s.core c)) s.cores }
/-- What stands beside a bank. -/
def State.bank (s : State) (b : Nat) : Bank := look {} s.banks b
/-- The state with a bank's record changed. -/
def State.modBank (s : State) (b : Nat) (f : Bank → Bank) : State := { s with banks := put b (f (s.bank b)) s.banks }
/-- A bank's slots. -/
def State.turn (s : State) (b : Nat) : Turn := look {} s.turns b
/-- The state with a bank's slots changed. -/
def State.modTurn (s : State) (b : Nat) (f : Turn → Turn) : State := { s with turns := put b (f (s.turn b)) s.turns }
/-- A cell. -/
def State.cell (s : State) (c : Nat) : Cell := look {} s.cells c
/-- The state with a cell changed. -/
def State.modCell (s : State) (c : Nat) (f : Cell → Cell) : State := { s with cells := put c (f (s.cell c)) s.cells }
/-- An engine queue. -/
def State.queue (s : State) (q : Nat) : Queue := look {} s.queues q
/-- The state with a queue changed. -/
def State.modQueue (s : State) (q : Nat) (f : Queue → Queue) : State := { s with queues := put q (f (s.queue q)) s.queues }
/-- An engine. -/
def State.engine (s : State) (e : Nat) : Engine := look {} s.engines e
/-- The state with an engine changed. -/
def State.modEngine (s : State) (e : Nat) (f : Engine → Engine) : State := { s with engines := put e (f (s.engine e)) s.engines }
/-- A die. -/
def State.die (s : State) (d : Nat) : Die := look {} s.dies d
/-- The state with a die changed. -/
def State.modDie (s : State) (d : Nat) (f : Die → Die) : State := { s with dies := put d (f (s.die d)) s.dies }
/-- A package. -/
def State.pkg (s : State) (p : Nat) : Pkg := look {} s.pkgs p
/-- The state with a package changed. -/
def State.modPkg (s : State) (p : Nat) (f : Pkg → Pkg) : State := { s with pkgs := put p (f (s.pkg p)) s.pkgs }
/-- A host work queue, keyed 4,096 x package + queue. -/
def State.qcb (s : State) (q : Nat) : Qcb := look {} s.qcbs q
/-- The state with a host work queue changed. -/
def State.modQcb (s : State) (q : Nat) (f : Qcb → Qcb) : State := { s with qcbs := put q (f (s.qcb q)) s.qcbs }
/-- The state with a launch changed. -/
def State.modLaunch (s : State) (l : Nat) (f : Launch → Launch) : State :=
  match find? s.launches l with
  | some x => { s with launches := put l (f x) s.launches }
  | none => s

/-- coreid of a context key. -/
def coreOf (k : Nat) : Nat := k / 8
/-- ctxid of a context key: 0 to 3 general, 4 handler (R19). -/
def ctxId (k : Nat) : Nat := k % 8
/-- The handler context of a core. -/
def handlerKey (core : Nat) : Nat := core * 8 + 4
/-- The die field of a core (R25). -/
def dieOf (core : Nat) : Nat := core / 1024
/-- The package of a core. -/
def pkgOf (core : Nat) : Nat := core / 4096

/-- The duty of a unit of a class (R414): 0 the plates of a core, 1 the joint array of a cell, 2 its lane groups, 3 the copy
engine of a bay. -/
def dutyOf (x : Pkg) (cls unit : Nat) : Nat := look 256 x.duty (2 ^ 24 * cls + unit)

/-- A unit may start work in this cycle (R414): at duty d/256 in d of every 256 cycles. -/
def mayStart (s : State) (pkg cls unit : Nat) : Bool := s.cycle % 256 < dutyOf (s.pkg pkg) cls unit
/-- The core that a local-window address names in the pavilion of `core` (R25). -/
def windowCore (core : Nat) (a : Word) : Nat := core / 256 * 256 + wf a 24 17
/-- The bank key that a local-window address names. -/
def windowBank (core : Nat) (a : Word) : Nat := windowCore core a * 16 + wf a 16 13
/-- The local-window address of a bank's first byte. -/
def bankBase (bank : Nat) : Word := BitVec.ofNat 64 (0x7E * 2 ^ 57 + (bank / 16 % 256) * 2 ^ 17 + (bank % 16) * 2 ^ 13)

/-- The part of a correction that a dial has taken up, in 1/30,000 ns: no more than 100 parts per million (R371). -/
def slewed (d : Die) (cycle : Nat) : Int :=
  let n : Int := (min d.slew.natAbs (cycle - d.slewAt) : Nat)
  if d.slew < 0 then -n else n

/-- A die's dial in 1/30,000 ns: its base, the cycles, a third of a ns each, and its correction (R371, R373; log entry 18). -/
def dialFine (s : State) (d : Nat) : Int := (s.die d).dialBase + (10000 * s.cycle : Nat) + slewed (s.die d) s.cycle

/-- Dial time of a die in ns (R371). -/
def dial (s : State) (d : Nat) : Nat := wrap 64 (dialFine s d / 30000)

/-- The cycle count of a package (R367): one value for its dies, which run in lockstep. -/
def countOf (s : State) (pkg : Nat) : Word := BitVec.ofNat 64 (s.cycle - (s.pkg pkg).countAt)

/-- The window that a package is in (R366). -/
def windowNow (s : State) (pkg : Nat) : BitVec 60 := (countOf s pkg).extractLsb' 4 60

/-- The dial of a context's die. -/
def dialOf (s : State) (k : Nat) : Nat := dial s (dieOf (coreOf k))

/-! ## Registers -/

/-- The context whose registers the running slot reads: as before the bundle (R60), or as captured (R243). -/
def me (s : State) : Ctx := s.view.getD (s.ctx s.cur)

/-- sn of a context; 0 for s0 (R11, R31). -/
def Ctx.rd (c : Ctx) (r : SReg) : Word := if r = 0 then 0 else c.s.get r.toFin

/-- cn of a context; 1 for c0 (R11, R31). -/
def Ctx.rdC (c : Ctx) (r : CReg) : Bool := r == 0 || c.c.getLsbD r.toNat

/-- sn is pending on an operation that has issued; s0 is never pending (R27). The destinations of closures in the
tray are pending too: `Ctx.pendingAll` of Operands.lean adds them. -/
def Ctx.pending (c : Ctx) (r : SReg) : Bool := r != 0 && c.pend.getLsbD r.toNat

/-- ReadS (R31), as the running slot reads it. -/
def rdS (s : State) (r : SReg) : Word := (me s).rd r

/-- ReadC (R31), as the running slot reads it. -/
def rdC (s : State) (r : CReg) : Bool := (me s).rdC r

/-- Bit i of a bit vector set to b. -/
def setBit {n : Nat} (v : BitVec n) (i : Nat) (b : Bool) : BitVec n :=
  if b then v ||| BitVec.ofNat n (2 ^ i) else v &&& ~~~ BitVec.ofNat n (2 ^ i)

/-- sn written in a context; discarded for s0 (R11, R31). -/
def Ctx.setS (c : Ctx) (r : SReg) (v : Word) : Ctx := if r = 0 then c else { c with s := c.s.set r.toNat v r.isLt }

/-- cn written in a context; discarded for c0 (R11, R31). -/
def Ctx.setC (c : Ctx) (r : CReg) (b : Bool) : Ctx := if r = 0 then c else { c with c := setBit c.c r.toNat b, badC := setBit c.badC r.toNat false }

/-- The pending bit of sn set or cleared (R27). -/
def Ctx.setPend (c : Ctx) (r : SReg) (b : Bool) : Ctx := if r = 0 then c else { c with pend := setBit c.pend r.toNat b }

/-- WriteS with latency 1 in a context (R62): an older fixed result that lands no later is overtaken (R64), and
poison is written over. -/
def wrCtx (cycle : Nat) (r : SReg) (v : Word) (c : Ctx) : Ctx :=
  { c.setS r v with
    fixed := c.fixed.filter fun f => ¬(f.reg = r ∧ f.due ≤ cycle + 1),
    poison := drop r.toNat c.poison }

/-- WriteC by the running context (R11). -/
def wrC (r : CReg) (b : Bool) (s : State) : State := s.modCtx s.cur (·.setC r b)

/-- A fixed-latency result of latency n by the running context (R62); a closure's keeps its register pending (R236). -/
def wrFixed (n : Nat) (r : SReg) (v : Word) (s : State) : State :=
  s.modCtx s.cur fun c => if r = 0 then c else
    { c.setPend r (c.running.isSome || c.pend.getLsbD r.toNat) with
      fixed := c.fixed ++ [{ reg := r, value := v, due := s.cycle + n, pends := c.running.isSome }] }

/-- WriteS with latency 1 by the running context; a closure's result lands in the next cycle (R236, R240). -/
def wrS (r : SReg) (v : Word) (s : State) : State :=
  if (s.ctx s.cur).running.isSome then wrFixed 1 r v s else s.modCtx s.cur (wrCtx s.cycle r v)

/-- SetPending on scalar registers of a context (R31). -/
def setPending (k : Nat) (rs : List SReg) (s : State) : State := s.modCtx k fun c => rs.foldl (fun c r => c.setPend r true) c

/-- An event counter increased, saturating (R22). -/
def countEv (k i n : Nat) (s : State) : State :=
  s.modCtx k fun c => if h : i < 16 then { c with evc := c.evc.set i (satInc (c.evc.get ⟨i, h⟩) n) } else c

/-- The counters of the flags raised by one instruction: each by 1 (R40). -/
def countFlags (k : Nat) (fl : BitVec 5) (s : State) : State :=
  (upTo 5).foldl (fun s i => if fl.getLsbD i then countEv k i 1 s else s) s

/-- Flags raised in a context: sticky in fflags, each counted once (R40). -/
def raise (k : Nat) (fl : BitVec 5) (s : State) : State :=
  countFlags k fl (s.modCtx k fun c => { c with fflags := c.fflags ||| fl })

/-- Operations counted for a context's launch (R340). -/
def countOps (k n : Nat) (s : State) : State :=
  match (s.ctx k).launch with
  | some l => s.modLaunch l fun x => { x with ops := x.ops + n }
  | none => s

/-- Global-memory bytes counted for a context's launch (R340). -/
def countBytes (k n : Nat) (s : State) : State :=
  match (s.ctx k).launch with
  | some l => s.modLaunch l fun x => { x with bytes := x.bytes + n }
  | none => s

/-- The causes of R278. -/
def causeIllegal : Byte := 0x01
def causeOperand : Byte := 0x02
def causeStall : Byte := 0x03
def causePriv : Byte := 0x04
def causeAlign : Byte := 0x05
def causeStraddle : Byte := 0x06
def causeFaultR : Byte := 0x07
def causeFaultW : Byte := 0x08
def causeFaultX : Byte := 0x09
def causeProt : Byte := 0x0A
def causeStruct : Byte := 0x0B
def causeType : Byte := 0x0C
def causeRefix : Byte := 0x0D
def causeTrayFull : Byte := 0x0E
def causeDeferred : Byte := 0x0F
def causeGangBroken : Byte := 0x10
def causeLoop : Byte := 0x11
def causeTimeout : Byte := 0x12
def causeEcc : Byte := 0x13
def causeSpillOvf : Byte := 0x14
def causeKill : Byte := 0x15
def causeTrap : Byte := 0x20
def causeBreak : Byte := 0x21

/-! ## Tiles -/

/-- The key of physical tile t, row r; tile 16 is the delivery tile (R15). -/
def rowKey (t r : Nat) : Nat := t * 16 + r

/-- The tile of its core that a context names (R14, R15): none outside its range or at or above NTILE (R17). A tile group of
the handler context may end in t15 (log entry 85). -/
def tileOf (s : State) (k : Nat) (c : Ctx) (t : Nat) : Option Nat :=
  if ctxId k = 4 ∧ t = 15 then some 16
  else if c.tbase.toNat ≤ t ∧ t < c.tbase.toNat + c.tcount.toNat ∧ t < (s.core (coreOf k)).ntile.toNat then some t
  else none

/-- A row of a core by its key. -/
def CoreSt.row (c : CoreSt) (key : Nat) : Row := look {} c.rows key

/-- What a reader of a row meets: poison of its own, or of one of its units (R30, R408). -/
def Row.poisoned (r : Row) : Option Poison := r.poison <|> if r.bad = 0 then none else some ⟨causeEcc, 0⟩

/-- A row of a core changed. -/
def modRow (core key : Nat) (f : Row → Row) (s : State) : State :=
  s.modCore core fun c => { c with rows := put key (f (c.row key)) c.rows }

/-- Rows made pending (R27). -/
def pendRows (core : Nat) (keys : List Nat) (s : State) : State :=
  keys.foldl (fun s key => modRow core key (fun r => { r with pend := r.pend + 1 }) s) s

/-! ## Bank bytes and registries -/

/-- A range of units is poisoned when one of them is: units of u bytes that n bytes from a touch. -/
def unitsOf (u a n : Nat) : List Nat := (upTo ((a + n - 1) / u - a / u + 1)).map (· + a / u)

/-- Units of u bytes that n bytes from a cover whole: a write of them clears their poison (R408). -/
def wholeUnits (u a n : Nat) : List Nat := (unitsOf u a n).filter fun x => a ≤ u * x && u * x + u ≤ a + n

/-- n bytes of bank space, by key 8,192 x bank + offset. -/
def bankRead (s : State) (key n : Nat) : Nat := readN s.bankMem key n

/-- Whether n bytes of bank space touch a poisoned unit (R408). -/
def bankBad (s : State) (key n : Nat) : Bool := n != 0 && (unitsOf 8 key n).any fun u => s.bankPoison.contains u

/-- n bytes of bank space written; whole units lose their poison (R408). -/
def bankWrite (key n v : Nat) (s : State) : State :=
  { s with
    bankMem := writeN s.bankMem key n v,
    bankPoison := if s.bankPoison = [] then [] else s.bankPoison.filter fun u => !(wholeUnits 8 key n).contains u }

/-- The key of a byte of a bank. -/
def bkey (b off : Nat) : Nat := b * 8192 + off

/-- A descriptor's KIND (R143). -/
def kindOf (d : Word) : Nat := wf d 2 0
/-- The descriptor of a bank. -/
def descOf (s : State) (b : Nat) : Word := (s.bank b).desc
/-- Bank b is the odd bank of an EXCH pair (R154). -/
def oddOfPair (s : State) (b : Nat) : Bool := b % 2 == 1 && kindOf (descOf s (b - 1)) == 6

/-- The header's WMASK follows the registry's occupancy at a bank with an image (R145): n entries stand in its low n bits
(log entry 86). -/
def syncMask (b : Nat) (s : State) : State :=
  let d := descOf s b
  if kindOf d = 0 ∨ kindOf d = 6 ∨ oddOfPair s b then s
  else bankWrite (bkey b 14) 2 (2 ^ min (s.bank b).waiters.length 16 - 1) s

/-- The registrations that f picks are removed wherever they stand (R126). -/
def unregister (f : Registered → Bool) (s : State) : State :=
  let s : State := { s with dies := s.dies.map fun (p : Nat × Die) => (p.1, { p.2 with waiters := p.2.waiters.filter fun r => !f r }) }
  s.banks.foldl (fun s p => if (s.bank p.1).waiters.any f then
    syncMask p.1 (s.modBank p.1 fun x => { x with waiters := x.waiters.filter fun r => !f r }) else s) s

/-- A registration of a context. -/
def Registered.of (k : Nat) (r : Registered) : Bool := match r.who with | .ctx j _ => j == k | _ => false

/-- A registration of one of a context's requests: of a launch that was pre-empted on that core it is not (R126). -/
def Registered.mine (k : Nat) (c : Ctx) (r : Registered) : Bool :=
  match r.who with | .ctx j q => j == k && c.reqs.any (·.seq == q) | _ => false

/-! ## Ages, landings, the latent record -/

/-- A landing put on its way to a context (R27). -/
def queueLanding (k : Nat) (l : Landing) (s : State) : State :=
  { s.modCtx k fun c => { c with landings := c.landings ++ [{ l with seq := s.seq }] } with seq := s.seq + 1 }

/-- A landing with nothing in it. -/
def Landing.empty : Landing :=
  { seq := 0, due := 0, regs := [], clears := [], rows := [], flags := 0, sats := 0, poison := none, nred := none, row := false }

/-- The order of the events of one cycle: by UNIT, then INST (R411); a freeze is the last (R412). -/
def Event.rank (e : Event) : Nat := if e.code = 0x12 then 2 ^ 16 else e.unit.toNat * 2 ^ 12 + e.inst.toNat

/-- An event enters a ring in cycle `now` (R411): it takes its place among those of the cycle, which take their SEQ again. -/
def noteEvent (now : Nat) (e : Event) (x : Die) : Die :=
  let n := if x.latentAt = now then x.latentNow else 0
  let later (y : Event) : Bool := e.rank < y.rank
  let l := (x.latent.take n).takeWhile later ++ e :: (x.latent.take n).dropWhile later
  let numbered := (l.zip (upTo l.length)).map fun p => { p.1 with seq := x.seq - BitVec.ofNat 32 p.2 }
  { x with latent := (numbered ++ x.latent.drop n).take 4096, seq := x.seq + 1, latentAt := now, latentNow := min l.length 4096 }

/-- An event of the latent record (R411); none enters a frozen ring (R412). -/
def latent (d : Nat) (code unit inst : Nat) (arg0 arg1 : Word) (s : State) : State :=
  if (s.die d).frozen then s else
  s.modDie d (noteEvent s.cycle
    ⟨BitVec.ofNat 64 (dial s d), (s.die d).seq, BitVec.ofNat 16 code, BitVec.ofNat 4 unit, BitVec.ofNat 12 inst, arg0, arg1⟩)

/-- An event of a core. -/
def latentCore (core code : Nat) (arg0 arg1 : Word) (s : State) : State := latent (dieOf core) code 0 (core % 1024) arg0 arg1 s

/-- An MSI-X vector of a die raised (R403). -/
def msix (d v : Nat) (s : State) : State := s.modPkg (d / 4) fun p => { p with msix := p.msix ++ [4 * (d % 4) + v] }

/-! ## Parking -/

/-- A context is STOPPED at a trap (R9) that its handler serves: it issues the handler's bundles, as R293 says. -/
def Ctx.served (c : Ctx) : Bool := c.status == .stopped && c.h && c.fetchStop.isNone

/-- The context issues when its core serves it. -/
def Ctx.issues (c : Ctx) : Bool := c.status == .running || c.served

/-- The context is able to issue (R9, R293). -/
def Ctx.able (c : Ctx) : Bool := c.status == .ready || c.issues

/-- The status of a context that is able to issue and does not hold the core: READY, or STOPPED at its trap (R9). -/
def Ctx.rested (c : Ctx) : Status := if c.h then .stopped else .ready

/-- The core is given up by the context that holds it (R10). -/
def giveUp (k : Nat) (s : State) : State :=
  if (s.core (coreOf k)).running = some (ctxId k) then
    (s.modCore (coreOf k) fun c => { c with running := none, ring := ctxId k }).modCtx k fun c =>
      if c.status = .running then { c with status := .ready } else c
  else s

/-- A context belongs to a team (R290): it follows a leader, has bundles of one to issue, or leads. -/
def inTeam (s : State) (k : Nat) : Bool := (s.ctx k).leader.isSome || !(s.ctx k).backlog.isEmpty || s.ctxs.any fun p => p.2.leader == some k

/-- The core is given up, but by no member of a team (R291). -/
def yieldCore (k : Nat) (s : State) : State := if inTeam s k then s else giveUp k s

/-- A context parks (R9) and gives up the core. -/
def park (k : Nat) (p : Park) (s : State) : State :=
  yieldCore k (s.modCtx k fun c => { c with status := .parked, park := p, parkAt := dialOf s k, parkPc := c.pc })

/-- A parked context becomes READY, or is STOPPED at its trap as before (R9). -/
def unpark (k : Nat) (s : State) : State :=
  s.modCtx k fun c => if c.status = .parked then { c with status := c.rested, park := .none } else c

/-- The launch of a context is being pre-empted (R343): it starts nothing new. -/
def launchStops (s : State) (k : Nat) : Bool :=
  match (s.ctx k).launch.bind (find? s.launches) with | some l => l.stopping | none => false

/-! ## Kills and traps -/

/-- A trap of a cause with a subcause and an address. -/
def trapOf (cause : Byte) (sub : Nat) (addr : Word) : TrapInfo := { cause := cause, sub := BitVec.ofNat 8 sub, addr := addr }

/-- Departure from every barrier and combining-tree group of the launch (R136), in cycle `now`. -/
def departAll (now : Nat) (c : Ctx) : Ctx :=
  { c with bars := c.bars.map fun b => if b.departed then b else { b with departed := true, since := now }, treeLeft := 0xFF }

/-- A context's weight sent to its launch's root (R140, R332). -/
def returnWeight (k : Nat) (units : Int) (s : State) : State :=
  match (s.ctx k).launch with
  | some l => s.modLaunch l fun x => { x with returns := x.returns ++ [units] }
  | none => s

/-- A quarter's words become undefined (R198). -/
def freeQuarter (core : Nat) (s : State) : State :=
  { s.modCore core fun c => { c with quarter := { c.quarter with holder := none, leaving := false, acc := [], free := some s.freeCtr } } with
    freeCtr := s.freeCtr + 4096 }

/-- A core takes part in an operation. -/
def MatOp.on (core : Nat) (o : MatOp) : Bool := o.members.any fun a => a.core == core

/-- The joint-array operation in flight on a core's quarter. -/
def opAt (s : State) (core : Nat) : Option MatOp := (s.cell (core / 4)).ops.find? (·.on core)

/-- A joint-array operation is in flight on a core's quarter. -/
def opOn (s : State) (core : Nat) : Bool := (opAt s core).isSome

/-- The quarter released by its holder: its words are undefined from then on, or from the end of the operation that
runs on it, until which it keeps its holder (R198, R206). -/
def releaseQuarter (k : Nat) (s : State) : State :=
  if (s.core (coreOf k)).quarter.holder = some k then
    if opOn s (coreOf k) then s.modCore (coreOf k) fun c => { c with quarter := { c.quarter with leaving := true } }
    else freeQuarter (coreOf k) s
  else s

/-- The core of a context is departed from its gang (R206), when the context waits at or holds its quarter. -/
def departs (k : Nat) (s : State) : Bool :=
  (s.core (coreOf k)).quarter.holder == some k || (s.ctx k).park == .gang

/-- A context's chains stop after their current items and its pending tokens are discarded (R274). -/
def stopChains (k : Nat) (s : State) : State :=
  { s with queues := s.queues.map fun (p : Nat × Queue) =>
    (p.1, { p.2 with chains := p.2.chains.map fun ch =>
      if ch.owner = k then { ch with cancel := true, tok := 0, tok2 := 0 } else ch }) }

/-- A context's queued moves are lost; the trigger at the head still completes (R233). A reference pass is no move. -/
def dropMoves (k : Nat) (s : State) : State :=
  s.modCore (coreOf k) fun x => { x with ports := match x.trigger, x.ports with
    | none, l => l.filter (·.ctx ≠ k)
    | some (.reference _, _), l => l.filter (·.ctx ≠ k)
    | some _, m :: rest => m :: rest.filter (·.ctx ≠ k)
    | some _, [] => [] }

/-- An arrival made by a context's own GANG. -/
def arrivedBy (k : Nat) (a : Arrival) : Bool :=
  match a.by_ with | .ctx j _ => j == k | .queue _ => false

/-- An arrival came to nothing: the quarter's holder is as it was before it (R198, R203). -/
def unclaim (a : Arrival) (s : State) : State :=
  if a.mma then s.modCore a.core fun c => { c with quarter := { c.quarter with holder := a.prev } } else s

/-- The arrivals of a cell that f picks are withdrawn. -/
def unarrive (cell : Nat) (f : Arrival → Bool) (s : State) : State :=
  let l := (s.cell cell).arrivals.filter f
  if l.isEmpty then s else
  l.foldl (fun s a => unclaim a s) (s.modCell cell fun x => { x with arrivals := x.arrivals.filter fun a => !f a })

/-- The followers of a context leave its team (R290). -/
def dropFollowers (k : Nat) (s : State) : State :=
  { s with ctxs := s.ctxs.map fun (p : Nat × Ctx) =>
    if p.2.leader = some k then (p.1, { p.2 with leader := none, lastLeader := some k }) else p }

/-- A closure taken from the tray but not yet run stands in the tray again, when a trap comes from elsewhere. -/
def unrun (k : Nat) (s : State) : State :=
  s.modCtx k fun c => match c.running with
    | some cl => { c with running := none, tray := cl :: c.tray }
    | none => c

/-- A kill but for the breaking of the gang (R281): chains stop, the tray and tokens are discarded, the weight is returned. -/
def killBody (cause sub : Byte) (k : Nat) (s : State) : State :=
  let c := s.ctx k
  let s := returnWeight k c.wgt.toNat s
  let s := releaseQuarter k (unarrive (coreOf k / 4) (arrivedBy k) s)
  let s := unregister (·.mine k c) s
  let s := stopChains k s
  let s := dropFollowers k (dropMoves k s)
  let s := s.modCtx k fun c => { departAll s.cycle c with
    status := .idle, park := .none, lost := c.lost ++ c.tray ++ c.running.toList, tray := [], running := none, stop := none, wgt := 0, left := .killed, h := false, leader := none, backlog := [], exiting := false, gang := none,
    fetchStop := none, fetchFail := none, redo := none
    reqs := c.reqs.filter fun r => match r.state with | .suspended .. => false | .registered => false | _ => true }
  let s := giveUp k s
  let s := match c.launch with
    | some l => s.modLaunch l fun x => { x with
        killed := x.killed + 1, killCause := x.killCause <|> some (cause, sub), killedAt := if x.killCause.isNone then s.cycle else x.killedAt }
    | none => s
  latentCore (coreOf k) 0x02 (cause.zeroExtend 64) c.xpc s

/-- A park that stands once the slots of its bundle are done (R125, R135, R270, R288, R290, R292). -/
def Park.done : Park → Bool
  | .barPhase .. | .team .. | .waitw _ | .waitt _ | .wfi _ | .rendez _ => true
  | _ => false

/-- The PC that a trap of a context records: its parked bundle's while it is parked. -/
def trapPc (c : Ctx) : Word := if c.status = .parked then c.parkPc else c.pc

/-- EXIT (R323). -/
def exitAddr : Word := BitVec.ofNat 64 (0xFE * 2 ^ 56)

/-- The stop PC of a DEFERRED trap (R245): the bundle that the context would issue next, or EXIT once it has gone there. -/
def stopPc (c : Ctx) : Word := if c.exiting then exitAddr else trapPc c

/-- What a trap leaves of a park whose bundle's slots are done: the bundle, issued again, only waits (log entry 20). -/
def redoOf (c : Ctx) : Option (Word × Word × Park) :=
  if c.status = .parked ∧ c.park.done then some (c.parkPc, c.pc, c.park) else c.redo

/-- The first cycle at which no fixed-latency result of a context is outstanding (R65). -/
def fixedDone (c : Ctx) : Nat := c.fixed.foldl (fun m f => max m f.due) 0

/-- Trap entry (R277) of a context whose H is 0, at supervisor level from stvec; recorded in the latent record (R411). The
context is STOPPED at the trap until ERET (R9) and gives up its core, for which its handler competes (R10, R293; log entry
84). -/
def enterTrap (t : TrapInfo) (k : Nat) (s : State) : State :=
  let c := s.ctx k
  let core := coreOf k
  -- the trap that reports a failed access consumes the failure (R280)
  let failure := if c.failure = some t then none else c.failure
  let (t, pc) := match c.running with
    | some cl => ({ t with cause := causeDeferred, sub := t.cause }, cl.pc)
    | none => (t, trapPc c)
  -- a wait at the gang barrier is withdrawn: ERET issues the bundle again (R206, R293)
  let s := if c.park = .gang then unarrive (core / 4) (arrivedBy k) s else s
  let s := s.modCtx k fun c => { c with
    redo := redoOf c, gang := c.gang.filter (·.formed), nextIssue := max c.nextIssue (fixedDone c),
    xcause := t.cause, xsub := t.sub, xaddr := t.addr, xpc := pc, xstat := t.stat.getD c.xstat,
    h := true, mode := c.mode ||| 0x40, pc := (s.core core).stvec, npc := (s.core core).stvec, taken := true,
    stop := if c.running.isSome then some (stopPc c) else c.stop, exiting := false,
    tray := match c.running with | some cl => { cl with faulted := true } :: c.tray | none => c.tray,
    running := none, failure := failure,
    after := none, leader := none, lastLeader := c.leader <|> c.lastLeader, backlog := [],
    status := .stopped, park := .none }
  let s := yieldCore k s
  let s := if t.cause = causeTrayFull then countEv k 13 1 s else s
  let s := if t.cause = causeTimeout then
    latentCore core 0x05 t.addr (match c.launch.bind (find? s.launches) with | some l => l.addr | none => 0) s else s
  latentCore core 0x01 ((t.cause.zeroExtend 64) ||| (t.sub.zeroExtend 64 <<< 8) ||| BitVec.ofNat 64 (ctxId k * 2 ^ 16)) pc s

/-- Cores of a cell whose gmask names a departed core remember it until gmask is written (R206). The core itself does not (log
entry 107). -/
def markBroken (cell : Nat) (bits : BitVec 4) (s : State) : State :=
  (upTo 4).foldl (fun s i =>
    if (s.core (4 * cell + i)).gmask &&& bits ≠ 0 ∧ bits.getLsbD i = false then
      s.modCore (4 * cell + i) fun c => { c with broken := c.broken ||| bits }
    else s) s

/-- The gang of a departed core broken (R206): every member waiting for it traps GANGBROKEN; a member that handles a
trap is killed (R277), which breaks its own gang in turn. -/
def breakGang : Nat → Nat → State → State
  | 0, _, s => s
  | fuel + 1, core, s =>
    let bits : BitVec 4 := BitVec.ofNat 4 (2 ^ (core % 4))
    let s := markBroken (core / 4) bits s
    let hit : List Arrival := (s.cell (core / 4)).arrivals.filter fun a => a.gmask &&& bits ≠ 0 ∧ a.core ≠ core
    let s := unarrive (core / 4) (fun a => a.gmask &&& bits ≠ 0 && a.core != core) s
    hit.foldl (fun (s : State) (a : Arrival) =>
      match a.by_ with
      | .ctx k _ =>
        let t : TrapInfo := { cause := causeGangBroken, sub := bits.zeroExtend 8, addr := 0 }
        if (s.ctx k).h then breakGang fuel a.core (killBody t.cause t.sub k s) else enterTrap t k (unrun k s)
      | .queue q => s.modQueue q fun x => { x with chains := match x.chains with
          | ch :: rest => { ch with wait := .broken bits } :: rest | [] => [] }) s

/-- A kill (R281): the gang the context waits at or holds is broken with it. -/
def kill (cause sub : Byte) (k : Nat) (s : State) : State :=
  let d := departs k s
  let s := killBody cause sub k s
  if d then breakGang 5 (coreOf k) s else s

/-- TrapEntry (R277): a trap while handling one kills the context. -/
def takeTrap (t : TrapInfo) (k : Nat) (s : State) : State :=
  if (s.ctx k).h then kill t.cause t.sub k s else enterTrap t k s

/-- Where ERET resumes and what runs first (R287, R245): the faulted closure, the stop PC, xpc + 8 or xpc. -/
def returnTrap (k : Nat) (s : State) : State :=
  s.modCtx k fun c =>
    let mode := if c.basePriv then c.mode ||| 0x40 else c.mode &&& 0x3F
    let faulted := c.tray.find? (·.faulted)
    let pc := if c.xcause = causeDeferred then c.stop.getD c.xpc
      else if c.xcause = causeTrap ∨ c.xcause = causeBreak then c.xpc + 8 else c.xpc
    { c with
      h := false, mode := mode, npc := pc, taken := true, stop := none,
      status := if c.status = .stopped then .running else c.status
      running := if c.xcause = causeDeferred then faulted.map fun cl => { cl with faulted := false } else c.running,
      tray := if c.xcause = causeDeferred then c.tray.filter fun cl => !cl.faulted else c.tray }

end Sys2Proof.Machine
end

