-- ==== Sys2Proof/Machine/Flags.lean ====
section
/-! DEFINITION. Floating point, block floating point and error bounds with every flag they raise (R34 to R57).
A value is exact: a sign, a natural significand and a power of two; one function rounds (R36). -/

namespace Sys2Proof.Machine

/-- A floating-point format: exponent bits and fraction bits (R35). -/
structure Fmt where
  e : Nat
  f : Nat
  deriving DecidableEq, Repr

def fp32 : Fmt := ⟨8, 23⟩
def fp16 : Fmt := ⟨5, 10⟩
def bf16 : Fmt := ⟨8, 7⟩

/-- The bias of a format (R35). -/
def Fmt.bias (t : Fmt) : Int := (2 ^ (t.e - 1) : Nat) - 1
/-- The exponent of the smallest normal. -/
def Fmt.emin (t : Fmt) : Int := 1 - t.bias
/-- The bits of the format. -/
def Fmt.width (t : Fmt) : Nat := t.e + t.f + 1
/-- The pattern of +infinity. -/
def Fmt.inf (t : Fmt) : Nat := (2 ^ t.e - 1) * 2 ^ t.f
/-- The sign bit's weight. -/
def Fmt.sign (t : Fmt) (neg : Bool) : Nat := if neg then 2 ^ (t.e + t.f) else 0
/-- The canonical NaN (R35). -/
def Fmt.nan (t : Fmt) : Nat := t.inf + 2 ^ (t.f - 1)

/-- Rounding modes (R36), coded as mode.FRM. -/
inductive Rm where
  | rne | rtz | rdn | rup
  deriving DecidableEq, Repr

/-- The mode of an FRM field (R20). -/
def rmOf (x : BitVec 2) : Rm := if x = 0 then .rne else if x = 1 then .rtz else if x = 2 then .rdn else .rup

/-- The flags, in the places of fflags (R19). -/
abbrev Flags5 := BitVec 5
def flNV : Flags5 := 1
def flDZ : Flags5 := 2
def flOF : Flags5 := 4
def flUF : Flags5 := 8
def flNX : Flags5 := 16

/-- A result pattern with the flags it raises. -/
structure FR where
  bits : Nat
  fl : Flags5 := 0
  deriving DecidableEq, Repr

/-- A value read from a pattern: NaN (signalling or not), infinity, or an exact finite value. -/
inductive FV where
  | nan (signalling : Bool)
  | inf (neg : Bool)
  | fin (neg : Bool) (m : Nat) (e : Int)
  deriving DecidableEq, Repr

/-- A pattern read (R35); under FTZ a subnormal reads as a zero of its sign (R38). -/
def unpack (t : Fmt) (ftz : Bool) (x : Nat) : FV :=
  let neg := x / 2 ^ (t.e + t.f) % 2 = 1
  let ex := x / 2 ^ t.f % 2 ^ t.e
  let fr := x % 2 ^ t.f
  if ex = 2 ^ t.e - 1 then if fr = 0 then .inf neg else .nan (fr < 2 ^ (t.f - 1))
  else if ex = 0 then .fin neg (if ftz then 0 else fr) (t.emin - t.f)
  else .fin neg (2 ^ t.f + fr) (t.emin - t.f + ((ex : Int) - 1))

/-- Bits needed to write m. -/
def bitLen (m : Nat) : Nat := if m = 0 then 0 else Nat.log2 m + 1

/-- The pattern of a zero of a sign. -/
def zeroBits (t : Fmt) (neg : Bool) : Nat := t.sign neg

/-- RoundF of the exact value (m + a fraction below 1 when sticky) x 2^e of a sign (R36), with the flags of R40 and
the flush of R38. A caller with a sticky fraction supplies a significand of more bits than the format keeps. -/
def round (t : Fmt) (rm : Rm) (ftz : Bool) (neg : Bool) (m : Nat) (e : Int) (sticky : Bool := false) : FR :=
  if m = 0 ∧ ¬sticky then ⟨zeroBits t neg, 0⟩ else
  let ex : Int := e + bitLen m - 1
  let tiny : Bool := ex < t.emin
  let q : Int := max ex t.emin - t.f
  let sh : Int := q - e
  let sig := if sh ≤ 0 then m * 2 ^ (-sh).toNat else m / 2 ^ sh.toNat
  let half : Ordering := if sh ≤ 0 then .lt else compare (2 * (m % 2 ^ sh.toNat)) (2 ^ sh.toNat)
  let inexact : Bool := sticky || (0 < sh && m % 2 ^ sh.toNat != 0)
  let up : Bool := match rm with
    | .rne => half = .gt || (half = .eq && (sticky || sig % 2 = 1))
    | .rtz => false
    | .rdn => neg && inexact
    | .rup => !neg && inexact
  let be : Int := max ex t.emin + t.bias
  let bits := (be - 1).toNat * 2 ^ t.f + (sig + if up then 1 else 0)
  if t.inf ≤ bits then
    let fin := match rm with | .rne => false | .rtz => true | .rdn => !neg | .rup => neg
    ⟨t.sign neg + (if fin then t.inf - 1 else t.inf), flOF ||| flNX⟩
  else if ftz ∧ bits < 2 ^ t.f then ⟨zeroBits t neg, flUF ||| flNX⟩
  else ⟨t.sign neg + bits, (if inexact then flNX else 0) ||| (if tiny && inexact then flUF else 0)⟩

/-- An exact integer times 2^e, rounded; a zero takes the given sign. -/
def roundInt (t : Fmt) (rm : Rm) (ftz : Bool) (zneg : Bool) (v : Int) (e : Int) : FR :=
  if v = 0 then ⟨zeroBits t zneg, 0⟩ else round t rm ftz (v < 0) v.natAbs e

/-- A NaN result: the canonical NaN, NV when an operand signals (R39). -/
def nanOut (t : Fmt) (sig : Bool) : FR := ⟨t.nan, if sig then flNV else 0⟩

/-- Whether an operand is a NaN, and whether it signals. -/
def FV.isNan : FV → Bool | .nan _ => true | _ => false
def FV.isSig : FV → Bool | .nan s => s | _ => false
/-- The sign of a value. -/
def FV.neg : FV → Bool | .nan _ => false | .inf n => n | .fin n _ _ => n
/-- A finite zero. -/
def FV.isZero : FV → Bool | .fin _ m _ => m == 0 | _ => false

/-- A signed significand at exponent e0, for e0 at most e. -/
def scaled (neg : Bool) (m : Nat) (e e0 : Int) : Int :=
  let v : Int := (m * 2 ^ (e - e0).toNat : Nat)
  if neg then -v else v

/-- A pattern with its sign bit flipped. -/
def negBits (t : Fmt) (x : Nat) : Nat := if x / 2 ^ (t.e + t.f) % 2 = 1 then x - 2 ^ (t.e + t.f) else x + 2 ^ (t.e + t.f)

/-- The sum of two values, rounded once (R36, R39). -/
def addV (t : Fmt) (rm : Rm) (ftz : Bool) : FV → FV → FR
  | .nan s, b => nanOut t (s || b.isSig)
  | a, .nan s => nanOut t (s || a.isSig)
  | .inf n, .inf n' => if n = n' then ⟨t.sign n + t.inf, 0⟩ else ⟨t.nan, flNV⟩
  | .inf n, _ => ⟨t.sign n + t.inf, 0⟩
  | _, .inf n => ⟨t.sign n + t.inf, 0⟩
  | .fin n m e, .fin n' m' e' =>
    let e0 := min e e'
    let zneg := if m = 0 ∧ m' = 0 ∧ n ∧ n' then true else rm = .rdn
    roundInt t rm ftz zneg (scaled n m e e0 + scaled n' m' e' e0) e0

/-- x + y (R36). -/
def fadd (t : Fmt) (rm : Rm) (ftz : Bool) (x y : Nat) : FR := addV t rm ftz (unpack t ftz x) (unpack t ftz y)

/-- x - y (R36). A NaN keeps its kind under the change of sign. -/
def fsub (t : Fmt) (rm : Rm) (ftz : Bool) (x y : Nat) : FR := fadd t rm ftz x (negBits t y)

/-- The exact product of two values, or the NaN or invalid operation it is. -/
inductive Prod where
  | nan (nv : Bool)
  | val (v : FV)

/-- The product (R36, R39): 0 x infinity is invalid. -/
def prodV : FV → FV → Prod
  | .nan s, b => .nan (s || b.isSig)
  | a, .nan s => .nan (s || a.isSig)
  | .inf n, b => if b.isZero then .nan true else .val (.inf (n != b.neg))
  | a, .inf n => if a.isZero then .nan true else .val (.inf (n != a.neg))
  | .fin n m e, .fin n' m' e' => .val (.fin (n != n') (m * m') (e + e'))

/-- x x y, rounded once (R36). -/
def fmul (t : Fmt) (rm : Rm) (ftz : Bool) (x y : Nat) : FR :=
  match prodV (unpack t ftz x) (unpack t ftz y) with
  | .nan nv => ⟨t.nan, if nv then flNV else 0⟩
  | .val (.inf n) => ⟨t.sign n + t.inf, 0⟩
  | .val (.fin n m e) => round t rm ftz n m e
  | .val (.nan _) => ⟨t.nan, 0⟩

/-- x x y + z with one rounding (R39: an invalid product raises NV whatever the addend is). -/
def ffma (t : Fmt) (rm : Rm) (ftz : Bool) (x y z : Nat) : FR :=
  let c := unpack t ftz z
  match prodV (unpack t ftz x) (unpack t ftz y) with
  | .nan nv => ⟨t.nan, if nv || c.isSig then flNV else 0⟩
  | .val v => addV t rm ftz v c

/-- Floor of the square root by bits: r grows by descending powers of two. -/
def isqrtAux (n : Nat) : Nat → Nat → Nat
  | 0, r => r
  | b + 1, r => let r' := r + 2 ^ b; if r' * r' ≤ n then isqrtAux n b r' else isqrtAux n b r

/-- Floor of the square root of n. -/
def isqrt (n : Nat) : Nat := isqrtAux n (bitLen n / 2 + 1) 0

/-- n / d x 2^e rounded once, for d ≠ 0. -/
def fratio (t : Fmt) (rm : Rm) (ftz : Bool) (neg : Bool) (n d : Nat) (e : Int) : FR :=
  let k := bitLen d + 40
  let q := n * 2 ^ k / d
  round t rm ftz neg q (e - k) (n * 2 ^ k % d != 0)

/-- The order of two finite or infinite values as (numerator at a common exponent). -/
def ltV : FV → FV → Bool
  | .nan _, _ => false
  | _, .nan _ => false
  | .inf n, .inf n' => n && !n'
  | .inf n, _ => n
  | _, .inf n => !n
  | .fin n m e, .fin n' m' e' => let e0 := min e e'; scaled n m e e0 < scaled n' m' e' e0

/-- Equality of two values; -0 equals +0 (R98). -/
def eqV (a b : FV) : Bool := !a.isNan && !b.isNan && !ltV a b && !ltV b a

/-- The total order used where -0 ranks below +0 (R41). -/
def ltZ (a b : FV) : Bool := ltV a b || (eqV a b && a.isZero && a.neg && !b.neg)

/-- maximumNumber (hi) or minimumNumber of patterns (R41); a flushed operand is delivered as its signed zero. -/
def fminmax (t : Fmt) (ftz hi : Bool) (x y : Nat) : FR :=
  let a := unpack t ftz x
  let b := unpack t ftz y
  let nv := if a.isSig || b.isSig then flNV else 0
  let px := if a.isZero then zeroBits t a.neg else x
  let py := if b.isZero then zeroBits t b.neg else y
  if a.isNan && b.isNan then ⟨x ||| 2 ^ (t.f - 1), nv⟩
  else if a.isNan then ⟨py, nv⟩
  else if b.isNan then ⟨px, nv⟩
  else if hi then ⟨if ltZ a b then py else px, nv⟩
  else ⟨if ltZ b a then py else px, nv⟩

/-- RoundInt of a finite value (R36): the integer and whether it is inexact. -/
def roundToInt (rm : Rm) (neg : Bool) (m : Nat) (e : Int) : Int × Bool :=
  if 0 ≤ e then (scaled neg m e 0, false) else
  let d := 2 ^ (-e).toNat
  let q := m / d
  let r := m % d
  let up : Bool := match rm with
    | .rne => d < 2 * r || (2 * r = d && q % 2 = 1)
    | .rtz => false
    | .rdn => neg && r != 0
    | .rup => !neg && r != 0
  let v : Int := (q + if up then 1 else 0 : Nat)
  (if neg then -v else v, r != 0)

/-- Floating point to an integer of w bits (R42): the exact integer delivered and the flags. -/
def toInt (t : Fmt) (rm : Rm) (ftz : Bool) (sgn : Bool) (w : Nat) (x : Nat) : Int × Flags5 :=
  let lo : Int := if sgn then -(2 ^ (w - 1) : Nat) else 0
  let hi : Int := if sgn then (2 ^ (w - 1) : Nat) - 1 else (2 ^ w : Nat) - 1
  match unpack t ftz x with
  | .nan _ => (0, flNV)
  | .inf n => (if n then lo else hi, flNV)
  | .fin n m e =>
    let (v, nx) := roundToInt rm n m e
    if v < lo then (lo, flNV) else if hi < v then (hi, flNV) else (v, if nx then flNX else 0)

/-- An integer to floating point (R42). -/
def ofInt (t : Fmt) (rm : Rm) (ftz : Bool) (v : Int) : FR := roundInt t rm ftz false v 0

/-- Floating point to floating point (R42). -/
def convert (s t : Fmt) (rm : Rm) (ftz : Bool) (x : Nat) : FR :=
  match unpack s ftz x with
  | .nan sig => nanOut t sig
  | .inf n => ⟨t.sign n + t.inf, 0⟩
  | .fin n m e => round t rm ftz n m e

/-- FCLASS's bit (R100); FTZ is ignored. -/
def classBit (t : Fmt) (x : Nat) : Nat :=
  match unpack t false x with
  | .nan s => if s then 8 else 9
  | .inf n => if n then 0 else 7
  | .fin n m _ => if m = 0 then (if n then 3 else 4) else if m < 2 ^ t.f then (if n then 2 else 5) else (if n then 1 else 6)

/-- A quiet or signalling comparison's NV (R98, R175). -/
def cmpFlags (a b : FV) (signals : Bool) : Flags5 :=
  if a.isSig || b.isSig || (signals && (a.isNan || b.isNan)) then flNV else 0

/-! ## Block floating point (R43 to R47) -/

/-- Bits of the container of a mantissa of width w (R43). -/
def containerBits (w : Nat) : Nat := if w ≤ 2 then 2 else if w ≤ 4 then 4 else 8

/-- floor(log2 |v|) of a value; 127 for an infinity (R45). -/
def expOf : FV → Int
  | .fin _ m e => e + bitLen m - 1
  | _ => 127

/-- PackBFP of 32 FP32 patterns (R45): E, the mantissas, saturations, and the flags. -/
def packBfp (w : Nat) (ftz : Bool) (x : List Nat) : Nat × List Int × Nat × Flags5 :=
  let v := x.map (unpack fp32 ftz)
  let nv : Flags5 := if v.any (·.isSig) then flNV else 0
  if v.any (·.isNan) then (0xFF, v.map fun _ => 0, 0, nv)
  else
    let nz := v.filter fun a => !a.isZero
    match nz with
    | [] => (0, v.map fun _ => 0, 0, 0)
    | a :: rest =>
      let emax := rest.foldl (fun (m : Int) b => max m (expOf b)) (expOf a)
      let ex : Int := max 0 (127 + emax)
      let lo : Int := -(2 ^ (w - 1) : Nat)
      let hi : Int := (2 ^ (w - 1) : Nat) - 1
      let q := v.map fun b => match b with
        | .inf n => (if n then lo else hi, true, true)
        | .fin n m e =>
          let (r, nx) := roundToInt .rne n m (e + 127 + ((w : Int) - 2) - ex)
          if hi < r then (hi, true, true) else if r < lo then (lo, true, true) else (r, false, nx)
        | .nan _ => (0, false, false)
      (ex.toNat, q.map (·.1), (q.filter (·.2.1)).length, if q.any (fun p => p.2.1 || p.2.2) then flNX else 0)

/-- UnpackBFP of one element (R47): mantissa m of width w in a block of exponent E. -/
def unpackBfp (w : Nat) (rm : Rm) (ftz : Bool) (ex : Nat) (m : Int) : FR :=
  if ex = 0xFF then ⟨fp32.nan, 0⟩ else roundInt fp32 rm ftz false m ((ex : Int) - 127 - ((w : Int) - 2))

/-! ## Bounds (R55 to R57): an exact nonnegative real is n x 2^e -/

/-- n x 2^e. -/
structure Dy where
  n : Nat
  e : Int
  deriving DecidableEq, Repr

/-- The sum of two. -/
def Dy.add (a b : Dy) : Dy :=
  let e := min a.e b.e
  ⟨a.n * 2 ^ (a.e - e).toNat + b.n * 2 ^ (b.e - e).toNat, e⟩
/-- The product of two. -/
def Dy.mul (a b : Dy) : Dy := ⟨a.n * b.n, a.e + b.e⟩
/-- The order of two. -/
def Dy.le (a b : Dy) : Bool :=
  let e := min a.e b.e
  a.n * 2 ^ (a.e - e).toNat ≤ b.n * 2 ^ (b.e - e).toNat
/-- The larger of two. -/
def Dy.max (a b : Dy) : Dy := if a.le b then b else a

/-- The bound of a row's tag (R55). -/
def tagBound (b : Bool) (e : Byte) : Dy := if b then ⟨1, (e.toNat : Int) - 127⟩ else ⟨0, 0⟩

/-- Bound(d) (R55). -/
def boundOf (d : Dy) : Byte :=
  if d.n = 0 then 0 else
  -- ceil(log2 d): the exponent of the leading bit, plus 1 unless d is a power of two
  let k := bitLen d.n - 1
  let c : Int := d.e + k + (if d.n = 2 ^ k then 0 else 1)
  if c ≤ -127 then 0 else if 254 < 127 + c then 0xFF else BitVec.ofInt 8 (127 + c)

/-- |v| of a pattern as an exact real (0 for a NaN or infinity, whose result row is unbounded). -/
def magnitude (t : Fmt) (x : Nat) : Dy :=
  match unpack t false x with
  | .fin _ m e => ⟨m, e⟩
  | _ => ⟨0, 0⟩

/-- h_k of a result (R56): half an ulp of z when it was rounded inexactly. -/
def roundError (t : Fmt) (z : Nat) (nx : Bool) : Dy :=
  if !nx then ⟨0, 0⟩ else
  let p : Int := t.f + 1
  match unpack t false z with
  | .fin _ m e => if m = 0 then ⟨1, -126 - p⟩ else ⟨1, max (e + bitLen m - 1) (-126) - p⟩
  | _ => ⟨0, 0⟩

/-- The tag of a .B result (R57): exact when no source is bounded; unbounded when a lane is infinite or NaN. -/
def resultTag (anyBounded bad : Bool) (err : Dy) : Bool × Byte :=
  if !anyBounded then (false, 0) else (true, if bad then 0xFF else boundOf err)

/-! ## Transcendental rows (R51 to R54), on FP32 patterns -/

/-- One inner fma of R51: the pattern and NX. -/
def innerFma (a b c : Nat) (nx : Bool) : Nat × Bool :=
  let r := ffma fp32 .rne false a b c
  (r.bits, nx || r.fl &&& flNX != 0)

/-- Flags of an evaluation (R51): NX of any step, UF and OF of the final rounding only. -/
def evalFlags (nx : Bool) (final : Flags5) : Flags5 := (final &&& (flUF ||| flOF ||| flNX)) ||| (if nx then flNX else 0)

/-- The final rounding of an evaluation to the lane's format (R51): the last FP32 step for FP32 lanes, a
rounding of its result for the narrow ones. -/
def finish (t : Fmt) (ftz nx : Bool) (neg : Bool) (m : Nat) (e : Int) (sticky zneg : Bool) : FR :=
  if t = fp32 then
    let r := if m = 0 ∧ ¬sticky then ⟨zeroBits t zneg, 0⟩ else round t .rne ftz neg m e sticky
    ⟨r.bits, evalFlags nx r.fl⟩
  else
    let r := if m = 0 ∧ ¬sticky then ⟨zeroBits fp32 zneg, 0⟩ else round fp32 .rne false neg m e sticky
    let q := convert fp32 t .rne false r.bits
    let nx := nx || r.fl &&& flNX != 0
    if ftz ∧ q.bits % 2 ^ (t.e + t.f) < 2 ^ t.f ∧ (q.bits % 2 ^ (t.e + t.f) ≠ 0 ∨ q.fl ≠ 0) then ⟨zeroBits t (q.bits / 2 ^ (t.e + t.f) % 2 = 1), flUF ||| flNX⟩
    else ⟨q.bits, evalFlags nx q.fl⟩

/-- VEXP2 of one lane (R52). -/
def exp2 (t : Fmt) (ftz : Bool) (x : Nat) : FR :=
  match unpack t ftz x with
  | .nan s => nanOut t s
  | .inf n => if n then ⟨0, 0⟩ else ⟨t.inf, 0⟩
  | .fin neg m e =>
    let v := scaled neg m e (min e 0)
    let one : Int := (2 ^ (-(min e 0)).toNat : Nat)
    if 128 * one ≤ v then ⟨t.inf, flOF ||| flNX⟩
    else if v ≤ -150 * one then ⟨0, flUF ||| flNX⟩
    else
      let n := (roundToInt .rne neg m e).1
      let f := (roundInt fp32 .rne false false (v - n * one) (min e 0)).bits
      let (p, nx) := innerFma 0x377FE5D2 f 0x3921848A false
      let (p, nx) := innerFma p f 0x3AAEC3FF nx
      let (p, nx) := innerFma p f 0x3C1D955B nx
      let (p, nx) := innerFma p f 0x3D635847 nx
      let (p, nx) := innerFma p f 0x3E75FDF0 nx
      let (p, nx) := innerFma p f 0x3F317218 nx
      let (p, nx) := innerFma p f 0x3F800000 nx
      match unpack fp32 false p with
      | .fin s m' e' => finish t ftz nx s m' (e' + n) false false
      | _ => ⟨t.nan, 0⟩

/-- VLOG2 of one lane (R53). -/
def log2 (t : Fmt) (ftz : Bool) (x : Nat) : FR :=
  match unpack t ftz x with
  | .nan s => nanOut t s
  | .inf n => if n then ⟨t.nan, flNV⟩ else ⟨t.inf, 0⟩
  | .fin neg m e =>
    if m = 0 then ⟨t.sign true + t.inf, flDZ⟩
    else if neg then ⟨t.nan, flNV⟩
    else
      -- m x 2^e = y x 2^(k) with y in [1, 2) as the FP32 pattern of 2^23 scaled significand
      let l := bitLen m
      let y := m * 2 ^ (24 - l)
      let k : Int := e + l - 1
      -- threshold 0x3FB504F3: significand 0xB504F3
      let (e0, k) : Int × Int := if 0xB504F3 ≤ y then (-24, k + 1) else (-23, k)
      let oneAt : Int := (2 ^ (-e0).toNat : Nat)
      let num : Int := (y : Int) - oneAt
      let den : Nat := y + 2 ^ (-e0).toNat
      let s := if num = 0 then ⟨0, 0⟩ else fratio fp32 .rne false (num < 0) num.natAbs den 0
      let z := fmul fp32 .rne false s.bits s.bits
      let nx := (s.fl ||| z.fl) &&& flNX != 0
      let (q, nx) := innerFma 0x3EA4258A z.bits 0x3ED30BB1 nx
      let (q, nx) := innerFma q z.bits 0x3F13BB63 nx
      let (q, nx) := innerFma q z.bits 0x3F76384F nx
      let (q, nx) := innerFma q z.bits 0x4038AA3B nx
      let qs := fmul fp32 .rne false q s.bits
      let nx := nx || qs.fl &&& flNX != 0
      match unpack fp32 false qs.bits with
      | .fin n' m' e' =>
        let e1 := min e' 0
        let sum := scaled n' m' e' e1 + k * (2 ^ (-e1).toNat : Nat)
        finish t ftz nx (sum < 0) sum.natAbs e1 false false
      | _ => ⟨t.nan, 0⟩

/-- VRCP of one lane (R54). -/
def rcp (t : Fmt) (ftz : Bool) (x : Nat) : FR :=
  match unpack t ftz x with
  | .nan s => nanOut t s
  | .inf n => ⟨zeroBits t n, 0⟩
  | .fin neg m e =>
    if m = 0 then ⟨t.sign neg + t.inf, flDZ⟩
    else if e + bitLen m - 1 < -128 then ⟨t.sign neg + t.inf, flOF ||| flNX⟩
    else
      let k := bitLen m + 40
      finish t ftz false neg (2 ^ k / m) (-e - k) (2 ^ k % m != 0) neg

/-- VRSQRT of one lane (R54). -/
def rsqrt (t : Fmt) (ftz : Bool) (x : Nat) : FR :=
  match unpack t ftz x with
  | .nan s => nanOut t s
  | .inf n => if n then ⟨t.nan, flNV⟩ else ⟨0, 0⟩
  | .fin neg m e =>
    if m = 0 then ⟨t.sign neg + t.inf, flDZ⟩
    else if neg then ⟨t.nan, flNV⟩
    else
      -- 1 / sqrt(m 2^e): make e even, then sqrt(2^(2k) / m) with a sticky remainder
      let (m, e) := if e % 2 = 0 then (m, e) else (2 * m, e - 1)
      let k := bitLen m + 40
      let q := 2 ^ (2 * k) / m
      let r := isqrt q
      finish t ftz false false r (-(e / 2) - k) (r * r * m != 2 ^ (2 * k)) false

end Sys2Proof.Machine
end

