-- ==== Sys2Proof/Machine/Bank.lean ====
section
/-! DEFINITION. Banks: descriptors (R143, R144), images (R145, R146), ports
(R147), every port operation as one atomic action (R152), arcades (R162) and BGUISE's conversions (R157 to R160). -/

namespace Sys2Proof.Machine

/-! ## Bytes of banks -/

/-- A bank's 8 KiB cleared, with its poison. -/
def clearBank (b : Nat) (s : State) : State :=
  { s with bankMem := eraseN s.bankMem (bkey b 0) 8192, bankPoison := s.bankPoison.filter fun u => u / 1024 ≠ b }

/-! ## Descriptors -/

/-- CAP. -/
def capOf (d : Word) : Nat := wf d 15 3
/-- Element bits, EW. -/
def ewOf (d : Word) : Nat := 8 * 2 ^ wf d 17 16
/-- Key bits, KW. -/
def kwOf (d : Word) : Nat := 8 * 2 ^ wf d 19 18
/-- BMASK and BSHIFT. -/
def bmaskOf (d : Word) : Nat := wf d 30 20
def bshiftOf (d : Word) : Nat := wf d 36 31
/-- AROLE and ALINK. -/
def aroleOf (d : Word) : Nat := wf d 39 38
def alinkOf (d : Word) : Nat := wf d 47 40

/-- A descriptor valid for bank number n under R144; bits above 37 are ignored (R157). -/
def descValid (d : Word) (n : Nat) : Bool :=
  let cap := capOf d
  let ew := wf d 17 16
  let kw := wf d 19 18 == 0
  let hist := wf d 30 20 == 0 && wf d 36 31 == 0
  let pol := wf d 37 37 == 0
  match kindOf d with
  | 0 => cap == 0 && kw && hist && pol
  | 1 => 1 ≤ cap && cap ≤ 8128 / 2 ^ ew && kw && hist && pol
  | 2 => 1 ≤ cap && cap ≤ 8128 / 2 ^ ew && kw && hist && pol
  | 3 => 1 ≤ cap && cap ≤ 508 && hist && pol
  | 4 => 1 ≤ cap && cap ≤ 508 && kw && hist && pol
  | 5 => cap == 0 && kw && pol && ew == 2 && wf d 30 20 ≤ 2031
  | 6 => cap == 0 && kw && hist && ew == 0 && n % 2 == 0
  | _ => false

/-! ## Headers and slots -/

/-- HEAD, TAIL, COUNT and STAMP of a bank's image (R145). -/
def hdHead (s : State) (b : Nat) : Nat := bankRead s (bkey b 0) 4
def hdTail (s : State) (b : Nat) : Nat := bankRead s (bkey b 4) 4
def hdCount (s : State) (b : Nat) : Nat := bankRead s (bkey b 8) 4
def hdStamp (s : State) (b : Nat) : Nat := bankRead s (bkey b 16) 4

/-- Slot bytes of a kind (R144). -/
def slotBytes (d : Word) : Nat :=
  match kindOf d with | 1 => ewOf d / 8 | 2 => ewOf d / 8 | 3 => 16 | 4 => 16 | 5 => 4 | _ => 0

/-- The key of slot i. -/
def slotKey (d : Word) (b i : Nat) : Nat := bkey b (0x40 + i * slotBytes d)

/-- The value in slot i of a QUEUE or STACK. -/
def elemAt (s : State) (d : Word) (b i : Nat) : Nat := bankRead s (slotKey d b i) (ewOf d / 8)

/-- A heap entry's order key (R146): priority as i32, then stamp. -/
def heapLess (a b : Nat) : Bool :=
  let p := signed 32 a
  let q := signed 32 b
  p < q || (p == q && a / 2 ^ 32 % 2 ^ 32 < b / 2 ^ 32 % 2 ^ 32)

/-- A heap entry: value, stamp, priority. -/
def heapEntry (prio : Int) (stamp value : Nat) : Nat := wrap 32 prio + stamp * 2 ^ 32 + value * 2 ^ 64

/-- Slot i of a list of entries. -/
def nth (l : List Nat) (i : Nat) : Nat := l.getD i 0

/-- Sift up from slot i (R146). -/
def siftUp : Nat → Nat → List Nat → List Nat
  | 0, _, l => l
  | fuel + 1, i, l =>
    if i = 0 then l else
    let p := (i - 1) / 2
    if heapLess (nth l i) (nth l p) then siftUp fuel p ((l.set i (nth l p)).set p (nth l i)) else l

/-- Sift down from slot i (R146): the smaller child, the left one on equal keys. -/
def siftDown : Nat → Nat → List Nat → List Nat
  | 0, _, l => l
  | fuel + 1, i, l =>
    let c := 2 * i + 1
    if l.length ≤ c then l else
    let c := if c + 1 < l.length ∧ heapLess (nth l (c + 1)) (nth l c) then c + 1 else c
    if heapLess (nth l c) (nth l i) then siftDown fuel c ((l.set i (nth l c)).set c (nth l i)) else l

/-- Pop (R146): the entry of slot 0 and the entries after it. -/
def heapPop (l : List Nat) : Nat × List Nat :=
  match l with
  | [] => (0, [])
  | [x] => (x, [])
  | x :: y :: r => (x, siftDown 16 0 (((y :: r).getLastD 0) :: (y :: r).dropLast))

/-- The live entries in pop order. -/
def popAll : Nat → List Nat → List Nat
  | 0, _ => []
  | fuel + 1, l => match l with | [] => [] | _ => let (x, r) := heapPop l; x :: popAll fuel r

/-- The entries of a MAP or HEAP, slot by slot, 16 bytes each. -/
def entries (s : State) (b : Nat) : List Nat := (upTo (min (hdCount s b) 508)).map fun i => bankRead s (bkey b (0x40 + 16 * i)) 16

/-- Entries written back from slot i on: those that differ from what their slots hold. -/
def writeEntries (b : Nat) : Nat → List Nat → State → State
  | _, [], s => s
  | i, x :: r, s => writeEntries b (i + 1) r
      (if bankRead s (bkey b (0x40 + 16 * i)) 16 = x then s else bankWrite (bkey b (0x40 + 16 * i)) 16 x s)

/-- The slots that a sift up from slot i compares with, and those that a sift down does. -/
def upPath : Nat → Nat → List Nat → List Nat
  | 0, _, _ => []
  | fuel + 1, i, l =>
    if i = 0 then [] else
    let p := (i - 1) / 2
    p :: if heapLess (nth l i) (nth l p) then upPath fuel p ((l.set i (nth l p)).set p (nth l i)) else []
def downPath : Nat → Nat → List Nat → List Nat
  | 0, _, _ => []
  | fuel + 1, i, l =>
    let c := 2 * i + 1
    if l.length ≤ c then [] else
    let both := if c + 1 < l.length then [c, c + 1] else [c]
    let c := if c + 1 < l.length ∧ heapLess (nth l (c + 1)) (nth l c) then c + 1 else c
    both ++ if heapLess (nth l c) (nth l i) then downPath fuel c ((l.set i (nth l c)).set c (nth l i)) else []

/-! ## Waking -/

/-- The crossing time of R300 between a core and a bank's core. -/
def crossing (core other : Nat) : Nat := if core / 16 = other / 16 then 1 else if core / 64 = other / 64 then 3 else 5

/-- The value that a waiter's entry brings to its register, or poison where the entry is poisoned (R408). -/
def wakeLanding (due : Nat) (firm bad : Bool) (d : SReg) (v : Nat) : Landing :=
  { Landing.empty with regs := [(d, BitVec.ofNat 64 v)], due := due, firm := firm, waitw := true, poison := if bad then some ⟨causeEcc, 0⟩ else none }

/-- A request of a saved context is woken: the value goes into the saved image (R30, R126). -/
def wakeSavedCtx (now q v : Nat) (bad : Bool) (c : Ctx) : Ctx :=
  match c.reqs.find? fun r => r.seq = q with
  | some r => match r.dest with
    | .reg d _ _ => { c with
        reqs := c.reqs.filter fun r => r.seq ≠ q
        landings := c.landings ++ [wakeLanding now false bad d v] }
    | _ => c
  | none => c

/-- The same for a launch. -/
def wakeSaved (now q v : Nat) (bad : Bool) (l : Launch) : Launch :=
  { l with saved := l.saved.map fun x => { x with ctxs := x.ctxs.map fun (p : Nat × Ctx) => (p.1, wakeSavedCtx now q v bad p.2) } }

/-- The cycle in which a waiter of a bank hears of its wake: after the crossing from another core's bank (R3, R300). -/
def hears (s : State) (bank : Option Nat) (k : Nat) : Nat :=
  match bank with
  | some b => if b / 16 = coreOf k then s.cycle else s.cycle + crossing (coreOf k) (b / 16)
  | none => s.cycle

/-- A registered waiter's value lands (R124, R125, R153), after its way from the bank that wakes it: an engine's WAITV notes
it, and a dispatcher tests its dependence word again (R336). -/
def wake (bank : Option Nat) (w : Registered) (v : Nat) (s : State) : State :=
  match w.who with
  | .ctx k q =>
    match (s.ctx k).reqs.find? fun r => r.seq = q with
    | some r =>
      let s := s.modCtx k fun c => { c with reqs := c.reqs.filter fun r => r.seq ≠ q }
      match r.dest with
      | .reg d _ _ => queueLanding k (wakeLanding (hears s bank k) bank.isSome w.bad d v) s
      | _ => s
    | none => { s with launches := s.launches.map fun (p : Nat × Launch) => (p.1, wakeSaved s.cycle q v w.bad p.2) }
  | .queue q => s.modQueue q fun x => { x with chains := match x.chains with
      | ch :: rest => (if ch.wait = .waitv then { ch with wait := if w.bad then .failed (trapOf causeEcc causeEcc.toNat 0) else .woken v } else ch) :: rest
      | [] => [] }
  | .dep p q second => s.modQcb (4096 * p + q) fun x => if second then { x with test1 := true } else { x with test0 := true }

/-- Waiters woken in turn. -/
def wakeAll (bank : Option Nat) (l : List Registered) (v : Nat) (s : State) : State := l.foldl (fun s r => wake bank r v s) s

/-- A word of a bank changed: the waiters on it whose threshold the change crosses are woken with OK (R124, R153). -/
def crossBank (b addr : Nat) (old new : Int) (s : State) : State :=
  let hit := (s.bank b).waiters.filter fun r => r.addr = addr ∧ old < r.thr.toInt ∧ r.thr.toInt ≤ new
  if hit = [] then s else
  syncMask b (wakeAll (some b) hit 0 (s.modBank b fun x => { x with waiters := x.waiters.filter fun r => !hit.contains r }))

/-- A FADDT at a bank word (R124): a crossing wakes every waiter registered on the word. -/
def wakeWordBank (b addr : Nat) (s : State) : State :=
  let hit := (s.bank b).waiters.filter fun r => r.addr = addr
  if hit = [] then s else
  syncMask b (wakeAll (some b) hit 0 (s.modBank b fun x => { x with waiters := x.waiters.filter fun r => r.addr ≠ addr }))

/-- A change of a bank wakes every waiter with CLOSED and empties its registry (R153). -/
def wakeClosed (b : Nat) (s : State) : State :=
  let l := (s.bank b).waiters
  if l = [] then s else syncMask b (wakeAll (some b) l 4 (s.modBank b fun x => { x with waiters := [] }))

/-! ## Arcades -/

/-- The bank that ALINK names, in the bay of bank b. -/
def linkTarget (b : Nat) (d : Word) : Nat := b / 256 * 256 + alinkOf d

/-- The members of an arcade from a bank on, in link order (R161). -/
def linkedFrom (s : State) : Nat → Nat → List Nat
  | 0, _ => []
  | fuel + 1, b => let d := descOf s b; if aroleOf d = 3 then [b] else b :: linkedFrom s fuel (linkTarget b d)

/-- The members that a port address reaches: the arcade behind a lead, or the bank alone. -/
def members (s : State) (b : Nat) : List Nat := if aroleOf (descOf s b) = 1 then linkedFrom s 16 b else [b]

/-- The lead of the arcade that a bank belongs to: following the links from it until the lead is met. -/
def leadOf (s : State) : Nat → Nat → Nat
  | 0, b => b
  | fuel + 1, b => if aroleOf (descOf s b) = 1 then b else leadOf s fuel (linkTarget b (descOf s b))

/-- A bank belongs to an arcade. -/
def inArcade (s : State) (b : Nat) : Bool := aroleOf (descOf s b) != 0

/-! ## Port operations -/

/-- The operations of the port table (R147). -/
inductive Port where
  | put | take | peek | count | insert | find | delete | hinsert | hmin | hpeek | bump | hadd | bin (i : Nat)
  deriving DecidableEq, Repr

/-- The access that reaches a port. -/
inductive PortAcc where
  | load (n : Nat) | store (n : Nat) | ldp | stp | xch (n : Nat) | other
  deriving DecidableEq, Repr

/-- The port that an access at an offset of a bank reaches (R147); none where the table does not list it. -/
def portAt (d : Word) (off : Nat) (a : PortAcc) (signedBin : Bool) : Option Port :=
  let ew := ewOf d / 8
  match kindOf d with
  | 1 => seq ew 0x10
  | 2 => seq ew 0x18
  | 3 =>
    match a with
    | .load n => if off = 0x18 ∧ (n = 4 ∨ n = 8) then some .count else none
    | .stp => if off = 0 then some .insert else none
    | .xch 8 => if off = 8 then some .find else if off = 0x10 then some .delete else none
    | _ => none
  | 4 =>
    match a with
    | .load n => if off = 0x18 ∧ (n = 4 ∨ n = 8) then some .count else none
    | .stp => if off = 0 then some .hinsert else none
    | .ldp => if off = 8 then some .hmin else if off = 0x10 then some .hpeek else none
    | _ => none
  | 5 =>
    match a with
    | .store _ => if off = 0 then some .bump else none
    | .xch 8 => if off = 8 then some .hadd else none
    | .load 4 => if signedBin ∧ 0x40 ≤ off ∧ off % 4 = 0 ∧ (off - 0x40) / 4 ≤ bmaskOf d then some (.bin ((off - 0x40) / 4)) else none
    | _ => none
  | _ => none
where
  /-- The ports of a QUEUE or STACK, whose COUNT lies at cnt. -/
  seq (ew cnt : Nat) : Option Port :=
    match a with
    | .store n => if off = 0 ∧ n = ew then some .put else none
    | .load n =>
      if off = 0 ∧ n = ew then some .take
      else if off = 8 ∧ n = ew then some .peek
      else if off = cnt ∧ (n = 4 ∨ n = 8) then some .count
      else none
    | _ => none

/-- Operations that return OK always (R150). -/
def Port.sure : Port → Bool
  | .count | .bump | .bin _ => true
  | _ => false

/-- The offset of the COUNT port of a kind, where it has one (R147). -/
def countOff (d : Word) : Option Nat :=
  match kindOf d with | 1 => some 0x10 | 2 => some 0x18 | 3 => some 0x18 | 4 => some 0x18 | _ => none

/-- An answer of a bank: status code of R148 and value. -/
structure Answer where
  status : Nat
  value : Nat
  deriving DecidableEq, Repr

def ansOk (v : Nat) : Answer := ⟨0, v⟩
def ansEmpty : Answer := ⟨1, 0⟩
def ansFull : Answer := ⟨2, 0⟩
def ansAbsent : Answer := ⟨3, 0⟩

/-- COUNT of an arcade is the sum over its members (R162). -/
def countAll (s : State) (ms : List Nat) : Nat := (ms.map (hdCount s)).sum

/-- An increase of COUNT seen by the waiters at the port's bank (R153). -/
def grew (b : Nat) (old : Nat) (s : State) : State :=
  match countOff (descOf s b) with
  | some off => crossBank b (bkey b off) old (countAll s (members s b)) s
  | none => s

/-- PUT at one member (R146): the tail of a QUEUE, the top of a STACK. -/
def putOne (b v : Nat) (s : State) : State :=
  let d := descOf s b
  let n := hdCount s b
  let s := if kindOf d = 1 then
      bankWrite (bkey b 4) 4 ((hdTail s b + 1) % capOf d) (bankWrite (slotKey d b (hdTail s b)) (ewOf d / 8) v s)
    else bankWrite (slotKey d b n) (ewOf d / 8) v s
  { (bankWrite (bkey b 8) 4 (n + 1) s).modBank b (fun x => { x with ages := x.ages ++ [s.seq] }) with seq := s.seq + 1 }

/-- The element that TAKE would return at one member, and the state after the TAKE. -/
def takeOne (b : Nat) (s : State) : Nat × State :=
  let d := descOf s b
  let n := hdCount s b
  if kindOf d = 1 then
    let h := hdHead s b
    (elemAt s d b h, (bankWrite (bkey b 0) 4 ((h + 1) % capOf d) (bankWrite (bkey b 8) 4 (n - 1) s)).modBank b
      fun x => { x with ages := x.ages.tail })
  else (elemAt s d b (n - 1), (bankWrite (bkey b 8) 4 (n - 1) s).modBank b fun x => { x with ages := x.ages.dropLast })

/-- The age of the element that TAKE would return at a member. -/
def takeAge (s : State) (b : Nat) : Nat :=
  if kindOf (descOf s b) = 1 then (s.bank b).ages.headD 0 else (s.bank b).ages.getLastD 0

/-- The member that TAKE and PEEK reach: the one with the oldest (QUEUE) or newest (STACK) element (R162). -/
def takeFrom (s : State) (ms : List Nat) : Option Nat :=
  (ms.filter fun m => hdCount s m ≠ 0).foldl (fun (best : Option Nat) m => match best with
    | none => some m
    | some b => if kindOf (descOf s m) = 1 then (if takeAge s m < takeAge s b then some m else some b)
        else (if takeAge s b < takeAge s m then some m else some b)) none

/-- The member of a MAP arcade that holds a key (R162). -/
def mapMember (ms : List Nat) (key : Nat) : Nat :=
  ms.getD (field (key * 0xB4C72E1958A3F06D % 2 ^ 64) 63 32 % ms.length) 0

/-- The member and offset that hold bin i (R162). -/
def binKey (ms : List Nat) (i : Nat) : Nat := bkey (ms.getD (i % ms.length) 0) (0x40 + 4 * i)

/-- The slot of a key in a MAP bank (R146). -/
def findKey (s : State) (b key : Nat) : Option Nat :=
  (upTo (min (hdCount s b) 508)).find? fun i => bankRead s (bkey b (0x40 + 16 * i)) 8 = key

/-- INSERT at one MAP bank: a present key gets the new value (R147). -/
def mapInsert (b key v : Nat) (s : State) : Answer × State :=
  let d := descOf s b
  match findKey s b key with
  | some i => (ansOk 0, bankWrite (bkey b (0x48 + 16 * i)) 8 v s)
  | none =>
    let n := hdCount s b
    if capOf d ≤ n then (ansFull, s) else
    (ansOk 0, bankWrite (bkey b 8) 4 (n + 1) (bankWrite (bkey b (0x40 + 16 * n)) 16 (key + v * 2 ^ 64) s))

/-- INSERT at a HEAP bank (R146): renumbering when STAMP would pass 0xFFFFFFFF. -/
def heapInsert (b : Nat) (prio : Int) (v : Nat) (s : State) : Answer × State :=
  let d := descOf s b
  let n := hdCount s b
  if capOf d ≤ n then (ansFull, s) else
  let l := entries s b
  let (l, st) := if hdStamp s b = 0xFFFFFFFF then
      -- entries carry their slot above bit 127, which the order ignores
      let order := popAll n (l.mapIdx fun i (e : Nat) => e + i * 2 ^ 128)
      (l.mapIdx fun i (e : Nat) => heapEntry (signed 32 e) (order.findIdx fun t => t / 2 ^ 128 == i) (e / 2 ^ 64), n)
    else (l, hdStamp s b)
  let l := siftUp 16 n (l ++ [heapEntry prio st v])
  (ansOk 0, bankWrite (bkey b 16) 4 (st + 1) (bankWrite (bkey b 8) 4 (n + 1) (writeEntries b 0 l s)))

/-- A HIST bin changed by delta, saturating (R147); the old count. -/
def binAdd (key : Nat) (delta : Int) (s : State) : Nat × State :=
  let c := bankRead s key 4
  (c, bankWrite key 4 (satU ((c : Int) + delta) 32).toNat s)

/-- One port operation at bank b, an arcade's lead or a bank alone (R147, R162). `v` is the data of a store, the key
or bin word of an exchange, or a pair as low + 2^64 high. Bits of a value above EW that KEEP loaded are returned (log entry 87). -/
def portOp (b : Nat) (p : Port) (v : Nat) (s : State) : Answer × State :=
  let d := descOf s b
  let ms := members s b
  let ew := ewOf d
  match p with
  | .put =>
    let n := countAll s ms
    match ms.find? fun m => hdCount s m < capOf (descOf s m) with
    | none => (ansFull, s)
    | some m => (ansOk 0, grew b n (putOne m (v % 2 ^ ew) s))
  | .take =>
    match takeFrom s ms with
    | none => (ansEmpty, s)
    | some m => let (x, s) := takeOne m s; (ansOk x, s)
  | .peek =>
    match takeFrom s ms with
    | none => (ansEmpty, s)
    | some m => (ansOk (takeOne m s).1, s)
  | .count => (ansOk (countAll s ms), s)
  | .insert =>
    let key := v % 2 ^ kwOf d
    let n := countAll s ms
    let (a, s') := mapInsert (mapMember ms key) key (v / 2 ^ 64 % 2 ^ ew) s
    (a, if a.status = 0 then grew b n s' else s)
  | .find =>
    let key := v % 2 ^ kwOf d
    let m := mapMember ms key
    match findKey s m key with
    | none => (ansAbsent, s)
    | some i => (ansOk (bankRead s (bkey m (0x48 + 16 * i)) 8), s)
  | .delete =>
    let key := v % 2 ^ kwOf d
    let m := mapMember ms key
    match findKey s m key with
    | none => (ansAbsent, s)
    | some i =>
      let n := hdCount s m
      let last := bankRead s (bkey m (0x40 + 16 * (n - 1))) 16
      (ansOk (bankRead s (bkey m (0x48 + 16 * i)) 8),
        bankWrite (bkey m 8) 4 (n - 1) (bankWrite (bkey m (0x40 + 16 * i)) 16 last s))
  | .hinsert =>
    let n := hdCount s b
    let (a, s') := heapInsert b (signed 32 v) (v / 2 ^ 64 % 2 ^ ew) s
    (a, if a.status = 0 then grew b n s' else s)
  | .hmin =>
    let l := entries s b
    if l = [] then (ansEmpty, s) else
    let (x, r) := heapPop l
    (ansOk (wrap 64 (signed 32 x) + x / 2 ^ 64 * 2 ^ 64), bankWrite (bkey b 8) 4 r.length (writeEntries b 0 r s))
  | .hpeek =>
    let l := entries s b
    if l = [] then (ansEmpty, s) else
    let x := nth l 0
    (ansOk (wrap 64 (signed 32 x) + x / 2 ^ 64 * 2 ^ 64), s)
  | .bump => (ansOk 0, (binAdd (binKey ms ((v / 2 ^ bshiftOf d) &&& bmaskOf d)) 1 s).2)
  | .hadd =>
    let i := v % 2 ^ 32
    if bmaskOf d < i then (ansAbsent, s) else
    let (old, s) := binAdd (binKey ms i) (signed 32 (v / 2 ^ 32)) s
    (ansOk old, s)
  | .bin i => (ansOk (bankRead s (binKey ms i) 4), s)

/-! ## What a port operation reads (R408) -/

/-- The bytes of some slots of 16. -/
def slots16 (b : Nat) (l : List Nat) : List (Nat × Nat) := l.map fun i => (bkey b (0x40 + 16 * i), 16)

/-- The keys that a search of a MAP bank compares: to the one it finds, or all. -/
def probed (s : State) (b key : Nat) : List (Nat × Nat) :=
  let n := match findKey s b key with | some i => i + 1 | none => min (hdCount s b) 508
  (upTo n).map fun i => (bkey b (0x40 + 16 * i), 8)

/-- The ranges of bank space that a port operation reads, as key and bytes: the header words it goes by and the elements it
looks at. -/
def portReads (s : State) (b : Nat) (p : Port) (v : Nat) : List (Nat × Nat) :=
  let d := descOf s b
  let ms := members s b
  let counts := ms.map fun m => (bkey m 8, 4)
  let m := mapMember ms (v % 2 ^ kwOf d)
  let key := v % 2 ^ kwOf d
  let n := hdCount s b
  let taken : List (Nat × Nat) := match takeFrom s ms with
    | none => []
    | some m => if kindOf d = 1 then [(bkey m 0, 4), (slotKey d m (hdHead s m), ewOf d / 8)] else [(slotKey d m (hdCount s m - 1), ewOf d / 8)]
  let found : List (Nat × Nat) := match findKey s m key with | some i => [(bkey m (0x48 + 16 * i), 8)] | none => []
  match p with
  | .put => counts ++ (if kindOf d = 1 then ms.map fun m => (bkey m 4, 4) else [])
  | .take | .peek => counts ++ taken
  | .count => counts
  | .insert => counts ++ probed s m key
  | .find => (bkey m 8, 4) :: probed s m key ++ found
  | .delete => (bkey m 8, 4) :: probed s m key ++ found ++ (if found.isEmpty then [] else slots16 m [hdCount s m - 1])
  | .hinsert => (bkey b 8, 4) :: (bkey b 16, 4) :: slots16 b
      (if hdStamp s b = 0xFFFFFFFF then upTo n else upPath 16 n (entries s b ++ [heapEntry (signed 32 v) (hdStamp s b) 0]))
  | .hmin =>
    let l := entries s b
    (bkey b 8, 4) :: slots16 b (match l with
      | [] => []
      | [_] => [0]
      | _ :: y :: r => 0 :: (l.length - 1) :: downPath 16 0 (((y :: r).getLastD 0) :: (y :: r).dropLast))
  | .hpeek => (bkey b 8, 4) :: (if n = 0 then [] else slots16 b [0])
  | .bump => [(binKey ms ((v / 2 ^ bshiftOf d) &&& bmaskOf d), 4)]
  | .hadd => if bmaskOf d < v % 2 ^ 32 then [] else [(binKey ms (v % 2 ^ 32), 4)]
  | .bin i => [(binKey ms i, 4)]

/-- The address of a unit of 8 bytes of bank space. -/
def unitAddr (u : Nat) : Word := bankBase (u / 1024) + BitVec.ofNat 64 (u % 1024 * 8)

/-- The first poisoned unit that ranges of bank space touch, as its address (R408). -/
def badIn (s : State) (l : List (Nat × Nat)) : Option Word :=
  if s.bankPoison = [] then none else l.findSome? fun r => ((unitsOf 8 r.1 r.2).find? s.bankPoison.contains).map unitAddr

/-! ## EXCH pairs -/

/-- The bank whose bytes an access at an EXCH pair's even bank reaches (R154): the front, or the negative for the
stores of other parties. -/
def exchBank (s : State) (b : Nat) (negative : Bool) : Nat := if (s.bank b).flipped != negative then b + 1 else b

/-- The key of the first byte of a plain access at a bank (R154). `own`: the party is the owning core. -/
def plainKey (s : State) (own store : Bool) (b off : Nat) : Nat :=
  if kindOf (descOf s b) = 6 then bkey (exchBank s b (store && !own)) off else bkey b off

/-- A swap of an EXCH pair (R155). -/
def swapPair (b : Nat) (s : State) : State :=
  let keep := wf (descOf s b) 37 37 = 1
  let front := exchBank s b false
  let s := s.modBank b fun x => { x with flipped := !x.flipped }
  -- the new negative bank is the former front
  if keep then s else clearBank front s

/-! ## BGUISE -/

/-- A live element: key or priority or position, and value. -/
structure Elem where
  key : Int
  value : Nat
  deriving DecidableEq, Repr

/-- The live elements of a bank in structure order (R146), with their image bytes for fate a. -/
def liveOf (s : State) (b : Nat) : List Elem × List Nat :=
  let d := descOf s b
  let n := hdCount s b
  match kindOf d with
  | 1 => let l := (upTo n).map fun i => elemAt s d b ((hdHead s b + i) % capOf d)
         (l.mapIdx fun i (v : Nat) => ⟨i, v⟩, l)
  | 2 => let l := (upTo n).map fun i => elemAt s d b (n - 1 - i)
         (l.mapIdx fun i (v : Nat) => ⟨i, v⟩, l)
  | 3 => let l := entries s b
         (l.map fun e => ⟨(e % 2 ^ 64 : Nat), e / 2 ^ 64⟩, l)
  | 4 => let l := popAll n (entries s b)
         (l.map fun e => ⟨signed 32 e, e / 2 ^ 64⟩, l)
  | 5 => let l := ((upTo (bmaskOf d + 1)).map fun i => (i, bankRead s (bkey b (0x40 + 4 * i)) 4)).filter fun p => p.2 ≠ 0
         (l.map fun p => ⟨p.1, p.2⟩, l.map (·.2))
  | _ => ([], [])

/-- Fate a (R160): the live count at 0x00 and the elements packed from 0x40, or the bins at their own offsets. -/
def packArray (b : Nat) (old : Word) (live : List Elem) (raw : List Nat) (s : State) : State :=
  let s := bankWrite (bkey b 0) 8 live.length s
  let w := slotBytes old
  if kindOf old = 5 then live.foldl (fun s e => bankWrite (bkey b (0x40 + 4 * e.key.toNat)) 4 e.value s) s
  else (upTo raw.length).foldl (fun s i => bankWrite (bkey b (0x40 + w * i)) w (nth raw i) s) s

/-- One element inserted under R160: whether it was kept, whether it replaced an earlier one. -/
def convertOne (b : Nat) (old : Word) (e : Elem) (s : State) : Bool × Bool × State :=
  let d := descOf s b
  let ew := ewOf d
  let kw := kwOf d
  let fitsV : Bool := e.value < 2 ^ ew
  let ok (a : Answer × State) : Bool × Bool × State := if a.1.status = 0 then (true, false, a.2) else (false, false, s)
  let drop : Bool × Bool × State := (false, false, s)
  let fitsK (k : Nat) : Bool := k < 2 ^ kw
  let prioOk (p : Int) : Bool := -(2 ^ 31 : Nat) ≤ p && p < (2 ^ 31 : Nat)
  let ins (k v : Nat) : Bool × Bool × State :=
    if fitsK k && v < 2 ^ ew then
      let dup := (findKey s b k).isSome
      let (a, s') := mapInsert b k v s
      if a.status = 0 then (true, dup, s') else drop
    else drop
  let add (x : Nat) (n : Nat) : Bool × Bool × State := (true, false, (binAdd (bkey b (0x40 + 4 * x)) n s).2)
  match kindOf old, kindOf d with
  | 3, 3 => ins e.key.toNat e.value
  | 3, 4 => let p := signed (kwOf old) e.key.toNat
            if prioOk p && fitsV then ok (heapInsert b p e.value s) else drop
  | 3, 5 => add ((e.key.toNat / 2 ^ bshiftOf d) &&& bmaskOf d) e.value
  | 4, 3 => if -(2 ^ (kw - 1) : Nat) ≤ e.key && e.key < (2 ^ (kw - 1) : Nat) && fitsV then ins (wrap kw e.key) e.value else drop
  | 4, 4 => if fitsV then ok (heapInsert b e.key e.value s) else drop
  | 4, 5 => add ((wrap 64 e.key / 2 ^ bshiftOf d) &&& bmaskOf d) e.value
  | 5, 3 => ins e.key.toNat e.value
  | 5, 5 => add ((e.key.toNat * 2 ^ bshiftOf old / 2 ^ bshiftOf d) &&& bmaskOf d) e.value
  | _, 3 => ins e.value e.key.toNat
  | _, 4 => let p := signed (ewOf old) e.value
            if prioOk p && fitsV then ok (heapInsert b p e.value s) else drop
  | _, 5 => add ((e.value / 2 ^ bshiftOf d) &&& bmaskOf d) 1
  | _, _ => if fitsV && hdCount s b < capOf d then (true, false, putOne b e.value s) else drop

/-- What BGUISE reads of a bank (R157, R408): CONVERT the live elements, KEEP the header that it checks. -/
def guiseReads (s : State) (b : Nat) (mode : GuiseMode) (new : Word) : List (Nat × Nat) :=
  let d := descOf s b
  let n := min (hdCount s b) 8128
  let image (d : Word) : Bool := kindOf d != 0 && kindOf d != 6
  match mode with
  | .clear => []
  | .keep => if !image new then [] else (bkey b 0, 64) :: if kindOf new = 4 then slots16 b (upTo (min n 508)) else []
  | .convert => if !image d then [] else (bkey b 0, 24) :: match kindOf d with
      | 1 => (upTo n).map fun i => (slotKey d b ((hdHead s b + i) % capOf d), ewOf d / 8)
      | 2 => (upTo n).map fun i => (slotKey d b i, ewOf d / 8)
      | 5 => [(bkey b 0x40, 4 * (bmaskOf d + 1))]
      | _ => slots16 b (upTo (min n 508))

/-- CONVERT's pairings (R159). -/
def pairingOk (old new : Nat) : Bool :=
  match old, new with
  | 0, 0 => true
  | 1, n => n ≤ 5
  | 2, n => n ≤ 5
  | 3, 0 | 3, 3 | 3, 4 | 3, 5 => true
  | 4, n => n ≤ 5
  | 5, 0 | 5, 3 | 5, 5 => true
  | _, _ => false

/-- CONVERT's image and counts (R157, R160): inserted and dropped elements. Each live element is inserted in structure order. -/
def convertBank (b : Nat) (new : Word) (s : State) : Word × State :=
  let old := descOf s b
  if kindOf old = 0 then (0, s.modBank b fun x => { x with desc := new }) else
  let (live, raw) := liveOf s b
  let s := (clearBank b s).modBank b fun x => { x with desc := new, ages := [] }
  if kindOf new = 0 then (BitVec.ofNat 64 (live.length * 2 ^ 32), packArray b old live raw s) else
  let (ins, drops, s) := live.foldl
    (fun (p : Nat × Nat × State) e =>
      let (kept, dup, s) := convertOne b old e p.2.2
      if !kept then (p.1, p.2.1 + 1, s) else if dup then (p.1, p.2.1 + 1, s) else (p.1 + 1, p.2.1, s)) (0, 0, s)
  (BitVec.ofNat 64 (ins * 2 ^ 32 + drops), s)

/-- KEEP's header check against a descriptor (R157). -/
def keepOk (s : State) (b : Nat) (new : Word) : Bool :=
  let n := hdCount s b
  let reserved := bankRead s (bkey b 20) 44 == 0
  match kindOf new with
  | 0 => true
  | 6 => true
  | 1 => reserved && n ≤ capOf new && hdHead s b < capOf new && hdTail s b == (hdHead s b + n) % capOf new
  | 4 => reserved && n ≤ capOf new && (entries s b).all fun e => e / 2 ^ 32 % 2 ^ 32 ≤ hdStamp s b
  | 5 => reserved && n == 0
  | _ => reserved && n ≤ capOf new

/-- A descriptor with its arcade fields set. -/
def withLink (d : Word) (role link : Nat) : Word :=
  (d &&& ~~~ (BitVec.ofNat 64 (0x3FF * 2 ^ 38))) ||| BitVec.ofNat 64 (role * 2 ^ 38 + link * 2 ^ 40)

/-- A list of banks linked as an arcade, or freed when fewer than two remain (R161, R164). -/
def linkBanks (ms : List Nat) (s : State) : State :=
  match ms with
  | [] => s
  | [m] => s.modBank m fun x => { x with desc := withLink x.desc 0 0 }
  | _ => (upTo ms.length).foldl (fun s i =>
      let m := nth ms i
      let next := nth ms (if i + 1 = ms.length then 0 else i + 1)
      let role := if i = 0 then 1 else if i + 1 = ms.length then 3 else 2
      s.modBank m fun x => { x with desc := withLink x.desc role (next % 256) }) s

/-- A member detached from its arcade (R164). -/
def detachBank (b : Nat) (s : State) : State :=
  if inArcade s b then
    let ms := linkedFrom s 16 (leadOf s 16 b)
    let k := kindOf (descOf s b)
    let s := s.modBank b fun x => { x with desc := withLink x.desc 0 0 }
    let rest := ms.filter (· ≠ b)
    if k = 3 ∨ k = 5 then rest.foldl (fun s m => s.modBank m fun x => { x with desc := withLink x.desc 0 0 }) s
    else linkBanks rest s
  else s

/-- GEN increased in the descriptor and, where the bank has an image, in the header (R143, R157). -/
def bumpGen (b : Nat) (s : State) : State :=
  let s := s.modBank b fun x => { x with desc := x.desc + BitVec.ofNat 64 (2 ^ 48) }
  let d := descOf s b
  if kindOf d = 0 ∨ kindOf d = 6 then s else bankWrite (bkey b 12) 2 (wf d 63 48) s

end Sys2Proof.Machine
end

