-- ==== Sys2Proof/Machine/Cipher.lean ====
section
/-! DEFINITION. The standard functions that the spec names: SHAKE256 (R404, R413) and AES-256-XTS (R305). Their constants
and steps are those of the published standards (log entry 17). Byte strings are numbers, the first byte lowest. -/

namespace Sys2Proof.Machine

/-! ## SHAKE256 -/

/-- The rotation offsets, found by walking the 24 lanes other than the first: the t-th met, from (1, 0) on, turns by the t-th
triangular number, and from (x, y) the walk goes to (y, 2 x + 3 y). Keyed by x + 5 y. -/
def rhoTable : List (Nat × Nat) :=
  ((List.range 24).foldl (fun (r : List (Nat × Nat) × Nat × Nat) t =>
    let (l, x, y) := r
    ((x + 5 * y, (t + 1) * (t + 2) / 2 % 64) :: l, y, (2 * x + 3 * y) % 5)) ([], 1, 0)).1

/-- The turn of the lane at x + 5 y. -/
def rhoOf (i : Nat) : Nat := match rhoTable.find? fun p => p.1 = i with | some p => p.2 | none => 0

/-- A step of the shift register that makes the round constants: x^8 + x^6 + x^5 + x^4 + 1. -/
def iotaStep (r : Nat) : Nat := if r.testBit 7 then (2 * r) % 256 ^^^ 0x71 else 2 * r

/-- A round's constant from the register as it stands, and the register after the round's seven steps: step j gives bit
2^j - 1. -/
def iotaRound (r : Nat) : Nat × Nat :=
  (List.range 7).foldl (fun (p : Nat × Nat) j => (p.1 + p.2 % 2 * 2 ^ (2 ^ j - 1), iotaStep p.2)) (0, r)

/-- A lane of a state. -/
def laneAt (l : List (BitVec 64)) (x y : Nat) : BitVec 64 := l.getD (x % 5 + 5 * (y % 5)) 0

/-- A state made lane by lane. -/
def laneMap (f : Nat → Nat → BitVec 64) : List (BitVec 64) := (List.range 25).map fun i => f (i % 5) (i / 5)

/-- One round of Keccak-f[1600]: theta, rho and pi, chi, iota. -/
def keccakRound (l : List (BitVec 64)) (rc : BitVec 64) : List (BitVec 64) :=
  let col := (List.range 5).map fun x => laneAt l x 0 ^^^ laneAt l x 1 ^^^ laneAt l x 2 ^^^ laneAt l x 3 ^^^ laneAt l x 4
  let d := (List.range 5).map fun x => col.getD ((x + 4) % 5) 0 ^^^ (col.getD ((x + 1) % 5) 0).rotateLeft 1
  let t := laneMap fun x y => laneAt l x y ^^^ d.getD x 0
  -- the lane that comes to (x, y) stood at (x + 3 y, x)
  let b := laneMap fun x y => (laneAt t (x + 3 * y) x).rotateLeft (rhoOf ((x + 3 * y) % 5 + 5 * x))
  laneMap fun x y => (laneAt b x y ^^^ (~~~(laneAt b (x + 1) y) &&& laneAt b (x + 2) y)) ^^^ (if x = 0 ∧ y = 0 then rc else 0)

/-- Keccak-f[1600]: 24 rounds, the register running on from round to round. -/
def keccak (l : List (BitVec 64)) : List (BitVec 64) :=
  ((List.range 24).foldl (fun (p : List (BitVec 64) × Nat) _ =>
    let (rc, r) := iotaRound p.2
    (keccakRound p.1 (BitVec.ofNat 64 rc), r)) (l, 1)).1

/-- The first 64 bytes of SHAKE256 of n bytes, absorbed 136 at a time. -/
def shake256 (v n : Nat) : BitVec 512 :=
  let blocks := n / 136 + 1
  let m := v % 2 ^ (8 * n) + 0x1F * 2 ^ (8 * n) + 0x80 * 2 ^ (8 * (136 * blocks - 1))
  let l := (List.range blocks).foldl (fun (l : List (BitVec 64)) i =>
    keccak (laneMap fun x y => laneAt l x y ^^^ (if x + 5 * y < 17 then BitVec.ofNat 64 (m / 2 ^ (1088 * i + 64 * (x + 5 * y))) else 0)))
    (List.replicate 25 0)
  BitVec.ofNat 512 ((List.range 8).foldl (fun a i => a + (l.getD i 0).toNat * 2 ^ (64 * i)) 0)

/-! ## AES-256 -/

/-- Twice an element of GF(2^8). -/
def gfTwice (a : Nat) : Nat := if a < 128 then 2 * a else (2 * a) % 256 ^^^ 0x1B

/-- A product in GF(2^8). -/
def gfMul (a b : Nat) : Nat :=
  ((List.range 8).foldl (fun (r : Nat × Nat) i => (if b.testBit i then r.1 ^^^ r.2 else r.1, gfTwice r.2)) (0, a)).1

/-- The inverse of an element, its power 254; 0 for 0. -/
def gfInv (a : Nat) : Nat :=
  ((List.range 7).foldl (fun (r : Nat × Nat) _ => let q := gfMul r.2 r.2; (gfMul r.1 q, q)) (1, a)).1

/-- A byte turned left. -/
def turn8 (a n : Nat) : Nat := (a * 2 ^ n) % 256 ||| a / 2 ^ (8 - n)

/-- The substitution of a byte, and its inverse. -/
def subByte (a : Nat) : Nat := let x := gfInv a; x ^^^ turn8 x 1 ^^^ turn8 x 2 ^^^ turn8 x 3 ^^^ turn8 x 4 ^^^ 0x63
def unsubByte (a : Nat) : Nat := gfInv (turn8 a 1 ^^^ turn8 a 3 ^^^ turn8 a 6 ^^^ 0x05)

/-- Byte i of a list. -/
def byteAt (l : List Nat) (i : Nat) : Nat := l.getD i 0

/-- A number's bytes, lowest first, and back. -/
def toBytes (n v : Nat) : List Nat := (List.range n).map fun i => v / 2 ^ (8 * i) % 256
def ofBytes (l : List Nat) : Nat := l.foldr (fun b a => b + 256 * a) 0

/-- The key schedule: 60 words of four bytes from eight. -/
def expandKey (key : List Nat) : List (List Nat) :=
  (List.range 52).foldl (fun (ws : List (List Nat)) j =>
    let i := j + 8
    let t := ws.getD (i - 1) []
    let t := if i % 8 = 0 then
        let r := ((t.drop 1) ++ t.take 1).map subByte
        [byteAt r 0 ^^^ (List.range (i / 8 - 1)).foldl (fun a _ => gfTwice a) 1, byteAt r 1, byteAt r 2, byteAt r 3]
      else if i % 8 = 4 then t.map subByte else t
    ws ++ [(List.zip (ws.getD (i - 8) []) t).map fun p => p.1 ^^^ p.2]) ((List.range 8).map fun i => (key.drop (4 * i)).take 4)

/-- A round key's 16 bytes. -/
def roundKey (ws : List (List Nat)) (r : Nat) : List Nat := (List.range 4).flatMap fun i => ws.getD (4 * r + i) []

/-- Two blocks put together by exclusive or. -/
def xorBytes (a b : List Nat) : List Nat := (List.zip a b).map fun p => p.1 ^^^ p.2

/-- Rows turned: byte r + 4 c comes from column c + r, or c - r back. -/
def shiftRows (back : Bool) (l : List Nat) : List Nat :=
  (List.range 16).map fun i => byteAt l (i % 4 + 4 * ((i / 4 + (if back then 4 - i % 4 else i % 4)) % 4))

/-- Columns mixed by a row of the circulant matrix. -/
def mixColumns (m : List Nat) (l : List Nat) : List Nat :=
  (List.range 16).map fun i => (List.range 4).foldl (fun a j => a ^^^ gfMul (byteAt l (4 * (i / 4) + j)) (byteAt m ((j + 4 - i % 4) % 4))) 0

/-- One block encrypted under a key of 32 bytes. -/
def aesEncrypt (key block : List Nat) : List Nat :=
  let ws := expandKey key
  let x := (List.range 13).foldl (fun x r => xorBytes (mixColumns [2, 3, 1, 1] (shiftRows false (x.map subByte))) (roundKey ws (r + 1)))
    (xorBytes block (roundKey ws 0))
  xorBytes (shiftRows false (x.map subByte)) (roundKey ws 14)

/-- One block decrypted. -/
def aesDecrypt (key block : List Nat) : List Nat :=
  let ws := expandKey key
  let x := (List.range 13).foldl (fun x r => mixColumns [14, 11, 13, 9] (xorBytes ((shiftRows true x).map unsubByte) (roundKey ws (13 - r))))
    (xorBytes block (roundKey ws 14))
  xorBytes ((shiftRows true x).map unsubByte) (roundKey ws 0)

/-! ## XTS (R305) -/

/-- A tweak multiplied by alpha. -/
def tweakNext (t : Nat) : Nat := if t < 2 ^ 127 then 2 * t else (2 * t) % 2 ^ 128 ^^^ 0x87

/-- The mask of block j of a data unit, from the second half of the key. -/
def xtsMask (key : BitVec 512) (unit j : Nat) : Nat :=
  (List.range j).foldl (fun t _ => tweakNext t) (ofBytes (aesEncrypt (toBytes 32 (key.toNat / 2 ^ 256)) (toBytes 16 unit)))

/-- The key index's engine turns 16 bytes, block j of a data unit, into what the frame holds, and back. -/
def xtsEncrypt (key : BitVec 512) (unit j v : Nat) : Nat :=
  let m := xtsMask key unit j
  ofBytes (aesEncrypt (toBytes 32 key.toNat) (toBytes 16 (v ^^^ m))) ^^^ m
def xtsDecrypt (key : BitVec 512) (unit j v : Nat) : Nat :=
  let m := xtsMask key unit j
  ofBytes (aesDecrypt (toBytes 32 key.toNat) (toBytes 16 (v ^^^ m))) ^^^ m

end Sys2Proof.Machine
end

