-- ==== Sys2Proof/Machine/Translate.lean ====
section
/-! DEFINITION. Global memory: physical bytes, page walks (R349 to R352), TLBs (R353), the checks of R355, fault
records (R356 to R358), access counters (R359), the translation control block (R348) and invalidation (R354). -/

namespace Sys2Proof.Machine

/-! ## Physical places -/

/-- Where bytes live. -/
inductive Place where
  /-- Bank space, by key. -/
  | bank (key : Nat)
  | hbm (die pa : Nat)
  /-- A sealed frame of own HBM, as a tenant key reads and writes it (R305). -/
  | sealed (die pa : Nat) (key : BitVec 512)
  /-- Host memory, reached by the owning die. -/
  | host (die a : Nat)
  /-- A register of a die's translation control block. -/
  | ctl (die off : Nat)
  /-- A package's queue window, as a tenant reaches it (R334). -/
  | queue (pkg off : Nat) (tenant : Option (BitVec 16))
  deriving DecidableEq, Repr

/-- A die's HBM in bytes: 192 GiB (R303). -/
def hbmSize : Nat := 192 * 2 ^ 30

/-- The key of a physical byte of a die. -/
def hkey (die pa : Nat) : Nat := die * 2 ^ 52 + pa

/-! ## Sealed blocks (R305)

A block of 16 bytes is what the cipher turns as one. Its bytes stand in hbm as its own key reads them; through another key,
or none, it reads as what that key makes of the frame's contents. -/

/-- The data unit of a block: the die field over the number of its 512-byte granule, and its place there (log entry 17). -/
def sealUnit (j : Nat) : Nat × Nat := (j / 32, j % 32)

/-- A block as a key, or none, reads it. -/
def blockAs (s : State) (key : Option (BitVec 512)) (j : Nat) : Nat :=
  let p := readN s.hbm (16 * j) 16
  let old := find? s.seals j
  if old = key then p else
  let (u, i) := sealUnit j
  let raw := match old with | none => p | some k => xtsEncrypt k u i p
  match key with | none => raw | some k => xtsDecrypt k u i raw

/-- n bytes from a on as a key, or none, reads them. -/
def frameRead (s : State) (key : Option (BitVec 512)) (a n : Nat) : Nat :=
  if s.seals = [] ∧ key = none then readN s.hbm a n
  else ofBytes ((upTo n).map fun i => blockAs s key ((a + i) / 16) / 2 ^ (8 * ((a + i) % 16)) % 256)

/-- A block is from here on what a key, or none, has written. -/
def reseal (key : Option (BitVec 512)) (j : Nat) (s : State) : State :=
  if find? s.seals j = key then s else
  { s with
    hbm := writeN s.hbm (16 * j) 16 (blockAs s key j)
    seals := match key with | none => drop j s.seals | some k => put j k s.seals }

/-- n bytes from a on written under a key, or none: the rest of each block is read, merged and encrypted again. -/
def frameWrite (key : Option (BitVec 512)) (a n v : Nat) (s : State) : State :=
  let s := if s.seals = [] ∧ key = none ∨ n = 0 then s else (unitsOf 16 a n).foldl (fun s j => reseal key j s) s
  { s with
    hbm := writeN s.hbm a n v
    hbmPoison := if s.hbmPoison = [] then [] else s.hbmPoison.filter fun u => !(wholeUnits 64 a n).contains u }

/-- n bytes of a die's HBM, unencrypted. -/
def hbmRead (s : State) (die pa n : Nat) : Nat := frameRead s none (hkey die pa) n

/-- Whether n bytes touch a poisoned granule (R408). -/
def hbmBad (s : State) (die pa n : Nat) : Bool := n != 0 && (unitsOf 64 (hkey die pa) n).any fun u => s.hbmPoison.contains u

/-- n bytes of a die's HBM written, unencrypted; whole granules lose their poison (R408). -/
def hbmWrite (die pa n v : Nat) (s : State) : State := frameWrite none (hkey die pa) n v s

/-- The key that a sealed leaf names (R305, R406). -/
def keyAt (s : State) (die i : Nat) : BitVec 512 :=
  match (s.die die).keys.find? fun p => p.1 = i with | some (_, _, k) => k | none => Config.emptyKey die i

/-! ## Page tables -/

/-- A page-table entry's fields (R350). -/
def pteV (w : Word) : Bool := w.getLsbD 0
def pteLeaf (w : Word) : Bool := w.getLsbD 1
def pteR (w : Word) : Bool := w.getLsbD 2
def pteW (w : Word) : Bool := w.getLsbD 3
def pteX (w : Word) : Bool := w.getLsbD 4
def pteU (w : Word) : Bool := w.getLsbD 5
def pteCow (w : Word) : Bool := w.getLsbD 6
def pteSeal (w : Word) : Bool := w.getLsbD 7
def pteLoc (w : Word) : Nat := wf w 17 16
def pteCnt (w : Word) : Bool := w.getLsbD 18
def pteCont (w : Word) : Bool := w.getLsbD 19
def pteTransit (w : Word) : Bool := w.getLsbD 20
/-- KEY: the tenant key index of a sealed page. -/
def pteKey (w : Word) : Nat := wf w 15 8
/-- FRAME: physical address [51:12]. -/
def pteFrame (w : Word) : Nat := wf w 61 22

/-- Subcauses of R355. -/
def subNotValid : Nat := 1
def subMalformed : Nat := 2
def subTransit : Nat := 3
def subSealLoc : Nat := 4
def subUser : Nat := 5
def subWrite : Nat := 6
def subRead : Nat := 7
def subExec : Nat := 8
def subTableEcc : Nat := 9

/-- A leaf found by a walk: its entry, the bytes it maps, and its first offset. -/
structure Leaf where
  w : Word
  size : Nat
  base : Nat
  deriving DecidableEq, Repr

/-- Bytes that an entry of a level covers (R349). -/
def levelSize (lvl : Nat) : Nat := match lvl with | 0 => 2 ^ 39 | 1 => 2 ^ 30 | 2 => 2 ^ 21 | _ => 2 ^ 12

/-- Index bits of a level (R349). -/
def levelIndex (lvl off : Nat) : Nat := if lvl = 0 then field off 46 39 else off / levelSize lvl % 512

/-- A leaf entry malformed at its level (R350 to R352); a contiguous group is checked with its members. -/
def leafMalformed (lvl : Nat) (w : Word) (domain : Nat) : Bool :=
  lvl == 0 || (lvl == 2 && pteFrame w % 2 ^ 9 != 0) || (lvl == 1 && pteFrame w % 2 ^ 18 != 0) ||
  (pteCont w && lvl != 3) || (pteLoc w == 3 && pteFrame w != 0) ||
  (pteLoc w == 0 && hbmSize ≤ pteFrame w * 4096) ||
  (pteLoc w == 2 && (4 * domain ≤ pteFrame w / 2 ^ 30 || hbmSize ≤ pteFrame w % 2 ^ 30 * 4096))

/-- A contiguous group is consistent (R352): entry i has FRAME[3:0] = i and agrees with entry 0 elsewhere. -/
def groupOk (es : List Word) : Bool :=
  es.length == 16 && (upTo 16).all fun i =>
    let e := es.getD i 0
    pteFrame e % 16 == i && e &&& ~~~(BitVec.ofNat 64 (15 * 2 ^ 22)) == es.getD 0 0

/-- A walk from a table at physical address `table` of level `lvl` (R349, R355 steps 1 to 3). -/
def walkFrom (s : State) (die off : Nat) : Nat → Nat → Nat → Except Nat Leaf
  | 0, _, _ => .error subMalformed
  | fuel + 1, lvl, table =>
    let pa := table + 8 * levelIndex lvl off
    if hbmBad s die pa 8 then .error subTableEcc else
    let w : Word := BitVec.ofNat 64 (hbmRead s die pa 8)
    if !pteV w then .error subNotValid
    else if pteLeaf w then
      if pteCont w ∧ lvl = 3 then
        let first := table + 8 * (levelIndex lvl off / 16 * 16)
        if hbmBad s die first 128 then .error subTableEcc else
        let es := (upTo 16).map fun i => BitVec.ofNat 64 (hbmRead s die (first + 8 * i) 8)
        if groupOk es && es.all (fun e => !leafMalformed lvl e s.domain) then .ok ⟨es.getD 0 0, 2 ^ 16, off / 2 ^ 16 * 2 ^ 16⟩
        else .error subMalformed
      else if leafMalformed lvl w s.domain then .error subMalformed
      else .ok ⟨w, levelSize lvl, off / levelSize lvl * levelSize lvl⟩
    else if lvl = 3 ∨ wf w 21 2 ≠ 0 ∨ wf w 63 62 ≠ 0 ∨ hbmSize ≤ pteFrame w * 4096 then .error subMalformed
    else walkFrom s die off fuel (lvl + 1) (pteFrame w * 4096)

/-- A walk of an asid's offset at a die (R348 ROOT, R349). -/
def walk (s : State) (die : Nat) (asid : BitVec 16) (off : Nat) : Except Nat Leaf :=
  let root := (s.die die).root.toNat
  if root = 0 then .error subNotValid else
  let pa := root + 8 * asid.toNat
  if hbmBad s die pa 8 then .error subTableEcc else
  let top := hbmRead s die pa 8
  if top = 0 then .error subNotValid else walkFrom s die off 4 0 top

/-! ## TLBs -/

/-- Sets and ways of each pool (R353): classes 0 to 3 and the last level. -/
def poolShape (p : Nat) : Nat × Nat := match p with | 0 => (256, 8) | 1 => (128, 8) | 2 => (1, 512) | 3 => (128, 4) | _ => (8192, 16)

/-- An entry that translates an offset of an asid. -/
def TlbEntry.hits (e : TlbEntry) (asid : BitVec 16) (off : Nat) : Bool := e.asid == asid && off / e.size == e.base / e.size

/-- The set of a pool that holds a leaf: the low bits of its page's number (log entry 14). -/
def setOf (p : Nat) (e : TlbEntry) : Nat := e.base / e.size % (poolShape p).1

/-- Two entries hold one leaf, whatever their ways. -/
def TlbEntry.same (e x : TlbEntry) : Bool := e.asid == x.asid && e.base == x.base && e.size == x.size && e.leaf == x.leaf

/-- A pool replaces by tree pseudo-LRU (R353). -/
def treePool (p : Nat) : Bool := p == 0 || p == 4

/-- Levels of a set's tree. -/
def treeDepth (p : Nat) : Nat := if p = 0 then 3 else 4

/-- A set's tree after its way w was used: every node on the path points away from it. -/
def treeTouch (w : Nat) : Nat → Nat → Nat → Nat
  | 0, _, t => t
  | n + 1, node, t =>
    let right := w.testBit n
    let bit := 2 ^ node
    let t := if t.testBit node then t - bit else t
    treeTouch w n (2 * node + right.toNat) (if right then t else t + bit)

/-- The way that a set's tree points at. -/
def treeVictim (t : Nat) : Nat → Nat → Nat → Nat
  | 0, _, w => w
  | n + 1, node, w => let right := t.testBit node; treeVictim t n (2 * node + right.toNat) (2 * w + right.toNat)

/-- A pool, most recent first, after a hit (R353; log entry 14): class 2 does not reorder. -/
def touchPool (p : Nat) (l : List TlbEntry) (e : TlbEntry) : List TlbEntry := if p = 2 then l else e :: l.filter (· != e)

/-- The way that a fill takes: the lowest free one, else the tree's in a tree pool, else the least recent one's. -/
def fillWay (p tree : Nat) (l : List TlbEntry) : Nat :=
  match (upTo (poolShape p).2).find? fun w => l.all fun x => x.way != w with
  | some w => w
  | none => if treePool p then treeVictim tree (treeDepth p) 1 0 else match l.getLast? with | some x => x.way | none => 0

/-- A pool after a fill of way w (R353; log entry 14): in class 1 at recency position 1, where 0 is the set's least recent. -/
def fillPool (p w : Nat) (l : List TlbEntry) (e : TlbEntry) : List TlbEntry :=
  let inSet (x : TlbEntry) : Bool := setOf p x == setOf p e
  let e := { e with way := w }
  let l := l.filter fun x => !(inSet x && x.way == w)
  match (l.filter inSet).getLast? with
  | some x => if p = 1 then l.takeWhile (· != x) ++ e :: l.dropWhile (· != x) else e :: l
  | none => e :: l

/-- A pool of a die changed. -/
def modPool (die p : Nat) (f : List TlbEntry → List TlbEntry) (s : State) : State :=
  s.modDie die fun d => if h : p < 5 then { d with tlb := d.tlb.set p (f (d.tlb.get ⟨p, h⟩)) } else d

/-- The pool of a die. -/
def poolOf (s : State) (die p : Nat) : List TlbEntry := if h : p < 5 then (s.die die).tlb.get ⟨p, h⟩ else []

/-- A translation of an offset from the pools, then from a walk (R353). The Bool says that the walk found it. -/
def findLeaf (s : State) (die cls : Nat) (asid : BitVec 16) (off : Nat) : Except Nat (TlbEntry × Bool) :=
  match (poolOf s die cls).find? (·.hits asid off) with
  | some e => .ok (e, false)
  | none =>
    match (poolOf s die 4).find? (·.hits asid off) with
    | some e => .ok (e, false)
    | none => (walk s die asid off).map fun l => ({ asid := asid, base := l.base, size := l.size, leaf := l.w }, true)

/-- A set's tree after a use of a way. -/
def touchTree (die p set w : Nat) (s : State) : State :=
  if treePool p then
    s.modDie die fun d => { d with trees := put (8192 * p + set) (treeTouch w (treeDepth p) 1 (look 0 d.trees (8192 * p + set))) d.trees }
  else s

/-- A pool after an access used an entry: a hit, or a fill. -/
def usePool (die p : Nat) (e : TlbEntry) (s : State) : State :=
  let l := poolOf s die p
  match l.find? (·.same e) with
  | some x => touchTree die p (setOf p x) x.way (modPool die p (fun l => touchPool p l x) s)
  | none =>
    let w := fillWay p (look 0 (s.die die).trees (8192 * p + setOf p e)) (l.filter fun x => setOf p x == setOf p e)
    touchTree die p (setOf p e) w (modPool die p (fun l => fillPool p w l e) s)

/-- The pools after an access used an entry: a class pool that misses goes to the last level (R353). -/
def cache (die cls : Nat) (e : TlbEntry) (s : State) : State :=
  let s' := usePool die cls e s
  if (poolOf s die cls).any (·.same e) then s' else usePool die 4 e s'

/-! ## Requests and checks -/

/-- Who makes a request: the core and context (or queue) it acts for, its class, address space and privilege (R355). -/
structure Agent where
  core : Nat
  ctx : Nat
  queue : Nat
  cls : Nat
  asid : BitVec 16
  user : Bool
  host : Bool
  deriving DecidableEq, Repr

/-- The agent of a context's data accesses. -/
def agentOf (s : State) (k : Nat) (user : Bool) : Agent := ⟨coreOf k, ctxId k, 0, 0, (s.ctx k).asid, user, false⟩

/-- Kinds of R355. -/
def kindRead : Nat := 0
def kindWrite : Nat := 1
def kindRmw : Nat := 2
def kindExec : Nat := 3

/-- The first failing check of steps 4 to 9 of R355 on a leaf. -/
def leafFault (w : Word) (user : Bool) (kind : Nat) : Option Nat :=
  if pteTransit w then some subTransit
  else if pteSeal w ∧ pteLoc w ≠ 0 then some subSealLoc
  else if user ∧ ¬pteU w then some subUser
  else if (kind = 1 ∨ kind = 2) ∧ (¬pteW w ∨ pteCow w) then some subWrite
  else if (kind = 0 ∨ kind = 2) ∧ ¬pteR w then some subRead
  else if kind = 3 ∧ ¬pteX w then some subExec
  else none

/-- The cause of a translation fault (R355). -/
def faultCause (kind sub : Nat) : Byte :=
  if kind = 3 then causeFaultX else if kind = 1 ∨ (kind = 2 ∧ sub = subWrite) then causeFaultW else causeFaultR

/-- A host address lies in its package's queue window (R334). -/
def inQueueWindow (pkg a : Nat) : Option Nat :=
  match Config.queueWindow pkg with
  | some page => if 4096 * page ≤ a ∧ a < 4096 * page + 32 * 4096 then some (a - 4096 * page) else none
  | none => none

/-- Where a leaf places an offset (R305, R334, R349, R351), for a requester of a tenant. -/
def placeOf (s : State) (tenant : Option (BitVec 16)) (die : Nat) (e : TlbEntry) (off : Nat) : Place :=
  let pa := pteFrame e.leaf * 4096 + off % e.size
  match pteLoc e.leaf with
  | 0 => if pteSeal e.leaf then .sealed die pa (keyAt s die (pteKey e.leaf)) else .hbm die pa
  | 1 => match inQueueWindow (die / 4) pa with | some off => .queue (die / 4) off tenant | none => .host die pa
  | 2 => .hbm (pa / 2 ^ 42) (pa % 2 ^ 42)
  | _ => .ctl die (off % e.size)

/-- The die field and offset of a global address (R25). -/
def vaDie (a : Word) : Nat := wf a 56 47
def vaOff (a : Word) : Nat := wf a 46 0

/-- A translation's result: a place with its entry, or the subcause of the fault (R355). -/
def translate (s : State) (ag : Agent) (va : Word) (kind : Nat) : Except Nat (Place × TlbEntry) :=
  match findLeaf s (vaDie va) ag.cls ag.asid (vaOff va) with
  | .error e => .error e
  | .ok (e, _) =>
    match leafFault e.leaf ag.user kind with
    | some sub => .error sub
    | none => .ok (placeOf s (if ag.host then none else (s.core ag.core).tenant) (vaDie va) e (vaOff va), e)

/-! ## Access counters and hints (R359) -/

/-- An entry's counts after an access, and the count that rose. -/
def countAccess (die : Nat) (ag : Agent) (va : Word) (pa : Nat) (s : State) : State :=
  let d := s.die die
  let ct := d.ctbase.toNat
  if ct = 0 ∨ (!ag.host ∧ dieOf ag.core = die) then s else
  let at_ := ct + 16 * (pa / 2 ^ 16)
  let off := if ag.host then 8 else 2 * ag.cls
  let old := hbmRead s die (at_ + off) 2
  let new := min (old + 1) 0xFFFF
  let s := hbmWrite die (at_ + off) 2 new s
  let s := if ag.host then s else
    hbmWrite die (at_ + 10) 2 (hbmRead s die (at_ + 10) 2 / 1024 * 1024 + dieOf ag.core % 1024) s
  if old < d.cthr.toNat ∧ d.cthr.toNat ≤ new then
    if (d.htail - d.hhead).toNat = 2 ^ d.hsize then s.modDie die fun d => { d with hdrop := satInc d.hdrop 1 }
    else
      let at2 := d.hbase.toNat + 32 * (d.htail.toNat % 2 ^ d.hsize)
      let last := hbmRead s die (at_ + 10) 2 % 1024
      let s := hbmWrite die at2 8 va.toNat s
      let s := hbmWrite die (at2 + 8) 8 (ag.asid.toNat * 2 ^ 48 + last * 2 ^ 16 + ag.cls * 16) s
      let s := hbmWrite die (at2 + 16) 16 (hbmRead s die at_ 16) s
      let s := s.modDie die fun d => { d with htail := d.htail + 1 }
      msix die 1 s
  else s

/-- An access through a leaf that counts (R359). -/
def countLeaf (die : Nat) (ag : Agent) (va : Word) (p : Place) (e : TlbEntry) (s : State) : State :=
  if pteCnt e.leaf ∧ pteLoc e.leaf = 0 then (match p with | .hbm _ pa => countAccess die ag va pa s | .sealed _ pa _ => countAccess die ag va pa s | _ => s) else s

/-- No pool holds a translation that faulted (R353). -/
def dropLeaf (ag : Agent) (va : Word) (s : State) : State :=
  s.modDie (vaDie va) fun d => { d with tlb := d.tlb.map fun l => l.filter fun e => !e.hits ag.asid (vaOff va) }

/-! ## Waiter registries of dies (R126) -/

/-- The die whose registry serves a place, and the key of its words there. -/
def registryOf : Place → Nat × Nat
  | .bank k => (0, k)
  | .hbm d pa => (d, pa)
  | .sealed d pa _ => (d, pa)
  | .host d a => (d, 2 ^ 60 + a)
  | .ctl d o => (d, 2 ^ 61 + o)
  | .queue p o _ => (4 * p, 2 ^ 62 + o)

/-- A FADDT at a word of memory (R124): a crossing wakes every waiter registered on the word. -/
def wakeWordMem (p : Place) (s : State) : State :=
  let (d, key) := registryOf p
  let hit := (s.die d).waiters.filter fun r => r.addr = key
  if hit = [] then s else
  wakeAll none hit 0 (s.modDie d fun x => { x with waiters := x.waiters.filter fun r => r.addr ≠ key })

/-! ## Fault records (R356, R357) -/

/-- FHEAD: the number of the oldest unanswered record; FTAIL when none (R348). -/
def fhead (d : Die) : Half := match d.records with | r :: _ => BitVec.ofNat 32 r.num | [] => d.ftail

/-- The buffer has no room (R357). -/
def bufferFull (d : Die) : Bool := (d.ftail - fhead d).toNat == 2 ^ d.fsize

/-- A record written and announced (R356, R357). -/
def logFault (die : Nat) (w : FaultWait) (s : State) : State :=
  let d := s.die die
  let cause := faultCause w.kind w.sub
  let num := d.ftail.toNat
  let at_ := d.fbase.toNat + 32 * (num % 2 ^ d.fsize)
  let s := hbmWrite die at_ 8 w.va.toNat s
  let s := hbmWrite die (at_ + 8) 8 (w.asid.toNat * 2 ^ 48 + num) s
  let s := hbmWrite die (at_ + 16) 8 (w.core % 2 ^ 20 * 2 ^ 12 + w.ctx % 8 * 2 ^ 9 + w.queue % 8 * 2 ^ 6 + w.cls * 16) s
  let s := hbmWrite die (at_ + 24) 8 (cause.toNat * 2 ^ 8 + w.sub * 16 + w.kind) s
  let r : FaultRec := ⟨num, w.va, w.asid, cause, BitVec.ofNat 8 w.sub, BitVec.ofNat 4 w.kind⟩
  let s := s.modDie die fun d => { d with ftail := d.ftail + 1, records := d.records ++ [r] }
  let sig := d.fsig.toNat
  let s := if sig = 0 then s else
    let old : Word := BitVec.ofNat 64 (hbmRead s die sig 8)
    let s := hbmWrite die sig 8 (old + 1).toNat s
    if old.toInt < 1 ∧ 1 ≤ (old + 1).toInt then wakeWordMem (.hbm die sig) s else s
  msix die 0 s

/-- A waiting fault whose record another fault would join (R357). -/
def FaultWait.same (w v : FaultWait) : Bool :=
  w.asid == v.asid && w.va.toNat / 4096 == v.va.toNat / 4096 && faultCause w.kind w.sub == faultCause v.kind v.sub && w.sub == v.sub

/-- The number of a fault's record (R357): of the record that it joins, of the one written and announced, or, with the
buffer full, of the one that will be written when its turn comes. The latent record has it at once. -/
def recordFault (ag : Agent) (va : Word) (kind : Nat) (sub : Nat) (s : State) : Nat × State :=
  let die := vaDie va
  let d := s.die die
  let w : FaultWait := ⟨va, ag.asid, ag.core, ag.ctx, ag.queue, ag.cls, kind, sub⟩
  let noted (num : Nat) (s : State) : Nat × State := (num, latent die 0x03 8 0 va (BitVec.ofNat 64 num) s)
  match d.records.find? fun r => r.asid = ag.asid ∧ r.va.toNat / 4096 = va.toNat / 4096 ∧ r.cause = faultCause kind sub ∧ r.sub.toNat = sub with
  | some r => noted r.num s
  | none =>
    let next (i : Nat) : Nat := (d.ftail.toNat + i) % 2 ^ 32
    match d.faultWaits.findIdx? w.same with
    | some i => noted (next i) s
    | none =>
      if bufferFull d then noted (next d.faultWaits.length) (s.modDie die fun d => { d with faultWaits := d.faultWaits ++ [w] })
      else noted (next 0) (logFault die w s)

/-- Every number that a requester of a die may wait on: its records, and the faults that wait for room. -/
def faultNumbers (d : Die) : List Nat :=
  d.records.map (·.num) ++ (upTo d.faultWaits.length).map fun i => (d.ftail.toNat + i) % 2 ^ 32

/-- As slots free, the waiting faults are recorded in order of arrival (R357). -/
def admitFaults (die : Nat) (s : State) : State :=
  (s.die die).faultWaits.foldl (fun s w =>
    if bufferFull (s.die die) then s
    else logFault die w (s.modDie die fun d => { d with faultWaits := d.faultWaits.drop 1 })) s

/-! ## Answers (R289, R358) -/

/-- A requester's state after its record's answer. -/
def ReqState.answer (r : ReqState) (die num : Nat) (new : ReqState) : ReqState := if r = .suspended die num then new else r

/-- A chain's wait after its record's answer. -/
def ChainWait.answer (die num : Nat) (fail : Option TrapInfo) (w : ChainWait) : ChainWait :=
  if w = .suspended die num then (match fail with | none => .retry | some t => .failed t) else w

/-- A context's requests after an answer. A fetch's answer is made in `answerFetch`. -/
def Ctx.answer (die num : Nat) (new : ReqState) (c : Ctx) : Ctx :=
  { c with reqs := c.reqs.map fun r => { r with state := r.state.answer die num new } }

/-- A fetch stop answered (R282): REPLAY makes the context READY, REPLAY.FAIL takes FAULT.X. -/
def answerFetch (die num : Nat) (fail : Option TrapInfo) (k : Nat) (s : State) : State :=
  if (s.ctx k).fetchStop = some (die, num) then
    let s := s.modCtx k fun c => { c with fetchStop := none, status := c.rested }
    match fail with
    | none => s
    | some t => takeTrap { t with cause := causeFaultX, addr := (s.ctx k).pc } k s
  else s

/-- A table of chains after an answer. -/
def answerQueues (die num : Nat) (fail : Option TrapInfo) (q : List (Nat × Queue)) : List (Nat × Queue) :=
  q.map fun (p : Nat × Queue) => (p.1, { p.2 with chains := p.2.chains.map fun ch => { ch with wait := ch.wait.answer die num fail } })

/-- A table of cells after an answer. -/
def answerCells (die num : Nat) (new : ReqState) (l : List (Nat × Cell)) : List (Nat × Cell) :=
  l.map fun (p : Nat × Cell) => (p.1, { p.2 with ops := p.2.ops.map fun o => { o with state := o.state.answer die num new } })

/-- A table of cores after an answer. -/
def answerCores (die num : Nat) (new : ReqState) (l : List (Nat × CoreSt)) : List (Nat × CoreSt) :=
  l.map fun (p : Nat × CoreSt) => (p.1, { p.2 with drains := p.2.drains.map fun d => { d with state := d.state.answer die num new } })

/-- A table of contexts after an answer. -/
def answerCtxs (die num : Nat) (new : ReqState) (l : List (Nat × Ctx)) : List (Nat × Ctx) :=
  l.map fun (p : Nat × Ctx) => (p.1, p.2.answer die num new)

/-- A saved context's fetch stop after an answer (R282): it fetches again once restored, or takes FAULT.X. -/
def Ctx.answerStop (die num : Nat) (fail : Option TrapInfo) (c : Ctx) : Ctx :=
  if c.fetchStop = some (die, num) then
    { c with
      fetchStop := none, status := c.rested
      fetchFail := fail.map fun t => { t with cause := causeFaultX, addr := c.pc } }
  else c

/-- A saved image after an answer (R358). -/
def Saved.answer (die num : Nat) (fail : Option TrapInfo) (new : ReqState) (x : Saved) : Saved :=
  { x with
    ctxs := (answerCtxs die num new x.ctxs).map fun (p : Nat × Ctx) => (p.1, p.2.answerStop die num fail)
    queues := answerQueues die num fail x.queues
    cells := answerCells die num new x.cells
    cores := answerCores die num new x.cores }

/-- A launch after an answer. -/
def Launch.answer (die num : Nat) (fail : Option TrapInfo) (new : ReqState) (l : Launch) : Launch :=
  { l with
    phaseWrite := l.phaseWrite.answer die num new
    io := l.io.answer die num new
    saved := l.saved.map (Saved.answer die num fail new) }

/-- Every requester of a record answered: to retry, or to fail. Saved images are answered too (R358). -/
def answerWith (die num : Nat) (t : Option TrapInfo) (s : State) : State :=
  let new : ReqState := match t with | none => .retry | some t => .failed t
  let s : State := { s with
    ctxs := answerCtxs die num new s.ctxs
    queues := answerQueues die num t s.queues
    cells := answerCells die num new s.cells
    cores := answerCores die num new s.cores
    hostReqs := s.hostReqs.map fun (h : HostReq) => { h with state := h.state.answer die num new }
    launches := s.launches.map fun (p : Nat × Launch) => (p.1, p.2.answer die num t new) }
  s.ctxs.foldl (fun s p => answerFetch die num t p.1 s) s

/-- The same for a replay, or for a failure with the record's cause. -/
def answerOne (die : Nat) (fail : Bool) (r : FaultRec) (s : State) : State :=
  answerWith die r.num (if fail then some { cause := r.cause, sub := r.sub, addr := r.va } else none) s

/-- Records answered (R358): those selected leave the buffer, oldest first, and their requesters retry or fail. -/
def answerRecords (die : Nat) (sel : Nat → Bool) (fail : Bool) (s : State) : State :=
  let hit := (s.die die).records.filter fun r => sel r.num
  let s := s.modDie die fun d => { d with records := d.records.filter fun r => !sel r.num }
  hit.foldl (fun s r => answerOne die fail r s) s

/-- REPLAY of number n (R358). -/
def replayUpTo (die : Nat) (n : Half) (s : State) : State :=
  admitFaults die
    (latent die 0x04 8 0 (n.zeroExtend 64) 0 (answerRecords die (fun num => (n - BitVec.ofNat 32 num).toNat < 2 ^ 31) false s))

/-- REPLAY.FAIL of number n (R358). -/
def replayFailOne (die : Nat) (n : Half) (s : State) : State :=
  admitFaults die (latent die 0x04 8 0 (n.zeroExtend 64) 1 (answerRecords die (fun num => num == n.toNat) true s))

/-! ## The translation control block (R348) -/

/-- A register of a die's block, by offset. -/
def tcbRead (d : Die) (off : Nat) : Word :=
  match off with
  | 0x00 => d.root | 0x08 => d.fbase | 0x10 => BitVec.ofNat 64 d.fsize | 0x18 => d.ftail.zeroExtend 64
  | 0x20 => (fhead d).zeroExtend 64 | 0x28 => d.fsig | 0x48 => d.invdone.zeroExtend 64 | 0x50 => d.ctbase
  | 0x58 => d.cthr.zeroExtend 64 | 0x60 => d.hbase | 0x68 => BitVec.ofNat 64 d.hsize | 0x70 => d.htail.zeroExtend 64
  | 0x78 => d.hhead.zeroExtend 64 | 0x80 => d.hdrop.zeroExtend 64 | _ => 0

/-- A size field: 4 to 16; another value is not stored (R348). -/
def sizeField (old : Nat) (v : Word) : Nat := let n := wf v 4 0; if 4 ≤ n ∧ n ≤ 16 then n else old

/-- The plain registers of a die's block. -/
def tcbSet (off : Nat) (v : Word) (d : Die) : Die :=
  match off with
  | 0x00 => { d with root := v } | 0x08 => { d with fbase := v } | 0x10 => { d with fsize := sizeField d.fsize v }
  | 0x28 => { d with fsig := v } | 0x50 => { d with ctbase := v } | 0x58 => { d with cthr := v.truncate 16 }
  | 0x60 => { d with hbase := v } | 0x68 => { d with hsize := sizeField d.hsize v } | 0x78 => { d with hhead := v.truncate 32 }
  | _ => d

/-- An INV command (R354): asid, first offset, size; the offset is aligned to its size. -/
def invOf (v : Word) : Inval :=
  let size := match wf v 11 10 with | 0 => 2 ^ 12 | 1 => 2 ^ 21 | _ => 2 ^ 30
  let off := wf v 46 12 * 4096
  ⟨v.extractLsb' 48 16, off / size * size, size, wf v 11 10 == 3⟩

/-- A translation of a range (R354). -/
def Inval.covers (i : Inval) (e : TlbEntry) : Bool :=
  e.asid == i.asid && (i.whole || (e.base < i.base + i.size && i.base < e.base + e.size))

/-- An invalidation begins (R354): no pool holds the range from here on, and the switches' page bitmaps lose the
window pages it covers, also those whose answer is on its way (R399). -/
def startInval (die : Nat) (v : Word) (s : State) : State :=
  let i := invOf v
  let s := s.modDie die fun d => { d with
    tlb := d.tlb.map fun l => l.filter fun e => !i.covers e,
    invals := d.invals ++ [i] }
  let inside (a : Nat) : Bool := a / 2 ^ 47 == die && (i.whole || (i.base ≤ a % 2 ^ 47 && a % 2 ^ 47 < i.base + i.size))
  { s with
    unsealed := s.unsealed.filter fun p => !inside (p.2 * 4096)
    merges := s.merges.map fun (m : Merge) =>
      if inside (m.addr.toNat / 4096 * 4096) then { m with sent := m.sent.map fun x => (x.1, true) } else m }

/-- A write to a die's block (R348). -/
def tcbWrite (die off : Nat) (v : Word) (s : State) : State :=
  match off with
  | 0x30 => replayUpTo die (v.truncate 32) s
  | 0x38 => replayFailOne die (v.truncate 32) s
  | 0x40 => startInval die v s
  | 0x10 => admitFaults die (s.modDie die (tcbSet off v))
  | _ => s.modDie die (tcbSet off v)

/-! ## Queue windows (R334, R335) -/

def Qcb.tenant (x : Qcb) : BitVec 16 := x.ctl.extractLsb' 48 16
def Qcb.pmax (x : Qcb) : Nat := wf x.ctl 47 40
/-- SIZE runs from 1 to 15: 0 stands for 1 (log entry 83). -/
def Qcb.size (x : Qcb) : Nat := max 1 (wf x.ctl 39 36)
def Qcb.qasid (x : Qcb) : BitVec 16 := x.ctl.extractLsb' 20 16
def Qcb.en (x : Qcb) : Bool := x.ctl.getLsbD 0

/-- The key of a host work queue. -/
def qcbKey (pkg q : Nat) : Nat := 4096 * pkg + q

/-- A queue loses EN (R335, R403): event 0x0C and the package's vector. -/
def queueOff (pkg q : Nat) (arg : Half) (s : State) : State :=
  let s := s.modQcb (qcbKey pkg q) fun x => { x with ctl := x.ctl &&& ~~~ 1 }
  msix (4 * pkg) 3 (latent (4 * pkg) 0x0C 6 0 (BitVec.ofNat 64 q) (arg.zeroExtend 64) s)

/-- QUEUE_TAIL_WRITE (R335): the doorbell, or an overrun that clears EN. -/
def effTailWrite (pkg q : Nat) (v : Half) (s : State) : State :=
  let x := s.qcb (qcbKey pkg q)
  if 2 ^ x.size < (v - x.head).toNat then queueOff pkg q v s else s.modQcb (qcbKey pkg q) fun x => { x with tail := v }

/-- A register of a queue control block. -/
def qcbRead (x : Qcb) (word : Nat) : Word :=
  match word with | 0 => x.base | 1 => x.ctl | 2 => x.tail.zeroExtend 64 | _ => x.head.zeroExtend 64

/-- A register of a queue window as a tenant reads it: of a queue that is not its own it reads 0 (log entry 82). -/
def windowRead (s : State) (pkg : Nat) (tenant : Option (BitVec 16)) (off : Nat) : Word :=
  let x := s.qcb (qcbKey pkg (off / 32))
  if tenant = some x.tenant then qcbRead x (off / 8 % 4) else 0

/-- A tenant's write of a register of a queue window: TAIL of its own queues (R334; log entry 82). -/
def windowWrite (pkg : Nat) (tenant : Option (BitVec 16)) (off : Nat) (v : Word) (s : State) : State :=
  if tenant = some (s.qcb (qcbKey pkg (off / 32))).tenant ∧ off / 8 % 4 = 2 then effTailWrite pkg (off / 32) (v.truncate 32) s else s

/-! ## Bytes of any place -/

/-- Byte i of n bytes in registers of eight, from an offset on. -/
def regBytes (reg : Nat → Word) (off n : Nat) : Nat :=
  ofBytes ((upTo n).map fun i => (reg ((off + i) / 8 * 8)).toNat / 2 ^ (8 * ((off + i) % 8)) % 256)

/-- n bytes written to registers of eight, from an offset on, in rising order: each register is given its old bytes with the
written ones. -/
def writeRegs (reg : State → Nat → Word) (set : Nat → Word → State → State) (off n v : Nat) (s : State) : State :=
  (unitsOf 8 off n).foldl (fun s r =>
    let byte (i : Nat) : Nat :=
      let at_ := 8 * r + i
      if off ≤ at_ ∧ at_ < off + n then v / 2 ^ (8 * (at_ - off)) % 256 else (reg s (8 * r)).toNat / 2 ^ (8 * i) % 256
    set (8 * r) (BitVec.ofNat 64 (ofBytes ((upTo 8).map byte))) s) s

/-- n bytes of a place. -/
def placeRead (s : State) (p : Place) (n : Nat) : Nat :=
  match p with
  | .bank k => bankRead s k n
  | .hbm d a => hbmRead s d a n
  | .sealed d a key => frameRead s (some key) (hkey d a) n
  | .host _ a => readN s.hostMem a n
  | .ctl d o => regBytes (tcbRead (s.die d)) o n
  | .queue p o t => regBytes (windowRead s p t) o n

/-- Whether a read of a place meets poison (R408). -/
def placeBad (s : State) (p : Place) (n : Nat) : Bool :=
  match p with | .bank k => bankBad s k n | .hbm d a => hbmBad s d a n | .sealed d a _ => hbmBad s d a n | _ => false

/-- The address of the first poisoned unit that an access of n bytes at ea, which lie at a place, touches (R408). -/
def badUnit (s : State) (p : Place) (n : Nat) (ea : Word) : Word :=
  let unit (u key : Nat) (l : List Nat) : Word :=
    match (unitsOf u key n).find? l.contains with | some x => ea + BitVec.ofNat 64 (u * x) - BitVec.ofNat 64 key | none => ea
  match p with
  | .bank k => unit 8 k s.bankPoison
  | .hbm d a => unit 64 (hkey d a) s.hbmPoison
  | .sealed d a _ => unit 64 (hkey d a) s.hbmPoison
  | _ => ea

/-- n bytes written at a place; registers are given the written bytes. -/
def placeWrite (p : Place) (n v : Nat) (s : State) : State :=
  match p with
  | .bank k => bankWrite k n v s
  | .hbm d a => hbmWrite d a n v s
  | .sealed d a key => frameWrite (some key) (hkey d a) n v s
  | .host _ a => { s with hostMem := writeN s.hostMem a n v }
  | .ctl d o => writeRegs (fun s => tcbRead (s.die d)) (tcbWrite d) o n v s
  | .queue p o t => writeRegs (fun s => windowRead s p t) (windowWrite p t) o n v s

end Sys2Proof.Machine
end

