-- ==== Sys2Proof/Machine/Operands.lean ====
section
/-! DEFINITION. What each slot instruction reads and writes: scalar registers and tile rows, whether it is a memory
operation (R238) and whether it is never deferred (R234). Pending state over them (R27, R28, R236, R247). -/

namespace Sys2Proof.Machine

/-- The registers of an instruction. Rows are (tile as named, row). -/
structure Info where
  src : List SReg := []
  dst : List SReg := []
  rsrc : List (TReg × Nat) := []
  rdst : List (TReg × Nat) := []
  /-- A memory operation of R238. -/
  mem : Bool := false
  /-- Never deferred (R234). -/
  never : Bool := false
  deriving DecidableEq, Repr

/-- The row numbers that a row field names (R71). -/
def rowsOf (r : Rows) : List Nat := if r.w then upTo 16 else [r.row.toNat]

/-- A tile's named rows. -/
def rowsAt (t : TReg) (l : List Nat) : List (TReg × Nat) := l.map fun i => (t, i)

/-- Rows 0 to 15 of a tile. -/
def wholeTile (t : TReg) : List (TReg × Nat) := rowsAt t (upTo 16)

/-- The register after d, in a pair (R13). -/
def hiReg (d : SReg) : SReg := d + 1

/-- n consecutive registers from d. -/
def regRun (d : SReg) (n : Nat) : List SReg := (upTo n).map fun i => d + BitVec.ofNat 5 i

/-- A slot B scalar form with two sources. -/
def info2 (d a b : SReg) : Info := { src := [a, b], dst := [d] }
/-- A slot B scalar form with one source. -/
def info1 (d a : SReg) : Info := { src := [a], dst := [d] }
/-- A row form with two source tiles. -/
def infoRow (d a b : TReg) (r : Rows) : Info := { rsrc := rowsAt a (rowsOf r) ++ rowsAt b (rowsOf r), rdst := rowsAt d (rowsOf r) }
/-- A row form with one source tile. -/
def infoRow1 (d a : TReg) (r : Rows) : Info := { rsrc := rowsAt a (rowsOf r), rdst := rowsAt d (rowsOf r) }
/-- A row form that reads its destination too; sources stand in the order dT, aT, bT (R168). -/
def infoRowD (d a b : TReg) (r : Rows) : Info :=
  { rsrc := rowsAt d (rowsOf r) ++ rowsAt a (rowsOf r) ++ rowsAt b (rowsOf r), rdst := rowsAt d (rowsOf r) }
/-- An AMO. -/
def infoAmo (d a : SReg) : Info := { src := [a, d], dst := [d], mem := true }
/-- A PMOV. -/
def infoPmov (v : PortVal) : Info := { src := (match v with | .reg a => [a] | .imm _ => []), mem := true }
/-- A never-deferred slot A form. -/
def infoSys (src dst : List SReg) : Info := { src := src, dst := dst, never := true }

/-- Rows of the mantissa tile of a W = 1 pack or unpack: 1, 2 or 4 rows hold 16 blocks (R178). -/
def packRows (m : BitVec 4) : Nat := containerBits m.toNat / 2

/-- The tiles of a group (R190). -/
def groupTiles (a : TReg) (g : GroupSize) : List TReg := (upTo g.tiles).map fun i => a + BitVec.ofNat 4 i

/-- The rows that a TLDX descriptor selects (R132). -/
def maskRows (desc : Word) : List Nat := (upTo 16).filter fun i => desc.getLsbD (32 + i)

/-- The registers of an instruction. `desc` is the value of TLDX's descriptor register. -/
def infoOf (desc : Word) : Instr → Info
  | .jr d a => infoSys [a] [d]
  | .ret => infoSys [30] []
  | .call _ => infoSys [] [30]
  | .loop _ _ a => infoSys [a] []
  | .br _ | .bc .. | .bpend .. | .bnpend .. | .loopi .. | .lbrk => infoSys [] []
  | .ld d a _ _ => { src := [a], dst := [d], mem := true }
  | .ldAcq d a _ _ _ _ => { src := [a], dst := [d], mem := true }
  | .st d a _ _ => { src := [a, d], mem := true }
  | .stRel d a _ _ _ => { src := [a, d], mem := true }
  | .ldp d a _ => { src := [a], dst := [d, hiReg d], mem := true }
  | .ldpAcq d a _ _ => { src := [a], dst := [d, hiReg d], mem := true }
  | .stp d a _ => { src := [a, d, hiReg d], mem := true }
  | .stpRel d a _ _ => { src := [a, d, hiReg d], mem := true }
  | .lds d a _ k _ => { src := [a], dst := [d, k], mem := true }
  | .sts d a _ k _ => { src := [a, d], dst := [k], mem := true }
  | .xch d a _ _ => infoAmo d a
  | .xchS d a _ k _ => { src := [a, d], dst := [d, k], mem := true }
  | .cas d a _ _ => { src := [a, d, hiReg d], dst := [d], mem := true }
  | .aadd d a _ _ _ _ | .aand d a _ _ _ _ | .aor d a _ _ _ _ | .axor d a _ _ _ _ => infoAmo d a
  | .amaxs d a _ _ _ _ | .amins d a _ _ _ _ | .amaxu d a _ _ _ _ | .aminu d a _ _ _ _ => infoAmo d a
  | .afadd d a _ _ _ | .afmax d a _ _ _ | .afmin d a _ _ _ => infoAmo d a
  | .red d a _ _ _ _ _ => { src := [a, d], mem := true }
  | .faddt d a _ _ => { src := [a, d, hiReg d], dst := [d], mem := true }
  | .waitw d a _ => { src := [a, d, hiReg d], dst := [d], never := true }
  | .scld d a _ _ => { src := [a], dst := [d], mem := true }
  | .scst d a _ _ => { src := [a, d], mem := true }
  | .scx d a _ _ => infoAmo d a
  | .fence .. => { mem := true }
  | .tld t a r _ => { src := [a], rdst := rowsAt t (rowsOf r), mem := true }
  | .tst t a r _ => { src := [a], rsrc := rowsAt t (rowsOf r), mem := true }
  | .tstB t a r _ => { src := [a], rsrc := rowsAt t (rowsOf r), mem := true }
  | .tldx t a b => { src := [a, b], rdst := rowsAt t (maskRows desc), mem := true }
  | .bguiseClear d a _ | .bguiseKeep d a _ | .bguiseConvert d a _ => infoSys [a] [d]
  | .bdesc d _ => infoSys [] [d]
  | .arcade d a b => infoSys [a, b] [d]
  | .arcadeDis d a => infoSys [a] [d]
  | .barArrive d b _ _ _ => infoSys [b] [d]
  | .barWait a _ => infoSys [a] []
  | .barSync d b _ _ _ => infoSys [b] [d]
  | .barDepart _ | .gang => infoSys [] []
  | .fork d a _ mask | .forkTry d a _ mask =>
    let on := (upTo 3).filter fun i => mask.getLsbD i
    infoSys (on.map fun i => a + BitVec.ofNat 5 i) (on.map fun i => d + BitVec.ofNat 5 i)
  | .rendez d => infoSys [] [d]
  | .chain d a b _ _ | .chainTry d a b _ _ => infoSys [a] [d, b]
  | .pmovPsel v | .pmovGain v | .pmovXscl v | .pmovWscl v | .pmovYout v => infoPmov v
  | .pmovXin t row => { rsrc := [(t, row.toNat), (t, row.toNat + 1)], mem := true }
  | .pmovExpose => infoSys [] []
  | .pmovWrow t a row => { src := [a], rsrc := [(t, row.toNat), (t, row.toNat + 1)], mem := true }
  | .pmovWgo | .pmovRefix => { mem := true }
  | .pmovStat d => { dst := [d], mem := true }
  | .pmovCalwWrite d a => { src := [d, a], mem := true }
  | .pmovCalwRead d a => { src := [a], dst := [d], mem := true }
  | .trayq d | .trayqStop d => infoSys [] [d]
  | .trayqDep d _ => infoSys [] [d]
  | .trayqLand a => infoSys [a] []
  | .traydrain | .detach | .attach _ => infoSys [] []
  | .follow a _ => infoSys [a] []
  | .rdtime d => infoSys [] [d]
  | .waitt a => infoSys [a] []
  | .wsplit d => infoSys [] [d]
  | .wreturn a | .wsplitAdd a => infoSys [a] []
  | .nred d a b _ op => infoSys [a, b] (if op = .maxkey then [d, hiReg d] else [d])
  | .nredMergek t u row _ => { rsrc := [(u, row.toNat)], rdst := [(t, row.toNat)], never := true }
  | .spill d n => { src := 31 :: regRun d (n.toNat + 1), dst := [31], mem := true }
  | .fill d n => { src := [31], dst := 31 :: regRun d (n.toNat + 1), mem := true }
  | .csrr d _ => infoSys [] [d]
  | .csrw d a _ | .csrs d a _ | .csrc d a _ => infoSys [a] [d]
  | .trap a _ | .break_ a _ => infoSys [a] []
  | .eret | .eretU => infoSys [] []
  | .eretTo a | .wfi a => infoSys [a] []
  | .replay a b | .replayFail a b => infoSys [a, b] []
  | .movi d _ => { dst := [d] }
  | .add _ d a b _ | .sub _ d a b _ | .mul _ d a b _ => info2 d a b
  | .addi _ d a _ => info1 d a
  | .mulh _ d a b | .mulhU _ d a b | .mulhSu _ d a b => info2 d a b
  | .div _ d a b _ _ | .rem _ d a b _ _ => info2 d a b
  | .and_ _ d a b | .or_ _ d a b | .xor_ _ d a b | .andn _ d a b => info2 d a b
  | .shl _ d a b _ | .shr _ d a b _ | .sra _ d a b _ | .rot _ d a b _ => info2 d a b
  | .shlImm _ d a _ _ | .shrImm _ d a _ _ | .sraImm _ d a _ _ | .rotImm _ d a _ _ => info1 d a
  | .clz _ d a _ | .ctz _ d a _ | .popc _ d a _ | .rev _ d a _ => info1 d a
  | .min_ _ d a b _ | .max_ _ d a b _ | .minu _ d a b _ | .maxu _ d a b _ => info2 d a b
  | .cmp _ _ a b _ => { src := [a, b], never := true }
  | .sel _ d a b _ _ => info2 d a b
  | .ext _ d a _ => info1 d a
  | .bfx _ d a b _ => info2 d a b
  | .bfi _ d a b => { src := [a, b, d], dst := [d] }
  | .lea _ d a b _ => info2 d a b
  | .cond .. => { never := true }
  | .fadd _ d a b | .fsub _ d a b | .fmul _ d a b => info2 d a b
  | .ffma _ d a b c => { src := [a, b, c], dst := [d] }
  | .fmin _ d a b | .fmax _ d a b => info2 d a b
  | .fcmp _ _ a b _ => { src := [a, b], never := true }
  | .fcvt _ d a _ _ => info1 d a
  | .fclass _ d a => info1 d a
  | .vadd _ d a b r _ | .vsub _ d a b r _ | .vmul _ d a b r _ | .vmin _ d a b r _ | .vmax _ d a b r _ => infoRow d a b r
  | .vfma _ d a b r _ => infoRowD d a b r
  | .vabs _ d a r _ | .vneg _ d a r _ | .vnabs _ d a r _ => infoRow1 d a r
  | .vlogic _ d a b r op => if op = .not then infoRow1 d a r else infoRow d a b r
  | .vshift _ d a b r _ => infoRow d a b r
  | .vcmp _ d a b r _ _ => infoRow d a b r
  | .vsel _ d a b r _ => infoRowD d a b r
  | .vcvt _ d a _ r _ => infoRow1 d a r
  | .vpack _ d a b r _ =>
    if r.w then { rsrc := wholeTile a, rdst := wholeTile d ++ [(b, 0)] }
    else { rsrc := rowsAt a (rowsOf r), rdst := rowsAt d (rowsOf r) ++ rowsAt b (rowsOf r) }
  | .vunpk _ d a b r m =>
    if r.w then { rsrc := rowsAt a (upTo (packRows m)) ++ [(b, 0)], rdst := wholeTile d }
    else { rsrc := rowsAt a (rowsOf r) ++ rowsAt b (rowsOf r), rdst := rowsAt d (rowsOf r) }
  | .vred _ d a _ r _ => { rsrc := rowsAt a (rowsOf r), dst := [d] }
  | .vbcast _ d a r _ => { src := [a], rdst := rowsAt d (rowsOf r) }
  | .vscale _ d a b r _ => infoRow d a b r
  | .vexp2 _ d a r _ | .vlog2 _ d a r _ | .vrcp _ d a r _ | .vrsqrt _ d a r _ => infoRow1 d a r
  | .vperm _ d a b r _ => infoRow d a b r
  | .vscan _ d a _ r _ => infoRow1 d a r
  | .vsrch _ d a b r _ => infoRow d a b r
  | .vmix _ d a b r _ => infoRow d a b r
  | .viota _ d a _ _ r _ => { src := [a], rdst := rowsAt d (rowsOf r) }
  | .tmov _ d a r => infoRow1 d a r
  | .tzero _ d r => { rdst := rowsAt d (rowsOf r) }
  | .ttrans _ d a _ => { rsrc := wholeTile a, rdst := wholeTile d }
  | .topk _ d a b _ g _ => { rsrc := (groupTiles a g).flatMap wholeTile, rdst := wholeTile d ++ wholeTile b }
  | .tcolred _ d a _ row _ => { rsrc := wholeTile a, rdst := [(d, row.toNat)] }
  | .tfix _ d a r _ => infoRow1 d a r
  | .tbndRd _ d a row _ => { rsrc := [(a, row.toNat)], dst := [d] }
  | .tbndSet _ d a r _ => { src := [a], rsrc := rowsAt d (rowsOf r), rdst := rowsAt d (rowsOf r) }
  | .mma _ d a b => { src := [d, a, hiReg a, b, hiReg b], never := true }
  | .mzero _ => { never := true }
  | .mdrain _ d a => { src := [a, hiReg a], dst := [d], never := true }
  | .rleave .. => { rsrc := [(15, 0)], never := true }
  | _ => {}

/-- The guard of a slot B instruction (R69). -/
def guardOf : Instr → Option Guard
  | .add g .. | .sub g .. | .addi g .. | .mul g .. | .mulh g .. | .mulhU g .. | .mulhSu g .. | .div g .. | .rem g .. => some g
  | .and_ g .. | .or_ g .. | .xor_ g .. | .andn g .. | .shl g .. | .shlImm g .. | .shr g .. | .shrImm g .. => some g
  | .sra g .. | .sraImm g .. | .rot g .. | .rotImm g .. | .clz g .. | .ctz g .. | .popc g .. | .rev g .. => some g
  | .min_ g .. | .max_ g .. | .minu g .. | .maxu g .. | .cmp g .. | .sel g .. | .ext g .. | .bfx g .. | .bfi g .. => some g
  | .lea g .. | .cond g .. | .fadd g .. | .fsub g .. | .fmul g .. | .ffma g .. | .fmin g .. | .fmax g .. | .fcmp g .. => some g
  | .fcvt g .. | .fclass g .. | .vadd g .. | .vsub g .. | .vmul g .. | .vfma g .. | .vmin g .. | .vmax g .. => some g
  | .vabs g .. | .vneg g .. | .vnabs g .. | .vlogic g .. | .vshift g .. | .vcmp g .. | .vsel g .. | .vcvt g .. => some g
  | .vpack g .. | .vunpk g .. | .vred g .. | .vbcast g .. | .vscale g .. | .vexp2 g .. | .vlog2 g .. | .vrcp g .. => some g
  | .vrsqrt g .. | .vperm g .. | .vscan g .. | .vsrch g .. | .vmix g .. | .viota g .. | .tmov g .. | .tzero g .. => some g
  | .ttrans g .. | .topk g .. | .tcolred g .. | .tfix g .. | .tbndRd g .. | .tbndSet g .. | .mma g .. | .mzero g => some g
  | .mdrain g .. | .rleave g .. => some g
  | _ => none

/-- A guard is open: ReadC(g) XOR gn (R70). -/
def guardPass (g : Guard) (c : Ctx) : Bool := c.rdC g.c != g.neg

/-- A slot whose guard is false does nothing (R70). -/
def guardOpen (i : Instr) (c : Ctx) : Bool := match guardOf i with | some g => guardPass g c | none => true

/-- A row instruction, which goes through the dispatch queue (R194): OPB 0x20 to 0x46. -/
def isRowInstr : Instr → Bool
  | .vadd .. | .vsub .. | .vmul .. | .vfma .. | .vmin .. | .vmax .. | .vabs .. | .vneg .. | .vnabs .. | .vlogic .. => true
  | .vshift .. | .vcmp .. | .vsel .. | .vcvt .. | .vpack .. | .vunpk .. | .vred .. | .vbcast .. | .vscale .. => true
  | .vexp2 .. | .vlog2 .. | .vrcp .. | .vrsqrt .. | .vperm .. | .vscan .. | .vsrch .. | .vmix .. | .viota .. => true
  | .tmov .. | .tzero .. | .ttrans .. | .topk .. | .tcolred .. | .tfix .. | .tbndRd .. | .tbndSet .. => true
  | _ => false

/-- A PMOV (R219). -/
def isPmov : Instr → Bool
  | .pmovPsel .. | .pmovXin .. | .pmovGain .. | .pmovXscl .. | .pmovWscl .. | .pmovYout .. | .pmovExpose | .pmovWrow .. => true
  | .pmovWgo | .pmovRefix | .pmovStat .. | .pmovCalwWrite .. | .pmovCalwRead .. => true
  | _ => false

/-- A never-deferred form that reaches memory or engines (R239). -/
def reaches : Instr → Bool
  | .barArrive .. | .barWait .. | .barSync .. | .barDepart .. | .chain .. | .chainTry .. | .fork .. | .forkTry .. => true
  | .rendez .. | .waitw .. | .bguiseClear .. | .bguiseKeep .. | .bguiseConvert .. | .bdesc .. | .arcade .. | .arcadeDis .. => true
  | .wsplit .. | .wreturn .. | .wsplitAdd .. | .pmovExpose => true
  | _ => false

/-! ## Pending state -/

/-- The key of a named row; none when the tile is outside the context's range (R14). -/
def keyOf (s : State) (k : Nat) (c : Ctx) (p : TReg × Nat) : Option Nat := (tileOf s k c p.1.toNat).map fun t => rowKey t p.2

/-- The keys of named rows. -/
def keysOf (s : State) (k : Nat) (c : Ctx) (l : List (TReg × Nat)) : List Nat := l.filterMap (keyOf s k c)

/-- A TLDX descriptor that selects every row: it stands for one that is not known yet. -/
def everyRow : Word := BitVec.ofNat 64 (0xFFFF * 2 ^ 32)

/-- The registers of a closure. A TLDX whose descriptor is still read by name may write any row of its tile. -/
def Closure.info (cl : Closure) : Info :=
  infoOf (match cl.instr with | .tldx _ _ b => if b = 0 then 0 else if cl.byName.contains b then everyRow else cl.s.get b.toFin | _ => 0) cl.instr

/-- A closure writes sn. -/
def Closure.writes (cl : Closure) (r : SReg) : Bool := r != 0 && cl.info.dst.contains r

/-- sn is pending: on an issued operation or on a closure of the tray (R27, R236), or one that a kill discarded (R249). -/
def Ctx.pendingAll (c : Ctx) (r : SReg) : Bool := c.pending r || (c.tray ++ c.lost).any (·.writes r)

/-- A closure that reads registers by name which its bundle's slot A is about to write: it takes their values, and their
poison, as they stand (R60). -/
def Closure.fixAt (y : Closure) (dst : List SReg) (c : Ctx) : Closure :=
  let rs := y.byName.filter dst.contains
  { y with
    byName := y.byName.filter fun r => !dst.contains r
    s := rs.foldl (fun (v : Vector Word 32) r => v.set r.toNat (c.rd r) r.isLt) y.s
    bad := y.bad ++ c.poison.filter fun p => rs.any fun r => r.toNat == p.1 }

/-- A closure leaves the tray to write its result: its bundle's slot B, still held, reads as before the bundle (R60). -/
def fixMate (cl : Closure) (c : Ctx) : Ctx :=
  { c with tray := c.tray.map fun y => if y.mate = some cl.age then y.fixAt cl.info.dst c else y }

/-- The pending bit that an instruction honours: a handler passes over frozen closures (R247). -/
def Ctx.waits (c : Ctx) (r : SReg) : Bool := if c.h then c.pending r else c.pendingAll r

/-- The value of TLDX's descriptor register in a context; while it is pending, the instruction may name any row. -/
def descArg (c : Ctx) (i : Instr) : Word := match i with | .tldx _ _ b => if c.waits b then everyRow else c.rd b | _ => 0

/-- The registers of an instruction in a context. -/
def infoIn (c : Ctx) (i : Instr) : Info := infoOf (descArg c i) i

/-- A row is pending on an issued operation (R27). -/
def rowPending (s : State) (core key : Nat) : Bool := ((s.core core).row key).pend != 0

/-- A closure writes a row. -/
def Closure.writesRow (s : State) (k : Nat) (c : Ctx) (cl : Closure) (key : Nat) : Bool :=
  (keysOf s k c cl.info.rdst).contains key

/-- The pending bit of a row that an instruction of a context honours (R27, R236, R247). -/
def rowWaits (s : State) (k : Nat) (c : Ctx) (key : Nat) : Bool :=
  rowPending s (coreOf k) key || (!c.h && (c.tray ++ c.lost).any fun cl => cl.writesRow s k c key)

/-- A row that an instruction which is never deferred will write and that an older closure reads or writes (R239). -/
def rowHeld (s : State) (k : Nat) (c : Ctx) (key : Nat) : Bool :=
  rowWaits s k c key || (!c.h && c.tray.any fun cl => (keysOf s k c cl.info.rsrc).contains key)

/-- An instruction waits on a register or row (R28). -/
def waitsOn (s : State) (k : Nat) (c : Ctx) (i : Instr) : Bool :=
  let n := infoIn c i
  n.src.any c.waits || n.dst.any c.waits || (keysOf s k c n.rsrc).any (rowWaits s k c) || (keysOf s k c n.rdst).any (rowWaits s k c)

/-- A closure must wait behind an older closure C (R237): it writes a register that C reads by name or writes, or
it reads a register that C writes, which is then pending. -/
def behindOf (s : State) (k : Nat) (c : Ctx) (n : Info) (cl : Closure) : Bool :=
  let o := cl.info
  let rs := keysOf s k c n.rsrc
  let rd := keysOf s k c n.rdst
  let os := keysOf s k c o.rsrc
  let od := keysOf s k c o.rdst
  n.dst.any (fun r => r != 0 && (cl.byName.contains r || o.dst.contains r)) || n.src.any (fun r => r != 0 && o.dst.contains r) ||
  rd.any (fun x => os.contains x || od.contains x) || rs.any od.contains

/-- Ages of the older closures that an instruction stands behind (R237, R238). -/
def behindAges (s : State) (k : Nat) (c : Ctx) (i : Instr) : List Nat :=
  let n := infoIn c i
  let dep := c.tray.filter (behindOf s k c n)
  let mem := if n.mem then (c.tray.filter fun cl => cl.info.mem) else []
  (dep ++ mem).map (·.age)

end Sys2Proof.Machine
end

