-- ==== Sys2Proof/Machine/Csr.lean ====
section
/-! DEFINITION. Control registers: their table (R19), their layouts (R20 to R24, R199) and reading and writing them
(R284). -/

namespace Sys2Proof.Machine

/-- The access codes of R19. -/
inductive CsrAcc where
  /-- Everyone reads and writes. -/
  | rw
  /-- User reads; supervisor reads and writes. -/
  | ur
  /-- Everyone reads. -/
  | ro
  /-- Supervisor only. -/
  | s
  deriving DecidableEq, Repr

/-- The access code of a register number; none where the table of R19 has no such number. -/
def csrAcc (n : Nat) : Option CsrAcc :=
  if n ≤ 0x004 then some .rw
  else if 0x008 ≤ n ∧ n ≤ 0x02C then some .rw
  else if 0x100 ≤ n ∧ n ≤ 0x108 then some .ro
  else if 0x109 ≤ n ∧ n ≤ 0x10C then some .ur
  else if 0x110 ≤ n ∧ n ≤ 0x117 then some .ro
  else if 0x120 ≤ n ∧ n ≤ 0x124 then some .ur
  else if n = 0x200 then some .s
  else none

/-- Element i of a vector, 0 past its end. -/
def vget {m w : Nat} (v : Vector (BitVec w) m) (i : Nat) : BitVec w := if h : i < m then v.get ⟨i, h⟩ else 0

/-- Element i of a vector replaced. -/
def vset {m : Nat} {α : Type} (v : Vector α m) (i : Nat) (x : α) : Vector α m := if h : i < m then v.set i x h else v

/-- trayst (R23). -/
def trayst (c : Ctx) : Word :=
  let old := match c.tray with | [] => 0 | cl :: r => (r.foldl (fun (m : Closure) x => if x.age < m.age then x else m) cl).pc.toNat
  BitVec.ofNat 64 (c.tray.length * 2 ^ 59 + field old 56 3 * 2 ^ 3)

/-- capcore (R23): four plates. -/
def capcore (c : CoreSt) : Word := BitVec.ofNat 64 (c.rfout.toNat * 2 ^ 12 + c.ntile.toNat * 2 ^ 3 + 4)

/-- A control register as a context reads it (R19); c is the context as the reading slot sees it. -/
def csrRead (s : State) (k : Nat) (c : Ctx) (n : Nat) : Word :=
  let x := s.core (coreOf k)
  if n = 0x000 then c.mode.zeroExtend 64
  else if n = 0x001 then c.fflags.zeroExtend 64
  else if n = 0x002 then x.vshare.zeroExtend 64
  else if n = 0x003 then x.gmask.zeroExtend 64
  else if n = 0x004 then x.hdl
  else if n < 0x008 then 0
  else if n < 0x00C then vget c.fmt (n - 0x008)
  else if n < 0x010 then vget c.scl (n - 0x00C)
  else if n < 0x020 then (vget c.evc (n - 0x010)).zeroExtend 64
  else if n < 0x024 then vget c.lsa (n - 0x020)
  else if n < 0x028 then vget c.lea (n - 0x024)
  else if n < 0x02C then vget c.lct (n - 0x028)
  else if n = 0x02C then c.utvec
  else if n = 0x100 then (s.ctx (handlerKey (coreOf k))).hdlrow.zeroExtend 64
  else if n = 0x101 then (s.ctx (handlerKey (coreOf k))).hdlcnt.zeroExtend 64
  else if n = 0x102 then trayst c
  else if n = 0x103 then capcore x
  else if n = 0x104 then BitVec.ofNat 64 (coreOf k % 2 ^ 20)
  else if n = 0x105 then BitVec.ofNat 64 (ctxId k)
  else if n = 0x106 then BitVec.ofNat 64 (dialOf s k)
  else if n = 0x107 then c.wgt.zeroExtend 64
  else if n = 0x108 then BitVec.ofNat 64 (c.tcount.toNat * 2 ^ 4 + c.tbase.toNat)
  else if n = 0x109 then c.asid.zeroExtend 64
  else if n = 0x10A then c.spbase
  else if n = 0x10B then c.spsize.zeroExtend 64
  else if n = 0x10C then c.spovf
  else if 0x110 ≤ n ∧ n ≤ 0x117 then (vget c.lvl (n - 0x110)).zeroExtend 64
  else if n = 0x120 then c.xcause.zeroExtend 64
  else if n = 0x121 then c.xsub.zeroExtend 64
  else if n = 0x122 then c.xaddr
  else if n = 0x123 then c.xpc
  else if n = 0x124 then c.xstat
  else if n = 0x200 then x.stvec
  else 0

/-- mode after a write (R20): PRIV stays, reserved bits read 0, the handler's DEF reads 0. -/
def modeWrite (handler : Bool) (old : BitVec 7) (v : Word) : BitVec 7 :=
  (old &&& 0x40) ||| (v.truncate 7 &&& (if handler then 0x3C else 0x3E))

/-- vshare after a write of a whole 64-bit value (R21). -/
def shareWrite (v : Word) : BitVec 4 := if v.toNat = 0 then 1 else if v.toNat ≤ 8 then v.truncate 4 else 8

/-- The fields of fmt0 to fmt3 (R199). -/
def fmtMask (i : Nat) : Word := match i with | 0 => 0xF | 1 => 0xF | 2 => 0x1 | _ => 0xF7

/-- A context's control register written (R19 to R22). -/
def csrSet (handler : Bool) (n : Nat) (v : Word) (c : Ctx) : Ctx :=
  if n = 0x000 then { c with mode := modeWrite handler c.mode v }
  else if n = 0x001 then { c with fflags := v.truncate 5 }
  else if n < 0x008 then c
  else if n < 0x00C then { c with fmt := vset c.fmt (n - 0x008) (v &&& fmtMask (n - 0x008)) }
  else if n < 0x010 then { c with scl := vset c.scl (n - 0x00C) v }
  else if n < 0x020 then { c with evc := vset c.evc (n - 0x010) (v.truncate 32) }
  else if n < 0x024 then { c with lsa := vset c.lsa (n - 0x020) v }
  else if n < 0x028 then { c with lea := vset c.lea (n - 0x024) v }
  else if n < 0x02C then { c with lct := vset c.lct (n - 0x028) v }
  else if n = 0x02C then { c with utvec := v &&& ~~~ 7 }
  else if n = 0x109 then { c with asid := v.truncate 16 }
  else if n = 0x10A then { c with spbase := v }
  else if n = 0x10B then { c with spsize := v.truncate 14 }
  else if n = 0x10C then { c with spovf := v }
  else if n = 0x120 then { c with xcause := v.truncate 8 }
  else if n = 0x121 then { c with xsub := v.truncate 8 }
  else if n = 0x122 then { c with xaddr := v }
  else if n = 0x123 then { c with xpc := v }
  else if n = 0x124 then { c with xstat := v }
  else c

/-- A control register of the core, which its five contexts share. -/
def coreCtl (n : Nat) : Bool := n == 0x002 || n == 0x003 || n == 0x004 || n == 0x200

/-- The contexts that a control register's poison stands in (R408). -/
def ctlKeys (k n : Nat) : List Nat := if coreCtl n then (upTo 5).map (8 * coreOf k + ·) else [k]

/-- A control register is poisoned, or its poison is written over (R408). -/
def setCtlPoison (k n : Nat) (bad : Bool) (s : State) : State :=
  (ctlKeys k n).foldl (fun s j => if (s.ctx j).badCtl.contains n = bad then s else
    s.modCtx j fun c => { c with badCtl := if bad then n :: c.badCtl else c.badCtl.filter (· ≠ n) }) s

/-- A control register written by a context (R19 to R22); a write of gmask ends GANGBROKEN (R206). -/
def csrWrite (k n : Nat) (v : Word) (s : State) : State :=
  let s := setCtlPoison k n false s
  if n = 0x002 then s.modCore (coreOf k) fun x => { x with vshare := shareWrite v }
  else if n = 0x003 then s.modCore (coreOf k) fun x => { x with gmask := v.truncate 4, broken := 0 }
  else if n = 0x004 then s.modCore (coreOf k) fun x => { x with hdl := v &&& ~~~ 7 }
  else if n = 0x200 then s.modCore (coreOf k) fun x => { x with stvec := v &&& ~~~ 7 }
  else s.modCtx k (csrSet (ctxId k == 4) n v)

/-! ## Access by an instruction (R284) -/

/-- The four operations on a control register. -/
inductive CsrOp where
  | r | w | s | c
  deriving DecidableEq, Repr

/-- The access of an instruction: operation, register number, destination, source. -/
def csrForm : Instr → Option (CsrOp × Nat × SReg × SReg)
  | .csrr d n => some (.r, n.toNat, d, 0)
  | .csrw d a n => some (.w, n.toNat, d, a)
  | .csrs d a n => some (.s, n.toNat, d, a)
  | .csrc d a n => some (.c, n.toNat, d, a)
  | _ => none

/-- The register is read: rd of R284. -/
def csrReads (op : CsrOp) (d : SReg) : Bool := d != 0 || op == .r

/-- The register is written: wr of R284. -/
def csrWrites (op : CsrOp) (a : SReg) : Bool := op == .w || ((op == .s || op == .c) && a != 0)

/-- The traps of R19: ILLEGAL for a number outside the table or a write of an RO register, PRIV at user level. -/
def csrTrap (c : Ctx) (op : CsrOp) (n : Nat) (d a : SReg) : Option TrapInfo :=
  let user := !(c.mode.getLsbD 6)
  let priv : Option TrapInfo := some (trapOf causePriv 0 (BitVec.ofNat 64 n))
  match csrAcc n with
  | none => some (trapOf causeIllegal 0 0)
  | some .rw => none
  | some .ro => if csrWrites op a then some (trapOf causeIllegal 0 0) else none
  | some .ur => if user && csrWrites op a then priv else none
  | some .s => if user && (csrReads op d || csrWrites op a) then priv else none

/-- The new value (R284). -/
def csrNew (op : CsrOp) (old v : Word) : Word := match op with | .r => old | .w => v | .s => old ||| v | .c => old &&& ~~~ v

/-- The effect of CSRR, CSRW, CSRS and CSRC (R284). -/
def effCsr (op : CsrOp) (n : Nat) (d a : SReg) (s : State) : State :=
  let c := me s
  let old := csrRead s s.cur c n
  let s := if csrWrites op a then csrWrite s.cur n (csrNew op old (c.rd a)) s else s
  wrS d old s

end Sys2Proof.Machine
end

