-- ==== Sys2Proof/Machine/Access.lean ====
section
/-! DEFINITION. Memory accesses: what each slot A memory instruction asks for, the checks of R111 in their order,
performing an access at a bank or at its home, and landing what it brings. -/

namespace Sys2Proof.Machine

/-! ## Requests of an instruction -/

/-- One access of an instruction, with what its checks need. -/
structure MemOp where
  ea : Word
  n : Nat
  acc : Access
  dest : Dest := .none
  ord : Order := {}
  port : PortAcc := .other
  /-- A plain form: no status register (R148). -/
  plain : Bool := true
  /-- LD.w or LD.wu, the forms that read a HIST bin (R147). -/
  bin : Bool := false
  align : Nat
  row : Bool := false
  /-- The first byte of the tile, for the rows of a W = 1 form (R111). -/
  tile : Option Word := none
  deriving DecidableEq, Repr

/-- The access waits (R125). -/
def Access.isWaitw : Access → Bool | .waitw .. => true | _ => false
/-- The access only writes. -/
def Access.isWrite : Access → Bool | .write .. => true | _ => false
/-- The access's kind of R355. -/
def Access.kind : Access → Nat
  | .read _ => kindRead | .write .. => kindWrite | .rmw .. => kindRmw | .faddt .. => kindRmw | .waitw .. => kindRead
  | .desc => kindRead | .guise .. => kindWrite
/-- Bytes of an access. -/
def Access.bytes : Access → Nat
  | .read n => n | .write n _ => n | .rmw n _ => n | .faddt .. => 8 | .waitw .. => 8 | .desc => 8 | .guise .. => 8
/-- The access reads only. -/
def Access.isRead : Access → Bool | .read .. => true | _ => false

/-- XCH, CAS, AMO, FADDT or SCX: it reads and writes and returns the old word. A FADDT counts as an AMO in R154 (log entry
88). -/
def MemOp.atomic (op : MemOp) : Bool :=
  op.dest != .none && (match op.acc with | .rmw .. => true | .faddt .. => true | _ => false)

/-- Whether an access goes to the negative bank of another party's EXCH pair (R154): stores, TST and RED. -/
def storeLike (acc : Access) (dest : Dest) : Bool :=
  match acc with | .write .. => true | .rmw .. => dest == .none | _ => false

/-- The effective address (R110). -/
def eaOf (c : Ctx) (a : SReg) (off : Int) : Word := c.rd a + wordOf off

/-- A row's data, by key. -/
def rowData (s : State) (k key : Nat) : RowData := ((s.core (coreOf k)).row key).data

/-- The extension of LD's forms (R115). -/
def ldSize : LdMode → Nat × Bool
  | .b => (1, true) | .bu => (1, false) | .h => (2, true) | .hu => (2, false) | .w => (4, true) | .wu => (4, false) | .d => (8, true)

/-- The order of an AMO or RED kind (R121). -/
def kindOrder (k : Kind) (sc : Scope) : Order :=
  { acq := k == .acq || k == .acqrel, rel := k == .rel || k == .acqrel, scope := sc }

/-- A pair's word. -/
def pairWord (lo hi : Word) : SlotData := (lo.zeroExtend 2048) ||| ((hi.zeroExtend 2048) <<< 64)

/-- Bytes of a form with W: 4 or 8. -/
def wBytes (w : Bool) : Nat := if w then 4 else 8

/-- A load. -/
def opLoad (ea : Word) (n : Nat) (dest : Dest) (ord : Order) (plain bin : Bool) : MemOp :=
  { ea := ea, n := n, acc := .read n, dest := dest, ord := ord, port := .load n, plain := plain, bin := bin, align := n }
/-- A store of the low n bytes of v. -/
def opStore (ea : Word) (n : Nat) (v : Word) (dest : Dest) (ord : Order) (plain : Bool) : MemOp :=
  { ea := ea, n := n, acc := .write n (BitVec.ofNat 2048 (v.toNat % 2 ^ (8 * n))), dest := dest, ord := ord, port := .store n, plain := plain, align := n }
/-- An atomic form. -/
def opRmw (ea : Word) (n : Nat) (f : Rmw) (dest : Dest) (ord : Order) (port : PortAcc) (plain : Bool) : MemOp :=
  { ea := ea, n := n, acc := .rmw n f, dest := dest, ord := ord, port := port, plain := plain, align := n }
/-- An AMO. -/
def opAmo (c : Ctx) (d a : SReg) (w : Bool) (sc : Scope) (k : Kind) (off : Imm 0) (op : RedOp) : MemOp :=
  opRmw (eaOf c a off.signed) (wBytes w) (.red op (c.rd d)) (.reg d (wBytes w) true) (kindOrder k sc) .other true
/-- A pair access: aligned to 16 in region 0x00 and to 8 in the window (R111, R117). -/
def opPair (ea : Word) (acc : Access) (dest : Dest) (ord : Order) (port : PortAcc) : MemOp :=
  { ea := ea, n := 16, acc := acc, dest := dest, ord := ord, port := port, align := if wf ea 63 57 = 0 then 16 else 8 }
/-- A tile row's load or store. -/
def opRow (ea : Word) (acc : Access) (dest : Dest) : MemOp := { ea := ea, n := 128, acc := acc, dest := dest, align := 4, row := true }

/-- The order of an acquire form. -/
def acqAt (sc : Scope) : Order := { acq := true, scope := sc }
/-- The order of a release form. -/
def relAt (sc : Scope) : Order := { rel := true, scope := sc }
/-- The order of an SC operation (R128). -/
def scOrder : Order := { acq := true, rel := true, scope := .pkg, sc := true }

/-- The byte offset of TLD and TST: 128-byte rows, or the literal's bytes (R66, R110). -/
def rowOffset (off : Imm 6) : Int := match off with | .short v => 128 * v.toInt | .lone v => v.toInt

/-- The offset of LDS, STS and XCH.S: units of 8 bytes, or the literal's bytes. -/
def unitOffset (off : Imm 4) : Int := match off with | .short v => 8 * (v.toNat : Int) | .lone v => v.toInt

/-- SPILL and FILL's slot address (R133): the carve-out, the overflow area unless spovf is 0 (R323, R324), or SPILLOVF's
subcause. -/
def slotOf (c : Ctx) (x : Word) : Except Nat Word :=
  let b := c.spbase.toNat
  if b ≤ x.toNat ∧ x.toNat < b + c.spsize.toNat then .ok x
  else if c.spovf ≠ 0 ∧ b ≤ x.toNat + 2 ^ 18 ∧ x.toNat < b then .ok (c.spovf - (c.spbase - x))
  else .error (if b + c.spsize.toNat ≤ x.toNat then 2 else 1)

/-- The stack address of slot j of n. -/
def spillAddr (c : Ctx) (n j : Nat) : Word := c.rd 31 - BitVec.ofNat 64 (8 * (n - j))
def fillAddr (c : Ctx) (j : Nat) : Word := c.rd 31 + BitVec.ofNat 64 (8 * j)

/-- A run of stack slots that is one access: its address, its first slot and its slots. -/
structure StackRun where
  ea : Word
  first : Nat
  n : Nat
  deriving DecidableEq, Repr

/-- Slot j, which lies at ea, joins the last run of a list: consecutive slots of one bank of the carve-out are one access
(R302); an overflow slot is an access of its own. -/
def joinRun (l : List StackRun) (j : Nat) (ea : Word) : List StackRun :=
  match l.getLast? with
  | some r =>
    if wf ea 63 57 = 0x7E ∧ ea = r.ea + BitVec.ofNat 64 (8 * r.n) ∧ ea.toNat / 8192 = r.ea.toNat / 8192 then l.dropLast ++ [{ r with n := r.n + 1 }]
    else l ++ [⟨ea, j, 1⟩]
  | none => [⟨ea, j, 1⟩]

/-- The runs of n stack slots, slot j at x j. -/
def slotRuns (c : Ctx) (x : Nat → Word) (n : Nat) : List StackRun :=
  (upTo n).foldl (fun l j => match slotOf c (x j) with | .ok ea => joinRun l j ea | .error _ => l) []

/-- The registers d, d + 1, ... of a run, the first lowest. -/
def runData (c : Ctx) (d : SReg) (r : StackRun) : SlotData :=
  (upTo r.n).foldl (fun v i => v ||| ((c.rd (d + BitVec.ofNat 5 (r.first + i))).zeroExtend 2048 <<< (64 * i))) 0

/-- The accesses of an instruction, in order (R115 to R133). -/
def memOps (s : State) (k : Nat) (c : Ctx) : Instr → List MemOp
  | .ld d a m off => let (n, sg) := ldSize m; [opLoad (eaOf c a off.signed) n (.reg d n sg) {} true (n == 4)]
  | .ldAcq d a z u sc off => [opLoad (eaOf c a off.signed) (sizeBytes z) (.reg d (sizeBytes z) (!u)) (acqAt sc) true false]
  | .st d a z off => [opStore (eaOf c a off.signed) (sizeBytes z) (c.rd d) .none {} true]
  | .stRel d a z sc off => [opStore (eaOf c a off.signed) (sizeBytes z) (c.rd d) .none (relAt sc) true]
  | .ldp d a off => [opPair (eaOf c a off.signed) (.read 16) (.pair d) {} .ldp]
  | .ldpAcq d a sc off => [opPair (eaOf c a off.signed) (.read 16) (.pair d) (acqAt sc) .ldp]
  | .stp d a off => [opPair (eaOf c a off.signed) (.write 16 (pairWord (c.rd d) (c.rd (hiReg d)))) .none {} .stp]
  | .stpRel d a sc off => [opPair (eaOf c a off.signed) (.write 16 (pairWord (c.rd d) (c.rd (hiReg d)))) .none (relAt sc) .stp]
  | .lds d a z kk off => [opLoad (eaOf c a (unitOffset off)) (sizeBytes z) (.status kk (some (d, sizeBytes z))) {} false false]
  | .sts d a z kk off => [opStore (eaOf c a (unitOffset off)) (sizeBytes z) (c.rd d) (.status kk none) {} false]
  | .xch d a w off =>
    [opRmw (eaOf c a off.signed) (wBytes w) (.xch (c.rd d)) (.reg d (wBytes w) true) {} (.xch (wBytes w)) true]
  | .xchS d a w kk off =>
    [opRmw (eaOf c a (unitOffset off)) (wBytes w) (.xch (c.rd d)) (.status kk (some (d, 16 + wBytes w))) {} (.xch (wBytes w)) false]
  | .cas d a w off =>
    [opRmw (eaOf c a off.signed) (wBytes w) (.cas (c.rd d) (c.rd (hiReg d))) (.reg d (wBytes w) true) {} .other true]
  | .aadd d a w sc kk off => [opAmo c d a w sc kk off .add]
  | .aand d a w sc kk off => [opAmo c d a w sc kk off .and]
  | .aor d a w sc kk off => [opAmo c d a w sc kk off .or]
  | .axor d a w sc kk off => [opAmo c d a w sc kk off .xor]
  | .amaxs d a w sc kk off => [opAmo c d a w sc kk off .maxs]
  | .amins d a w sc kk off => [opAmo c d a w sc kk off .mins]
  | .amaxu d a w sc kk off => [opAmo c d a w sc kk off .maxu]
  | .aminu d a w sc kk off => [opAmo c d a w sc kk off .minu]
  | .afadd d a sc kk off => [opAmo c d a true sc kk off .fadd]
  | .afmax d a sc kk off => [opAmo c d a true sc kk off .fmax]
  | .afmin d a sc kk off => [opAmo c d a true sc kk off .fmin]
  | .red d a op w sc kk off => [opRmw (eaOf c a off.signed) (wBytes w) (.red op (c.rd d)) .none (kindOrder kk sc) .other true]
  | .faddt d a sc off =>
    [{ ea := eaOf c a off.signed, n := 8, acc := .faddt (c.rd d) (c.rd (hiReg d)), dest := .reg d 8 true, ord := relAt sc, align := 8 }]
  | .waitw d a off =>
    [{ ea := eaOf c a off.signed, n := 8, acc := .waitw (c.rd d) (c.rd (hiReg d)), dest := .reg d 8 true, align := 8 }]
  | .scld d a w off => [{ opLoad (eaOf c a off.signed) (wBytes w) (.reg d (wBytes w) true) scOrder true false with port := .other }]
  | .scst d a w off => [{ opStore (eaOf c a off.signed) (wBytes w) (c.rd d) .none scOrder true with port := .other }]
  | .scx d a w off => [opRmw (eaOf c a off.signed) (wBytes w) (.xch (c.rd d)) (.reg d (wBytes w) true) scOrder .other true]
  | .tld t a r off => (rowsOf r).filterMap fun i => (keyOf s k c (t, i)).map fun key =>
      { opRow (eaOf c a (rowOffset off + (if r.w then 128 * (i : Int) else 0))) (.read 128) (.row key) with tile := first a r off }
  | .tst t a r off => tileStore t a r off
  | .tstB t a r off => tileStore t a r off
  | .tldx t a b => (maskRows (c.rd b)).filterMap fun i => (keyOf s k c (t, i)).map fun key =>
      opRow (eaOf c a ((i : Int) * signed 32 (c.rd b).toNat)) (.read 128) (.row key)
  | .spill d n => (slotRuns c (spillAddr c (n.toNat + 1)) (n.toNat + 1)).map fun r =>
      { ea := r.ea, n := 8 * r.n, acc := .write (8 * r.n) (runData c d r), align := 8 }
  | .fill d n => (slotRuns c (fillAddr c) (n.toNat + 1)).map fun r =>
      { ea := r.ea, n := 8 * r.n, acc := .read (8 * r.n), dest := .regs (d + BitVec.ofNat 5 r.first) r.n, align := 8 }
  | _ => []
where
  /-- The first byte of a W = 1 form's tile. -/
  first (a : SReg) (r : Rows) (off : Imm 6) : Option Word := if r.w then some (eaOf c a (rowOffset off)) else none
  /-- The rows of a TST. -/
  tileStore (t : TReg) (a : SReg) (r : Rows) (off : Imm 6) : List MemOp :=
    (rowsOf r).filterMap fun i => (keyOf s k c (t, i)).map fun key =>
      { opRow (eaOf c a (rowOffset off + (if r.w then 128 * (i : Int) else 0))) (.write 128 ((rowData s k key).zeroExtend 2048)) .none with tile := first a r off }

/-! ## The checks of R111 -/

/-- The address lies in the local window (R25). -/
def isLocal (a : Word) : Bool := wf a 63 57 == 0x7E

/-- Bank key and offset of a local address, from a core. -/
def bankAt (core : Nat) (a : Word) : Nat := windowBank core a

/-- The linear bank-space key of a local address. -/
def localKey (core : Nat) (a : Word) : Nat := bkey (bankAt core a) (wf a 12 0)

/-- An address in a hole, or in a die the domain does not have (R26). -/
def holeTrap (s : State) (a : Word) : Option TrapInfo :=
  if wf a 63 57 = 0 then (if wf a 56 47 < 4 * s.domain then none else some (trapOf causeProt 0 a))
  else if isLocal a then (if wf a 56 25 = 0 then none else some (trapOf causeProt 0 a))
  else some (trapOf causeProt 0 a)

/-- A core's banks are allocated to the tenant of another core (R301). -/
def sameTenant (s : State) (core other : Nat) : Bool := (s.core core).tenant.isSome && (s.core other).tenant == (s.core core).tenant

/-- The first byte and the bytes of an access as R111 checks them: the whole tile of a W = 1 form. -/
def MemOp.extent (op : MemOp) : Word × Nat := match op.tile with | some a => (a, 2048) | none => (op.ea, op.n)

/-- Step 1 (R111): region, domain, tenant; SC operations stay in the package (R127). -/
def regionTrap (s : State) (core : Nat) (op : MemOp) : Option TrapInfo :=
  let (a, n) := op.extent
  match holeTrap s a with
  | some t => some t
  | none =>
    if isLocal a then
      let last := (localKey core a + n - 1) / (8192 * 16)
      if sameTenant s core (windowCore core a) && (last / 256 != core / 256 || sameTenant s core last) then none
      else some (trapOf causeProt 3 a)
    else if op.ord.sc && wf op.ea 56 47 / 4 != pkgOf core then some (trapOf causeProt 2 op.ea)
    else none

/-- Step 2 (R111). -/
def alignTrap (op : MemOp) : Option TrapInfo := if op.ea.toNat % op.align = 0 then none else some (trapOf causeAlign 0 op.ea)

/-- The banks that n bytes from a linear key reach. -/
def banksOf (key n : Nat) : List Nat := (upTo ((key + n - 1) / 8192 - key / 8192 + 1)).map (· + key / 8192)

/-- Step 3 (R111), over the whole tile of a W = 1 form. -/
def extentTrap (s : State) (core : Nat) (op : MemOp) : Option TrapInfo :=
  let (a, n) := op.extent
  let t := trapOf causeStraddle 0 a
  if isLocal a then
    let key := localKey core a
    let first := kindOf (descOf s (key / 8192))
    if 2 ^ 25 < wf a 24 0 + n then some t
    else if !op.row && n = 16 && 8192 < wf a 12 0 + 16 then some t
    else if op.row && (first == 0 || first == 6) && (banksOf key n).any (fun b => kindOf (descOf s b) != first) then some t
    else none
  else if 2 ^ 47 < vaOff a + n then some t else none

/-- Step 4 (R111, R147, R150, R153, R154, R162). -/
def personalityTrap (s : State) (core : Nat) (op : MemOp) : Option TrapInfo :=
  let struct_ (n : Nat) := some (trapOf causeStruct n op.ea)
  if !isLocal op.ea then none else
  let b := bankAt core op.ea
  let d := descOf s b
  let own := b / 16 == core
  if oddOfPair s b then struct_ 0x12
  else if kindOf d = 0 then none
  else if kindOf d = 6 then (if !own && op.atomic then struct_ 0x10 else none)
  else if op.row then struct_ 0x10
  else if 2 ≤ aroleOf d then struct_ 0x12
  else if op.acc.isWaitw then (if countOff d = some (wf op.ea 12 0) then none else struct_ 0x10)
  else match portAt d (wf op.ea 12 0) op.port op.bin with
    | none => struct_ 0x10
    | some p => if op.plain && (!own || aroleOf d = 1) && !p.sure then struct_ 0x11 else none

/-- The first of a list of answers. -/
def firstTrap (l : List (Option TrapInfo)) : Option TrapInfo := l.findSome? id

/-- The checks of R111 over all accesses of an instruction: each step for every access before the next step. -/
def accessTrap (s : State) (core : Nat) (ops : List MemOp) : Option TrapInfo :=
  firstTrap (ops.map (regionTrap s core)) <|> firstTrap (ops.map alignTrap) <|> firstTrap (ops.map (extentTrap s core)) <|>
  firstTrap (ops.map (personalityTrap s core))

/-! ## Performing -/

/-- The new word of a RED or AMO operation on n bytes (R121); none leaves the word exactly as it is. -/
def redNew (n : Nat) (op : RedOp) (old v : Nat) : Option Nat × Flags5 :=
  let bits := 8 * n
  let v := v % 2 ^ bits
  let so := signed bits old
  let sv := signed bits v
  match op with
  | .add => (some ((old + v) % 2 ^ bits), 0)
  | .and => (some (old &&& v), 0)
  | .or => (some (old ||| v), 0)
  | .xor => (some (old ^^^ v), 0)
  | .maxs => (some (if so < sv then v else old), 0)
  | .mins => (some (if sv < so then v else old), 0)
  | .maxu => (some (max old v), 0)
  | .minu => (some (min old v), 0)
  | .fadd => let r := fadd fp32 .rne false old v; (some r.bits, r.fl)
  | .fmax => fext true
  | .fmin => fext false
where
  /-- AFMAX and AFMIN (R41, R121): with two NaNs the word stays. -/
  fext (hi : Bool) : Option Nat × Flags5 :=
    let v := v % 2 ^ 32
    let r := fminmax fp32 false hi old v
    if (unpack fp32 false old).isNan && (unpack fp32 false v).isNan then (none, r.fl) else (some r.bits, r.fl)

/-- The new word of an atomic function on n bytes. -/
def rmwNew (n : Nat) (f : Rmw) (old : Nat) : Option Nat × Flags5 :=
  match f with
  | .xch v => (some (v.toNat % 2 ^ (8 * n)), 0)
  | .cas e v => (if old = e.toNat % 2 ^ (8 * n) then some (v.toNat % 2 ^ (8 * n)) else none, 0)
  | .red op v => redNew n op old v.toNat

/-- A WAITW's answer on a word (R125): a code, or none to register. -/
def waitCode (s : State) (die : Nat) (word : Int) (thr deadline : Word) (entries cap : Nat) : Option Nat :=
  if thr.toInt ≤ word then some 0
  else if deadline ≠ 0 ∧ deadline.toNat ≤ dial s die then some 5
  else if cap ≤ entries then some 2
  else none

/-- A waiter registered at a place (R125). -/
def registerAt (p : Place) (w : Registered) (s : State) : State :=
  match p with
  | .bank key => syncMask (key / 8192) (s.modBank (key / 8192) fun x => { x with waiters := x.waiters ++ [w] })
  | _ => let (d, key) := registryOf p; s.modDie d fun x => { x with waiters := x.waiters ++ [{ w with addr := key }] }

/-- Entries and capacity of the registry at a place (R126). -/
def registrySize (s : State) (p : Place) : Nat × Nat :=
  match p with
  | .bank key => ((s.bank (key / 8192)).waiters.length, 16)
  | _ => ((s.die (registryOf p).1).waiters.length, 4096)

/-- A FADDT's waking at a place (R124). -/
def wakeAt (p : Place) (s : State) : State :=
  match p with | .bank key => wakeWordBank (key / 8192) key s | _ => wakeWordMem p s

/-- A plain access at a place (R119 to R125), made at the address ea, whose waiters stand at place q. -/
def actAt (p q : Place) (ea : Word) (acc : Access) (who : Waiter) (die : Nat) (s : State) : Perf × State :=
  if !acc.isWrite && placeBad s p acc.bytes then (.poisoned (badUnit s p acc.bytes ea) false, s) else
  match acc with
  | .read n => (.done 0 (placeRead s p n) 0, s)
  | .write n v => (.done 0 0 0, placeWrite p n v.toNat s)
  | .rmw n f =>
    let old := placeRead s p n
    let (new, fl) := rmwNew n f old
    (.done 0 old fl, match new with | some v => placeWrite p n v s | none => s)
  | .faddt add thr =>
    let old : Word := BitVec.ofNat 64 (placeRead s p 8)
    let s := placeWrite p 8 (old + add).toNat s
    (.done 0 old.toNat 0, if old.toInt < thr.toInt ∧ thr.toInt ≤ (old + add).toInt then wakeAt q s else s)
  | .waitw thr deadline =>
    let word := signed 64 (placeRead s p 8)
    let (n, cap) := registrySize s q
    match waitCode s die word thr deadline n cap with
    | some v => (.done 0 v 0, s)
    | none => (.registered, registerAt q { who := who, addr := (match q with | .bank key => key | _ => 0), thr := thr, deadline := deadline } s)
  | .desc => (.done 0 0 0, s)
  | .guise .. => (.done 0 0 0, s)

/-- The data that a port operation takes from an access. -/
def portData : Access → Nat
  | .write _ v => v.toNat
  | .rmw _ (.xch v) => v.toNat
  | _ => 0

/-- The kind of port access that a performed access is. -/
def portKind (row : Bool) (ord : Order) : Access → PortAcc
  | .read n => if row || ord.sc then .other else if n = 16 then .ldp else .load n
  | .write n _ => if row || ord.sc then .other else if n = 16 then .stp else .store n
  | .rmw n (.xch _) => if ord.sc then .other else .xch n
  | _ => .other

/-- A poisoned unit read, as a failure (R278, R408). -/
def eccAt (unit : Word) : TrapInfo := trapOf causeEcc causeEcc.toNat unit

/-- An access performed at a bank (R152, R299): CLOSED while a change runs, a port operation at a personality's
bank, else a plain access at the bank's or the pair's bytes. -/
def bankPerf (core : Nat) (ea : Word) (acc : Access) (dest : Dest) (ord : Order) (row plain : Bool) (who : Waiter)
    (s : State) : Perf × State :=
  let key := localKey core ea
  let b := key / 8192
  let d := descOf s b
  let own := b / 16 == core
  let bad := Perf.failed (trapOf causeStruct 0x10 ea)
  if (s.bank b).closing.isSome then (.closed, s)
  else if (s.bank b).badDesc then (.poisoned 0 true, s)
  else if acc = .desc then (.done 0 d.toNat 0, s)
  else if oddOfPair s b then (.failed (trapOf causeStruct 0x12 ea), s)
  else if kindOf d = 0 ∨ kindOf d = 6 then
    actAt (.bank (plainKey s own (storeLike acc dest) b (wf ea 12 0))) (.bank key) ea acc who (dieOf core) s
  else if 2 ≤ aroleOf d then (.failed (trapOf causeStruct 0x12 ea), s)
  else if acc.isWaitw then
    if countOff d = some (wf ea 12 0) then
      match acc with
      | .waitw thr deadline =>
        match waitCode s (dieOf core) (countAll s (members s b)) thr deadline (s.bank b).waiters.length 16 with
        | some v => (.done 0 v 0, s)
        | none => (.registered, registerAt (.bank key) { who := who, addr := key, thr := thr, deadline := deadline } s)
      | _ => (bad, s)
    else (bad, s)
  else match portAt d (wf ea 12 0) (portKind row ord acc) plain with
    | none => (bad, s)
    | some p =>
      let data := portData acc
      if (members s b).any fun m => (s.bank m).badDesc then (.poisoned 0 true, s)
      else if let some u := badIn s (portReads s b p data) then (.poisoned u true, s)
      else if (p == .insert || p == .delete) && (s.bank b).held.contains (BitVec.ofNat 64 (data % 2 ^ kwOf d)) then (.closed, s) else
      let (a, s) := portOp b p data s
      (.done a.status a.value 0, s)

/-- Bytes that an access reads and writes (R340). -/
def Access.moved : Access → Nat | .rmw n _ => 2 * n | .faddt .. => 16 | a => a.bytes

/-- Every Polier link of a package is down (R395). -/
def linksDown (s : State) (pkg : Nat) : Bool := (upTo 18).all fun i => (look {} (s.pkg pkg).links i).down

/-- No live path from a core to a die (R396, R410, R415). -/
def noPath (s : State) (core die : Nat) : Bool :=
  (s.die die).failed || (s.pkg (die / 4)).lost || (pkgOf core != die / 4 && (linksDown s (pkgOf core) || linksDown s (die / 4)))

/-- The access belongs to a context, which waits 2 ms for a path; an engine item fails (R396). -/
def Waiter.isCtx : Waiter → Bool | .ctx .. => true | _ => false

/-- An agent's number among those that wait for a path: core, context, class, queue. -/
def agentKey (ag : Agent) : Nat := (8 * ag.core + ag.ctx) * 4096 + 256 * ag.cls + ag.queue

/-- The agent's wait for a path is over. -/
def pathFound (ag : Agent) (s : State) : State :=
  if s.pathless.isEmpty then s else { s with pathless := s.pathless.filter fun p => p.1 ≠ agentKey ag }

/-- An access of an engine, an operation or a fetch that finds no live path for 2 ms fails (R396). -/
def pathWait (ag : Agent) (ea : Word) (s : State) : Perf × State :=
  match s.pathless.find? fun p => p.1 = agentKey ag ∧ p.2.1 = ea with
  | some p => if p.2.2 + 6000000 ≤ s.cycle then (.failed (trapOf causeTimeout 0 ea), pathFound ag s) else (.blocked, s)
  | none =>
    let s := pathFound ag s
    (.blocked, { s with pathless := s.pathless ++ [(agentKey ag, ea, s.cycle)] })

/-- An atomic that needs the host to complete AtomicOps (R402): AADD with a destination, XCH and CAS. -/
def needsAtomicOp (s : State) (who : Waiter) (acc : Access) : Bool :=
  match acc, who with
  | .rmw _ f, .ctx k q =>
    match (s.ctx k).reqs.find? fun r => r.seq = q with
    | some r => !r.ord.sc && (match f with | .xch _ => true | .cas .. => true | .red op _ => op == .add && r.dest != .none)
    | none => false
  | _, _ => false

/-- An access of an agent performed at its home (R355): translated, checked, counted. -/
def globalPerf (ag : Agent) (ea : Word) (acc : Access) (who : Waiter) (s : State) : Perf × State :=
  let die := vaDie ea
  if noPath s ag.core die then (if ag.host || who.isCtx then (.blocked, s) else pathWait ag ea s) else
  let s := pathFound ag s
  match translate s ag ea acc.kind with
  | .error sub =>
    let (num, s) := recordFault ag ea acc.kind sub (dropLeaf ag ea s)
    (.fault die num, s)
  | .ok (p, e) =>
    let s := cache die ag.cls e s
    let s := countLeaf die ag ea p e s
    let s := if ag.host then s else countBytes (8 * ag.core + ag.ctx) acc.moved s
    match p with
    | .ctl _ _ => if ag.user ∨ pteU e.leaf then (.failed (trapOf causeProt 0 ea), s) else actAt p p ea acc who die s
    | .host _ _ => if needsAtomicOp s who acc && !Config.hostAtomics then (.failed (trapOf causeFaultW subWrite ea), s) else actAt p p ea acc who die s
    | _ => actAt p p ea acc who die s

/-- A row or engine access may cross pages: it is performed page by page, 4 KiB at a time, and stands where it stops. -/
def pagePieces (ea : Word) (n : Nat) : List (Word × Nat × Nat) :=
  let first := 4096 - ea.toNat % 4096
  if n ≤ first then [(ea, 0, n)] else [(ea, 0, first), (ea + BitVec.ofNat 64 first, first, n - first)]

/-- A plain access that may cross a page boundary. -/
def globalAccess (ag : Agent) (ea : Word) (acc : Access) (who : Waiter) (s : State) : Perf × State :=
  match pagePieces ea acc.bytes with
  | [_] => globalPerf ag ea acc who s
  | ps =>
    -- every piece is translated before any byte moves
    match ps.findSome? fun p => match translate s ag p.1 acc.kind with | .error sub => some (p.1, sub) | .ok _ => none with
    | some (va, sub) =>
      let (num, s) := recordFault ag va acc.kind sub (dropLeaf ag va s)
      (.fault (vaDie va) num, s)
    | none =>
      ps.foldl (fun (r : Perf × State) p =>
        match r.1 with
        | .done st v fl =>
          let part : Access := match acc with | .write _ w => .write p.2.2 (w >>> (8 * p.2.1)) | _ => .read p.2.2
          match globalPerf ag p.1 part who r.2 with
          | (.done _ v' _, s) => (.done st (v + v' * 2 ^ (8 * p.2.1)) fl, s)
          | x => x
        | _ => r) (.done 0 0 0, s)

/-! ## Landing -/

/-- An extended value (R115, R119). Bytes above 15 mark XCH.S, whose value is sign-extended (R119). -/
def extendTo (n : Nat) (sg : Bool) (v : Nat) : Word := if sg then sext (8 * n) v else zext (8 * n) v

/-- The register writes of a destination, and the registers that only lose their pending bit. -/
def destRegs (dest : Dest) (status v : Nat) : List (SReg × Word) × List SReg :=
  match dest with
  | .none => ([], [])
  | .reg d n sg => ([(d, extendTo n sg v)], [])
  | .pair d => ([(d, BitVec.ofNat 64 v), (hiReg d, BitVec.ofNat 64 (v / 2 ^ 64))], [])
  | .status k none => ([(k, BitVec.ofNat 64 status)], [])
  | .status k (some (d, n)) =>
    let value := if 16 ≤ n then extendTo (n - 16) true v else extendTo n false v
    if status = 0 then ([(k, 0), (d, value)], []) else ([(k, BitVec.ofNat 64 status)], [d])
  | .regs d n => ((upTo n).map fun i => (d + BitVec.ofNat 5 i, BitVec.ofNat 64 (v / 2 ^ (64 * i))), [])
  | .row _ => ([], [])

/-- The scalar registers of a destination. -/
def destNames (dest : Dest) : List SReg := let (a, b) := destRegs dest 0 0; a.map (·.1) ++ b

/-- The row keys of a destination. -/
def destRows (dest : Dest) : List Nat := match dest with | .row key => [key] | _ => []

/-- A destination that reports nothing: none, or s0 alone (R280). -/
def destless (dest : Dest) : Bool := destNames dest |>.all (· == 0) |> (· && (destRows dest).isEmpty)

/-- What a performed access lands (R27): its values, or poison (R30). -/
def landingOf (dest : Dest) (due : Nat) (status v : Nat) (fl : Flags5) : Landing :=
  let (regs, clears) := destRegs dest status v
  { Landing.empty with
    due := due
    regs := regs
    clears := clears
    rows := (destRows dest).map fun key => (key, { data := BitVec.ofNat 1024 v })
    flags := fl }

/-- A poisoned landing (R30). -/
def poisonLanding (dest : Dest) (due : Nat) (p : Poison) : Landing :=
  { Landing.empty with
    due := due
    regs := (destNames dest).map fun r => (r, 0)
    rows := (destRows dest).map fun key => (key, {})
    poison := some p }

/-- Pending bits of a destination set (R27). -/
def pendDest (k : Nat) (dest : Dest) (s : State) : State :=
  pendRows (coreOf k) (destRows dest) (setPending k (destNames dest) s)

/-- A failure with no destination, as R280 reports it. -/
def failureOf (acc : Access) (t : TrapInfo) : TrapInfo :=
  if t.cause = causeFaultR ∨ t.cause = causeFaultW then t
  else { cause := if acc.kind = kindRead then causeFaultR else causeFaultW, sub := t.cause, addr := t.addr }

/-- A context's failure that no register can carry: its acknowledgement brings it (R280). -/
def ackFail (k : Nat) (acc : Access) (due : Nat) (firm : Bool) (t : TrapInfo) (s : State) : State :=
  s.modCtx k fun c => { c with acks := c.acks ++ [{ flags := 0, fail := some (failureOf acc t), due := due, firm := firm }] }

/-- A failed access: its destination lands poisoned in a cycle, or the failure is reported later (R280). -/
def failDest (k : Nat) (dest : Dest) (acc : Access) (due : Nat) (firm : Bool) (t : TrapInfo) (s : State) : State :=
  if destless dest then ackFail k acc due firm t s
  else queueLanding k { poisonLanding dest due ⟨t.cause, t.addr⟩ with firm := firm } s

/-- A context's request replaced, or removed. -/
def setReq (k seq : Nat) (f : Req → Option Req) (s : State) : State :=
  s.modCtx k fun c => { c with reqs := c.reqs.filterMap fun r => if r.seq = seq then f r else some r }

/-- An SC announcement leaves the order when its operation is performed (R128). -/
def dropAnnounce (k seq : Nat) (s : State) : State :=
  { s with announces := s.announces.filter fun a => !(a.ctx == k && a.seq == seq) }

/-- A request is over. -/
def endReq (k : Nat) (r : Req) (s : State) : State := dropAnnounce k r.seq (setReq k r.seq (fun _ => none) s)

/-- A status form: its status lands, CLOSED included, and never traps (R118, R148). -/
def Dest.isStatus : Dest → Bool | .status .. => true | _ => false

/-- A port operation met poison (R408): it returns no status, its destinations are left as they are, and its context traps
ECC, or is killed while it handles a trap (log entry 61). -/
def poisonTraps (k : Nat) (dest : Dest) (unit : Word) (s : State) : State :=
  let s := s.modCtx k fun c => (destNames dest).foldl (fun c d => c.setPend d false) c
  if (s.ctx k).left ≠ .no then s else takeTrap (eccAt unit) k (unrun k s)

/-- What follows a performed request of a context: its landing or acknowledgement, `lat` cycles later (`firm`: in exactly
that cycle), its next state, its failure. A plain form that meets EMPTY, FULL or ABSENT after its issue, once its bank has
changed, fails STRUCT (R148). -/
def afterPerf (k : Nat) (r : Req) (lat : Nat) (firm : Bool) (p : Perf) (s : State) : State :=
  let due := s.cycle + lat
  let done (st v : Nat) (fl : Flags5) : State :=
    let s := endReq k r s
    let s := if st ≠ 0 ∨ r.metClosed then countEv k 8 1 s else s
    if r.dest = .none then s.modCtx k fun c => { c with acks := c.acks ++ [{ flags := fl, fail := none, due := due, firm := firm }] }
    else queueLanding k { landingOf r.dest due st v fl with firm := firm, waitw := r.acc.isWaitw } s
  match p with
  | .done st v fl =>
    if st ≠ 0 ∧ r.plain ∧ !r.acc.isWaitw then
      failDest k r.dest r.acc due firm (trapOf causeStruct st r.addr) (countEv k 8 1 (endReq k r s))
    else done st v fl
  | .closed =>
    if r.dest.isStatus then done 4 0 0
    else setReq k r.seq (fun r => some { r with state := .closed, metClosed := true, due := s.cycle + 1 }) s
  | .registered => setReq k r.seq (fun r => some { r with state := .registered }) s
  | .poisoned u port => if port then poisonTraps k r.dest u (endReq k r s) else failDest k r.dest r.acc due firm (eccAt u) (endReq k r s)
  | .failed t => failDest k r.dest r.acc due firm t (endReq k r s)
  | .fault die num => setReq k r.seq (fun r => some { r with state := .suspended die num }) s
  | .blocked => s

/-! ## Own banks (R62, R149, R296) -/

/-- An access of slot 0: a scalar, pair, SPILL, FILL, port or descriptor access to one of the core's own banks (R294). -/
def ownBankOp (core : Nat) (op : MemOp) : Bool := isLocal op.ea && windowCore core op.ea == core && !op.row

/-- A bank that leads an arcade with ports of its own (R162); an ARRAY arcade adds nothing to a core's accesses (R163). -/
def portLead (s : State) (b : Nat) : Bool := aroleOf (descOf s b) == 1 && kindOf (descOf s b) != 0

/-- A plain load of an own bank, or BDESC: its value lands at n + 4 (R62). -/
def fixedLoad (s : State) (core : Nat) (op : MemOp) : Bool :=
  ownBankOp core op && op.plain && !op.ord.sc && (op.acc == .desc || (op.acc.isRead && !portLead s (bankAt core op.ea)))

/-- A plain port access of an own bank, or BDESC: the context's next bundle waits for its answer (R149, R156). -/
def holdsNext (s : State) (core : Nat) (op : MemOp) : Bool :=
  let b := bankAt core op.ea
  ownBankOp core op && op.plain && (op.acc == .desc || !(portLead s b || kindOf (descOf s b) == 0 || kindOf (descOf s b) == 6 || (match op.acc with | .guise .. => true | _ => false)))

/-- The registers of a destination, each with a fixed-latency result whose value request q will bring (R62, R296). -/
def awaitFixed (dest : Dest) (q : Nat) (s : State) : State :=
  s.modCtx s.cur fun c => ((destNames dest).filter (· != 0)).foldl (fun c r =>
    { c.setPend r (c.running.isSome || c.pend.getLsbD r.toNat) with
      fixed := c.fixed ++ [{ reg := r, value := 0, due := s.cycle + 4, pends := c.running.isSome, of := some q }] }) c

/-- The values that request q brings its fixed-latency results, or their poison. -/
def giveFixed (q : Nat) (vals : List (SReg × Word)) (bad : Option Poison) (c : Ctx) : Ctx :=
  { c with fixed := c.fixed.map fun f =>
    if f.of = some q then
      match vals.find? fun p => p.1 = f.reg with
      | some p => { f with value := p.2, of := none, bad := bad }
      | none => f
    else f }

/-- Request q brings no fixed-latency result: its registers are left as they are, or pending (R149). -/
def dropFixed (q : Nat) (pend : Bool) (c : Ctx) : Ctx :=
  let l := c.fixed.filter fun f => f.of == some q
  l.foldl (fun c f => c.setPend f.reg pend) { c with fixed := c.fixed.filter fun f => f.of != some q }

/-- Some fixed-latency result waits for request q. -/
def awaits (c : Ctx) (q : Nat) : Bool := c.fixed.any fun f => f.of == some q

/-- The trap of a plain port access at an own bank (R148, R149), at its own bundle, or DEFERRED for its closure; the
operation has had no effect, and the bundle is issued again. -/
def portTrapAt (w : PortWait) (r : Req) (t : TrapInfo) (k : Nat) (s : State) : State :=
  let s := s.modCtx k fun c => (destNames r.dest).foldl (fun c d => c.setPend d false) (dropFixed r.seq false c)
  let s := unrun k s
  match w.closure with
  | some cl => takeTrap t k (s.modCtx k fun c => { c with running := some cl })
  | none => takeTrap t k (s.modCtx k fun c => { c with pc := r.pc, npc := r.pc, lct := w.lct })

/-- What follows an own-bank request's performance at slot 0 (R149, R296): its value lands `issued` + 4, later by the
frames that it was replayed. -/
def afterOwn (k : Nat) (r : Req) (p : Perf) (s : State) : State :=
  let c := s.ctx k
  let wait := c.portWait.filter fun w => w.seq == r.seq
  let lat := r.issued % 4
  let free (s : State) : State := if wait.isSome then s.modCtx k fun c => { c with
    portWait := none, nextIssue := max c.nextIssue (s.cycle + lat) } else s
  let fails (t : TrapInfo) : State :=
    let s := free s
    match (if c.left = .no then wait else none) with
    | some w => portTrapAt w r t k (endReq k r s)
    | none =>
      if awaits c r.seq then (endReq k r s).modCtx k (giveFixed r.seq ((destNames r.dest).map fun d => (d, 0)) (some ⟨t.cause, t.addr⟩))
      else afterPerf k r lat true (.failed t) s
  match p with
  | .done st v _ =>
    if st ≠ 0 ∧ r.plain then (if wait.isSome then countEv k 8 1 (fails (trapOf causeStruct st r.addr)) else fails (trapOf causeStruct st r.addr))
    else if awaits c r.seq then
      let s := (endReq k r (free s)).modCtx k (giveFixed r.seq (destRegs r.dest st v).1 none)
      if r.metClosed then countEv k 8 1 s else s
    else afterPerf k r lat true p (free s)
  | .closed => afterPerf k r lat true .closed (if r.dest.isStatus then s else s.modCtx k (dropFixed r.seq true))
  | .poisoned u port =>
    if port && wait.isNone && !awaits c r.seq then poisonTraps k r.dest u (endReq k r (free s)) else fails (eccAt u)
  | .failed t => fails t
  | p => afterPerf k r lat true p s

/-! ## Issue -/

/-- The own bank that an access counts at under R296. -/
def ownBank (core : Nat) (op : MemOp) : Nat := bankAt core op.ea

/-- The core makes an off-core reference (R10, R22): counted, and in switching mode, as the bundle found it (R60), the core
is given up. -/
def offCore (k : Nat) (s : State) : State :=
  let s := countEv k 9 1 s
  if (me s).mode.getLsbD 1 && !(s.ctx k).h then s else yieldCore k s

/-- An own-bank access noted for R296. -/
def noteOwn (core b : Nat) (s : State) : State := s.modCore core fun x => { x with ownAcc := put (b % 16) s.cycle x.ownAcc }

/-- A request queued. -/
def queueReq (k : Nat) (op : MemOp) (due : Nat) (st : ReqState) (tile : Option Nat) (s : State) : State :=
  let c := me s
  let r : Req := {
    seq := s.seq, acc := op.acc, addr := op.ea, dest := op.dest, ord := op.ord, user := !(c.mode.getLsbD 6),
    pc := c.pc, plain := op.plain, metClosed := false, due := due, state := st, issued := s.cycle, tile := tile }
  { s.modCtx k fun c => { c with reqs := c.reqs ++ [r] } with seq := s.seq + 1 }

/-- The first window in which a core may announce an SC operation issued now (R128): the present one, or the one after that of
its last announcement. -/
def announceWindow (core : Nat) (s : State) : BitVec 60 :=
  let now := windowNow s (pkgOf core)
  match (s.announces.filter fun a => a.core == core).getLast? with
  | some a => if 0 ≤ (a.window - now).toInt then a.window + 1 else now
  | none => now

/-- An access of the running context leaves for its place: it is performed from the next cycle on, in its slot at a bank
(R294), at its home in global memory, and an SC operation in its order (R128). -/
def sendReq (tile : Option Nat) (op : MemOp) (s : State) : State :=
  let k := s.cur
  let core := coreOf k
  let q := s.seq
  let s := queueReq k op (s.cycle + 1) (if op.ord.sc then .announced else .issued) tile s
  if op.ord.sc then { s with announces := s.announces ++ [⟨announceWindow core s, core, k, q, false⟩] } else s

/-- An access of slot 0 (R296): a plain load's value waits for its landing cycle, any other destination is pending, and a
port access or BDESC holds the next bundle (R149). -/
def ownIssue (op : MemOp) (s : State) : State :=
  let k := s.cur
  let core := coreOf k
  let q := s.seq
  let held := holdsNext s core op
  let s := if fixedLoad s core op then awaitFixed op.dest q s else pendDest k op.dest s
  let s := if held then s.modCtx k fun c => { c with
      nextIssue := max c.nextIssue (s.cycle + 4), portWait := some ⟨q, (me s).lct, c.running⟩ } else s
  sendReq none op (noteOwn core (ownBank core op) s)

/-- An access is an off-core reference (R10, R113): it is not to the core's own banks, or it is no load and returns a
result at a time that is not fixed. -/
def isOffCore (core : Nat) (op : MemOp) : Bool :=
  !(isLocal op.ea && windowCore core op.ea == core) || (op.dest != .none && !(op.acc.isRead || op.acc == .desc))

/-- The accesses of an instruction issued in order. -/
def issueOps (ops : List MemOp) (s : State) : State :=
  let core := coreOf s.cur
  let tile := if ops.any (·.row) then some s.seq else none
  let s := ops.foldl (fun s op =>
    if ownBankOp core op then ownIssue op s else sendReq tile op (pendDest s.cur op.dest s)) s
  if ops.any (isOffCore core) then offCore s.cur s else s

end Sys2Proof.Machine
end

