-- ==== Sys2Proof/Machine/Rows.lean ====
section
/-! DEFINITION. Row instructions (R166 to R193): what each computes from its source rows, its tags (R56, R57) and flags
(R40, R169), and its place in the dispatch queue (R194, R195). -/

namespace Sys2Proof.Machine

/-! ## Lanes by type -/

/-- Lane width of a type (R71). -/
def laneBits (y : LaneType) : Nat := match y with | .f32 | .i32 | .u32 | .f32b => 32 | .bf16 | .f16 | .i16 | .bf16b => 16 | .i8 | .u8 => 8

/-- Lanes of a type in a row (R71). -/
def laneCount (y : LaneType) : Nat := 1024 / laneBits y

/-- The float format of a type, where it has one. -/
def laneFmt (y : LaneType) : Option Fmt :=
  match y with | .f32 | .f32b => some fp32 | .bf16 | .bf16b => some bf16 | .f16 => some fp16 | _ => none

/-- A signed integer type. -/
def laneSigned (y : LaneType) : Bool := match y with | .i32 | .i16 | .i8 => true | _ => false

/-- The lanes of a row, w bits wide. -/
def lanesOf (w : Nat) (r : RowData) : List Nat := (upTo (1024 / w)).map (lane w r)

/-- Lanes put together, the first lowest (R4). -/
def packLanes (w : Nat) : List Nat → Nat
  | [] => 0
  | x :: r => x % 2 ^ w + 2 ^ w * packLanes w r

/-- A row from its lanes; lanes not given are zero. -/
def rowFrom (w : Nat) (l : List Nat) : RowData := BitVec.ofNat 1024 (packLanes w l)

/-- A lane as an integer of its type (R71). -/
def laneInt (y : LaneType) (x : Nat) : Int := if laneSigned y then signed (laneBits y) x else (x : Int)

/-- The flags of several lanes (R40). -/
def orFlags (l : List FR) : Flags5 := l.foldl (fun (f : Flags5) r => f ||| r.fl) 0

/-- Rounding and flush of a form: .B forms round RNE and do not flush (R56). -/
def modeFor (y : LaneType) (c : Ctx) : Rm × Bool :=
  if y.bounded then (.rne, false) else (rmOf (c.mode.extractLsb' 4 2), c.mode.getLsbD 3)

/-! ## Results -/

/-- What a row instruction produces: its destination rows in the groups that start together, a scalar, flags,
saturations, lane-group cycles of a group. -/
structure RowRes where
  units : List (List ((TReg × Nat) × Row)) := []
  reg : Option (SReg × Word) := none
  fl : Flags5 := 0
  sats : Nat := 0
  cycles : Nat := 1
  deriving DecidableEq, Repr

/-- One destination row with its flags. -/
structure RowOut where
  row : Row
  fl : Flags5 := 0
  deriving DecidableEq, Repr

/-- An exact row of lanes. -/
def exactRow (w : Nat) (l : List FR) : RowOut := { row := { data := rowFrom w (l.map (·.bits)) }, fl := orFlags l }

/-- A result row with its tag (R57): the largest lane error, or unbounded. -/
def taggedRow (t : Fmt) (anyBounded : Bool) (l : List (FR × Dy)) : RowOut :=
  let bad := l.any fun p => match unpack t false p.1.bits with | .fin .. => false | _ => true
  let err := l.foldl (fun (m : Dy) p => m.max p.2) ⟨0, 0⟩
  let (b, e) := resultTag anyBounded bad err
  { row := { data := rowFrom t.width (l.map fun p => p.1.bits), b := b, e := e }, fl := orFlags (l.map (·.1)) }

/-! ## Lane arithmetic (R171, R181, R177) -/

/-- The operations of R171. -/
inductive Arith where
  | add | sub | mul | fma | min | max
  deriving DecidableEq, Repr

/-- A float lane of R171. -/
def floatOp (o : Arith) (t : Fmt) (rm : Rm) (ftz : Bool) (x y c : Nat) : FR :=
  match o with
  | .add => fadd t rm ftz x y
  | .sub => fsub t rm ftz x y
  | .mul => fmul t rm ftz x y
  | .fma => ffma t rm ftz x y c
  | .min => fminmax t ftz false x y
  | .max => fminmax t ftz true x y

/-- An integer lane of R171. -/
def intOp (o : Arith) (x y c : Int) : Int :=
  match o with
  | .add => x + y | .sub => x - y | .mul => x * y | .fma => x * y + c
  | .min => if y < x then y else x
  | .max => if x < y then y else x

/-- The propagated error p_k of R56. -/
def propError (o : Arith) (a b da db dc : Dy) : Dy :=
  let cross := ((a.mul db).add (b.mul da)).add (da.mul db)
  match o with
  | .add | .sub => da.add db
  | .mul => cross
  | .fma => cross.add dc
  | .min | .max => da.max db

/-- One row of VADD, VSUB, VMUL, VFMA, VMIN or VMAX (R171, R56, R57). -/
def arithRow (o : Arith) (y : LaneType) (c : Ctx) (a b d : Row) : RowOut :=
  let w := laneBits y
  let xs := (lanesOf w a.data).zip ((lanesOf w b.data).zip (lanesOf w d.data))
  match laneFmt y with
  | none => exactRow w (xs.map fun p => ⟨wrap w (intOp o (laneInt y p.1) (laneInt y p.2.1) (laneInt y p.2.2)), 0⟩)
  | some t =>
    let (rm, ftz) := modeFor y c
    if y.bounded then
      let da := tagBound a.b a.e
      let db := tagBound b.b b.e
      let dc := tagBound d.b d.e
      taggedRow t (a.b || b.b || (o == .fma && d.b)) (xs.map fun p =>
        let r := floatOp o t rm ftz p.1 p.2.1 p.2.2
        let h := if o = .min ∨ o = .max then ⟨0, 0⟩ else roundError t r.bits (r.fl &&& flNX != 0)
        (r, (propError o (magnitude t p.1) (magnitude t p.2.1) da db dc).add h))
    else exactRow w (xs.map fun p => floatOp o t rm ftz p.1 p.2.1 p.2.2)

/-- VABS, VNEG and VNABS of a lane (R172). -/
inductive Sign where
  | abs | neg | nabs
  deriving DecidableEq, Repr

/-- A lane of VABSNEG (R172). -/
def signLane (o : Sign) (y : LaneType) (x : Nat) : Nat :=
  let w := laneBits y
  let top := 2 ^ (w - 1)
  if (laneFmt y).isSome then
    match o with
    | .abs => x % top
    | .neg => if top ≤ x then x - top else x + top
    | .nabs => x % top + top
  else if laneSigned y then
    let v := signed w x
    match o with | .abs => wrap w v.natAbs | .neg => wrap w (-v) | .nabs => wrap w (-(v.natAbs : Int))
  else match o with | .abs => x | _ => wrap w (-(x : Int))

/-- A lane of VSHIFT (R174). -/
def shiftLane (y : LaneType) (x m : Nat) : Nat :=
  let w := laneBits y
  let n := signed w m
  if 0 ≤ n then (if w ≤ n.toNat then 0 else x * 2 ^ n.toNat % 2 ^ w)
  else wrap w (laneInt y x / (2 ^ min n.natAbs w : Nat))

/-- A lane of VCMP (R175): the relation and NV. -/
def compareLane (lt : Bool) (y : LaneType) (ftz : Bool) (x z : Nat) : FR :=
  let ones := 2 ^ laneBits y - 1
  match laneFmt y with
  | none => ⟨if (if lt then laneInt y x < laneInt y z else x = z) then ones else 0, 0⟩
  | some t =>
    let a := unpack t ftz x
    let b := unpack t ftz z
    ⟨if (if lt then ltV a b else eqV a b) then ones else 0, cmpFlags a b lt⟩

/-- A lane of VCVT (R177). -/
def convertLane (src dst : LaneType) (rm : Rm) (ftz : Bool) (x : Nat) : FR :=
  match laneFmt src, laneFmt dst with
  | some a, some b => convert a b rm ftz x
  | some a, none => let r := toInt a rm ftz (laneSigned dst) (laneBits dst) x; ⟨wrap (laneBits dst) r.1, r.2⟩
  | none, some b => ofInt b rm ftz (laneInt src x)
  | none, none =>
    let v := laneInt src x
    ⟨wrap (laneBits dst) (if laneSigned dst then satS v (laneBits dst) else satU v (laneBits dst)), 0⟩

/-- One row of VCVT (R177, R56): lanes up to the fewer, then zeros. -/
def convertRow (src dst : LaneType) (c : Ctx) (a : Row) : RowOut :=
  let (rm, ftz) := modeFor src c
  let l := ((lanesOf (laneBits src) a.data).take (laneCount dst)).map (convertLane src dst rm ftz)
  let pad := List.replicate (laneCount dst - laneCount src) (⟨0, 0⟩ : FR)
  match laneFmt dst with
  | some t =>
    if src.bounded then
      taggedRow t a.b ((l.map fun r => (r, (tagBound a.b a.e).add (roundError t r.bits (r.fl &&& flNX != 0)))) ++ pad.map fun r => (r, ⟨0, 0⟩))
    else exactRow (laneBits dst) (l ++ pad)
  | none => exactRow (laneBits dst) (l ++ pad)

/-- A lane of VSCALE (R181): x 2^m rounded. -/
def scaleLane (t : Fmt) (rm : Rm) (ftz : Bool) (x : Nat) (m : Int) : FR :=
  match unpack t ftz x with
  | .nan s => nanOut t s
  | .inf n => ⟨t.sign n + t.inf, 0⟩
  | .fin n k e => round t rm ftz n k (e + m)

/-- One row of VSCALE (R181, R56). -/
def scaleRow (y : LaneType) (c : Ctx) (a b : Row) : RowOut :=
  let w := laneBits y
  let (rm, ftz) := modeFor y c
  let xs := (lanesOf w a.data).zip ((lanesOf w b.data).map (signed w))
  match laneFmt y with
  | none => { row := {} }
  | some t =>
    if y.bounded then
      taggedRow t (a.b || b.b) (xs.map fun p =>
        let r := scaleLane t rm ftz p.1 p.2
        (r, ((⟨1, p.2⟩ : Dy).mul (tagBound a.b a.e)).add (roundError t r.bits (r.fl &&& flNX != 0))))
    else exactRow w (xs.map fun p => scaleLane t rm ftz p.1 p.2)

/-! ## BFP (R178) -/

/-- The containers of a block as one number (R43). -/
def containers (w : Nat) (m : List Int) : Nat := packLanes (containerBits w) (m.map fun x => wrap (containerBits w) x)

/-- The mantissas of a block's bytes (R43). -/
def mantissas (w : Nat) (x : Nat) : List Int := (upTo 32).map fun i => signed w (x / 2 ^ (containerBits w * i))

/-- Bytes of a block (R43). -/
def blockBytes (w : Nat) : Nat := 4 * containerBits w

/-- A tile as one number, byte b of the tile in bits [8b+7:8b] (R178). -/
def tileNum (rows : List RowData) : Nat := packLanes 1024 (rows.map (·.toNat))

/-! ## Reductions and scans (R179, R184, R191) -/

/-- A float lane widened to FP32 (R179), with its flags. -/
def widen (t : Fmt) (ftz : Bool) (x : Nat) : FR := convert t fp32 .rne ftz x

/-- One level of the pairwise tree (R179). -/
def pairUp : List FR → Bool → List FR
  | a :: b :: r, ftz => (let s := fadd fp32 .rne ftz a.bits b.bits; ⟨s.bits, a.fl ||| b.fl ||| s.fl⟩) :: pairUp r ftz
  | l, _ => l

/-- The pairwise tree (R179). -/
def treeSum : Nat → List FR → Bool → FR
  | 0, l, _ => l.headD ⟨0, 0⟩
  | fuel + 1, l, ftz => match l with | [] => ⟨0, 0⟩ | [a] => a | _ => treeSum fuel (pairUp l ftz) ftz

/-- MAX or MIN of FP32 patterns (R179, R41): the canonical NaN when every one is NaN. -/
def foldMinMax (hi : Bool) (l : List FR) : FR :=
  match l with
  | [] => ⟨0, 0⟩
  | a :: r =>
    let m := r.foldl (fun (m : FR) x => let z := fminmax fp32 false hi m.bits x.bits; ⟨z.bits, m.fl ||| x.fl ||| z.fl⟩) a
    if (unpack fp32 false m.bits).isNan then ⟨fp32.nan, m.fl⟩ else m

/-- The order of an FP32 pattern with -0 below +0 and NaN lowest (R142, R179, R190). -/
def rank32 (x : Nat) : Int :=
  let m : Nat := x % 2 ^ 31
  if 0x7F800000 < m then -(2 ^ 33 : Nat) else if x / 2 ^ 31 % 2 = 1 then -(m : Int) - 1 else m

/-- The lowest index of a largest element. -/
def argMax (l : List Int) : Nat :=
  match l with
  | [] => 0
  | a :: r => (r.foldl (fun (p : Nat × Nat × Int) x => if p.2.2 < x then (p.1 + 1, p.1 + 1, x) else (p.1 + 1, p.2.1, p.2.2)) (0, 0, a)).2.1

/-- VRED over rows (R179): the scalar and its flags. -/
def reduceRows (op : VredOp) (y : LaneType) (ftz : Bool) (rows : List RowData) : Word × Flags5 :=
  let w := laneBits y
  match laneFmt y with
  | some t =>
    let ls := rows.map fun r => (lanesOf w r).map (widen t ftz)
    let all := ls.flatten
    let r : FR := match op with
      | .sum => treeSum 5 (ls.map fun l => treeSum 8 l ftz) ftz
      | .max => foldMinMax true all
      | .min => foldMinMax false all
      | .argmax => ⟨argMax (all.map fun x => rank32 x.bits), orFlags all⟩
    (BitVec.ofNat 64 r.bits, r.fl)
  | none =>
    let all := rows.flatMap fun r => (lanesOf w r).map (laneInt y)
    match op with
    | .sum => (wordOf all.sum, 0)
    | .max => (wordOf (all.foldl (fun (m : Int) x => if m < x then x else m) (all.headD 0)), 0)
    | .min => (wordOf (all.foldl (fun (m : Int) x => if x < m then x else m) (all.headD 0)), 0)
    | .argmax => (BitVec.ofNat 64 (argMax all), 0)

/-- Prefix sums in FP32 (R184): one rounding a lane, from the sum before it on, which is +0 before lane 0 (R380). -/
def scanSums (ftz : Bool) : Nat → List FR → List FR
  | _, [] => []
  | a, x :: r => let s := fadd fp32 .rne ftz a x.bits; ⟨s.bits, x.fl ||| s.fl⟩ :: scanSums ftz s.bits r

/-- Running maxima in the lane format (R184). -/
def scanMax (t : Fmt) (ftz : Bool) : Nat → List Nat → List FR
  | _, [] => []
  | a, x :: r => let m := fminmax t ftz true a x; m :: scanMax t ftz m.bits r

/-- Integer prefix sums. -/
def scanInt : Int → List Int → List Int
  | _, [] => []
  | a, x :: r => (a + x) :: scanInt (a + x) r

/-- Integer running maxima. -/
def scanIntMax : Option Int → List Int → List Int
  | _, [] => []
  | none, x :: r => x :: scanIntMax (some x) r
  | some a, x :: r => let m := if a < x then x else a; m :: scanIntMax (some m) r

/-- VSCAN over one sequence of lanes (R184). -/
def scanLanes (op : ScanOp) (y : LaneType) (ftz : Bool) (l : List Nat) : List FR :=
  match laneFmt y with
  | some t =>
    match op with
    | .max => scanMax t ftz t.nan l
    | _ =>
      let sums := scanSums ftz 0 (l.map (widen t ftz))
      let out := sums.map fun r => let z := convert fp32 t .rne ftz r.bits; (⟨z.bits, z.fl⟩ : FR)
      let fl := orFlags sums
      let shown := if op = .xsum then (⟨0, 0⟩ : FR) :: out.dropLast else out
      match shown with | [] => [] | x :: r => ⟨x.bits, x.fl ||| fl⟩ :: r
  | none =>
    let v := l.map (laneInt y)
    let out := match op with
      | .sum => scanInt 0 v
      | .xsum => 0 :: (scanInt 0 v).dropLast
      | .max => scanIntMax none v
    out.map fun x => ⟨wrap (laneBits y) x, 0⟩

/-- VSRCH's count of entries below b (R185). -/
def countBelow (y : LaneType) (ftz : Bool) (table : List Nat) (b : Nat) : FR :=
  match laneFmt y with
  | some t =>
    let q := unpack t ftz b
    let vs := table.map (unpack t ftz)
    ⟨(vs.filter fun a => ltV a q).length, if q.isNan || vs.any (·.isNan) then flNV else 0⟩
  | none => ⟨(table.filter fun a => laneInt y a < laneInt y b).length, 0⟩

/-- MIX64 (R186). -/
def mix64 (seed ctr : Word) : Word :=
  let z := seed + ctr * 0xA5C31F6E7D294B87
  let z := (z ^^^ (z >>> 31)) * 0xE3B16C5A09F7D24D
  let z := (z ^^^ (z >>> 29)) * 0xA5C31F6E7D294B87
  z ^^^ (z >>> 32)

/-- One row of VMIX (R186). -/
def mixRow (y : LaneType) (ctrs seeds : RowData) : RowData :=
  let zs := ((lanesOf 64 ctrs).zip (lanesOf 64 seeds)).map fun p => (mix64 (BitVec.ofNat 64 p.2) (BitVec.ofNat 64 p.1)).toNat
  if y = .u32 then rowFrom 64 zs
  else rowFrom 64 (zs.map fun z => if z / 2 ^ 40 = 0 then 0 else (round fp32 .rne false false (z / 2 ^ 40) (-24)).bits)

/-- The shift of VIOTA's SH code (R187). -/
def iotaShift (h : BitVec 2) : Nat := match h.toNat with | 0 => 0 | 1 => 4 | 2 => 8 | _ => 16

/-- One column's order for TOPK (R190): rows by value descending, ties to the lower row. -/
def insertRank (x : Int × Nat) : List (Int × Nat) → List (Int × Nat)
  | [] => [x]
  | y :: r => if y.1 < x.1 then x :: y :: r else y :: insertRank x r

/-- An element as TOPK reads it (R190): under FTZ a subnormal is a zero of its sign (R38). -/
def topRead (e : TopkType) (ftz : Bool) (x : Nat) : Nat :=
  if e = .f32 ∧ ftz ∧ x / 2 ^ 23 % 256 = 0 then x / 2 ^ 31 % 2 * 2 ^ 31 else x

/-- TOPK's key of an element (R190). -/
def topKey (e : TopkType) (x : Nat) : Int := match e with | .f32 => rank32 x | .i32 => signed 32 x | .u32 => (x : Int)

/-- The rows of one column in rank order (R190). -/
def topColumn (e : TopkType) (col : List Nat) : List Nat :=
  ((col.mapIdx fun q x => (topKey e x, q)).foldl (fun l x => insertRank x l) []).map (·.2)

/-! ## Each instruction (R170 to R193) -/

/-- A named row, as the context names it; a row outside the context reads as an empty one (it traps at decode, R14). -/
def rowAt (s : State) (k : Nat) (c : Ctx) (t : TReg) (i : Nat) : Row :=
  match keyOf s k c (t, i) with | some key => (s.core (coreOf k)).row key | none => {}

/-- A result made row by row. -/
def byRow (r : Rows) (d : TReg) (cycles : Nat) (f : Nat → RowOut) : RowRes :=
  let outs := (rowsOf r).map fun i => (i, f i)
  { units := outs.map fun p => [((d, p.1), p.2.row)], fl := outs.foldl (fun (a : Flags5) p => a ||| p.2.fl) 0, cycles := cycles }

/-- Consecutive runs of n elements. -/
def chunk {α : Type} (n : Nat) : Nat → List α → List (List α)
  | 0, _ => []
  | m + 1, l => l.take n :: chunk n m (l.drop n)

/-- The result of a row instruction on the rows as they stand. -/
def rowRes (s : State) (k : Nat) (c : Ctx) : Instr → RowRes
  | .vadd _ d a b r y => byRow r d 1 fun i => arithRow .add y c (row a i) (row b i) {}
  | .vsub _ d a b r y => byRow r d 1 fun i => arithRow .sub y c (row a i) (row b i) {}
  | .vmul _ d a b r y => byRow r d 1 fun i => arithRow .mul y c (row a i) (row b i) {}
  | .vfma _ d a b r y => byRow r d 1 fun i => arithRow .fma y c (row a i) (row b i) (row d i)
  | .vmin _ d a b r y => byRow r d 1 fun i => arithRow .min y c (row a i) (row b i) {}
  | .vmax _ d a b r y => byRow r d 1 fun i => arithRow .max y c (row a i) (row b i) {}
  | .vabs _ d a r y => byRow r d 1 fun i => lanewise y (row a i) (signLane .abs y)
  | .vneg _ d a r y => byRow r d 1 fun i => lanewise y (row a i) (signLane .neg y)
  | .vnabs _ d a r y => byRow r d 1 fun i => lanewise y (row a i) (signLane .nabs y)
  | .vlogic _ d a b r op => byRow r d 1 fun i =>
      let x := (row a i).data
      let z := (row b i).data
      plain (match op with | .and => x &&& z | .or => x ||| z | .xor => x ^^^ z | .andn => x &&& ~~~ z | .not => ~~~ x)
  | .vshift _ d a b r y => byRow r d 1 fun i => plain (rowFrom (laneBits y)
      (((lanesOf (laneBits y) (row a i).data).zip (lanesOf (laneBits y) (row b i).data)).map fun p => shiftLane y p.1 p.2))
  | .vcmp _ d a b r lt y => byRow r d 1 fun i => exactRow (laneBits y)
      (((lanesOf (laneBits y) (row a i).data).zip (lanesOf (laneBits y) (row b i).data)).map fun p => compareLane lt y ftz p.1 p.2)
  | .vsel _ d a b r y => byRow r d 1 fun i =>
      let w := laneBits y
      plain (rowFrom w (((lanesOf w (row d i).data).zip ((lanesOf w (row a i).data).zip (lanesOf w (row b i).data))).map
        fun p => if p.1 ≠ 0 then p.2.1 else p.2.2))
  | .vcvt _ d a x r y => byRow r d 1 fun i => convertRow y x c (row a i)
  | .vpack _ d a b r m =>
    let w := m.toNat
    let bl := (rowsOf r).map fun i => packBfp w ftz (lanesOf 32 (row a i).data)
    let fl := bl.foldl (fun (f : Flags5) p => f ||| p.2.2.2) 0
    let sats := (bl.map fun p => p.2.2.1).sum
    if r.w then
      let tile := packLanes (8 * blockBytes w) (bl.map fun p => containers w p.2.1)
      let ex : Row := { data := rowFrom 8 (bl.map (·.1)) }
      let rows := (upTo 16).map fun i => ((d, i), ({ data := BitVec.ofNat 1024 (tile / 2 ^ (1024 * i)) } : Row))
      { units := (rows.dropLast.map fun x => [x]) ++ [(rows.drop 15) ++ [((b, 0), ex)]], fl := fl, sats := sats, cycles := 2 }
    else
      let p := bl.headD (0, [], 0, 0)
      { units := [[((d, r.row.toNat), { data := BitVec.ofNat 1024 (containers w p.2.1) }), ((b, r.row.toNat), { data := BitVec.ofNat 1024 p.1 })]]
        fl := fl, sats := sats, cycles := 2 }
  | .vunpk _ d a b r m =>
    let w := m.toNat
    let bb := blockBytes w
    let tile := tileNum ((upTo (packRows m)).map fun i => (row a i).data)
    byRow r d 2 fun i =>
      let (x, e) := if r.w then (tile / 2 ^ (8 * bb * i), lane 8 (row b 0).data i) else ((row a i).data.toNat, lane 8 (row b i).data 0)
      exactRow 32 ((mantissas w x).map (unpackBfp w rm ftz e))
  | .vred _ d a op r y =>
    let (v, fl) := reduceRows op y ftz ((rowsOf r).map fun i => (row a i).data)
    { units := (rowsOf r).map fun _ => [], reg := some (d, v), fl := fl, cycles := 2 }
  | .vbcast _ d a r y => byRow r d 1 fun _ => plain (rowFrom (laneBits y) (List.replicate (laneCount y) (c.rd a).toNat))
  | .vscale _ d a b r y => byRow r d 1 fun i => scaleRow y c (row a i) (row b i)
  | .vexp2 _ d a r y => byRow r d 4 fun i => fcall y (row a i) exp2
  | .vlog2 _ d a r y => byRow r d 4 fun i => fcall y (row a i) log2
  | .vrcp _ d a r y => byRow r d 3 fun i => fcall y (row a i) rcp
  | .vrsqrt _ d a r y => byRow r d 3 fun i => fcall y (row a i) rsqrt
  | .vperm _ d a b r y => byRow r d 1 fun i =>
      let w := laneBits y
      let xs := lanesOf w (row a i).data
      plain (rowFrom w ((lanesOf w (row b i).data).map fun j => xs.getD j 0))
  | .vscan _ d a op r y =>
    let w := laneBits y
    let rows := rowsOf r
    let out := scanLanes op y ftz (rows.flatMap fun i => lanesOf w (row a i).data)
    let parts := (chunk (laneCount y) rows.length out).zip rows
    { units := parts.map fun p => [((d, p.2), { data := rowFrom w (p.1.map (·.bits)) })], fl := orFlags out, cycles := 2 }
  | .vsrch _ d a b r y =>
    let w := laneBits y
    let whole := if r.w then (upTo 16).flatMap fun i => lanesOf w (row a i).data else lanesOf w (row a r.row.toNat).data
    byRow r d (if r.w then 8 else 2) fun i => exactRow w ((lanesOf w (row b i).data).map (countBelow y ftz whole))
  | .vmix _ d a b r y => byRow r d 2 fun i => plain (mixRow y (row a i).data (row b i).data)
  | .viota _ d a p h r y =>
    let w := if p then 64 else laneBits y
    let n := 1024 / w
    byRow r d 1 fun i => plain (rowFrom w ((upTo n).map fun j => (c.rd a).toNat + (j + if r.w then i * n else 0) * 2 ^ iotaShift h))
  | .tmov _ d a r => byRow r d 1 fun i => { row := { (row a i) with pend := 0, poison := none, bad := 0 } }
  | .tzero _ d r => byRow r d 1 fun _ => plain 0
  | .ttrans _ d a y =>
    let w := laneBits y
    let rows := (upTo 16).map fun i => lanesOf w (row a i).data
    { units := [(upTo 16).map fun i => ((d, i), { data := rowFrom w ((upTo (1024 / w)).map fun x => (rows.getD (x % 16) []).getD (x / 16 * 16 + i) 0) })]
      cycles := 16 }
  | .topk _ d a b kk g e =>
    let rows := (groupTiles a g).flatMap fun t => (upTo 16).map fun i => (lanesOf 32 (row t i).data).map (topRead e ftz)
    let cols := (upTo 32).map fun x => rows.map fun l => l.getD x 0
    let ranks := cols.map (topColumn e)
    let idx (i : Nat) : List Nat := ranks.map fun l => if i ≤ kk.toNat then l.getD i 0 else 0xFFFFFFFF
    let val (i : Nat) : List Nat := (ranks.zip cols).map fun p => if i ≤ kk.toNat then p.2.getD (p.1.getD i 0) 0 else 0
    { units := [((upTo 16).map fun i => ((d, i), { data := rowFrom 32 (idx i) })) ++ ((upTo 16).map fun i => ((b, i), { data := rowFrom 32 (val i) }))]
      cycles := 16 * g.tiles }
  | .tcolred _ d a op rr y =>
    let w := laneBits y
    let rows := (upTo 16).map fun i => lanesOf w (row a i).data
    let l := (upTo (1024 / w)).map fun x => colRed op y (rows.map fun l => l.getD x 0)
    let o := exactRow w l
    { units := [[((d, rr.toNat), o.row)]], fl := o.fl, cycles := 16 }
  | .tfix _ d a r _ => byRow r d 1 fun i => plain (row a i).data
  | .tbndRd _ d a rr _ =>
    let x := row a rr.toNat
    { units := [[]], reg := some (d, BitVec.ofNat 64 ((if x.b then 256 else 0) + x.e.toNat)) }
  | .tbndSet _ d a r _ => byRow r d 1 fun i =>
      let x := row d i
      let v : Byte := (c.rd a).truncate 8
      { row := { data := x.data, b := true, e := if x.b ∧ v.toNat < x.e.toNat then x.e else v } }
  | _ => {}
where
  /-- A source row. -/
  row (t : TReg) (i : Nat) : Row := rowAt s k c t i
  /-- An exact row of bits. -/
  plain (d : RowData) : RowOut := { row := { data := d } }
  /-- mode.FTZ. -/
  ftz : Bool := c.mode.getLsbD 3
  /-- mode.FRM. -/
  rm : Rm := rmOf (c.mode.extractLsb' 4 2)
  /-- A row made lane by lane with no flag. -/
  lanewise (y : LaneType) (x : Row) (f : Nat → Nat) : RowOut := plain (rowFrom (laneBits y) ((lanesOf (laneBits y) x.data).map f))
  /-- A transcendental row. -/
  fcall (y : LaneType) (x : Row) (f : Fmt → Bool → Nat → FR) : RowOut :=
    match laneFmt y with
    | some t => exactRow (laneBits y) ((lanesOf (laneBits y) x.data).map (f t ftz))
    | none => { row := {} }
  /-- One column of TCOLRED (R191). -/
  colRed (op : ColOp) (y : LaneType) (col : List Nat) : FR :=
    match laneFmt y with
    | some t =>
      let ws := col.map (widen t ftz)
      let r := match op with | .sum => treeSum 5 ws ftz | .max => foldMinMax true ws | .min => foldMinMax false ws
      let z := convert fp32 t .rne ftz r.bits
      ⟨z.bits, r.fl ||| z.fl⟩
    | none =>
      let v := col.map (laneInt y)
      let r := match op with
        | .sum => v.sum
        | .max => v.foldl (fun (m : Int) x => if m < x then x else m) (v.headD 0)
        | .min => v.foldl (fun (m : Int) x => if x < m then x else m) (v.headD 0)
      ⟨wrap (laneBits y) r, 0⟩

/-! ## TYPE (R168) -/

/-- Whether a row instruction reads bounded rows: .B forms and TFIX do; TMOV and TBND are not checked at all. -/
def readsBounded : Instr → Option Bool
  | .vadd _ _ _ _ _ y | .vsub _ _ _ _ _ y | .vmul _ _ _ _ _ y | .vfma _ _ _ _ _ y | .vmin _ _ _ _ _ y | .vmax _ _ _ _ _ y => some y.bounded
  | .vcvt _ _ _ _ _ y => some y.bounded
  | .vscale _ _ _ _ _ y => some y.bounded
  | .tfix .. => some true
  | .tstB .. => some true
  | .tmov .. | .tbndRd .. | .tbndSet .. => none
  | _ => some false

/-- The first source row that fails R168. -/
def typeTrap (s : State) (k : Nat) (c : Ctx) (bounded : Bool) (l : List (TReg × Nat)) : Option TrapInfo :=
  l.findSome? fun p =>
    let x := rowAt s k c p.1 p.2
    let at_ : Word := BitVec.ofNat 64 (16 * p.1.toNat + p.2)
    if x.b ∧ x.e = 0xFF then some (trapOf causeType 2 at_)
    else if x.b ∧ ¬bounded then some (trapOf causeType 1 at_)
    else none

/-- The TYPE check of an instruction (R131, R142, R168, R214). -/
def typeCheck (s : State) (k : Nat) (c : Ctx) (i : Instr) : Option TrapInfo :=
  match i with
  | .rleave .. => typeTrap s k c false [(15, 0)]
  | _ => match readsBounded i with | some b => typeTrap s k c b (infoIn c i).rsrc | none => none

/-! ## The dispatch queue (R194) -/

/-- The largest E among bounded source rows of TFIX (R192). -/
def fixBound (s : State) (k : Nat) (c : Ctx) (l : List (TReg × Nat)) : Nat :=
  l.foldl (fun (m : Nat) p => let x := rowAt s k c p.1 p.2; if x.b then max m x.e.toNat else m) 0

/-- Floating-point operations per lane of a row instruction and its lane type (R340). -/
def fpOps : Instr → Option (Nat × LaneType × Nat)
  | .vadd _ _ _ _ r y | .vsub _ _ _ _ r y | .vmul _ _ _ _ r y | .vmin _ _ _ _ r y | .vmax _ _ _ _ r y => some (1, y, (rowsOf r).length)
  | .vfma _ _ _ _ r y => some (2, y, (rowsOf r).length)
  | .vabs _ _ _ r y | .vneg _ _ _ r y | .vnabs _ _ _ r y => some (1, y, (rowsOf r).length)
  | .vcmp _ _ _ _ r _ y | .vscale _ _ _ _ r y => some (1, y, (rowsOf r).length)
  | .vexp2 _ _ _ r y | .vlog2 _ _ _ r y | .vrcp _ _ _ r y | .vrsqrt _ _ _ r y => some (1, y, (rowsOf r).length)
  | .vred _ _ _ _ r y | .vscan _ _ _ _ r y => some (1, y, (rowsOf r).length)
  | .tcolred _ _ _ _ _ y => some (1, y, 16)
  | _ => none

/-- Vector FP lanes times operations of an instruction (R340). -/
def laneOps (i : Instr) : Nat :=
  match fpOps i with
  | some (n, y, rows) => if (laneFmt y).isSome then n * rows * laneCount y else 0
  | none => 0

/-- A row instruction issues (R194): its destinations are pending and its rows join the queue. -/
def effRow (i : Instr) (s : State) : State :=
  let k := s.cur
  let c := me s
  let r := rowRes s k c i
  let units := r.units.map fun u => u.filterMap fun p => (keyOf s k c p.1).map fun key => (key, p.2)
  let regs := match r.reg with | some p => [p] | none => []
  let s := match i with
    | .tfix _ _ a rr _ => s.modCtx k fun x => { x with xstat := BitVec.ofNat 64 (fixBound s k c (rowsAt a (rowsOf rr))) }
    | _ => s
  let s := pendRows (coreOf k) (units.flatten.map (·.1)) (setPending k (regs.map (·.1)) s)
  let d : Dispatch := { ctx := k, units := units, regs := regs, flags := r.fl, sats := r.sats, cycles := r.cycles }
  -- no row instruction has a fixed latency (R10, R62)
  offCore k (countOps k (laneOps i) (s.modCore (coreOf k) fun x => { x with queue := x.queue ++ [d] }))

/-- Room in the dispatch queue (R194). -/
def rowRoom (s : State) (core : Nat) : Bool := (s.core core).queue.length < 8

/-- The cores of a cell whose dispatch queues hold a row (R196). -/
def readyHeads (s : State) (cell : Nat) : List Nat := (upTo 4).filter fun i => !(s.core (4 * cell + i)).queue.isEmpty

/-- The vshare of core i of a cell. -/
def shareOf (s : State) (cell i : Nat) : Nat := (s.core (4 * cell + i)).vshare.toNat

/-- The core in cell that the arbiter grants a free lane group (R196; log entry 78): the one whose turn it is, for as many
grants as its share, else the next that is ready. -/
def grantee (s : State) (cell : Nat) : Option Nat :=
  let x := s.cell cell
  let heads := readyHeads s cell
  if heads.contains x.turn ∧ x.granted < shareOf s cell x.turn then some x.turn
  else [(x.turn + 1) % 4, (x.turn + 2) % 4, (x.turn + 3) % 4, x.turn].find? heads.contains

/-- A grant to core i of a cell. -/
def Cell.grant (i share : Nat) (x : Cell) : Cell :=
  { x with turn := i, granted := if x.turn = i ∧ x.granted < share then x.granted + 1 else 1 }

/-- A free lane group of a cell (R195). -/
def freeLane (s : State) (cell : Nat) : Option (Fin 4) := (upTo 4).findSome? fun i =>
  if h : i < 4 then (if (s.cell cell).lanes.get ⟨i, h⟩ ≤ s.cycle then some ⟨i, h⟩ else none) else none

/-- ROW_START (R195, R196): the arbiter grants the core a free lane group; its head's next rows start there, when the
governor lets the lane groups (R414), and land six cycles after their last lane-group cycle. -/
def effRowStart (core : Nat) (s : State) : State :=
  let cell := core / 4
  match (s.core core).queue, freeLane s cell with
  | d :: rest, some g =>
    match d.units with
    | [] => s.modCore core fun x => { x with queue := rest }
    | u :: us =>
      if grantee s cell ≠ some (core % 4) ∨ !mayStart s (pkgOf core) 2 cell then s else
      let last : Bool := us.isEmpty
      let l : Landing := { Landing.empty with
        due := s.cycle + d.cycles + 5
        rows := u
        regs := if last then d.regs else []
        flags := if last then d.flags else 0
        sats := if last then d.sats else 0
        row := true, firm := true }
      let s := s.modCell cell fun x =>
        { (x.grant (core % 4) (shareOf s cell (core % 4))) with lanes := x.lanes.set g.val (s.cycle + d.cycles) g.isLt }
      let s := s.modCore core fun x => { x with queue := if last then rest else { d with units := us } :: rest }
      queueLanding d.ctx l s
  | _, _ => s

/-- A row instruction of a context has not landed (R169). -/
def rowsOut (s : State) (k : Nat) : Bool :=
  (s.core (coreOf k)).queue.any (fun d => d.ctx == k) || (s.ctx k).landings.any (·.row)

end Sys2Proof.Machine
end

