-- ==== Sys2Proof/Machine/Plates.lean ====
section
/-! DEFINITION. Plates (R216 to R233): the port queue, issue checks of PMOV, exposures, programming, calibration. What the
manual leaves open (codes, readings, verification, calibration results) are free values within the manual's bounds (log
entry 13). -/

namespace Sys2Proof.Machine

/-! ## Words of a plate -/

/-- A calibration word (R232). -/
def Plate.word (p : Plate) (i : Nat) : Word := look 0 p.cal i

/-- A calibration word set, which clears its poison (R408); a word that is zero is not listed. -/
def Plate.setWord (p : Plate) (i : Nat) (v : Word) : Plate := { p with cal := if v = 0 then drop i p.cal else put i v p.cal, badCal := p.badCal.filter (· ≠ i) }

/-- The last reading, in 1/256 LSB: the READ field of word 1 (R231, R232). -/
def Plate.read (p : Plate) : Nat := wf (p.word 1) 15 0

/-- gain_c and off_c of a column (R232). -/
def Plate.gain (p : Plate) (c : Nat) : Nat := (p.word (2 + c / 2)).toNat / 2 ^ (32 * (c % 2) + 16) % 2 ^ 16
def Plate.off (p : Plate) (c : Nat) : Int := signed 16 ((p.word (2 + c / 2)).toNat / 2 ^ (32 * (c % 2)) % 2 ^ 16)

/-- The reference level v_ik (R232). -/
def Plate.level (p : Plate) (k i : Nat) : Int := signed 8 ((p.word (134 + 32 * k + i / 8)).toNat / 2 ^ (8 * (i % 8)) % 256)

/-- A weight level (R216). -/
def Plate.weight (p : Plate) (i j : Nat) : Int := signed 8 ((look 0 p.w i).toNat / 2 ^ (8 * j) % 256)

/-- STAT.FAILED (R231): a row is marked bad, or the last REFIX failed. -/
def Plate.failed (p : Plate) : Bool := p.refixFailed || !p.badRows.isEmpty

/-- A plate of a core. -/
def CoreSt.plate (c : CoreSt) (n : Nat) : Plate := look {} c.plates n

/-- A plate changed. -/
def modPlate (core n : Nat) (f : Plate → Plate) (s : State) : State :=
  s.modCore core fun c => { c with plates := put n (f (c.plate n)) c.plates }

/-- STALE (R231): the reading is older than 1 ms, or calibration was written since. -/
def plateStale (s : State) (core n : Nat) : Bool :=
  let p := (s.core core).plate n
  p.calWritten || p.readAt + 1000000 < dial s (dieOf core)

/-- STAT (R231) of a plate for a context, with the moves behind this one. -/
def plateStat (s : State) (k n qlen : Nat) : Word :=
  let c := s.ctx k
  let p := (s.core (coreOf k)).plate n
  let alloc := ((upTo 4).filter fun i => c.plateBase ≤ i ∧ i < c.plateBase + c.plateCount).foldl (fun a i => a + 2 ^ i) 0
  BitVec.ofNat 64 (alloc * 2 ^ 60 + p.clips.toNat * 2 ^ 48 + p.wsat.toNat * 2 ^ 40 + p.wbad.toNat * 2 ^ 32 + qlen % 16 * 2 ^ 28 +
    (if plateStale s (coreOf k) n then 2 ^ 25 else 0) + (if p.failed then 2 ^ 24 else 0) + (if p.drift then 2 ^ 23 else 0) + p.read)

/-! ## Issue checks (R221) -/

/-- The value of a port move. -/
def portWord (c : Ctx) (v : PortVal) : Word := match v with | .reg a => c.rd a | .imm x => BitVec.ofNat 64 x.unsigned

/-- A context's plate. -/
def ownsPlate (c : Ctx) (n : Nat) : Bool := c.plateBase ≤ n && n < c.plateBase + c.plateCount

/-- An OPERAND trap. -/
def operand (n : Nat) : Option TrapInfo := some (trapOf causeOperand n 0)

/-- A scale that is NaN, infinite or subnormal (R221). -/
def badScale (v : Word) : Bool :=
  let x := v.toNat % 2 ^ 32
  match unpack fp32 false x with | .fin _ m _ => m != 0 && x % 2 ^ 31 < 2 ^ 23 | _ => true

/-- The PSEL value that a context's next move will find: its last one in the queue, else the latch (R218). -/
def pselNext (s : State) (k : Nat) : Nat :=
  ((s.core (coreOf k)).ports.foldl (fun (n : BitVec 2) m => match m.op with | .psel v => if m.ctx = k then v else n | _ => n)
    (s.ctx k).latches.psel).toNat

/-- A move acts on the PSEL plate, which the context must hold (R217; log entry 79). -/
def onPlate (s : State) (k : Nat) (c : Ctx) : Option TrapInfo := if ownsPlate c (pselNext s k) then none else operand 17

/-- The OPERAND rows of R221's table, in its order. -/
def portTable (s : State) (k : Nat) (c : Ctx) : Instr → Option TrapInfo
  | .pmovPsel v =>
    let x := portWord c v
    if !ownsPlate c (wf x 1 0) then operand 17 else if 4 ≤ x.toNat then operand 16 else none
  | .pmovGain v => if 16 ≤ (portWord c v).toNat then operand 16 else none
  | .pmovXscl v => if badScale (portWord c v) then operand 16 else none
  | .pmovWscl v => if badScale (portWord c v) then operand 16 else none
  | .pmovYout v =>
    let x := portWord c v
    if x.toNat % 8 ≠ 0 ∨ 256 ≤ x.toNat then operand 16
    else if (tileOf s k c (wf x 7 4)).isNone then operand 18 else none
  | .pmovWrow _ a _ => if 256 ≤ (c.rd a).toNat then operand 19 else none
  | .pmovCalwWrite d _ => if 390 ≤ (c.rd d).toNat then operand 16 else none
  | .pmovCalwRead _ a => if 390 ≤ (c.rd a).toNat then operand 16 else none
  | _ => none

/-- PMOV's OPERAND traps: the rows of the table, then the plate that a move acts on. -/
def portTrap (s : State) (k : Nat) (c : Ctx) (i : Instr) : Option TrapInfo :=
  portTable s k c i <|>
  match i with
  | .pmovWrow .. | .pmovCalwWrite .. | .pmovCalwRead .. | .pmovExpose | .pmovWgo | .pmovRefix | .pmovStat _ => onPlate s k c
  | _ => none

/-- EXPOSE's traps once its conditions hold (R223, R228). -/
def exposeTrap (s : State) (k : Nat) : Option TrapInfo :=
  let n := (s.ctx k).latches.psel.toNat
  let p := (s.core (coreOf k)).plate n
  let t (sub : Nat) : Option TrapInfo :=
    some { cause := causeRefix, sub := BitVec.ofNat 8 sub, addr := BitVec.ofNat 64 n, stat := some (plateStat s k n 0) }
  if p.failed then t 2 else if p.drift then t 1 else none

/-- The rows that an exposure writes (R225). -/
def youtRows (s : State) (k : Nat) (c : Ctx) : List Nat :=
  let y := c.latches.yout.toNat
  match tileOf s k c (y / 16) with
  | some t => (upTo 8).map fun i => rowKey t (y / 8 % 2 * 8 + i)
  | none => []

/-- EXPOSE may issue (R223): queue empty, unit idle and free to start (R414), rows not pending, reading fresh. -/
def exposeReady (s : State) (k : Nat) : Bool :=
  let x := s.core (coreOf k)
  let c := s.ctx k
  x.ports.isEmpty && x.trigger.isNone && mayStart s (pkgOf (coreOf k)) 0 (coreOf k) && (youtRows s k c).all (fun key => !rowHeld s k c key) &&
    !plateStale s (coreOf k) c.latches.psel.toNat

/-- Room in the port queue (R218). -/
def portRoom (s : State) (core : Nat) : Bool := (s.core core).ports.length < 16

/-! ## Issuing a move -/

/-- A move joins the port queue (R218): it is applied no earlier than the next cycle. -/
def pushMove (k : Nat) (op : PortOp) (s : State) : State :=
  s.modCore (coreOf k) fun x => { x with
    ports := x.ports ++ [⟨k, op⟩], portAt := if x.ports.isEmpty then max x.portAt (s.cycle + 1) else x.portAt }

/-- Two rows as 256 bytes (R220). -/
def rowPair (s : State) (k : Nat) (c : Ctx) (t : TReg) (row : Nat) : BitVec 2048 :=
  ((rowAt s k c t row).data.zeroExtend 2048) ||| (((rowAt s k c t (row + 1)).data.zeroExtend 2048) <<< 1024)

/-- Byte i of 256. -/
def byteOf (x : BitVec 2048) (i : Nat) : Nat := (x >>> (8 * i)).toNat % 256

/-- 256 weights clamped to -31..31 and the number clamped (R230). -/
def clampWeights (x : BitVec 2048) : BitVec 2048 × Nat :=
  let v := (upTo 256).map fun i => signed 8 (byteOf x i)
  (BitVec.ofNat 2048 (packLanes 8 (v.map fun w => wrap 8 (min (max w (-31)) 31))), (v.filter fun w => w < -31 || 31 < w).length)

/-- A PMOV of the running context, with the values read at issue (R221). -/
def effPmov (i : Instr) (s : State) : State :=
  let k := s.cur
  let c := me s
  match i with
  | .pmovPsel v => pushMove k (.psel ((portWord c v).truncate 2)) s
  | .pmovXin t row => pushMove k (.xin (rowPair s k c t row.toNat)) s
  | .pmovGain v => pushMove k (.gain ((portWord c v).truncate 4)) s
  | .pmovXscl v => pushMove k (.xscl ((portWord c v).truncate 32)) s
  | .pmovWscl v => pushMove k (.wscl ((portWord c v).truncate 32)) s
  | .pmovYout v => pushMove k (.yout ((portWord c v).truncate 8)) s
  | .pmovWrow t a row =>
    let (w, n) := clampWeights (rowPair s k c t row.toNat)
    pushMove k (.wrow ((c.rd a).truncate 8) w n) s
  | .pmovWgo => pushMove k .wgo s
  | .pmovRefix => pushMove k .refix s
  | .pmovStat d => offCore k (pushMove k (.stat d) (setPending k [d] s))
  | .pmovCalwWrite d a => pushMove k (.calwWrite (c.rd d).toNat (c.rd a)) s
  | .pmovCalwRead d a => offCore k (pushMove k (.calwRead d (c.rd a).toNat) (setPending k [d] s))
  | _ => s

/-- EXPOSE issues (R223, R224): its rows are pending and the exposure starts with the latches. -/
def effExpose (s : State) : State :=
  let k := s.cur
  let c := s.ctx k
  let s := pendRows (coreOf k) (youtRows s k c) (pushMove k .expose s)
  offCore k (s.modCore (coreOf k) fun x => { x with trigger := some (.expose c.latches.psel.toNat k c.latches, s.cycle + 49) })

/-! ## The unit -/

/-- A calibration word as CALW stores it (R232): word 1 keeps 32 bits. A REF byte beyond -31 to 31 is stored as written (log
entry 91). -/
def calWord (i : Nat) (v : Word) : Word := if i = 1 then v &&& 0xFFFFFFFF else v

/-- A saturating byte count. -/
def satByte (x : Byte) (n : Nat) : Byte := BitVec.ofNat 8 (min (x.toNat + n) 255)

/-- A move that starts the plate unit at the head of the queue (R218). -/
def PortOp.starts : PortOp → Bool
  | .wgo => true | .refix => true | _ => false

/-- The head move is to be applied (R218): its cycle has come, no trigger runs, its launch is not being pre-empted (R233),
and the governor lets a trigger start (R414). -/
def portReady (s : State) (core : Nat) : Bool :=
  let x := s.core core
  x.trigger.isNone && x.portAt ≤ s.cycle && match x.ports with
    | m :: _ => !launchStops s m.ctx && (!m.op.starts || mayStart s (pkgOf core) 0 core)
    | [] => false

/-- PORT_MOVE_APPLY (R218): the head move is applied, one in a cycle; a trigger starts and stays at the head. -/
def effPortApply (core : Nat) (s : State) : State :=
  let x := s.core core
  match x.ports with
  | m :: rest =>
    if !portReady s core then s else
    let k := m.ctx
    let n := (s.ctx k).latches.psel.toNat
    let pop (s : State) : State := s.modCore core fun x => { x with ports := rest, portAt := s.cycle + 1 }
    let latch (f : Latches → Latches) : State := pop (s.modCtx k fun c => { c with latches := f c.latches })
    let land (d : SReg) (v : Word) (s : State) : State :=
      queueLanding k { Landing.empty with due := s.cycle, regs := [(d, v)] } (pop s)
    match m.op with
    | .psel v => latch fun l => { l with psel := v }
    | .gain v => latch fun l => { l with gain := v }
    | .xscl v => latch fun l => { l with xscl := v }
    | .wscl v => latch fun l => { l with wscl := v }
    | .yout v => latch fun l => { l with yout := v }
    | .xin v => latch fun l => { l with xin := v }
    | .wrow i v clamped =>
      modPlate core n (fun p => { p with wsat := satByte p.wsat clamped }) (latch fun l => { l with wrowIndex := i, wrow := v })
    | .stat d => modPlate core n (fun p => { p with wsat := 0, wbad := 0 }) (land d (plateStat s k n rest.length) s)
    | .calwRead d i =>
      let p := (s.core core).plate n
      queueLanding k { Landing.empty with
        due := s.cycle, regs := [(d, p.word i)], poison := if p.badCal.contains i then some ⟨causeEcc, 0⟩ else none } (pop s)
    | .calwWrite i v => modPlate core n (fun p => { p.setWord i (calWord i v) with calWritten := true }) (pop s)
    | .wgo =>
      let l := (s.ctx k).latches
      s.modCore core fun x => { x with trigger := some (.wgo n l.wrowIndex l.wrow, s.cycle + 6000) }
    | .refix => s.modCore core fun x => { x with trigger := some (.refix n, s.cycle + 120000) }
    | .expose => s
  | [] => s

/-- A trigger that has completed leaves the head (R218). -/
def endTrigger (core : Nat) (s : State) : State :=
  s.modCore core fun x => { x with trigger := none, ports := x.ports.tail, portAt := s.cycle }

/-- A reading in 1/256 LSB is in the part's reach (R227): no more than 1 LSB per ms beyond the last, unless calibration was
written since. -/
def readingOk (p : Plate) (now v : Nat) : Bool := p.calWritten || v ≤ p.read + 256 * (now - p.readAt) / 1000000

/-- A reading taken (R227, R231): its READ field, and DRIFT where it lies above 2 LSB. -/
def setReading (core n v : Nat) (drift : Bool) (s : State) : State :=
  let now := dial s (dieOf core)
  modPlate core n (fun p => { p.setWord 1 ((p.word 1 &&& ~~~ 0xFFFF) ||| BitVec.ofNat 64 (min v 0xFFFF)) with
    readAt := now, drift := drift, calWritten := false }) s

/-- The reading of a reference pass (R223): the built-in test inputs, and with them e_k, are not known, so it is free in
the part's reach (log entry 13). -/
def passReading (core n : Nat) (s : State) : State :=
  let p := (s.core core).plate n
  let v := wf (Config.freeWord s.freeCtr) 15 0
  let v := if readingOk p (dial s (dieOf core)) v then v else p.read
  setReading core n v (512 < v) { s with freeCtr := s.freeCtr + 1 }

/-- A context waits for an exposure of a plate whose reading is stale, with the unit free (R223); of several, the
lowest-numbered context's plate is taken (log entry 90). -/
def wantsPass (s : State) (core : Nat) : Option Nat :=
  let x := s.core core
  if x.ports.isEmpty && x.trigger.isNone && mayStart s (pkgOf core) 0 core then
    ((upTo 4).find? fun i =>
      let c := s.ctx (8 * core + i)
      c.park == .expose && !launchStops s (8 * core + i) && plateStale s core c.latches.psel.toNat && (youtRows s (8 * core + i) c).all fun key => !rowWaits s (8 * core + i) c key).map
      fun i => (s.ctx (8 * core + i)).latches.psel.toNat
  else none

/-- REFERENCE_PASS (R223): a pass of 48 cycles starts for a waiting EXPOSE, and renews the reading when it ends. -/
def effReferencePass (core : Nat) (s : State) : State :=
  match (s.core core).trigger with
  | some (.reference n, due) => if due ≤ s.cycle then passReading core n (s.modCore core fun x => { x with trigger := none }) else s
  | some _ => s
  | none =>
    match wantsPass s core with
    | some n => s.modCore core fun x => { x with trigger := some (.reference n, s.cycle + 48) }
    | none => s

/-- The integer sum of a column (R216). -/
def columnSum (f : Nat → Int) (x : BitVec 2048) : Int := ((upTo 256).map fun i => signed 8 (byteOf x i) * f i).sum

/-- XSCL x WSCL as an exact signed significand and exponent. -/
def scaleProduct (l : Latches) : Int × Int :=
  match unpack fp32 false l.xscl.toNat, unpack fp32 false l.wscl.toNat with
  | .fin n m e, .fin n' m' e' => ((if n != n' then -((m * m' : Nat) : Int) else ((m * m' : Nat) : Int)), e + e')
  | _, _ => (0, 0)

/-- The output of a column for a converter code (R225). -/
def outputOf (p : Plate) (l : Latches) (j : Nat) (code : Int) : FR :=
  let (m, e) := scaleProduct l
  roundInt fp32 .rne false false ((64 * code - p.off j) * p.gain j * m) (e + 11 - l.gain.toNat - 21)

/-- |y - exact| is at most FS/128 (R225). -/
def withinBound (l : Latches) (sum : Int) (y : Nat) : Bool :=
  let (m, e) := scaleProduct l
  match unpack fp32 false y with
  | .fin n k ey =>
    let e0 := min ey (min e (e + 13 - l.gain.toNat))
    let yv := scaled n k ey e0
    let ex := sum * m * (2 ^ (e - e0).toNat : Nat)
    (yv - ex).natAbs ≤ m.natAbs * 2 ^ (e + 13 - l.gain.toNat - e0).toNat
  | _ => false

/-- A column clips (R226): its sum lies beyond 511.5 LSB. -/
def clips (l : Latches) (sum : Int) : Bool := 1023 * 2 ^ 10 < sum.natAbs * 2 ^ l.gain.toNat

/-- The delivered output of a column that does not clip: that of a free code, when it keeps the bound; else that of the
first code that does (R225; log entry 13). Where calibration words that CALW has written leave no such code, it is the free
code's: every output is a code's. -/
def freeOutput (p : Plate) (l : Latches) (j : Nat) (sum : Int) (free : Word) : Nat :=
  let y := (outputOf p l j (signed 10 free.toNat)).bits
  if withinBound l sum y then y else
  (((upTo 1024).map fun (c : Nat) => (outputOf p l j ((c : Int) - 512)).bits).find? (withinBound l sum)).getD y

/-- RoundF32 of FS with the sign of a clipped element (R226). -/
def clippedOutput (l : Latches) (sum : Int) : Nat :=
  let (m, e) := scaleProduct l
  (roundInt fp32 .rne false false (if sum < 0 then -m else m) (e + 20 - l.gain.toNat)).bits

/-- The eight rows of an exposure and the clipped elements of each (R225, R226). -/
def exposureRows (p : Plate) (l : Latches) (base : Nat) : List (Row × Nat) :=
  let (m, e) := scaleProduct l
  let fs : Dy := ⟨m.natAbs, e + 13 - l.gain.toNat⟩
  (upTo 8).map fun r =>
    if m = 0 then ({ data := 0, b := true, e := 0 }, 0) else
    let cols := (upTo 32).map fun c =>
      let j := 32 * r + c
      let sum := columnSum (fun i => p.weight i j) l.xin
      if clips l sum then (clippedOutput l sum, true) else (freeOutput p l j sum (Config.freeWord (base + j)), false)
    let n := (cols.filter (·.2)).length
    ({ data := rowFrom 32 (cols.map (·.1)), b := true, e := if n = 0 then boundOf fs else 0xFF }, n)

/-- e_k, the expected sum of a reference column (R227). -/
def refSum (p : Plate) (l : Latches) (k : Nat) : Int := columnSum (fun i => p.level k i) l.xin

/-- The reference columns that qualify for the reading (R227). -/
def qualified (p : Plate) (l : Latches) : List Nat :=
  (upTo 8).filter fun k => (refSum p l k).natAbs * 2 ^ l.gain.toNat ≤ 448 * 2 ^ 11

/-- |z - e_k / 2^(11 - G)| of a reference column for a converter code, in 2^-21 LSB (R225, R227). -/
def refError (p : Plate) (l : Latches) (k : Nat) (code : Int) : Nat :=
  ((64 * code - p.off (256 + k)) * p.gain (256 + k) - refSum p l k * (2 ^ (l.gain.toNat + 10) : Nat)).natAbs

/-- The error of a reference column in an exposure: that of a free code, when it is in the part's reach; else that of the
first code that is (R227; log entry 13). Where no code is in reach it is the free code's all the same (log entry 89). -/
def freeError (p : Plate) (l : Latches) (now k : Nat) (free : Word) : Nat :=
  let r := refError p l k (signed 10 free.toNat)
  let ok (r : Nat) : Bool := readingOk p now (r / 2 ^ 13)
  if ok r then r else (((upTo 1024).map fun (c : Nat) => refError p l k ((c : Int) - 512)).find? ok).getD r

/-- The reading of an exposure (R227): the largest error of the qualifying reference columns; with none it stays. READ
holds it in 1/256 LSB, rounded either way (log entry 13). -/
def exposureReading (core n : Nat) (l : Latches) (s : State) : State :=
  let p := (s.core core).plate n
  let now := dial s (dieOf core)
  let base := s.freeCtr
  let ks := qualified p l
  let s := { s with freeCtr := s.freeCtr + 9 }
  if ks.isEmpty then s else
  let r := ks.foldl (fun m k => max m (freeError p l now k (Config.freeWord (base + k)))) 0
  let up : Bool := r % 2 ^ 13 != 0 && (Config.freeWord (base + 8)).getLsbD 0
  setReading core n (r / 2 ^ 13 + up.toNat) (2 ^ 22 < r) s

/-- EXPOSURE_COMPLETE (R224 to R227): the eight rows are on their way, the reading is updated and the unit is idle. -/
def effExposureComplete (core : Nat) (s : State) : State :=
  match (s.core core).trigger with
  | some (.expose n k l, due) =>
    if s.cycle < due then s else
    let p := (s.core core).plate n
    let rows := exposureRows p l s.freeCtr
    let s := { s with freeCtr := s.freeCtr + 256 }
    let clipped := (rows.map (·.2)).sum
    let keys := match tileOf s k (s.ctx k) (l.yout.toNat / 16) with
      | some t => (upTo 8).map fun i => rowKey t (l.yout.toNat / 8 % 2 * 8 + i)
      | none => []
    let s := exposureReading core n l s
    let s := modPlate core n (fun p => { p with clips := BitVec.ofNat 8 (min clipped 255) }) s
    let s := countOps k (2 * 65536) (countEv k 6 clipped s)
    -- a poisoned calibration word spoils what is computed from it (R408)
    let bad : Option Poison := if p.badCal.any (2 ≤ ·) then some ⟨causeEcc, 0⟩ else none
    let s := queueLanding k { Landing.empty with due := due + 4, firm := true, rows := keys.zip (rows.map (·.1)), poison := bad } s
    endTrigger core s
  | _ => s

/-- WGO_COMPLETE (R230): each weight verifies, or holds a free level and counts in WBAD (log entry 13). -/
def effWgoComplete (core : Nat) (s : State) : State :=
  match (s.core core).trigger with
  | some (.wgo n row w, due) =>
    if s.cycle < due then s else
    let bad (j : Nat) : Bool := (Config.freeWord (s.freeCtr + j / 64)).getLsbD (j % 64)
    let held (j : Nat) : Nat := wrap 8 (min (max (signed 8 (Config.freeWord (s.freeCtr + 4 + j)).toNat) (-31)) 31)
    let v := (upTo 256).map fun j => if bad j then held j else byteOf w j
    let fails := ((upTo 256).filter bad).length
    let s := { s with freeCtr := s.freeCtr + 260 }
    let x : BitVec 2048 := BitVec.ofNat 2048 (packLanes 8 v)
    let s := modPlate core n (fun p => { p with
      w := if x = 0 then drop row.toNat p.w else put row.toNat x p.w,
      wbad := satByte p.wbad fails,
      badRows := if fails = 0 then p.badRows.filter (· ≠ row.toNat) else row.toNat :: p.badRows.filter (· ≠ row.toNat) }) s
    endTrigger core s
  | _ => s

/-- A gain and an offset with which some code of a column gives every sum that does not clip within the bound of R225: the
largest and the smallest code reach 508 LSB either way, and no step exceeds 2. -/
def columnFits (gain : Nat) (off : Int) : Bool := 508 * 64 * 32768 ≤ (64 * 511 - (off.natAbs : Int)) * gain

/-- A column's calibration word of 32 bits: a free one, where it keeps the guarantee of R225, else a gain of 1 and no offset
(log entry 13). -/
def columnWord (v : Nat) : Nat := if columnFits (v / 2 ^ 16 % 2 ^ 16) (signed 16 v) then v % 2 ^ 32 else 0x80000000

/-- A plate after its calibration (R229): free gains and offsets within R225's guarantee, free reference levels and reading. -/
def calibrate (now base : Nat) (p : Plate) : Plate :=
  let free (i : Nat) : Word := Config.freeWord (base + i)
  let v := wf (free 1) 15 0
  let p := p.setWord 0 (BitVec.ofNat 64 now)
  let p := p.setWord 1 ((p.word 1 &&& ~~~ 0xFFFF) ||| BitVec.ofNat 64 v)
  let p := (upTo 132).foldl (fun (p : Plate) i => 
    p.setWord (2 + i) (BitVec.ofNat 64 (columnWord (free (2 + i)).toNat + 2 ^ 32 * columnWord ((free (2 + i)).toNat / 2 ^ 32)))) p
  let level (i b : Nat) : Nat := wrap 8 (min (max (signed 8 ((free (134 + i)).toNat / 2 ^ (8 * b))) (-31)) 31)
  let p := (upTo 256).foldl (fun (p : Plate) i =>
    p.setWord (134 + i) (BitVec.ofNat 64 (packLanes 8 ((upTo 8).map (level i))))) p
  { p with readAt := now, drift := false, calWritten := false, refixFailed := 256 < v }

/-- REFIX_COMPLETE (R229). -/
def effRefixComplete (core : Nat) (s : State) : State :=
  match (s.core core).trigger with
  | some (.refix n, due) =>
    if s.cycle < due then s else
    let now := dial s (dieOf core)
    let s := modPlate core n (calibrate now s.freeCtr) s
    endTrigger core { s with freeCtr := s.freeCtr + 400 }
  | _ => s

end Sys2Proof.Machine
end

