-- ==== Sys2Proof/Machine/Sync.lean ====
section
/-! DEFINITION. Landings (R27), barriers (R134 to R138), the combining tree (R141, R142, R369), termination weight
(R139, R332) and teams (R290). -/

namespace Sys2Proof.Machine

/-! ## Landing -/

/-- One scalar value lands: the value and the clearing of its pending bit are seen together (R27); poison instead of a
value where the operation failed (R30). -/
def landReg (p : Option Poison) (c : Ctx) (r : SReg × Word) : Ctx :=
  match p with
  | none => { (c.setS r.1 r.2).setPend r.1 false with poison := drop r.1.toNat c.poison }
  | some x => { c.setPend r.1 false with poison := if r.1 = 0 then c.poison else put r.1.toNat x c.poison }

/-- One row lands with its tag (R16, R27), or poisoned (R30). -/
def landRow (p : Option Poison) (new old : Row) : Row :=
  match p with
  | none => { new with pend := old.pend - 1, poison := none }
  | some x => { old with pend := old.pend - 1, poison := some x }

/-- A context in WFI resumes when a pending register lands (R288). -/
def wakeWfi (k : Nat) (s : State) : State :=
  match (s.ctx k).park with | .wfi _ => unpark k s | _ => s

/-- What a landing does to its context and core (R27, R122, R141). -/
def applyLanding (k : Nat) (l : Landing) (s : State) : State :=
  let s := s.modCtx k fun c => l.clears.foldl (fun c r => c.setPend r false) (l.regs.foldl (landReg l.poison) c)
  let s := l.rows.foldl (fun s p => modRow (coreOf k) p.1 (landRow l.poison p.2) s) s
  let s := if l.flags = 0 then s else raise k l.flags s
  let s := if l.sats = 0 then s else countEv k 5 l.sats s
  let s := match l.nred with
    | some d => s.modCtx k fun c => { c with nredBusy := setBit c.nredBusy (domCode d) false }
    | none => s
  if l.regs.all (·.1 = 0) ∧ l.rows.isEmpty ∧ l.clears.all (· = 0) then s else wakeWfi k s

/-! ## Members of a domain -/

/-- The launch that a context's collectives belong to. -/
def launchOf (s : State) (k : Nat) : Nat := (s.ctx k).launch.getD 0

/-- LEVn of a record, from 0 (R318). -/
def levelWord (l : Launch) (n : Nat) : Word := (l.w.toList.getD (2 + n) 0)

/-- The outermost level of a record has scope sys (R320). -/
def sysWide (l : Launch) : Bool := wf (levelWord l (wf (l.w.get 1) 10 8)) 38 35 == 8

/-- Two launches are the shares of one record of scope sys on two packages (R400). -/
def sameRecord (x y : Launch) : Bool := sysWide x && x.w == y.w

/-- The shares of a launch: itself, and on other packages the launches of the same record (R400). -/
def shares (s : State) (launch : Nat) : List (Nat × Launch) :=
  match find? s.launches launch with
  | some l => s.launches.filter fun p => p.1 == launch || sameRecord l p.2
  | none => []

/-- The launch that stands for all shares: the first that was read. -/
def groupOf (s : State) (launch : Nat) : Nat := ((shares s launch).map (·.1)).headD launch

/-- The members that a record names: the product of its extents (R320). -/
def memberCount (l : Launch) : Nat := ((upTo (wf (l.w.get 1) 10 8 + 1)).map fun n => wf (levelWord l n) 31 0).prod

/-- The launch's cores that have not been released (R328). -/
def Launch.live (l : Launch) : List Nat := l.cores.filter fun c => !l.released.contains c

/-- The launch's members on them. -/
def Launch.here (l : Launch) : List Nat := l.members.filter fun k => !l.released.contains (coreOf k)

/-- The launch's contexts inside an instance of a domain (R135), but for those that left a core since released. -/
def membersIn (s : State) (launch : Nat) (dom : Domain) (inst : Nat) : List Nat :=
  ((shares s launch).flatMap fun p => p.2.here).filter fun k => domInst dom (coreOf k) == inst

/-- No share of the launch is saved, and where the domain reaches them all every share has been placed. -/
def allPlaced (s : State) (launch : Nat) (dom : Domain) : Bool :=
  (shares s launch).all (fun p => p.2.saved.isNone) &&
  (dom != .sys || (match find? s.launches launch with
    | some l => ((shares s launch).map fun p => p.2.members.length).sum == memberCount l
    | none => true))

/-- Phases completed at a barrier. -/
def phasesDone (s : State) (launch : Nat) (dom : Domain) (inst : Nat) : Nat :=
  match s.barriers.find? fun b => b.launch = launch ∧ b.dom = dom ∧ b.inst = inst with
  | some b => b.done
  | none => 0

/-- Phases completed at a context's barrier. -/
def doneFor (s : State) (k : Nat) (dom : Domain) : Nat := phasesDone s (groupOf s (launchOf s k)) dom (domInst dom (coreOf k))

/-- A context's part in its barrier of a domain. -/
def Ctx.bar (c : Ctx) (dom : Domain) : BarMember := c.bars.get (domFin dom)

/-- That part changed. -/
def Ctx.setBar (c : Ctx) (dom : Domain) (f : BarMember → BarMember) : Ctx :=
  { c with bars := c.bars.set (domFin dom).val (f (c.bar dom)) (domFin dom).isLt }

/-- The phase whose wait timed out, while it is incomplete (R426). -/
def markOf (s : State) (k : Nat) (c : Ctx) (dom : Domain) : Option Nat :=
  match (c.bar dom).timedOut with
  | some p => if p < doneFor s k dom then none else some p
  | none => none

/-! ## BAR (R134 to R138) -/

/-- The write of a GATHER record, for its checks (R138). -/
def gatherOp (ea : Word) : MemOp := { ea := ea, n := 128, acc := .write 128 0, align := 8, row := true }

/-- BAR's traps at issue: after DEPART (R136), WAIT on a phase not arrived at (R135), a GATHER address (R138). -/
def barOperand (s : State) (k : Nat) (c : Ctx) (dom : Domain) (wait : Option SReg) : Option TrapInfo :=
  if (c.bar dom).departed then some (trapOf causeOperand 6 0)
  else match wait with
    | some a => if markOf s k c dom = none ∧ (c.bar dom).arrived ≤ (c.rd a).toNat then some (trapOf causeOperand 4 0) else none
    | none => none

/-- An arrival waits for the completion of the context's previous phase (R135). -/
def barBehind (s : State) (k : Nat) (c : Ctx) (dom : Domain) : Bool :=
  markOf s k c dom == none && doneFor s k dom < (c.bar dom).arrived

/-- The phase that an arrival counts for: the marked one, or the next (R135, R426). -/
def barPhase (s : State) (k : Nat) (c : Ctx) (dom : Domain) : Nat := (markOf s k c dom).getD (c.bar dom).arrived

/-- The arrival itself (R135, R137, R138); none is made under a timed-out mark (R426). -/
def arrive (k : Nat) (dom : Domain) (sw : Bool) (ga : Option Word) (s : State) : State :=
  if (markOf s k (s.ctx k) dom).isSome then s else
  s.modCtx k fun c => c.setBar dom fun b => { b with
    arrived := b.arrived + 1, since := s.cycle, swap := sw, gather := ga, gatherSeq := none, timedOut := none }

/-- ARRIVE (R135). -/
def effBarArrive (d b : SReg) (dom : Domain) (ga sw : Bool) (s : State) : State :=
  let p := barPhase s s.cur (me s) dom
  wrS d (BitVec.ofNat 64 p) (arrive s.cur dom sw (if ga then some (rdS s b) else none) s)

/-- WAIT (R135). -/
def effBarWait (a : SReg) (dom : Domain) (s : State) : State :=
  let p := (markOf s s.cur (me s) dom).getD (rdS s a).toNat
  if p < doneFor s s.cur dom then s else park s.cur (.barPhase dom p) s

/-- SYNC (R135). -/
def effBarSync (d b : SReg) (dom : Domain) (ga sw : Bool) (s : State) : State :=
  let p := barPhase s s.cur (me s) dom
  let s := effBarArrive d b dom ga sw s
  if p < doneFor s s.cur dom then s else park s.cur (.barPhase dom p) s

/-- DEPART (R136). -/
def effBarDepart (dom : Domain) (s : State) : State :=
  s.modCtx s.cur fun c => c.setBar dom fun b => { b with departed := true, since := s.cycle }

/-- A member has arrived at the phase being collected. -/
def arrivedAt (s : State) (dom : Domain) (p k : Nat) : Bool := p < ((s.ctx k).bar dom).arrived

/-- An arrival or departure has come down the tree again (R368). -/
def BarMember.heard (now : Nat) (dom : Domain) (b : BarMember) : Bool := b.since + treeLatency dom ≤ now

/-- The parts at a barrier of those members whose cores have been released. -/
def goneParts (s : State) (launch inst : Nat) (dom : Domain) : List BarMember :=
  (((shares s launch).flatMap fun p => p.2.gone).filter fun g => domInst dom (coreOf g.ctx) == inst).map fun g => g.bars.get (domFin dom)

/-- A phase completes when every member that has not departed has arrived, and one has (R135, R136), the tree's latency
after the last of them (R368). -/
def phaseReady (s : State) (launch inst : Nat) (dom : Domain) : Bool :=
  let p := phasesDone s launch dom inst
  let ms := membersIn s launch dom inst
  allPlaced s launch dom && ms.any (arrivedAt s dom p) &&
  (ms.all fun k => (arrivedAt s dom p k || ((s.ctx k).bar dom).departed) && ((s.ctx k).bar dom).heard s.cycle dom) &&
  (goneParts s launch inst dom).all (·.heard s.cycle dom)

/-- Members whose arrival counts for the phase and that asked for its GATHER record. -/
def askers (s : State) (launch inst : Nat) (dom : Domain) : List Nat :=
  (membersIn s launch dom inst).filter fun k =>
    arrivedAt s dom (phasesDone s launch dom inst) k && ((s.ctx k).bar dom).gather.isSome

/-- Members of released cores that had arrived at the phase being collected (R136). -/
def goneIn (s : State) (launch inst : Nat) (dom : Domain) : List Gone :=
  ((shares s launch).flatMap fun p => p.2.gone).filter fun g =>
    domInst dom (coreOf g.ctx) == inst && phasesDone s launch dom inst < (g.bars.get (domFin dom)).arrived

/-- The GATHER record: word k is the sum of evc k over the members whose arrival counts, of present and of released cores
(R138). -/
def gatherRow (s : State) (ms : List Nat) (gone : List Gone) : RowData :=
  rowOf 64 16 fun i => (ms.map fun k => ((s.ctx k).evc.toList.getD i 0).toNat).sum + (gone.map fun g => (g.evc.toList.getD i 0).toNat).sum

/-- The write of a GATHER record asked for in the name of its context. -/
def askGather (dom : Domain) (v : RowData) (k : Nat) (s : State) : State :=
  let c := s.ctx k
  match (c.bar dom).gather with
  | none => s
  | some ea =>
    let r : Req := {
      seq := s.seq, acc := .write 128 (v.zeroExtend 2048), addr := ea, dest := .none, ord := {}, user := !(c.mode.getLsbD 6),
      pc := c.pc, plain := true, metClosed := false, due := s.cycle + 1, state := .issued, issued := s.cycle }
    { s.modCtx k fun c => { c.setBar dom fun b => { b with gatherSeq := some s.seq } with reqs := c.reqs ++ [r] } with seq := s.seq + 1 }

/-- A GATHER record of a member is still to be written. -/
def gatherOwed (s : State) (dom : Domain) (k : Nat) : Bool :=
  match ((s.ctx k).bar dom).gatherSeq with
  | some q => (s.ctx k).reqs.any fun r => r.seq == q
  | none => false

/-- SWAP at a completion: every EXCH pair of every member that arrived, once a core (R137, R155). -/
def swapMembers (ms : List Nat) (s : State) : State :=
  ((ms.map coreOf).dedup).foldl (fun s core =>
    (upTo 8).foldl (fun s j => if kindOf (descOf s (16 * core + 2 * j)) = 6 then swapPair (16 * core + 2 * j) s else s) s) s

/-- One more phase completed. -/
def countPhase (launch inst : Nat) (dom : Domain) (s : State) : State :=
  let n := phasesDone s launch dom inst
  { s with barriers := ⟨launch, dom, inst, n + 1⟩ :: s.barriers.filter fun b => !(b.launch == launch && b.dom == dom && b.inst == inst) }

/-! ## Teams (R290) -/

/-- The leader that a context has, or will have once the phase that its FOLLOW or ATTACH waits for completes. -/
def Ctx.leads (c : Ctx) : Option Nat :=
  c.leader <|> (match c.park, c.redo with
    | .team _ _ l, _ => some l
    | _, some (_, _, .team _ _ l) => some l
    | _, _ => none)

/-- Leaders of a context, from its own on. -/
def leadersOf (s : State) : Nat → Nat → List Nat
  | 0, _ => []
  | fuel + 1, k => match (s.ctx k).leads with | some l => l :: leadersOf s fuel l | none => []

/-- The context that FOLLOW names (R290). -/
def leaderNamed (k : Nat) (v : Word) : Nat := (coreOf k / 16 * 16 + wf v 3 0) * 8 + ctxId k

/-- A context cannot be a context's leader (R290): of another launch, or it would close a cycle. -/
def leaderTrap (s : State) (k l : Nat) : Option TrapInfo :=
  if (s.ctx l).launch ≠ (s.ctx k).launch ∨ (s.ctx l).status = .idle ∨ l = k ∨ (leadersOf s 16 l).contains k then
    some (trapOf causeOperand 27 0) else none

/-- FOLLOW's check (R290). -/
def followTrap (s : State) (k : Nat) (v : Word) : Option TrapInfo :=
  if 16 ≤ v.toNat then some (trapOf causeOperand 27 0) else leaderTrap s k (leaderNamed k v)

/-- ATTACH's check (R290). -/
def attachTrap (s : State) (k : Nat) : Option TrapInfo := (s.ctx k).lastLeader.bind (leaderTrap s k)

/-- FOLLOW and ATTACH: an arrival, then a park on its phase (R290). -/
def effJoin (dom : Domain) (leader : Nat) (s : State) : State :=
  let p := barPhase s s.cur (me s) dom
  park s.cur (.team dom p leader) (arrive s.cur dom false none s)

/-- When the phase completes and the leader is a member, the follower goes on where the leader does (R290). -/
def joinTeam (k leader : Nat) (s : State) : State :=
  if (s.ctx leader).left = .no ∧ (s.ctx leader).status ≠ .idle ∧ (s.ctx leader).launch = (s.ctx k).launch then
    s.modCtx k fun c => { c with leader := some leader, pc := (s.ctx leader).pc }
  else s

/-- A context leaves its team, and its followers leave it (R290). -/
def leaveTeam (k : Nat) (s : State) : State :=
  let s := dropFollowers k s
  if (s.ctx k).leader.isSome then s.modCtx k fun c => { c with leader := none, lastLeader := c.leader } else s

/-- DETACH (R290, R206). -/
def effDetach (s : State) : State :=
  let k := s.cur
  let d := departs k s
  let s := leaveTeam k s
  if d then breakGang 5 (coreOf k) s else s

/-! ## The end of a park -/

/-- The event that a park on a done bundle waits for has come. -/
def parkOver (s : State) (k : Nat) (p : Park) : Bool :=
  let c := s.ctx k
  match p with
  | .barPhase dom ph => ph < doneFor s k dom
  | .team dom ph _ => ph < doneFor s k dom
  | .waitw _ => c.reqs.all (fun r => !r.acc.isWaitw) && c.landings.all (fun l => !l.waitw)
  | .waitt t => t.toNat ≤ dialOf s k
  | .wfi t => t ≠ 0 && t.toNat ≤ dialOf s k
  | .rendez m => match c.fork with | some f => m < f.times.length || f.ended.isSome | none => true
  | _ => false

/-- A parked context whose event has come becomes READY (R9). -/
def settle (k : Nat) (s : State) : State :=
  let c := s.ctx k
  if c.status = .parked ∧ parkOver s k c.park then
    match c.park with
    | .team _ _ l => joinTeam k l (unpark k s)
    | _ => unpark k s
  else s

/-- A released core's member asks for no SWAP in an instance of a domain any more. -/
def Gone.noSwap (inst : Nat) (dom : Domain) (g : Gone) : Gone :=
  if domInst dom (coreOf g.ctx) = inst then
    { g with bars := g.bars.set (domFin dom).val ({ g.bars.get (domFin dom) with swap := false }) (domFin dom).isLt }
  else g

/-- The SWAPs that members of released cores asked for are done. -/
def dropSwaps (launch inst : Nat) (dom : Domain) (s : State) : State :=
  if (goneIn s launch inst dom).isEmpty then s
  else (shares s launch).foldl (fun s p => s.modLaunch p.1 fun l => { l with gone := l.gone.map (Gone.noSwap inst dom) }) s

/-- BARRIER_PHASE_COMPLETE (R135): records are written, pairs are swapped, then the completion is seen, by all in one step (log
entry 104). -/
def effPhaseComplete (launch inst : Nat) (dom : Domain) (s : State) : State :=
  if !phaseReady s launch inst dom then s else
  let p := phasesDone s launch dom inst
  let ms := membersIn s launch dom inst
  let here := ms.filter (arrivedAt s dom p)
  let todo := (askers s launch inst dom).filter fun k => ((s.ctx k).bar dom).gatherSeq.isNone
  let left := goneIn s launch inst dom
  let asked : Bool := (here.any fun k => ((s.ctx k).bar dom).swap) || left.any fun g => (g.bars.get (domFin dom)).swap
  let swap (s : State) : State := if asked then swapMembers here s else s
  let clear (s : State) : State := dropSwaps launch inst dom
    (here.foldl (fun s k => s.modCtx k fun c => c.setBar dom fun b => { b with swap := false }) s)
  if todo ≠ [] then
    -- the exchange happens once, before the records are written
    let v := gatherRow s here left
    todo.foldl (fun s k => askGather dom v k s) (clear (swap s))
  else if here.any (gatherOwed s dom) then s
  else
    let s := countPhase launch inst dom (clear (swap s))
    let s := here.foldl (fun s k => s.modCtx k fun c => c.setBar dom fun b => { b with gather := none, gatherSeq := none, timedOut := none }) s
    ms.foldl (fun s k => settle k s) s

/-! ## Termination weight (R139, R332) -/

/-- Units of a borrow. -/
def borrowUnits : Nat := 2 ^ 20

/-- The count of a launch's root, with what is on its way to it. -/
def outstandingOf (s : State) (launch : Nat) : Int :=
  match find? s.launches (groupOf s launch) with
  | some r => r.outstanding - ((shares s launch).map fun p => p.2.returns.sum).sum
  | none => 0

/-- WSPLIT's and WSPLIT.ADD's traps (R139, R332). -/
def weightTrap (s : State) (k : Nat) (c : Ctx) : Instr → Option TrapInfo
  | .wsplit _ =>
    if c.wgt = 0 then some (trapOf causeOperand 5 0)
    else if c.wgt = 1 then
      match (s.ctx k).launch with
      | some l => if (2 ^ 63 : Int) ≤ outstandingOf s l + borrowUnits then some (trapOf causeOperand 5 0) else none
      | none => none
    else none
  | .wsplitAdd a => if 2 ^ 63 ≤ c.wgt.toNat + (c.rd a).toNat then some (trapOf causeOperand 5 0) else none
  | _ => none

/-- A count wrapped to a signed 64-bit value (R140). -/
def signed64 (x : Int) : Int := signed 64 (wrap 64 x)

/-- A borrow reaches the root: it comes before the split, and so before every return of what is split (R139). -/
def borrow (k : Nat) (s : State) : State :=
  match (s.ctx k).launch with
  | some l => s.modLaunch (groupOf s l) fun x => { x with outstanding := signed64 (x.outstanding + borrowUnits) }
  | none => s

/-- WSPLIT (R139): a context with weight 1 borrows first. -/
def effWsplit (d : SReg) (s : State) : State :=
  let k := s.cur
  let w := (s.ctx k).wgt.toNat
  let total := if w = 1 then w + borrowUnits else w
  let g := total / 2
  let s := s.modCtx k fun c => { c with wgt := BitVec.ofNat 63 (total - g) }
  if w = 1 then
    let s := borrow k s
    offCore k (queueLanding k { Landing.empty with due := s.cycle + 1, regs := [(d, BitVec.ofNat 64 g)] } (setPending k [d] s))
  else wrS d (BitVec.ofNat 64 g) s

/-- WRETURN (R139): all of wgt, or a stated number of units. -/
def effWreturn (a : SReg) (s : State) : State :=
  let k := s.cur
  if a = 0 then
    (returnWeight k (s.ctx k).wgt.toNat s).modCtx k fun c => { c with wgt := 0 }
  else returnWeight k (rdS s a).toNat s

/-- WSPLIT.ADD (R139). -/
def effWsplitAdd (a : SReg) (s : State) : State :=
  let v := (rdS s a).toNat
  s.modCtx s.cur fun c => { c with wgt := BitVec.ofNat 63 (c.wgt.toNat + v) }

/-- The agent of the PHASE write (R332): class 2, in the launch's address space, in the name of member 0, at the level that the
record gives its members. The launch logic's other requests (R326, R329) are its own, and no user requests (R355). -/
def launchAgent (l : Launch) : Agent :=
  let k := l.members.headD 0
  ⟨coreOf k, ctxId k, 0, 2, l.asid, !((l.w.get 1).getLsbD 18), false⟩

/-- A failure of a launch: the oldest is kept (R280, R329). -/
def Launch.fails (f : Option (Byte × Byte)) (at_ : Nat) (l : Launch) : Launch :=
  if f.isSome ∧ (l.failure.isNone ∨ at_ < l.failedAt) then { l with failure := f, failedAt := at_ } else l

/-- A local word that a launch logic's access names lies in a hole, or in a core that is not its tenant's (R26, R301). -/
def wordTrap (s : State) (tenant : BitVec 16) (core : Nat) (a : Word) : Option TrapInfo :=
  holeTrap s a <|>
  if isLocal a && (s.core (windowCore core a)).tenant != some tenant then some (trapOf causeProt 3 a) else none

/-- The root's PHASE word written, or its write suspended or dropped (R332). -/
def writePhase (launch : Nat) (s : State) : State :=
  match find? s.launches launch with
  | none => s
  | some l =>
    let a := l.w.get 29
    let first := (shares s launch).foldl (fun (m : Launch) p => if p.2.pkg < m.pkg then p.2 else m) l
    let k := first.members.headD 0
    let ag : Agent := launchAgent first
    let done (f : Option (Byte × Byte)) (s : State) : State :=
      s.modLaunch launch fun l => { l.fails f s.cycle with phaseOwed := false, phaseWrite := .issued }
    match l.phaseWrite, wordTrap s l.tenant (coreOf k) a with
    | .failed t, _ => done (some (t.cause, t.sub)) s
    | .suspended .., _ => s
    | _, some t => done (some (t.cause, t.sub)) s
    | _, none =>
      let (p, s) := if isLocal a then bankPerf (coreOf k) a (.faddt 1 1) .none {} false true (.ctx k 0) s
        else globalAccess ag a (.faddt 1 1) (.ctx k 0) s
      match p with
      | .done .. => done none s
      | .fault die num => s.modLaunch launch fun l => { l with phaseWrite := .suspended die num }
      | .poisoned .. => done (some (causeEcc, causeEcc)) s
      | .failed t => done (some (t.cause, t.sub)) s
      | _ => s

/-- The units of the oldest return leave a launch's list. -/
def takeReturn (launch : Nat) (s : State) : State := s.modLaunch launch fun l => { l with returns := l.returns.tail }

/-- WEIGHT_RETURN_ARRIVE (R332): the oldest units on their way reach the root; the phase ends once. The shares of one
record have one root. -/
def effWeightArrive (launch : Nat) (s : State) : State :=
  let root := groupOf s launch
  match find? s.launches launch, find? s.launches root with
  | some l, some r =>
    match l.returns with
    | [] => if r.phaseOwed then writePhase root s else s
    | u :: _ =>
      let n := signed64 (r.outstanding - u)
      let ends : Bool := !r.phaseEnded && decide (0 ≤ u) && decide (n ≤ 0)
      let s := (takeReturn launch s).modLaunch root fun l => { l with
        outstanding := n, phaseEnded := l.phaseEnded || ends, phaseOwed := l.phaseOwed || (ends && l.w.get 29 != 0) }
      if ends && r.w.get 29 != 0 then writePhase root s else s
  | _, _ => s

/-! ## The combining tree (R141, R142, R369) -/

/-- A row's order for MERGEK: -0 below +0, NaN below -inf (R142). -/
def keyRank (x : Nat) : Int :=
  let m : Nat := x % 2 ^ 31
  if 0x7F800000 < m then -(2 ^ 33 : Nat)
  else if x / 2 ^ 31 % 2 = 1 then -(m : Int) - 1 else m

/-- An entry stands before another in MERGEK's order (R142): by key, then by index; of two NaN keys with one index the lower bits
stand first, so that no order of arrival shows (R369; log entry 105). -/
def entryBefore (a b : Nat) : Bool :=
  keyRank (a % 2 ^ 32) > keyRank (b % 2 ^ 32) || (keyRank (a % 2 ^ 32) == keyRank (b % 2 ^ 32) &&
    (a / 2 ^ 32 < b / 2 ^ 32 || (a / 2 ^ 32 == b / 2 ^ 32 && a % 2 ^ 32 < b % 2 ^ 32)))

/-- Insertion into a sorted list of entries. -/
def insertEntry (x : Nat) : List Nat → List Nat
  | [] => [x]
  | y :: r => if entryBefore x y then x :: y :: r else y :: insertEntry x r

/-- MERGEK's row: the first 16 non-empty entries of the union, then empty ones, whose key bits are left open (R142; log
entry 13). -/
def mergeRows (rows : List RowData) : RowData :=
  let all := rows.flatMap fun r => (upTo 16).map (lane 64 r)
  let l := (all.filter fun e => e / 2 ^ 32 ≠ 0xFFFFFFFF).foldl (fun (l : List Nat) e => insertEntry e l) []
  rowOf 64 16 fun i => l.getD i (0xFFFFFFFF * 2 ^ 32 + (Config.padKey rows i).toNat)

/-- The scalar result and payload of a round (R369). -/
def treeResult (op : NredOp) (ps : List Contribution) : Word × Half :=
  let best (lt : Contribution → Contribution → Bool) : Word × Half :=
    match ps with
    | [] => (0, 0)
    | p :: r => let m := r.foldl (fun (m : Contribution) x => if lt m x then x else m) p; (m.value, m.payload)
  match op with
  | .sum64 => (ps.foldl (fun (a : Word) p => a + p.value) 0, 0)
  | .max => best fun m x => m.value.toInt < x.value.toInt
  | .min => best fun m x => x.value.toInt < m.value.toInt
  | .maxkey => best fun m x => m.value.toInt < x.value.toInt || (m.value == x.value && x.payload.toNat < m.payload.toNat)
  | .and => (ps.foldl (fun (a : Word) p => a &&& p.value) (-1), 0)
  | .or => (ps.foldl (fun (a : Word) p => a ||| p.value) 0, 0)
  | .bcast => best fun m x => x.ctx < m.ctx

/-- The rows of a round, by member: in no order of arrival (R369). -/
def roundRows (ps : List Contribution) : List RowData :=
  (ps.foldl (fun (l : List (Nat × RowData)) p => put p.ctx p.row l) []).map (·.2)

/-- A contribution put into the open round of its instance, or into a new one (R141, R369). -/
def contribute (k : Nat) (dom : Domain) (x : Contribution) (s : State) : State :=
  let l := groupOf s (launchOf s k)
  let inst := domInst dom (coreOf k)
  let mine (r : Round) : Bool := r.launch == l && r.dom == dom && r.inst == inst
  let s := s.modCtx k fun c => { c with nredBusy := setBit c.nredBusy (domCode dom) true }
  if s.rounds.any mine then
    { s with rounds := s.rounds.map fun (r : Round) => if mine r then { r with parts := r.parts ++ [x], due := s.cycle + treeLatency dom } else r }
  else { s with rounds := s.rounds ++ [⟨l, dom, inst, [x], s.cycle + treeLatency dom⟩] }

/-- NRED (R141): the context's contribution; its destination is pending until the round lands. -/
def effNred (d a b : SReg) (dom : Domain) (op : NredOp) (s : State) : State :=
  let k := s.cur
  let x : Contribution := {
    ctx := k, op := op, merge := false, value := rdS s a, payload := (rdS s b).truncate 32, row := 0,
    dest := if op = .maxkey then .pair d else .reg d 8 true }
  offCore k (pendDest k x.dest (contribute k dom x s))

/-- NRED MERGEK (R142). -/
def effMergek (t u : TReg) (row : BitVec 4) (dom : Domain) (s : State) : State :=
  let k := s.cur
  match keyOf s k (me s) (t, row.toNat), keyOf s k (me s) (u, row.toNat) with
  | some td, some us =>
    let x : Contribution := {
      ctx := k, op := .sum64, merge := true, value := 0, payload := 0, row := rowData s k us, dest := .row td }
    offCore k (pendDest k x.dest (contribute k dom x s))
  | _, _ => s

/-- A round is complete: every member has contributed or left the tree group (R141, R136). -/
def roundReady (s : State) (r : Round) : Bool :=
  allPlaced s r.launch r.dom && (membersIn s r.launch r.dom r.inst).all fun k =>
    (r.parts.any fun p => p.ctx == k) || (s.ctx k).treeLeft.getLsbD (domCode r.dom)

/-- A round's contributions name one operation (R141). -/
def sameOp (ps : List Contribution) : Bool :=
  match ps with | [] => true | p :: r => r.all fun x => x.merge == p.merge && (p.merge || x.op == p.op)

/-- What a completed round lands at one member (R141, R142, R369). -/
def treeLanding (r : Round) (p : Contribution) : Landing :=
  if !sameOp r.parts then { poisonLanding p.dest 0 ⟨causeOperand, 0⟩ with nred := some r.dom }
  else if p.merge then
    { Landing.empty with
      rows := (destRows p.dest).map fun key => (key, { data := mergeRows (roundRows r.parts) })
      nred := some r.dom }
  else
    let (v, pay) := treeResult p.op r.parts
    { Landing.empty with
      regs := (destRegs p.dest 0 (v.toNat + pay.toNat * 2 ^ 64)).1
      nred := some r.dom }

/-- NRED_ROUND_LAND (R368, R369): a complete round lands at every member that contributed, the tree's latency after the last
contribution, in one step (log entry 104). -/
def effRoundLand (launch inst : Nat) (dom : Domain) (s : State) : State :=
  match s.rounds.find? fun r => r.launch == launch && r.dom == dom && r.inst == inst with
  | none => s
  | some r =>
    if roundReady s r ∧ r.due ≤ s.cycle then
      let s := { s with rounds := s.rounds.filter fun x => !(x.launch == launch && x.dom == dom && x.inst == inst) }
      -- a member that has left its launch takes nothing
      r.parts.foldl (fun s p => if groupOf s (launchOf s p.ctx) = r.launch ∧ (s.ctx p.ctx).status ≠ .idle then applyLanding p.ctx (treeLanding r p) s else s) s
    else s

end Sys2Proof.Machine
end

