-- ==== Sys2Proof/Machine/Pieces.lean ====
section
/-! DEFINITION. Accesses of engines, matrix fetch and drain rows (R201, R214, R258): byte ranges cut at pages and banks,
checked and performed piece by piece. -/

namespace Sys2Proof.Machine

/-- Bytes of an access that lie in one bank: bank, offset there, their place in the access, their count. -/
structure Piece where
  bank : Nat
  off : Nat
  start : Nat
  n : Nat
  deriving DecidableEq, Repr

/-- An access's parts, one for each bank that it reaches. -/
def partsAt (key n : Nat) : List Piece :=
  let first := 8192 - key % 8192
  if n ≤ first then [⟨key / 8192, key % 8192, 0, n⟩] else [⟨key / 8192, key % 8192, 0, first⟩, ⟨key / 8192 + 1, 0, first, n - first⟩]

/-- The most bytes that a piece can have. -/
def pieceSize : Nat := 8192

/-- Bytes from an address to the edge that no piece crosses: its bank's, or in global memory its page's (R257, R295). -/
def toEdge (a : Word) : Nat := if isLocal a then 8192 - a.toNat % 8192 else 4096 - a.toNat % 4096

/-- n bytes from two addresses cut where either reaches an edge and at most every `most` bytes: offsets and lengths. -/
def cuts (x y : Word) (most : Nat) : Nat → Nat → Nat → List (Nat × Nat)
  | 0, _, _ => []
  | fuel + 1, off, n =>
    if n = 0 then [] else
    let len := min (min n most) (min (toEdge (x + BitVec.ofNat 64 off)) (toEdge (y + BitVec.ofNat 64 off)))
    (off, len) :: cuts x y most fuel (off + len) (n - len)

/-- The pieces of a range. -/
def piecesOf (x y : Word) (n : Nat) : List (Nat × Nat) := cuts x y pieceSize (2 * (n / 4096) + 4) 0 n

/-- An address at an ARRAY arcade's lead, at a byte distance: the arcade is one array in link order (R163). -/
def arcadeAddr (s : State) (core : Nat) (base : Word) (d : Int) : Word :=
  let plain := base + wordOf d
  if isLocal base then
    let b := bankAt core base
    let ms := linkedFrom s 16 b
    let o : Int := (wf base 12 0 : Int) + d
    if kindOf (descOf s b) = 0 ∧ aroleOf (descOf s b) = 1 ∧ 0 ≤ o ∧ o < 8192 * ms.length then
      bankBase (nth ms (o.toNat / 8192)) + BitVec.ofNat 64 (o.toNat % 8192)
    else plain
  else plain

/-- The pieces of n bytes at a distance from a base, an arcade's member by member (R163): place, address, bytes. -/
def spans (s : State) (core : Nat) (base : Word) (d n : Nat) : List (Nat × Word × Nat) :=
  let a := base + BitVec.ofNat 64 d
  (piecesOf a a n).map fun p => (p.1, arcadeAddr s core base ((d + p.1 : Nat) : Int), p.2)

/-- The same, each piece at most the 256 bytes that a slot moves (R294). -/
def slotSpans (s : State) (core : Nat) (base : Word) (d n : Nat) : List (Nat × Word × Nat) :=
  (spans s core base d n).flatMap fun p =>
    (upTo ((p.2.2 + 255) / 256)).map fun i => (p.1 + 256 * i, p.2.1 + BitVec.ofNat 64 (256 * i), min 256 (p.2.2 - 256 * i))

/-- The check of an agent's piece (R26, R150, R154, R258, R301): holes and tenants, then personalities. -/
def pieceTrap (s : State) (core : Nat) (a : Word) : Option TrapInfo :=
  match holeTrap s a with
  | some t => some t
  | none =>
    if !isLocal a then none
    else if !sameTenant s core (windowCore core a) then some (trapOf causeProt 3 a)
    else
      let b := bankAt core a
      if oddOfPair s b then some (trapOf causeStruct 0x12 a)
      else if kindOf (descOf s b) = 0 ∨ kindOf (descOf s b) = 6 then none
      else some (trapOf causeStruct 0x10 a)

/-- One piece of an agent's access performed (R154: reads at the front, writes at the negative bank). -/
def pieceAct (ag : Agent) (a : Word) (acc : Access) (who : Waiter) (s : State) : Perf × State :=
  match pieceTrap s ag.core a with
  | some t => (.failed t, s)
  | none =>
    if isLocal a then
      if (s.bank (bankAt ag.core a)).closing.isSome then (.closed, s)
      else if (s.bank (bankAt ag.core a)).badDesc then (.poisoned 0 true, s)
      else actAt (.bank (plainKey s false (storeLike acc .none) (bankAt ag.core a) (wf a 12 0))) (.bank (localKey ag.core a)) a acc who (dieOf ag.core) s
    else globalPerf ag a acc who s

/-- A range read, piece by piece; the first piece that does not complete is the answer. -/
def rangeRead (ag : Agent) (a : Word) (n : Nat) (s : State) : Perf × State :=
  (piecesOf a a n).foldl (fun (r : Perf × State) p =>
    match r.1 with
    | .done _ v _ =>
      match pieceAct ag (a + BitVec.ofNat 64 p.1) (.read p.2) (.queue ag.queue) r.2 with
      | (.done _ w _, s) => (.done 0 (v + w * 2 ^ (8 * p.1)) 0, s)
      | x => x
    | _ => r) (.done 0 0 0, s)

/-- A range written (up to 256 bytes), piece by piece. -/
def rangeWrite (ag : Agent) (a : Word) (n : Nat) (v : SlotData) (s : State) : Perf × State :=
  (piecesOf a a n).foldl (fun (r : Perf × State) p =>
    match r.1 with
    | .done .. => pieceAct ag (a + BitVec.ofNat 64 p.1) (.write p.2 (v >>> (8 * p.1))) (.queue ag.queue) r.2
    | _ => r) (.done 0 0 0, s)

end Sys2Proof.Machine
end

