-- ==== Sys2Proof/Machine/Joint.lean ====
section
/-! DEFINITION. The joint array (R198 to R215): quarters, the gang barrier and its start checks, blocks, faults and
failures in flight, MZERO, MDRAIN, drains and row handlers. -/

namespace Sys2Proof.Machine

/-! ## Quarters (R198) -/

/-- Word i of a quarter; an unlisted word is +0, or free when the quarter's words are undefined (R198; log entry 13). -/
def Quarter.word (q : Quarter) (i : Nat) : Half :=
  match find? q.acc i with
  | some v => v
  | none => match q.free with | some b => (Config.freeWord (b + i)).truncate 32 | none => 0

/-- The words after a computation: f gives the words it writes. -/
def Quarter.write (q : Quarter) (f : Nat → Option Half) : Quarter :=
  { q with acc := (upTo 4096).filterMap fun i => match f i with
      | some v => if v = 0 ∧ q.free = none then none else some (i, v)
      | none => (find? q.acc i).map fun v => (i, v) }

/-- +0 in every word, flags clear (R199 ZERO, R210). -/
def Quarter.zero (q : Quarter) : Quarter := { q with acc := [], free := none, flags := 0 }

/-- A core's quarter changed. -/
def modQuarter (core : Nat) (f : Quarter → Quarter) (s : State) : State :=
  s.modCore core fun c => { c with quarter := f c.quarter }

/-- A core's quarter. -/
def quarterOf (s : State) (core : Nat) : Quarter := (s.core core).quarter

/-- The quarter has a holder other than context k (R198). -/
def heldByOther (s : State) (k : Nat) : Bool :=
  match (quarterOf s (coreOf k)).holder with | some h => h != k | none => false

/-- A drain of the quarter is outstanding. -/
def draining (s : State) (core : Nat) : Bool := !(s.core core).drains.isEmpty

/-- The operation on a core's quarter is suspended by a fault (R207). -/
def opSuspended (s : State) (core : Nat) : Bool := match opAt s core with | some o => o.state != .issued | none => false

/-- The operation that a core leads: a core leads at most one, since its quarter takes part in it (R198). -/
def opBy (s : State) (lead : Nat) : Option MatOp := (s.cell (lead / 4)).ops.find? fun o => o.leader.core == lead

/-- The operation that a core leads replaced. -/
def setOp (o : MatOp) (s : State) : State :=
  s.modCell (o.leader.core / 4) fun x => { x with ops := x.ops.map fun y => if y.leader.core = o.leader.core then o else y }

/-- A core waits at its gang barrier. -/
def atGang (s : State) (core : Nat) : Bool := (s.cell (core / 4)).arrivals.any fun a => a.core == core

/-- GANG parks: another holder, a drain, an operation, or another arrival of the core (R198, R203). -/
def gangBusy (s : State) (k : Nat) : Bool :=
  heldByOther s k || draining s (coreOf k) || opOn s (coreOf k) || atGang s (coreOf k)

/-- MZERO parks (R198, R210). -/
def zeroBusy (s : State) (k : Nat) : Bool := heldByOther s k || draining s (coreOf k) || opOn s (coreOf k)

/-- MDRAIN parks: another holder, or a suspended operation (R198, R207). -/
def drainBusy (s : State) (k : Nat) : Bool := heldByOther s k || opSuspended s (coreOf k)

/-- The failure that a quarter recorded (R208). -/
def quarterTrap (s : State) (core : Nat) : Option TrapInfo := (quarterOf s core).fail

/-! ## Descriptors (R200, R211) -/

/-- CNT + 1. -/
def descCount (hi : Word) : Nat := wf hi 43 36 + 1
/-- T. -/
def descTile (hi : Word) : Bool := hi.getLsbD 63
/-- Tiles of a tile form's group; none for the reserved code. -/
def descGroup (lo : Word) : Option Nat := match wf lo 5 4 with | 0 => some 1 | 1 => some 2 | 2 => some 4 | _ => none

/-- A tile form names an aligned group of the context's tiles (R14, R17, R200) of at least n rows. -/
def tileFormOk (s : State) (k : Nat) (lo : Word) (n : Nat) : Bool :=
  match descGroup lo with
  | none => false
  | some g => wf lo 63 6 == 0 && wf lo 3 0 % g == 0 && n ≤ 16 * g &&
      (upTo g).all fun i => (tileOf s k (s.ctx k) (wf lo 3 0 + i)).isSome

/-- ceil(K / 32). -/
def blocksOf (k : Word) : Nat := (k.toNat + 31) / 32

/-- A descriptor is valid (R200): `top` is the largest count. -/
def descOk (s : State) (k : Nat) (kk : Word) (width top : Nat) (d : Word × Word) : Bool :=
  wf d.2 62 44 == 0 && wf d.2 35 32 ≤ 4 && descCount d.2 ≤ top &&
  (!descTile d.2 || (wf d.2 35 32 == 0 && tileFormOk s k d.1 (descCount d.2) && blocksOf kk * blockBytes width ≤ 128))

/-- MDRAIN's checks on its pair (R211). -/
def drainPairOk (s : State) (k m : Nat) (lo hi : Word) : Bool :=
  wf hi 62 16 == 0 &&
  (if descTile hi then tileFormOk s k lo m else lo.toNat % 4 == 0 && wf hi 15 0 % 4 == 0)

/-- The row of a context's tiles that vector v of a tile form names. -/
def formRow (s : State) (k : Nat) (lo : Word) (v : Nat) : Option Nat :=
  (tileOf s k (s.ctx k) (wf lo 3 0 + v / 16)).map fun t => rowKey t (v % 16)

/-! ## The gang barrier (R203) -/

/-- The context whose tiles and address space an arrival uses: its own, or its chain's owner. -/
def arrivalCtx (s : State) (a : Arrival) : Nat :=
  match a.by_ with
  | .ctx k _ => k
  | .queue q => match (s.queue q).chains with | ch :: _ => ch.owner | [] => handlerKey a.core

/-- The head chain of a queue changed. -/
def modHead (q : Nat) (f : Chain → Chain) (s : State) : State :=
  s.modQueue q fun x => { x with chains := match x.chains with | ch :: r => f ch :: r | [] => [] }

/-- A member whose gang fails traps at its GANG bundle, with no effect, or its entry fails (R203, R261). -/
def arrivalFail (t : TrapInfo) (a : Arrival) (s : State) : State :=
  let s := unclaim a s
  match a.by_ with
  | .ctx k _ => if (s.ctx k).status = .parked then takeTrap t k s else s.modCtx k fun c => { c with after := some t, gang := none }
  | .queue q => modHead q (fun ch => { ch with wait := .failed t }) s

/-- A member goes on once the gang has formed (R203): its bundle is done but for slot B; an entry waits for the
operation. -/
def arrivalGo (operation : Bool) (a : Arrival) (s : State) : State :=
  match a.by_ with
  | .ctx k _ => (unpark k s).modCtx k fun c => { c with gang := c.gang.map fun g => { g with formed := true } }
  | .queue q => modHead q (fun ch => { ch with wait := if operation then .operation else .woken 0 }) s

/-- Core j of a cell is named by a mask. -/
def names (cell : Nat) (m : BitVec 4) (core : Nat) : Bool := core / 4 == cell && m.getLsbD (core % 4)

/-- Members whose masks disagree: one that names another with a different mask, and those that it names (xsub 8). -/
def maskClash (l : List Arrival) : List Arrival :=
  l.filter fun a => l.any fun b =>
    (names (b.core / 4) a.gmask b.core && b.gmask != a.gmask) ||
    (names (a.core / 4) b.gmask a.core && l.any fun c => names (c.core / 4) b.gmask c.core && c.gmask != b.gmask)

/-- The member's width wB, drain format and BW are valid (R199). -/
def formatOk (a : Arrival) : Bool :=
  let w := wf (vget a.fmt 1) 3 0
  let out := wf (vget a.fmt 3) 2 0
  let bw := wf (vget a.fmt 3) 7 4
  2 ≤ w && w ≤ 8 && out ≤ 3 && (if out = 3 then 2 ≤ bw && bw ≤ 8 else bw == 0)

/-- The start checks (R203): 9 a mismatch of MMA and plain GANG, 10 K, 11 a format, 12 a descriptor. -/
def startFault (s : State) (lead : Arrival) (ms : List Arrival) : Option Nat :=
  let wA := wf (vget lead.fmt 0) 3 0
  if !(ms.all (·.mma)) then some 9
  else if 2 ^ 24 < lead.k.toNat then some 10
  else if !(2 ≤ wA && wA ≤ 8 && ms.all formatOk) then some 11
  else if !(descOk s (arrivalCtx s lead) lead.k wA 128 lead.da &&
      ms.all fun a => descOk s (arrivalCtx s a) lead.k (wf (vget a.fmt 1) 3 0) 32 a.db) then some 12
  else none

/-- The array's cycles for a block (R205). -/
def blockCycles (lead : Arrival) (ms : List Arrival) : Nat :=
  32 * (ms.foldl (fun (m : Nat) a => max m (containerBits (wf (vget a.fmt 1) 3 0))) (containerBits (wf (vget lead.fmt 0) 3 0)))

/-- A member's quarter at the start (R198, R199, R204): with no scale read yet. An operation that fails before block 0
completes leaves it so, and a drain then scales by 1 (log entry 40). -/
def startQuarter (s : State) (lead a : Arrival) (q : Quarter) : Quarter :=
  let q := if (vget a.fmt 2).getLsbD 0 then q.zero else q
  { q with
    m := descCount lead.da.2, n := descCount a.db.2
    out := (vget a.fmt 3).extractLsb' 0 3, bw := (vget a.fmt 3).extractLsb' 4 4
    sa := [], sb := [], holder := some (arrivalCtx s a), leaving := false }

/-- The gang has formed (R203): a plain barrier, a failed start, or an operation. -/
def formGang (cell : Nat) (ms : List Arrival) (s : State) : State :=
  match ms with
  | [] => s
  | lead :: _ =>
    if ms.all fun a => !a.mma then ms.foldl (fun s a => arrivalGo false a s) s else
    match startFault s lead ms with
    | some n => ms.foldl (fun s a => arrivalFail (trapOf causeOperand n 0) a s) s
    | none =>
      let s := ms.foldl (fun (s : State) a => modQuarter a.core (startQuarter s lead a) s) s
      let n := blocksOf lead.k
      let s := if n = 0 then s else s.modCell cell fun x => { x with
        ops := x.ops ++ [{
          members := ms, leader := lead, next := 0, blocks := n
          due := s.cycle + blockCycles lead ms, state := .issued }] }
      ms.foldl (fun s a => arrivalGo (n != 0) a s) s

/-- An MMA's arrival makes its context the quarter's holder (R198). -/
def claim (a : Arrival) (s : State) : Arrival × State :=
  if a.mma then ({ a with prev := (quarterOf s a.core).holder }, modQuarter a.core (fun q => { q with holder := some (arrivalCtx s a) }) s)
  else (a, s)

/-- An arrival at the gang barrier (R203): the gang forms when every core that the mask names has arrived. -/
def arriveGang (a : Arrival) (s : State) : State :=
  let cell := a.core / 4
  let (a, s) := claim a s
  let s := s.modCell cell fun x => { x with arrivals := x.arrivals ++ [a] }
  let all := (s.cell cell).arrivals
  let bad := maskClash all
  if bad ≠ [] then
    let s := s.modCell cell fun x => { x with arrivals := x.arrivals.filter fun b => !bad.contains b }
    bad.foldl (fun s b => arrivalFail (trapOf causeOperand 8 0) b s) s
  else
    let named := (upTo 4).filter fun i => a.gmask.getLsbD i
    let ms := named.filterMap fun i => all.find? fun b => b.core = 4 * cell + i
    if ms.length = named.length then
      formGang cell ms (s.modCell cell fun x => { x with arrivals := x.arrivals.filter fun b => !ms.contains b })
    else s

/-- GANG's OPERAND trap (R203): the core's gmask does not name the core. -/
def gangTrap (s : State) (k : Nat) : Option TrapInfo :=
  if (s.core (coreOf k)).gmask.getLsbD (coreOf k % 4) = false then some (trapOf causeOperand 7 0) else none

/-- GANGBROKEN (R206): the core's gmask still names a departed core. -/
def brokenTrap (s : State) (k : Nat) : Option TrapInfo :=
  let c := s.core (coreOf k)
  if c.gmask &&& c.broken ≠ 0 then some { cause := causeGangBroken, sub := (c.gmask &&& c.broken).zeroExtend 8, addr := 0 } else none

/-- MMA latches K and the pairs for the GANG of its bundle (R203). -/
def effMma (d a b : SReg) (s : State) : State :=
  let c := me s
  s.modCtx s.cur fun x => { x with mma := some (c.rd d, (c.rd a, c.rd (hiReg a)), (c.rd b, c.rd (hiReg b))) }

/-- The bundle of a context's PC is a GANG whose gang has formed: its slot B is left. -/
def gangFormed (c : Ctx) : Bool := match c.gang with | some g => g.formed && g.pc == c.pc && g.h == c.h | none => false

/-- GANG (R203): the context arrives, and parks unless the gang forms or fails at once. -/
def effGang (s : State) : State :=
  let k := s.cur
  let c := s.ctx k
  let core := coreOf k
  let (kk, da, db) := c.mma.getD (0, (0, 0), (0, 0))
  let a : Arrival := {
    core := core, seq := s.seq, by_ := .ctx k 0, user := !(c.mode.getLsbD 6), gmask := (s.core core).gmask
    mma := c.mma.isSome, k := kk, da := da, db := db, fmt := c.fmt, scl := c.scl }
  let s := arriveGang a ({ s with seq := s.seq + 1 }.modCtx k fun c => { c with mma := none, gang := some { pc := c.pc, h := c.h } })
  if atGang s core then park k .gang s else s

/-! ## Operand fetch (R201) -/

/-- One read of the array: its part, its base and the distance from it, bytes, alignment. -/
structure Fetch where
  part : Part
  base : Word
  off : Nat
  n : Nat
  align : Nat
  deriving DecidableEq, Repr

/-- Where a read begins (R163, R200). -/
def Fetch.addr (s : State) (core : Nat) (f : Fetch) : Word := arcadeAddr s core f.base (f.off : Int)

/-- Elements of a block below K. -/
def blockElems (k : Word) (b : Nat) : Nat := min 32 (k.toNat - 32 * b)

/-- The distance of block b of vector v from its operand's base (R200). -/
def vectorOff (d : Word × Word) (b v : Nat) : Nat := b * wf d.2 31 16 + v * wf d.2 15 0 + v % 2 ^ wf d.2 35 32 * 8192

/-- The vectors of an operand, where it lies in memory. -/
def vectorFetches (kk : Word) (b width : Nat) (d : Word × Word) (part : Nat → Part) : List Fetch :=
  if descTile d.2 then [] else
  (upTo (descCount d.2)).map fun v => ⟨part v, d.1, vectorOff d b v, (blockElems kk b * containerBits width + 7) / 8, 8⟩

/-- The reads of block b, in order: operands and exponents, and with block 0 the scales. -/
def blockFetches (o : MatOp) (b : Nat) : List Fetch :=
  let lead := o.leader
  let m := descCount lead.da.2
  let plane (part : Part) (p : Word) (off n align : Nat) : List Fetch := if p = 0 then [] else [⟨part, p, off, n, align⟩]
  vectorFetches lead.k b (wf (vget lead.fmt 0) 3 0) lead.da .a ++
  plane .ea (vget lead.scl 0) (128 * b) m 1 ++
  (if b = 0 then plane .sa (vget lead.scl 2) 0 (4 * m) 4 else []) ++
  (o.members.mapIdx fun i (x : Arrival) =>
    let n := descCount x.db.2
    vectorFetches lead.k b (wf (vget x.fmt 1) 3 0) x.db (.b i) ++
    plane (.eb i) (vget x.scl 1) (32 * b) n 1 ++
    (if b = 0 then plane (.sb i) (vget x.scl 3) 0 (4 * n) 4 else [])).flatten

/-- The member whose operand a part belongs to; the leader's for A. -/
def partOwner (o : MatOp) : Part → Arrival
  | .b i _ => o.members.getD i o.leader
  | .eb i => o.members.getD i o.leader
  | .sb i => o.members.getD i o.leader
  | _ => o.leader

/-- The pieces of one read, each within a bank or a page (R163, R294). -/
def fetchPieces (s : State) (o : MatOp) (f : Fetch) : List (Nat × Word × Nat) := slotSpans s (partOwner o f.part).core f.base f.off f.n

/-- The checks of R201 on one read, in the order of R111; those of personalities are made where it is performed. Of a last
block that K cuts short, only the bytes that are read are checked (log entry 92). -/
def fetchTrap (s : State) (o : MatOp) (f : Fetch) : Option TrapInfo :=
  let core := (partOwner o f.part).core
  let a := f.addr s core
  let l := fetchPieces s o f
  match l.findSome? fun p => holeTrap s p.2.1 with
  | some t => some t
  | none =>
    match l.find? fun p => isLocal p.2.1 && !sameTenant s core (windowCore core p.2.1) with
    | some p => some (trapOf causeProt 3 p.2.1)
    | none =>
      if a.toNat % f.align ≠ 0 then some (trapOf causeAlign 0 a)
      else if f.align = 8 ∧ isLocal a ∧ 8192 < a.toNat % 8192 + f.n then some (trapOf causeStraddle 0 a)
      else none

/-- The first check that a read of the next block fails. -/
def blockTrap (s : State) (o : MatOp) : Option TrapInfo := (blockFetches o o.next).findSome? (fetchTrap s o)

/-- The agent of a read: the leader requests, in class 1, in the address space and at the level of the member whose
operand it is (R207, R353, R355). -/
def matAgent (s : State) (o : MatOp) (p : Part) : Agent :=
  let x := partOwner o p
  ⟨o.leader.core, ctxId (arrivalCtx s o.leader), 0, 1, (s.ctx (arrivalCtx s x)).asid, x.user, false⟩

/-- The reads of the next block that banks have not yet performed: part, byte in it, address, bytes. -/
def localNeeds (s : State) (o : MatOp) : List (Part × Nat × Word × Nat) :=
  ((blockFetches o o.next).filter fun f => isLocal f.base).flatMap fun f =>
    ((fetchPieces s o f).filter fun p => !(o.vals.any fun v => v.1 == f.part && v.2.1 == p.1)).map fun p => (f.part, p.1, p.2.1, p.2.2)

/-- A block of a vector lies in one page (R201). -/
def pageTrap (s : State) (ag : Agent) (a : Word) (f : Fetch) : Option TrapInfo :=
  if f.align ≠ 8 then none else
  match translate s ag a kindRead with
  | .ok (_, e) => if e.size < vaOff a % e.size + f.n then some (trapOf causeStraddle 0 a) else none
  | .error _ => none

/-- The reads of a block in global memory: the values by part, or the first that did not complete. -/
def fetchGlobal (s : State) (o : MatOp) : (Option Perf × List (Part × Nat × Nat)) × State :=
  ((blockFetches o o.next).filter fun f => !isLocal f.base).foldl (fun (r : (Option Perf × List (Part × Nat × Nat)) × State) f =>
    match r.1.1 with
    | some _ => r
    | none =>
      let ag := matAgent r.2 o f.part
      let a := f.addr s ag.core
      match pageTrap r.2 ag a f with
      | some t => ((some (.failed t), []), r.2)
      | none =>
        match rangeRead ag a f.n r.2 with
        | (.done _ v _, s) => ((none, r.1.2 ++ [(f.part, 0, v)]), s)
        | (.poisoned u _, s) => ((some (.failed (eccAt u)), []), s)
        | (p, s) => ((some p, []), s)) ((none, o.vals), s)

/-- A part's value. -/
def partVal (l : List (Part × Nat × Nat)) (p : Part) : Option Nat :=
  let l := l.filter fun x => x.1 = p
  if l.isEmpty then none else some ((l.map fun x => x.2.2 * 2 ^ (8 * x.2.1)).sum)

/-- The mantissas of block b of a vector: from memory, or from its tile row (R43, R49, R200). -/
def vectorOf (s : State) (k : Nat) (kk : Word) (b width : Nat) (d : Word × Word) (v : Nat) (val : Option Nat) : List Int :=
  let raw := if descTile d.2 then
      (match formRow s k d.1 v with
       | some key => (((s.core (coreOf k)).row key).data >>> (8 * b * blockBytes width)).toNat
       | none => 0)
    else val.getD 0
  mantissas width (raw % 2 ^ (blockElems kk b * containerBits width))

/-- A poisoned row of a tile operand (R208). -/
def tilePoison (s : State) (k : Nat) (d : Word × Word) : Option TrapInfo :=
  if descTile d.2 then
    (upTo (descCount d.2)).findSome? fun v => (formRow s k d.1 v).bind fun key =>
      ((s.core (coreOf k)).row key).poisoned.map fun p => trapOf causeEcc p.cause.toNat p.addr
  else none

/-! ## Blocks (R48, R204) -/

/-- One step of an accumulator (R48). -/
def accStep (wA wB ea eb : Nat) (sum : Int) (acc : Nat) : FR :=
  if ea = 0xFF ∨ eb = 0xFF then ⟨fp32.nan, 0⟩ else
  addV fp32 .rne false (unpack fp32 false acc)
    (.fin (sum < 0) sum.natAbs ((ea : Int) + eb - 254 - (wA - 2 : Nat) - (wB - 2 : Nat)))

/-- The exact sum of a block's products (R48). -/
def dot (x y : List Int) : Int := (x.zip y).foldl (fun (s : Int) p => s + p.1 * p.2) 0

/-- A byte of an exponent run; 127 where the plane is absent (R199). -/
def expByte (v : Option Nat) (i : Nat) : Nat := match v with | some x => x / 2 ^ (8 * i) % 256 | none => 127

/-- Flags that a quarter keeps: NV, OF, UF, NX (R198). -/
def quarterFlags (fl : Flags5) : Flags5 := fl &&& ~~~ flDZ

/-- A member quarter after a block. -/
def accumulate (s : State) (o : MatOp) (b : Nat) (vals : List (Part × Nat × Nat)) (i : Nat) (x : Arrival) (q : Quarter) : Quarter :=
  let lead := o.leader
  let wA := wf (vget lead.fmt 0) 3 0
  let wB := wf (vget x.fmt 1) 3 0
  let m := descCount lead.da.2
  let n := descCount x.db.2
  let rowsA := (upTo m).map fun v => vectorOf s (arrivalCtx s lead) lead.k b wA lead.da v (partVal vals (.a v))
  let colsB := (upTo n).map fun v => vectorOf s (arrivalCtx s x) lead.k b wB x.db v (partVal vals (.b i v))
  let ea := partVal vals .ea
  let eb := partVal vals (.eb i)
  let res := rowsA.mapIdx fun r (ra : List Int) => colsB.mapIdx fun c (cb : List Int) =>
    accStep wA wB (expByte ea r) (expByte eb c) (dot ra cb) (q.word (32 * r + c)).toNat
  let words := res.map fun l => l.map fun (f : FR) => f.bits
  let fl := res.foldl (fun (a : Flags5) l => a ||| orFlags l) 0
  let scales (p : Part) (k : Nat) : List Half := match partVal vals p with
    | some v => (upTo k).map fun j => BitVec.ofNat 32 (v / 2 ^ (32 * j))
    | none => []
  let q := q.write fun w =>
    if w / 32 < m ∧ w % 32 < n then some (BitVec.ofNat 32 ((words.getD (w / 32) []).getD (w % 32) 0)) else none
  { q with
    flags := q.flags ||| quarterFlags fl
    sa := if b = 0 then scales .sa m else q.sa
    sb := if b = 0 then scales (.sb i) n else q.sb }

/-- The operation ends (R204, R208): a failure is recorded in every member quarter; the quarter of a departed core is
released. An entry whose operation failed fails with the same cause and subcause, beside its quarter's record (log entry 93). -/
def endOp (fail : Option TrapInfo) (o : MatOp) (s : State) : State :=
  let s := s.modCell (o.leader.core / 4) fun x => { x with ops := x.ops.filter fun y => y.leader.core != o.leader.core }
  o.members.foldl (fun (s : State) a =>
    let s := match fail with
      | some t => modQuarter a.core (fun q => { q with fail := some { t with sub := 0x80 ||| t.sub } }) s
      | none => s
    let s := if (quarterOf s a.core).leaving then freeQuarter a.core s else s
    match a.by_ with
    | .queue q => modHead q (fun ch =>
        if ch.wait = .operation then { ch with wait := match fail with | some t => .failed t | none => .woken 0 } else ch) s
    | .ctx .. => s) s

/-- Every member's accesses before its GANG are performed, those of its tray among them (R204). -/
def membersDone (s : State) (o : MatOp) : Bool :=
  o.members.all fun a => match a.by_ with
    | .ctx k _ => (s.ctx k).reqs.all (fun r => a.seq ≤ r.seq) &&
        ((s.ctx k).tray ++ (s.ctx k).running.toList).all fun cl => a.seq ≤ cl.age || !cl.info.mem
    | .queue _ => true

/-- The launch of a core is being pre-empted (R343), or the core is not that of a started launch. -/
def coreStops (s : State) (core : Nat) : Bool :=
  match (s.core core).launch.bind (find? s.launches) with | some l => l.stopping | none => false

/-- A member of an operation is being pre-empted, and every other with it (R209). -/
def opStops (s : State) (o : MatOp) : Bool := o.members.any fun a => coreStops s a.core

/-- An operation runs its next block (R204, R209): not once its present block is done while a member is being pre-empted. -/
def opRuns (s : State) (o : MatOp) : Bool :=
  (o.state == .issued || o.state == .retry) && !(o.rests && opStops s o) && (o.next != 0 || membersDone s o)

/-- An operation may be saved (R209, R343): its block is done, it is suspended, or block 0 waits for accesses before it. -/
def MatOp.atRest (s : State) (o : MatOp) : Bool :=
  o.rests || (match o.state with | .suspended .. => true | _ => false) || (o.next == 0 && !membersDone s o)

/-- The reads that an operation asks banks for. -/
def bankNeeds (s : State) (o : MatOp) : List (Part × Nat × Word × Nat) :=
  if opRuns s o && (blockTrap s o).isNone then localNeeds s o else []

/-- A read of the operation that a core leads performed at a bank (R201, R294). -/
def performFetch (lead : Nat) (part : Part) (off : Nat) (s : State) : State :=
  match opBy s lead with
  | none => s
  | some o =>
    match (bankNeeds s o).find? fun x => x.1 = part ∧ x.2.1 = off with
    | none => s
    | some (_, _, a, n) =>
      match pieceAct (matAgent s o part) a (.read n) (.queue 0) s with
      | (.done _ v _, s) => setOp { o with vals := o.vals ++ [(part, off, v)] } s
      | (.failed t, s) => endOp (some t) o s
      | (.poisoned u _, s) => endOp (some (eccAt u)) o s
      | (_, s) => s

/-- A block has been read: it completes in every member quarter (R204). -/
def finishBlock (o : MatOp) (vals : List (Part × Nat × Nat)) (s : State) : State :=
  let lead := o.leader
  let s := (o.members.mapIdx fun i (x : Arrival) => (i, x)).foldl
    (fun (t : State) p => modQuarter p.2.core (accumulate s o o.next vals p.1 p.2) t) s
  let macs := (o.members.map fun (x : Arrival) => descCount x.db.2).sum * descCount lead.da.2 * blockElems lead.k o.next
  let s := countOps (arrivalCtx s lead) (2 * macs) s
  let o : MatOp := { o with
    next := o.next + 1, due := s.cycle + blockCycles lead o.members, state := .issued, vals := [], rests := opStops s o }
  if o.next = o.blocks then endOp none o s else setOp o s

/-- The step of the operation that a core leads (R204, R207, R208), in a cycle in which the governor lets joint arrays work
(R414). -/
def blockStep (s : State) (lead : Nat) : State :=
  match opBy s lead with
  | none => s
  | some o =>
    match o.state with
    | .failed t => endOp (some t) o s
    | _ =>
      if !opRuns s o then s else
      match blockTrap s o with
      | some t => endOp (some t) o s
      | none =>
        if s.cycle < o.due ∨ !mayStart s (pkgOf o.leader.core) 1 (o.leader.core / 4) ∨ localNeeds s o ≠ [] then s else
        match tilePoison s (arrivalCtx s o.leader) o.leader.da <|> o.members.findSome? fun x => tilePoison s (arrivalCtx s x) x.db with
        | some t => endOp (some t) o s
        | none =>
          match fetchGlobal s o with
          | ((some (.failed t), _), s) => endOp (some t) o s
          | ((some (.fault die num), _), s) => setOp { o with state := .suspended die num, vals := [] } s
          | ((some _, _), s) => s
          | ((none, vals), s) => finishBlock o vals s

/-- MATRIX_BLOCK_COMPLETE: the operations of a cell go on. -/
def effBlockComplete (cell : Nat) (s : State) : State := (s.cell cell).ops.foldl (fun s o => blockStep s o.leader.core) s

/-- The rows that a tile form's vectors name. -/
def formRows (s : State) (k : Nat) (d : Word × Word) (n : Nat) : List Nat :=
  if descTile d.2 then (upTo n).filterMap (formRow s k d.1) else []

/-- The tile rows that MMA's descriptors name as operands (R200). -/
def operandForms (s : State) (k : Nat) (c : Ctx) : Instr → List Nat
  | .mma _ _ a b =>
    let rows (r : SReg) : List Nat := let d := (c.rd r, c.rd (hiReg r)); formRows s k d (descCount d.2)
    rows a ++ rows b
  | _ => []

/-- The rows that an instruction writes beside those that it names: a drain's tile destination (R211), an exposure's
eight rows (R223). -/
def extraRows (s : State) (k : Nat) (c : Ctx) : Instr → List Nat
  | .mdrain _ _ a => formRows s k (c.rd a, c.rd (hiReg a)) (quarterOf s (coreOf k)).m
  | .pmovExpose => youtRows s k c
  | _ => []

/-- The rows that running operations read as a context's tile operands: a younger writer of one parks (R201), in deferring mode
too (log entry 95). -/
def operandRows (s : State) (k : Nat) : List Nat :=
  (s.cell (coreOf k / 4)).ops.flatMap fun o =>
    let rows (a : Arrival) (d : Word × Word) : List Nat := if arrivalCtx s a = k then formRows s k d (descCount d.2) else []
    rows o.leader o.leader.da ++ o.members.flatMap fun a => rows a a.db

/-! ## MZERO and MDRAIN -/

/-- MZERO (R210). -/
def effMzero (s : State) : State := modQuarter (coreOf s.cur) (fun q => { q.zero with holder := some s.cur }) s

/-- MDRAIN's OPERAND traps on its pair (R211). -/
def drainTrap (s : State) (k : Nat) (c : Ctx) (a : SReg) : Option TrapInfo :=
  if drainPairOk s k (quarterOf s (coreOf k)).m (c.rd a) (c.rd (hiReg a)) then none else some (trapOf causeOperand 12 0)

/-- A drain queued (R212): a tile destination's rows are pending from now on. -/
def queueDrain (core k : Nat) (by_ : DrainBy) (user : Bool) (lo hi : Word) (s : State) : State :=
  let x := s.core core
  let m := x.quarter.m
  let rows := formRows s k (lo, hi) m
  let d : Drain := {
    by_ := by_, ctx := k, user := user, base := lo, dest := hi, hdl := x.hdl, begun := false, row := 0, m := m, held := false
    flags := 0, sats := 0, poison := none, ready := none, state := .issued, due := s.cycle }
  pendRows core rows (s.modCore core fun x => { x with drains := x.drains ++ [d] })

/-- MDRAIN (R212). -/
def effMdrain (d a : SReg) (s : State) : State :=
  let k := s.cur
  let c := me s
  offCore k (queueDrain (coreOf k) k (.ctx k d) (!(c.mode.getLsbD 6)) (c.rd a) (c.rd (hiReg a)) (setPending k [d] s))

/-! ## Drains (R212 to R215) -/

/-- The head drain of a core changed. -/
def modDrain (core : Nat) (f : Drain → Drain) (s : State) : State :=
  s.modCore core fun x => { x with drains := match x.drains with | d :: r => f d :: r | [] => [] }

/-- The head drain. -/
def headDrain (s : State) (core : Nat) : Option Drain := (s.core core).drains.head?

/-- A scale's factor (R50): a NaN scale gives the canonical NaN and NV. -/
def applyScale (sc : Option Half) (y : FR) : FR :=
  match sc with
  | none => y
  | some v =>
    if (unpack fp32 false v.toNat).isNan then ⟨fp32.nan, y.fl ||| flNV⟩
    else let r := fmul fp32 .rne false y.bits v.toNat; ⟨r.bits, y.fl ||| r.fl⟩

/-- Scale i of a vector; none where the vector is absent. -/
def scaleAt (l : List Half) (i : Nat) : Option Half := if l = [] then none else some (l.getD i 0)

/-- y[i][0..31] of a quarter with its flags (R50, R212). -/
def drainRow (q : Quarter) (i : Nat) : List Nat × Flags5 :=
  let l := (upTo 32).map fun j =>
    if j < q.n then applyScale (scaleAt q.sb j) (applyScale (scaleAt q.sa i) ⟨(q.word (32 * i + j)).toNat, 0⟩) else (⟨0, 0⟩ : FR)
  (l.map (·.bits), quarterFlags (orFlags l))

/-- A row in the drain format (R214): its bytes as a number, their count, flags and saturations. -/
def drainBytes (q : Quarter) (y : List Nat) : RowData × Nat × Flags5 × Nat :=
  let y := y.take q.n
  if q.out = 0 then (BitVec.ofNat 1024 (packLanes 32 y), 4 * q.n, 0, 0)
  else if q.out = 3 then
    let w := q.bw.toNat
    let (e, ms, sats, fl) := packBfp w false ((upTo 32).map fun j => y.getD j 0)
    (BitVec.ofNat 1024 (containers w ms + e * 2 ^ 256), 33, fl, sats)
  else
    let l := y.map fun x => convert fp32 (if q.out = 1 then bf16 else fp16) .rne false x
    (BitVec.ofNat 1024 (packLanes 16 (l.map (·.bits))), 2 * q.n, orFlags l, 0)

/-- DRAIN_BEGIN (R212): once the operation has ended and the earlier drains have landed. -/
def effDrainBegin (core : Nat) (s : State) : State :=
  match headDrain s core with
  | some d => if d.begun ∨ opOn s core then s else
      modDrain core (fun d => { d with begun := true, m := (quarterOf s core).m, due := s.cycle + 4 }) s
  | none => s

/-- DRAIN_ROW_DELIVER (R213): the next row lands in the delivery tile and the handler runs from hdl, once the handler's row
instructions have read what they name (R197). With no handler in the record its context is IDLE, parks at no row, and the
drain waits for ever (log entry 94). -/
def effRowDeliver (core : Nat) (s : State) : State :=
  match headDrain s core with
  | some d =>
    let h := handlerKey core
    if !d.begun ∨ d.hdl = 0 ∨ d.held ∨ d.ready ≠ none ∨ d.m ≤ d.row ∨ s.cycle < d.due ∨ (s.ctx h).park ≠ .nextRow ∨ rowsOut s h ∨ rowPending s core (rowKey 16 0) then s else
    let (y, fl) := drainRow (quarterOf s core) d.row
    let s := modRow core (rowKey 16 0) (fun r => { r with data := rowFrom 32 y, b := false, e := 0, poison := none, bad := 0 }) s
    let s := modDrain core (fun d => { d with held := true, flags := d.flags ||| fl }) s
    (unpark h s).modCtx h fun c => { c with
      pc := d.hdl, hdlrow := BitVec.ofNat 7 d.row, hdlcnt := BitVec.ofNat 8 (d.m - d.row) }
  | none => s

/-- RLEAVE (R214): the row leaves in the drain format, or is dropped; the handler parks for the next. -/
def effRleave (drop : Bool) (s : State) : State :=
  let h := s.cur
  let core := coreOf h
  let s := match headDrain s core with
    | some d =>
      if !d.held then s else
      let q := quarterOf s core
      let last : Bool := d.row + 1 == d.m
      let s := if last then s.modCtx h fun c => { c with hdlcnt := 0 } else s
      if drop then modDrain core (fun d => { d with held := false, row := d.row + 1, due := s.cycle + 4 }) s
      else
        let (v, n, fl, sats) := drainBytes q (lanesOf 32 ((s.core core).row (rowKey 16 0)).data)
        modDrain core (fun d => { d with
          held := false, ready := some (v, n), flags := d.flags ||| fl, sats := d.sats + sats, due := s.cycle + 4 }) s
    | none => s
  park h .nextRow s

/-- A drain's last row is written (R212): sd lands M with the flags, or poison, and the quarter may be released. -/
def landDrain (core : Nat) (d : Drain) (s : State) : State :=
  let q := quarterOf s core
  let fl := if d.m = 0 then 0 else q.flags ||| d.flags
  let s := s.modCore core fun x => { x with drains := x.drains.tail }
  let s := modQuarter core (fun q => { q with flags := 0, holder := if draining s core then q.holder else none }) s
  let s := if fl = 0 then s else raise d.ctx fl s
  let s := if d.sats = 0 then s else countEv d.ctx 5 d.sats s
  match d.by_ with
  | .ctx k r => applyLanding k { Landing.empty with regs := [(r, BitVec.ofNat 64 d.m)], poison := d.poison } s
  | .queue q => modHead q (fun ch => { ch with wait := match d.poison with
      | some p => .failed { cause := p.cause, sub := d.sub, addr := p.addr } | none => .woken 0 }) s

/-- A row is written or has failed; the next one follows. -/
def rowDone (core : Nat) (fail : Option TrapInfo) (s : State) : State :=
  modDrain core (fun d => { d with
    ready := none, row := d.row + 1, state := .issued, did := 0
    poison := d.poison <|> fail.map fun t => ⟨t.cause, t.addr⟩
    sub := match d.poison, fail with | none, some t => t.sub | _, _ => d.sub }) s

/-- The agent of a drain's writes. -/
def drainAgent (s : State) (core : Nat) (d : Drain) : Agent :=
  ⟨core, ctxId d.ctx, 0, 1, (s.ctx d.ctx).asid, d.user, false⟩

/-- The access of a drain's ready row to a memory destination (R211, R214). -/
def drainOp (d : Drain) : Option MemOp :=
  match d.ready with
  | some (v, n) => if descTile d.dest then none else
      some { ea := d.base + BitVec.ofNat 64 (d.row * wf d.dest 15 0), n := n, acc := .write n (v.zeroExtend 2048), align := 4, row := true }
  | none => none

/-- Where a drain's row lies, part by part, in an arcade if its base names the lead (R163, R211). -/
def drainSpans (s : State) (core : Nat) (d : Drain) (n : Nat) : List (Nat × Word × Nat) := spans s core d.base (d.row * wf d.dest 15 0) n

/-- The checks of R111 on a drain's row: an arcade's parts are checked in its members. -/
def drainRowTrap (s : State) (core : Nat) (d : Drain) (op : MemOp) : Option TrapInfo :=
  let l := drainSpans s core d op.n
  if l.all fun p => p.2.1 == op.ea + BitVec.ofNat 64 p.1 then accessTrap s core [op]
  else accessTrap s core (l.map fun p => { op with ea := p.2.1, n := p.2.2 })

/-- The parts of a head drain's row that banks have not yet written: number, place, address, bytes; none if it fails a check
of R111. -/
def drainNeeds (s : State) (core : Nat) : List (Nat × Nat × Word × Nat) :=
  match headDrain s core with
  | none => []
  | some d =>
    match drainOp d with
    | none => []
    | some op =>
      if !isLocal op.ea || (drainRowTrap s core d op).isSome then [] else
      let l := drainSpans s core d op.n
      ((upTo l.length).zip l).filter fun p => !d.did.getLsbD p.1

/-- A part of a drain's row written at a bank (R214, R295). -/
def performDrain (core i : Nat) (s : State) : State :=
  match headDrain s core with
  | none => s
  | some d =>
    match drainOp d, (drainNeeds s core).find? fun p => p.1 = i with
    | some op, some (_, start, a, n) =>
      let v : SlotData := match op.acc with | .write _ v => v >>> (8 * start) | _ => 0
      match pieceAct (drainAgent s core d) a (.write n v) (.queue 0) s with
      | (.done .., s) =>
        let s := modDrain core (fun d => { d with did := d.did ||| BitVec.ofNat 2 (2 ^ i) }) s
        if (drainNeeds s core).isEmpty then rowDone core none s else s
      | (.failed t, s) => rowDone core (some t) s
      | (_, s) => s
    | _, _ => s

/-- The write of a drain's ready row, but for the parts that banks perform in their slots. -/
def writeRow (core : Nat) (d : Drain) (s : State) : State :=
  match d.state, drainOp d with
  | .failed t, _ => rowDone core (some t) s
  | .suspended .., _ => s
  | _, none =>
    (match formRow s d.ctx d.base d.row, d.ready with
    | some key, some (v, _) => rowDone core none (modRow core key (landRow none { data := v }) s)
    | _, _ => rowDone core none s)
  | _, some op =>
    match drainRowTrap s core d op with
    | some t => rowDone core (some t) s
    | none =>
      if isLocal op.ea then s else
      match globalAccess (drainAgent s core d) op.ea op.acc (.queue 0) s with
      | (.done .., s) => rowDone core none s
      | (.fault die num, s) => modDrain core (fun d => { d with state := .suspended die num }) s
      | (.failed t, s) => rowDone core (some t) s
      | (_, s) => s

/-- DRAIN_ROW_WRITE (R214): a row that left the handler, or the next row of a direct drain, is written; after the last
the drain lands. -/
def effRowWrite (core : Nat) (s : State) : State :=
  match headDrain s core with
  | some d =>
    if !d.begun then s
    else match d.ready with
      | some _ => writeRow core d s
      | none =>
        if d.m ≤ d.row then (if d.held then s else landDrain core d s)
        else if d.hdl ≠ 0 ∨ s.cycle < d.due then s
        else
          let q := quarterOf s core
          let (y, fl) := drainRow q d.row
          let (v, n, fl', sats) := drainBytes q y
          modDrain core (fun d => { d with ready := some (v, n), flags := d.flags ||| fl ||| fl', sats := d.sats + sats }) s
  | none => s

end Sys2Proof.Machine
end

