-- ==== Sys2Proof/Machine/Guise.lean ====
section
/-! DEFINITION. BGUISE (R157 to R160), BDESC (R156) and ARCADE (R161, R164). -/

namespace Sys2Proof.Machine

/-- A context's spill carve-out has a byte in a bank (R151, R302). -/
def carveIn (s : State) (k b : Nat) : Bool :=
  let c := s.ctx k
  let n := c.spsize.toNat
  let key := localKey (coreOf k) c.spbase
  n != 0 && isLocal c.spbase && key / 8192 ≤ b && b ≤ (key + n - 1) / 8192

/-- A carve-out of any context of a bank's core has a byte in it (R161). -/
def anyCarve (s : State) (b : Nat) : Bool := (upTo 5).any fun i => carveIn s (8 * (b / 16) + i) b

/-- The descriptor that BGUISE names: bits [63:38] are ignored (R157). -/
def guiseDesc (v : Word) : Word := v &&& BitVec.ofNat 64 (2 ^ 38 - 1)

/-- BGUISE's traps (R157 to R159). -/
def guiseTrap (s : State) (k : Nat) (c : Ctx) (a : SReg) (bank : BitVec 4) (mode : GuiseMode) : Option TrapInfo :=
  let b := 16 * coreOf k + bank.toNat
  let new := guiseDesc (c.rd a)
  let old := descOf s b
  let t (n : Nat) : Option TrapInfo := some (trapOf causeStruct n (bankBase b))
  let into : Bool := kindOf new == 6 && kindOf old != 6
  if !descValid new bank.toNat || oddOfPair s b then t 0x21
  else if carveIn s k b then t 0x22
  else if into && inArcade s (b + 1) then t 0x21
  else if into && carveIn s k (b + 1) then t 0x22
  else if mode = .convert ∧ !pairingOk (kindOf old) (kindOf new) then t 0x20
  else none

/-- The bytes of two banks exchanged. -/
def swapBytes (b c : Nat) (s : State) : State :=
  let x := bankRead s (bkey b 0) 8192
  let y := bankRead s (bkey c 0) 8192
  let px := s.bankPoison.filter fun u => u / 1024 = b
  let py := s.bankPoison.filter fun u => u / 1024 = c
  let rest := s.bankPoison.filter fun u => ¬(u / 1024 = b ∨ u / 1024 = c)
  { bankWrite (bkey c 0) 8192 x (bankWrite (bkey b 0) 8192 y s) with
    bankPoison := rest ++ px.map (fun u => u % 1024 + 1024 * c) ++ py.map fun u => u % 1024 + 1024 * b }

/-- A pair is broken (R158): the even bank takes the front's contents, the odd one keeps the negative's. -/
def splitPair (b : Nat) (s : State) : State :=
  if (s.bank b).flipped then (swapBytes b (b + 1) s).modBank b fun x => { x with flipped := false } else s

/-- The odd bank joins a pair (R158): it loses its personality; its GEN stays. -/
def joinPair (b : Nat) (clear : Bool) (s : State) : State :=
  let s := (wakeClosed (b + 1) s).modBank (b + 1) fun x => { x with desc := x.desc &&& BitVec.ofNat 64 (0xFFFF * 2 ^ 48), ages := [] }
  if clear then clearBank (b + 1) s else s

/-- A descriptor with the GEN of another. -/
def withGen (new old : Word) : Word := new ||| (old &&& BitVec.ofNat 64 (0xFFFF * 2 ^ 48))

/-- Cycles from issue to landing (R157). -/
def guiseTime (mode : GuiseMode) (counts : Option Word) : Nat :=
  match mode, counts with
  | .convert, some x => 8 + 4 * (wf x 63 32 + wf x 31 0)
  | _, _ => 4

/-- The banks whose waiters a change of a bank wakes (R153): its own, and those of the arcade that it leaves. -/
def changedWith (s : State) (b : Nat) : List Nat := if inArcade s b then linkedFrom s 16 (leadOf s 16 b) else [b]

/-- BGUISE's change of the bank (R157, R158): CONVERT's counts, whether a KEEP is refused, and the state. A KEEP leaves the
image's WMASK as it is (log entry 86), and a CLEAR from EXCH to EXCH clears the front and leaves the negative (log entry 97). -/
def guiseApply (b : Nat) (mode : GuiseMode) (new : Word) (s : State) : Option Word × Bool × State :=
  let old := descOf s b
  let full := withGen new old
  let into : Bool := kindOf new == 6 && kindOf old != 6
  let outOf : Bool := kindOf old == 6 && kindOf new != 6
  let set (s : State) : State := s.modBank b fun x => { x with desc := full, ages := [], badDesc := false }
  match mode with
  | .clear =>
    let s := if outOf then splitPair b s else s
    let s := clearBank (if kindOf old = 6 ∧ !outOf then exchBank s b false else b) s
    let s := set s
    (none, false, if into then joinPair b true s else s)
  | .keep =>
    let s' := if outOf then splitPair b s else s
    if !keepOk s' b new then (none, true, s) else
    (none, false, if into then joinPair b false (set s') else set s')
  | .convert =>
    let (n, s) := convertBank b full s
    (some n, false, s)

/-- BGUISE (R157): the bank changes in its slot 0 and answers CLOSED until sd lands. -/
def effBguise (d a : SReg) (bank : BitVec 4) (mode : GuiseMode) (s : State) : State :=
  let b := 16 * coreOf s.cur + bank.toNat
  issueOps [{ ea := bankBase b, n := 8, acc := .guise mode (guiseDesc (rdS s a)), dest := .reg d 8 true, align := 8 }] s

/-- A trap taken at a stated PC (R157). -/
def takeTrapAt (t : TrapInfo) (pc : Word) (k : Nat) (s : State) : State :=
  if (s.ctx k).h then kill t.cause t.sub k s else (enterTrap t k (unrun k s)).modCtx k fun c => { c with xpc := pc }

/-- A BGUISE meets poison in what it reads (R408): the bank stays as it is, no status lands, and the context traps ECC at its
bundle. -/
def guisePoison (k : Nat) (r : Req) (unit : Word) (s : State) : State :=
  let s := (endReq k r s).modCtx k fun c => (destNames r.dest).foldl (fun c d => c.setPend d false) c
  if (s.ctx k).left ≠ .no then s else takeTrapAt (eccAt unit) r.pc k s

/-- BGUISE's action at slot 0 (R157): sd lands at n + 4, and after a CONVERT at n + 8 and 4 more for each element. -/
def guisePerform (k : Nat) (r : Req) (mode : GuiseMode) (new : Word) (s : State) : State :=
  let b := localKey (coreOf k) r.addr / 8192
  if (s.bank b).closing.isSome then afterPerf k r 0 true .closed s
  else if mode = .convert ∧ (s.bank b).badDesc then guisePoison k r 0 s
  else if let some u := badIn s (guiseReads s b mode new) then guisePoison k r u s else
  let old := descOf s b
  let s := detachBank b ((changedWith s b).foldl (fun s x => wakeClosed x s) (endReq k r s))
  let (counts, bad, s) := guiseApply b mode new s
  let d : SReg := match r.dest with | .reg d _ _ => d | _ => 0
  s.modBank b fun x => { x with
    closing := some (.guise k d r.pc old (s.cycle + r.issued % 4 + guiseTime mode counts - 4) bad counts) }

/-- BGUISE_COMPLETE (R157): GEN increases, the old descriptor lands and the bank answers again; a refused KEEP traps. -/
def effBguiseComplete (core bank : Nat) (s : State) : State :=
  let b := 16 * core + bank % 16
  match (s.bank b).closing with
  | some (.guise k d pc old due bad counts) =>
    if s.cycle < due then s else
    let s := s.modBank b fun x => { x with closing := none }
    let s := if bad then s else bumpGen b s
    let s := match counts with | some v => s.modCtx k fun c => { c with xstat := v } | none => s
    let s := applyLanding k { Landing.empty with regs := [(d, old)] } s
    if bad ∧ (s.ctx k).status ≠ .idle then takeTrapAt (trapOf causeStruct 0x23 (bankBase b)) pc k s else s
  | _ => s

/-- BDESC (R156): a slot-0 operation whose descriptor lands at n + 4, or as many frames later as the bank is CLOSED. -/
def effBdesc (d : SReg) (bank : BitVec 4) (s : State) : State :=
  issueOps [{ ea := bankBase (16 * coreOf s.cur + bank.toNat), n := 8, acc := .desc, dest := .reg d 8 true, align := 8 }] s

/-! ## Arcades (R161) -/

/-- The list that a compose reads, for the checks of R111 and R301. -/
def listOp (a : Word) (n : Nat) : MemOp := { ea := a, n := n, acc := .read n, align := 1, row := true }

/-- ARCADE's traps: the list is a local-window access (R111, R301). -/
def arcadeTrap (s : State) (k : Nat) (c : Ctx) (a : SReg) (b : Option SReg) : Option TrapInfo :=
  let ea := c.rd a
  let n := match b with | some b => (c.rd b).toNat | none => 1
  if !isLocal ea then some (trapOf causeProt 0 ea)
  else match b with
    | none => regionTrap s (coreOf k) (listOp ea 1)
    | some _ =>
      if n < 2 ∨ 16 < n then regionTrap s (coreOf k) (listOp ea 1) else accessTrap s (coreOf k) [listOp ea n]

/-- The member banks that the n bytes of a list name. -/
def banksIn (core n v : Nat) : List Nat := (upTo n).map fun i =>
  let x := v / 2 ^ (8 * i) % 256
  16 * (core / 16 * 16 + x / 16) + x % 16

/-- The member banks that a list names as it stands. -/
def listed (s : State) (core : Nat) (a : Word) (n : Nat) : List Nat :=
  banksIn core n (((upTo n).map fun i =>
    let x := a + BitVec.ofNat 64 i
    (readByte s.bankMem (plainKey s (windowCore core x == core) false (bankAt core x) (wf x 12 0))).toNat * 2 ^ (8 * i)).sum)

/-- The descriptor fields that members share (R161). -/
def shapeOf (d : Word) : Nat × Nat × Nat × Nat × Nat := (kindOf d, ewOf d, kwOf d, bshiftOf d, bmaskOf d)

/-- A member is not empty (R161 code 4). -/
def notEmpty (s : State) (b : Nat) : Bool :=
  let d := descOf s b
  match kindOf d with
  | 0 => false
  | 5 => (upTo (bmaskOf d + 1)).any fun i => bankRead s (bkey b (0x40 + 4 * i)) 4 != 0
  | _ => hdCount s b != 0

/-- The banks of a list that belong to the issuing tenant (R161). -/
def ownListed (s : State) (core : Nat) (l : List Nat) : List Nat := (l.filter fun b => sameTenant s core (b / 16)).dedup

/-- A compose's code (R161). -/
def composeCode (s : State) (core n : Nat) (l : List Nat) : Nat :=
  if n < 2 ∨ 16 < n then 1
  else if (ownListed s core l).length ≠ n then 1
  else if l.any fun b => kindOf (descOf s b) == 4 || kindOf (descOf s b) == 6 || oddOfPair s b then 2
  else if l.any fun b => shapeOf (descOf s b) != shapeOf (descOf s (l.headD 0)) then 3
  else if l.any (notEmpty s) then 4
  else if l.any fun b => inArcade s b || anyCarve s b then 5
  else 0

/-- Banks, code and member count of an ARCADE: `b` is none for a dissolve. -/
def arcadePlan (s : State) (core : Nat) (a : Word) (n : Option Nat) : List Nat × Nat × Nat :=
  match n with
  | some n =>
    let l := if n < 2 ∨ 16 < n then [] else listed s core a n
    (ownListed s core l, composeCode s core n l, n)
  | none =>
    let b := bankAt core a
    if aroleOf (descOf s b) = 1 then let ms := linkedFrom s 16 b; (ms, 0, ms.length) else ([b], 6, 0)

/-- A bank that the ARCADE or BGUISE names is still CLOSED: the instruction waits for its slot. -/
def arcadeHeld (s : State) (core : Nat) (a : Word) (n : Option Nat) : Bool :=
  (arcadePlan s core a n).1.any fun b => (s.bank b).closing.isSome

/-- Banks answer CLOSED for a context's ARCADE, or do so no longer. -/
def closeFor (k : Nat) (l : List Nat) (s : State) : State := l.foldl (fun (s : State) x => s.modBank x fun y => { y with closing := some (.arcade k) }) s
def reopen (l : List Nat) (s : State) : State := l.foldl (fun (s : State) x => s.modBank x fun y => { y with closing := none }) s

/-- A composition or dissolution made. -/
def arrange (compose : Bool) (named : List Nat) (s : State) : State :=
  let s := named.foldl (fun s x => wakeClosed x s) s
  if compose then linkBanks named (named.foldl (fun (s : State) x => s.modBank x fun y => { y with ages := [] }) s)
  else named.foldl (fun (s : State) x => s.modBank x fun y => { y with desc := withLink y.desc 0 0 }) s

/-- ARCADE (R161): the named banks answer CLOSED from the next cycle on until sd lands. A dissolution is made at once. A
composition's list is an access of its own, in its bank's slot (R299): until it is read the banks that it names now are
CLOSED, and then those that it named (log entry 98). -/
def effArcade (d a : SReg) (b : Option SReg) (s : State) : State :=
  let k := s.cur
  let core := coreOf k
  let ea := rdS s a
  let n := b.map fun r => (rdS s r).toNat
  let (named, code, m) := arcadePlan s core ea n
  let reads : Option Nat := n.filter fun n => 2 ≤ n && n ≤ 16
  let s := setPending k [d] s
  let s := if code = 0 ∧ reads.isNone then arrange false named s else s
  let op : ArcadeOp := {
    ctx := k, d := d, code := code, named := named, due := s.cycle + 4 + 2 * m, list := reads.map fun _ => s.seq }
  let s := { closeFor k named s with arcades := s.arcades ++ [op] }
  offCore k (match reads with
    | some n =>
      let op := { listOp ea n with plain := false }
      sendReq none op (if ownBankOp core { op with row := false } then noteOwn core (bankAt core ea) s else s)
    | none => s)

/-- The ARCADE whose list a request reads. -/
def listFor (s : State) (k : Nat) (r : Req) : Option ArcadeOp := s.arcades.find? fun x => x.ctx == k && x.list == some r.seq

/-- An ARCADE in progress changed, or over. -/
def setArcade (op : ArcadeOp) (f : ArcadeOp → Option ArcadeOp) (s : State) : State :=
  { s with arcades := s.arcades.filterMap fun x => if x = op then f x else some x }

/-- The request that reads a list meets CLOSED, and is replayed (R148). -/
def replayList (k : Nat) (r : Req) (s : State) : State :=
  setReq k r.seq (fun r => some { r with state := .closed, metClosed := true, due := s.cycle + 1, did := 0, got := 0 }) s

/-- The list of an ARCADE has been read: the composition is made, or refused (R161). -/
def composeListed (k : Nat) (r : Req) (op : ArcadeOp) (v : Nat) (s : State) : State :=
  let core := coreOf k
  let n := r.acc.bytes
  let l := banksIn core n v
  let named := ownListed s core l
  let open_ := reopen op.named s
  if named.any fun b => (open_.bank b).closing.isSome then replayList k r s else
  let poison : Option Word := if named.any fun b => (open_.bank b).badDesc then some 0 else
    badIn open_ (named.filterMap fun b => if kindOf (descOf s b) = 0 ∨ kindOf (descOf s b) = 6 then none else some (bkey b 8, 4))
  if let some u := poison then poisonTraps k (.reg op.d 8 true) u (setArcade op (fun _ => none) (endReq k r open_)) else
  let code := composeCode open_ core n l
  let s := endReq k r open_
  let s := closeFor k named (if code = 0 then arrange true named s else s)
  setArcade op (fun x => some { x with named := named, code := code, list := none }) (if r.metClosed then countEv k 8 1 s else s)

/-- A list that cannot be read: sd lands poisoned (R30). -/
def listFails (k : Nat) (r : Req) (op : ArcadeOp) (t : TrapInfo) (s : State) : State :=
  failDest k (.reg op.d 8 true) r.acc (s.cycle + 1) true t (setArcade op (fun _ => none) (reopen op.named (endReq k r s)))

/-- A part of an ARCADE's list read in its slot. The ARCADE's own CLOSED does not stop it. -/
def performList (k : Nat) (r : Req) (op : ArcadeOp) (i : Nat) (p : Piece) (s : State) : State :=
  let seen := if (s.bank p.bank).closing = some (.arcade k) then reopen [p.bank] s else s
  match (bankPerf (coreOf k) (r.addr + BitVec.ofNat 64 p.start) (.read p.n) .none {} false false (.ctx k r.seq) seen).1 with
  | .done _ v _ =>
    let r' := { r with did := r.did ||| BitVec.ofNat 2 (2 ^ i), got := r.got + v * 2 ^ (8 * p.start) }
    if p.n = r.acc.bytes ∨ r'.did = 3 then composeListed k r op r'.got s else setReq k r.seq (fun _ => some r') s
  | .closed => replayList k r s
  | .poisoned u _ => listFails k r op (eccAt u) s
  | .failed t => listFails k r op t s
  | _ => s

/-- ARCADE_COMPLETE (R161): the context's oldest composition or dissolution whose time has come lands its code. -/
def effArcadeComplete (k : Nat) (s : State) : State :=
  match s.arcades.find? fun x => x.ctx = k ∧ x.list = none ∧ x.due ≤ s.cycle with
  | none => s
  | some op => applyLanding k { Landing.empty with regs := [(op.d, BitVec.ofNat 64 op.code)] } (reopen op.named (setArcade op (fun _ => none) s))

end Sys2Proof.Machine
end

