-- ==== Sys2Proof/Machine/Chains.lean ====
section
/-! DEFINITION. Engines and command chains (R251 to R274): CHAIN, FORK and RENDEZ, every entry kind, generation checks,
deadlines, completion records and tokens. -/

namespace Sys2Proof.Machine

/-! ## Queues (R251) -/

/-- The key of an engine queue: copy queue n of the core's bay, or the core's own sequencer queue. -/
def queueKey (e : EngineSel) (core n : Nat) : Nat :=
  match e with
  | .copy => 64 * (core / 16) + n
  | .mat => 64 * (core / 4) + 16 + core % 4
  | .vec => 64 * (core / 4) + 32 + core % 4

/-- The engine of a queue. -/
def queueEngine (q : Nat) : EngineSel := if q / 16 % 4 = 0 then .copy else if q / 16 % 4 = 1 then .mat else .vec

/-- Chains that a queue holds (R251). -/
def queueCap (e : EngineSel) : Nat := match e with | .copy => 4 | _ => 2

/-- Room in a queue. -/
def queueRoom (s : State) (q : Nat) : Bool := (s.queue q).chains.length < queueCap (queueEngine q)

/-- The core that a sequencer's queue serves. -/
def queueCore (q : Nat) : Nat := 4 * (q / 64) + q % 16

/-- The package of an engine queue. -/
def queuePkg (q : Nat) : Nat := if queueEngine q = .copy then q / 64 / 256 else q / 64 / 1024

/-- The bay of a copy queue, by number. -/
def queueBay (q : Nat) : Nat := q / 64

/-- The class of an engine's reads (R251, R353). -/
def engineClass (e : EngineSel) : Nat := match e with | .copy => 2 | .mat => 1 | .vec => 0

/-- The agent of a chain's accesses. -/
def chainAgent (q : Nat) (ch : Chain) : Agent :=
  let e := queueEngine q
  ⟨coreOf ch.owner, ctxId ch.owner, if e = .copy then q % 16 else 0, engineClass e, ch.asid, ch.user, false⟩

/-! ## CHAIN, FORK and RENDEZ (R268 to R271) -/

/-- The checks of a head address (R268). -/
def headTrap (s : State) (a : Word) : Option TrapInfo :=
  match holeTrap s a with
  | some t => some t
  | none => if a.toNat % 32 ≠ 0 then some (trapOf causeAlign 0 a) else none

/-- A refused token (R266, R271). -/
def refusedToken : Word := BitVec.ofNat 64 (2 ^ 63)

/-- A chain accepted by a queue (R268). -/
def acceptChain (q k : Nat) (user : Bool) (head : Word) (tok tok2 : SReg) (fork : Option Nat) (s : State) : State :=
  let ch : Chain := {
    owner := k, user := user, asid := (s.ctx k).asid, seq := s.seq, head := head, next := head, entry := none, item := 0, piece := 0
    counters := Vector.replicate 4 0, attr := none, active := none, admitted := none, meetings := 0, tok := tok, tok2 := tok2
    fork := fork, items := 0, stale := 0, entryItems := 0, entryStale := 0, wait := .ready, ending := none, cancel := false }
  { s.modQueue q fun x => { x with chains := x.chains ++ [ch] } with seq := s.seq + 1 }

/-- CHAIN (R268, R271). -/
def effChain (d a b : SReg) (e : EngineSel) (n : Nat) (try_ : Bool) (s : State) : State :=
  let k := s.cur
  let c := me s
  let q := queueKey e (coreOf k) n
  if try_ && !queueRoom s q then
    let s := wrS d refusedToken s
    if b = 0 then s else wrS b refusedToken s
  else
    offCore k (acceptChain q k (!(c.mode.getLsbD 6)) (c.rd a) d b none (setPending k [d, b] s))

/-- The chains that a FORK names: queue, index in the register runs (R269). -/
def forkChains (core n : Nat) (mask : BitVec 3) : List (Nat × Nat) :=
  ((upTo 3).filter fun i => mask.getLsbD i).map fun i =>
    (queueKey (if i = 0 then .copy else if i = 1 then .mat else .vec) core n, i)

/-- Register i of a run. -/
def regAt (d : SReg) (i : Nat) : SReg := d + BitVec.ofNat 5 i

/-- Every named queue has room (R269). -/
def forkRoom (s : State) (core n : Nat) (mask : BitVec 3) : Bool := (forkChains core n mask).all fun p => queueRoom s p.1

/-- A new group takes the context's place for one; an earlier group stays as long as a `rendez sd` waits on it (R270). -/
def replaceFork (g : Nat) (c : Ctx) : Ctx :=
  { c with
    fork := some { group := g, issued := 0, waiting := [], times := [], ended := none }
    oldForks := c.oldForks ++ c.fork.toList.filter fun f => !f.waiting.isEmpty }

/-- FORK (R269, R271): the group replaces any earlier one. -/
def effFork (d a : SReg) (n : Nat) (mask : BitVec 3) (try_ : Bool) (s : State) : State :=
  let k := s.cur
  let c := me s
  let l := forkChains (coreOf k) n mask
  if try_ && !forkRoom s (coreOf k) n mask then l.foldl (fun s p => wrS (regAt d p.2) refusedToken s) s
  else
    let g := s.seq
    let s := { s with seq := s.seq + 1 }.modCtx k (replaceFork g)
    let s := setPending k (l.map fun p => regAt d p.2) s
    offCore k (l.foldl (fun s p => acceptChain p.1 k (!(c.mode.getLsbD 6)) (c.rd (regAt a p.2)) (regAt d p.2) 0 (some g) s) s)

/-- The time at which a meeting completed, once it has (R270). -/
def Fork.met (f : Fork) (m : Nat) : Option Word := f.times[m]? <|> f.ended

/-- RENDEZ (R270): the context's next meeting; it parks, or sd waits for the meeting's time. -/
def effRendez (d : SReg) (s : State) : State :=
  let k := s.cur
  match (s.ctx k).fork with
  | none => s
  | some f =>
    let m := f.issued
    let next (f : Fork) : Fork := { f with issued := m + 1 }
    let set (f : Fork) (s : State) : State := s.modCtx k fun c => { c with fork := some f }
    if d = 0 then
      let s := set (next f) s
      if (f.met m).isSome then s else park k (.rendez m) s
    else
      let s := setPending k [d] s
      match f.met m with
      | some t => offCore k (queueLanding k { Landing.empty with due := s.cycle + 1, regs := [(d, t)] } (set (next f) s))
      | none => offCore k (set { next f with waiting := f.waiting ++ [(d, m)] } s)

/-! ## Entries (R252 to R255) -/

/-- The words of an entry read as one number. -/
def wordsOf (v : Nat) : Vector Word 4 := Vector.ofFn fun i => BitVec.ofNat 64 (v / 2 ^ (64 * i.val))

/-- OP, MOD, CNT and ARG (R253). -/
def opOf (w : Vector Word 4) : Nat := wf (vget w 0) 7 0
def modOf (w : Vector Word 4) : Nat := wf (vget w 0) 15 8
def cntOf (w : Vector Word 4) : Nat := wf (vget w 0) 31 16
def argOf (w : Vector Word 4) : Nat := wf (vget w 0) 63 32

/-- The kinds of R253. -/
def opKnown (n : Nat) : Bool := [0, 1, 2, 3, 4, 5, 8, 9, 0x0A, 0x0B, 0x0C, 0x0D, 0x10, 0x11, 0x12, 0x18, 0x19, 0x1F].contains n

/-- The kinds that an engine accepts (R251). -/
def accepts (e : EngineSel) (n : Nat) : Bool :=
  match e with
  | .copy => n != 0x18 && n != 0x19
  | .mat => !(1 ≤ n && n ≤ 5)
  | .vec => n != 5 && n != 0x18 && n != 0x19

/-- Items of an entry (R255, R256). -/
def itemCount (w : Vector Word 4) : Nat :=
  if opOf w = 1 then
    (match modOf w % 4 with | 0 => 1 | 1 => cntOf w + 1 | _ => (cntOf w + 1) * (modOf w / 4 + 1))
  else cntOf w + 1

/-- An address that the engine cannot reach: PROT (R254). -/
def reachTrap (q : Nat) (a : Word) : Option TrapInfo :=
  if queueEngine q = .vec ∧ wf a 63 57 = 0 then some (trapOf causeProt 0 a) else none

/-- The check of a small access of a chain: reach, holes, tenants, personalities. -/
def chainTrap (s : State) (q : Nat) (ch : Chain) (a : Word) : Option TrapInfo :=
  reachTrap q a <|> pieceTrap s (coreOf ch.owner) a

/-- A deadline has passed for an attribute (R264). -/
def attrLate (s : State) (ch : Chain) (x : Option Attr) : Bool :=
  match x with
  | some a => (vget a.w 0).getLsbD 9 && (vget a.w 2).toNat ≤ dialOf s ch.owner
  | none => false

/-- The entry's deadline has passed (R264). -/
def chainLate (s : State) (ch : Chain) : Bool := if ch.entry.isSome then attrLate s ch ch.active else attrLate s ch ch.attr

/-- The chain's older accesses of its owner are performed (R267). -/
def ownerDone (s : State) (ch : Chain) : Bool := (s.ctx ch.owner).reqs.all fun r => ch.seq ≤ r.seq

/-! ## The end of entries and chains (R265, R266) -/

/-- A saturating byte of a count. -/
def sat255 (n : Nat) : Nat := min n 255

/-- The token's value (R266). -/
def tokenValue (ch : Chain) (status : Nat) (cause : Byte) : Word :=
  BitVec.ofNat 64 (cause.toNat * 2 ^ 48 + status * 2 ^ 40 + sat255 ch.stale * 2 ^ 32 + ch.items % 2 ^ 32)

/-- A group of a context changed, the present one or an earlier one. -/
def modGroup (g : Nat) (f : Fork → Fork) (c : Ctx) : Ctx :=
  let at_ (x : Fork) : Fork := if x.group = g then f x else x
  { c with fork := c.fork.map at_, oldForks := c.oldForks.map at_ }

/-- A fork group's last chain has ended (R270). -/
def closeGroup (k : Nat) (g : Option Nat) (s : State) : State :=
  match g with
  | some g =>
    if s.queues.any fun p => p.2.chains.any fun ch => ch.owner == k && ch.fork == some g then s
    else s.modCtx k (modGroup g fun f => { f with ended := some (BitVec.ofNat 64 (dialOf s k)) })
  | none => s

/-- A generation check's hold on its MAP ends (R263). -/
def unhold (ch : Chain) (s : State) : State :=
  match ch.admitted with
  | some (b, key) => s.modBank b fun x => { x with held := x.held.erase key }
  | none => s

/-- The chain at the head of a queue ends: its tokens land (R266, R268). -/
def endChain (q : Nat) (status : Nat) (cause : Byte) (s : State) : State :=
  match (s.queue q).chains with
  | [] => s
  | ch :: rest =>
    let s := { s with pathless := s.pathless.filter fun p => p.1 ≠ agentKey (chainAgent q ch) }
    let s := (unhold ch s).modQueue q fun x => { x with chains := rest }
    let v := tokenValue ch status cause
    let regs := (if ch.tok = 0 then [] else [(ch.tok, v)]) ++ (if ch.tok2 = 0 then [] else [(ch.tok2, v)])
    closeGroup ch.owner ch.fork (applyLanding ch.owner { Landing.empty with regs := regs } s)

/-! ## Accesses of engines

A local access waits for its slot at its bank (R294); the entry's step is made again until it has been performed. -/

/-- A queue's engine. -/
def engineKey (q : Nat) : Nat := q / 16

/-- The bytes of an access that piece (off, n) of it covers. -/
def accPiece (acc : Access) (off n : Nat) : Access :=
  match acc with | .read _ => .read n | .write _ v => .write n (v >>> (8 * off)) | x => x

/-- An element of a REDCOPY applied as a relaxed RED (R256). -/
def redElement (ag : Agent) (op : RedOp) (n : Nat) (a : Word) (v : Nat) (s : State) : Perf × State :=
  pieceAct ag a (.rmw n (.red op (BitVec.ofNat 64 v))) (.queue ag.queue) s

/-- A piece of an engine's access performed: a plain access, or the REDs of a REDCOPY's elements. -/
def ioPiece (ag : Agent) (q : Nat) (io : EngineIo) (off : Nat) (a : Word) (n : Nat) (s : State) : Perf × State :=
  match io.red, accPiece io.acc off n with
  | some (op, m), .write _ v =>
    (upTo (n / m)).foldl (fun (r : Perf × State) i =>
      match r.1 with
      | .done .. => redElement ag op m (a + BitVec.ofNat 64 (m * i)) ((v >>> (8 * m * i)).toNat % 2 ^ (8 * m)) r.2
      | _ => r) (.done 0 0 0, s)
  | _, acc => pieceAct ag a acc (.queue q) s

/-- The pieces of an access that have not been performed: place, address, bytes. -/
def ioNeeds (s : State) (ch : Chain) (io : EngineIo) : List (Nat × Word × Nat) :=
  if io.out.isSome then [] else
  (slotSpans s (coreOf ch.owner) io.addr io.off io.acc.bytes).filter fun p => !(io.parts.any fun x => x.1 == p.1)

/-- What the performed pieces of an access read. -/
def ioValue (io : EngineIo) : Nat := (io.parts.map fun p => p.2 * 2 ^ (8 * p.1)).sum

/-- The head chain's access replaced. -/
def setIo (q : Nat) (io : Option EngineIo) (s : State) : State := modHead q (fun ch => { ch with io := io }) s

/-- A piece of an access of the head chain has been performed; its answer is back `lat` cycles later. -/
def ioDone (q : Nat) (io : EngineIo) (off lat : Nat) (p : Perf) (s : State) : State :=
  match p with
  | .done _ v _ => setIo q (some { io with parts := io.parts ++ [(off, v)], ready := max io.ready (s.cycle + lat) }) s
  | .closed => s
  | .blocked => s
  | .registered => modHead q (fun ch => { ch with io := none, wait := .waitv }) s
  | p => setIo q (some { io with out := some p, ready := s.cycle + lat }) s

/-- The pieces in global memory that come next are performed at once; a local one is left to its bank's slot. -/
def ioGlobal (q : Nat) (ch : Chain) : Nat → EngineIo → State → Perf × State
  | 0, io, s => (.blocked, setIo q (some io) s)
  | fuel + 1, io, s =>
    match ioNeeds s ch io with
    | [] =>
      if s.cycle < io.ready then (.blocked, setIo q (some io) s)
      else (io.out.getD (.done 0 (ioValue io) 0), setIo q none s)
    | (off, a, n) :: _ =>
      if isLocal a ∨ io.gen.isSome then (.blocked, setIo q (some io) s) else
      match ioPiece (chainAgent q ch) q io off a n s with
      | (.done _ v _, s) => ioGlobal q ch fuel { io with parts := io.parts ++ [(off, v)] } s
      | (.fault die num, s) => (.fault die num, setIo q (some io) s)
      | (.blocked, s) => (.blocked, setIo q (some io) s)
      | (p, s) => (p, setIo q none s)

/-- The head chain's engine makes an access, or goes on with it: the answer, or `blocked` until it has one. -/
def engineAccess (q : Nat) (x : EngineIo) (s : State) : Perf × State :=
  match (s.queue q).chains with
  | [] => (.blocked, s)
  | ch :: _ => ioGlobal q ch 8 (ch.io.getD x) s

/-- A read of n bytes. -/
def engineRead (q : Nat) (a : Word) (n : Nat) (s : State) : Perf × State := engineAccess q { addr := a, acc := .read n, since := s.cycle } s

/-- A write of n bytes. -/
def engineWrite (q : Nat) (a : Word) (n : Nat) (v : SlotData) (s : State) : Perf × State :=
  engineAccess q { addr := a, acc := .write n v, since := s.cycle } s

/-- The record of an entry (R265). -/
def recordValue (ch : Chain) (e : Ending) : SlotData :=
  BitVec.ofNat 2048 (ch.next.toNat + 2 ^ 64 *
    ((ch.entryItems + ch.entryStale) % 2 ^ 32 * 2 ^ 32 + e.sub.toNat * 2 ^ 16 + e.cause.toNat * 2 ^ 8 + e.status))

/-- The entry has ended and its record is written: the chain goes on, or ends (R265). -/
def leaveEntry (q : Nat) (ch : Chain) (e : Ending) (s : State) : State :=
  if e.last then endChain q (if e.status = 0 ∨ e.status = 3 then 0 else e.status) e.cause s
  else modHead q (fun _ => { ch with
    next := e.next, entry := none, active := none, item := 0, piece := 0, entryItems := 0, entryStale := 0
    wait := .ready, ending := none, admitted := none, io := none, begun := false, index := none, buf := none }) s

/-- The address of the completion record that an entry asks for. -/
def recordAddr (ch : Chain) : Option Word :=
  match ch.active with | some a => if (vget a.w 0).getLsbD 10 then some (vget a.w 1) else none | none => none

/-- The die that reports for an engine (R410): its own, or the lowest surviving one of the package. -/
def reporterOf (s : State) (die : Nat) : Nat :=
  if (s.die die).failed then 4 * (die / 4) + ((upTo 4).find? fun i => !(s.die (4 * (die / 4) + i)).failed).getD 0 else die

/-- An ended entry whose record lies on a failed die is listed in the latent record instead (R410). -/
def listEntry (q : Nat) (ch : Chain) (a : Word) (status : Nat) (s : State) : State :=
  if isLocal a ∨ !(s.die (vaDie a)).failed then s else
  let copy : Bool := queueEngine q = .copy
  let (die, inst) := if copy then (q / 64 / 64, q / 64 % 64) else (q / 64 / 256, q / 64 % 256)
  latent (reporterOf s die) 0x10 (if copy then 1 else 2) inst ch.next (BitVec.ofNat 64 status) s

/-- The completion record of the ended entry written (R265); a record that cannot be written ends the chain FAILED. -/
def writeRecord (q : Nat) (s : State) : State :=
  match (s.queue q).chains with
  | ch :: _ =>
    match ch.ending with
    | none => s
    | some e =>
      match recordAddr ch with
      | none => leaveEntry q ch e s
      | some a =>
        let bad (t : TrapInfo) (s : State) : State :=
          let e := if e.status = 0 ∨ e.status = 3 then { e with status := 1, cause := t.cause, sub := t.sub, last := true } else e
          leaveEntry q ch e (listEntry q ch a e.status s)
        match ch.wait with
        | .failed t => bad t s
        | _ =>
          match reachTrap q a with
          | some t => bad t s
          | none =>
            match engineWrite q a 16 (recordValue ch e) s with
            | (.done .., s) => leaveEntry q ch e s
            | (.fault die num, s) => modHead q (fun ch => { ch with wait := .suspended die num }) s
            | (.failed t, s) => bad t s
            | (_, s) => s
  | [] => s

/-- The present entry ends with a status; its record is written next. -/
def endEntryWith (q : Nat) (e : Ending) (s : State) : State :=
  writeRecord q (match (s.queue q).chains with
    | ch :: _ => modHead q (fun ch => { ch with ending := some e, wait := .ready, io := none, admitted := none }) (unhold ch s)
    | [] => s)

/-- The present entry is done; the chain goes on at an address. -/
def passTo (q : Nat) (a : Word) (s : State) : State :=
  match (s.queue q).chains with
  | ch :: _ => endEntryWith q ⟨if ch.entryStale = 0 then 0 else 3, 0, 0, a, false⟩ s
  | [] => s

/-- The present entry is done; the next entry follows. -/
def pass (q : Nat) (s : State) : State :=
  match (s.queue q).chains with | ch :: _ => passTo q (ch.next + 32) s | [] => s

/-- The present entry fails (R254). -/
def failEntry (q : Nat) (t : TrapInfo) (s : State) : State := endEntryWith q ⟨1, t.cause, t.sub, 0, true⟩ s

/-- ILLEGAL, with xsub 0 (R254). -/
def failIllegal (q : Nat) (s : State) : State := failEntry q (trapOf causeIllegal 0 0) s

/-- An item completed. -/
def itemDone (q : Nat) (s : State) : State :=
  modHead q (fun ch => { ch with
    item := ch.item + 1, piece := 0, items := ch.items + 1, entryItems := ch.entryItems + 1, admitted := none, wait := .ready
    begun := false, index := none, buf := none }) s

/-- A STALE item (R263). -/
def itemStale (q : Nat) (s : State) : State :=
  modHead q (fun ch => { ch with
    item := ch.item + 1, piece := 0, stale := ch.stale + 1, entryStale := ch.entryStale + 1, admitted := none
    begun := false, index := none, buf := none }) s

/-! ## Cancelling (R264, R274) -/

/-- Waiters on a fault record among contexts' requests and fetches, chains, operations and drains. -/
def waitersIn (die num : Nat) (ctxs : List (Nat × Ctx)) (cores : List (Nat × CoreSt)) (cells : List (Nat × Cell)) (queues : List (Nat × Queue)) : Nat :=
  let here (r : ReqState) : Bool := r == .suspended die num
  (ctxs.map fun p => (p.2.reqs.filter fun r => here r.state).length + (if p.2.fetchStop = some (die, num) then 1 else 0)).sum +
  (queues.map fun p => (p.2.chains.filter fun ch => ch.wait == .suspended die num).length).sum +
  (cells.map fun p => (p.2.ops.filter fun o => here o.state).length).sum + (cores.map fun p => (p.2.drains.filter fun d => here d.state).length).sum

/-- Waiters on a fault record: those of the machine and of saved images, host accesses, launches. -/
def waitersOn (s : State) (die num : Nat) : Nat :=
  let here (r : ReqState) : Bool := r == .suspended die num
  waitersIn die num s.ctxs s.cores s.cells s.queues +
  (s.launches.map fun p => match p.2.saved with | some x => waitersIn die num x.ctxs x.cores x.cells x.queues | none => 0).sum +
  (s.hostReqs.filter fun h => here h.state).length + (s.launches.filter fun p => here p.2.phaseWrite || here p.2.io).length

/-- A fault record is cancelled when its only waiter is withdrawn (R264). -/
def cancelRecord (die num : Nat) (s : State) : State :=
  if waitersOn s die num ≤ 1 then
    admitFaults die (s.modDie die fun d => { d with records := d.records.filter fun r => r.num ≠ num })
  else s

/-- The drain of a chain's DRAIN item, with the core whose quarter it drains, while a fault suspends it. -/
def stuckDrain (s : State) (q : Nat) (ch : Chain) : Option (Nat × Nat) :=
  if ch.wait = .drain then
    ((s.core (queueCore q)).drains.find? fun d => d.by_ == .queue q).bind fun d => match d.state with | .suspended die num => some (die, num) | _ => none
  else none

/-- A DRAIN item's drain withdrawn; its context holds the quarter no longer, unless for another drain (R198, R261). -/
def dropDrain (q : Nat) (s : State) : State :=
  let core := queueCore q
  let s := s.modCore core fun x => { x with drains := x.drains.filter fun d => d.by_ != .queue q }
  modQuarter core (fun x => { x with holder := if draining s core then x.holder else none }) s

/-- A chain's wait withdrawn: its registry entry, its gang arrival, its fault record, its suspended drain (R264). -/
def withdraw (q : Nat) (ch : Chain) (s : State) : State :=
  match ch.wait with
  | .waitv =>
    let keep (r : Registered) : Bool := r.who != .queue q
    let s := s.banks.foldl (fun (s : State) p =>
      if p.2.waiters.all keep then s else syncMask p.1 (s.modBank p.1 fun x => { x with waiters := x.waiters.filter keep })) s
    s.dies.foldl (fun (s : State) p => s.modDie p.1 fun d => { d with waiters := d.waiters.filter keep }) s
  | .gang => unarrive (q / 64) (fun a => a.by_ == .queue q) s
  | .suspended die num => cancelRecord die num s
  | .drain => match stuckDrain s q ch with | some (die, num) => dropDrain q (cancelRecord die num s) | none => s
  | _ => s

/-- A chain at an item boundary, where it may stop or be suspended (R274): not while an operation or a drain runs for it or
has just ended, nor inside an item, an access, or the writing of its record. -/
def atBoundary (ch : Chain) : Bool :=
  match ch.wait with
  | .operation => false | .drain => false
  | .suspended .. => ch.ending.isNone
  | .woken v => v != 0 && ch.ending.isNone
  | _ => ch.ending.isNone && !ch.begun && ch.io.isNone

/-- The chain stands where its deadline is looked at (R264): before the entry starts, at WAITT, WAITV, RENDEZ, the gang
barrier or the wait for the quarter before it, between items while one is left, on a suspended fault. -/
def atLimit (s : State) (q : Nat) (ch : Chain) : Bool :=
  (stuckDrain s q ch).isSome || (atBoundary ch && match ch.entry, ch.wait with
    | none, _ => true
    | _, .suspended .. => true
    | some w, _ => if [1, 2, 3, 4, 5].contains (opOf w) then ch.item < itemCount w else [8, 9, 0x12, 0x18, 0x19].contains (opOf w))

/-- The chain stops (R274) or times out (R264): status 2 or 5. -/
def stopChain (q status : Nat) (s : State) : State :=
  match (s.queue q).chains with
  | ch :: _ =>
    let s := withdraw q ch s
    let s := if ch.entry.isNone ∧ status = 5 then modHead q (fun ch => { ch with active := ch.attr }) s else s
    endEntryWith q ⟨status, 0, 0, 0, true⟩ (setIo q none s)
  | [] => s

/-! ## The driver of entries -/

/-- The read of the present entry (R252, R259). -/
def entryRead (s : State) (q : Nat) (ch : Chain) : Perf × State :=
  match chainTrap s q ch ch.next with
  | some t => (.failed t, s)
  | none => engineRead q ch.next 32 s

/-- The entry has been read: its attributes act, its counts start (R252, R262). -/
def beginEntry (q : Nat) (w : Vector Word 4) (s : State) : State :=
  modHead q (fun ch => { ch with
    entry := some w, active := if opOf w = 0x1F then none else ch.attr, attr := if opOf w = 0x1F then ch.attr else none
    item := 0, piece := 0, entryItems := 0, entryStale := 0, wait := .ready }) s

/-- An address named in the entry's ATTR is out of the engine's reach (R251, R254). -/
def attrTrap (q : Nat) (ch : Chain) : Option TrapInfo :=
  match ch.active with
  | none => none
  | some a =>
    (if (vget a.w 0).getLsbD 10 then reachTrap q (vget a.w 1) else none) <|>
    (if (vget a.w 0).getLsbD 8 then reachTrap q (vget a.w 3) else none)

/-- One step of the head chain's entry, when its kind is one that the event acts on. The kind END also takes what no
other kind can: a read that does not complete, a reserved op, a cancelled chain. -/
def stepEntry (mine : Nat → Bool) (q : Nat) (body : Chain → Vector Word 4 → State → State) (s : State) : State :=
  let run (w : Vector Word 4) (s : State) : State :=
    match (s.queue q).chains with
    | ch :: _ =>
      if !accepts (queueEngine q) (opOf w) then failIllegal q s
      else match attrTrap q ch with
        | some t => failEntry q t s
        | none => body ch w s
    | [] => s
  match (s.queue q).chains with
  | [] => s
  | ch :: _ =>
    if launchStops s ch.owner && atBoundary ch then s
    else if ch.cancel && atBoundary ch then (if mine 0 then stopChain q 2 s else s)
    else match ch.wait, ch.entry with
    | .suspended .., _ => s
    | _, some w =>
      if !mine (opOf w) then s
      else if ch.ending.isSome then writeRecord q s
      else if chainLate s ch && atLimit s q ch then s
      else match ch.wait with
        | .failed t => failEntry q t s
        | .broken m => failEntry q { cause := causeGangBroken, sub := m.zeroExtend 8, addr := 0 } s
        | _ => run w s
    | .failed t, none => if mine 0 then failEntry q t s else s
    | _, none =>
      if ch.ending.isSome then (if mine 0 then writeRecord q s else s)
      else if (chainLate s ch && ch.io.isNone) || !ownerDone s ch then s
      else match entryRead s q ch with
        | (.done _ v _, s') =>
          let w := wordsOf v
          if mine (opOf w) then run w (beginEntry q w s') else s
        | (.fault die num, s') => if mine 0 then modHead q (fun ch => { ch with wait := .suspended die num }) s' else s
        | (.failed t, s') => if mine 0 then failEntry q t s' else s
        | (.poisoned u _, s') => if mine 0 then failEntry q (eccAt u) s' else s
        | (_, s') => if mine 0 then s' else s

/-! ## Control and ordering entries (R260) -/

/-- Words 1 to 3 are zero from index i on. -/
def zerosFrom (w : Vector Word 4) (i : Nat) : Bool := (upTo 4).all fun j => j < i || vget w j == 0

/-- END (R260): also what has no kind. -/
def effEndEntry (q : Nat) (s : State) : State :=
  stepEntry (fun n => n == 0 || !opKnown n) q (fun _ w s =>
    if opOf w = 0 ∧ vget w 0 = 0 ∧ zerosFrom w 1 then endEntryWith q ⟨0, 0, 0, 0, true⟩ s else failIllegal q s) s

/-- WAITT (R260): the next entry starts no earlier than a dial time. -/
def effWaittEntry (q : Nat) (s : State) : State :=
  stepEntry (· == 8) q (fun ch w s =>
    if modOf w ≠ 0 ∨ cntOf w ≠ 0 ∨ argOf w ≠ 0 ∨ !zerosFrom w 2 then failIllegal q s
    else if (vget w 1).toNat ≤ dialOf s ch.owner then pass q s
    else modHead q (fun ch => { ch with wait := .waitt (vget w 1) }) s) s

/-- A small access of an entry performed: its answer goes on with `k`. -/
def entryAccess (q : Nat) (ch : Chain) (a : Word) (acc : Access) (k : Nat → State → State) (s : State) : State :=
  if a.toNat % 8 ≠ 0 then failEntry q (trapOf causeAlign 0 a) s
  else match chainTrap s q ch a with
    | some t => failEntry q t s
    | none =>
      match engineAccess q { addr := a, acc := acc, since := s.cycle } s with
      | (.done _ v _, s) => k v s
      | (.registered, s) => modHead q (fun ch => { ch with wait := .waitv }) s
      | (.fault die num, s) => modHead q (fun ch => { ch with wait := .suspended die num }) s
      | (.failed t, s) => failEntry q t s
      | (.poisoned u _, s) => failEntry q (eccAt u) s
      | (_, s) => s

/-- A scope code of R114 in MOD[3:0], with MOD[7:4] zero. -/
def scopeField (w : Vector Word 4) : Bool := modOf w ≤ 8

/-- WAITV's test or registration (R125, R260): a full registry makes it read again later. -/
def waitvStep (q : Nat) (ch : Chain) (w : Vector Word 4) (s : State) : State :=
  match ch.wait with
  | .waitv => s
  | .woken v =>
    -- woken because its bank changed (R153), it tests again
    if v = 0 then pass q s else modHead q (fun ch => { ch with wait := .retry }) s
  | _ => entryAccess q ch (vget w 1) (.waitw (vget w 2) 0)
      (fun v s => if v = 0 then pass q s else modHead q (fun ch => { ch with wait := .ready }) s) s

/-- WAITV (R260). -/
def effWaitvEntry (q : Nat) (s : State) : State :=
  stepEntry (· == 9) q (fun ch w s =>
    if !scopeField w ∨ cntOf w ≠ 0 ∨ argOf w ≠ 0 ∨ !zerosFrom w 3 then failIllegal q s else waitvStep q ch w s) s

/-- WAITV_REREAD (R260): the waiting entry reads its word again. -/
def effWaitvReread (q : Nat) (s : State) : State := effWaitvEntry q s

/-- SIGNAL (R260): FADDT as a release at the scope. -/
def effSignalEntry (q : Nat) (s : State) : State :=
  stepEntry (· == 0x0A) q (fun ch w s =>
    if !scopeField w ∨ cntOf w ≠ 0 ∨ argOf w ≠ 0 then failIllegal q s
    else entryAccess q ch (vget w 1) (.faddt (vget w 2) (vget w 3)) (fun _ s => pass q s) s) s

/-- LOOP (R260). -/
def effLoopEntry (q : Nat) (s : State) : State :=
  stepEntry (· == 0x0B) q (fun ch w s =>
    let target := vget w 1
    if 4 ≤ modOf w ∨ cntOf w ≠ 0 ∨ !zerosFrom w 2 ∨ target.toNat % 32 ≠ 0 ∨ target.toNat < ch.head.toNat ∨ ch.next.toNat < target.toNat then
      failIllegal q s
    else
      let i := modOf w
      let n := (vget ch.counters i).toNat
      let n := (if n = 0 then argOf w else n) - 1
      let s := modHead q (fun ch => { ch with counters := vset ch.counters i (BitVec.ofNat 32 n) }) s
      if n = 0 then pass q s else passTo q target s) s

/-- IFZ and IFNZ (R260). -/
def ifStep (q : Nat) (zero : Bool) (ch : Chain) (w : Vector Word 4) (s : State) : State :=
  if modOf w ≠ 0 ∨ argOf w ≠ 0 ∨ cntOf w = 0 ∨ !zerosFrom w 2 then failIllegal q s
  else entryAccess q ch (vget w 1) (.read 8) (fun v s =>
    if (v == 0) == zero then passTo q (ch.next + BitVec.ofNat 64 (32 * (1 + cntOf w))) s else pass q s) s

/-- IFZ (R260). -/
def effIfzEntry (q : Nat) (s : State) : State := stepEntry (· == 0x0C) q (ifStep q true) s
/-- IFNZ (R260). -/
def effIfnzEntry (q : Nat) (s : State) : State := stepEntry (· == 0x0D) q (ifStep q false) s

/-- The queues that a QFENCE names (R260). -/
def fenceQueues (core : Nat) (w : Vector Word 4) : List Nat :=
  (((upTo 8).filter fun i => (modOf w).testBit i).map fun i => queueKey .copy core i) ++
  (if (argOf w).testBit 0 then [queueKey .mat core 0] else []) ++ (if (argOf w).testBit 1 then [queueKey .vec core 0] else [])

/-- Two chains that one FORK started (R269). -/
def siblings (x y : Chain) : Bool := x.fork.isSome && x.fork == y.fork && x.owner == y.owner

/-- QFENCE (R260): a FORK's chains are accepted together. -/
def effQfenceEntry (q : Nat) (s : State) : State :=
  stepEntry (· == 0x10) q (fun ch w s =>
    if cntOf w ≠ 0 ∨ 4 ≤ argOf w ∨ !zerosFrom w 1 then failIllegal q s
    else if (fenceQueues (coreOf ch.owner) w).any fun r => (s.queue r).chains.any fun x => x.seq < ch.seq && !siblings x ch then s
    else pass q s) s

/-- TOKEN (R260, R268). -/
def effTokenEntry (q : Nat) (s : State) : State :=
  stepEntry (· == 0x11) q (fun ch w s =>
    if modOf w ≠ 0 ∨ cntOf w ≠ 0 ∨ argOf w ≠ 0 ∨ !zerosFrom w 1 then failIllegal q s
    else
      let s := if ch.tok2 = 0 then s else
        modHead q (fun ch => { ch with tok2 := 0 }) (applyLanding ch.owner { Landing.empty with regs := [(ch.tok2, tokenValue ch 0 0)] } s)
      pass q s) s

/-- RENDEZ (R270): a chain of no group passes at once. -/
def effRendezEntry (q : Nat) (s : State) : State :=
  stepEntry (· == 0x12) q (fun ch w s =>
    if modOf w ≠ 0 ∨ cntOf w ≠ 0 ∨ argOf w ≠ 0 ∨ !zerosFrom w 1 then failIllegal q s
    else match ch.fork, ch.wait with
      | none, _ => pass q s
      | some _, .woken _ => pass q (modHead q (fun ch => { ch with meetings := ch.meetings + 1 }) s)
      | some _, _ => modHead q (fun ch => { ch with wait := .meeting ch.meetings }) s) s

/-- The live chains of a context's fork groups. -/
def groupChains (s : State) (k g : Nat) : List (Nat × Chain) :=
  s.queues.flatMap fun p => (p.2.chains.filter fun ch => ch.owner == k && ch.fork == some g).map fun ch => (p.1, ch)

/-- The groups of a context that have live chains. -/
def liveGroups (s : State) (k : Nat) : List Nat :=
  (s.queues.flatMap fun p => p.2.chains.filterMap fun ch => if ch.owner = k then ch.fork else none).dedup

/-- A group whose chains all stand at one meeting (R270). -/
def meetingReady (s : State) (k g : Nat) : Option Nat :=
  match groupChains s k g with
  | [] => none
  | l@((_, ch) :: _) => match ch.wait with
    | .meeting j => if (l.all fun p => p.2.wait == ChainWait.meeting j) then some j else none
    | _ => none

/-- Registers of a group whose meetings have completed. -/
def metRegs (f : Fork) : List (SReg × Word) := f.waiting.filterMap fun p => (f.met p.2).map fun t => (p.1, t)

/-- A group without the registers that have landed. -/
def Fork.landed (f : Fork) : Fork := { f with waiting := f.waiting.filter fun p => (f.met p.2).isNone }

/-- The context's groups: their registers whose meetings are complete land, and it goes on. -/
def landMeetings (k : Nat) (s : State) : State :=
  let c := s.ctx k
  let regs := (c.oldForks ++ c.fork.toList).flatMap metRegs
  let s := s.modCtx k fun c => { c with
    fork := c.fork.map Fork.landed, oldForks := (c.oldForks.map Fork.landed).filter fun f => !f.waiting.isEmpty }
  settle k (if regs = [] then s else applyLanding k { Landing.empty with regs := regs } s)

/-- The chains of a group go on from their meeting. -/
def wakeGroup (k g : Nat) (x : Queue) : Queue :=
  let wake (ch : Chain) : Chain := if ch.owner = k ∧ ch.fork = some g then { ch with wait := .woken 0 } else ch
  { x with chains := x.chains.map wake }

/-- FORK_MEETING_COMPLETE (R270). -/
def effMeetingComplete (k : Nat) (s : State) : State :=
  let s := (liveGroups s k).foldl (fun (s : State) g =>
    match meetingReady s k g with
    | none => s
    | some _ =>
      let s : State := { s with queues := s.queues.map fun (p : Nat × Queue) => (p.1, wakeGroup k g p.2) }
      s.modCtx k (modGroup g fun f => { f with times := f.times ++ [BitVec.ofNat 64 (dialOf s k)] })) s
  landMeetings k s

/-! ## Items of data movement (R256 to R259, R263) -/

/-- A row to move: source (none for FILL), destination, bytes; `skip` moves nothing. -/
structure Item where
  src : Option Word
  dst : Word
  len : Nat
  skip : Bool := false
  deriving DecidableEq, Repr

/-- A signed 16-bit and a signed 32-bit field. -/
def s16 (w : Word) (lo : Nat) : Int := signed 16 (w.toNat / 2 ^ lo)
def s32 (w : Word) (lo : Nat) : Int := signed 32 (w.toNat / 2 ^ lo)

/-- The layout rules of R256 and R257 for a data-movement entry. -/
def moveLegal (q : Nat) (w : Vector Word 4) : Bool :=
  let m := modOf w
  match opOf w with
  | 1 => 1 ≤ argOf w && m % 4 ≤ 2 && (m % 4 == 2 || m / 4 == 0) && (m % 4 != 0 || vget w 3 == 0)
  | 2 => 1 ≤ argOf w && m < 64 && (if m % 2 = 1 then queueEngine q == .copy && cntOf w ≤ 15 else m == 0)
  | 3 => 1 ≤ argOf w && m == 0
  | 4 => 1 ≤ argOf w && m == 0 && wf (vget w 3) 63 32 == 0
  | 5 => 1 ≤ argOf w && m % 16 ≤ 10 && m < 32 && argOf w % (if m / 16 = 1 then 4 else 8) == 0 && (m % 16 < 8 || m / 16 == 1)
  | _ => false

/-- Item i of COPY, FILL and REDCOPY (R256). -/
def rowItem (w : Vector Word 4) (i : Nat) : Item :=
  let w3 := vget w 3
  let len := argOf w
  match opOf w with
  | 1 =>
    let (ds, dd) : Int × Int := match modOf w % 4 with
      | 0 => (0, 0)
      | 1 => (i * s32 w3 0, i * s32 w3 32)
      | _ =>
        let p := i / (cntOf w + 1)
        let r := i % (cntOf w + 1)
        (p * s16 w3 32 * 4096 + r * s16 w3 0 * 8, p * s16 w3 48 * 4096 + r * s16 w3 16 * 8)
    { src := some (vget w 1 + wordOf ds), dst := vget w 2 + wordOf dd, len := len }
  | 4 => { src := none, dst := vget w 2 + wordOf (i * s32 w3 0), len := len }
  | _ => { src := some (vget w 1 + wordOf (i * s32 w3 0)), dst := vget w 2 + wordOf (i * s32 w3 32), len := len }

/-- Where index i of a GATHER or SCATTER lies, from the list's base (R256, R257). -/
def indexOff (w : Vector Word 4) (i : Nat) : Nat :=
  if opOf w = 2 ∧ modOf w % 2 = 1 then 128 * i + 4 * (modOf w / 2 % 32) else 4 * i

/-- Item i of a GATHER or SCATTER with its index (R256). -/
def indexItem (w : Vector Word 4) (i idx : Nat) : Item :=
  let a := BitVec.ofNat 64 (idx * argOf w)
  let b := BitVec.ofNat 64 (i * argOf w)
  let skip : Bool := idx == 0xFFFFFFFF
  if opOf w = 2 then { src := some (vget w 2 + a), dst := vget w 3 + b, len := argOf w, skip := skip }
  else { src := some (vget w 2 + b), dst := vget w 3 + a, len := argOf w, skip := skip }

/-- A row's local bytes checked before any byte moves (R258); the engine's reach (R254). -/
def itemTrap (s : State) (q : Nat) (ch : Chain) (x : Item) : Option TrapInfo :=
  let core := coreOf ch.owner
  let side (a : Word) : Option TrapInfo := reachTrap q a <|> (spans s core a 0 x.len).findSome? fun p => pieceTrap s core p.2.1
  (x.src.bind side) <|> side x.dst

/-- The RED and the element bytes of a REDCOPY (R256). -/
def redOf (w : Vector Word 4) : RedOp × Nat :=
  (match modOf w % 16 with
    | 0 => .add | 1 => .and | 2 => .or | 3 => .xor | 4 => .maxs | 5 => .mins | 6 => .maxu | 7 => .minu | 8 => .fadd | 9 => .fmax
    | _ => .fmin, if modOf w / 16 % 2 = 1 then 4 else 8)

/-- The bytes that FILL writes at byte `off` of a row (R256). -/
def fillBytes (w : Vector Word 4) (off n : Nat) : Nat :=
  packLanes 8 ((upTo n).map fun i => (vget w 1).toNat / 2 ^ (8 * ((off + i) % 8)) % 256)

/-- Destination units of a failed copy item poisoned (R408): n bytes at a distance from its first. -/
def poisonRange (ag : Agent) (a : Word) (d n : Nat) (s : State) : State :=
  (spans s ag.core a d n).foldl (fun (s : State) p =>
    let x := p.2.1
    if isLocal x then
      let us := wholeUnits 8 (plainKey s false true (bankAt ag.core x) (wf x 12 0)) p.2.2
      { s with bankPoison := s.bankPoison ++ us.filter (fun u => !s.bankPoison.contains u) }
    else match translate s ag x kindWrite with
      | .ok (.hbm d pa, _) | .ok (.sealed d pa _, _) =>
        { s with hbmPoison := s.hbmPoison ++ (wholeUnits 64 (hkey d pa) p.2.2).filter (fun u => !s.hbmPoison.contains u) }
      | _ => s) s

/-- The generation check of an item (R263): admitted, STALE, retried or failed. -/
inductive Gen where
  | goOn | stale | retry
  | fail (t : TrapInfo)
  deriving DecidableEq, Repr

/-- The generation attribute of an entry: its map base, key and generation. -/
def genAttr (ch : Chain) : Option (Word × Word × Nat) :=
  match ch.active with
  | some a => if (vget a.w 0).getLsbD 8 then some (vget a.w 3, zext 32 (wf (vget a.w 0) 47 16), wf (vget a.w 0) 63 48) else none
  | none => none

/-- The MAP bank whose base an attribute names, or the failure (R263, R301). -/
def genBank (s : State) (ch : Chain) (a : Word) : Except TrapInfo Nat :=
  let core := coreOf ch.owner
  let b := bankAt core a
  if !isLocal a ∨ (holeTrap s a).isSome then .error (trapOf causeStruct 0x10 a)
  else if !sameTenant s core (b / 16) then .error (trapOf causeProt 3 a)
  else if wf a 12 0 ≠ 0 ∨ kindOf (descOf s b) ≠ 3 ∨ 2 ≤ aroleOf (descOf s b) ∨ oddOfPair s b then .error (trapOf causeStruct 0x10 a)
  else .ok b

/-- The FIND of a generation check (R263). -/
def genCheck (s : State) (b : Nat) (key : Word) (gen : Nat) : Gen :=
  if (s.bank b).closing.isSome then .retry
  else if (members s b).any fun m => (s.bank m).badDesc then .fail (eccAt 0)
  else if let some u := badIn s (portReads s b .find key.toNat) then .fail (eccAt u)
  else
    let r := (portOp b .find key.toNat s).1
    if r.status = 0 ∧ r.value % 2 ^ 16 = gen then .goOn else .stale

/-- A generation check performed at its MAP (R263): a passing one holds the key until the item's writes are performed. -/
def performGen (q : Nat) (io : EngineIo) (b : Nat) (key : Word) (gen lat : Nat) (s : State) : State :=
  match genCheck s b key gen with
  | .retry => s
  | .fail t => ioDone q io 0 lat (.failed t) s
  | .stale => ioDone q io 0 lat (.done 0 1 0) s
  | .goOn =>
    let key := zext (kwOf (descOf s b)) key.toNat
    let s := s.modBank b fun y => { y with held := y.held ++ [key] }
    modHead q (fun ch => { ch with admitted := some (b, key) }) (ioDone q io 0 lat (.done 0 0 0) s)

/-- The present item under its entry's generation check (R263): it goes on with k, or is STALE. -/
def underGen (q : Nat) (ch : Chain) (k : State → State) (s : State) : State :=
  match (if ch.admitted.isSome ∧ (ch.io.bind EngineIo.gen).isNone then none else genAttr ch) with
  | none => k s
  | some (base, key, gen) =>
    match genBank s ch base with
    | .error t => failEntry q t s
    | .ok b =>
      match engineAccess q { addr := bankBase b + 8, acc := .read 8, gen := some (b, key, gen), since := s.cycle } s with
      | (.done _ v _, s) => if v = 0 then s else itemStale q s
      | (.failed t, s) => failEntry q t s
      | (_, s) => s

/-- A local piece of the head chain's access performed at its bank, its answer back `lat` cycles later. -/
def performIo (q off lat : Nat) (s : State) : State :=
  match (s.queue q).chains with
  | [] => s
  | ch :: _ =>
    match ch.io with
    | none => s
    | some io =>
      match io.gen, (ioNeeds s ch io).find? fun p => p.1 = off with
      | some (b, key, gen), _ => performGen q io b key gen lat s
      | none, some (_, a, n) => let (p, s) := ioPiece (chainAgent q ch) q io off a n s; ioDone q io off lat p s
      | none, none => s

/-- The bytes of one move: a copy engine's access at a bank has up to 256 (R294), a vector sequencer's 128. -/
def moveSize (q : Nat) : Nat := if queueEngine q = .copy then 256 else 128

/-- The next bytes of an item: where its present move starts, and their count (R251, R257). -/
def nextCut (q : Nat) (ch : Chain) (x : Item) : Option (Nat × Nat) :=
  (cuts (x.src.getD x.dst) x.dst (moveSize q) 1 ch.piece (x.len - ch.piece)).head?

/-- What an engine's access that has not completed does to the entry (R259). -/
def moveFails (q : Nat) (w : Vector Word 4) (x : Item) (off : Nat) (p : Perf) (s : State) : State :=
  match p with
  | .fault die num => modHead q (fun ch => { ch with wait := .suspended die num }) s
  | .failed t => failEntry q t s
  | .poisoned u _ =>
    match (s.queue q).chains with
    | ch :: _ =>
      let s := if opOf w ≤ 3 then poisonRange (chainAgent q ch) x.dst off (x.len - off) s else s
      failEntry q (eccAt u) s
    | [] => s
  | _ => s

/-- One move of an item (R251, R256, R259): bytes read, then written; an engine moves up to 128 in a cycle. -/
def moveItem (q : Nat) (ch : Chain) (w : Vector Word 4) (x : Item) (s : State) : State :=
  let core := coreOf ch.owner
  match nextCut q ch x with
  | none => itemDone q (unhold ch s)
  | some (off, n) =>
    match x.src, ch.buf with
    | some a, none =>
      let a := arcadeAddr s core a off
      (match engineRead q a n s with
      | (.done _ v _, s) => modHead q (fun ch => { ch with buf := some v }) s
      | (p, s) => moveFails q w x off p s)
    | _, b =>
      if ch.io.isNone ∧ s.cycle < (s.engine (engineKey q)).moved then s else
      let a := arcadeAddr s core x.dst off
      let v := b.getD (fillBytes w off n)
      match engineAccess q { addr := a, acc := .write n (BitVec.ofNat 2048 v), red := if opOf w = 5 then some (redOf w) else none, since := s.cycle } s with
      | (.done .., s) =>
        (modHead q (fun ch => { ch with piece := off + n, buf := none }) s).modEngine (engineKey q) fun e => { e with moved := s.cycle + (n + 127) / 128 }
      | (p, s) => moveFails q w x off p s

/-- The head chain of a queue moves an item that no fault holds. -/
def movesNow (s : State) (q : Nat) : Bool :=
  match (s.queue q).chains with | ch :: _ => ch.begun && ch.wait == .ready && ch.ending.isNone | [] => false

/-- The head chain of a queue has an item ready to begin, or to go on after its fault (R251, R257). -/
def itemReady (s : State) (q : Nat) : Bool :=
  match (s.queue q).chains with
  | ch :: _ => ch.ending.isNone && (ch.wait == .retry || (ch.wait == .ready && !ch.begun && !ch.cancel)) && !(launchStops s ch.owner && atBoundary ch) &&
      (match ch.entry with | some w => [1, 2, 3, 4, 5].contains (opOf w) && ch.item < itemCount w | none => false)
  | [] => false

/-- A copy engine serves its queues in turn, item by item (R251): the queue goes on with its item, or is the next after the
one that began last, with no item of another queue under way, when the governor lets copy engines start (R414). -/
def engineTurn (s : State) (q : Nat) : Bool :=
  if queueEngine q ≠ .copy ∨ movesNow s q then true else
  let others := ((upTo 8).map fun i => q / 16 * 16 + i).filter (· != q)
  let last := (s.engine (engineKey q)).last
  let dist (x : Nat) : Nat := (x % 16 + 7 - last % 8) % 8
  mayStart s (queuePkg q) 3 (queueBay q) && !(others.any (movesNow s)) && others.all fun x => !itemReady s x || dist q < dist x

/-- The present item (R256 to R258, R263): checked, its generation found, then moved. -/
def itemStep (q : Nat) (ch : Chain) (w : Vector Word 4) (x : Item) (s : State) : State :=
  if x.skip then itemDone q s
  else if ch.begun then underGen q ch (moveItem q ch w x) (if ch.wait = .retry then modHead q (fun ch => { ch with wait := .ready }) s else s)
  else
    let align : Option TrapInfo :=
      let m := (redOf w).2
      if opOf w = 5 ∧ ((x.src.getD 0).toNat % m ≠ 0 ∨ x.dst.toNat % m ≠ 0) then some (trapOf causeAlign 0 x.dst) else none
    match align <|> itemTrap s q ch x with
    | some t => failEntry q t s
    | none => (modHead q (fun ch => { ch with begun := true, wait := .ready }) s).modEngine (engineKey q) fun e => { e with last := q % 16 }

/-- The addresses that a data-movement entry names (R254, R256). -/
def namedIn (w : Vector Word 4) : List Word :=
  match opOf w with
  | 4 => [vget w 2]
  | 2 | 3 => [vget w 1, vget w 2, vget w 3]
  | _ => [vget w 1, vget w 2]

/-- One step of a data-movement entry: the present item, or the entry's end. -/
def moveStep (q : Nat) (ch : Chain) (w : Vector Word 4) (s : State) : State :=
  if !moveLegal q w then failIllegal q s
  else if let some t := (namedIn w).findSome? (reachTrap q) then failEntry q t s
  else if itemCount w ≤ ch.item then pass q s
  else if !engineTurn s q then s
  else if opOf w = 2 ∨ opOf w = 3 then
    match ch.index with
    | some v => itemStep q ch w (indexItem w ch.item v) s
    | none =>
      let core := coreOf ch.owner
      let off := indexOff w ch.item
      let a := arcadeAddr s core (vget w 1) off
      match reachTrap q a <|> (spans s core (vget w 1) off 4).findSome? fun p => pieceTrap s core p.2.1 with
      | some t => failEntry q t s
      | none =>
        match engineAccess q { addr := vget w 1, off := off, acc := .read 4, since := s.cycle } s with
        | (.done _ v _, s) => modHead q (fun ch => { ch with index := some v }) s
        | (.fault die num, s) => modHead q (fun ch => { ch with wait := .suspended die num }) s
        | (.failed t, s) => failEntry q t s
        | (.poisoned u _, s) => failEntry q (eccAt u) s
        | (_, s) => s
  else itemStep q ch w (rowItem w ch.item) s

/-- COPY, GATHER, SCATTER, FILL and REDCOPY (R256). -/
def effCopyEntry (q : Nat) (s : State) : State := stepEntry (· == 1) q (moveStep q) s
def effGatherEntry (q : Nat) (s : State) : State := stepEntry (· == 2) q (moveStep q) s
def effScatterEntry (q : Nat) (s : State) : State := stepEntry (· == 3) q (moveStep q) s
def effFillEntry (q : Nat) (s : State) : State := stepEntry (· == 4) q (moveStep q) s
def effRedcopyEntry (q : Nat) (s : State) : State := stepEntry (· == 5) q (moveStep q) s

/-! ## Matrix entries (R261) -/

/-- A block of an entry read in its class. -/
def blockRead (q : Nat) (ch : Chain) (a : Word) (n : Nat) (k : Nat → State → State) (s : State) : State :=
  match (spans s (coreOf ch.owner) a 0 n).findSome? fun p => chainTrap s q ch p.2.1 with
  | some t => failEntry q t s
  | none =>
    match engineRead q a n s with
    | (.done _ v _, s) => k v s
    | (.fault die num, s) => modHead q (fun ch => { ch with wait := .suspended die num }) s
    | (.failed t, s) => failEntry q t s
    | (.poisoned u _, s) => failEntry q (eccAt u) s
    | (_, s) => s

/-- The failure that the quarter recorded fails the entry that uses it next, and is cleared (R208, R261). -/
def quarterFails (q : Nat) (k : State → State) (s : State) : State :=
  match quarterTrap s (queueCore q) with
  | some t => failEntry q t (modQuarter (queueCore q) (fun x => { x with fail := none }) s)
  | none => k s

/-- Word i of a block. -/
def blockWord (v i : Nat) : Word := BitVec.ofNat 64 (v / 2 ^ (64 * i))

/-- The arrival that an operation block makes (R261). -/
def blockArrival (s : State) (q : Nat) (ch : Chain) (v : Nat) : Arrival :=
  let f := blockWord v 4
  {
    core := queueCore q, seq := s.seq, by_ := .queue q, user := ch.user, gmask := (s.core (queueCore q)).gmask, mma := true
    k := blockWord v 9, da := (blockWord v 0, blockWord v 1), db := (blockWord v 2, blockWord v 3)
    fmt := #v[zext 4 (wf f 3 0), zext 4 (wf f 7 4), zext 1 (wf f 8 8), BitVec.ofNat 64 (wf f 15 12 * 16 + wf f 18 16)]
    scl := #v[blockWord v 5, blockWord v 6, blockWord v 7, blockWord v 8] }

/-- MMA (R261): a block that is not 8-aligned fails with cause ALIGN (log entry 96). -/
def effMmaEntry (q : Nat) (s : State) : State :=
  stepEntry (· == 0x18) q (fun ch w s =>
    match ch.wait with
    | .gang => s
    | .operation => s
    | .woken _ => pass q (itemDone q s)
    | _ =>
      let a := vget w 1
      let core := queueCore q
      let x := s.core core
      if modOf w ≠ 0 ∨ cntOf w ≠ 0 ∨ argOf w ≠ 0 ∨ !zerosFrom w 2 then failIllegal q s
      else if a.toNat % 8 ≠ 0 then failEntry q (trapOf causeAlign 0 a) s
      else if gangBusy s ch.owner then s
      else quarterFails q (blockRead q ch a 80 (fun v s =>
        let f := blockWord v 4
        if wf f 11 9 ≠ 0 ∨ wf f 63 19 ≠ 0 then failIllegal q s
        else if x.gmask.getLsbD (core % 4) = false then failEntry q (trapOf causeOperand 7 0) s
        else if x.gmask &&& x.broken ≠ 0 then
          failEntry q { cause := causeGangBroken, sub := (x.gmask &&& x.broken).zeroExtend 8, addr := 0 } s
        else
          let s := modHead q (fun ch => { ch with wait := .gang }) s
          arriveGang (blockArrival s q ch v) { s with seq := s.seq + 1 })) s) s

/-- DRAIN (R261). -/
def effDrainEntry (q : Nat) (s : State) : State :=
  stepEntry (· == 0x19) q (fun ch w s =>
    match ch.wait with
    | .drain => s
    | .woken _ => pass q (itemDone q (unhold ch s))
    | _ =>
      let core := queueCore q
      if ch.item ≠ 0 then pass q s
      else if modOf w ≠ 0 ∨ cntOf w ≠ 0 ∨ argOf w ≠ 0 ∨ !zerosFrom w 2 then failIllegal q s
      else if drainBusy s ch.owner then s
      else quarterFails q (underGen q ch (blockRead q ch (vget w 1) 16 (fun v s =>
        if !drainPairOk s ch.owner (quarterOf s core).m (blockWord v 0) (blockWord v 1) then failEntry q (trapOf causeOperand 12 0) s
        else queueDrain core ch.owner (.queue q) ch.user (blockWord v 0) (blockWord v 1)
          (modHead q (fun ch => { ch with wait := .drain }) s)))) s) s

/-! ## Attributes and deadlines (R262, R264) -/

/-- ATTR (R262): it replaces an attribute that is still pending. -/
def effAttrEntry (q : Nat) (s : State) : State :=
  stepEntry (· == 0x1F) q (fun _ w s =>
    let w0 := vget w 0
    if wf w0 15 11 ≠ 0 ∨ (w0.getLsbD 10 ∧ (vget w 1).toNat % 16 ≠ 0) then
      failIllegal q (modHead q (fun ch => { ch with attr := none }) s)
    else pass q (modHead q (fun ch => { ch with attr := some ⟨w⟩ }) s)) s

/-- ENTRY_DEADLINE (R264). -/
def effEntryDeadline (q : Nat) (s : State) : State :=
  match (s.queue q).chains with
  | ch :: _ => if chainLate s ch && atLimit s q ch && !ch.cancel then stopChain q 5 s else s
  | [] => s

/-- WAITT_EXPIRE at a chain's WAITT (R374). -/
def effChainExpire (q : Nat) (s : State) : State :=
  match (s.queue q).chains with
  | ch :: _ => match ch.wait with
    | .waitt t => if t.toNat ≤ dialOf s ch.owner ∧ !ch.cancel ∧ !chainLate s ch then pass q s else s
    | _ => s
  | [] => s

end Sys2Proof.Machine
end

