-- ==== Sys2Proof/Machine/System.lean ====
section
/-! DEFINITION. Control transfers and hardware loops (R101 to R109), the tray's instructions (R250), the SYS
instructions (R285 to R289), dial time (R292), SPILL and FILL (R133). -/

namespace Sys2Proof.Machine

/-! ## Control transfers -/

/-- An address with bits [2:0] cleared (R26, R103). -/
def aligned (a : Word) : Word := a &&& ~~~ 7

/-- A taken transfer of the running context (R61). -/
def transfer (t : Word) (s : State) : State := s.modCtx s.cur fun c => { c with npc := aligned t, taken := true }

/-- The PC of the running slot's bundle. -/
def pcOf (s : State) : Word := (me s).pc

/-- PC + 8 x off (R68). -/
def branchTarget (s : State) (off : Int) : Word := pcOf s + wordOf (8 * off)

/-- A transfer to PC + 8 x off when it is taken (R101, R102). -/
def effBranch (off : Int) (cond : Bool) (s : State) : State := if cond then transfer (branchTarget s off) s else s

/-- CALL (R103). -/
def effCall (off : Int) (s : State) : State := wrS 30 (pcOf s + 8) (transfer (branchTarget s off) s)

/-- JR (R103): the target is read before the link is written. -/
def effJr (d a : SReg) (s : State) : State := wrS d (pcOf s + 8) (transfer (rdS s a) s)

/-- RET (R103). -/
def effRet (s : State) : State := transfer (rdS s 30) s

/-! ## Hardware loops -/

/-- The active depth D (R105). -/
def loopDepth (c : Ctx) : Nat := ((upTo 4).find? fun n => vget c.lct n == 0).getD 4

/-- The context's present bundle is the end bundle of its active level (R106, R107). -/
def atLoopEnd (c : Ctx) : Bool := loopDepth c != 0 && aligned c.pc == aligned (vget c.lea (loopDepth c - 1))

/-- The LOOP traps (R106, R108, R109). -/
def loopTrap (c : Ctx) (i : Instr) : Option TrapInfo :=
  let t (n : Nat) : Option TrapInfo := some (trapOf causeLoop n 0)
  let opens (level : BitVec 2) : Option TrapInfo :=
    if loopDepth c = 4 then t 1 else if level.toNat ≠ loopDepth c then t 2 else if atLoopEnd c then t 4 else none
  match i with
  | .loop level _ _ => opens level
  | .loopi level _ _ => opens level
  | .lbrk => if loopDepth c = 0 then t 3 else none
  | _ => none

/-- LOOP and LOOPI (R106): a count of 0 passes over the body. -/
def effLoop (level : BitVec 2) (stop : BitVec 12) (n : Word) (s : State) : State :=
  let last := branchTarget s stop.toNat
  if n = 0 then transfer (last + 8) s
  else
    let first := pcOf s + 8
    s.modCtx s.cur fun c => { c with
      lsa := vset c.lsa level.toNat first, lea := vset c.lea level.toNat last, lct := vset c.lct level.toNat n }

/-- LBRK (R108). -/
def effLbrk (s : State) : State :=
  let c := me s
  let l := loopDepth c - 1
  transfer (aligned (vget c.lea l) + 8) (s.modCtx s.cur fun x => { x with lct := vset x.lct l 0 })

/-- An instruction writes lct of a level. -/
def writesCount (a : Instr) (l : Nat) : Bool := match csrForm a with | some (op, n, _, x) => csrWrites op x && n == 0x028 + l | none => false

/-- The end of a pass (R107) of a bundle with slot A `a`, as the loop registers stood before it (R60): the count falls,
and the next PC is the start or the next bundle. A count that slot A writes stands as written (log entry 76). -/
def loopPass (k : Nat) (pre : Ctx) (a : Instr) (s : State) : State :=
  if !atLoopEnd pre || (s.ctx k).taken then s else
  let l := loopDepth pre - 1
  let n := vget pre.lct l - 1
  let start := aligned (vget pre.lsa l)
  s.modCtx k fun x => { x with lct := if writesCount a l then x.lct else vset x.lct l n, npc := if n = 0 then x.npc else start }

/-! ## The tray's instructions (R250) -/

/-- The faulted closure (R245). -/
def faultedOf (c : Ctx) : Option Closure := c.tray.find? (·.faulted)

/-- TRAYQ (R250). -/
def effTrayq (d : SReg) (s : State) : State := wrS d (BitVec.ofNat 64 (me s).tray.length) s

/-- TRAYQ.DEP (R250). -/
def effTrayqDep (d a : SReg) (s : State) : State :=
  wrS d (BitVec.ofNat 64 ((me s).tray.filter fun cl => a != 0 && cl.named.contains a).length) s

/-- TRAYQ.STOP (R250). -/
def effTrayqStop (d : SReg) (s : State) : State :=
  let c := me s
  wrS d (if c.h ∧ c.xcause = causeDeferred then c.stop.getD 0 else 0) s

/-- TRAYQ.LAND's check (R250): a faulted closure with no destination or with one scalar register. -/
def landTrap (c : Ctx) : Option TrapInfo :=
  let bad := some (trapOf causeOperand 20 0)
  match faultedOf c with
  | none => bad
  | some cl => if cl.info.rdst = [] ∧ cl.info.dst.length ≤ 1 then none else bad

/-- TRAYQ.LAND (R250): the value lands in the closure's register and the closure is removed. -/
def effTrayqLand (a : SReg) (s : State) : State :=
  let k := s.cur
  match faultedOf (me s) with
  | none => s
  | some cl =>
    let s := s.modCtx k fun c => fixMate cl { c with tray := c.tray.filter fun x => !x.faulted }
    match cl.info.dst with
    | [d] => wrS d (rdS s a) s
    | _ => s

/-! ## SYS (R285 to R289) -/

/-- TRAP and BREAK (R286): taken once the bundle is done. -/
def effTrap (cause : Byte) (a : SReg) (code : BitVec 5) (s : State) : State :=
  let t : TrapInfo := { cause := cause, sub := code.zeroExtend 8, addr := rdS s a }
  s.modCtx s.cur fun c => { c with after := some t }

/-- ERET (R287). -/
def effEret (s : State) : State := returnTrap s.cur s

/-- ERET.U (R287): with no user vector the context is killed by the trap that it handles, once its bundle is done. -/
def effEretU (s : State) : State :=
  s.modCtx s.cur fun c =>
    if c.utvec = 0 then { c with after := some { cause := c.xcause, sub := c.xsub, addr := 0 } }
    else { c with mode := c.mode &&& 0x3F, npc := aligned c.utvec, taken := true }

/-- ERET.TO (R287). -/
def effEretTo (a : SReg) (s : State) : State :=
  let t := rdS s a
  transfer t (s.modCtx s.cur fun c => { c with
    h := false, mode := if c.basePriv then c.mode ||| 0x40 else c.mode &&& 0x3F, stop := none
    status := if c.status = .stopped then .running else c.status })

/-- The OPERAND traps of SYS (R287, R289). -/
def sysTrap (s : State) (c : Ctx) : Instr → Option TrapInfo
  | .eret => if c.h then none else some (trapOf causeOperand 24 0)
  | .eretU => if c.h then none else some (trapOf causeOperand 24 0)
  | .eretTo _ =>
    if !c.h then some (trapOf causeOperand 24 0) else if (faultedOf c).isSome then some (trapOf causeOperand 25 0) else none
  | .replay a _ => if wf (c.rd a) 9 0 < 4 * s.domain then none else some (trapOf causeOperand 26 0)
  | .replayFail a _ => if wf (c.rd a) 9 0 < 4 * s.domain then none else some (trapOf causeOperand 26 0)
  | _ => none

/-- A register or row of the context is pending (R288). -/
def anyPending (s : State) (k : Nat) (c : Ctx) : Bool :=
  c.pend != 0 || c.tray.any (fun cl => !(cl.info.dst.all (· == 0)) || !cl.info.rdst.isEmpty) ||
  (upTo c.tcount.toNat).any fun t => (upTo 16).any fun r => rowPending s (coreOf k) (rowKey (c.tbase.toNat + t) r)

/-- WFI (R288). -/
def effWfi (a : SReg) (s : State) : State :=
  let k := s.cur
  let t := rdS s a
  let c := me s
  if a = 0 then (if anyPending s k c then park k (.wfi 0) s else s)
  else if t.toNat ≤ dialOf s k then s
  else park k (.wfi t) s

/-- REPLAY (R289). -/
def effReplay (a b : SReg) (s : State) : State := replayUpTo (wf (rdS s a) 9 0) ((rdS s b).truncate 32) s

/-- REPLAY.FAIL (R289). -/
def effReplayFail (a b : SReg) (s : State) : State := replayFailOne (wf (rdS s a) 9 0) ((rdS s b).truncate 32) s

/-! ## Dial time (R292) -/

/-- RDTIME (R292): the dial as sampled at issue lands within 4 cycles. -/
def effRdtime (d : SReg) (s : State) : State :=
  let k := s.cur
  let v := BitVec.ofNat 64 (dialOf s k)
  offCore k (queueLanding k { Landing.empty with due := s.cycle + 1, regs := [(d, v)] } (setPending k [d] s))

/-- WAITT (R292). -/
def effWaitt (a : SReg) (s : State) : State :=
  let t := rdS s a
  if t.toNat ≤ dialOf s s.cur then s else park s.cur (.waitt t) s

/-! ## Memory instructions -/

/-- A memory instruction issues its accesses (R110 to R132). -/
def effMem (i : Instr) (s : State) : State := issueOps (memOps s s.cur (me s) i) s

/-- WAITW issues its access and parks until its status lands (R125). -/
def effWaitw (i : Instr) (d : SReg) (s : State) : State := park s.cur (.waitw d) (effMem i s)

/-- A FENCE's ordering stands once it issues: it waits for every older access before then (R129). -/
def effFence (_ : FenceKind) (_ : Scope) (s : State) : State := s

/-- The stack pointer after SPILL or FILL of n registers (R133). -/
def effSpill (i : Instr) (n : Nat) (up : Bool) (s : State) : State :=
  let c := me s
  let ops := memOps s s.cur c i
  -- a FILL that reads any overflow slot leaves all its destinations pending
  let far : Bool := ops.any fun op => !isLocal op.ea
  let ops := ops.map fun op => if far then { op with plain := false } else op
  let sp := if up then c.rd 31 + BitVec.ofNat 64 (8 * n) else c.rd 31 - BitVec.ofNat 64 (8 * n)
  wrS 31 sp (issueOps ops s)

/-- SPILL and FILL's own traps (R133): ALIGN of s31, then SPILLOVF. -/
def spillTrap (c : Ctx) (i : Instr) : Option TrapInfo :=
  let go (l : List Word) : Option TrapInfo :=
    if (c.rd 31).toNat % 8 ≠ 0 then some (trapOf causeAlign 0 (c.rd 31))
    else l.findSome? fun x => match slotOf c x with | .error n => some (trapOf causeSpillOvf n x) | .ok _ => none
  match i with
  | .spill _ n => go ((upTo (n.toNat + 1)).map (spillAddr c (n.toNat + 1)))
  | .fill _ n => go ((upTo (n.toNat + 1)).map (fillAddr c))
  | _ => none

end Sys2Proof.Machine
end

