-- ==== Sys2Proof/Machine/Issue.lean ====
section
/-! DEFINITION. The issue of a bundle or a closure: fetch (R61), the conditions of R28, R64, R75 to R77 and R234 to
R244 in their order, running the slots (R60), and what follows the bundle (R61, R63, R107). -/

namespace Sys2Proof.Machine

/-! ## Checks of one slot -/

/-- An instruction that traps ILLEGAL at decode in the handler context (R213). -/
def notInHandler : Instr → Bool
  | .gang | .mma .. | .mzero .. | .mdrain .. => true
  | .chain .. | .chainTry .. | .fork .. | .forkTry .. | .rendez .. => true
  | .barArrive .. | .barWait .. | .barSync .. | .barDepart .. | .waitw .. | .nred .. | .nredMergek .. => true
  | .wsplit .. | .wreturn .. | .wsplitAdd .. | .detach | .attach .. | .follow .. => true
  | _ => false

/-- RLEAVE (R214). -/
def isRleave : Instr → Bool | .rleave .. => true | _ => false

/-- An instruction of the other kind of context (R75). -/
def wrongContext (k : Nat) (i : Instr) : Bool := if ctxId k = 4 then notInHandler i else isRleave i

/-- A PMOV whose operands are known fails an OPERAND or TYPE row of R221's table, which come before its PRIV and ILLEGAL. -/
def portFails (s : State) (k : Nat) (c : Ctx) (i : Instr) : Bool :=
  !waitsOn s k c i && (portTable s k c i <|> typeCheck s k c i).isSome

/-- ILLEGAL at decode, beyond the pattern itself (R19, R75): also a PMOV of the handler context (R221). -/
def illegalTrap (s : State) (k : Nat) (c : Ctx) (i : Instr) : Option TrapInfo :=
  if wrongContext k i || (isPmov i && ctxId k == 4 && !portFails s k c i) then some (trapOf causeIllegal 0 0)
  else match csrForm i with
    | some (op, n, d, a) => (csrTrap c op n d a).filter fun t => t.cause == causeIllegal
    | none => none

/-- PRIV (R221, R276). -/
def privTrap (s : State) (k : Nat) (c : Ctx) (i : Instr) : Option TrapInfo :=
  let user := !(c.mode.getLsbD 6)
  let p : Option TrapInfo := if user then some (trapOf causePriv 0 0) else none
  match i with
  | .eretU => p
  | .replay .. => p
  | .replayFail .. => p
  | .pmovCalwWrite .. => if portFails s k c i then none else p
  | _ => match csrForm i with
    | some (op, n, d, a) => (csrTrap c op n d a).filter fun t => t.cause == causePriv
    | none => none

/-- Scalar pairs that an instruction names by their even register (R13, R17). -/
def pairsOf : Instr → List SReg
  | .ldp d _ _ => [d]
  | .ldpAcq d _ _ _ => [d]
  | .stp d _ _ => [d]
  | .stpRel d _ _ _ => [d]
  | .cas d _ _ _ => [d]
  | .faddt d _ _ _ => [d]
  | .waitw d _ _ => [d]
  | .nred d _ _ _ op => if op = .maxkey then [d] else []
  | .mma _ _ a b => [a, b]
  | .mdrain _ _ a => [a]
  | _ => []

/-- Tiles that an instruction names (R14). -/
def tilesOf (c : Ctx) (i : Instr) : List TReg :=
  match i with
  | .tldx t _ _ => [t]
  | _ => ((infoIn c i).rsrc ++ (infoIn c i).rdst).map (·.1)

/-- A tile or pair out of range or misaligned (R13, R14, R17, R190). -/
def rangeTrap (s : State) (k : Nat) (c : Ctx) (i : Instr) : Option TrapInfo :=
  let odd : Bool := (pairsOf i).any fun r => r.toNat % 2 == 1
  let out : Bool := (tilesOf c i).any fun t => (tileOf s k c t.toNat).isNone
  let group : Bool := match i with | .topk _ _ a _ _ g _ => a.toNat % g.tiles != 0 | _ => false
  if odd || out || group then some (trapOf causeOperand 0 0) else none

/-- OPERAND traps that need no register's value. -/
def staticTrap (s : State) (k : Nat) (c : Ctx) (i : Instr) : Option TrapInfo :=
  rangeTrap s k c i <|>
  match i with
  | .lds d _ _ kk _ => if kk = d ∨ kk = 0 then operand 0 else none
  | .sts d _ _ kk _ => if kk = d ∨ kk = 0 then operand 0 else none
  | .xchS d _ _ kk _ => if kk = d ∨ kk = 0 then operand 0 else none
  | .mdrain _ d _ => if d = 0 then operand 13 else none
  | .chain d _ b _ _ => if b = d then operand 22 else none
  | .chainTry d _ b _ _ => if b = d then operand 22 else none
  | .rendez _ => if (s.ctx k).fork.isNone then operand 21 else none
  | .attach _ => if c.lastLeader.isNone then operand 28 else none
  | .gang => gangTrap s k
  | _ => none

/-- OPERAND traps on register values (R279). -/
def valueTrap (s : State) (k : Nat) (c : Ctx) (i : Instr) : Option TrapInfo :=
  match i with
  | .barArrive _ _ dom _ _ => barOperand s k c dom none
  | .barWait a dom => barOperand s k c dom (some a)
  | .barSync _ _ dom _ _ => barOperand s k c dom none
  | .barDepart dom => barOperand s k c dom none
  | .follow a dom => barOperand s k c dom none <|> followTrap s k (c.rd a)
  | .attach dom => barOperand s k c dom none <|> attachTrap s k
  | .trayqLand _ => landTrap c
  | .wsplit _ => weightTrap s k c i
  | .wsplitAdd _ => weightTrap s k c i
  | .mdrain _ _ a => drainTrap s k c a
  | _ => sysTrap s c i <|> portTrap s k c i

/-- Both slots name one scalar destination, s0 among them (R60). -/
def sharedDest (c : Ctx) (a b : Instr) : Bool := (infoIn c a).dst.any (infoIn c b).dst.contains

/-- STALL (R64): a register whose fixed-latency result is still on its way. -/
def stallTrap (now : Nat) (c : Ctx) (i : Instr) : Option TrapInfo :=
  if c.mode.getLsbD 2 then
    let n := infoIn c i
    (n.src ++ n.dst).findSome? fun r =>
      if r != 0 && c.fixed.any (fun f => f.reg == r && now < f.due && !f.pends) then some (trapOf causeStall r.toNat 0) else none
  else none

/-- The condition registers that an instruction reads, its guard among them. -/
def condsOf (i : Instr) : List CReg :=
  (match guardOf i with | some g => [g.c] | none => []) ++
  match i with | .bc c _ _ => [c] | .sel _ _ _ _ _ c => [c] | .cond _ _ x y _ => [x, y] | _ => []

/-- The control registers that an instruction reads: by number, and those that it works with. -/
def ctlsOf (i : Instr) : List Nat :=
  match csrForm i with
  | some (op, n, d, a) => if csrReads op d || (op != .w && csrWrites op a) then [n] else []
  | none => match i with
    | .spill .. => [0x10A, 0x10B, 0x10C]
    | .fill .. => [0x10A, 0x10B, 0x10C]
    | .wsplit .. => [0x107]
    | .wreturn .. => [0x107]
    | .wsplitAdd .. => [0x107]
    | .mma .. => [0x008, 0x009, 0x00A, 0x00B, 0x00C, 0x00D, 0x00E, 0x00F]
    | .gang => [0x003]
    | .eret => [0x120, 0x123]
    | _ => []

/-- ECC at the reader of a poisoned condition or control register (R408). -/
def ctlPoison (c : Ctx) (i : Instr) : Option TrapInfo :=
  if (c.badC = 0 ∧ c.badCtl = []) ∨ !((condsOf i).any (fun r => r != 0 && c.badC.getLsbD r.toNat) || (ctlsOf i).any c.badCtl.contains) then none
  else some (eccAt 0)

/-- ECC at the reader of a poisoned register or row (R30, R408); a closure reads rows only when it runs. -/
def poisonTrap (s : State) (k : Nat) (c : Ctx) (deferred : Bool) (i : Instr) : Option TrapInfo :=
  let n := infoIn c i
  let t (p : Poison) : TrapInfo := { cause := causeEcc, sub := p.cause, addr := p.addr }
  let regs := n.src.findSome? fun r => if c.waits r then none else (find? c.poison r.toNat).map t
  let rows := (keysOf s k c n.rsrc).findSome? fun key => ((s.core (coreOf k)).row key).poisoned.map t
  ctlPoison c i <|> if deferred then regs else regs <|> rows

/-- TLDX's pitch (R132). -/
def pitchTrap (c : Ctx) (i : Instr) : Option TrapInfo :=
  match i with
  | .tldx _ a b => if (c.rd b).toNat % 4 ≠ 0 then some (trapOf causeAlign 0 (c.rd a)) else none
  | _ => none

/-- The write of a GATHER record checked (R138). -/
def gatherTrap (s : State) (k : Nat) (c : Ctx) (i : Instr) : Option TrapInfo :=
  match i with
  | .barArrive _ b _ true _ => accessTrap s (coreOf k) [gatherOp (c.rd b)]
  | .barSync _ b _ true _ => accessTrap s (coreOf k) [gatherOp (c.rd b)]
  | _ => none

/-- The failure that a quarter's next user meets (R208). -/
def failedQuarter (s : State) (k : Nat) (i : Instr) : Option TrapInfo :=
  match i with
  | .gang | .mzero _ | .mdrain .. => quarterTrap s (coreOf k)
  | _ => none

/-- CHAIN's and FORK's head addresses (R268, R269). -/
def headsTrap (s : State) (c : Ctx) (i : Instr) : Option TrapInfo :=
  let heads (a : SReg) (mask : BitVec 3) : Option TrapInfo :=
    firstTrap (((upTo 3).filter fun j => mask.getLsbD j).map fun j => headTrap s (c.rd (regAt a j)))
  match i with
  | .chain _ a _ _ _ => headTrap s (c.rd a)
  | .chainTry _ a _ _ _ => headTrap s (c.rd a)
  | .fork _ a _ mask => heads a mask
  | .forkTry _ a _ mask => heads a mask
  | _ => none

/-- The traps of BGUISE and ARCADE. -/
def bankTrap (s : State) (k : Nat) (c : Ctx) (i : Instr) : Option TrapInfo :=
  match i with
  | .bguiseClear _ a bank => guiseTrap s k c a bank .clear
  | .bguiseKeep _ a bank => guiseTrap s k c a bank .keep
  | .bguiseConvert _ a bank => guiseTrap s k c a bank .convert
  | .arcade _ a b => arcadeTrap s k c a (some b)
  | .arcadeDis _ a => arcadeTrap s k c a none
  | _ => none

/-- A release access, FENCE, BAR, WRETURN, REPLAY or team arrival: it waits for every older acknowledgement and reports
an unreported failure (R280, R289, R290). FADDT, a release with a destination, does neither: R416's run issues one behind a
store that no acknowledgement answers (log entry 101). -/
def isReporting : Instr → Bool
  | .fence .. | .stRel .. | .stpRel .. | .scld .. | .scst .. | .scx .. => true
  | .aadd _ _ _ _ kk _ | .aand _ _ _ _ kk _ | .aor _ _ _ _ kk _ | .axor _ _ _ _ kk _ => kk == .rel || kk == .acqrel
  | .amaxs _ _ _ _ kk _ | .amins _ _ _ _ kk _ | .amaxu _ _ _ _ kk _ | .aminu _ _ _ _ kk _ => kk == .rel || kk == .acqrel
  | .afadd _ _ _ kk _ | .afmax _ _ _ kk _ | .afmin _ _ _ kk _ => kk == .rel || kk == .acqrel
  | .red _ _ _ _ _ kk _ => kk == .rel || kk == .acqrel
  | .barArrive .. | .barWait .. | .barSync .. | .barDepart .. | .wreturn .. | .replay .. | .replayFail .. => true
  | .follow .. | .attach .. => true
  | _ => false

/-- Accesses of the context that are not yet acknowledged (R280). -/
def unflushed (c : Ctx) : Bool := !c.reqs.isEmpty || !c.acks.isEmpty

/-- An unreported failure reported (R280). -/
def reportTrap (c : Ctx) (i : Instr) : Option TrapInfo := if isReporting i then c.failure else none

/-- An instruction that makes memory accesses, of its own or in its own name. -/
def touchesMemory (c : Ctx) (i : Instr) : Bool :=
  (infoIn c i).mem || (match i with
    | .waitw .. | .arcade .. | .arcadeDis .. | .bguiseClear .. | .bguiseKeep .. | .bguiseConvert .. | .bdesc .. => true
    | _ => false)

/-- Every other trap of R76 that a slot detects at issue. -/
def otherTrap (s : State) (k : Nat) (c : Ctx) (i : Instr) : Option TrapInfo :=
  poisonTrap s k c false i <|> reportTrap c i <|> spillTrap c i <|> pitchTrap c i <|> accessTrap s (coreOf k) (memOps s k c i) <|>
  gatherTrap s k c i <|> bankTrap s k c i <|> headsTrap s c i <|> loopTrap c i <|>
  (match i with | .pmovExpose => exposeTrap s k | _ => none) <|> failedQuarter s k i <|> typeCheck s k c i <|>
  (match i with | .gang => brokenTrap s k | _ => none)

/-! ## Waits of one slot -/

/-- The tray of R246 orders nothing while a trap is handled. -/
def behind (s : State) (k : Nat) (c : Ctx) (i : Instr) : List Nat := if c.h then [] else behindAges s k c i

/-- Instructions that a context may defer now (R234, R246, R291). -/
def defers (s : State) (k : Nat) (c : Ctx) : Bool := c.mode.getLsbD 1 && !c.h && ctxId k != 4 && !inTeam s k

/-- A reporting instruction waits for acknowledgements (R280). -/
def waitsFlush (c : Ctx) (i : Instr) : Bool := isReporting i && unflushed c

/-- A later access waits for an older acquire (R114). -/
def waitsAcquire (c : Ctx) (i : Instr) : Bool := touchesMemory c i && c.reqs.any (·.ord.acq)

/-- A slot writes a row that a running joint-array operation reads (R201). -/
def waitsOperand (s : State) (k : Nat) (c : Ctx) (i : Instr) : Bool :=
  (keysOf s k c (infoIn c i).rdst ++ extraRows s k c i).any (operandRows s k).contains

/-- An older row instruction of the context has not landed (R169): issued, or in a tray that is not frozen (R247). -/
def olderRows (s : State) (k : Nat) (c : Ctx) : Bool := rowsOut s k || (!c.h && c.tray.any fun cl => isRowInstr cl.instr)

/-- A CSR access that waits: a read of fflags or evc0 to evc5 for row results (R169), a write that leaves deferring mode for
an empty tray (R248). -/
def waitsCsr (s : State) (k : Nat) (c : Ctx) (i : Instr) : Bool :=
  match csrForm i with
  | none => false
  | some (op, n, d, a) =>
    (csrReads op d && (n == 1 || (0x010 ≤ n && n ≤ 0x015)) && olderRows s k c) ||
    (n == 0 && csrWrites op a && c.mode.getLsbD 1 && !(modeWrite (ctxId k == 4) c.mode (csrNew op (c.mode.zeroExtend 64) (c.rd a))).getLsbD 1
      && !c.tray.isEmpty)

/-- Room that an instruction needs before it issues, and the parks of the joint array and the plates. -/
def waitsRoom (s : State) (k : Nat) (i : Instr) : Bool :=
  let core := coreOf k
  match i with
  | .chain _ _ _ e n => !queueRoom s (queueKey e core n.toNat)
  | .fork _ _ n mask => !forkRoom s core n.toNat mask
  | .mzero _ => zeroBusy s k
  | .mdrain .. => drainBusy s k
  | .gang => gangBusy s k
  | .pmovExpose => false
  | _ => isPmov i && !portRoom s core

/-- The parks that have a name of their own. -/
def namedPark (s : State) (k : Nat) (c : Ctx) (i : Instr) : Option Park :=
  let prev (dom : Domain) : Option Park := if barBehind s k c dom then some (.barPrevious dom) else none
  let round (dom : Domain) : Option Park := if c.nredBusy.getLsbD (domCode dom) then some (.nred dom) else none
  match i with
  | .barArrive _ _ dom _ _ => prev dom
  | .barSync _ _ dom _ _ => prev dom
  | .follow _ dom => prev dom
  | .attach dom => prev dom
  | .nred _ _ _ dom _ => round dom
  | .nredMergek _ _ _ dom => round dom
  | .traydrain => if c.tray.isEmpty then none else some .traydrain
  | .pmovExpose => if exposeReady s k then none else some .expose
  | _ => none

/-- The structural waits of a slot that issues. A GANG whose gang is broken waits for nothing (R206). -/
def structural (s : State) (k : Nat) (c : Ctx) (i : Instr) : Option Park :=
  if i = .gang ∧ (brokenTrap s k).isSome then none else
  namedPark s k c i <|>
  (if waitsAcquire c i || waitsOperand s k c i || waitsCsr s k c i || waitsRoom s k i then some .reissue else none)

/-- A request of a core that has not been performed reaches a bank (R309). -/
def pendingAtBank (s : State) (core b : Nat) : Bool :=
  (upTo 5).any fun i => (s.ctx (8 * core + i)).reqs.any fun r =>
    r.state != .registered && isLocal r.addr && (banksOf (localKey core r.addr) r.acc.bytes).contains b

/-- An own-bank access does not issue (R296, R309): another to the bank within four cycles, or an older one unperformed. -/
def bankHeld (s : State) (core b : Nat) : Bool :=
  (match find? (s.core core).ownAcc (b % 16) with | some n => s.cycle < n + 4 | none => false) || pendingAtBank s core b

/-- A row access to a bank of its cell follows an older access of its core to that bank through slot 2: it does not issue
before that one is performed, so that slot 1 waits for no scalar (R297, R309; log entry 77). -/
def wideHeld (s : State) (core : Nat) (op : MemOp) : Bool :=
  op.row && isLocal op.ea && (banksOf (localKey core op.ea) op.n).any fun b => b / 64 == core / 4 && b / 16 != core &&
    (upTo 5).any fun i => (s.ctx (8 * core + i)).reqs.any fun r =>
      r.state != .registered && isLocal r.addr && r.acc.bytes != 128 && (banksOf (localKey core r.addr) r.acc.bytes).contains b

/-- The slot makes the bundle retry each cycle: a full dispatch queue (R194), a bank that cannot be used (R161, R296). -/
def holds (s : State) (k : Nat) (c : Ctx) (i : Instr) : Bool :=
  let core := coreOf k
  let own (bank : BitVec 4) : Bool := bankHeld s core (16 * core + bank.toNat)
  let guise (bank : BitVec 4) : Bool := own bank || (s.bank (16 * core + bank.toNat)).closing.isSome
  if isRowInstr i then !rowRoom s core else
  match i with
  | .bguiseClear _ _ bank => guise bank
  | .bguiseKeep _ _ bank => guise bank
  | .bguiseConvert _ _ bank => guise bank
  | .bdesc _ bank => own bank
  | .arcade _ a b => arcadeHeld s core (c.rd a) (some (c.rd b).toNat) ||
      (isLocal (c.rd a) && windowCore core (c.rd a) == core && bankHeld s core (bankAt core (c.rd a)))
  | .arcadeDis _ a => arcadeHeld s core (c.rd a) none
  | _ => (memOps s k c i).any fun op => wideHeld s core op || ownBankOp core op && (bankHeld s core (ownBank core op) || (holdsNext s core op && c.portWait.isSome))

/-! ## Judging a bundle -/

/-- What becomes of a bundle. -/
inductive Judged where
  | trap (t : TrapInfo)
  | park (p : Park)
  | hold
  /-- It issues; the marked slots go to the tray. -/
  | issue (da db : Bool)
  deriving DecidableEq, Repr

/-- Slot A goes to the tray instead of issuing (R77, R234, R237, R238, R280). -/
def defersSlot (s : State) (k : Nat) (c : Ctx) (i : Instr) : Bool :=
  defers s k c && !(infoIn c i).never && (waitsOn s k c i || behind s k c i != [] || waitsFlush c i)

/-- Slot B reads a row that slot A, deferred, writes: the row is pending from the capture on (R236, R240). -/
def readsAfter (s : State) (k : Nat) (c : Ctx) (a b : Instr) : Bool :=
  (keysOf s k c (infoIn c b).rsrc).any (keysOf s k c (infoIn c a).rdst).contains

/-- Slot B writes a register that slot A, deferred, reads by name or writes (R237), or a row that it reads or writes, MDRAIN's
tile rows among them (R239). -/
def tied (s : State) (k : Nat) (c : Ctx) (a b : Instr) : Bool :=
  let x := infoIn c a
  let y := infoIn c b
  y.dst.any (fun r => r != 0 && ((x.src.contains r && c.waits r) || x.dst.contains r)) ||
  (keysOf s k c y.rdst ++ extraRows s k c b).any fun key => (keysOf s k c x.rsrc).contains key || (keysOf s k c x.rdst).contains key

/-- An instruction waits for rows that it does not name in its fields: MMA's operands (R202), MDRAIN's rows (R239). -/
def waitsForms (s : State) (k : Nat) (c : Ctx) (i : Instr) : Bool :=
  (operandForms s k c i).any (rowWaits s k c) || (!(i matches .pmovExpose) && (extraRows s k c i).any (rowHeld s k c))

/-- A slot that is not deferred must wait for its operands (R28, R104, R239, R280). -/
def mustWait (s : State) (k : Nat) (c : Ctx) (i : Instr) : Bool :=
  waitsOn s k c i || waitsForms s k c i || waitsFlush c i || behind s k c i != [] || (!c.h && reaches i && c.tray.any fun cl => cl.info.mem)

/-- The free entries of the tray (R244). -/
def trayRoom (c : Ctx) : Nat := 24 - c.tray.length

/-- The decode-time and OPERAND traps of a bundle, in the order of R76; a slot that waits (`wa`, `wb`) is not checked for
the values of its registers. -/
def operandTraps (s : State) (k : Nat) (c : Ctx) (open_ wa wb : Bool) (a b : Instr) : Option TrapInfo :=
  let vb (x : Option TrapInfo) : Option TrapInfo := if open_ then x else none
  let settled (w : Bool) (x : Option TrapInfo) : Option TrapInfo := if w then none else x
  illegalTrap s k c a <|> illegalTrap s k c b <|> privTrap s k c a <|> staticTrap s k c a <|> settled wa (valueTrap s k c a) <|>
  vb (staticTrap s k c b) <|> vb (settled wb (valueTrap s k c b)) <|>
  if sharedDest c a b then some (trapOf causeOperand 1 0) else none

/-- What becomes of a bundle of a context at its PC (R28, R60, R64, R76, R77, R234 to R244). The checks come before a hold (log
entry 19). -/
def judge (a b : Instr) (s : State) (k : Nat) : Judged :=
  let c := s.ctx k
  let open_ := guardOpen b c
  let whole : Bool := a == .gang
  let da := !whole && defersSlot s k c a
  let tie := da && open_ && tied s k c a b
  let db := open_ && !whole && !(infoIn c b).never && (defersSlot s k c b || tie)
  let wait := (!da && mustWait s k c a) || (open_ && !db && (mustWait s k c b || tie))
  match operandTraps s k c open_ (wait || da) (wait || db) a b with
  | some t => .trap t
  | none =>
    if wait then .park .reissue else
    let pa := if da then none else structural s k c a
    let pb := if open_ && !db then structural s k c b else none
    match pa <|> pb with
    | some p => .park p
    | none =>
      let ta := if da then poisonTrap s k c true a else otherTrap s k c a
      let tb := if !open_ then ctlPoison c b else if db then poisonTrap s k c true b else otherTrap s k c b
      let n := da.toNat + db.toNat
      let full : Bool := n ≠ 0 && trayRoom c < n
      let t := stallTrap s.cycle c a <|> (if open_ then stallTrap s.cycle c b else none) <|> ta <|> tb <|>
        (if full && c.trayFull != some c.pc then some (trapOf causeTrayFull (da.toNat + 2 * db.toNat) 0) else none)
      match t with
      | some t => .trap t
      | none =>
        if full then .park .reissue
        else if c.portWait.isSome || (!da && holds s k c a) || (open_ && !db && holds s k c b) then .hold
        else .issue da db

/-! ## Closures -/

/-- A context as a closure reads it (R235, R243). -/
def closureView (c : Ctx) (cl : Closure) : Ctx :=
  let s : Vector Word 32 := Vector.ofFn fun i => if cl.byName.contains (BitVec.ofNat 5 i.val) then c.s.get i else cl.s.get i
  let named := (c.poison.filter fun p => cl.byName.contains (BitVec.ofNat 5 p.1)) ++ cl.bad
  let m : BitVec 7 := (c.mode &&& 0x47) ||| ((cl.frm.zeroExtend 7) <<< 4) ||| (if cl.ftz then 0x08 else 0)
  { c with
    s := s, c := cl.c, pc := cl.pc, poison := named, fixed := [], mode := m }

/-- A closure is ready (R240). -/
def closureReady (s : State) (k : Nat) (cl : Closure) : Bool :=
  let c := s.ctx k
  let v := closureView c cl
  let n := cl.info
  let core := coreOf k
  cl.byName.all (fun r => !c.pending r) && n.dst.all (fun r => !c.pending r) &&
  (keysOf s k c n.rsrc).all (fun key => !rowPending s core key) && (keysOf s k c n.rdst).all (fun key => !rowPending s core key) &&
  cl.behind.all (fun g => c.tray.all fun x => x.age != g) && !waitsFlush c cl.instr && (structural s k v cl.instr).isNone &&
  !holds s k v cl.instr

/-- The oldest closure of a list for which f holds. -/
def oldest (f : Closure → Bool) (l : List Closure) : Option Closure :=
  (l.filter f).foldl (fun (m : Option Closure) x => match m with | some y => if x.age < y.age then some x else m | none => some x) none

/-- The tray runs closures (R234, R246). -/
def trayLive (c : Ctx) : Bool := !c.h && c.running.isNone

/-- The context's oldest ready closure (R241). -/
def readyClosure (s : State) (k : Nat) : Option Closure :=
  let c := s.ctx k
  if trayLive c then oldest (closureReady s k) c.tray else none

/-- Some closure has been ready throughout the four preceding cycles (R241). -/
def overdue (s : State) (k : Nat) : Bool :=
  (s.ctx k).tray.any fun cl => match cl.readyAt with | some n => n + 4 ≤ s.cycle | none => false

/-- CLOSURE_RUN (R241): the oldest ready closure leaves the tray and is the context's next to issue. -/
def effClosureRun (k : Nat) (s : State) : State :=
  match readyClosure s k with
  | some cl => s.modCtx k fun c => fixMate cl { c with
      running := some cl, tray := c.tray.filter (· != cl) }
  | none => s

/-- The cycle from which a closure has been ready. -/
def stampClosure (s : State) (k : Nat) (cl : Closure) : Closure :=
  if closureReady s k cl then { cl with readyAt := cl.readyAt <|> some s.cycle } else { cl with readyAt := none }

/-- The closure of a slot (R235). -/
def capture (c : Ctx) (i : Instr) (age : Nat) (behind : List Nat) : Closure :=
  { instr := i, pc := c.pc, age := age, s := c.s, c := c.c, frm := (c.mode >>> 4).truncate 2, ftz := c.mode.getLsbD 3
    byName := (infoIn c i).src.filter c.pendingAll, behind := behind, faulted := false, readyAt := none }

/-- A slot joins the tray (R235): it is counted in evc7. -/
def pushClosure (i : Instr) (extra : List Nat) (mate : Option Nat) (s : State) : State :=
  let k := s.cur
  let c := me s
  let cl := { capture c i s.seq (behindAges s k c i ++ extra) with mate := mate }
  countEv k 7 1 ({ s.modCtx k fun x => { x with tray := x.tray ++ [cl] } with seq := s.seq + 1 })

/-! ## Running slots -/

/-- The partner with which a slot instruction stands in a bundle of its own (R59, R202). -/
def partner (i : Instr) : Instr × Instr :=
  match slotA? i with
  | some true => (i, .nopB)
  | _ => (if isMma i then .gang else .nop, i)

/-- A failure record of the quarter is cleared by the trap that reports it (R208). -/
def clearQuarter (t : TrapInfo) (k : Nat) (s : State) : State :=
  if 0x80 ≤ t.sub.toNat ∧ (quarterOf s (coreOf k)).fail = some t then modQuarter (coreOf k) (fun q => { q with fail := none }) s else s

/-- A bundle's trap (R76, R277, R291): a follower detaches first. -/
def bundleTrap (t : TrapInfo) (k : Nat) (s : State) : State :=
  let s := if t.cause = causeTrayFull then s.modCtx k fun c => { c with trayFull := some c.pc } else s
  takeTrap t k (clearQuarter t k s)

/-- One slot instruction run in the state (log entry 1). Inside a bundle or a closure it has its effect; alone, its bundle
is judged first, and it has its effect, traps, parks, stays, or goes to the tray. A false guard does nothing (R70). -/
def runSlot (i : Instr) (eff : State → State) (s : State) : State :=
  if !guardOpen i (me s) then s
  else if s.view.isSome then eff s
  else
    let p := partner i
    match judge p.1 p.2 s s.cur with
    | .trap t => bundleTrap t s.cur s
    | .park p => park s.cur p s
    | .hold => s
    | .issue da db => if da || db then pushClosure i [] none s else eff s

/-! ## Fetch -/

/-- The fetch of a bundle (R26, R61, R282). -/
inductive Fetched where
  | words (w0 w1 : Half)
  | trap (t : TrapInfo)
  | fault (die : Nat) (num : Nat)
  /-- No live path to the code's home yet (R396). -/
  | wait
  deriving DecidableEq, Repr

/-- The bundle at a context's PC: code lies in region 0x00. -/
def fetch (k : Nat) (s : State) : Fetched × State :=
  let c := s.ctx k
  let pc := aligned c.pc
  match c.fetchFail with
  | some t => (.trap t, s.modCtx k fun c => { c with fetchFail := none })
  | none =>
    if wf pc 63 57 ≠ 0 then (.trap (trapOf causeProt 0 pc), s)
    else match holeTrap s pc with
    | some t => (.trap t, s)
    | none =>
      let ag : Agent := { agentOf s k (!(c.mode.getLsbD 6)) with cls := 3 }
      let die := vaDie pc
      if noPath s (coreOf k) die then
        (match pathWait ag pc s with
         | (.failed _, s) => (.trap (trapOf causeFaultX causeTimeout.toNat pc), s)
         | (_, s) => (.wait, s)) else
      let s := pathFound ag s
      match translate s ag pc kindExec with
      | .ok (p, e) =>
        let s := countLeaf die ag pc p e s
        if (match p with | .ctl .. => ag.user || pteU e.leaf | _ => false) then (.trap (trapOf causeProt 0 pc), s) else
        if placeBad s p 8 then (.trap (trapOf causeEcc causeEcc.toNat pc), s) else
        let w := placeRead s p 8
        (.words (BitVec.ofNat 32 w) (BitVec.ofNat 32 (w / 2 ^ 32)), cache die 3 e s)
      | .error sub =>
        let (num, s) := recordFault ag pc kindExec sub (dropLeaf ag pc s)
        (.fault die num, s)

/-- A context stops at a fetch fault (R282). -/
def stopFetch (k die num : Nat) (s : State) : State :=
  yieldCore k (s.modCtx k fun c => { c with status := .stopped, xcause := causeFaultX, fetchStop := some (die, num) })

end Sys2Proof.Machine
end

