-- ==== Sys2Proof/Machine/Firmware.lean ====
section
/-! DEFINITION. The runtime firmware at stvec (R283): what its handler does with a trap, as one action of the context's
issue slot (log entry 21). A launch that writes stvec has a handler of its own, which is fetched like any code. -/

namespace Sys2Proof.Machine

/-- A context handles a trap in the firmware: it stands at the handler's address, which stvec still holds. -/
def inFirmware (s : State) (k : Nat) : Bool :=
  let c := s.ctx k
  c.h && c.mode.getLsbD 6 && c.pc == firmwareEntry && (s.core (coreOf k)).stvec == firmwareEntry

/-- Causes for which the firmware kills whatever utvec is (R283). -/
def killsAlways (cause : Byte) : Bool :=
  [causePriv, causeFaultR, causeFaultW, causeFaultX, causeProt, causeEcc].contains cause

/-- The trap's cause, or the original cause of DEFERRED (R245, R283). -/
def baseCause (c : Ctx) : Byte := if c.xcause = causeDeferred then c.xsub else c.xcause

/-- ERET by the firmware (R287). -/
def firmwareReturn (k : Nat) (s : State) : State :=
  (returnTrap k s).modCtx k fun c => { c with
    pc := aligned c.npc, refixing := false }

/-- ERET.U by the firmware (R287): xcause to xstat stay. -/
def firmwareForward (k : Nat) (s : State) : State :=
  s.modCtx k fun c => { c with
    mode := c.mode &&& 0x3F, pc := aligned c.utvec, npc := aligned c.utvec }

/-- REFIX xsub 1 with no user handler (R283): `pmov refix, 0`, then STAT; ERET when FAILED is 0, else the kill. -/
def firmwareRefix (k : Nat) (s : State) : State :=
  let c := s.ctx k
  let x := s.core (coreOf k)
  if !c.refixing then
    if x.ports.length + 2 ≤ 16 then
      (pushMove k (.stat 0) (pushMove k .refix s)).modCtx k fun c => { c with refixing := true }
    else s
  else if x.ports.any (·.ctx == k) then s
  else if (x.plate c.latches.psel.toNat).failed then kill c.xcause c.xsub k s
  else firmwareReturn k s

/-- The firmware's action on the trap that a context handles (R283). -/
def firmwareAct (k : Nat) (s : State) : State :=
  let c := s.ctx k
  if c.xcause = causeTrayFull then firmwareReturn k s
  else if killsAlways (baseCause c) then kill c.xcause c.xsub k s
  else if c.utvec ≠ 0 then firmwareForward k s
  else if c.xcause = causeRefix ∧ c.xsub = 1 then firmwareRefix k s
  else kill c.xcause c.xsub k s

end Sys2Proof.Machine
end

