-- ==== Sys2Proof/Machine/Bundle.lean ====
section
/-! DEFINITION. One issue slot of a core: which context it serves (R10, R242), the run of a bundle by a context or a
team (R60, R291), the run of a closure (R243), and what follows (R61, R63, R107, R327). `ex` is the meaning of one
instruction: Step.lean supplies `exec`. -/

namespace Sys2Proof.Machine

/-- The outcome of a part of a step. -/
abbrev Out := Host.Outcome State Fault Refusal

/-- One part after another; a fault or refusal of the first is the whole's. -/
def andThen (o : Out) (f : State → Out) : Out :=
  match o with
  | .next s => f s
  | .fault r => .fault r
  | .refused r => .refused r

/-- A list of parts, each on the state that the one before leaves. -/
def forAll {α : Type} (f : α → State → Out) : List α → State → Out
  | [], s => .next s
  | x :: r, s => andThen (f x s) (forAll f r)

/-! ## Running one context's slots -/

/-- Slot B runs before slot A: ERET leaves the state that slot B is part of, and MDRAIN
reads hdl as it stood before the bundle (R212). Neither slot sees what the other writes (R60). -/
def slotBFirst (a b : Instr) : Bool :=
  match a, b with
  | .eret, _ | .eretU, _ | .eretTo _, _ => true
  | _, .mdrain .. => (csrForm a).isSome
  | _, _ => false

/-- A slot of an issuing bundle: it runs, or joins the tray. -/
def runOne (ex : Instr → State → Out) (i : Instr) (toTray : Bool) (extra : List Nat) (mate : Option Nat) (s : State) : Out :=
  if toTray then .next (pushClosure i extra mate s) else ex i s

/-- A bundle of context k begins: its slots read the state as it stands (R60). -/
def openBundle (k : Nat) (s : State) : State :=
  let c := s.ctx k
  { s.modCtx k fun x => { x with
      npc := aligned x.pc + 8, taken := false, trayFull := if x.h then x.trayFull else none, after := none, redo := if x.h then x.redo else none
      gang := none } with view := some c }

/-- Both slots of a bundle of the current context, on the registers as they stood before it (R60). -/
def runSlots (ex : Instr → State → Out) (a b : Instr) (da db : Bool) (s : State) : Out :=
  let k := s.cur
  let c := s.ctx k
  let age := s.seq
  let both := da && db
  let extra := if both && (tied s k c a b || readsAfter s k c a b) then [age] else []
  let s := openBundle k s
  let ra := runOne ex a da [] none
  let rb := if guardOpen b c then runOne ex b db extra (if both then some age else none) else fun s => .next s
  if slotBFirst a b then andThen (rb s) ra else andThen (ra s) rb

/-- The next bundle issues no earlier than this (R63). -/
def setNextIssue (k : Nat) (stall : BitVec 3) (taken : Bool) (s : State) : State :=
  s.modCtx k fun c => { c with nextIssue := max c.nextIssue (s.cycle + 1 + stall.toNat + taken.toNat) }

/-- What follows a bundle's slots: a trap that waited for them (R286), else the end of a loop pass (R107), the next
PC (R61) and the exit's park (R327). -/
def commit (k : Nat) (x : Bundle) (s : State) : State :=
  let pre := s.view.getD (s.ctx k)
  let s := { s with view := none }
  let s := countEv k 10 1 s
  let c := s.ctx k
  if c.status = .idle then s else
  match c.after with
  | some t =>
    let s := setNextIssue k x.stall true s
    let s := if t.cause = causeTrap ∨ t.cause = causeBreak then loopPass k pre x.a s else s
    takeTrap t k s
  | none =>
    let s := setNextIssue k x.stall c.taken (loopPass k pre x.a s)
    let c := s.ctx k
    if c.taken && c.npc == exitAddr then park k .exit (s.modCtx k fun c => { c with exiting := true })
    else s.modCtx k fun c => { c with pc := aligned c.npc }

/-- The rest of a GANG bundle whose gang has formed (R203): its slot B, then what follows. -/
def finishGang (ex : Instr → State → Out) (x : Bundle) (k : Nat) (s : State) : Out :=
  let c := s.ctx k
  andThen (if guardOpen x.b c && !isMma x.b then ex x.b (openBundle k { s with cur := k }) else .next (openBundle k { s with cur := k }))
    fun s => .next (commit k x s)

/-- A GANG bundle (R203): MMA latches, the context arrives, and the bundle is done once the gang has formed. A gang that
fails traps here with no effect of either slot. -/
def gangBundle (ex : Instr → State → Out) (x : Bundle) (k : Nat) (s : State) : Out :=
  let c := s.ctx k
  let s := openBundle k { s with cur := k }
  andThen (if guardOpen x.b c && isMma x.b then ex x.b s else .next s) fun s =>
    andThen (ex .gang s) fun s =>
      let s : State := { s with view := none }
      match (s.ctx k).after with
      | some t => .next (takeTrap t k s)
      | none => if gangFormed (s.ctx k) then finishGang ex x k s else .next s

/-- The slots of a bundle run by one context, then what follows. -/
def issueBundle (ex : Instr → State → Out) (x : Bundle) (da db : Bool) (k : Nat) (s : State) : Out :=
  if x.a = .gang then gangBundle ex x k s else
  andThen (runSlots ex x.a x.b da db { s with cur := k }) fun s => .next (commit k x s)

/-! ## Teams (R291) -/

/-- A leader's followers, at every hop. -/
def followersOf (s : State) : Nat → Nat → List Nat
  | 0, _ => []
  | fuel + 1, k =>
    let l := (s.ctxs.filter fun p => p.2.leader == some k).map (·.1)
    l ++ l.flatMap (followersOf s fuel)

/-- What a context's issued bundle came to. -/
def teamOut (s : State) (k : Nat) : TeamOut :=
  let l := s.ctx k
  ⟨l.taken, if l.h then none else some l.pc, l.exiting⟩

/-- A follower has issued the oldest bundle of its backlog: its PC is its leader's. -/
def followed (k : Nat) (o : Option TeamOut) (s : State) : State :=
  s.modCtx k fun c => { c with
    backlog := c.backlog.tail, pc := if c.h || c.exiting then c.pc else (o.bind (·.pc)).getD c.pc }

/-- The outcome of a follower's bundle is its leader's (R291): whether a transfer was taken, where it goes on, and whether it
exits; its own transfers count for nothing. -/
def TeamOut.impose (o : TeamOut) (pc : Word) (c : Ctx) : Ctx :=
  { c with
    taken := o.taken
    npc := if o.exits then exitAddr else o.pc.getD (if c.npc = exitAddr then aligned pc + 8 else c.npc) }

/-- A follower runs its leader's bundle; its control transfers take the leader's outcome. -/
def followBundle (ex : Instr → State → Out) (e : TeamStep) (k : Nat) (s : State) : Out :=
  let x := e.bundle
  if x.a = .gang then
    andThen (if gangFormed (s.ctx k) then finishGang ex x k s else gangBundle ex x k s) fun s =>
      .next (if (s.ctx k).gang.isNone && !(s.ctx k).backlog.isEmpty then followed k e.out s else s)
  else
    andThen (runSlots ex x.a x.b false false { s with cur := k }) fun s =>
      .next (followed k e.out (commit k x (match e.out with
        | some o => s.modCtx k (o.impose (s.view.getD (s.ctx k)).pc)
        | none => s)))

/-- A follower issues the oldest bundle of its leader's, once its delay is over and its own state allows it, or detaches
at it and takes its trap (R291, R330). -/
def followNext (ex : Instr → State → Out) (k : Nat) (s : State) : Out :=
  let c := s.ctx k
  match c.backlog with
  | [] => .next s
  | e :: _ =>
    if s.cycle < e.due ∨ s.cycle < c.nextIssue then .next s
    else if gangFormed c then (if guardOpen e.bundle.b c && holds s k c e.bundle.b then .next s else followBundle ex e k s)
    else match judge e.bundle.a e.bundle.b s k with
      | .trap t => .next (bundleTrap t k (leaveTeam k s))
      | .issue .. => followBundle ex e k s
      | .park p => .next (park k p s)
      | .hold => .next s

/-- A follower cannot issue the bundle, so the team holds: it waits, has not issued an earlier one in its turn, or would
not issue this one. -/
def blocksTeam (s : State) (x : Bundle) (k : Nat) : Bool :=
  let c := s.ctx k
  !c.able || (c.backlog.head?.any fun e => e.due < s.cycle) ||
  (match judge x.a x.b s k with | .park _ => true | .hold => true | _ => false)

/-- Followers whose turn it is and that would park at the bundle park at it (R9, R426). -/
def parkFollowers (x : Bundle) (team : List Nat) (s : State) : State :=
  team.foldl (fun s f =>
    let c := s.ctx f
    if c.able && c.backlog.isEmpty && c.nextIssue ≤ s.cycle then
      match judge x.a x.b s f with | .park p => park f p s | _ => s
    else s) s

/-- The bundle that a leader has issued goes to its followers, each a cycle later for each leader between (R330). A GANG
bundle that the leader issues again after a trap stands there already. -/
def tellTeam (x : Bundle) (o : Option TeamOut) (team : List Nat) (s : State) : State :=
  team.foldl (fun s f =>
    let waits : Bool := match (s.ctx f).backlog.getLast? with | some e => x.a == .gang && e.bundle == x | none => false
    if waits then s
    else s.modCtx f fun c => { c with backlog := c.backlog ++ [⟨x, s.cycle + (leadersOf s 16 f).length, o⟩] }) s

/-- The followers that issue with a context's next bundle: none while it handles a trap. -/
def teamOf (s : State) (k : Nat) : List Nat := if (s.ctx k).h then [] else followersOf s 16 k

/-- The bundle of a context that leads a team, or of one on its own. A GANG bundle that traps is not its followers'. -/
def runBundle (ex : Instr → State → Out) (x : Bundle) (k : Nat) (s : State) : Out :=
  let s := { s with cur := k }
  let c := s.ctx k
  if x.a = .gang ∧ gangFormed c then (if guardOpen x.b c && holds s k c x.b then .next s else finishGang ex x k s) else
  match judge x.a x.b s k with
  | .trap t => .next (bundleTrap t k s)
  | .park p => .next (park k p s)
  | .hold => .next s
  | .issue da db =>
    let team := teamOf s k
    if team.any (blocksTeam s x) then .next (parkFollowers x team s)
    else andThen (issueBundle ex x da db k s) fun t =>
      .next (if x.a = .gang then (if (t.ctx k).h then t else tellTeam x none team t) else tellTeam x (some (teamOut t k)) team t)

/-! ## A closure (R243, R245) -/

/-- The traps that a closure can meet when it runs (R244, R245). -/
def closureTrap (s : State) (k : Nat) (c : Ctx) (i : Instr) : Option TrapInfo :=
  privTrap s k c i <|> staticTrap s k c i <|> valueTrap s k c i <|> otherTrap s k c i

/-- The closure that a context has taken from its tray runs alone in this slot. -/
def runClosure (ex : Instr → State → Out) (cl : Closure) (k : Nat) (s : State) : Out :=
  let s := { s with cur := k }
  let v := { closureView (s.ctx k) cl with
    h := false, pend := 0, tray := [] }
  if !closureReady s k cl then .next s else
  match (if cl.ecc then some (eccAt 0) else none) <|> closureTrap s k v cl.instr with
  | some t => .next (if (s.ctx k).portWait.isSome then s else takeTrap t k s)
  | none =>
    andThen (ex cl.instr { s.modCtx k fun c => { c with after := none } with view := some v }) fun s =>
      let s := { s with view := none }
      match (s.ctx k).after with
      | some t => .next (takeTrap t k s)
      | none => .next (s.modCtx k fun c => { c with running := none })

/-! ## Choosing a context (R10, R242) -/

/-- A general context that can hold the core: able to issue, or with a ready closure while it is parked. -/
def selectable (s : State) (k : Nat) : Bool :=
  let c := s.ctx k
  !launchStops s k && (c.able || (c.status == .parked && (c.running.isSome || (readyClosure s k).isSome)))

/-- Ring order after context n. -/
def ringFrom (n : Nat) : List Nat := [(n + 1) % 4, (n + 2) % 4, (n + 3) % 4, n % 4]

/-- Contexts of a core that follow a leader or still have bundles of one: they hold the core (R291). -/
def followersOn (s : State) (core : Nat) : List Nat :=
  ((upTo 4).map (8 * core + ·)).filter fun k => ((s.ctx k).leader.isSome || !(s.ctx k).backlog.isEmpty) && (s.ctx k).status != .idle

/-- The general context that a core serves (R10): a follower, else the one that holds the core, which a team's member keeps
while it cannot issue (R291), else the next in ring order. -/
def pickGeneral (s : State) (core : Nat) : Option Nat :=
  let x := s.core core
  match followersOn s core with
  | [] =>
    match x.running.map (8 * core + ·) with
    | some k =>
      if selectable s k then some k
      else if inTeam s k then none
      else (((ringFrom (ctxId k)).map (8 * core + ·)).find? (selectable s))
    | none => ((ringFrom x.ring).map (8 * core + ·)).find? (selectable s)
  | l => l.find? (selectable s)

/-- The context that a core serves in this cycle (R10). -/
def pick (s : State) (core : Nat) : Option Nat :=
  let h := handlerKey core
  if (s.ctx h).able && !launchStops s h then some h else pickGeneral s core

/-- The context holds the core. -/
def select (k : Nat) (s : State) : State :=
  let s := if ctxId k = 4 then s else s.modCore (coreOf k) fun x => { x with running := some (ctxId k) }
  s.modCtx k fun c => if c.status = .ready then { c with status := .running } else c

/-- The core's issue slot of this cycle is used. -/
def useSlot (core : Nat) (s : State) : State := s.modCore core fun x => { x with nextSlot := s.cycle + 1 }

/-- The context's next bundle may be fetched and judged (R63). -/
def bundleDue (s : State) (k : Nat) : Bool :=
  let c := s.ctx k
  c.issues && c.nextIssue ≤ s.cycle && c.leader.isNone && c.backlog.isEmpty && (c.running.isNone || gangFormed c)

/-- A wait that a trap left has come to its end (R426); a WFI's ends too when nothing is pending any more (R288). -/
def waitOver (s : State) (k : Nat) (p : Park) : Bool :=
  parkOver s k p || (match p with | .wfi t => t == 0 && !anyPending s k (s.ctx k) | _ => false)

/-- A bundle whose slots are done and whose trap left only its wait (R426): it parks again, or is over. -/
def waitAgain (k : Nat) (r : Word × Word × Park) (s : State) : State :=
  let s := s.modCtx k fun c => { c with redo := none }
  if waitOver s k r.2.2 then
    let s := s.modCtx k fun c => { c with pc := r.2.1 }
    match r.2.2 with | .team _ _ l => joinTeam k l s | _ => s
  else (park k r.2.2 s).modCtx k fun c => { c with pc := r.2.1 }

/-- The fetched words of a context's bundle: an ILLEGAL pattern traps (R75). -/
def issueWords (ex : Instr → State → Out) (w0 w1 : Half) (k : Nat) (s : State) : Out :=
  match decode w0 w1 with
  | .error _ => .next (bundleTrap (trapOf causeIllegal 0 0) k s)
  | .ok x => runBundle ex x k s

/-- The context's next bundle: the firmware's action at its handler (R283), else fetch, decode, judge, run. -/
def issueNext (ex : Instr → State → Out) (k : Nat) (s : State) : Out :=
  let c := s.ctx k
  if inFirmware s k then .next (firmwareAct k s) else
  match (if c.h then none else c.redo.filter fun r => r.1 == c.pc) with
  | some r => .next (waitAgain k r s)
  | none =>
    match fetch k { s with cur := k } with
    | (.words w0 w1, s) => issueWords ex w0 w1 k s
    | (.trap t, s) => .next (bundleTrap t k s)
    | (.fault die num, s) => .next (stopFetch k die num s)
    | (.wait, s) => .next s

/-- The context did not move: its bundle was held. -/
def heldBack (k : Nat) (before after : State) : Bool :=
  (after.ctx k).issues && (after.ctx k).h == (before.ctx k).h && (after.ctx k).backlog == (before.ctx k).backlog &&
  (after.ctx k).nextIssue == (before.ctx k).nextIssue && (after.ctx k).pc == (before.ctx k).pc

/-- A park that ends when its bundle, issued again, would not park (R9). -/
def Park.again : Park → Bool
  | .reissue | .barPrevious _ | .nred _ | .expose | .traydrain => true
  | _ => false

/-- The context's next bundle: of its leader's, or its own. -/
def issueTurn (ex : Instr → State → Out) (k : Nat) (s : State) : Out :=
  if !(s.ctx k).backlog.isEmpty then followNext ex k s else if bundleDue s k then issueNext ex k s else .next s

/-- One issue slot of a core (R241): a closure that has left the tray, an overdue one, the next bundle, or, where
that is held or parks, the oldest ready closure. -/
def issueCore (ex : Instr → State → Out) (core : Nat) (s : State) : Out :=
  match pick s core with
  | none => .next (useSlot core s)
  | some k =>
    let s := select k s
    match (s.ctx k).running.filter fun _ => !gangFormed (s.ctx k) with
    | some cl => runClosure ex cl k (useSlot core s)
    | none =>
      let ready : Bool := (readyClosure s k).isSome && !gangFormed (s.ctx k)
      if ready && overdue s k then ex (.closureRun k) s
      else if !(s.ctx k).backlog.isEmpty || bundleDue s k then
        andThen (issueTurn ex k (useSlot core s)) fun t =>
          if ready && heldBack k s t then ex (.closureRun k) s
          else if ready && (t.ctx k).status == .parked && (t.ctx k).park.again then
            andThen (ex (.closureRun k) t) fun u => match (u.ctx k).running with
              | some cl => runClosure ex cl k u
              | none => .next u
          else .next t
      else if ready then ex (.closureRun k) s
      else .next (useSlot core s)

/-! ## Parked contexts -/

/-- The bundle that a parked context issues next, where it can be read: its leader's, or that at its PC. -/
def parkedBundle (s : State) (k : Nat) : Option Bundle :=
  match (s.ctx k).backlog with
  | e :: _ => some e.bundle
  | [] => match (fetch k s).1 with
    | .words w0 w1 => (match decode w0 w1 with | .ok x => some x | .error _ => none)
    | _ => none

/-- The park of that bundle, were it issued again (R28). -/
def parksFor (s : State) (k : Nat) : Option Park :=
  (parkedBundle s k).bind fun x => match judge x.a x.b s k with | .park p => some p | _ => none

/-- A parked context whose event has come is READY; one whose bundle waits for something else now is parked for that
(R9). -/
def wakeOne (k : Nat) (s : State) : State :=
  let c := s.ctx k
  if c.status = .parked ∧ c.park.again then
    match parksFor s k with
    | some p => if c.park = p then s else s.modCtx k fun c => { c with park := p }
    | none => unpark k s
  else settle k s

/-- A parked context that holds the core for its closures gives it up once none is ready (R242), but no member of a team. -/
def restCore (core : Nat) (x : CoreSt) (s : State) : State :=
  match x.running with
  | some i => let k := 8 * core + i; if (s.ctx k).status = .parked ∧ !selectable s k then yieldCore k s else s
  | none => s

/-- What stands once a move is made: parked contexts wake (R9), closures are ready or not (R240), and a core is given up
(R242). -/
def afterMove (s : State) : State :=
  let s := s.ctxs.foldl (fun s p => wakeOne p.1 s) s
  let s := s.cores.foldl (fun s p => restCore p.1 p.2 s) s
  s.ctxs.foldl (fun s p => if (s.ctx p.1).tray.isEmpty then s else
    s.modCtx p.1 fun c => { c with tray := c.tray.map (stampClosure s p.1) }) s

/-- A cycle passes: parked contexts are counted (R22). -/
def tick (s : State) : State :=
  let s := s.ctxs.foldl (fun s p =>
    if (s.ctx p.1).status = .parked then
      let s := countEv p.1 11 1 s
      if (s.ctx p.1).park = .gang then countEv p.1 14 1 s else s
    else s) s
  { s with cycle := s.cycle + 1 }

end Sys2Proof.Machine
end

