-- ==== Sys2Proof/Machine/Slots.lean ====
section
/-! DEFINITION. The bank frame (R294 to R300): who asks a bank for its slot, whom the slot serves, and the performance of
the access in it. -/

namespace Sys2Proof.Machine

/-! ## Slots -/

/-- A bank's slots, slot 3 in its even and its odd frames (R294). -/
inductive Slot where
  | own | wide | others | matrix | copy
  deriving DecidableEq, Repr

/-- The slot of a cycle (R294). -/
def slotAt (n : Nat) : Slot :=
  match n % 4 with
  | 0 => .own
  | 1 => .wide
  | 2 => .others
  | _ => if n / 4 % 2 = 0 then .matrix else .copy

/-- Who asks a bank. -/
inductive Asker where
  | ctx (k seq part : Nat)
  /-- A read of the operation that a core leads, by part and byte. -/
  | fetch (lead : Nat) (part : Part) (off : Nat)
  /-- A part of a core's drain row. -/
  | drain (core part : Nat)
  /-- A piece of the access of a queue's head chain, by its first byte. -/
  | engine (q off : Nat)
  deriving DecidableEq, Repr

/-- A request present at a bank: the slot that may serve it, its round-robin index there (R298), its issue cycle and its
place among the cell's cores, the vector sequencer last (R294), its age, and whether it is a replay (R148). -/
structure Ask where
  bank : Nat
  slot : Slot
  index : Nat
  since : Nat
  lane : Nat
  seq : Nat
  replay : Bool
  who : Asker
  deriving DecidableEq, Repr

/-! ## Parts of an access (R295) -/

/-- A local request's parts that have not been performed, with their places. -/
def openParts (core : Nat) (r : Req) : List (Nat × Piece) :=
  let l := partsAt (localKey core r.addr) r.acc.bytes
  ((upTo l.length).zip l).filter fun p => !r.did.getLsbD p.1

/-- A row access: 128 bytes. -/
def isRowReq (r : Req) : Bool := r.acc.bytes == 128

/-- The slot that serves a core's request at a bank (R294). -/
def reqSlot (core : Nat) (r : Req) (b : Nat) : Slot :=
  if isRowReq r then (if b / 64 = core / 4 then .wide else .others) else if b / 16 = core then .own else .others

/-- The first cycle in which a request is present at a bank: it reaches slot 2 after its crossing (R300). -/
def reaches2 (core : Nat) (r : Req) (b : Nat) : Nat :=
  match reqSlot core r b with | .others => r.issued + crossing core (b / 16) + 1 | _ => r.issued + 1

/-! ## Order of a context's requests (R114, R128, R309, R310) -/

/-- The bytes of a request as a range: region, first, count. -/
def rangeOf (core : Nat) (r : Req) : Bool × Nat × Nat :=
  if isLocal r.addr then (true, localKey core r.addr, r.acc.bytes) else (false, r.addr.toNat, r.acc.bytes)

/-- Two ranges share a byte. -/
def overlaps (x y : Bool × Nat × Nat) : Bool := x.1 == y.1 && x.2.1 < y.2.1 + y.2.2 && y.2.1 < x.2.1 + x.2.2

/-- An older request of the core, of any of its contexts, has a part to perform at a bank (R309). -/
def olderAtBank (s : State) (core b seq : Nat) : Bool :=
  (upTo 5).any fun i => (s.ctx (8 * core + i)).reqs.any fun x =>
    x.seq < seq && x.state != .registered && isLocal x.addr && (openParts core x).any fun p => p.2.bank == b

/-- An SC operation has its place in the order (R128): announced, delivered, and first of its package. -/
def scTurn (s : State) (k : Nat) (r : Req) : Bool :=
  match s.announces.find? fun a => a.ctx == k && a.seq == r.seq with
  | none => true
  | some a => a.delivered && s.announces.all fun x =>
      pkgOf x.core != pkgOf a.core || 0 < (x.window - a.window).toInt || (a.window == x.window && a.core ≤ x.core)

/-- The older requests of a request's context. -/
def olderReqs (s : State) (k : Nat) (r : Req) : List Req := (s.ctx k).reqs.filter fun x => x.seq < r.seq

/-- What R114 and R128 ask of a request: no older acquire, no older access before a release, its place in the SC order. -/
def inOrder (s : State) (k : Nat) (r : Req) : Bool :=
  let older := olderReqs s k r
  older.all (fun x => !x.ord.acq) && (!r.ord.rel || older.isEmpty) && (!r.ord.sc || scTurn s k r)

/-- The request waits for nothing but its turn. -/
def Req.live (r : Req) : Bool :=
  match r.state with | .issued => true | .retry => true | .announced => true | .closed => true | _ => false

/-- A part of a request is present at its bank (R114, R128, R300, R309, R310). -/
def partPresent (s : State) (k : Nat) (r : Req) (p : Piece) : Bool :=
  let core := coreOf k
  let range : Bool × Nat × Nat := (true, bkey p.bank p.off, p.n)
  r.live && r.due ≤ s.cycle && reaches2 core r p.bank ≤ s.cycle && inOrder s k r && !olderAtBank s core p.bank r.seq &&
  (olderReqs s k r).all fun x => !isLocal x.addr || (openParts core x).all fun q => !overlaps (true, bkey q.2.bank q.2.off, q.2.n) range

/-- A RED of kind rel that an earlier RED of its flow, of any context of the core, precedes in a switch's merge entry: the
switch holds it back (R365, R398). -/
def behindMerge (s : State) (core : Nat) (r : Req) : Bool :=
  (match r.acc with | .rmw _ (.red _ _) => r.dest == .none && r.ord.rel | _ => false) &&
  s.merges.any fun m => m.sent.isNone && vaDie m.addr == vaDie r.addr && m.parts.any fun p => coreOf p.1 == core && p.2 < r.seq

/-- What a request to global memory reaches, page by page: its place where a leaf translates it, its offset in a 4-KiB page,
its bytes. -/
def reached (s : State) (k : Nat) (r : Req) : List (Option Place × Nat × Nat) :=
  (pagePieces r.addr r.acc.bytes).map fun p =>
    ((match translate s (agentOf s k r.user) p.1 r.acc.kind with | .ok (q, _) => some q | .error _ => none), p.1.toNat % 4096, p.2.2)

/-- A place as a space and an address in it. -/
def Place.key : Place → Nat × Nat × Nat
  | .bank key => (0, 0, key)
  | .hbm die pa => (1, die, pa)
  | .sealed die pa _ => (1, die, pa)
  | .host die a => (2, die, a)
  | .ctl die off => (3, die, off)
  | .queue pkg off _ => (4, pkg, off)

/-- Two pieces share a byte, or may: of a page that no leaf translates only the offset is known. -/
def meets (x y : Option Place × Nat × Nat) : Bool :=
  match x.1, y.1 with
  | some p, some q => p.key.1 == q.key.1 && p.key.2.1 == q.key.2.1 && p.key.2.2 < q.key.2.2 + y.2.2 && q.key.2.2 < p.key.2.2 + x.2.2
  | _, _ => x.2.1 < y.2.1 + y.2.2 && y.2.1 < x.2.1 + x.2.2

/-- A request to global memory follows an older one of its context that reaches one of its bytes, by whatever address (R310). -/
def follows (s : State) (k : Nat) (r : Req) : Bool :=
  (olderReqs s k r).any fun x => !isLocal x.addr && (overlaps (rangeOf (coreOf k) x) (rangeOf (coreOf k) r) ||
    (reached s k x).any fun p => (reached s k r).any fun q => meets p q)

/-- The rows of a request's tile that have not passed the checks of R111 (R131, R132). -/
def tileRows (s : State) (k : Nat) (r : Req) : List Req :=
  match r.tile with
  | none => []
  | some t => (s.ctx k).reqs.filter fun x => x.tile == some t && !x.checked && !isLocal x.addr

/-- A request to global memory that its core has sent and its home has not yet performed or suspended. -/
def onItsWay (s : State) (k : Nat) (r : Req) : Bool :=
  r.state == .issued && !isLocal r.addr && inOrder s k r && !follows s k r && (tileRows s k r).all Req.live

/-- The requests of a core to one die are performed in the order of their issue, whatever context issued them (R365; log
entry 9). -/
def laterInFlow (s : State) (core : Nat) (r : Req) : Bool :=
  (upTo 5).any fun i => (s.ctx (8 * core + i)).reqs.any fun x =>
    x.seq < r.seq && vaDie x.addr == vaDie r.addr && onItsWay s (8 * core + i) x

/-- A request to global memory may be performed now (R114, R128, R310, R365, R398). -/
def mayPerform (s : State) (k : Nat) (r : Req) : Bool :=
  let core := coreOf k
  r.live && r.due ≤ s.cycle && inOrder s k r && !behindMerge s core r && !follows s k r && !laterInFlow s core r

/-! ## Who asks, and whom a slot serves -/

/-- What a context asks of banks. -/
def ctxAsks (s : State) (k : Nat) : List Ask :=
  let core := coreOf k
  (s.ctx k).reqs.flatMap fun r => if !isLocal r.addr then [] else
    (openParts core r).filterMap fun p =>
      if reqSlot core r p.2.bank = slotAt s.cycle ∧ partPresent s k r p.2 then
        some ⟨p.2.bank, slotAt s.cycle, core % 256, r.issued, core % 4, r.seq, r.state == .closed, .ctx k r.seq p.1⟩
      else none

/-- What the joint arrays ask of banks: operand fetch and drain rows (R294). -/
def matrixAsks (s : State) : List Ask :=
  let ask (cell core seq b : Nat) (w : Asker) : Ask := ⟨b, .matrix, cell % 64, 0, core % 4, seq, false, w⟩
  (s.cells.flatMap fun p => p.2.ops.flatMap fun o =>
    let l := bankNeeds s o
    let lead := o.leader.core
    ((upTo l.length).zip l).map fun x => ask p.1 lead (1024 * (lead % 4) + x.1) (bankAt lead x.2.2.2.1) (.fetch lead x.2.1 x.2.2.1)) ++
  s.cores.flatMap fun p => (drainNeeds s p.1).map fun x => ask (p.1 / 4) p.1 (4096 + p.1 % 4) (bankAt p.1 x.2.2.1) (.drain p.1 x.1)

/-- The slot and the index of an engine's access at a bank, and the cycles of its way there (R294, R298, R300): a vector
sequencer stands at its cell's core 0; the matrix sequencer reads in the class of operand fetch (log entry 80). -/
def engineSlot (q b : Nat) : Slot × Nat × Nat :=
  let cell := q / 64
  match queueEngine q with
  | .copy => (.copy, cell % 16, 0)
  | .mat => (.matrix, cell % 64, 0)
  | .vec => if b / 64 = cell then (.wide, 0, 0) else (.others, 4 * cell % 256, crossing (4 * cell) (b / 16))

/-- What a queue's head chain asks of a bank. -/
def engineAsks (s : State) (q : Nat) : List Ask :=
  match (s.queue q).chains with
  | [] => []
  | ch :: _ => match ch.io with
    | none => []
    | some io => match ioNeeds s ch io with
      | [] => []
      | (off, a, _) :: _ =>
        let b := bankAt (coreOf ch.owner) a
        let (slot, index, way) := engineSlot q b
        if isLocal a ∧ slot = slotAt s.cycle ∧ io.since + way + 1 ≤ s.cycle then
          [⟨b, slot, index, io.since, 4, ch.seq, false, .engine q off⟩] else []

/-- Every request present at a bank whose slot comes in this cycle; a bank that has performed an access in this cycle
performs no other (R294). -/
def asks (s : State) : List Ask :=
  (s.ctxs.flatMap (fun p => ctxAsks s p.1) ++ s.queues.flatMap (fun p => engineAsks s p.1) ++ (if slotAt s.cycle = .matrix then matrixAsks s else [])).filter
    fun a => (s.turn a.bank).served ≤ s.cycle

/-- The pointer that a slot keeps, and its parties in a pavilion (R298). -/
def pointerOf (t : Turn) : Slot → Nat × Nat
  | .others => (t.core, 256)
  | .matrix => (t.cell, 64)
  | .copy => (t.bay, 16)
  | _ => (0, 1)

/-- Distance of an index from a pointer, going round. -/
def fromPointer (p : Nat × Nat) (i : Nat) : Nat := (i + p.2 - p.1 % p.2) % p.2

/-- Slot x comes before y: at slot 1 by age, then core in cell, the sequencer last (R294); elsewhere by the pointer (R298);
the requests of one party in the order of their issue (log entry 77). -/
def askBefore (t : Turn) (x y : Ask) : Bool :=
  match x.slot with
  | .wide => x.since < y.since || (x.since == y.since && (x.lane < y.lane || (x.lane == y.lane && x.seq < y.seq)))
  | sl =>
    let p := pointerOf t sl
    fromPointer p x.index < fromPointer p y.index || (fromPointer p x.index == fromPointer p y.index && x.seq < y.seq)

/-- The request that a bank serves in this cycle. -/
def chosenAt (s : State) (b : Nat) : Option Ask :=
  ((asks s).filter fun a => a.bank == b).foldl (fun (m : Option Ask) a => match m with
    | none => some a
    | some x => if askBefore (s.turn b) a x then some a else m) none

/-- A bank's slot has been used: the pointer moves to one past the party served (R298). -/
def useTurn (s : State) (a : Ask) : State :=
  s.modTurn a.bank fun t =>
    let next := (a.index + 1) % (pointerOf t a.slot).2
    match a.slot with
    | .others => { t with served := s.cycle + 1, core := next }
    | .matrix => { t with served := s.cycle + 1, cell := next }
    | .copy => { t with served := s.cycle + 1, bay := next }
    | _ => { t with served := s.cycle + 1 }

/-! ## Performing -/

/-- Cycles from performing to landing: 3 at slot 1 (R297), the crossing at slot 2 (R300). -/
def slotLatency (core b : Nat) : Slot → Nat
  | .wide => 3
  | .others => crossing core (b / 16)
  | _ => 0

/-- The part of an access. -/
def partAcc (acc : Access) (p : Piece) : Access :=
  match acc with | .read _ => .read p.n | .write _ v => .write p.n (v >>> (8 * p.start)) | x => x

/-- A FILL's access, register by register (R133): each value, or its poison. -/
def performRegs (k : Nat) (r : Req) (d : SReg) (n : Nat) (s : State) : State :=
  let core := coreOf k
  if (s.bank (localKey core r.addr / 8192)).closing.isSome then afterOwn k r .closed s else
  let one (i : Nat) : Perf :=
    (bankPerf core (r.addr + BitVec.ofNat 64 (8 * i)) (.read 8) (.reg 0 8 true) r.ord false true (.ctx k r.seq) s).1
  let got (i : Nat) : Word × Option Poison :=
    match one i with
    | .done _ v _ => (BitVec.ofNat 64 v, none)
    | .failed t => (0, some ⟨t.cause, t.addr⟩)
    | .poisoned u _ => (0, some ⟨causeEcc, u⟩)
    | _ => (0, some ⟨causeEcc, r.addr + BitVec.ofNat 64 (8 * i)⟩)
  let awaited := awaits (s.ctx k) r.seq
  (upTo n).foldl (fun s i =>
    let reg := d + BitVec.ofNat 5 i
    let (v, bad) := got i
    if awaited then s.modCtx k (giveFixed r.seq [(reg, v)] bad)
    else queueLanding k { Landing.empty with regs := [(reg, v)], poison := bad, due := s.cycle + r.issued % 4, firm := true } s)
    (endReq k r s)

/-- A part of a request that spans two banks is performed (R295): the request is over with its last part. -/
def afterPart (k : Nat) (r : Req) (i : Nat) (p : Piece) (lat : Nat) (x : Perf) (s : State) : State :=
  let step (v : Nat) (bad : Option Word) : State :=
    let r' := { r with did := r.did ||| BitVec.ofNat 2 (2 ^ i), got := r.got + v * 2 ^ (8 * p.start), bad := r.bad <|> bad, land := max r.land (s.cycle + lat) }
    if r'.did = 3 then afterPerf k r' (r'.land - s.cycle) true (match r'.bad with | some u => .poisoned u false | none => .done 0 r'.got 0) s
    else setReq k r.seq (fun _ => some r') s
  match x with
  | .done _ v _ => step v none
  | .poisoned u false => step 0 (some u)
  | x => afterPerf k r lat true x s

/-- A context's request performed, in one part, at a slot of a bank. -/
def performReq (k : Nat) (r : Req) (i : Nat) (p : Piece) (sl : Slot) (s : State) : State :=
  let core := coreOf k
  if let some op := listFor s k r then performList k r op i p s else
  match sl, r.acc, r.dest with
  | .own, .guise mode new, _ => guisePerform k r mode new s
  | .own, .read _, .regs d n => performRegs k r d n s
  | _, _, _ =>
    let (x, s) := bankPerf core (r.addr + BitVec.ofNat 64 p.start) (partAcc r.acc p) r.dest r.ord (isRowReq r) r.plain (.ctx k r.seq) s
    let lat := slotLatency core p.bank sl
    if sl = .own then afterOwn k r x s
    else if p.n = r.acc.bytes then afterPerf k r lat true x s
    else afterPart k r i p lat x s

/-- The access of an asker performed. -/
def serve (a : Ask) (s : State) : State :=
  match a.who with
  | .ctx k q i =>
    match (s.ctx k).reqs.find? fun r => r.seq = q with
    | none => s
    | some r =>
      match (openParts (coreOf k) r).find? fun p => p.1 = i with
      | none => s
      | some p => performReq k r i p.2 a.slot s
  | .fetch lead part off => performFetch lead part off s
  | .drain core i => performDrain core i s
  | .engine q off =>
    let lat : Nat := match a.slot with | .wide => 3 | .others => (engineSlot q a.bank).2.2 | _ => 0
    performIo q off lat s

/-- BANK_ACCESS (R299), or CLOSED_REPLAY (R148) where the access was replayed: the bank performs the access of this
cycle's slot. -/
def effBankSlot (replay : Bool) (core bank : Nat) (s : State) : State :=
  match chosenAt s (16 * core + bank % 16) with
  | none => s
  | some a => if a.replay = replay then serve a (useTurn s a) else s

/-- The bank accesses of this cycle, as events. -/
def slotEvents (s : State) : List Instr :=
  (asks s).map fun a => if a.replay then .closedReplay (a.bank / 16) (a.bank % 16) else .bankAccess (a.bank / 16) (a.bank % 16)

end Sys2Proof.Machine
end

