-- ==== Sys2Proof/Machine/Events.lean ====
section
/-! DEFINITION. Events of contexts: landings (R27, R65), accesses performed at banks and homes (R114, R299, R310, R355),
SC windows (R128, R366), acknowledgements (R122, R280), deadlines (R126, R288, R374, R426) and exits (R327). An event
whose condition does not hold changes nothing (log entry 12). -/

namespace Sys2Proof.Machine

/-! ## Landings -/

/-- A list without its element i. -/
def dropAt {α : Type} (i : Nat) (l : List α) : List α := l.take i ++ l.drop (i + 1)

/-- VALUE_LAND (R27): landing `idx` of a context's list lands once it is due. -/
def effValueLand (k idx : Nat) (s : State) : State :=
  match (s.ctx k).landings[idx]? with
  | some l =>
    if l.due ≤ s.cycle then applyLanding k l (s.modCtx k fun c => { c with landings := dropAt idx c.landings }) else s
  | none => s

/-- The place of the fixed-latency result that lands next: the earliest, and of those the oldest (R64); one that waits for
its bank's slot has no value yet. -/
def nextFixed (l : List Fixed) (now : Nat) : Option Nat :=
  let due := ((upTo l.length).zip l).filter fun p => p.2.due ≤ now && p.2.of.isNone
  (due.foldl (fun (m : Option (Nat × Fixed)) p =>
    match m with | some x => if p.2.due < x.2.due then some p else m | none => some p) none).map (·.1)

/-- A fixed-latency result in its register, or its poison (R30). -/
def landFixed (f : Fixed) (c : Ctx) : Ctx :=
  match f.bad with
  | none => { c.setS f.reg f.value with poison := drop f.reg.toNat c.poison }
  | some p => { c with poison := if f.reg = 0 then c.poison else put f.reg.toNat p c.poison }

/-- FIXED_RESULT_LAND (R65): a context's next fixed-latency result lands at its cycle. -/
def effFixedLand (k : Nat) (s : State) : State :=
  let c := s.ctx k
  match nextFixed c.fixed s.cycle with
  | none => s
  | some i =>
    match c.fixed[i]? with
    | none => s
    | some f =>
      let s := s.modCtx k fun c => { landFixed f c with fixed := dropAt i c.fixed }
      if f.pends then wakeWfi k (s.modCtx k fun c => c.setPend f.reg false) else s

/-! ## Global requests -/

/-- Cycles from performing to landing of a global access: the least of R304's nominal figures, less the cycle in which it
is performed (log entry 22). -/
def nominalLatency (s : State) (ag : Agent) (ea : Word) : Nat :=
  let die := vaDie ea
  let path : Nat := if die = dieOf ag.core then 104 else if die / 4 = pkgOf ag.core then 224 else 2099
  match translate s ag ea kindRead with
  | .ok (.host .., _) => max path 4499
  | .ok (_, e) => if pteSeal e.leaf then path + 12 else path
  | .error _ => path

/-- A row of a request's tile that does not pass step 5 of R111, as its address, subcause and request: while one does
not, no row moves. -/
def tileFault (s : State) (k : Nat) (r : Req) : Option (Word × Nat × Nat) :=
  if r.checked then none else
  (tileRows s k r).findSome? fun x =>
    (pagePieces x.addr x.acc.bytes).findSome? fun p => match translate s (agentOf s k x.user) p.1 x.acc.kind with
      | .error sub => some (p.1, sub, x.seq)
      | .ok _ => none

/-- Every row of a request's tile has passed the checks. -/
def checkTile (k : Nat) (r : Req) (s : State) : State :=
  if r.tile.isNone then s else
  s.modCtx k fun c => { c with reqs := c.reqs.map fun x => if x.tile = r.tile then { x with checked := true } else x }

/-- A row of a tile faults: its request is suspended, and the tile with it. -/
def suspendTile (k q : Nat) (va : Word) (sub : Nat) (s : State) : State :=
  match (s.ctx k).reqs.find? fun x => x.seq = q with
  | none => s
  | some x =>
    if !x.live then s else
    let ag := agentOf s k x.user
    let (num, s) := recordFault ag va x.acc.kind sub (dropLeaf ag va s)
    setReq k q (fun x => some { x with state := .suspended (vaDie va) num }) s

/-- A request whose fault was answered as a failure; a row's failure is its whole tile's (R131). -/
def failTile (k : Nat) (r : Req) (t : TrapInfo) (s : State) : State :=
  let l := (tileRows s k r).filter fun x => x.seq != r.seq
  (r :: l).foldl (fun s x => afterPerf k x 0 false (.failed t) s) s

/-- GLOBAL_REQUEST (R355): request `idx` of a context is translated and checked at its die, and performed. -/
def effGlobalRequest (k idx : Nat) (s : State) : State :=
  match (s.ctx k).reqs[idx]? with
  | none => s
  | some r =>
    match r.state with
    | .failed t => failTile k r t s
    | _ =>
      if isLocal r.addr || !mayPerform s k r || (tileRows s k r).any (fun x => !x.live) then s else
      match tileFault s k r with
      | some (va, sub, q) => suspendTile k q va sub s
      | none =>
        let s := checkTile k r s
        let ag := agentOf s k r.user
        let lat := nominalLatency s ag r.addr
        let (p, s) := globalAccess ag r.addr r.acc (.ctx k r.seq) s
        afterPerf k r lat false p s

/-- SC_WINDOW_DELIVERY (R366): the earliest window whose delivery cycle has come is delivered to the package. -/
def effScDelivery (pkg : Nat) (s : State) : State :=
  -- 16 w + 64 is the first cycle of window w + 4
  let age (a : Announce) : Int := (windowNow s pkg - a.window).toInt
  let l := s.announces.filter fun a => pkgOf a.core == pkg && !a.delivered && 4 ≤ age a
  match l with
  | [] => s
  | a :: r =>
    let w := (r.foldl (fun m x => if age m < age x then x else m) a).window
    { s with announces := s.announces.map fun x => if pkgOf x.core = pkg ∧ x.window = w then { x with delivered := true } else x }

/-- ACKNOWLEDGEMENT_ARRIVAL (R122, R280): the oldest acknowledgement of a context that is due brings its flags or its
failure. The oldest unreported failure is kept. -/
def effAckArrive (k : Nat) (s : State) : State :=
  match (s.ctx k).acks.find? fun a => a.due ≤ s.cycle with
  | none => s
  | some a =>
    let s := s.modCtx k fun c => { c with
      acks := c.acks.erase a, failure := c.failure <|> a.fail
      failedAt := if c.failure.isNone ∧ a.fail.isSome then s.cycle else c.failedAt }
    if a.flags = 0 then s else raise k a.flags s

/-! ## Deadlines -/

/-- The registrations of every registry. -/
def allRegistered (s : State) : List Registered := s.banks.flatMap (·.2.waiters) ++ s.dies.flatMap (·.2.waiters)

/-- WAITW_TIMEOUT (R126): the deadline of a context's registered WAITW has passed. -/
def effWaitwTimeout (k : Nat) (s : State) : State :=
  let due (r : Registered) : Bool := r.deadline != 0 && r.deadline.toNat ≤ dialOf s k && r.of k
  match (allRegistered s).find? due with
  | some r => wake none r 5 (unregister (fun x => x.who == r.who) s)
  | none => s

/-- WAITT_EXPIRE (R374): the timed action of a context or of an engine queue is due. -/
def effWaittExpire (who : Timed) (s : State) : State :=
  match who with
  | .ctx k => match (s.ctx k).park with | .waitt _ => settle k s | _ => s
  | .queue q => effChainExpire q s

/-- WFI_DEADLINE (R288). -/
def effWfiDeadline (k : Nat) (s : State) : State := match (s.ctx k).park with | .wfi _ => settle k s | _ => s

/-- CWAIT of a context's launch (R318). -/
def cwaitOf (s : State) (k : Nat) : Nat :=
  match (s.ctx k).launch.bind (find? s.launches) with | some l => (vget l.w 22).toNat | none => 0

/-- What an NRED round or `rendez sd` will land in a register of a context: xsub and xaddr of TIMEOUT (R426). -/
def treeReg (s : State) (k : Nat) (r : SReg) : Option (Nat × Nat) :=
  match s.rounds.find? fun x => x.parts.any fun p => p.ctx == k && r != 0 && (destNames p.dest).contains r with
  | some x => some (2, domCode x.dom)
  | none =>
    if ((s.ctx k).fork.toList ++ (s.ctx k).oldForks).any fun f => f.waiting.any fun p => p.1 == r then some (3, 0) else none

/-- The same for a row. -/
def treeRow (s : State) (k key : Nat) : Option (Nat × Nat) :=
  (s.rounds.find? fun x => x.parts.any fun p => p.ctx == k && (destRows p.dest).contains key).map fun x => (2, domCode x.dom)

/-- The first register or row of an instruction that a round or a meeting will land. -/
def treeWait (s : State) (k : Nat) (n : Info) : Option (Nat × Nat) :=
  let c := s.ctx k
  (n.src ++ n.dst).findSome? (treeReg s k) <|> (keysOf s k c n.rsrc ++ keysOf s k c n.rdst).findSome? (treeRow s k)

/-- What the oldest closure that waits on such a register waits for (R426); a source captured by value it has already. -/
def treeClosure (s : State) (k : Nat) : Option (Nat × Nat) :=
  let c := s.ctx k
  if c.h || !c.mode.getLsbD 1 then none else
  let open_ (cl : Closure) : Info := { cl.info with src := cl.info.src.filter cl.byName.contains }
  (oldest (fun cl => (treeWait s k (open_ cl)).isSome) c.tray).bind fun cl => treeWait s k (open_ cl)

/-- xsub and xaddr of the TIMEOUT of a park that CWAIT limits (R426). -/
def timeoutOf (s : State) (k : Nat) : Option (Nat × Nat) :=
  let c := s.ctx k
  match c.park with
  | .barPhase dom _ => some (1, domCode dom)
  | .barPrevious dom => some (1, domCode dom)
  | .team dom _ _ => some (1, domCode dom)
  | .nred dom => some (2, domCode dom)
  | .rendez _ => some (3, 0)
  | .reissue =>
    (match parkedBundle s k with
      | some x => treeWait s k (infoIn c x.a) <|> (if guardOpen x.b c then treeWait s k (infoIn c x.b) else none)
      | none => none) <|> treeClosure s k
  | _ => treeClosure s k

/-- CWAIT_TIMEOUT (R426): the park has lasted longer than CWAIT and what it awaits has not come: TIMEOUT at the parked
bundle, and the barrier domain keeps its mark. -/
def effCwaitTimeout (k : Nat) (s : State) : State :=
  let c := s.ctx k
  let w := cwaitOf s k
  if c.status ≠ .parked ∨ w = 0 ∨ dialOf s k < c.parkAt + w ∨ c.running.isSome then s else
  if parkOver s k c.park ∨ (c.park.again ∧ (parksFor s k).isNone) then s else
  match timeoutOf s k with
  | none => s
  | some (sub, addr) =>
    let mark (dom : Domain) (p : Nat) (s : State) : State := s.modCtx k fun c => c.setBar dom fun b => { b with timedOut := some p }
    let s := match c.park with
      | .barPhase dom p => mark dom p s
      | .team dom p _ => mark dom p s
      | _ => s
    takeTrap (trapOf causeTimeout sub (BitVec.ofNat 64 addr)) k s

/-! ## Exit (R327) -/

/-- A context's chains in any queue. -/
def ownsChain (s : State) (k : Nat) : Bool := s.queues.any fun p => p.2.chains.any fun ch => ch.owner == k

/-- The waits of an exit are over (R327): tray, tokens, dispatch and port entries, acknowledgements, results in flight. -/
def exitReady (s : State) (k : Nat) : Bool :=
  let c := s.ctx k
  let x := s.core (coreOf k)
  let drains : Bool := x.drains.any fun d => match d.by_ with | .ctx j _ => j == k | .queue _ => false
  c.tray.isEmpty && c.running.isNone && !ownsChain s k && !x.queue.any (fun d => d.ctx == k) && !x.ports.any (fun m => m.ctx == k) &&
  !unflushed c && c.landings.isEmpty && c.fixed.isEmpty && !drains

/-- A failure that no instruction reported goes to the launch's record (R280, R329). -/
def leaveFailure (k : Nat) (s : State) : State :=
  match (s.ctx k).failure, (s.ctx k).launch with
  | some t, some l => s.modLaunch l (Launch.fails (some (t.cause, t.sub)) (s.ctx k).failedAt)
  | _, _ => s

/-- CONTEXT_EXIT (R327). -/
def effContextExit (k : Nat) (s : State) : State :=
  let c := s.ctx k
  if !c.exiting || c.status ≠ .parked || !exitReady s k then s else
  let d := departs k s
  let s := leaveFailure k s
  let s := returnWeight k c.wgt.toNat s
  let s := unregister (·.mine k c) (leaveTeam k (releaseQuarter k s))
  let s := giveUp k (s.modCtx k fun c => { departAll s.cycle c with
    status := .idle, park := .none, wgt := 0, left := .exited, exiting := false, failure := none, backlog := [] })
  let s := match c.launch with
    | some l => s.modLaunch l fun x => { x with exited := x.exited + 1 }
    | none => s
  if d then breakGang 5 (coreOf k) s else s

end Sys2Proof.Machine
end

