-- ==== Sys2Proof/Machine/Placing.lean ====
section
/-! DEFINITION. Launch records (R318 to R321): their fields and checks, the order of the eligible records (R337), and the
search for a placement (R320, R322, R338, R341). -/

namespace Sys2Proof.Machine

/-! ## Fields of a record (R318) -/

/-- Word i of a record. -/
def recWord (w : Vector Word 32) (i : Nat) : Word := vget w i

/-- One level: extent, domain and scope codes (R320). A unit u of 1 or more has 4^(u - 1) cores; 0 is a context, 8 is sys. -/
structure Level where
  ext : Nat
  dom : Nat
  scope : Nat
  deriving DecidableEq, Repr

/-- The levels of a record, innermost first. -/
def levelsOf (w : Vector Word 32) : List Level :=
  (upTo (wf (recWord w 1) 10 8 + 1)).map fun n => let x := recWord w (2 + n); ⟨wf x 31 0, wf x 34 32, wf x 38 35⟩

/-- The members of a record (R320). -/
def extents (l : List Level) : Nat := (l.map (·.ext)).prod

/-- C, the general contexts per core (R320). -/
def perCore (w : Vector Word 32) : Nat :=
  match levelsOf w with | l :: _ => if l.dom = 0 then min l.ext 4 else 1 | [] => 1

def recTiles (w : Vector Word 32) : Nat := wf (recWord w 10) 11 7
def recHtiles (w : Vector Word 32) : Nat := wf (recWord w 10) 6 3
def recPlates (w : Vector Word 32) : Nat := wf (recWord w 10) 14 12
def recHnd (w : Vector Word 32) : Bool := (recWord w 10).getLsbD 15
def recBanks (w : Vector Word 32) : Nat := wf (recWord w 10) 31 16
def recCarve (w : Vector Word 32) : Nat := wf (recWord w 10) 45 32
def recCbank (w : Vector Word 32) : Nat := wf (recWord w 10) 49 46
def recMode (w : Vector Word 32) : BitVec 7 := (recWord w 1).extractLsb' 12 7
def recNimg (w : Vector Word 32) : Nat := wf (recWord w 31) 23 16

/-- Tiles that a core of the launch must have (R322). -/
def tilesNeeded (w : Vector Word 32) : Nat := perCore w * recTiles w + (if recHnd w then recHtiles w else 0)

/-- The initial weight of a member (R318). -/
def memberWeight (w : Vector Word 32) : Nat :=
  let r := wf (recWord w 28) 62 0
  if r = 0 then 2 ^ 62 / extents (levelsOf w) else r

/-! ## The checks of R319 -/

/-- Cores in a unit of 1 or more (R3). -/
def unitCores (u : Nat) : Nat := 4 ^ (u - 1)

/-- Instances of a domain in one instance of a scope unit (R320). -/
def instCount (packages d u : Nat) : Nat :=
  let cores := if u = 8 then 4096 * packages else unitCores u
  if d = 0 then 4 * cores else cores / unitCores d

/-- A level stands alone under R320. -/
def levelOk (packages : Nat) (l : Level) : Bool := 1 ≤ l.ext && l.scope ≤ 8 && l.dom < l.scope && l.ext ≤ instCount packages l.dom l.scope

/-- The levels meet R320, from the innermost. -/
def levelsOk (packages : Nat) : List Level → Bool
  | [] => true
  | [l] => levelOk packages l
  | l :: m :: r => levelOk packages l && l.scope ≤ m.dom && l.dom < m.dom && levelsOk packages (m :: r)

/-- The outermost level has scope sys. -/
def sysRecord (w : Vector Word 32) : Bool := (levelsOf w).any fun l => l.scope == 8

/-- The carve-outs of a core fit and lie in BANKS (R319 XSUB 2). -/
def carveOk (w : Vector Word 32) : Bool :=
  let n := (perCore w + (if recHnd w then 1 else 0)) * recCarve w
  let first := 8192 * recCbank w
  recCarve w % 8 == 0 && (n == 0 || (first + n ≤ 8192 * 16 &&
    (upTo 16).all fun b => b < recCbank w || (first + n - 1) / 8192 < b || (recBanks w).testBit b))

/-- The fields marked 0 are zero and the addresses aligned (R318, R319 XSUB 7, R325). -/
def fieldsOk (w : Vector Word 32) : Bool :=
  let x (i : Nat) : Nat := (recWord w i).toNat
  wf (recWord w 1) 63 19 == 0 && wf (recWord w 1) 12 11 == 0 &&
  ((upTo 8).all fun n => if n ≤ wf (recWord w 1) 10 8 then x (2 + n) < 2 ^ 39 else x (2 + n) == 0) &&
  wf (recWord w 10) 63 50 == 0 && wf (recWord w 10) 2 0 == 0 && x 28 < 2 ^ 63 && wf (recWord w 31) 63 25 == 0 &&
  x 23 % 8 == 0 && x 25 % 8 == 0 && x 27 % 16 == 0 && x 29 % 8 == 0 && x 30 % 32 == 0 &&
  (upTo 8).all fun i => wf (recWord w (13 + i)) 63 57 != 0x7D || wf (recWord w (13 + i)) 56 17 == 0

/-- The XSUB of a record that is refused for what stands in it (R319, R400); none when its image list decides. -/
def recordSub (packages : Nat) (driver : Bool) (w : Vector Word 32) : Option Nat :=
  let lv := levelsOf w
  let checks : List (Nat × Bool) := [
    (1, levelsOk packages lv && (!sysRecord w || recWord w 21 != 0)),
    (2, tilesNeeded w ≤ 16 && perCore w * recPlates w ≤ 4 && (!recHnd w || (recWord w 12 != 0 && (recWord w 12).toNat % 8 == 0)) && carveOk w),
    (3, wf (recWord w 0) 63 57 == 0 && (recWord w 0).toNat % 8 == 0),
    (4, extents lv * wf (recWord w 28) 62 0 ≤ 2 ^ 62),
    (6, driver || !((recWord w 1).getLsbD 18 || (recWord w 31).getLsbD 24)),
    (7, fieldsOk w)]
  (checks.find? fun p => !p.2).map (·.1)

/-! ## The image list (R326) -/

def imgMember (e : Vector Word 4) : Nat := wf (vget e 1) 63 32
def imgBank (e : Vector Word 4) : Nat := wf (vget e 1) 31 28
def imgLen (e : Vector Word 4) : Nat := wf (vget e 1) 27 14
def imgOff (e : Vector Word 4) : Nat := wf (vget e 1) 12 0

/-- An entry breaks R326, but for the KEEP checks, which need the image. -/
def entryBad (w : Vector Word 32) (e : Vector Word 4) : Bool :=
  !((imgMember e == 0xFFFFFFFF || imgMember e < extents (levelsOf w)) && imgOff e + imgLen e ≤ 8192 &&
    (recBanks w).testBit (imgBank e) && descValid (guiseDesc (vget e 2)) (imgBank e) && vget e 3 == 0)

/-! ## Sorting -/

/-- An element put before the first that it precedes. -/
def insertBy {α : Type} (lt : α → α → Bool) (x : α) : List α → List α
  | [] => [x]
  | y :: r => if lt x y then x :: y :: r else y :: insertBy lt x r

/-- A list sorted; equal elements keep their order. -/
def sortBy {α : Type} (lt : α → α → Bool) (l : List α) : List α := l.foldl (fun r x => insertBy lt x r) []

/-! ## What is free -/

/-- What a placement may use: cores that no launch holds, cores that may run a member, and the rank of a bay (R341). -/
structure Avail where
  free : Nat → Bool
  member : Nat → Bool
  rank : Nat → Nat

/-- A core's die and package are in use. -/
def liveCore (s : State) (c : Nat) : Bool :=
  !(s.die (dieOf c)).failed && !(s.pkg (pkgOf c)).lost && !(s.pkg (pkgOf c)).bootStopped

/-- A saved launch keeps the plates of a core (R217). -/
def platesKept (s : State) (c : Nat) : Bool :=
  s.launches.any fun p => p.2.saved.isSome && recPlates p.2.w != 0 && p.2.live.contains c

/-- A core may run a member of a record (R322): enough tiles, and free plates where it needs any. -/
def memberCore (s : State) (w : Vector Word 32) (c : Nat) : Bool :=
  let n := (s.core c).ntile.toNat
  n != 0 && tilesNeeded w ≤ n && (recPlates w == 0 || !platesKept s c)

/-- The classes of the launches that hold cores of a bay. -/
def bayClasses (s : State) (bay : Nat) : List (Option Bool) :=
  (s.launches.filter fun p => [Phase.started, .placed, .imageFault, .failing].contains p.2.phase && p.2.live.any fun c => c / 16 == bay).map (·.2.cls)

/-- The rank of a bay for a class (R341): an unclassified launch takes classed bays alike. -/
def bayRank (s : State) (cls : Option Bool) (bay : Nat) : Nat :=
  let l := bayClasses s bay
  match cls with
  | some c => if l.contains (some (!c)) then 0 else if l = [] then 1 else if l.contains none then 2 else 3
  | none => if l.any (·.isSome) then 0 else if l = [] then 1 else 2

/-! ## The search (R320, R322) -/

/-- The instances of a unit in a run of cores, by first core. -/
def unitsIn (u start n : Nat) : List Nat := (upTo (n / unitCores u)).map fun i => start + i * unitCores u

/-- Members in the order of g, and every core used. -/
structure Placement where
  members : List Nat
  cores : List Nat
  deriving DecidableEq, Repr

/-- The ranks of the bays in which a placement uses cores, added up (R341; log entry 99). -/
def Placement.rank (v : Avail) (p : Placement) : Nat := ((p.cores.map (· / 16)).dedup.map v.rank).sum

/-- Placements in the order of preference: by rank, then by first core (R341). -/
def preferred (v : Avail) (l : List (Nat × Placement)) : List (Nat × Placement) := sortBy (fun a b => a.2.rank v < b.2.rank v) l

/-- Placements of distinct instances put together in coreid order; none when there are too few. -/
def gather (n : Nat) (l : List (Nat × Placement)) : Option Placement :=
  let l := sortBy (fun (a b : Nat × Placement) => a.1 < b.1) (l.take n)
  if l.length < n then none else some ⟨l.flatMap (·.2.members), l.flatMap (·.2.cores)⟩

/-- The innermost level in one instance of its scope unit. -/
def placeInner (v : Avail) (l : Level) (start n : Nat) : Option Placement :=
  if l.dom = 0 then
    let k := (l.ext + 3) / 4
    let cs := sortBy (fun a b => v.rank (a / 16) < v.rank (b / 16)) ((unitsIn 1 start n).filter fun c => v.free c && v.member c)
    let cs := sortBy (fun a b => decide (a < b)) (cs.take k)
    if cs.length < k then none else some ⟨(upTo l.ext).map fun i => 8 * nth cs (i / 4) + i % 4, cs⟩
  else
    let size := unitCores l.dom
    let one (d : Nat) : Option (Nat × Placement) :=
      let cs := (upTo size).map (d + ·)
      if cs.all v.free then (cs.find? v.member).map fun c => (d, ⟨[8 * c], cs⟩) else none
    gather l.ext (preferred v ((unitsIn l.dom start n).filterMap one))

/-- Levels, outermost first, placed in a run of cores (R320). -/
def placeIn (v : Avail) : List Level → Nat → Nat → Option Placement
  | [], _, _ => none
  | [l], start, n => best ((unitsIn l.scope start n).filterMap fun a => (placeInner v l a (unitCores l.scope)).map fun p => (a, p))
  | l :: m :: r, start, n => best ((unitsIn l.scope start n).filterMap fun a =>
      (gather l.ext (preferred v ((unitsIn l.dom a (unitCores l.scope)).filterMap fun d =>
        (placeIn v (m :: r) d (unitCores l.dom)).map fun p => (d, p)))).map fun p => (a, p))
where
  best (l : List (Nat × Placement)) : Option Placement := (preferred v l).head?.map (·.2)

/-- The indices of a level of scope sys that one package holds. -/
def perPackage (l : Level) : Nat := if l.dom = 7 then 1 else instCount 1 l.dom 7

/-- The share of a level of scope sys that the n-th of the packages it spans holds (R400). -/
def shareLevel (n : Nat) (l : Level) : Level :=
  if l.scope = 8 then ⟨min (perPackage l) (l.ext - n * perPackage l), l.dom, 7⟩ else l

/-- The levels of that package, outermost first. A level of packages stands in its package alone. -/
def shareLevels (n : Nat) (w : Vector Word 32) : List Level := ((levelsOf w).map (shareLevel n)).reverse

/-- The packages that hold a share of a launch's record. -/
def sharePkgs (s : State) (l : Launch) : List Nat := ((s.launches.filter fun p => sameRecord l p.2).map (·.2.pkg)).dedup

/-- A package's place among those to which the record was posted, in increasing number (R400). -/
def shareIndex (s : State) (l : Launch) : Nat := ((sharePkgs s l).filter (· < l.pkg)).length

/-- Every package that the record spans has read it, or START has come: the record is not placed before (R400; log entry 100). -/
def sharesKnown (s : State) (l : Launch) : Bool :=
  match (levelsOf l.w).reverse with
  | x :: _ => x.scope != 8 || (x.ext + perPackage x - 1) / perPackage x ≤ (sharePkgs s l).length || (recWord l.w 21).toNat ≤ dial s (4 * l.pkg)
  | [] => true

/-- A record's share placed on a package. -/
def placeShare (v : Avail) (pkg : Nat) (lv : List Level) : Option Placement :=
  match lv with
  | [] => none
  | l :: r =>
    if l.ext = 0 then none
    else if l.dom = 7 then
      -- one package: the inner levels, or one member on it
      match r with
      | [] => placeInner v ⟨1, 7, 7⟩ (4096 * pkg) 4096
      | _ => placeIn v r (4096 * pkg) 4096
    else placeIn v lv (4096 * pkg) 4096

/-- The flat index of the first member of the n-th share (R321, R400). -/
def shareBase (n : Nat) (w : Vector Word 32) : Nat :=
  match (levelsOf w).reverse with
  | l :: r => if l.scope = 8 then n * perPackage l * extents r else 0
  | [] => 0

/-! ## The order of records (R337) -/

/-- An eligible or saved record stands before another. -/
def before (a b : Nat × Launch) : Bool :=
  b.2.prio < a.2.prio || (a.2.prio == b.2.prio && (a.2.age < b.2.age || (a.2.age == b.2.age && a.2.queue < b.2.queue)))

/-- The records that wait on a package, in the order of R337. -/
def waitingOn (s : State) (pkg : Nat) : List (Nat × Launch) :=
  sortBy before (s.launches.filter fun p => p.2.pkg == pkg && (p.2.phase == .eligible || p.2.phase == .saved))

/-! ## Fitting (R338, R339) -/

/-- The die's cores as if it ran nothing, and no others. -/
def onlyDie (s : State) (w : Vector Word 32) (d : Nat) : Avail :=
  { free := fun c => dieOf c == d && liveCore s c
    member := fun c => (s.core c).ntile.toNat != 0 && decide (tilesNeeded w ≤ (s.core c).ntile.toNat)
    rank := fun _ => 0 }

/-- A record could use a die (R338). -/
def couldUse (s : State) (l : Launch) (d : Nat) : Bool :=
  if l.phase = .saved then l.live.any fun c => dieOf c == d
  else d / 4 == l.pkg && match shareLevels (shareIndex s l) l.w with
    | [] => false
    | t :: r => t.dom == 7 || (placeShare (onlyDie s l.w d) l.pkg ((if t.scope = 7 then { t with ext := 1 } else t) :: r)).isSome

/-- A reservation keeps a launch off a die (R338). -/
def reservedFrom (s : State) (id : Nat) (l : Launch) (d : Nat) : Bool :=
  (s.pkg l.pkg).reserved.any fun r => r != id && (match find? s.launches r with
    | some x => (x.phase == .eligible || x.phase == .saved) && l.prio ≤ x.prio && couldUse s x d
    | none => false)

/-- A stored class (R340), which becomes the most recent. -/
def classOf (s : State) (l : Launch) : Option ClassEntry :=
  (s.pkg l.pkg).classes.find? fun e => e.asid == l.asid && e.code == recWord l.w 0

/-- What is available to a record, were the cores of some launches given up. -/
def availTo (s : State) (id : Nat) (l : Launch) (given : List Nat) : Avail :=
  let dies := (upTo 4).map fun i => 4 * l.pkg + i
  let shut := dies.filter (reservedFrom s id l)
  { free := fun c => liveCore s c && !shut.contains (dieOf c) &&
      (match (s.core c).launch with | none => true | some x => given.contains x)
    member := fun c => memberCore s l.w c && (recPlates l.w == 0 || !(s.launches.any fun p => given.contains p.1 && recPlates p.2.w != 0 && p.2.live.contains c))
    rank := bayRank s (l.cls <|> (classOf s l).map (·.compute)) }

/-- START keeps a record from being placed (R339). -/
def startsLater (s : State) (l : Launch) : Bool :=
  let t := (recWord l.w 21).toNat
  t != 0 && dial s (4 * l.pkg) + 100000 < t

/-- Where a record goes, were the cores of some launches given up: a saved launch goes back to its cores (R302, R345). -/
def placementOf (s : State) (id : Nat) (l : Launch) (given : List Nat) : Option Placement :=
  let v := availTo s id l given
  if l.phase = .saved then (if l.live.all v.free then some ⟨l.members, l.cores⟩ else none)
  else if startsLater s l || !sharesKnown s l then none
  else placeShare v l.pkg (shareLevels (shareIndex s l) l.w)

end Sys2Proof.Machine
end

