-- ==== Sys2Proof/Machine/Launching.lean ====
section
/-! DEFINITION. Launches: host work queues (R334 to R336), choosing and placing (R337 to R341), members at their start
(R323 to R326), pre-emption (R342 to R346), release and the completion record (R328, R329), and kills by the host (R281). -/

namespace Sys2Proof.Machine

/-! ## Host work queues (R334, R335) -/

/-- The agent of the dispatcher's own reads: no context of the machine, so no user request (R355). -/
def dispatchAgent (pkg cls : Nat) (asid : BitVec 16) : Agent := ⟨4096 * pkg, 5, 0, cls, asid, false, false⟩

/-- How a read that writes no fault record ended, if not with bytes: it waits for a live path (R396), or fails. -/
inductive Unread where
  | waits | fails
  deriving DecidableEq, Repr

/-- A read that writes no fault record (R335): it fails when it faults or meets poison, and when it has found no live path for
2 ms (R396). -/
def quietPiece (ag : Agent) (a : Word) (n : Nat) (s : State) : Except Unread Nat × State :=
  if isLocal a ∨ (holeTrap s a).isSome then (.error .fails, s)
  else if noPath s ag.core (vaDie a) then
    (match pathWait ag a s with | (.failed _, s) => (.error .fails, s) | (_, s) => (.error .waits, s))
  else
  let s := pathFound ag s
  match translate s ag a kindRead with
  | .error _ => (.error .fails, dropLeaf ag a s)
  | .ok (.ctl .., _) | .ok (.queue .., _) => (.error .fails, s)
  | .ok (p, e) =>
    if placeBad s p n then (.error .fails, s) else
    let s := countLeaf (vaDie a) ag a p e (cache (vaDie a) ag.cls e s)
    (.ok (placeRead s p n), s)

/-- The same for a range. -/
def quietRead (ag : Agent) (a : Word) (n : Nat) (s : State) : Except Unread Nat × State :=
  (pagePieces a n).foldl (fun (r : Except Unread Nat × State) p => match r.1 with
    | .error _ => r
    | .ok x => let (y, s) := quietPiece ag p.1 p.2.2 r.2; (y.map fun y => x + y * 2 ^ (8 * p.2.1), s)) (.ok 0, s)

/-- A launch made from a record (R318, R336): its tenant is its queue's, its priority at most PMAX. -/
def newLaunch (pkg q : Nat) (x : Qcb) (addr : Word) (w : Vector Word 32) : Launch := {
  w := w, addr := addr, pkg := pkg, queue := q, tenant := x.tenant, asid := (recWord w 31).truncate 16
  prio := min (wf (recWord w 1) 7 0) x.pmax, age := 0, phase := .waiting, members := [], cores := [], released := []
  exited := 0, killed := 0, killCause := none, failure := none
  outstanding := (extents (levelsOf w) * memberWeight w : Nat), phaseEnded := false, returns := [], phaseWrite := .issued
  phaseOwed := false, ops := 0, bytes := 0, cls := none, classed := false, startedAt := 0, saved := none
  stopping := false, io := .issued }

/-- The front record of a queue is gone. -/
def dropFront (pkg q id : Nat) (s : State) : State :=
  s.modQcb (qcbKey pkg q) fun x => if x.front = some id then { x with front := none } else x

/-- A record whose dependences are met is eligible (R336). -/
def makeEligible (pkg q : Nat) (s : State) : State :=
  let x := s.qcb (qcbKey pkg q)
  match x.front with
  | some id => if x.dep0 ∧ x.dep1 then
      s.modLaunch id fun l => if l.phase = .waiting then { l with phase := .eligible, age := dial s (4 * pkg), waits := dial s (4 * pkg) } else l
    else s
  | none => s

/-! ## The completion record (R329) -/

/-- A share has nothing left to wait for (R328, R329, R332). -/
def shareOver (l : Launch) : Bool :=
  (l.phase == .ended || ((l.phase == .started || l.phase == .failing) && l.cores.all l.released.contains)) &&
    l.returns.isEmpty && !l.phaseOwed

/-- The launch is over on every package. -/
def launchOver (s : State) (id : Nat) : Bool :=
  let l := shares s id
  l.all (fun p => shareOver p.2) && (l.any (fun p => p.2.phase == .ended || p.2.phase == .failing) || allPlaced s id .sys)

/-- The earliest of the causes that the shares of a launch name, by cycle (R329). -/
def earliest (f : Launch → Option (Byte × Byte)) (at_ : Launch → Nat) (l : List Launch) : Option (Byte × Byte) :=
  ((l.filter fun x => (f x).isSome).foldl (fun (m : Option Launch) x => match m with
    | some y => if at_ x < at_ y then some x else m
    | none => some x) none).bind f

/-- The 16 bytes of the record (R265, R329): ID, COUNT, XSUB, CAUSE, STATUS. -/
def launchRecord (s : State) (id : Nat) (l : Launch) : SlotData :=
  let ls := (shares s id).map (·.2)
  let bad := earliest (·.killCause) (·.killedAt) ls <|> earliest (·.failure) (·.failedAt) ls
  let (cause, sub) := bad.getD (0, 0)
  BitVec.ofNat 2048 (l.addr.toNat + 2 ^ 64 * ((ls.map (·.exited)).sum % 2 ^ 32 * 2 ^ 32 + sub.toNat * 2 ^ 16 + cause.toNat * 2 ^ 8 +
    (if bad.isSome then 1 else 0)))

/-- The launch is forgotten, with its barriers and rounds. -/
def forget (id : Nat) (s : State) : State :=
  let gone := (shares s id).map (·.1)
  { s with
    launches := s.launches.filter fun p => !gone.contains p.1
    barriers := s.barriers.filter fun b => !gone.contains b.launch
    rounds := s.rounds.filter fun r => !gone.contains r.launch }

/-- The agent of the record's write: the members' contexts are theirs no more. -/
def recordAgent (l : Launch) : Agent :=
  { launchAgent l with
    core := match l.members with | k :: _ => coreOf k | [] => 4096 * l.pkg
    ctx := 5
    user := false }

/-- A record that cannot be written is listed in the latent record instead (R410). -/
def listRecord (id : Nat) (l : Launch) (s : State) : State :=
  forget id (latent (reporterOf s (4 * l.pkg)) 0x10 6 0 l.addr (BitVec.ofNat 64 ((launchRecord s id l).toNat / 2 ^ 64 % 256)) s)

/-- The completion record written once the launch is over (R329), or suspended by a fault. -/
def writeCrec (id : Nat) (s : State) : State :=
  match find? s.launches id with
  | none => s
  | some l =>
    let a := recWord l.w 27
    if groupOf s id ≠ id ∨ !launchOver s id then s
    else if a = 0 then forget id s
    else match l.io with
      | .suspended .. => s
      | .failed _ => listRecord id l s
      | _ =>
        match pieceTrap s (recordAgent l).core a with
        | some _ => listRecord id l s
        | none =>
          match rangeWrite (recordAgent l) a 16 (launchRecord s id l) s with
          | (.done .., s) => forget id s
          | (.fault die num, s) => s.modLaunch id fun l => { l with io := .suspended die num }
          | (.failed _, s) => listRecord id l s
          | (_, s) => s

/-- Every record of a package that can be written now. -/
def writeCrecs (pkg : Nat) (s : State) : State :=
  (s.launches.filter fun p => p.2.pkg == pkg).foldl (fun s p => writeCrec p.1 s) s

/-- A waiter of a queue's dependences. -/
def isDep (pkg q : Nat) (r : Registered) : Bool :=
  match r.who with | .dep p' q' _ => p' == pkg && q' == q | _ => false

/-- A launch ends with no member started (R319, R281); its record waits at no dependence word. -/
def endUnstarted (id : Nat) (cause : Byte) (sub : Nat) (s : State) : State :=
  match find? s.launches id with
  | none => s
  | some l =>
    let s := if (s.qcb (qcbKey l.pkg l.queue)).front = some id then unregister (isDep l.pkg l.queue) s else s
    (dropFront l.pkg l.queue id s).modLaunch id fun l => { l with
      phase := .ended, io := .issued, killCause := l.killCause <|> some (cause, BitVec.ofNat 8 sub)
      killedAt := if l.killCause.isNone then s.cycle else l.killedAt }

/-! ## Refused records (R319) -/

/-- The image list's entries that can be read now, each with its image if that can be read, without a fault record. -/
def quietEntries (s : State) (l : Launch) : List (Vector Word 4 × Option Nat) :=
  let ag := dispatchAgent l.pkg 2 l.asid
  (upTo (recNimg l.w)).filterMap fun i =>
    (quietRead ag (recWord l.w 30 + BitVec.ofNat 64 (32 * i)) 32 s).1.toOption.map fun v =>
      let e := wordsOf v
      (e, (quietRead ag (vget e 0) (imgLen e) s).1.toOption)

/-- A core number outside every domain, whose banks are clear: KEEP checks of a record that is not placed are made there. -/
def scratchCore : Nat := 2 ^ 20

/-- An image written to a core's bank (R326): descriptor, bytes, then the header's GEN and WMASK; none when a KEEP check
fails. -/
def applyImage (e : Vector Word 4) (x : Nat) (core : Nat) (s : State) : Option State :=
  let b := 16 * core + imgBank e
  let d := guiseDesc (vget e 2)
  let s := s.modBank b fun y => { y with desc := d, waiters := [], ages := [], flipped := false }
  let s := if kindOf d = 6 then s.modBank (b + 1) fun y => { y with desc := 0, waiters := [], ages := [] } else s
  let s := bankWrite (bkey b (imgOff e)) (imgLen e) x s
  if kindOf d = 0 ∨ kindOf d = 6 then some s else
  let s := bankWrite (bkey b 12) 4 0 s
  if keepOk s b d then some s else none

/-- The images of a list that one member's core receives pass their KEEP checks, as far as they can be read. -/
def keepsOn (s : State) (es : List (Vector Word 4 × Option Nat)) (g : Nat) : Bool :=
  ((es.filter fun e => imgMember e.1 == 0xFFFFFFFF || imgMember e.1 == g).foldl (fun (r : Option State) e =>
    match e.2 with
    | some x => r.bind (applyImage e.1 x scratchCore)
    | none => r) (some s)).isSome

/-- An entry of the image list breaks R326, as far as the list and the images can be read without a fault (log entry 81). -/
def listBreaks (s : State) (l : Launch) : Bool :=
  let es := quietEntries s l
  es.any (fun e => entryBad l.w e.1) || ((0xFFFFFFFF :: es.map fun e => imgMember e.1).dedup.any fun g => !keepsOn s es g)

/-- The XSUB of a refused record: the lowest of the table (R319). What only the image list breaks is found when it is
performed (R326). -/
def refusal (s : State) (l : Launch) : Option Nat :=
  match recordSub s.domain (Config.driverQueue (qcbKey l.pkg l.queue)) l.w with
  | some n => some (if 6 ≤ n ∧ listBreaks s l then 5 else n)
  | none => none

/-- A record that has come to the front is refused there if it is to be (R319). -/
def refuseFront (id : Nat) (s : State) : State :=
  match (find? s.launches id).bind fun l => refusal s l with
  | some n => writeCrec id (endUnstarted id causeIllegal n s)
  | none => s

/-- RECORD_FETCH (R335): record HEAD is copied when it is at the front, and HEAD increases; a read that fails clears EN. -/
def effRecordFetch (pkg q : Nat) (s : State) : State :=
  let x := s.qcb (qcbKey pkg q)
  if !x.en || x.front.isSome || x.head == x.tail then s else
  let a := x.base + BitVec.ofNat 64 (256 * (x.head.toNat % 2 ^ x.size))
  match quietRead { dispatchAgent pkg 0 x.qasid with queue := q + 1 } a 256 s with
  | (.error .fails, s) => queueOff pkg q x.head s
  | (.error .waits, s) => s
  | (.ok v, s) =>
    let w : Vector Word 32 := Vector.ofFn fun i => BitVec.ofNat 64 (v / 2 ^ (64 * i.val))
    let id := s.seq
    let s : State := { s with seq := s.seq + 1, launches := put id (newLaunch pkg q x a w) s.launches }
    let s := s.modQcb (qcbKey pkg q) fun x => { x with
      head := x.head + 1, front := some id, dep0 := recWord w 23 == 0, dep1 := recWord w 25 == 0, test0 := true, test1 := true }
    makeEligible pkg q (refuseFront id s)

/-! ## Dependences (R336) -/

/-- The test of a dependence word, or its registration (R125, R336); a failed answer ends the launch. -/
def dependTest (pkg q : Nat) (second : Bool) (id : Nat) (l : Launch) (s : State) : State :=
  let a := recWord l.w (if second then 25 else 23)
  let thr := recWord l.w (if second then 26 else 24)
  let who : Waiter := .dep pkg q second
  let tested (met : Bool) (s : State) : State := s.modQcb (qcbKey pkg q) fun x =>
    if second then { x with dep1 := x.dep1 || met, test1 := false } else { x with dep0 := x.dep0 || met, test0 := false }
  match l.io, wordTrap s l.tenant (4096 * pkg) a with
  | .suspended .., _ => s
  | .failed t, _ => writeCrec id (endUnstarted id t.cause t.sub.toNat s)
  | _, some t => writeCrec id (endUnstarted id t.cause t.sub.toNat s)
  | _, none =>
    let ag := dispatchAgent pkg 2 l.asid
    let s := s.modLaunch id fun l => { l with io := .issued }
    let (p, s) := if isLocal a then bankPerf (4096 * pkg) a (.waitw thr 0) (.reg 1 8 true) {} false true who s
      else globalAccess ag a (.waitw thr 0) who s
    match p with
    | .done 0 0 _ => tested true s
    | .done .. => tested false s
    | .registered => tested false s
    | .fault die num => s.modLaunch id fun l => { l with io := .suspended die num }
    | .failed t => writeCrec id (endUnstarted id t.cause t.sub.toNat s)
    | .poisoned .. => writeCrec id (endUnstarted id causeEcc causeEcc.toNat s)
    | _ => s

/-- A word of the front record is to be tested now, but for the reading again each microsecond: it has come to the front,
its waiter was woken, or its fault was answered (R336). -/
def testsNow (x : Qcb) (l : Launch) (second : Bool) : Bool :=
  (if second then x.test1 else x.test0) || (match l.io with | .retry => true | .failed _ => true | _ => false)

/-- A dependence word of the front record is met, tested or registered on. -/
def dependStep (pkg q : Nat) (second again : Bool) (s : State) : State :=
  let x := s.qcb (qcbKey pkg q)
  match x.front with
  | none => s
  | some id =>
    match find? s.launches id with
    | none => s
    | some l =>
      if l.phase ≠ .waiting then s
      else if (if second then x.dep1 else x.dep0) ∨ (allRegistered s).any (fun r => r.who == .dep pkg q second) then makeEligible pkg q s
      else if again || testsNow x l second then makeEligible pkg q (dependTest pkg q second id l s)
      else s

/-- DEPENDENCE_SATISFIED (R336). -/
def effDependence (pkg q : Nat) (second : Bool) (s : State) : State := dependStep pkg q second false s

/-- DEPENDENCE_REREAD (R336): with the registry full the word is read again. -/
def effDependReread (pkg q : Nat) (second : Bool) (s : State) : State := dependStep pkg q second true s

/-! ## Choosing (R337, R338) -/

/-- DISPATCH_CHOOSE (R337): records that are due are written, and the highest record that fits is chosen. -/
def effChoose (pkg : Nat) (s : State) : State :=
  let s := writeCrecs pkg s
  let chosen := ((waitingOn s pkg).find? fun p => (placementOf s p.1 p.2 []).isSome).map (·.1)
  s.modPkg pkg fun x => { x with chosen := chosen }

/-- A record has been placed or restored: its reservation is over (R338), and so is the package's boot (R409). -/
def recordPlaced (pkg id : Nat) (s : State) : State :=
  s.modPkg pkg fun x => { x with chosen := none, booted := true, reserved := x.reserved.filter (· != id) }

/-- RESERVATION_TIMEOUT (R338): the first record has waited 2 ms (log entry 53). -/
def effReservation (pkg : Nat) (s : State) : State :=
  match waitingOn s pkg with
  | (id, l) :: _ =>
    if l.waits + 2000000 ≤ dial s (4 * pkg) ∧ !(s.pkg pkg).reserved.contains id then
      s.modPkg pkg fun x => { x with reserved := x.reserved ++ [id] } else s
  | [] => s

/-! ## Members (R321 to R325) -/

/-- An ARG word for a core (R325). -/
def relocate (core : Nat) (a : Word) : Word :=
  if wf a 63 57 = 0x7D then BitVec.ofNat 64 (0x7E * 2 ^ 57 + core % 256 * 2 ^ 17 + wf a 16 0) else a

/-- lvln of flat index g (R321). -/
def levelIndex' : List Level → Nat → List Nat
  | [], _ => []
  | l :: r, g => g % l.ext :: levelIndex' r (g / l.ext)

/-- The scalar registers at the start (R323). -/
def startRegs (w : Vector Word 32) (core : Nat) (sp : Word) : Vector Word 32 :=
  Vector.ofFn fun i =>
    if 1 ≤ i.val ∧ i.val ≤ 7 then relocate core (recWord w (12 + i.val))
    else if i.val = 28 then relocate core (recWord w 20)
    else if i.val = 30 then exitAddr
    else if i.val = 31 then sp
    else 0

/-- The carve-out of context c of a core (R323, R324). -/
def carveBase (w : Vector Word 32) (core c : Nat) : Word :=
  bankBase (16 * core + recCbank w) + BitVec.ofNat 64 (c * recCarve w)

/-- A member's context before its start (R323). -/
def memberCtx (id : Nat) (l : Launch) (k g : Nat) : Ctx :=
  let w := l.w
  let c := ctxId k
  let base := carveBase w (coreOf k) c
  let sp := base + BitVec.ofNat 64 (recCarve w)
  {
    status := .idle, launch := some id, pc := recWord w 0, npc := recWord w 0, mode := recMode w, basePriv := (recMode w).getLsbD 6
    s := startRegs w (coreOf k) sp, spbase := base, spsize := BitVec.ofNat 14 (recCarve w)
    spovf := if recWord w 11 = 0 then 0 else recWord w 11 + BitVec.ofNat 64 (2 ^ 18 * (g + 1))
    tbase := BitVec.ofNat 4 (c * recTiles w), tcount := BitVec.ofNat 5 (recTiles w)
    plateBase := c * recPlates w, plateCount := recPlates w, wgt := BitVec.ofNat 63 (memberWeight w), asid := l.asid
    lvl := Vector.ofFn fun i => BitVec.ofNat 32 ((levelIndex' (levelsOf w) g).getD i.val 0) }

/-- The handler context of a core that runs a member (R324): PARKED until the first row. Its range may take in physical
tile 15, which it cannot name (log entry 85). -/
def handlerCtx (id : Nat) (l : Launch) (core : Nat) : Ctx :=
  let w := l.w
  let n := perCore w
  let base := carveBase w core n
  let sp := base + BitVec.ofNat 64 (recCarve w)
  {
    status := .parked, park := .nextRow, launch := some id, pc := recWord w 12, npc := recWord w 12, mode := recMode w &&& 0x7D
    basePriv := (recMode w).getLsbD 6, s := (Vector.replicate 32 (0 : Word)).set 31 sp
    spbase := base, spsize := BitVec.ofNat 14 (recCarve w), tbase := BitVec.ofNat 4 (n * recTiles w)
    tcount := BitVec.ofNat 5 (recHtiles w), asid := l.asid }

/-- A plate made ready for a tenant (R217): one that served another is programmed to 0 and calibrated. -/
def readyPlate (t : BitVec 16) (core n : Nat) (s : State) : State :=
  let p := (s.core core).plate n
  let d := dieOf core
  if p.tenant = some t then s else
  let now := if p.tenant.isSome then dial s d else (s.die d).bootAt
  { modPlate core n (fun _ => { calibrate now s.freeCtr {} with tenant := some t }) s with freeCtr := s.freeCtr + 400 }

/-- A core taken by a launch (R301, R322, R323). -/
def takeCore (id : Nat) (l : Launch) (core : Nat) (s : State) : State :=
  s.modCore core fun x => { x with
    launch := some id, tenant := some l.tenant, hdl := recWord l.w 12, vshare := 1, gmask := 0, broken := 0, draining := false }

/-- Members and handlers get their contexts and plates (R217, R323, R324). -/
def prepare (id : Nat) (l : Launch) (s : State) : State :=
  let s := ((upTo l.members.length).zip l.members).foldl (fun s p =>
    let k := p.2
    let s := s.modCtx k fun _ => memberCtx id l k (l.base + p.1)
    (upTo (recPlates l.w)).foldl (fun s i => readyPlate l.tenant (coreOf k) (ctxId k * recPlates l.w + i) s) s) s
  if recHnd l.w then
    ((l.members.map coreOf).dedup).foldl (fun s core => s.modCtx (handlerKey core) fun _ => handlerCtx id l core) s
  else s

/-! ## Images (R326) -/

/-- The entries of an image list with the bytes of their images, read in turn; an entry that breaks R326 stops it. -/
def imageReads (ag : Agent) (w : Vector Word 32) (a : Word) : Nat → State → Perf × List (Vector Word 4 × Nat) × State
  | 0, s => (.done 0 0 0, [], s)
  | n + 1, s =>
    match rangeRead ag a 32 s with
    | (.done _ v _, s) =>
      let e := wordsOf v
      if entryBad w e then (.failed (trapOf causeIllegal 5 0), [], s) else
      match rangeRead ag (vget e 0) (imgLen e) s with
      | (.done _ x _, s) => let (p, l, s) := imageReads ag w (a + 32) n s; (p, (e, x) :: l, s)
      | (p, s) => (p, [], s)
    | (p, s) => (p, [], s)

/-- The cores of a share that an entry names. -/
def imageCores (l : Launch) (e : Vector Word 4) : List Nat :=
  if imgMember e = 0xFFFFFFFF then (l.members.map coreOf).dedup
  else if imgMember e < l.base then [] else match l.members[imgMember e - l.base]? with | some k => [coreOf k] | none => []

/-- The images written in list order. -/
def applyImages (l : Launch) (es : List (Vector Word 4 × Nat)) (s : State) : Option State :=
  es.foldl (fun (r : Option State) e => r.bind fun s =>
    (imageCores l e.1).foldl (fun (r : Option State) core => r.bind (applyImage e.1 e.2 core)) (some s)) (some s)

/-! ## Clearing a core (R306, R328) -/

/-- A core as the launch logic leaves it: banks, descriptors, tiles, quarter and contexts cleared; plates and port queue
stay, with what the core holds from boot. -/
def wipeCore (core : Nat) (s : State) : State :=
  let s := (upTo 16).foldl (fun s i => clearBank (16 * core + i) s) s
  let s := s.modCore core fun x => {
    stvec := x.stvec, rfout := x.rfout, ntile := x.ntile, ring := x.ring, nextSlot := x.nextSlot
    trigger := x.trigger, ports := if x.trigger.isSome then x.ports.take 1 else [], plates := x.plates }
  { s with
    ctxs := s.ctxs.filter fun p => coreOf p.1 ≠ core
    banks := s.banks.filter fun p => p.1 / 16 ≠ core
    arcades := s.arcades.filter fun a => coreOf a.ctx ≠ core }

/-- A DRAIN entry whose drain can go on no more, its core's handler being gone, is cancelled (R274). -/
def endDrainEntry (core : Nat) (s : State) : State :=
  modHead (queueKey .mat core 0) (fun ch => if ch.wait = .drain then { ch with wait := .ready, cancel := true, item := 0 } else ch) s

/-- Waiters on a core's banks are woken with CLOSED, then the core is cleared and released. -/
def releaseCore (id core : Nat) (s : State) : State :=
  let s := endDrainEntry core s
  let s := (upTo 16).foldl (fun s i => wakeClosed (16 * core + i) s) s
  let s := { s with announces := s.announces.filter fun a => a.core != core }
  let s := leaveFailure (handlerKey core) s
  let left := match find? s.launches id with
    | some l => (l.here.filter fun k => coreOf k == core).map fun k => (⟨k, (s.ctx k).evc, (s.ctx k).bars⟩ : Gone)
    | none => []
  (wipeCore core s).modLaunch id fun l => { l with released := core :: l.released, gone := l.gone ++ left }

/-- A share that failed once placed (R326): no member starts, and its cores drain before they are given back (R328). -/
def failPlaced (id : Nat) (cause : Byte) (sub : Nat) (s : State) : State :=
  s.modLaunch id fun l => { l with
    phase := .failing, io := .issued, killCause := l.killCause <|> some (cause, BitVec.ofNat 8 sub)
    killedAt := if l.killCause.isNone then s.cycle else l.killedAt }

/-! ## Kills of whole launches (R281) -/

/-- A saved image without the operations in which a core takes part. -/
def Saved.dropOps (cores : List Nat) (x : Saved) : Saved :=
  { x with cells := x.cells.map fun (p : Nat × Cell) => (p.1, { p.2 with ops := p.2.ops.filter fun o => !(cores.any fun c => o.on c) }) }

/-- A saved launch is killed in its saved state: its members return their weight and stand in the latent record (R281).
An operation that it shared with another saved launch ends where it stands (log entry 102). -/
def killSaved (cause sub : Byte) (id : Nat) (l : Launch) (s : State) : State :=
  let mine : List (Nat × Ctx) := match l.saved with
    | some x => (l.members.map fun k => (k, look ({} : Ctx) x.ctxs k)).filter fun (p : Nat × Ctx) => p.2.launch == some id && p.2.left == .no
    | none => []
  let s := unregister (fun r => mine.any fun p => r.mine p.1 p.2) s
  let s : State := { s with launches := s.launches.map fun (p : Nat × Launch) => (p.1, { p.2 with saved := p.2.saved.map (Saved.dropOps l.live) }) }
  let s := mine.foldl (fun s p => latentCore (coreOf p.1) 0x02 (cause.zeroExtend 64) p.2.xpc s) s
  writeCrec id (s.modLaunch id fun l => { l with
    phase := .ended, saved := none, killed := l.killed + mine.length, killCause := l.killCause <|> some (cause, sub)
    killedAt := if l.killCause.isNone then s.cycle else l.killedAt
    returns := l.returns ++ mine.map fun p => (p.2.wgt.toNat : Int), io := .issued })

/-- One share of a launch killed for a cause. -/
def killShare (cause : Byte) (sub : Nat) (id : Nat) (s : State) : State :=
  match find? s.launches id with
  | none => s
  | some l =>
    match l.phase with
    | .waiting | .eligible => writeCrec id (endUnstarted id cause sub s)
    | .imageFault | .placed => failPlaced id cause sub s
    | .started =>
      (l.here.foldl (fun s k => if (s.ctx k).left = .no then kill cause (BitVec.ofNat 8 sub) k s else s) s).modLaunch id fun l => { l with stopping := false }
    | .saved => killSaved cause (BitVec.ofNat 8 sub) id l s
    | .failing | .ended => s

/-- The launch fails on every package (R326, R400): with its images unread, no member of it starts. -/
def failLaunch (id : Nat) (cause : Byte) (sub : Nat) (s : State) : State :=
  (shares s id).foldl (fun s p => killShare cause sub p.1 s) s

/-! ## Placing and starting (R322, R339) -/

/-- The image list performed and the members prepared; a fault keeps the launch placed and waiting. -/
def performImages (id : Nat) (s : State) : State :=
  match find? s.launches id with
  | none => s
  | some l =>
    match l.io with
    | .suspended .. => s
    | .failed t => failLaunch id t.cause t.sub.toNat s
    | _ =>
      match imageReads { launchAgent l with
        user := false } l.w (recWord l.w 30) (recNimg l.w) s with
      | (.done .., es, s) =>
        match applyImages l es s with
        | some s => (prepare id l s).modLaunch id fun l => { l with phase := .placed, io := .issued }
        | none => failLaunch id causeIllegal 5 s
      | (.fault die num, _, s) => s.modLaunch id fun l => { l with io := .suspended die num }
      | (.failed t, _, s) => failLaunch id t.cause t.sub.toNat s
      | (.poisoned .., _, s) => failLaunch id causeEcc causeEcc.toNat s
      | (_, _, s) => s

/-- The table after an entry was used or stored. -/
def storeClass (pkg : Nat) (e : ClassEntry) (s : State) : State :=
  s.modPkg pkg fun x => { x with classes := (e :: x.classes.filter fun y => !(y.asid == e.asid && y.code == e.code)).take 1024 }

/-- LAUNCH_PLACE (R322): the chosen record is placed all at once, its image list performed and its members prepared. -/
def effPlace (id : Nat) (s : State) : State :=
  match find? s.launches id with
  | none => s
  | some l =>
    if l.phase = .imageFault then performImages id s
    else if l.phase ≠ .eligible ∨ (s.pkg l.pkg).chosen ≠ some id then s
    else match placementOf s id l [] with
      | none => s
      | some p =>
        let cls := classOf s l
        let s := match cls with | some e => storeClass l.pkg e s | none => s
        let s := p.cores.foldl (fun s c => takeCore id l c s) (dropFront l.pkg l.queue id s)
        let s := recordPlaced l.pkg id s
        performImages id (s.modLaunch id fun l => { l with
          phase := .imageFault, base := shareBase (shareIndex s l) l.w, members := p.members, cores := p.cores, io := .issued
          cls := cls.map (·.compute) })

/-- LAUNCH_START (R339): every placed member starts in one cycle, at START or at placement. -/
def effStart (id : Nat) (s : State) : State :=
  match find? s.launches id with
  | none => s
  | some l =>
    let now := dial s (dieOf (coreOf (l.members.headD 0)))
    if l.phase ≠ .placed ∨ now < (recWord l.w 21).toNat then s else
    (l.members.foldl (fun s k => s.modCtx k fun c => if c.left = .no then { c with status := .ready } else c) s).modLaunch id fun l =>
      { l with phase := .started, startedAt := now }

/-- LAUNCH_CLASSIFY (R340): 50 us after the start, while the launch runs. -/
def effClassify (id : Nat) (s : State) : State :=
  match find? s.launches id with
  | none => s
  | some l =>
    if l.phase ≠ .started ∨ l.classed ∨ dial s (dieOf (coreOf (l.members.headD 0))) < l.startedAt + 50000 then s else
    let c : Bool := decide (32 * l.bytes ≤ l.ops)
    (storeClass l.pkg ⟨l.asid, recWord l.w 0, c⟩ s).modLaunch id fun l => { l with cls := some c, classed := true }

/-! ## Pre-emption (R342 to R346) -/

/-- The victims of R342: the first candidate that suffices alone, else the shortest prefix that does. -/
def victimsFor (s : State) (id : Nat) (l : Launch) (cands : List (Nat × Launch)) : List Nat :=
  let ids := cands.map (·.1)
  let frees (v : List Nat) : Bool := (placementOf s id l v).isSome
  match ids.find? fun v => frees [v] with
  | some v => [v]
  | none => match ((upTo ids.length).map fun i => ids.take (i + 1)).find? frees with
    | some v => v
    | none => []

/-- The launches that a record may pre-empt, lowest priority and youngest first (R342). -/
def candidates (s : State) (l : Launch) : List (Nat × Launch) :=
  sortBy (fun (a b : Nat × Launch) => a.2.prio < b.2.prio || (a.2.prio == b.2.prio && b.2.age < a.2.age))
    (s.launches.filter fun p => p.2.pkg == l.pkg && p.2.phase == .started && !p.2.stopping &&
      p.2.prio + (s.die (dieOf (coreOf (p.2.members.headD 0)))).pmargin ≤ l.prio)

/-- The contexts of a launch's cores. -/
def keysOn (l : Launch) : List Nat := l.live.flatMap fun c => (upTo 5).map fun i => 8 * c + i

/-- A request that a save may find: not one that is about to be performed. -/
def Req.rests (r : Req) : Bool := match r.state with | .suspended .. => true | .registered => true | .failed _ => true | .retry => true | _ => false

/-- A chain that a save may find (R343): between items, suspended, or at an operation or a drain. -/
def Chain.rests (ch : Chain) : Bool :=
  match ch.wait with
  | .suspended .. => true
  | .operation => true
  | .drain => true
  | _ => atBoundary ch

/-- What R343 names has run to its end for a launch. -/
def drained (s : State) (l : Launch) : Bool :=
  let keys := keysOn l
  (keys.all fun k => let c := s.ctx k; c.fixed.isEmpty && c.landings.all (fun x => !x.row && !x.firm) && c.reqs.all Req.rests) &&
  (l.live.all fun c => match opAt s c with | some o => o.atRest s | none => true) &&
  (l.live.all fun c => (s.core c).queue.isEmpty && (s.core c).trigger.isNone && (upTo 16).all fun i => (s.bank (16 * c + i)).closing.isNone) &&
  !(s.arcades.any fun a => keys.contains a.ctx) &&
  s.queues.all fun p => p.2.chains.all fun ch => !keys.contains ch.owner || ch.rests

/-- A context as it is saved (R343): running contexts stop at the boundary, WFI ends, a GANG is issued again. -/
def saveCtx (c : Ctx) : Ctx :=
  let c := if c.issues then { c with status := c.rested } else c
  if c.status = .parked then
    match c.park with
    | .wfi _ => { c with status := c.rested, park := .none }
    | .gang => { c with park := .reissue, pc := c.parkPc, npc := c.parkPc, gang := none }
    | _ => c
  else c

/-- A chain as it is saved: it asks again for what it waited for at a registry or a gang. -/
def saveChain (ch : Chain) : Chain :=
  match ch.wait with | .waitv => { ch with wait := .ready } | .gang => { ch with wait := .ready } | _ => ch

/-- An arrival belongs to a launch's contexts or chains. -/
def arrivalOf (s : State) (keys : List Nat) (a : Arrival) : Bool := keys.contains (arrivalCtx s a)

/-- A launch saved (R344) and its cores given up. -/
def saveLaunch (id : Nat) (l : Launch) (s : State) : State :=
  let keys := keysOn l
  let cells := (l.live.map (· / 4)).dedup
  -- waits at gangs and registries are withdrawn
  let s := cells.foldl (fun s x => unarrive x (arrivalOf s keys) s) s
  let s := s.queues.foldl (fun s p => match p.2.chains with
    | ch :: _ => if keys.contains ch.owner && ch.wait == .waitv then withdraw p.1 ch s else s
    | [] => s) s
  let mine (b : Nat) : Bool := l.live.contains (b / 16)
  let his (o : MatOp) : Bool := o.members.any fun a => l.live.contains a.core
  let image : Saved := {
    ctxs := (s.ctxs.filter fun p => keys.contains p.1).map fun (p : Nat × Ctx) => (p.1, saveCtx p.2)
    cores := s.cores.filter fun p => l.live.contains p.1
    banks := s.banks.filter fun p => mine p.1
    bytes := s.bankMem.filter fun p => mine (p.1 / 8192)
    cells := cells.map fun x => (x, { ops := (s.cell x).ops.filter his })
    queues := (s.queues.map fun (p : Nat × Queue) =>
      (p.1, { chains := (p.2.chains.filter fun ch => keys.contains ch.owner).map saveChain })).filter fun (p : Nat × Queue) => !p.2.chains.isEmpty
    poison := s.bankPoison.filter fun u => mine (u / 1024) }
  let s := { s with queues := s.queues.map fun (p : Nat × Queue) =>
    (p.1, { p.2 with chains := p.2.chains.filter fun ch => !keys.contains ch.owner }) }
  let s := l.live.foldl (fun s c => wipeCore c s) s
  s.modLaunch id fun l => { l with phase := .saved, waits := dial s (4 * l.pkg), stopping := false, saved := some image }

/-- The launches of one package whose cores take part in an operation with a core of some launches, those among them (R209). -/
def gangMates (s : State) (ids : List Nat) : List Nat :=
  let cores := ids.flatMap fun id => match find? s.launches id with | some l => l.live | none => []
  let ops := (s.cells.flatMap (·.2.ops)).filter fun o => cores.any fun c => o.on c
  (ids ++ (ops.flatMap (·.members)).filterMap fun a => (s.core a.core).launch).dedup

/-- Launches with those that share an operation with them, and so on, n times over. -/
def withMates (s : State) : Nat → List Nat → List Nat
  | 0, ids => ids
  | n + 1, ids => withMates s n (gangMates s ids)

/-- The launches of a list pre-empted: a launch of another package's share is asked to stop as well. -/
def stopLaunches (ids : List Nat) (s : State) : State :=
  ids.foldl (fun s v => (shares s v).foldl (fun s p =>
    s.modLaunch p.1 fun x => if x.phase = .started then { x with stopping := true } else x) s) s

/-- A launch and those that share an operation with it have all come to rest: they are saved together (R209). -/
def saveTogether (id : Nat) (s : State) : Option State :=
  let ls := (s.launches.filter fun p => (withMates s 4 [id]).contains p.1 && p.2.phase == .started)
  if ls.all fun p => p.2.stopping && drained s p.2 then
    let s' := ls.foldl (fun s p => saveLaunch p.1 p.2 s) s
    some { s' with cells := s'.cells.map fun (p : Nat × Cell) =>
      (p.1, { p.2 with ops := p.2.ops.filter fun o => !(o.members.any fun a => ls.any fun x => x.2.live.contains a.core) }) }
  else none

/-- PREEMPT (R342, R343): stopping launches whose members have come to rest are saved; else victims are chosen for the
first record, when it cannot be placed. -/
def effPreempt (pkg : Nat) (s : State) : State :=
  match (s.launches.filter fun p => p.2.pkg == pkg && p.2.stopping).findSome? fun p => saveTogether p.1 s with
  | some s => s
  | none =>
    let stopping := (s.launches.filter fun p => p.2.pkg == pkg && p.2.stopping).map (·.1)
    if stopping ≠ [] then stopLaunches (withMates s 4 stopping) s else
    match waitingOn s pkg with
    | [] => s
    | (id, l) :: _ =>
      if (placementOf s id l []).isSome then s else
      stopLaunches (withMates s 4 (victimsFor s id l (candidates s l))) s

/-- A saved core put back (R345): what the core holds from boot and its plates stay; the calibration of the plates that saved
contexts hold counts as written (R233). -/
def restoreCore (id : Nat) (l : Launch) (ctxs : List (Nat × Ctx)) (core : Nat) (x old : CoreSt) : CoreSt :=
  let held (n : Nat) : Bool := ctxs.any fun p => coreOf p.1 == core && p.2.plateBase ≤ n && n < p.2.plateBase + p.2.plateCount
  { old with
    stvec := x.stvec, rfout := x.rfout, ntile := x.ntile, running := none, nextSlot := x.nextSlot, launch := some id
    tenant := some l.tenant
    plates := x.plates.map fun (p : Nat × Plate) => (p.1, if held p.1 then { p.2 with calWritten := true } else p.2) }

/-- The values whose time came while a context stood saved, in their order: each has landed in its cycle (R30), and a closure
has been ready since then (R240). -/
def landSaved (k : Nat) (s : State) : State :=
  let now := s.cycle
  let l := sortBy (fun (a b : Landing) => a.due < b.due) ((s.ctx k).landings.filter fun x => x.due ≤ now)
  let s := s.modCtx k fun c => { c with landings := c.landings.filter fun x => now < x.due }
  l.foldl (fun (s : State) x =>
    let s := applyLanding k x { s with cycle := x.due }
    { s.modCtx k fun c => { c with tray := c.tray.map (stampClosure s k) } with cycle := now }) s

/-- Every queue of an image has room for its chains (R251, R274). -/
def queuesFit (s : State) (x : Saved) : Bool :=
  x.queues.all fun p => (s.queue p.1).chains.length + p.2.chains.length ≤ queueCap (queueEngine p.1)

/-- A saved launch put back on its cores; its chains stand behind those that a copy queue runs (log entry 103). -/
def restoreOne (id : Nat) (l : Launch) (x : Saved) (s : State) : State :=
  let s := { s with
    ctxs := x.ctxs.foldl (fun (t : List (Nat × Ctx)) (p : Nat × Ctx) => put p.1 p.2 t) s.ctxs
    banks := x.banks.foldl (fun (t : List (Nat × Bank)) (p : Nat × Bank) => put p.1 p.2 t) s.banks
    bankMem := x.bytes.foldl (fun (m : List Host.Cell) (p : Host.Cell) => writeByte m p.1 p.2) s.bankMem
    bankPoison := s.bankPoison ++ x.poison }
  let s := l.live.foldl (fun s c => s.modCore c fun y => restoreCore id l x.ctxs c y (look {} x.cores c)) s
  let back (y : Cell) (z : Cell) : Cell :=
    { y with ops := y.ops ++ (z.ops.filter fun o => !(y.ops.any fun w => w.leader == o.leader)).map fun o => { o with rests := false } }
  let s := x.cells.foldl (fun s p => s.modCell p.1 fun y => back y p.2) s
  let s := x.queues.foldl (fun s p => s.modQueue p.1 fun y => { y with chains := y.chains ++ p.2.chains }) s
  let s := recordPlaced l.pkg id s
  l.here.foldl (fun s k => settle k (landSaved k s)) (s.modLaunch id fun l => { l with phase := .started, saved := none })

/-- The saved launches that share an operation with one: all are put back together (R209). -/
def savedMates (s : State) (id : Nat) (x : Saved) : List (Nat × Launch × Saved) :=
  let ops := x.cells.flatMap (·.2.ops)
  s.launches.filterMap fun p => match p.2.saved with
    | some y => if p.1 != id && ops.any fun o => p.2.live.any fun c => o.on c then some (p.1, p.2, y) else none
    | none => none

/-- LAUNCH_RESTORE (R345): a saved launch that has been chosen goes back to its cores, all at once. -/
def effRestore (id : Nat) (s : State) : State :=
  match find? s.launches id with
  | none => s
  | some l =>
    match l.saved with
    | none => s
    | some x =>
      let all := (id, l, x) :: savedMates s id x
      if (s.pkg l.pkg).chosen ≠ some id ∨ (all.any fun p => (placementOf s p.1 p.2.1 []).isNone || !queuesFit s p.2.2) then s else
      all.foldl (fun s p => restoreOne p.1 p.2.1 p.2.2 s) s

/-! ## Leaving (R328) -/

/-- The cores of the instance of the innermost domain that holds a core (R320, R322). -/
def instanceOf (l : Launch) (core : Nat) : List Nat :=
  match levelsOf l.w with
  | [] => [core]
  | x :: _ => if x.dom = 0 then [core] else let n := unitCores x.dom; (upTo n).map (core / n * n + ·)

/-- Every member of an instance has left (R328). -/
def instanceLeft (s : State) (l : Launch) (core : Nat) : Bool :=
  (l.here.filter fun k => (instanceOf l core).contains (coreOf k)).all fun k => (s.ctx k).left != .no

/-- The cores whose banks a range holds bytes of, an arcade's members among them (R163). -/
def rangeCores (s : State) (me : Nat) (a : Word) (n : Nat) : List Nat :=
  (spans s me a 0 n).filterMap fun p => if isLocal p.2.1 then some (windowCore me p.2.1) else none

/-- Bytes of a row that a quarter drains to memory (R214). -/
def drainRowBytes (q : Quarter) : Nat := if q.out = 0 then 4 * q.n else if q.out = 3 then 33 else 2 * q.n

/-- A row of a drain that is still to be written lies in a core's banks. -/
def drainAims (s : State) (core at_ : Nat) (d : Drain) : Bool :=
  let q := (s.core at_).quarter
  !descTile d.dest && (upTo (if d.begun then d.m else q.m)).any fun i =>
    d.row ≤ i && (spans s at_ d.base (i * wf d.dest 15 0) (drainRowBytes q)).any fun p => isLocal p.2.1 && windowCore at_ p.2.1 == core

/-- The present item of a chain writes a core's banks (R328). -/
def aimsAt (s : State) (q core : Nat) (ch : Chain) : Bool :=
  let at_ (x : Item) : Bool := !x.skip && (rangeCores s (coreOf ch.owner) x.dst x.len).contains core
  match ch.entry with
  | none => false
  | some w =>
    if opOf w = 0x19 then ch.wait == .drain && (s.core (queueCore q)).drains.any fun d => d.by_ == .queue q && drainAims s core (queueCore q) d
    else if itemCount w ≤ ch.item then false
    else if opOf w = 1 ∨ opOf w = 4 ∨ opOf w = 5 then at_ (rowItem w ch.item)
    else if opOf w = 2 then at_ (indexItem w ch.item (ch.index.getD 0))
    else if opOf w = 3 then (match ch.index with | some v => at_ (indexItem w ch.item v) | none => false)
    else false

/-- The present item of a chain is a SCATTER's whose index is being read, and its base lies in the window: it may come to write
any bank. -/
def mayAim (ch : Chain) : Bool :=
  match ch.entry with
  | some w => opOf w == 3 && ch.index.isNone && ch.io.isSome && ch.item < itemCount w && isLocal (vget w 3)
  | none => false

/-- The item is in flight: its index has been read or is being read, or it has begun, and it is not done. -/
def Chain.inFlight (ch : Chain) : Bool := ch.begun || ch.io.isSome || ch.wait == .drain || ch.index.isSome

/-- Chains that keep a core DRAINING: an item of the launch itself in flight, or of another launch at all. -/
def heldOpen (s : State) (id core : Nat) : Bool :=
  s.queues.any fun p => match p.2.chains with
    | ch :: _ => (aimsAt s p.1 core ch && ((s.ctx ch.owner).launch != some id || ch.inFlight)) || mayAim ch
    | [] => false

/-- Another launch's chains that write a core's banks stop at their next item boundary (R328). -/
def cancelInto (id core : Nat) (s : State) : State :=
  { s with queues := s.queues.map fun (p : Nat × Queue) => (p.1, match p.2.chains with
    | ch :: r => if aimsAt s p.1 core ch && (s.ctx ch.owner).launch != some id then { p.2 with chains := { ch with cancel := true } :: r } else p.2
    | [] => p.2) }

/-- Accesses of a core's contexts that are still to be performed. -/
def openReqs (s : State) (core : Nat) : Bool := (upTo 5).any fun i => !(s.ctx (8 * core + i)).reqs.isEmpty

/-- A member on a core asked for a GATHER record that is still to be written (R138). -/
def recordOwed (s : State) (core : Nat) : Bool :=
  (upTo 4).any fun i => [Domain.core, .cell, .bay, .court, .pav, .die, .pkg, .sys].any fun dom =>
    ((s.ctx (8 * core + i)).bar dom).gather.isSome

/-- A drain of the core's matrix queue goes on: its rows go straight to memory, or its handler takes them. -/
def drainsOn (s : State) (core : Nat) : Bool :=
  (s.core core).drains.any fun d => (match d.by_ with | .queue _ => true | _ => false) && (d.hdl == 0 || (s.ctx (handlerKey core)).status != .idle)

/-- The core is in the middle of something of its own: a trigger of its plate unit (R217), a composition, an operation or a
DRAIN item. -/
def coreBusy (s : State) (core : Nat) : Bool :=
  (s.core core).trigger.isSome || (s.arcades.any fun a => coreOf a.ctx == core) || opOn s core || drainsOn s core

/-- CORE_RELEASE (R328): a core whose members have left drains, is cleared under R306 and released; the launch's record
follows its last core (R329). -/
def effCoreRelease (core : Nat) (s : State) : State :=
  let pkg := pkgOf core
  match (s.core core).launch.bind fun id => (find? s.launches id).map fun l => (id, l) with
  | none => writeCrecs pkg s
  | some (id, l) =>
    if l.phase ≠ .failing ∧ (l.phase ≠ .started ∨ !instanceLeft s l core) then writeCrecs pkg s else
    let s := cancelInto id core (s.modCore core fun x => { x with draining := true })
    if heldOpen s id core || openReqs s core || recordOwed s core || coreBusy s core then s
    else writeCrecs pkg (releaseCore id core s)

/-! ## Kills by the host (R281) -/

/-- LAUNCH_KILL_REQUEST (R281): every member of the launch, on every package. -/
def effKillRequest (id : Nat) (s : State) : State :=
  failLaunch id causeKill 1 s

end Sys2Proof.Machine
end

