-- ==== Sys2Proof/Machine/Outside.lean ====
section
/-! DEFINITION. What acts on the machine from outside its programs: register writes (R334, R342, R348, R397), the host's
accesses (R401), dials (R371 to R373), the Polier fabric (R395 to R399), boot, attestation and keys (R404 to R406), and
reliability (R407 to R415). -/

namespace Sys2Proof.Machine

/-! ## Registers of the drivers and the firmware -/

/-- Field masks of a window's words (R397). -/
def windowMask (i : Nat) : Word :=
  if i = 0 then BitVec.ofNat 64 (2 ^ 63 + (2 ^ 57 - 2 ^ 21)) else BitVec.ofNat 64 (0xFFFF * 2 ^ 48 + 0x3FF)

/-- The dies of the domain. -/
def allDies (s : State) : List Nat := upTo (4 * s.domain)

/-- A word of a reduction window written, identically into the switches and every die (R397); the switches know no page of the
window it makes (R399). -/
def setWindow (i word : Nat) (v : Word) (s : State) : State :=
  let old := (s.windows.toList.getD i (0, 0))
  let new := if word = 0 then (v &&& windowMask 0, old.2) else (old.1, v &&& windowMask 1)
  let s := { s with windows := vset s.windows i new, unsealed := s.unsealed.filter fun p => p.1 ≠ i }
  (allDies s).foldl (fun s d => s.modDie d fun x => { x with windows := vset x.windows i new }) s

/-- A queue control block's word written (R334): HEAD is read only, TAIL is the doorbell. -/
def setQcb (pkg q word : Nat) (v : Word) (s : State) : State :=
  match word with
  | 0 => s.modQcb (qcbKey pkg q) fun x => { x with base := v }
  | 1 => s.modQcb (qcbKey pkg q) fun x => { x with ctl := v &&& ~~~ (BitVec.ofNat 64 (2 ^ 20 - 2)) }
  | 2 => effTailWrite pkg q (v.truncate 32) s
  | _ => s

/-- REGISTER_WRITE: a register that the driver or the firmware writes. -/
def effRegisterWrite (r : RegAddr) (v : Word) (s : State) : State :=
  match r with
  | .tcb die off => tcbWrite die off.toNat v s
  | .qcb pkg q word => setQcb pkg q word.toNat v s
  | .window i word => setWindow i.toNat word.toNat v s
  | .pmargin die => if 1 ≤ v.toNat ∧ v.toNat ≤ 255 then s.modDie die fun d => { d with pmargin := v.toNat } else s
  | .pcap pkg => s.modPkg pkg fun x => { x with pcap := min v.toNat 2400 }
  | .stvec core => s.modCore core fun x => { x with stvec := v &&& ~~~ 7 }
  | .domain => if 1 ≤ v.toNat ∧ v.toNat ≤ 192 then { s with domain := v.toNat } else s
  | .latent die => if (s.die die).frozen then s.modDie die fun d => { d with latent := [], latentNow := 0, frozen := false } else s

/-- INVALIDATION_COMPLETE (R354): the oldest invalidation of a die ends. -/
def effInvalComplete (die : Nat) (s : State) : State :=
  match (s.die die).invals with
  | [] => s
  | _ :: rest => s.modDie die fun d => { d with invals := rest, invdone := d.invdone + 1 }

/-! ## Host accesses (R401) -/

/-- The package, offset and access of a host access through the aperture. -/
def hostParts : HostAcc → Option (Nat × Nat × Access)
  | .read pkg off z => some (pkg, off, .read (sizeBytes z))
  | .write pkg off z v => some (pkg, off, .write (sizeBytes z) (v.zeroExtend 2048))
  | .choose .. => none
  | .register _ => none

/-- A register that BAR0 shows: of a translation control block (R348) or a host work queue (R334). -/
def hostRegister (s : State) : RegAddr → Option Word
  | .tcb die off => some (tcbRead (s.die die) off.toNat)
  | .qcb pkg q word => some (qcbRead (s.qcb (qcbKey pkg q)) word.toNat)
  | _ => none

/-- A host access is done: its entry goes, its answer is given. -/
def hostDone (acc : HostAcc) (m : Option HostMsg) (s : State) : State :=
  { s with
    hostReqs := s.hostReqs.filter fun h => h.acc ≠ acc
    hostOut := match m with | some m => s.hostOut ++ [m] | none => s.hostOut }

/-- A host access's entry put into the list, in its place. -/
def putHost (h : HostReq) (s : State) : State :=
  { s with hostReqs := if s.hostReqs.any fun x => x.acc = h.acc then s.hostReqs.map fun x => if x.acc = h.acc then h else x else s.hostReqs ++ [h] }

/-- An access through the aperture as a class 0 request (R401): a fault suspends it (R357), and without a live path it waits
2 ms (R396). -/
def hostAperture (pkg off : Nat) (a : Access) (h : HostReq) (s : State) : State :=
  let die := h.die.toNat
  let ea := BitVec.ofNat 64 (die * 2 ^ 47 + off)
  let ag : Agent := ⟨4096 * pkg, 5, 0, 0, h.asid, false, true⟩
  let fails (cause sub : Byte) (s : State) : State := hostDone h.acc (some (.failed cause sub)) s
  match h.state with
  | .suspended .. => s
  | .failed t => fails t.cause t.sub s
  | _ =>
    if 4 * s.domain ≤ die then fails causeProt 0 s
    else if noPath s ag.core die then
      match h.lostAt with
      | none => putHost { h with state := .retry, lostAt := some s.cycle } s
      | some n => if s.cycle < n + 6000000 then s else fails causeTimeout 0 s
    else match globalAccess ag ea a (.queue 0) s with
      | (.done _ v _, s) => hostDone h.acc (match a with | .read _ => some (.data (BitVec.ofNat 64 v)) | _ => none) s
      | (.fault die num, s) => putHost { h with state := .suspended die num, lostAt := none } s
      | (.failed t, s) => fails t.cause t.sub s
      | (.poisoned .., s) => fails causeEcc causeEcc s
      | (_, s) => s

/-- HOST_ACCESS (R401): through BAR2, at an offset of 16 GiB; or through BAR0. -/
def effHostAccess (acc : HostAcc) (s : State) : State :=
  match acc with
  | .choose pkg die asid => s.modPkg pkg fun x => { x with apDie := die, apAsid := asid }
  | .register r => (match hostRegister s r with | some v => { s with hostOut := s.hostOut ++ [.data v] } | none => s)
  | _ => match hostParts acc with
    | none => s
    | some (pkg, off, a) =>
      if 2 ^ 34 < off + a.bytes ∨ s.domain ≤ pkg then s else
      let x := s.pkg pkg
      let h : HostReq := { acc := acc, die := x.apDie, asid := x.apAsid, state := .issued }
      hostAperture pkg off a ((s.hostReqs.find? fun h => h.acc = acc).getD h) s

/-! ## Dials (R371 to R373) -/

/-- A die's dial made to read `fine` now and to take up a correction from here on, both in 1/30,000 ns. -/
def setDial (d : Nat) (fine slew : Int) (s : State) : State :=
  s.modDie d fun x => { x with dialBase := fine - (10000 * s.cycle : Nat), slew := slew, slewAt := s.cycle }

/-- The epoch may be set to v at a die (R371): it has not been, and v is not below its reading. -/
def epochFits (s : State) (v : Word) (d : Nat) : Bool := !(s.die d).epochSet && dial s d ≤ v.toNat

/-- DIAL_EPOCH_SET (R371): once at every die, to a value not below its reading; a package that joins a domain whose epoch is set
takes the grandmaster's reading (log entry 18). -/
def effEpochSet (v : Word) (s : State) : State :=
  let new := (allDies s).filter fun d => !(s.die d).epochSet
  let master := 4 * s.grandmaster.getD 0
  if !(new.all (epochFits s v)) ∨ ((s.die master).epochSet ∧ v.toNat ≠ dial s master) then s else
  new.foldl (fun s d => (setDial d (v.toNat * 30000) 0 s).modDie d fun x => { x with epochSet := true }) s

/-- The cycles between two timing exchanges: 1 ms (R373). -/
def syncEvery : Nat := 3000000

/-- A package exchanges timing with the grandmaster now (R373): another package than it, both with their epoch set, once in
1 ms. -/
def syncDue (s : State) (pkg : Nat) : Option Nat :=
  s.grandmaster.filter fun g => g != pkg && pkg < s.domain && !(s.pkg pkg).lost && !(s.pkg g).lost && decide ((s.pkg pkg).syncAt ≤ s.cycle) &&
    (s.die (4 * g)).epochSet && (s.die (4 * pkg)).epochSet

/-- DIAL_SYNC_EXCHANGE (R373): a package takes up the difference that it measures from the grandmaster's dial, to 12 ns either
way, so that two packages agree within 25 ns (R372; log entry 18). -/
def effDialSync (pkg ns : Nat) (ahead : Bool) (s : State) : State :=
  match syncDue s pkg with
  | none => s
  | some g =>
    if 12 < ns then s else
    let err : Int := if ahead then -(30000 * ns : Nat) else (30000 * ns : Nat)
    let diff := dialFine s (4 * g) + err - dialFine s (4 * pkg)
    ((upTo 4).foldl (fun s i => setDial (4 * pkg + i) (dialFine s (4 * pkg + i)) diff s) s).modPkg pkg fun x => { x with
      syncAt := (s.cycle / syncEvery + 1) * syncEvery }

/-- Packages of the domain that are not lost. -/
def livePkgs (s : State) : List Nat := (upTo s.domain).filter fun p => !(s.pkg p).lost

/-- GRANDMASTER_LOST (R373): the grandmaster's package is lost, and the others hold over. -/
def effGmLost (pkg : Nat) (s : State) : State :=
  if s.grandmaster ≠ some pkg ∨ !(s.pkg pkg).lost then s else
  let at_ := reporterOf s (4 * (livePkgs s).headD pkg)
  { latent at_ 0x0D 7 0 (BitVec.ofNat 64 pkg) (BitVec.ofNat 64 (dial s at_)) s with grandmaster := none, masterLostAt := s.cycle }

/-- GRANDMASTER_TAKEOVER (R373): the lowest live package takes over. -/
def effGmTakeover (pkg : Nat) (s : State) : State :=
  if s.grandmaster.isSome ∨ (livePkgs s).head? ≠ some pkg then s else
  { latent (4 * pkg) 0x0E 7 0 (BitVec.ofNat 64 pkg) (BitVec.ofNat 64 (dial s (4 * pkg))) s with grandmaster := some pkg }

/-! ## The Polier links (R395, R396) -/

/-- A link of a package changed. -/
def modLink (pkg link : Nat) (f : Link → Link) (s : State) : State :=
  s.modPkg pkg fun x => { x with links := put link (f (look {} x.links link)) x.links }

/-- FLIT_RECEIVE (R395): a good flit advances the sequence; a bad one is retried, and the sixteenth takes the link down. -/
def effFlit (pkg link : Nat) (good : Bool) (s : State) : State :=
  let l := look {} (s.pkg pkg).links link
  if 18 ≤ link ∨ l.down then s
  else if good then modLink pkg link (fun l => { l with seq := l.seq + 1, retries := 0 }) s
  else
    let ev (code : Nat) (s : State) : State := latent (4 * pkg) code 4 link (BitVec.ofNat 64 link) (BitVec.ofNat 64 l.seq) s
    let s := ev 0x06 (modLink pkg link (fun l => { l with retries := l.retries + 1 }) s)
    if l.retries + 1 < 16 then s else ev 0x07 (modLink pkg link (fun l => { l with down := true }) s)

/-- REMOTE_PATH_TIMEOUT (R396): a remote access that has found no live path for 2 ms fails; the cycle in which it first found
none is noted, and forgotten once there is one. -/
def effPathTimeout (k idx : Nat) (s : State) : State :=
  match (s.ctx k).reqs[idx]? with
  | none => s
  | some r =>
    let waits : Bool := match r.state with | .issued => true | .retry => true | .announced => true | _ => false
    if isLocal r.addr ∨ !waits ∨ !noPath s (coreOf k) (vaDie r.addr) then
      (if r.lostAt.isSome then setReq k r.seq (fun r => some { r with lostAt := none }) s else s)
    else match r.lostAt with
      | none => setReq k r.seq (fun r => some { r with lostAt := some s.cycle }) s
      | some n => if s.cycle < n + 6000000 then s else afterPerf k r 0 false (.failed (trapOf causeTimeout 0 r.addr)) s

/-! ## Merging in the switches (R398, R399) -/

/-- The first enabled window that an address lies in. -/
def windowOf (s : State) (a : Word) : Option Nat :=
  (upTo 16).find? fun i =>
    let w := s.windows.toList.getD i (0, 0)
    let base := wf w.1 56 21 * 2 ^ 21
    w.1.getLsbD 63 && base ≤ a.toNat && a.toNat < base + wf w.2 9 0 * 2 ^ 21

/-- A relaxed RED's operation and size. -/
def mergeable (r : Req) : Option (RedOp × Nat) :=
  match r.acc with
  | .rmw n (.red op _) => if r.dest = .none ∧ !r.ord.acq ∧ !r.ord.rel then some (op, n) else none
  | _ => none

/-- A request waits in a merge entry. -/
def holdMerge (k seq : Nat) (s : State) : State := setReq k seq (fun r => some { r with state := .merging }) s

/-- SWITCH_RED_MERGE (R398, R399): a relaxed RED to an enabled window of its tenant, on another package, enters a merge
entry of the same address, operation and size; one whose page is not known to be unsealed goes alone. -/
def effRedMerge (k idx : Nat) (s : State) : State :=
  match (s.ctx k).reqs[idx]? with
  | none => s
  | some r =>
    match mergeable r, windowOf s r.addr with
    | some (op, n), some i =>
      let w := s.windows.toList.getD i (0, 0)
      if isLocal r.addr ∨ !mayPerform s k r ∨ pkgOf (coreOf k) = vaDie r.addr / 4 ∨ (s.core (coreOf k)).tenant ≠ some (w.2.extractLsb' 48 16) ∨
          noPath s (coreOf k) (vaDie r.addr) then s
      else
        let open_ := s.unsealed.contains (i, r.addr.toNat / 4096)
        let takes (m : Merge) : Bool := open_ && !m.alone && m.sent.isNone && m.addr == r.addr && m.op == op && m.n == n
        let s := holdMerge k r.seq s
        if s.merges.any takes then
          { s with merges := s.merges.map fun (m : Merge) => if takes m then { m with parts := m.parts ++ [(k, r.seq)] } else m }
        else
          { s with
            merges := s.merges ++ [{
              id := s.seq, addr := r.addr, op := op, n := n, parts := [(k, r.seq)], alone := !open_, since := s.cycle, sent := none }]
            seq := s.seq + 1 }
    | _, _ => s

/-- A contributor's request leaves its merge entry. -/
def leaveMerge (id k seq : Nat) (s : State) : State :=
  { s with merges := s.merges.map fun (m : Merge) => if m.id = id then { m with parts := m.parts.filter (· != (k, seq)) } else m }

/-- One contribution of a merged update performed at the home, checked in its own address space and privilege (R314, R355):
its flags, or its own fault or failure, which takes it out of the entry. -/
def mergePart (id : Nat) (p : Nat × Nat) (x : BitVec 5 × State) : BitVec 5 × State :=
  let s := x.2
  match (s.ctx p.1).reqs.find? fun r => r.seq = p.2 with
  | none => (x.1, leaveMerge id p.1 p.2 s)
  | some r =>
    match globalAccess (agentOf s p.1 r.user) r.addr r.acc (.ctx p.1 r.seq) s with
    | (.done _ _ fl, s) => (x.1 ||| fl, s)
    | (.blocked, s) => (x.1, setReq p.1 p.2 (fun r => some { r with state := .issued }) (leaveMerge id p.1 p.2 s))
    | (y, s) => (x.1, afterPerf p.1 r 0 false y (leaveMerge id p.1 p.2 s))

/-- The page of an entry is sealed at its home, as its first contributor reaches it (R399). -/
def mergeSealed (s : State) (m : Merge) : Bool :=
  match m.parts with
  | [] => true
  | (k, seq) :: _ =>
    let user := match (s.ctx k).reqs.find? fun r => r.seq = seq with | some r => r.user | none => true
    match translate s (agentOf s k user) m.addr kindRmw with | .ok (_, e) => pteSeal e.leaf | .error _ => true

/-- MERGE_FLUSH (R123, R398): at most 1 us after it was made, an entry's update is performed at the home: its contributions one at a time, each rounded once. -/
def effMergeFlush (id : Nat) (s : State) : State :=
  match s.merges.find? fun m => m.id = id with
  | none => s
  | some m =>
    if m.sent.isSome then s else
    let sealed_ := mergeSealed s m
    let (fl, s) := m.parts.foldl (fun x p => mergePart id p x) ((0 : BitVec 5), s)
    { s with merges := (s.merges.filter fun y => y.id ≠ id || !y.parts.isEmpty).map fun (y : Merge) =>
        if y.id = id then { y with sent := some (fl, sealed_) } else y }

/-- SWITCH_ACKNOWLEDGEMENT (R398, R399): the page's SEAL answer is recorded, and every contributor is acknowledged with the
flags of the merge (R123). -/
def effSwitchAck (id : Nat) (s : State) : State :=
  match s.merges.find? fun m => m.id = id with
  | none => s
  | some m =>
    match m.sent with
    | none => s
    | some (fl, sealed_) =>
      let s := { s with
        merges := s.merges.filter fun y => y.id ≠ id
        unsealed := match windowOf s m.addr with
          | some i => if !sealed_ && !s.unsealed.contains (i, m.addr.toNat / 4096) then (i, m.addr.toNat / 4096) :: s.unsealed else s.unsealed
          | none => s.unsealed }
      m.parts.foldl (fun s p =>
        (setReq p.1 p.2 (fun _ => none) s).modCtx p.1 fun c => { c with acks := c.acks ++ [{ flags := fl, fail := none }] }) s

/-! ## Boot, attestation, keys (R404 to R406, R409) -/

/-- The reason that an image is refused: 1 magic, 2 stage, 3 version, 4 reserved bytes, 5 signature, 6 digest (R404; log
entry 17). -/
def refuseReason (img : BootImage) : Option Nat :=
  if img.magic.toNat ≠ 0x37494B534C474952 then some 1
  else if 8 ≤ img.stage.toNat then some 2
  else if img.version.toNat < Config.fuseVersion.toNat then some 3
  else if !img.reserved then some 4
  else if !Config.verifies img.digest img.signature then some 5
  else if shake256 img.body img.length.toNat ≠ img.digest then some 6
  else none

/-- BOOT_IMAGE_VERIFY (R404): the measurement is extended, or boot stops. -/
def effBootImage (pkg : Nat) (img : BootImage) (s : State) : State :=
  if (s.pkg pkg).bootStopped then s else
  match refuseReason img with
  | some n => (latent (4 * pkg) 0x11 7 0 (img.stage.zeroExtend 64) (BitVec.ofNat 64 n) s).modPkg pkg fun x => { x with bootStopped := true }
  | none => s.modPkg pkg fun x =>
      let m := vget x.measure img.stage.toNat
      { x with measure := vset x.measure img.stage.toNat (shake256 (m.toNat + img.digest.toNat * 2 ^ 512) 128) }

/-- The register-file bank of a row, by its key: four tiles each (R18). -/
def rfBank (key : Nat) : Nat := key / 64

/-- A register-file bank is mapped out (R409): it fails, or it reports corrected errors at one address on two boots in a row. -/
def mapsOut (bad : BitVec 4) (old now : List Nat) (i : Nat) : Bool := bad.getLsbD i || now.any fun a => rfBank a == i && old.contains a

/-- BOOT_SELF_TEST (R18, R409): at boot and once for each core, banks of its register file are mapped out, and a core whose
banks fail is withheld; the rows that reported corrected errors are kept for the next boot. -/
def effSelfTest (core : Nat) (found : SelfTest) (withheld : Bool) (s : State) : State :=
  let x := s.core core
  if (s.pkg (pkgOf core)).booted ∨ x.tested ∨ x.launch.isSome then s else
  let out := mapsOut found.bad (look [] s.corrected core) found.corrected
  let n := ((upTo 4).filter fun i => !out i).length
  { s.modCore core fun x => { x with
      tested := true, rfout := BitVec.ofNat 4 (((upTo 4).map fun i => if out i then 2 ^ i else 0).sum)
      ntile := if withheld then 0 else BitVec.ofNat 5 (4 * n) } with
    corrected := put core found.corrected s.corrected }

/-- Values of stated widths in bytes put together, the first lowest. -/
def packBytes (l : List (Nat × Nat)) : Nat × Nat := l.foldl (fun (r : Nat × Nat) p => (r.1 + p.1 % 2 ^ (8 * p.2) * 2 ^ (8 * r.2), r.2 + p.2)) (0, 0)

/-- The identity key's signature over packed bytes (R405, R413). -/
def signOver (l : List (Nat × Nat)) : BitVec 912 := let p := packBytes l; Config.sign (shake256 p.1 p.2)

/-- ATTESTATION_REQUEST (R405). -/
def effAttest (pkg : Nat) (nonce : BitVec 256) (s : State) : State :=
  let x := s.pkg pkg
  let caps : List (BitVec 16) := (upTo 4096).map fun i => (capcore (s.core (4096 * pkg + i))).truncate 16
  let mapOut : List (BitVec 5) := (upTo 4096).map fun i =>
    let x := s.core (4096 * pkg + i)
    (x.rfout.zeroExtend 5) ||| (if x.ntile = 0 then 16 else 0)
  -- an asid is its tenant's by a queue's QASID or by a record's ASID
  let tenants := (((s.qcbs.filter fun p => p.1 / 4096 == pkg).map fun p => (p.2.qasid, p.2.tenant)) ++
    (s.launches.filter fun p => p.2.pkg == pkg).map fun p => (p.2.asid, p.2.tenant)).dedup
  let keys := (upTo 4).flatMap fun i => (s.die (4 * pkg + i)).keys.map fun y => (4 * pkg + i, y.1, y.2.1)
  let windows := (s.die (4 * pkg)).windows
  let time := BitVec.ofNat 64 (dial s (4 * pkg))
  let body := (nonce.toNat, 32) :: x.measure.toList.map (fun m => (m.toNat, 64)) ++ caps.map (fun c => (c.toNat, 2)) ++
    mapOut.map (fun m => (m.toNat, 1)) ++
    tenants.flatMap (fun p => [(p.1.toNat, 2), (p.2.toNat, 2)]) ++ keys.flatMap (fun p => [(p.1, 2), (p.2.1, 1), (p.2.2, 2)]) ++
    windows.toList.flatMap (fun p => [(p.1.toNat, 8), (p.2.toNat, 8)]) ++ [(time.toNat, 8)]
  { s with hostOut := s.hostOut ++ [.report pkg nonce x.measure caps mapOut tenants keys windows time (signOver body)] }

/-- TENANT_KEY_LOAD (R406): a key slot of a die is written; no path reads it back. -/
def effKeyLoad (die : Nat) (index : Byte) (tenant : Nat) (key : BitVec 512) (s : State) : State :=
  s.modDie die fun d => { d with keys := (index.toNat, tenant, key) :: d.keys.filter fun p => p.1 ≠ index.toNat }

/-! ## The latent record (R411 to R413) -/

/-- LATENT_READOUT (R413): header, entries oldest first, signature. -/
def effReadout (die : Nat) (nonce : BitVec 256) (s : State) : State :=
  let d := s.die die
  let l := d.latent.reverse
  let seqs := l.map (·.seq)
  let (oldest, newest) := (seqs.headD 0, seqs.getLastD 0)
  let head := [(die, 2), (if d.frozen then 1 else 0, 1), (oldest.toNat, 4), (newest.toNat, 4), (nonce.toNat, 32)]
  let body := l.flatMap fun e => [(e.time.toNat, 8), (e.inst.toNat + e.unit.toNat * 2 ^ 12 + e.code.toNat * 2 ^ 16 + e.seq.toNat * 2 ^ 32, 8),
    (e.arg0.toNat, 8), (e.arg1.toNat, 8)]
  { s with hostOut := s.hostOut ++ [.latent die d.frozen oldest newest nonce l (signOver (head ++ body))] }

/-- LATENT_RECORD_FREEZE (R412): event 0x12 is the last to enter, and the vector is raised. -/
def effFreeze (die : Nat) (cause : Word) (s : State) : State :=
  if (s.die die).frozen then s else
  msix die 2 ((latent die 0x12 7 0 cause 0 s).modDie die fun d => { d with frozen := true })

/-! ## Storage errors (R407, R408) -/

/-- A unit's latent-record event (R407): corrected or poisoned, its address or 0, its array in R407's order. -/
def eccEvent (u : EccUnit) (ok : Bool) (s : State) : State :=
  let code := if ok then 0x0A else 0x0B
  let bank (b off : Nat) : State := latentCore (b / 16) code (bankBase b + BitVec.ofNat 64 off) 0 s
  let hbm (a : Nat) : State := latent (a / 2 ^ 52) code 3 0 (BitVec.ofNat 64 (a % 2 ^ 52)) 3 s
  let own (k array : Nat) : State := latentCore (coreOf k) code 0 (BitVec.ofNat 64 array) s
  match u with
  | .bank a => bank (a / 8192) (a % 8192)
  | .bankRead _ a => bank (a / 8192) (a % 8192)
  | .desc b => bank b 0
  | .waiter b _ => bank b 0
  | .dieWaiter d _ => latent d code 3 0 0 0 s
  | .hbm a => hbm a
  | .hbmRead _ a => hbm a
  | .row k _ _ => own k 1
  | .reg k _ => own k 2
  | .cond k _ => own k 2
  | .ctl k _ => own k 2
  | .tray k _ => own k 2
  | .cal core _ _ => own (8 * core) 4

/-- The context that reads a unit as its error is found (R407). -/
def eccConsumer : EccUnit → Option Nat
  | .bankRead k _ => some k
  | .hbmRead k _ => some k
  | .row k _ _ => some k
  | .reg k _ => some k
  | .cond k _ => some k
  | .ctl k _ => some k
  | .tray k _ => some k
  | _ => none

/-- An element of a list changed. -/
def modNth {α : Type} (i : Nat) (f : α → α) (l : List α) : List α := l.mapIdx fun j x => if j = i then f x else x

/-- A unit poisoned (R408). -/
def poisonUnit (u : EccUnit) (s : State) : State :=
  let bank (a : Nat) : State := if s.bankPoison.contains (a / 8) then s else { s with bankPoison := s.bankPoison ++ [a / 8] }
  let hbm (a : Nat) : State := if s.hbmPoison.contains (a / 64) then s else { s with hbmPoison := s.hbmPoison ++ [a / 64] }
  let entry (i : Nat) (l : List Registered) : List Registered := modNth i (fun (r : Registered) => { r with bad := true }) l
  match u with
  | .bank a => bank a
  | .bankRead _ a => bank a
  | .hbm a => hbm a
  | .hbmRead _ a => hbm a
  | .desc b => s.modBank b fun x => { x with badDesc := true }
  | .waiter b i => s.modBank b fun x => { x with waiters := entry i x.waiters }
  | .dieWaiter d i => s.modDie d fun x => { x with waiters := entry i x.waiters }
  | .row k key unit => modRow (coreOf k) key (fun r => { r with bad := r.bad ||| BitVec.ofNat 33 (2 ^ unit) }) s
  | .reg k r => if r = 0 then s else s.modCtx k fun c => { c with poison := put r.toNat ⟨causeEcc, 0⟩ c.poison }
  | .cond k r => if r = 0 then s else s.modCtx k fun c => { c with badC := setBit c.badC r.toNat true }
  | .ctl k n => setCtlPoison k n true s
  | .tray k i => s.modCtx k fun c => { c with tray := modNth i (fun (cl : Closure) => { cl with ecc := true }) c.tray }
  | .cal core n w => modPlate core n (fun p => { p with badCal := w :: p.badCal.filter (· ≠ w) }) s

/-- ECC_SCRUB (R407, R408; log entry 61): a corrected error writes its event and is counted by the context that reads the
unit; another poisons the unit. -/
def effScrub (u : EccUnit) (ok : Bool) (s : State) : State :=
  let s := eccEvent u ok s
  if !ok then poisonUnit u s else match eccConsumer u with | some k => countEv k 12 1 s | none => s

/-! ## Power (R414) -/

/-- The cap in W: 2,400 or a lower PCAP, less 100 W for each thermal step. -/
def capOfPkg (x : Pkg) : Nat := min x.pcap 2400 - x.thermalCap

/-- The class that a step acts on, and its units (R414): above the cap, of the busiest units those of the first class with one
still above 16/256; below it, the lowered units of the last class. -/
def dutyStep (x : Pkg) (high : Bool) (busiest : List (Nat × Nat)) : Option (Nat × List Nat) :=
  let units (cls : Nat) : List Nat :=
    if high then ((busiest.filter fun p => p.1 == cls && 16 < dutyOf x cls p.2).map (·.2)).dedup
    else (x.duty.filter fun p => p.1 / 2 ^ 24 == cls).map (·.1 % 2 ^ 24)
  ((if high then upTo 4 else (upTo 4).reverse).find? fun cls => !(units cls).isEmpty).map fun cls => (cls, units cls)

/-- A unit's duty set; a full one is not listed. -/
def setDuty (cls unit v : Nat) (x : Pkg) : Pkg :=
  { x with duty := if 256 ≤ v then drop (2 ^ 24 * cls + unit) x.duty else put (2 ^ 24 * cls + unit) v x.duty }

/-- GOVERNOR_TICK (R414), with the units of each class that it measures as the busiest: above the cap their duty falls by
1/16, and lowered ones rise again below it; a step stands for 10 us (log entry 59). -/
def effGovernor (pkg : Nat) (draw : Draw) (s : State) : State :=
  let x := s.pkg pkg
  let high : Bool := decide (capOfPkg x < draw.projected)
  if s.cycle < x.dutyAt then s else
  match dutyStep x high draw.busiest with
  | none => s
  | some (cls, units) =>
    let s := units.foldl (fun s unit =>
      let old := dutyOf x cls unit
      let new := if high then old - 16 else min 256 (old + 16)
      latent (4 * pkg) 0x09 5 cls (BitVec.ofNat 64 old) (BitVec.ofNat 64 new) (s.modPkg pkg (setDuty cls unit new))) s
    s.modPkg pkg fun x => { x with dutyAt := s.cycle + 30000 }

/-- THERMAL_STEP (R414), in 0.1 degrees: the cap falls by 100 W, and at 110 degrees the rings freeze. -/
def effThermal (pkg temp : Nat) (s : State) : State :=
  if temp ≤ 950 then s else
  let s := s.modPkg pkg fun x => { x with thermalCap := x.thermalCap + 100 }
  let s := latent (4 * pkg) 0x08 5 0 (BitVec.ofNat 64 temp) (BitVec.ofNat 64 (capOfPkg (s.pkg pkg))) s
  if temp < 1100 then s else (upTo 4).foldl (fun s i => effFreeze (4 * pkg + i) 1 s) s

/-! ## Losing a die or a package (R410, R415) -/

/-- Waiters of a registry that is lost try again, and then find no path. -/
def reissueWaiters (die : Nat) (s : State) : State :=
  let l := (s.die die).waiters
  let s := s.modDie die fun d => { d with waiters := [] }
  l.foldl (fun s r => match r.who with
    | .ctx k q => setReq k q (fun x => some { x with state := .issued, due := s.cycle }) s
    | .queue q => modHead q (fun ch => if ch.wait = .waitv then { ch with wait := .ready } else ch) s
    | .dep .. => wake none r 4 s) s

/-- Members that stand on a die are killed with cause 0x12 (R281, R410). A launch that has not started, or is saved, can have no
member there any more: it fails as a whole (log entry 106). -/
def killOnDie (die : Nat) (s : State) : State :=
  let there (k : Nat) : Bool := dieOf (coreOf k) == die
  s.launches.foldl (fun s p =>
    match p.2.phase with
    | .started => (p.2.here.filter there).foldl (fun s k =>
        if (s.ctx k).launch.isSome ∧ (s.ctx k).left = .no then kill causeTimeout 0 k s else s) s
    | .imageFault | .placed | .saved => if p.2.members.any there then killShare causeTimeout 0 p.1 s else s
    | _ => s) s

/-- DIE_HEARTBEAT_MISS (R410, R412): the die has failed; its members are killed, and who waits on its records fails. -/
def effDieMiss (die : Nat) (s : State) : State :=
  if (s.die die).failed then s else
  let s := s.modDie die fun d => { d with failed := true }
  let pkg := die / 4
  let by_ := reporterOf s (4 * pkg)
  let s := latent by_ 0x0F 7 die (BitVec.ofNat 64 die) (BitVec.ofNat 64 (dial s by_)) s
  let hit := (s.die die).records.map (fun r => (r.num, r.va)) ++
    ((faultNumbers (s.die die)).drop (s.die die).records.length).zip ((s.die die).faultWaits.map (·.va))
  let s := s.modDie die fun d => { d with records := [], faultWaits := [] }
  let s := hit.foldl (fun s r => answerWith die r.1 (some (trapOf causeTimeout 0 r.2)) s) s
  let s := killOnDie die (reissueWaiters die s)
  effFreeze die causeTimeout.toNat s

/-- PACKAGE_LOST (R415): every live package records its four dies as failed, and its own links go down. -/
def effPkgLost (pkg : Nat) (s : State) : State :=
  if (s.pkg pkg).lost then s else
  let s := s.modPkg pkg fun x => { x with lost := true }
  let s := (livePkgs s).foldl (fun s p =>
    let by_ := reporterOf s (4 * p)
    (upTo 4).foldl (fun s i => latent by_ 0x0F 7 (4 * pkg + i) (BitVec.ofNat 64 (4 * pkg + i)) (BitVec.ofNat 64 (dial s by_)) s) s) s
  let s := (upTo 18).foldl (fun s i =>
    let l := look {} (s.pkg pkg).links i
    if l.down then s else
    latent (4 * pkg) 0x07 4 i (BitVec.ofNat 64 i) (BitVec.ofNat 64 l.seq) (modLink pkg i (fun l => { l with down := true }) s)) s
  (upTo 4).foldl (fun s i => reissueWaiters (4 * pkg + i) s) s

/-! ## Resets (R217, R371, R412) -/

/-- A core of a package. -/
def inPkg (pkg core : Nat) : Bool := core / 4096 == pkg

/-- A package's contexts, cores, banks, cells, engines and launches are gone. -/
def wipePkg (pkg : Nat) (s : State) : State :=
  let gone := (s.launches.filter fun p => p.2.pkg == pkg).map (·.1)
  { s with
    ctxs := s.ctxs.filter fun p => !inPkg pkg (coreOf p.1)
    cores := s.cores.filter fun p => !inPkg pkg p.1
    banks := s.banks.filter fun p => !inPkg pkg (p.1 / 16)
    turns := s.turns.filter fun p => !inPkg pkg (p.1 / 16)
    cells := s.cells.filter fun p => !inPkg pkg (4 * p.1)
    queues := s.queues.filter fun p => queuePkg p.1 != pkg
    engines := s.engines.filter fun p => queuePkg (16 * p.1) != pkg
    arcades := s.arcades.filter fun a => !inPkg pkg (coreOf a.ctx)
    announces := s.announces.filter fun a => !inPkg pkg a.core
    merges := s.merges.filter fun m => m.parts.all fun p => !inPkg pkg (coreOf p.1)
    launches := s.launches.filter fun p => p.2.pkg != pkg
    barriers := s.barriers.filter fun b => !gone.contains b.launch
    rounds := s.rounds.filter fun r => !gone.contains r.launch
    qcbs := s.qcbs.filter fun p => p.1 / 4096 != pkg
    bankMem := s.bankMem.filter fun p => !inPkg pkg (p.1 / 8192 / 16)
    bankPoison := s.bankPoison.filter fun u => !inPkg pkg (u / 1024 / 16) }

/-- A die after reset: a warm one keeps its dial and its latent record (R371, R412). -/
def resetDie (cold : Bool) (cycle now : Nat) (d : Die) : Die :=
  if cold then { dialBase := -(10000 * cycle : Nat) }
  else { dialBase := d.dialBase, bootAt := now, slew := d.slew, slewAt := d.slewAt, epochSet := d.epochSet, latent := d.latent, seq := d.seq,
         latentAt := d.latentAt, latentNow := d.latentNow, frozen := d.frozen }

/-- A package restarts: requesters of its dies' records and registries try again. -/
def resetPkg (cold : Bool) (pkg : Nat) (s : State) : State :=
  let s := (upTo 4).foldl (fun s i =>
    let d := 4 * pkg + i
    let nums := faultNumbers (s.die d)
    reissueWaiters d (nums.foldl (fun s num => answerWith d num none s) (s.modDie d fun x => { x with records := [], faultWaits := [] }))) s
  let s := wipePkg pkg s
  let s := (upTo 4).foldl (fun s i => s.modDie (4 * pkg + i) (resetDie cold s.cycle (dial s (4 * pkg + i)))) s
  -- its count starts from 0 again (R367; log entry 18), and the switches know none of its pages (R399)
  let s := { s.modPkg pkg fun _ => { countAt := s.cycle } with
    pathless := s.pathless.filter fun p => p.1 / 4096 / 8 / 4096 ≠ pkg
    unsealed := s.unsealed.filter fun p => p.2 * 4096 / 2 ^ 47 / 4 ≠ pkg }
  if cold then
    { s with
      hbm := s.hbm.filter fun p => p.1 / 2 ^ 52 / 4 ≠ pkg
      seals := s.seals.filter fun p => p.1 * 16 / 2 ^ 52 / 4 ≠ pkg
      hbmPoison := s.hbmPoison.filter fun u => u * 64 / 2 ^ 52 / 4 ≠ pkg }
  else s

/-- COLD_RESET (R371, R412). -/
def effColdReset (pkg : Nat) (s : State) : State := resetPkg true pkg s
/-- WARM_RESET (R217, R412). -/
def effWarmReset (pkg : Nat) (s : State) : State := resetPkg false pkg s

end Sys2Proof.Machine
end

