-- ==== Sys2Proof/Machine/Control.lean ====
section
/-! DEFINITION. The meanings of control transfers, loops, MOVI, control registers, SYS, dial time and the tray (R73, R74,
R93, R101 to R109, R250, R284 to R289, R292). -/

namespace Sys2Proof.Machine

/-- NOP (R73). Slot A no-operation; it has no effect beyond its stall count. -/
def execNop (s : State) : Out := .next (runSlot .nop (fun s => s) s)

/-- BR (R101). Unconditional branch to PC + 8 x offset. -/
def execBr (off : Imm 22) (s : State) : Out := .next (runSlot (.br off) (effBranch off.signed true) s)

/-- BC (R101). Conditional branch, taken when the condition register equals the sense bit. -/
def execBc (c : CReg) (sense : Bool) (off : Imm 18) (s : State) : Out := .next (runSlot (.bc c sense off) (fun s => effBranch off.signed (rdC s c == sense) s) s)

/-- BPEND (R102). Branch taken when the scalar register is pending; it never waits. -/
def execBpend (a : SReg) (off : Imm 16) (s : State) : Out := .next (runSlot (.bpend a off) (fun s => effBranch off.signed ((me s).pendingAll a) s) s)

/-- BNPEND (R102). Branch taken when the scalar register is not pending. -/
def execBnpend (a : SReg) (off : Imm 16) (s : State) : Out := .next (runSlot (.bnpend a off) (fun s => effBranch off.signed (!(me s).pendingAll a) s) s)

/-- CALL (R103). Writes the link PC + 8 to s30 and branches. -/
def execCall (off : Imm 22) (s : State) : Out := .next (runSlot (.call off) (effCall off.signed) s)

/-- JR (R103). Jumps to a register target and optionally writes a link to sd. -/
def execJr (d a : SReg) (s : State) : Out := .next (runSlot (.jr d a) (effJr d a) s)

/-- RET (R103). Jumps to s30; a return to EXIT ends the context. -/
def execRet (s : State) : Out := .next (runSlot .ret effRet s)

/-- LOOP (R106). Opens a hardware loop level with its count taken from a register. -/
def execLoop (level : BitVec 2) (stop : BitVec 12) (a : SReg) (s : State) : Out := .next (runSlot (.loop level stop a) (fun s => effLoop level stop (rdS s a) s) s)

/-- LOOPI (R106). Opens a hardware loop level with an immediate count. -/
def execLoopi (level : BitVec 2) (stop : BitVec 12) (cnt : Imm 7) (s : State) : Out := .next (runSlot (.loopi level stop cnt) (effLoop level stop (BitVec.ofNat 64 cnt.unsigned)) s)

/-- LBRK (R108). Clears the active loop count and transfers control past the loop end. -/
def execLbrk (s : State) : Out := .next (runSlot .lbrk effLbrk s)

/-- TRAYQ (R250). Returns the number of closures held in the tray. -/
def execTrayq (d : SReg) (s : State) : Out := .next (runSlot (.trayq d) (effTrayq d) s)

/-- TRAYQ_DEP (R250). Returns the number of closures that captured sa by name. -/
def execTrayqDep (d a : SReg) (s : State) : Out := .next (runSlot (.trayqDep d a) (effTrayqDep d a) s)

/-- TRAYQ_STOP (R250). Returns the stop PC during DEFERRED handling. -/
def execTrayqStop (d : SReg) (s : State) : Out := .next (runSlot (.trayqStop d) (effTrayqStop d) s)

/-- TRAYQ_LAND (R250). Completes the faulted closure by landing sa in its destination and removing it. -/
def execTrayqLand (a : SReg) (s : State) : Out := .next (runSlot (.trayqLand a) (effTrayqLand a) s)

/-- TRAYDRAIN (R250). Parks the context until its tray is empty. -/
def execTraydrain (s : State) : Out := .next (runSlot .traydrain (fun s => s) s)

/-- RDTIME (R292). Samples dial time into sd. -/
def execRdtime (d : SReg) (s : State) : Out := .next (runSlot (.rdtime d) (effRdtime d) s)

/-- WAITT (R292). Parks the context until dial time reaches a target. -/
def execWaitt (a : SReg) (s : State) : Out := .next (runSlot (.waitt a) (effWaitt a) s)

/-- CSRR (R284). Reads a control register. -/
def execCsrr (d : SReg) (csr : BitVec 10) (s : State) : Out := .next (runSlot (.csrr d csr) (effCsr .r csr.toNat d 0) s)

/-- CSRW (R284). Writes a control register, optionally returning the old value. -/
def execCsrw (d a : SReg) (csr : BitVec 10) (s : State) : Out := .next (runSlot (.csrw d a csr) (effCsr .w csr.toNat d a) s)

/-- CSRS (R284). Sets bits of a control register. -/
def execCsrs (d a : SReg) (csr : BitVec 10) (s : State) : Out := .next (runSlot (.csrs d a csr) (effCsr .s csr.toNat d a) s)

/-- CSRC (R284). Clears bits of a control register. -/
def execCsrc (d a : SReg) (csr : BitVec 10) (s : State) : Out := .next (runSlot (.csrc d a csr) (effCsr .c csr.toNat d a) s)

/-- TRAP (R286). Lets its bundle finish, then takes cause TRAP with a code. -/
def execTrap (a : SReg) (code : BitVec 5) (s : State) : Out := .next (runSlot (.trap a code) (effTrap causeTrap a code) s)

/-- BREAK (R286). Lets its bundle finish, then takes cause BREAK with a code. -/
def execBreak (a : SReg) (code : BitVec 5) (s : State) : Out := .next (runSlot (.break_ a code) (effTrap causeBreak a code) s)

/-- ERET (R287). Ends trap handling and resumes at xpc, xpc + 8 or the stop PC. -/
def execEret (s : State) : Out := .next (runSlot .eret effEret s)

/-- ERET_U (R287). Forwards a trap to the user vector at user level. -/
def execEretU (s : State) : Out := .next (runSlot .eretU effEretU s)

/-- ERET_TO (R287). Ends trap handling and resumes at a register target. -/
def execEretTo (a : SReg) (s : State) : Out := .next (runSlot (.eretTo a) (effEretTo a) s)

/-- WFI (R288). Parks until a pending register lands, a deadline passes or pre-emption. -/
def execWfi (a : SReg) (s : State) : Out := .next (runSlot (.wfi a) (effWfi a) s)

/-- REPLAY (R289). Answers fault records up to a number so their requesters retry, as a release at sys. -/
def execReplay (a b : SReg) (s : State) : Out := .next (runSlot (.replay a b) (effReplay a b) s)

/-- REPLAY_FAIL (R289). Answers one fault record as a failure. -/
def execReplayFail (a b : SReg) (s : State) : Out := .next (runSlot (.replayFail a b) (effReplayFail a b) s)

/-- MOVI (R93). Writes a sign-extended immediate or literal to sd. -/
def execMovi (d : SReg) (imm : Imm 12) (s : State) : Out := .next (runSlot (.movi d imm) (wrS d (wordOf imm.signed)) s)

/-- NOP_B (R74). Slot B no-operation. -/
def execNopB (s : State) : Out := .next (runSlot .nopB (fun s => s) s)

end Sys2Proof.Machine
end

