-- ==== Sys2Proof/Machine/EventsExec.lean ====
section
/-! DEFINITION. The meanings of the events: each is one step of the part at the unit that its arguments name. An event whose
condition does not hold changes nothing (log entry 12). -/

namespace Sys2Proof.Machine

/-- WAITW_TIMEOUT (R126). A registered waiter's deadline passes and sd lands TIMEOUT. -/
def execWaitwTimeout (ctx : Nat) (s : State) : Out := .next (effWaitwTimeout ctx s)

/-- SC_WINDOW_DELIVERY (R366). The announcements of one 16-cycle window are delivered at every core of the package 64 cycles after the window starts. -/
def execScWindowDelivery (pkg : Nat) (s : State) : Out := .next (effScDelivery pkg s)

/-- BGUISE_COMPLETE (R157). A running BGUISE finishes: GEN increases, the old descriptor lands and the bank stops answering CLOSED. -/
def execBguiseComplete (core bank : Nat) (s : State) : Out := .next (effBguiseComplete core bank s)

/-- ARCADE_COMPLETE (R161). A composition or dissolution finishes and lands its result code. -/
def execArcadeComplete (ctx : Nat) (s : State) : Out := .next (effArcadeComplete ctx s)

/-- BARRIER_PHASE_COMPLETE (R135). A phase completes once every remaining member has arrived; members resume with release and acquire. -/
def execBarrierPhaseComplete (launch inst : Nat) (dom : Domain) (s : State) : Out := .next (effPhaseComplete launch inst dom s)

/-- FORK_MEETING_COMPLETE (R270). Every chain of the group reaches its RENDEZ entry or ends, and the meeting completes. -/
def execForkMeetingComplete (ctx : Nat) (s : State) : Out := .next (effMeetingComplete ctx s)

/-- PORT_MOVE_APPLY (R218). The plate unit applies the move at the head of the port queue. -/
def execPortMoveApply (core : Nat) (s : State) : Out := .next (effPortApply core s)

/-- REFERENCE_PASS (R223). A 48-cycle reference exposure renews a stale drift reading before EXPOSE issues. -/
def execReferencePass (core : Nat) (s : State) : Out := .next (effReferencePass core s)

/-- EXPOSURE_COMPLETE (R224). An exposure's eight YOUT rows land with their bound tags and the drift reading updates. -/
def execExposureComplete (core : Nat) (s : State) : Out := .next (effExposureComplete core s)

/-- WGO_COMPLETE (R230). Row programming finishes after 6,000 cycles, counting unverified weights. -/
def execWgoComplete (core : Nat) (s : State) : Out := .next (effWgoComplete core s)

/-- REFIX_COMPLETE (R229). Calibration finishes, rewriting calibration words and setting or clearing FAILED. -/
def execRefixComplete (core : Nat) (s : State) : Out := .next (effRefixComplete core s)

/-- CLOSURE_RUN (R243). A ready closure runs from the tray using its captured values. -/
def execClosureRun (ctx : Nat) (s : State) : Out := .next (effClosureRun ctx s)

/-- WAITT_EXPIRE (R374). Dial time reaches a timed action's target and the waiting unit acts. -/
def execWaittExpire (who : Timed) (s : State) : Out := .next (effWaittExpire who s)

/-- WEIGHT_RETURN_ARRIVE (R332). Returned or borrowed units reach the phase root and change its outstanding count. -/
def execWeightReturnArrive (launch : Nat) (s : State) : Out := .next (effWeightArrive launch s)

/-- NRED_ROUND_LAND (R369). A tree round completes and its result lands at every member. -/
def execNredRoundLand (launch inst : Nat) (dom : Domain) (s : State) : Out := .next (effRoundLand launch inst dom s)

/-- WFI_DEADLINE (R288). Dial time reaches a WFI deadline and the context resumes. -/
def execWfiDeadline (ctx : Nat) (s : State) : Out := .next (effWfiDeadline ctx s)

/-- ROW_START (R195). A row of a queued row instruction is granted a lane group and starts. -/
def execRowStart (core : Nat) (s : State) : Out := .next (effRowStart core s)

/-- MATRIX_BLOCK_COMPLETE (R204). One block of a joint-array operation accumulates into every member quarter. -/
def execMatrixBlockComplete (cell : Nat) (s : State) : Out := .next (effBlockComplete cell s)

/-- DRAIN_BEGIN (R212). A drain starts once the operation has ended and earlier drains have landed. -/
def execDrainBegin (core : Nat) (s : State) : Out := .next (effDrainBegin core s)

/-- DRAIN_ROW_DELIVER (R213). A drained row is landed in the delivery tile and the handler becomes ready. -/
def execDrainRowDeliver (core : Nat) (s : State) : Out := .next (effRowDeliver core s)

/-- DRAIN_ROW_WRITE (R214). A drained row is converted and written to its destination; the last write lands sd. -/
def execDrainRowWrite (core : Nat) (s : State) : Out := .next (effRowWrite core s)

/-- VALUE_LAND (R27). A variable-latency value lands, clears its pending bit and wakes parked readers. -/
def execValueLand (ctx idx : Nat) (s : State) : Out := .next (effValueLand ctx idx s)

/-- FIXED_RESULT_LAND (R65). A fixed-latency result lands at its stated cycle. -/
def execFixedResultLand (ctx : Nat) (s : State) : Out := .next (effFixedLand ctx s)

/-- CWAIT_TIMEOUT (R426). A park on a barrier phase, NRED round or fork meeting exceeds CWAIT and traps TIMEOUT. -/
def execCwaitTimeout (ctx : Nat) (s : State) : Out := .next (effCwaitTimeout ctx s)

/-- CONTEXT_EXIT (R327). After a transfer to EXIT and its waits, the context returns its weight, departs and releases its quarter. -/
def execContextExit (ctx : Nat) (s : State) : Out := .next (effContextExit ctx s)

/-- BANK_ACCESS (R299). An access is performed at a bank in its slot of the bank frame. -/
def execBankAccess (core bank : Nat) (s : State) : Out := .next (effBankSlot false core bank s)

/-- CLOSED_REPLAY (R148). A plain port access that met CLOSED is replayed at the same slot of the next frame. -/
def execClosedReplay (core bank : Nat) (s : State) : Out := .next (effBankSlot true core bank s)

/-- GLOBAL_REQUEST (R355). A request for a global address is translated and checked at the owning die and performed. -/
def execGlobalRequest (ctx idx : Nat) (s : State) : Out := .next (effGlobalRequest ctx idx s)

/-- REPLAY_REGISTER_WRITE (R358). A write to the REPLAY register answers fault records up to that number. -/
def execReplayRegisterWrite (die : Nat) (num : Half) (s : State) : Out := .next (replayUpTo die num s)

/-- RFAIL_REGISTER_WRITE (R358). A write to RFAIL answers one fault record as a failure. -/
def execRfailRegisterWrite (die : Nat) (num : Half) (s : State) : Out := .next (replayFailOne die num s)

/-- INV_REGISTER_WRITE (R354). A write to INV starts invalidation of a translation range. -/
def execInvRegisterWrite (die : Nat) (cmd : Word) (s : State) : Out := .next (startInval die cmd s)

/-- INVALIDATION_COMPLETE (R354). An invalidation finishes once no TLB holds the range and its users are performed, and INVDONE increases. -/
def execInvalidationComplete (die : Nat) (s : State) : Out := .next (effInvalComplete die s)

/-- REGISTER_WRITE (R348). Write to a register that has no behaviour of its own. -/
def execRegisterWrite (reg : RegAddr) (v : Word) (s : State) : Out := .next (effRegisterWrite reg v s)

/-- COPY_ENTRY (R256). Copies one, N1 or N1 x N2 rows, item by item. -/
def execCopyEntry (q : Nat) (s : State) : Out := .next (effCopyEntry q s)

/-- GATHER_ENTRY (R256). Copies indexed source ranges to consecutive destinations. -/
def execGatherEntry (q : Nat) (s : State) : Out := .next (effGatherEntry q s)

/-- SCATTER_ENTRY (R256). Copies consecutive sources to indexed destinations. -/
def execScatterEntry (q : Nat) (s : State) : Out := .next (effScatterEntry q s)

/-- FILL_ENTRY (R256). Fills rows with an 8-byte pattern. -/
def execFillEntry (q : Nat) (s : State) : Out := .next (effFillEntry q s)

/-- REDCOPY_ENTRY (R256). Applies each source element to the destination as a relaxed RED. -/
def execRedcopyEntry (q : Nat) (s : State) : Out := .next (effRedcopyEntry q s)

/-- END_ENTRY (R260). Ends the chain and lands its token. -/
def execEndEntry (q : Nat) (s : State) : Out := .next (effEndEntry q s)

/-- WAITT_ENTRY (R260). Holds the chain until a dial time. -/
def execWaittEntry (q : Nat) (s : State) : Out := .next (effWaittEntry q s)

/-- WAITV_ENTRY (R260). Holds the chain until a word reaches a threshold. -/
def execWaitvEntry (q : Nat) (s : State) : Out := .next (effWaitvEntry q s)

/-- WAITV_REREAD (R260). With the registry full, the waiting entry re-reads its word every 1 us. -/
def execWaitvReread (q : Nat) (s : State) : Out := .next (effWaitvReread q s)

/-- SIGNAL_ENTRY (R260). Performs FADDT as a release at a scope. -/
def execSignalEntry (q : Nat) (s : State) : Out := .next (effSignalEntry q s)

/-- LOOP_ENTRY (R260). Repeats a body of entries using a chain loop counter. -/
def execLoopEntry (q : Nat) (s : State) : Out := .next (effLoopEntry q s)

/-- IFZ_ENTRY (R260). Skips the next S entries when a word is zero. -/
def execIfzEntry (q : Nat) (s : State) : Out := .next (effIfzEntry q s)

/-- IFNZ_ENTRY (R260). Skips the next S entries when a word is not zero. -/
def execIfnzEntry (q : Nat) (s : State) : Out := .next (effIfnzEntry q s)

/-- QFENCE_ENTRY (R260). Waits until earlier chains of named queues have ended. -/
def execQfenceEntry (q : Nat) (s : State) : Out := .next (effQfenceEntry q s)

/-- TOKEN_ENTRY (R260). Releases earlier entries and lands the chain's second token. -/
def execTokenEntry (q : Nat) (s : State) : Out := .next (effTokenEntry q s)

/-- RENDEZ_ENTRY (R270). Waits at the fork group's next meeting. -/
def execRendezEntry (q : Nat) (s : State) : Out := .next (effRendezEntry q s)

/-- MMA_ENTRY (R261). Arrives at the gang barrier with values from an operation block. -/
def execMmaEntry (q : Nat) (s : State) : Out := .next (effMmaEntry q s)

/-- DRAIN_ENTRY (R261). Drains the queue's core's quarter as MDRAIN does. -/
def execDrainEntry (q : Nat) (s : State) : Out := .next (effDrainEntry q s)

/-- ATTR_ENTRY (R262). Gives completion record, deadline and generation attributes to the next entry. -/
def execAttrEntry (q : Nat) (s : State) : Out := .next (effAttrEntry q s)

/-- ENTRY_DEADLINE (R264). Dial time reaches an entry's LIMIT and it ends TIMEOUT. -/
def execEntryDeadline (q : Nat) (s : State) : Out := .next (effEntryDeadline q s)

/-- QUEUE_TAIL_WRITE (R335). A doorbell write of TAIL posts records, or clears EN when it overruns the ring. -/
def execQueueTailWrite (pkg q : Nat) (v : Half) (s : State) : Out := .next (effTailWrite pkg q v s)

/-- RECORD_FETCH (R335). The part reads the front record of a host work queue and advances HEAD. -/
def execRecordFetch (pkg q : Nat) (s : State) : Out := .next (effRecordFetch pkg q s)

/-- DEPENDENCE_SATISFIED (R336). A dependence word reaches its threshold and the record becomes eligible. -/
def execDependenceSatisfied (pkg q : Nat) (second : Bool) (s : State) : Out := .next (effDependence pkg q second s)

/-- DEPENDENCE_REREAD (R336). With the registry full, the dispatcher re-reads a dependence word every 1 us. -/
def execDependenceReread (pkg q : Nat) (second : Bool) (s : State) : Out := .next (effDependReread pkg q second s)

/-- DISPATCH_CHOOSE (R337). The package dispatcher chooses the highest eligible record by priority and age. -/
def execDispatchChoose (pkg : Nat) (s : State) : Out := .next (effChoose pkg s)

/-- LAUNCH_PLACE (R322). A launch is placed all at once, its image list performed and its members prepared. -/
def execLaunchPlace (launch : Nat) (s : State) : Out := .next (effPlace launch s)

/-- LAUNCH_START (R339). Dial time reaches START and every placed member starts. -/
def execLaunchStart (launch : Nat) (s : State) : Out := .next (effStart launch s)

/-- RESERVATION_TIMEOUT (R338). The first record has waited 2 ms unplaced and the dispatcher reserves for it. -/
def execReservationTimeout (pkg : Nat) (s : State) : Out := .next (effReservation pkg s)

/-- LAUNCH_CLASSIFY (R340). 50 us after start the launch is classed compute-bound or memory-bound. -/
def execLaunchClassify (launch : Nat) (s : State) : Out := .next (effClassify launch s)

/-- PREEMPT (R342). The dispatcher pre-empts victim launches, draining and saving every member. -/
def execPreempt (pkg : Nat) (s : State) : Out := .next (effPreempt pkg s)

/-- LAUNCH_RESTORE (R345). A saved launch is restored all at once under the placement rules. -/
def execLaunchRestore (launch : Nat) (s : State) : Out := .next (effRestore launch s)

/-- CORE_RELEASE (R328). A draining core with no engine item in flight is cleared and released. -/
def execCoreRelease (core : Nat) (s : State) : Out := .next (effCoreRelease core s)

/-- LAUNCH_KILL_REQUEST (R281). The host requests the kill of a whole launch through the BAR0 mailbox. -/
def execLaunchKillRequest (launch : Nat) (s : State) : Out := .next (effKillRequest launch s)

/-- HOST_ACCESS (R401). A host access through the BAR2 aperture is translated as a class 0 request. -/
def execHostAccess (acc : HostAcc) (s : State) : Out := .next (effHostAccess acc s)

/-- DIAL_EPOCH_SET (R371). The firmware loads the domain epoch into every dial. -/
def execDialEpochSet (v : Word) (s : State) : Out := .next (effEpochSet v s)

/-- DIAL_SYNC_EXCHANGE (R373). Every 1 ms each link runs a two-step timing exchange to discipline the dials. -/
def execDialSyncExchange (pkg : Nat) (ns : Nat) (ahead : Bool) (s : State) : Out := .next (effDialSync pkg ns ahead s)

/-- GRANDMASTER_LOST (R373). The grandmaster package is lost and packages hold over. -/
def execGrandmasterLost (pkg : Nat) (s : State) : Out := .next (effGmLost pkg s)

/-- GRANDMASTER_TAKEOVER (R373). The next lowest live package takes over as grandmaster. -/
def execGrandmasterTakeover (pkg : Nat) (s : State) : Out := .next (effGmTakeover pkg s)

/-- FLIT_RECEIVE (R395). A Polier flit arrives and is checked by CRC and tag. -/
def execFlitReceive (pkg : Nat) (link : Nat) (good : Bool) (s : State) : Out := .next (effFlit pkg link good s)

/-- REMOTE_PATH_TIMEOUT (R396). A remote access finds no live path for 2 ms and fails. -/
def execRemotePathTimeout (ctx idx : Nat) (s : State) : Out := .next (effPathTimeout ctx idx s)

/-- SWITCH_RED_MERGE (R398). A Polier switch merges an eligible relaxed RED into a merge entry. -/
def execSwitchRedMerge (ctx idx : Nat) (s : State) : Out := .next (effRedMerge ctx idx s)

/-- MERGE_FLUSH (R398). A merge entry held for 1 us sends one merged update to the home. -/
def execMergeFlush (entry : Nat) (s : State) : Out := .next (effMergeFlush entry s)

/-- DIE_HEARTBEAT_MISS (R410). A die misses ten heartbeats and is declared failed; surviving dies report its items. -/
def execDieHeartbeatMiss (die : Nat) (s : State) : Out := .next (effDieMiss die s)

/-- PACKAGE_LOST (R415). A package misses 1,000 link heartbeats and is declared lost. -/
def execPackageLost (pkg : Nat) (s : State) : Out := .next (effPkgLost pkg s)

/-- BOOT_IMAGE_VERIFY (R404). Boot ROM verifies a firmware image's signature and extends its measurement. -/
def execBootImageVerify (pkg : Nat) (img : BootImage) (s : State) : Out := .next (effBootImage pkg img s)

/-- BOOT_SELF_TEST (R409). Boot self-test maps out failing register-file banks and withholds failing cores. -/
def execBootSelfTest (core : Nat) (found : SelfTest) (withheld : Bool) (s : State) : Out :=
  .next (effSelfTest core found withheld s)

/-- COLD_RESET (R412). Cold reset clears the latent record and restarts the part. -/
def execColdReset (pkg : Nat) (s : State) : Out := .next (effColdReset pkg s)

/-- WARM_RESET (R217). Warm reset restarts the part, keeping a frozen latent record. -/
def execWarmReset (pkg : Nat) (s : State) : Out := .next (effWarmReset pkg s)

/-- ATTESTATION_REQUEST (R405). A host nonce through the mailbox returns a report signed by the identity key. -/
def execAttestationRequest (pkg : Nat) (nonce : BitVec 256) (s : State) : Out := .next (effAttest pkg nonce s)

/-- TENANT_KEY_LOAD (R406). The firmware unwraps a tenant key and writes it into the HBM controllers' slots. -/
def execTenantKeyLoad (die : Nat) (index : Byte) (tenant : Nat) (key : BitVec 512) (s : State) : Out := .next (effKeyLoad die index tenant key s)

/-- LATENT_READOUT (R413). A host nonce returns the die's latent-record entries with a signature. -/
def execLatentReadout (die : Nat) (nonce : BitVec 256) (s : State) : Out := .next (effReadout die nonce s)

/-- LATENT_RECORD_FREEZE (R412). A fatal error writes the freeze event, stops the ring and raises the interrupt. -/
def execLatentRecordFreeze (die : Nat) (cause : Word) (s : State) : Out := .next (effFreeze die cause s)

/-- ECC_SCRUB (R407). Periodic scrubbing reads and corrects a storage word. -/
def execEccScrub (unit : EccUnit) (correctable : Bool) (s : State) : Out := .next (effScrub unit correctable s)

/-- GOVERNOR_TICK (R414). Every 1 us the governor measures power and adjusts unit duty cycles. -/
def execGovernorTick (pkg : Nat) (draw : Draw) (s : State) : Out :=
  .next (effGovernor pkg draw s)

/-- THERMAL_STEP (R414). A temperature step above 95 C lowers the power cap. -/
def execThermalStep (pkg : Nat) (temp : Nat) (s : State) : Out := .next (effThermal pkg temp s)

/-- ACKNOWLEDGEMENT_ARRIVAL (R122). The acknowledgement of an issued store, RED or other access with no destination returns to the issuing core, bringing its flags or its failure. -/
def execAcknowledgementArrival (ctx : Nat) (s : State) : Out := .next (effAckArrive ctx s)

/-- SWITCH_ACKNOWLEDGEMENT (R399). The home's acknowledgement of a forwarded or merged RED reaches the Polier switch, which records the page's SEAL answer and acknowledges the contributors. -/
def execSwitchAcknowledgement (entry : Nat) (s : State) : Out := .next (effSwitchAck entry s)

end Sys2Proof.Machine
end

