-- ==== Sys2Proof/Machine/Memory.lean ====
section
/-! DEFINITION. The meanings of memory, atomic and bank instructions (R110 to R133, R156 to R161). -/

namespace Sys2Proof.Machine

/-- LD (R115). Scalar load of 1, 2, 4 or 8 bytes, sign- or zero-extended, with a signed offset. -/
def execLd (d a : SReg) (m : LdMode) (off : Imm 9) (s : State) : Out := .next (runSlot (.ld d a m off) (effMem (.ld d a m off)) s)

/-- LD_ACQ (R115). Acquire load at a named scope. -/
def execLdAcq (d a : SReg) (z : Size) (u : Bool) (sc : Scope) (off : Imm 0) (s : State) : Out := .next (runSlot (.ldAcq d a z u sc off) (effMem (.ldAcq d a z u sc off)) s)

/-- ST (R116). Scalar store of the low bytes of sd with a signed offset. -/
def execSt (d a : SReg) (z : Size) (off : Imm 9) (s : State) : Out := .next (runSlot (.st d a z off) (effMem (.st d a z off)) s)

/-- ST_REL (R116). Release store at a named scope. -/
def execStRel (d a : SReg) (z : Size) (sc : Scope) (off : Imm 0) (s : State) : Out := .next (runSlot (.stRel d a z sc off) (effMem (.stRel d a z sc off)) s)

/-- LDP (R117). Single-copy-atomic 16-byte load into a register pair. -/
def execLdp (d a : SReg) (off : Imm 10) (s : State) : Out := .next (runSlot (.ldp d a off) (effMem (.ldp d a off)) s)

/-- LDP_ACQ (R117). Acquire pair load at a named scope. -/
def execLdpAcq (d a : SReg) (sc : Scope) (off : Imm 0) (s : State) : Out := .next (runSlot (.ldpAcq d a sc off) (effMem (.ldpAcq d a sc off)) s)

/-- STP (R117). Single-copy-atomic 16-byte store from a register pair. -/
def execStp (d a : SReg) (off : Imm 10) (s : State) : Out := .next (runSlot (.stp d a off) (effMem (.stp d a off)) s)

/-- STP_REL (R117). Release pair store at a named scope. -/
def execStpRel (d a : SReg) (sc : Scope) (off : Imm 0) (s : State) : Out := .next (runSlot (.stpRel d a sc off) (effMem (.stpRel d a sc off)) s)

/-- LDS (R118). Load that lands a personality status in sk instead of trapping. -/
def execLds (d a : SReg) (z : Size) (k : SReg) (off : Imm 4) (s : State) : Out := .next (runSlot (.lds d a z k off) (effMem (.lds d a z k off)) s)

/-- STS (R118). Store that lands a personality status in sk instead of trapping. -/
def execSts (d a : SReg) (z : Size) (k : SReg) (off : Imm 4) (s : State) : Out := .next (runSlot (.sts d a z k off) (effMem (.sts d a z k off)) s)

/-- XCH (R119). Atomic exchange of a 32- or 64-bit word with sd. -/
def execXch (d a : SReg) (w : Bool) (off : Imm 9) (s : State) : Out := .next (runSlot (.xch d a w off) (effMem (.xch d a w off)) s)

/-- XCH_S (R119). Atomic exchange that lands a personality status in sk. -/
def execXchS (d a : SReg) (w : Bool) (k : SReg) (off : Imm 4) (s : State) : Out := .next (runSlot (.xchS d a w k off) (effMem (.xchS d a w k off)) s)

/-- CAS (R119). Atomic compare-and-swap with a register pair holding the expected and new values. -/
def execCas (d a : SReg) (w : Bool) (off : Imm 9) (s : State) : Out := .next (runSlot (.cas d a w off) (effMem (.cas d a w off)) s)

/-- AADD (R121). Atomic fetch-add that returns the old word. -/
def execAadd (d a : SReg) (w : Bool) (sc : Scope) (k : Kind) (off : Imm 0) (s : State) : Out := .next (runSlot (.aadd d a w sc k off) (effMem (.aadd d a w sc k off)) s)

/-- AAND (R121). Atomic fetch-and that returns the old word. -/
def execAand (d a : SReg) (w : Bool) (sc : Scope) (k : Kind) (off : Imm 0) (s : State) : Out := .next (runSlot (.aand d a w sc k off) (effMem (.aand d a w sc k off)) s)

/-- AOR (R121). Atomic fetch-or that returns the old word. -/
def execAor (d a : SReg) (w : Bool) (sc : Scope) (k : Kind) (off : Imm 0) (s : State) : Out := .next (runSlot (.aor d a w sc k off) (effMem (.aor d a w sc k off)) s)

/-- AXOR (R121). Atomic fetch-xor that returns the old word. -/
def execAxor (d a : SReg) (w : Bool) (sc : Scope) (k : Kind) (off : Imm 0) (s : State) : Out := .next (runSlot (.axor d a w sc k off) (effMem (.axor d a w sc k off)) s)

/-- AMAXS (R121). Atomic signed maximum that returns the old word. -/
def execAmaxs (d a : SReg) (w : Bool) (sc : Scope) (k : Kind) (off : Imm 0) (s : State) : Out := .next (runSlot (.amaxs d a w sc k off) (effMem (.amaxs d a w sc k off)) s)

/-- AMINS (R121). Atomic signed minimum that returns the old word. -/
def execAmins (d a : SReg) (w : Bool) (sc : Scope) (k : Kind) (off : Imm 0) (s : State) : Out := .next (runSlot (.amins d a w sc k off) (effMem (.amins d a w sc k off)) s)

/-- AMAXU (R121). Atomic unsigned maximum that returns the old word. -/
def execAmaxu (d a : SReg) (w : Bool) (sc : Scope) (k : Kind) (off : Imm 0) (s : State) : Out := .next (runSlot (.amaxu d a w sc k off) (effMem (.amaxu d a w sc k off)) s)

/-- AMINU (R121). Atomic unsigned minimum that returns the old word. -/
def execAminu (d a : SReg) (w : Bool) (sc : Scope) (k : Kind) (off : Imm 0) (s : State) : Out := .next (runSlot (.aminu d a w sc k off) (effMem (.aminu d a w sc k off)) s)

/-- AFADD (R121). Atomic FP32 add, rounded RNE, that returns the old word. -/
def execAfadd (d a : SReg) (sc : Scope) (k : Kind) (off : Imm 0) (s : State) : Out := .next (runSlot (.afadd d a sc k off) (effMem (.afadd d a sc k off)) s)

/-- AFMAX (R121). Atomic FP32 maximumNumber that returns the old word. -/
def execAfmax (d a : SReg) (sc : Scope) (k : Kind) (off : Imm 0) (s : State) : Out := .next (runSlot (.afmax d a sc k off) (effMem (.afmax d a sc k off)) s)

/-- AFMIN (R121). Atomic FP32 minimumNumber that returns the old word. -/
def execAfmin (d a : SReg) (sc : Scope) (k : Kind) (off : Imm 0) (s : State) : Out := .next (runSlot (.afmin d a sc k off) (effMem (.afmin d a sc k off)) s)

/-- RED (R121). Atomic read-modify-write of the selected operation that returns nothing. -/
def execRed (d a : SReg) (op : RedOp) (w : Bool) (sc : Scope) (k : Kind) (off : Imm 0) (s : State) : Out := .next (runSlot (.red d a op w sc k off) (effMem (.red d a op w sc k off)) s)

/-- FADDT (R124). Threshold add: adds to a 64-bit word as a release and wakes waiters when it crosses the threshold. -/
def execFaddt (d a : SReg) (sc : Scope) (off : Imm 0) (s : State) : Out := .next (runSlot (.faddt d a sc off) (effMem (.faddt d a sc off)) s)

/-- WAITW (R125). Waits until a word reaches a threshold or a deadline passes, registering at the home if needed. -/
def execWaitw (d a : SReg) (off : Imm 0) (s : State) : Out := .next (runSlot (.waitw d a off) (effWaitw (.waitw d a off) d) s)

/-- SCLD (R127). Sequentially consistent load. -/
def execScld (d a : SReg) (w : Bool) (off : Imm 9) (s : State) : Out := .next (runSlot (.scld d a w off) (effMem (.scld d a w off)) s)

/-- SCST (R127). Sequentially consistent store. -/
def execScst (d a : SReg) (w : Bool) (off : Imm 9) (s : State) : Out := .next (runSlot (.scst d a w off) (effMem (.scst d a w off)) s)

/-- SCX (R127). Sequentially consistent exchange. -/
def execScx (d a : SReg) (w : Bool) (off : Imm 9) (s : State) : Out := .next (runSlot (.scx d a w off) (effMem (.scx d a w off)) s)

/-- FENCE (R129). Orders the context's memory accesses with the given kind and scope. -/
def execFence (k : FenceKind) (sc : Scope) (s : State) : Out := .next (runSlot (.fence k sc) (effFence k sc) s)

/-- TLD (R130). Loads one tile row or a whole tile from memory with exact tags. -/
def execTld (t : TReg) (a : SReg) (r : Rows) (off : Imm 6) (s : State) : Out := .next (runSlot (.tld t a r off) (effMem (.tld t a r off)) s)

/-- TST (R131). Stores one tile row or a whole tile; a bounded row traps TYPE. -/
def execTst (t : TReg) (a : SReg) (r : Rows) (off : Imm 6) (s : State) : Out := .next (runSlot (.tst t a r off) (effMem (.tst t a r off)) s)

/-- TST_B (R131). Stores bounded or exact rows and drops their tags. -/
def execTstB (t : TReg) (a : SReg) (r : Rows) (off : Imm 6) (s : State) : Out := .next (runSlot (.tstB t a r off) (effMem (.tstB t a r off)) s)

/-- TLDX (R132). Strided, masked load of tile rows. -/
def execTldx (t : TReg) (a b : SReg) (s : State) : Out := .next (runSlot (.tldx t a b) (effMem (.tldx t a b)) s)

/-- BGUISE_CLEAR (R157). Gives an own bank a new descriptor and a zeroed image. -/
def execBguiseClear (d a : SReg) (bank : BitVec 4) (s : State) : Out := .next (runSlot (.bguiseClear d a bank) (effBguise d a bank .clear) s)

/-- BGUISE_KEEP (R157). Gives an own bank a new descriptor and keeps its image after checking the header. -/
def execBguiseKeep (d a : SReg) (bank : BitVec 4) (s : State) : Out := .next (runSlot (.bguiseKeep d a bank) (effBguise d a bank .keep) s)

/-- BGUISE_CONVERT (R157). Converts an own bank's live elements into a new personality, counting inserts and drops. -/
def execBguiseConvert (d a : SReg) (bank : BitVec 4) (s : State) : Out := .next (runSlot (.bguiseConvert d a bank) (effBguise d a bank .convert) s)

/-- BDESC (R156). Reads an own bank's descriptor through a slot-0 operation. -/
def execBdesc (d : SReg) (bank : BitVec 4) (s : State) : Out := .next (runSlot (.bdesc d bank) (effBdesc d bank) s)

/-- ARCADE (R161). Composes up to 16 banks of the bay into one arcade. -/
def execArcade (d a b : SReg) (s : State) : Out := .next (runSlot (.arcade d a b) (effArcade d a (some b)) s)

/-- ARCADE_DIS (R161). Dissolves the arcade led by the named bank. -/
def execArcadeDis (d a : SReg) (s : State) : Out := .next (runSlot (.arcadeDis d a) (effArcade d a none) s)

/-- SPILL (R133). Stores up to eight registers below s31 in the carve-out or overflow area. -/
def execSpill (d : SReg) (n : BitVec 3) (s : State) : Out := .next (runSlot (.spill d n) (effSpill (.spill d n) (n.toNat + 1) false) s)

/-- FILL (R133). Reloads up to eight registers from the carve-out or overflow area. -/
def execFill (d : SReg) (n : BitVec 3) (s : State) : Out := .next (runSlot (.fill d n) (effSpill (.fill d n) (n.toNat + 1) true) s)

end Sys2Proof.Machine
end

