-- ==== Sys2Proof/Machine/RowsExec.lean ====
section
/-! DEFINITION. The meanings of the tile row instructions (R170 to R193, R52 to R54). -/

namespace Sys2Proof.Machine

/-- VADD (R171). Lane-wise add of rows. -/
def execVadd (g : Guard) (d a b : TReg) (r : Rows) (y : LaneType) (s : State) : Out := .next (runSlot (.vadd g d a b r y) (effRow (.vadd g d a b r y)) s)

/-- VSUB (R171). Lane-wise subtract of rows. -/
def execVsub (g : Guard) (d a b : TReg) (r : Rows) (y : LaneType) (s : State) : Out := .next (runSlot (.vsub g d a b r y) (effRow (.vsub g d a b r y)) s)

/-- VMUL (R171). Lane-wise multiply of rows. -/
def execVmul (g : Guard) (d a b : TReg) (r : Rows) (y : LaneType) (s : State) : Out := .next (runSlot (.vmul g d a b r y) (effRow (.vmul g d a b r y)) s)

/-- VFMA (R171). Lane-wise fused multiply-add into the destination. -/
def execVfma (g : Guard) (d a b : TReg) (r : Rows) (y : LaneType) (s : State) : Out := .next (runSlot (.vfma g d a b r y) (effRow (.vfma g d a b r y)) s)

/-- VMIN (R171). Lane-wise minimum. -/
def execVmin (g : Guard) (d a b : TReg) (r : Rows) (y : LaneType) (s : State) : Out := .next (runSlot (.vmin g d a b r y) (effRow (.vmin g d a b r y)) s)

/-- VMAX (R171). Lane-wise maximum. -/
def execVmax (g : Guard) (d a b : TReg) (r : Rows) (y : LaneType) (s : State) : Out := .next (runSlot (.vmax g d a b r y) (effRow (.vmax g d a b r y)) s)

/-- VABS (R172). Lane-wise absolute value. -/
def execVabs (g : Guard) (d a : TReg) (r : Rows) (y : LaneType) (s : State) : Out := .next (runSlot (.vabs g d a r y) (effRow (.vabs g d a r y)) s)

/-- VNEG (R172). Lane-wise negation. -/
def execVneg (g : Guard) (d a : TReg) (r : Rows) (y : LaneType) (s : State) : Out := .next (runSlot (.vneg g d a r y) (effRow (.vneg g d a r y)) s)

/-- VNABS (R172). Lane-wise negated absolute value. -/
def execVnabs (g : Guard) (d a : TReg) (r : Rows) (y : LaneType) (s : State) : Out := .next (runSlot (.vnabs g d a r y) (effRow (.vnabs g d a r y)) s)

/-- VLOGIC (R173). Bitwise logic on 1,024-bit rows. -/
def execVlogic (g : Guard) (d a b : TReg) (r : Rows) (op : LogicOp) (s : State) : Out := .next (runSlot (.vlogic g d a b r op) (effRow (.vlogic g d a b r op)) s)

/-- VSHIFT (R174). Lane-wise shift by signed per-lane amounts. -/
def execVshift (g : Guard) (d a b : TReg) (r : Rows) (y : LaneType) (s : State) : Out := .next (runSlot (.vshift g d a b r y) (effRow (.vshift g d a b r y)) s)

/-- VCMP (R175). Lane-wise compare into a mask row. -/
def execVcmp (g : Guard) (d a b : TReg) (r : Rows) (lt : Bool) (y : LaneType) (s : State) : Out := .next (runSlot (.vcmp g d a b r lt y) (effRow (.vcmp g d a b r lt y)) s)

/-- VSEL (R176). Lane-wise select by the destination's mask lanes. -/
def execVsel (g : Guard) (d a b : TReg) (r : Rows) (y : LaneType) (s : State) : Out := .next (runSlot (.vsel g d a b r y) (effRow (.vsel g d a b r y)) s)

/-- VCVT (R177). Lane-wise conversion between row types. -/
def execVcvt (g : Guard) (d a : TReg) (x : LaneType) (r : Rows) (y : LaneType) (s : State) : Out := .next (runSlot (.vcvt g d a x r y) (effRow (.vcvt g d a x r y)) s)

/-- VPACK (R178). Packs FP32 lanes into BFP blocks. -/
def execVpack (g : Guard) (d a b : TReg) (r : Rows) (m : BitVec 4) (s : State) : Out := .next (runSlot (.vpack g d a b r m) (effRow (.vpack g d a b r m)) s)

/-- VUNPK (R178). Unpacks BFP blocks into FP32 lanes. -/
def execVunpk (g : Guard) (d a b : TReg) (r : Rows) (m : BitVec 4) (s : State) : Out := .next (runSlot (.vunpk g d a b r m) (effRow (.vunpk g d a b r m)) s)

/-- VRED (R179). Reduces a row or tile to a scalar. -/
def execVred (g : Guard) (d : SReg) (a : TReg) (op : VredOp) (r : Rows) (y : LaneType) (s : State) : Out := .next (runSlot (.vred g d a op r y) (effRow (.vred g d a op r y)) s)

/-- VBCAST (R180). Broadcasts a scalar to every lane. -/
def execVbcast (g : Guard) (d : TReg) (a : SReg) (r : Rows) (y : LaneType) (s : State) : Out := .next (runSlot (.vbcast g d a r y) (effRow (.vbcast g d a r y)) s)

/-- VSCALE (R181). Scales each lane by a power of two. -/
def execVscale (g : Guard) (d a b : TReg) (r : Rows) (y : LaneType) (s : State) : Out := .next (runSlot (.vscale g d a b r y) (effRow (.vscale g d a b r y)) s)

/-- VEXP2 (R52). Lane-wise 2^x by the defined evaluation. -/
def execVexp2 (g : Guard) (d a : TReg) (r : Rows) (y : LaneType) (s : State) : Out := .next (runSlot (.vexp2 g d a r y) (effRow (.vexp2 g d a r y)) s)

/-- VLOG2 (R53). Lane-wise log2 by the defined evaluation. -/
def execVlog2 (g : Guard) (d a : TReg) (r : Rows) (y : LaneType) (s : State) : Out := .next (runSlot (.vlog2 g d a r y) (effRow (.vlog2 g d a r y)) s)

/-- VRCP (R54). Lane-wise reciprocal, rounded once. -/
def execVrcp (g : Guard) (d a : TReg) (r : Rows) (y : LaneType) (s : State) : Out := .next (runSlot (.vrcp g d a r y) (effRow (.vrcp g d a r y)) s)

/-- VRSQRT (R54). Lane-wise reciprocal square root, rounded once. -/
def execVrsqrt (g : Guard) (d a : TReg) (r : Rows) (y : LaneType) (s : State) : Out := .next (runSlot (.vrsqrt g d a r y) (effRow (.vrsqrt g d a r y)) s)

/-- VPERM (R183). Permutes lanes by per-lane indices. -/
def execVperm (g : Guard) (d a b : TReg) (r : Rows) (y : LaneType) (s : State) : Out := .next (runSlot (.vperm g d a b r y) (effRow (.vperm g d a b r y)) s)

/-- VSCAN (R184). Prefix sum, exclusive sum or running maximum over lanes. -/
def execVscan (g : Guard) (d a : TReg) (op : ScanOp) (r : Rows) (y : LaneType) (s : State) : Out := .next (runSlot (.vscan g d a op r y) (effRow (.vscan g d a op r y)) s)

/-- VSRCH (R185). Counts table entries below each query lane. -/
def execVsrch (g : Guard) (d a b : TReg) (r : Rows) (y : LaneType) (s : State) : Out := .next (runSlot (.vsrch g d a b r y) (effRow (.vsrch g d a b r y)) s)

/-- VMIX (R186). Computes MIX64 of per-lane seeds and counters. -/
def execVmix (g : Guard) (d a b : TReg) (r : Rows) (y : LaneType) (s : State) : Out := .next (runSlot (.vmix g d a b r y) (effRow (.vmix g d a b r y)) s)

/-- VIOTA (R187). Writes a scalar plus a shifted lane index to each lane. -/
def execViota (g : Guard) (d : TReg) (a : SReg) (p : Bool) (h : BitVec 2) (r : Rows) (y : LaneType) (s : State) : Out := .next (runSlot (.viota g d a p h r y) (effRow (.viota g d a p h r y)) s)

/-- TMOV (R188). Copies rows with their tags. -/
def execTmov (g : Guard) (d a : TReg) (r : Rows) (s : State) : Out := .next (runSlot (.tmov g d a r) (effRow (.tmov g d a r)) s)

/-- TZERO (R188). Zeroes rows with exact tags. -/
def execTzero (g : Guard) (d : TReg) (r : Rows) (s : State) : Out := .next (runSlot (.tzero g d r) (effRow (.tzero g d r)) s)

/-- TTRANS (R189). Transposes 16 x 16 lane blocks of a tile. -/
def execTtrans (g : Guard) (d a : TReg) (y : LaneType) (s : State) : Out := .next (runSlot (.ttrans g d a y) (effRow (.ttrans g d a y)) s)

/-- TOPK (R190). Selects the K best rows per column of a tile group. -/
def execTopk (g : Guard) (d a b : TReg) (k : BitVec 4) (grp : GroupSize) (e : TopkType) (s : State) : Out := .next (runSlot (.topk g d a b k grp e) (effRow (.topk g d a b k grp e)) s)

/-- TCOLRED (R191). Reduces each column over 16 rows into one row. -/
def execTcolred (g : Guard) (d a : TReg) (op : ColOp) (row : BitVec 4) (y : LaneType) (s : State) : Out := .next (runSlot (.tcolred g d a op row y) (effRow (.tcolred g d a op row y)) s)

/-- TFIX (R192). Copies rows with exact tags and writes the largest bound exponent to xstat. -/
def execTfix (g : Guard) (d a : TReg) (r : Rows) (y : LaneType) (s : State) : Out := .next (runSlot (.tfix g d a r y) (effRow (.tfix g d a r y)) s)

/-- TBND_RD (R193). Reads a row's tag into a scalar. -/
def execTbndRd (g : Guard) (d : SReg) (a : TReg) (row : BitVec 4) (y : LaneType) (s : State) : Out := .next (runSlot (.tbndRd g d a row y) (effRow (.tbndRd g d a row y)) s)

/-- TBND_SET (R193). Widens the bound tags of rows. -/
def execTbndSet (g : Guard) (d : TReg) (a : SReg) (r : Rows) (y : LaneType) (s : State) : Out := .next (runSlot (.tbndSet g d a r y) (effRow (.tbndSet g d a r y)) s)

end Sys2Proof.Machine
end

