-- ==== Sys2Proof/Machine/Alu.lean ====
section
/-! DEFINITION. Results of the scalar instructions of slot B as functions of their operand values
(R82 to R92, R95 to R100). -/

namespace Sys2Proof.Machine

/-- The result of a form with W: the low 32 bits, sign-extended, when W = 1 (R81). -/
def narrow (w : Bool) (v : Word) : Word := if w then sext32 v else v

/-- The operand width of a form with W. -/
def opBits (w : Bool) : Nat := if w then 32 else 64

/-- MULH's bits [127:64] of the exact product (R83). -/
def mulHigh (sa sb : Bool) (x y : Word) : Word :=
  let i (s : Bool) (v : Word) : Int := if s then v.toInt else (v.toNat : Int)
  wordOf (i sa x * i sb y / (2 ^ 64 : Nat))

/-- Quotient and remainder of R33 on the low n bits, as integers. -/
def divRem (n : Nat) (u : Bool) (x y : Word) : Int × Int :=
  if u then
    let a := x.toNat % 2 ^ n
    let b := y.toNat % 2 ^ n
    if b = 0 then (-1, a) else ((a / b : Nat), (a % b : Nat))
  else
    let a := signed n x.toNat
    let b := signed n y.toNat
    if b = 0 then (-1, a) else (a.tdiv b, a.tmod b)

/-- DIV (R83): 32-bit results are sign-extended (R81). -/
def divQ (u w : Bool) (x y : Word) : Word := narrow w (wordOf (divRem (opBits w) u x y).1)
/-- REM (R83). -/
def divR (u w : Bool) (x y : Word) : Word := narrow w (wordOf (divRem (opBits w) u x y).2)

/-- The shift amount that a form takes from a register (R84). -/
def amountOf (w : Bool) (v : Word) : Nat := if w then wf v 4 0 else wf v 5 0

/-- SHL (R84). -/
def shiftL (w : Bool) (x : Word) (n : Nat) : Word := narrow w (x <<< n)
/-- SHR (R84). -/
def shiftR (w : Bool) (x : Word) (n : Nat) : Word := if w then sext32 (zext 32 x.toNat >>> n) else x >>> n
/-- SRA (R84). -/
def shiftA (w : Bool) (x : Word) (n : Nat) : Word := narrow w ((narrow w x).sshiftRight n)
/-- ROT, a rotation right (R84). -/
def rotate (w : Bool) (x : Word) (n : Nat) : Word :=
  if w then let y := x.toNat % 2 ^ 32; sext 32 (y / 2 ^ n + y * 2 ^ (32 - n)) else x.rotateRight n

/-- The value a BITS form looks at (R85). -/
def bitsOf (w : Bool) (x : Word) : Nat := x.toNat % 2 ^ opBits w

/-- CLZ (R85). -/
def countLead (w : Bool) (x : Word) : Word := BitVec.ofNat 64 (opBits w - bitLen (bitsOf w x))
/-- CTZ (R85): trailing zeros, counted from the bottom. -/
def countTrail (w : Bool) (x : Word) : Word :=
  BitVec.ofNat 64 (((upTo (opBits w)).find? fun i => bitsOf w x / 2 ^ i % 2 = 1).getD (opBits w))
/-- POPC (R85). -/
def countOnes (w : Bool) (x : Word) : Word :=
  BitVec.ofNat 64 ((upTo (opBits w)).filter fun i => bitsOf w x / 2 ^ i % 2 = 1).length
/-- REV (R85). -/
def reverse (w : Bool) (x : Word) : Word :=
  narrow w (BitVec.ofNat 64 ((upTo (opBits w)).foldl (fun (a : Nat) i => 2 * a + bitsOf w x / 2 ^ i % 2) 0))

/-- MINMAX (R86): the smaller or larger, signed or unsigned. -/
def minMax (hi u w : Bool) (x y : Word) : Word :=
  let x := narrow w x
  let y := narrow w y
  let lt : Bool := if u then x.toNat % 2 ^ opBits w < y.toNat % 2 ^ opBits w else x.toInt < y.toInt
  if lt = hi then y else x

/-- EXT (R87). -/
def extend (k : ExtKind) (x : Word) : Word :=
  match k with
  | .sb => sext 8 x.toNat | .sh => sext 16 x.toNat | .sw => sext 32 x.toNat
  | .zb => zext 8 x.toNat | .zh => zext 16 x.toNat | .zw => zext 32 x.toNat

/-- The position and the cut length of a field descriptor (R88). -/
def fieldOf (v : Word) : Nat × Nat := let p := wf v 5 0; (p, min (wf v 13 8 + 1) (64 - p))

/-- BFX (R88). -/
def bitExtract (sx : Bool) (x v : Word) : Word :=
  let (p, n) := fieldOf v
  if sx then sext n (x.toNat / 2 ^ p) else zext n (x.toNat / 2 ^ p)

/-- BFI (R88). -/
def bitInsert (old x v : Word) : Word :=
  let (p, n) := fieldOf v
  let mask : Word := BitVec.ofNat 64 ((2 ^ n - 1) * 2 ^ p)
  (old &&& ~~~ mask) ||| ((x <<< p) &&& mask)

/-- CMP's relation (R90). -/
def compareInt (r : CmpRel) (x y : Word) : Bool :=
  match r with
  | .eq => x == y | .ne => x != y | .lt => x.toInt < y.toInt | .ge => !(x.toInt < y.toInt)
  | .ltu => x.toNat < y.toNat | .geu => !(x.toNat < y.toNat)

/-- COND's truth table (R91). -/
def condBit (table : BitVec 4) (x y : Bool) : Bool := table.getLsbD (2 * x.toNat + y.toNat)

/-- The FP32 operand of a scalar register (R95). -/
def fpOf (v : Word) : Nat := v.toNat % 2 ^ 32

/-- FCMP's result and NV (R98). -/
def compareFp (ftz : Bool) (r : FcmpRel) (x y : Word) : Bool × Flags5 :=
  let a := unpack fp32 ftz (fpOf x)
  let b := unpack fp32 ftz (fpOf y)
  match r with
  | .eq => (eqV a b, cmpFlags a b false)
  | .lt => (ltV a b, cmpFlags a b true)
  | .le => (ltV a b || eqV a b, cmpFlags a b true)
  | .un => (a.isNan || b.isNan, cmpFlags a b false)

/-- FCVT's rounding mode (R99). -/
def fcvtRm (m : FRound) (frm : BitVec 2) : Rm :=
  match m with
  | .dyn => rmOf frm | .rne => .rne | .rtz => .rtz | .rdn => .rdn | .rup => .rup

/-- FCVT (R99): result and flags. -/
def convertScalar (op : FcvtOp) (rm : Rm) (ftz : Bool) (x : Word) : Word × Flags5 :=
  let fr (r : FR) : Word × Flags5 := (BitVec.ofNat 64 r.bits, r.fl)
  match op with
  | .i64 => let r := toInt fp32 rm ftz true 64 (fpOf x); (wordOf r.1, r.2)
  | .u64 => let r := toInt fp32 rm ftz false 64 (fpOf x); (wordOf r.1, r.2)
  | .i32 => let r := toInt fp32 rm ftz true 32 (fpOf x); (wordOf r.1, r.2)
  | .u32 => let r := toInt fp32 rm ftz false 32 (fpOf x); (wordOf r.1, r.2)
  | .fromI64 => fr (ofInt fp32 rm ftz x.toInt)
  | .fromU64 => fr (ofInt fp32 rm ftz x.toNat)
  | .f16 => fr (convert fp32 fp16 rm ftz (fpOf x))
  | .fromF16 => fr (convert fp16 fp32 rm ftz (x.toNat % 2 ^ 16))
  | .bf16 => fr (convert fp32 bf16 rm ftz (fpOf x))
  | .fromBf16 => fr (convert bf16 fp32 rm ftz (x.toNat % 2 ^ 16))

end Sys2Proof.Machine
end

