-- ==== Sys2Proof/Machine/Scalar.lean ====
section
/-! DEFINITION. The meanings of the scalar instructions of slot B (R82 to R92, R95 to R100). -/

namespace Sys2Proof.Machine

/-- mode.FRM of the running slot (R20). -/
def frmBits (s : State) : BitVec 2 := (me s).mode.extractLsb' 4 2
/-- The rounding mode of the running slot (R36). -/
def frmOf (s : State) : Rm := rmOf (frmBits s)
/-- mode.FTZ of the running slot (R38). -/
def ftzOf (s : State) : Bool := (me s).mode.getLsbD 3

/-- A result of variable latency (R83): an off-core reference whose destination is pending until it lands. -/
def lateS (n : Nat) (d : SReg) (v : Word) (s : State) : State :=
  let k := s.cur
  offCore k (queueLanding k { Landing.empty with due := s.cycle + n, regs := [(d, v)] } (setPending k [d] s))

/-- A scalar FP result (R62, R95): flags at once, the value after four cycles. -/
def flagS (d : SReg) (v : Word) (fl : Flags5) (s : State) : State := wrFixed 4 d v (raise s.cur fl s)

/-- The same for a pattern with its flags. -/
def fpS (d : SReg) (r : FR) (s : State) : State := flagS d (BitVec.ofNat 64 r.bits) r.fl s

/-- ADD (R82). Integer add, 64- or 32-bit. -/
def execAdd (g : Guard) (d a b : SReg) (w : Bool) (s : State) : Out := .next (runSlot (.add g d a b w) (fun s => wrS d (narrow w (rdS s a + rdS s b)) s) s)

/-- SUB (R82). Integer subtract, 64- or 32-bit. -/
def execSub (g : Guard) (d a b : SReg) (w : Bool) (s : State) : Out := .next (runSlot (.sub g d a b w) (fun s => wrS d (narrow w (rdS s a - rdS s b)) s) s)

/-- ADDI (R82). Add of a signed 11-bit immediate. -/
def execAddi (g : Guard) (d a : SReg) (imm : BitVec 11) (s : State) : Out := .next (runSlot (.addi g d a imm) (fun s => wrS d (rdS s a + imm.signExtend 64) s) s)

/-- MUL (R83). Low 64 bits of the product, with variable latency. -/
def execMul (g : Guard) (d a b : SReg) (w : Bool) (s : State) : Out := .next (runSlot (.mul g d a b w) (fun s => lateS 3 d (narrow w (rdS s a * rdS s b)) s) s)

/-- MULH (R83). High 64 bits of the signed product. -/
def execMulh (g : Guard) (d a b : SReg) (s : State) : Out := .next (runSlot (.mulh g d a b) (fun s => lateS 4 d (mulHigh true true (rdS s a) (rdS s b)) s) s)

/-- MULH_U (R83). High 64 bits of the unsigned product. -/
def execMulhU (g : Guard) (d a b : SReg) (s : State) : Out := .next (runSlot (.mulhU g d a b) (fun s => lateS 4 d (mulHigh false false (rdS s a) (rdS s b)) s) s)

/-- MULH_SU (R83). High 64 bits of the signed-by-unsigned product. -/
def execMulhSu (g : Guard) (d a b : SReg) (s : State) : Out := .next (runSlot (.mulhSu g d a b) (fun s => lateS 4 d (mulHigh true false (rdS s a) (rdS s b)) s) s)

/-- DIV (R83). Integer quotient under R33. -/
def execDiv (g : Guard) (d a b : SReg) (u w : Bool) (s : State) : Out := .next (runSlot (.div g d a b u w) (fun s => lateS 6 d (divQ u w (rdS s a) (rdS s b)) s) s)

/-- REM (R83). Integer remainder under R33. -/
def execRem (g : Guard) (d a b : SReg) (u w : Bool) (s : State) : Out := .next (runSlot (.rem g d a b u w) (fun s => lateS 6 d (divR u w (rdS s a) (rdS s b)) s) s)

/-- AND (R82). Bitwise and. -/
def execAnd (g : Guard) (d a b : SReg) (s : State) : Out := .next (runSlot (.and_ g d a b) (fun s => wrS d (rdS s a &&& rdS s b) s) s)

/-- OR (R82). Bitwise or. -/
def execOr (g : Guard) (d a b : SReg) (s : State) : Out := .next (runSlot (.or_ g d a b) (fun s => wrS d (rdS s a ||| rdS s b) s) s)

/-- XOR (R82). Bitwise exclusive or. -/
def execXor (g : Guard) (d a b : SReg) (s : State) : Out := .next (runSlot (.xor_ g d a b) (fun s => wrS d (rdS s a ^^^ rdS s b) s) s)

/-- ANDN (R82). Bitwise and-not. -/
def execAndn (g : Guard) (d a b : SReg) (s : State) : Out := .next (runSlot (.andn g d a b) (fun s => wrS d (rdS s a &&& ~~~ rdS s b) s) s)

/-- SHL (R84). Shift left by a register amount. -/
def execShl (g : Guard) (d a b : SReg) (w : Bool) (s : State) : Out := .next (runSlot (.shl g d a b w) (fun s => wrS d (shiftL w (rdS s a) (amountOf w (rdS s b))) s) s)

/-- SHL_IMM (R84). Shift left by an immediate amount. -/
def execShlImm (g : Guard) (d a : SReg) (n : BitVec 6) (w : Bool) (s : State) : Out := .next (runSlot (.shlImm g d a n w) (fun s => wrS d (shiftL w (rdS s a) n.toNat) s) s)

/-- SHR (R84). Logical shift right by a register amount. -/
def execShr (g : Guard) (d a b : SReg) (w : Bool) (s : State) : Out := .next (runSlot (.shr g d a b w) (fun s => wrS d (shiftR w (rdS s a) (amountOf w (rdS s b))) s) s)

/-- SHR_IMM (R84). Logical shift right by an immediate amount. -/
def execShrImm (g : Guard) (d a : SReg) (n : BitVec 6) (w : Bool) (s : State) : Out := .next (runSlot (.shrImm g d a n w) (fun s => wrS d (shiftR w (rdS s a) n.toNat) s) s)

/-- SRA (R84). Arithmetic shift right by a register amount. -/
def execSra (g : Guard) (d a b : SReg) (w : Bool) (s : State) : Out := .next (runSlot (.sra g d a b w) (fun s => wrS d (shiftA w (rdS s a) (amountOf w (rdS s b))) s) s)

/-- SRA_IMM (R84). Arithmetic shift right by an immediate amount. -/
def execSraImm (g : Guard) (d a : SReg) (n : BitVec 6) (w : Bool) (s : State) : Out := .next (runSlot (.sraImm g d a n w) (fun s => wrS d (shiftA w (rdS s a) n.toNat) s) s)

/-- ROT (R84). Rotate right by a register amount. -/
def execRot (g : Guard) (d a b : SReg) (w : Bool) (s : State) : Out := .next (runSlot (.rot g d a b w) (fun s => wrS d (rotate w (rdS s a) (amountOf w (rdS s b))) s) s)

/-- ROT_IMM (R84). Rotate right by an immediate amount. -/
def execRotImm (g : Guard) (d a : SReg) (n : BitVec 6) (w : Bool) (s : State) : Out := .next (runSlot (.rotImm g d a n w) (fun s => wrS d (rotate w (rdS s a) n.toNat) s) s)

/-- CLZ (R85). Leading zero count. -/
def execClz (g : Guard) (d a : SReg) (w : Bool) (s : State) : Out := .next (runSlot (.clz g d a w) (fun s => wrS d (countLead w (rdS s a)) s) s)

/-- CTZ (R85). Trailing zero count. -/
def execCtz (g : Guard) (d a : SReg) (w : Bool) (s : State) : Out := .next (runSlot (.ctz g d a w) (fun s => wrS d (countTrail w (rdS s a)) s) s)

/-- POPC (R85). Count of one bits. -/
def execPopc (g : Guard) (d a : SReg) (w : Bool) (s : State) : Out := .next (runSlot (.popc g d a w) (fun s => wrS d (countOnes w (rdS s a)) s) s)

/-- REV (R85). Bit reversal. -/
def execRev (g : Guard) (d a : SReg) (w : Bool) (s : State) : Out := .next (runSlot (.rev g d a w) (fun s => wrS d (reverse w (rdS s a)) s) s)

/-- MIN (R86). Signed minimum. -/
def execMin (g : Guard) (d a b : SReg) (w : Bool) (s : State) : Out := .next (runSlot (.min_ g d a b w) (fun s => wrS d (minMax false false w (rdS s a) (rdS s b)) s) s)

/-- MAX (R86). Signed maximum. -/
def execMax (g : Guard) (d a b : SReg) (w : Bool) (s : State) : Out := .next (runSlot (.max_ g d a b w) (fun s => wrS d (minMax true false w (rdS s a) (rdS s b)) s) s)

/-- MINU (R86). Unsigned minimum. -/
def execMinu (g : Guard) (d a b : SReg) (w : Bool) (s : State) : Out := .next (runSlot (.minu g d a b w) (fun s => wrS d (minMax false true w (rdS s a) (rdS s b)) s) s)

/-- MAXU (R86). Unsigned maximum. -/
def execMaxu (g : Guard) (d a b : SReg) (w : Bool) (s : State) : Out := .next (runSlot (.maxu g d a b w) (fun s => wrS d (minMax true true w (rdS s a) (rdS s b)) s) s)

/-- CMP (R90). Integer compare that writes a condition register. -/
def execCmp (g : Guard) (c : CReg) (a b : SReg) (r : CmpRel) (s : State) : Out := .next (runSlot (.cmp g c a b r) (fun s => wrC c (compareInt r (rdS s a) (rdS s b)) s) s)

/-- SEL (R92). Selects sa or sb by a condition register. -/
def execSel (g : Guard) (d a b : SReg) (neg : Bool) (c : CReg) (s : State) : Out := .next (runSlot (.sel g d a b neg c) (fun s => wrS d (if rdC s c != neg then rdS s a else rdS s b) s) s)

/-- EXT (R87). Sign- or zero-extends a low field of sa. -/
def execExt (g : Guard) (d a : SReg) (x : ExtKind) (s : State) : Out := .next (runSlot (.ext g d a x) (fun s => wrS d (extend x (rdS s a)) s) s)

/-- BFX (R88). Extracts a bit field, zero- or sign-extended. -/
def execBfx (g : Guard) (d a b : SReg) (sx : Bool) (s : State) : Out := .next (runSlot (.bfx g d a b sx) (fun s => wrS d (bitExtract sx (rdS s a) (rdS s b)) s) s)

/-- BFI (R88). Inserts the low bits of sa into a field of sd. -/
def execBfi (g : Guard) (d a b : SReg) (s : State) : Out := .next (runSlot (.bfi g d a b) (fun s => wrS d (bitInsert (rdS s d) (rdS s a) (rdS s b)) s) s)

/-- LEA (R89). Computes sa + (sb << sh) with no memory access. -/
def execLea (g : Guard) (d a b : SReg) (sh : BitVec 3) (s : State) : Out := .next (runSlot (.lea g d a b sh) (fun s => wrS d (rdS s a + (rdS s b <<< sh.toNat)) s) s)

/-- COND (R91). Any function of two condition bits, given by a truth table. -/
def execCond (g : Guard) (c x y : CReg) (table : BitVec 4) (s : State) : Out := .next (runSlot (.cond g c x y table) (fun s => wrC c (condBit table (rdC s x) (rdC s y)) s) s)

/-- FADD (R96). FP32 add. -/
def execFadd (g : Guard) (d a b : SReg) (s : State) : Out := .next (runSlot (.fadd g d a b) (fun s => fpS d (fadd fp32 (frmOf s) (ftzOf s) (fpOf (rdS s a)) (fpOf (rdS s b))) s) s)

/-- FSUB (R96). FP32 subtract. -/
def execFsub (g : Guard) (d a b : SReg) (s : State) : Out := .next (runSlot (.fsub g d a b) (fun s => fpS d (fsub fp32 (frmOf s) (ftzOf s) (fpOf (rdS s a)) (fpOf (rdS s b))) s) s)

/-- FMUL (R96). FP32 multiply. -/
def execFmul (g : Guard) (d a b : SReg) (s : State) : Out := .next (runSlot (.fmul g d a b) (fun s => fpS d (fmul fp32 (frmOf s) (ftzOf s) (fpOf (rdS s a)) (fpOf (rdS s b))) s) s)

/-- FFMA (R96). FP32 fused multiply-add with one rounding. -/
def execFfma (g : Guard) (d a b c : SReg) (s : State) : Out := .next (runSlot (.ffma g d a b c) (fun s => fpS d (ffma fp32 (frmOf s) (ftzOf s) (fpOf (rdS s a)) (fpOf (rdS s b)) (fpOf (rdS s c))) s) s)

/-- FMIN (R97). FP32 minimumNumber. -/
def execFmin (g : Guard) (d a b : SReg) (s : State) : Out := .next (runSlot (.fmin g d a b) (fun s => fpS d (fminmax fp32 (ftzOf s) false (fpOf (rdS s a)) (fpOf (rdS s b))) s) s)

/-- FMAX (R97). FP32 maximumNumber. -/
def execFmax (g : Guard) (d a b : SReg) (s : State) : Out := .next (runSlot (.fmax g d a b) (fun s => fpS d (fminmax fp32 (ftzOf s) true (fpOf (rdS s a)) (fpOf (rdS s b))) s) s)

/-- FCMP (R98). FP32 compare that writes a condition register. -/
def execFcmp (g : Guard) (c : CReg) (a b : SReg) (r : FcmpRel) (s : State) : Out := .next (runSlot (.fcmp g c a b r) (fun s => let r := compareFp (ftzOf s) r (rdS s a) (rdS s b); wrC c r.1 (raise s.cur r.2 s)) s)

/-- FCVT (R99). Conversion between FP formats and integers. -/
def execFcvt (g : Guard) (d a : SReg) (op : FcvtOp) (m : FRound) (s : State) : Out := .next (runSlot (.fcvt g d a op m) (fun s => let r := convertScalar op (fcvtRm m (frmBits s)) (ftzOf s) (rdS s a); flagS d r.1 r.2 s) s)

/-- FCLASS (R100). Writes a one-hot class mask of an FP32 value. -/
def execFclass (g : Guard) (d a : SReg) (s : State) : Out := .next (runSlot (.fclass g d a) (fun s => wrFixed 4 d (BitVec.ofNat 64 (2 ^ classBit fp32 (fpOf (rdS s a)))) s) s)

end Sys2Proof.Machine
end

