-- ==== Sys2Proof/Machine/Shared.lean ====
section
/-! DEFINITION. The meanings of barriers, collectives, termination weight, teams, plates, engines and the joint array (R134 to
R142, R202 to R214, R218 to R231, R268 to R271, R290). -/

namespace Sys2Proof.Machine

/-- BAR_ARRIVE (R135). Arrives at the next phase of a barrier and lands the phase number. -/
def execBarArrive (d b : SReg) (dom : Domain) (gather swap : Bool) (s : State) : Out := .next (runSlot (.barArrive d b dom gather swap) (effBarArrive d b dom gather swap) s)

/-- BAR_WAIT (R135). Parks until a named barrier phase completes. -/
def execBarWait (a : SReg) (dom : Domain) (s : State) : Out := .next (runSlot (.barWait a dom) (effBarWait a dom) s)

/-- BAR_SYNC (R135). Arrives at a barrier phase and parks until it completes. -/
def execBarSync (d b : SReg) (dom : Domain) (gather swap : Bool) (s : State) : Out := .next (runSlot (.barSync d b dom gather swap) (effBarSync d b dom gather swap) s)

/-- BAR_DEPART (R136). Removes the context from the barrier for the rest of the launch. -/
def execBarDepart (dom : Domain) (s : State) : Out := .next (runSlot (.barDepart dom) (effBarDepart dom) s)

/-- GANG (R203). Arrives at the cell's wired gang barrier and, with MMA, starts a joint-array operation when every member has arrived. -/
def execGang (s : State) : Out := .next (runSlot .gang effGang s)

/-- FORK (R269). Starts copy, matrix and vector chains together as a fork group. -/
def execFork (d a : SReg) (q : BitVec 3) (mask : BitVec 3) (s : State) : Out := .next (runSlot (.fork d a q mask) (effFork d a q.toNat mask false) s)

/-- FORK_TRY (R271). As FORK, but writes refused tokens at once instead of parking when a queue is full. -/
def execForkTry (d a : SReg) (q : BitVec 3) (mask : BitVec 3) (s : State) : Out := .next (runSlot (.forkTry d a q mask) (effFork d a q.toNat mask true) s)

/-- RENDEZ (R270). Waits for the next meeting of the fork group, parking or landing its dial time. -/
def execRendez (d : SReg) (s : State) : Out := .next (runSlot (.rendez d) (effRendez d) s)

/-- CHAIN (R268). Hands a command chain to an engine queue, with token registers pending until it ends. -/
def execChain (d a b : SReg) (e : EngineSel) (q : BitVec 3) (s : State) : Out := .next (runSlot (.chain d a b e q) (effChain d a b e q.toNat false) s)

/-- CHAIN_TRY (R271). As CHAIN, but writes a refused token at once when the queue is full. -/
def execChainTry (d a b : SReg) (e : EngineSel) (q : BitVec 3) (s : State) : Out := .next (runSlot (.chainTry d a b e q) (effChain d a b e q.toNat true) s)

/-- PMOV_PSEL (R220). Selects the plate that the context's port moves address. -/
def execPmovPsel (v : PortVal) (s : State) : Out := .next (runSlot (.pmovPsel v) (effPmov (.pmovPsel v)) s)

/-- PMOV_XIN (R220). Latches 256 i8 inputs from a tile row pair. -/
def execPmovXin (t : TReg) (row : BitVec 4) (s : State) : Out := .next (runSlot (.pmovXin t row) (effPmov (.pmovXin t row)) s)

/-- PMOV_GAIN (R220). Latches the full-scale gain code. -/
def execPmovGain (v : PortVal) (s : State) : Out := .next (runSlot (.pmovGain v) (effPmov (.pmovGain v)) s)

/-- PMOV_XSCL (R220). Latches the FP32 input scale. -/
def execPmovXscl (v : PortVal) (s : State) : Out := .next (runSlot (.pmovXscl v) (effPmov (.pmovXscl v)) s)

/-- PMOV_WSCL (R220). Latches the FP32 weight scale. -/
def execPmovWscl (v : PortVal) (s : State) : Out := .next (runSlot (.pmovWscl v) (effPmov (.pmovWscl v)) s)

/-- PMOV_YOUT (R220). Latches the output tile and base row. -/
def execPmovYout (v : PortVal) (s : State) : Out := .next (runSlot (.pmovYout v) (effPmov (.pmovYout v)) s)

/-- PMOV_EXPOSE (R223). Starts an exposure once the queue is empty and the drift reading is fresh, or traps REFIX. -/
def execPmovExpose (s : State) : Out := .next (runSlot .pmovExpose effExpose s)

/-- PMOV_WROW (R230). Latches a plate row index and 256 clamped weights. -/
def execPmovWrow (t : TReg) (a : SReg) (row : BitVec 4) (s : State) : Out := .next (runSlot (.pmovWrow t a row) (effPmov (.pmovWrow t a row)) s)

/-- PMOV_WGO (R230). Trigger: programs the latched row into the plate with write-verify. -/
def execPmovWgo (s : State) : Out := .next (runSlot .pmovWgo (effPmov .pmovWgo) s)

/-- PMOV_REFIX (R229). Trigger: calibrates the selected plate. -/
def execPmovRefix (s : State) : Out := .next (runSlot .pmovRefix (effPmov .pmovRefix) s)

/-- PMOV_STAT (R231). Reads the selected plate's status word when the move is applied, clearing WSAT and WBAD. -/
def execPmovStat (d : SReg) (s : State) : Out := .next (runSlot (.pmovStat d) (effPmov (.pmovStat d)) s)

/-- PMOV_CALW_WRITE (R232). Supervisor write of a calibration word, marking the reading stale. -/
def execPmovCalwWrite (d a : SReg) (s : State) : Out := .next (runSlot (.pmovCalwWrite d a) (effPmov (.pmovCalwWrite d a)) s)

/-- PMOV_CALW_READ (R232). Reads a calibration word. -/
def execPmovCalwRead (d a : SReg) (s : State) : Out := .next (runSlot (.pmovCalwRead d a) (effPmov (.pmovCalwRead d a)) s)

/-- DETACH (R290). Leaves the team and continues independently. -/
def execDetach (s : State) : Out := .next (runSlot .detach effDetach s)

/-- ATTACH (R290). Rejoins the last leader at the next barrier phase. -/
def execAttach (dom : Domain) (s : State) : Out := .next (runSlot (.attach dom) (fun s => effJoin dom ((me s).lastLeader.getD 0) s) s)

/-- FOLLOW (R290). Names a leader and joins its team at the next barrier phase. -/
def execFollow (a : SReg) (dom : Domain) (s : State) : Out := .next (runSlot (.follow a dom) (fun s => effJoin dom (leaderNamed s.cur (rdS s a)) s) s)

/-- WSPLIT (R139). Splits off half the termination weight, borrowing from the root at weight 1. -/
def execWsplit (d : SReg) (s : State) : Out := .next (runSlot (.wsplit d) (effWsplit d) s)

/-- WRETURN (R139). Returns termination weight to the phase root as a release at sys. -/
def execWreturn (a : SReg) (s : State) : Out := .next (runSlot (.wreturn a) (effWreturn a) s)

/-- WSPLIT_ADD (R139). Adds returned weight to the context's wgt. -/
def execWsplitAdd (a : SReg) (s : State) : Out := .next (runSlot (.wsplitAdd a) (effWsplitAdd a) s)

/-- NRED (R141). Contributes to a combining-tree round of the selected operation at a domain. -/
def execNred (d a b : SReg) (dom : Domain) (op : NredOp) (s : State) : Out := .next (runSlot (.nred d a b dom op) (effNred d a b dom op) s)

/-- NRED_MERGEK (R142). Contributes a row of key-index entries to a merge of the top 16. -/
def execNredMergek (t u : TReg) (row : BitVec 4) (dom : Domain) (s : State) : Out := .next (runSlot (.nredMergek t u row dom) (effMergek t u row dom) s)

/-- MMA (R202). Names K and the operand descriptors of a joint-array operation started by GANG. -/
def execMma (g : Guard) (d a b : SReg) (s : State) : Out := .next (runSlot (.mma g d a b) (effMma d a b) s)

/-- MZERO (R210). Sets the core's accumulator quarter to +0 and clears its flags. -/
def execMzero (g : Guard) (s : State) : Out := .next (runSlot (.mzero g) effMzero s)

/-- MDRAIN (R212). Drains the quarter's rows to memory, tiles or the row handler. -/
def execMdrain (g : Guard) (d a : SReg) (s : State) : Out := .next (runSlot (.mdrain g d a) (effMdrain d a) s)

/-- RLEAVE (R214). Handler sends or drops the delivered row and parks for the next. -/
def execRleave (g : Guard) (drop : Bool) (s : State) : Out := .next (runSlot (.rleave g drop) (effRleave drop) s)

end Sys2Proof.Machine
end

