-- ==== Sys2Proof/Machine/Dispatch.lean ====
section
/-! DEFINITION. The one match that gives each instruction or event its meaning. -/

namespace Sys2Proof.Machine

def exec (i : Instr) (s : State) : Host.Outcome State Fault Refusal :=
  match i with
  | .nop => Sys2Proof.Machine.execNop s
  | .br off => Sys2Proof.Machine.execBr off s
  | .bc c sense off => Sys2Proof.Machine.execBc c sense off s
  | .bpend a off => Sys2Proof.Machine.execBpend a off s
  | .bnpend a off => Sys2Proof.Machine.execBnpend a off s
  | .call off => Sys2Proof.Machine.execCall off s
  | .jr d a => Sys2Proof.Machine.execJr d a s
  | .ret => Sys2Proof.Machine.execRet s
  | .loop level stop a => Sys2Proof.Machine.execLoop level stop a s
  | .loopi level stop cnt => Sys2Proof.Machine.execLoopi level stop cnt s
  | .lbrk => Sys2Proof.Machine.execLbrk s
  | .ld d a m off => Sys2Proof.Machine.execLd d a m off s
  | .ldAcq d a z u sc off => Sys2Proof.Machine.execLdAcq d a z u sc off s
  | .st d a z off => Sys2Proof.Machine.execSt d a z off s
  | .stRel d a z sc off => Sys2Proof.Machine.execStRel d a z sc off s
  | .ldp d a off => Sys2Proof.Machine.execLdp d a off s
  | .ldpAcq d a sc off => Sys2Proof.Machine.execLdpAcq d a sc off s
  | .stp d a off => Sys2Proof.Machine.execStp d a off s
  | .stpRel d a sc off => Sys2Proof.Machine.execStpRel d a sc off s
  | .lds d a z k off => Sys2Proof.Machine.execLds d a z k off s
  | .sts d a z k off => Sys2Proof.Machine.execSts d a z k off s
  | .xch d a w off => Sys2Proof.Machine.execXch d a w off s
  | .xchS d a w k off => Sys2Proof.Machine.execXchS d a w k off s
  | .cas d a w off => Sys2Proof.Machine.execCas d a w off s
  | .aadd d a w sc k off => Sys2Proof.Machine.execAadd d a w sc k off s
  | .aand d a w sc k off => Sys2Proof.Machine.execAand d a w sc k off s
  | .aor d a w sc k off => Sys2Proof.Machine.execAor d a w sc k off s
  | .axor d a w sc k off => Sys2Proof.Machine.execAxor d a w sc k off s
  | .amaxs d a w sc k off => Sys2Proof.Machine.execAmaxs d a w sc k off s
  | .amins d a w sc k off => Sys2Proof.Machine.execAmins d a w sc k off s
  | .amaxu d a w sc k off => Sys2Proof.Machine.execAmaxu d a w sc k off s
  | .aminu d a w sc k off => Sys2Proof.Machine.execAminu d a w sc k off s
  | .afadd d a sc k off => Sys2Proof.Machine.execAfadd d a sc k off s
  | .afmax d a sc k off => Sys2Proof.Machine.execAfmax d a sc k off s
  | .afmin d a sc k off => Sys2Proof.Machine.execAfmin d a sc k off s
  | .red d a op w sc k off => Sys2Proof.Machine.execRed d a op w sc k off s
  | .faddt d a sc off => Sys2Proof.Machine.execFaddt d a sc off s
  | .waitw d a off => Sys2Proof.Machine.execWaitw d a off s
  | .waitwTimeout ctx => Sys2Proof.Machine.execWaitwTimeout ctx s
  | .scld d a w off => Sys2Proof.Machine.execScld d a w off s
  | .scst d a w off => Sys2Proof.Machine.execScst d a w off s
  | .scx d a w off => Sys2Proof.Machine.execScx d a w off s
  | .scWindowDelivery pkg => Sys2Proof.Machine.execScWindowDelivery pkg s
  | .fence k sc => Sys2Proof.Machine.execFence k sc s
  | .tld t a r off => Sys2Proof.Machine.execTld t a r off s
  | .tst t a r off => Sys2Proof.Machine.execTst t a r off s
  | .tstB t a r off => Sys2Proof.Machine.execTstB t a r off s
  | .tldx t a b => Sys2Proof.Machine.execTldx t a b s
  | .bguiseClear d a bank => Sys2Proof.Machine.execBguiseClear d a bank s
  | .bguiseKeep d a bank => Sys2Proof.Machine.execBguiseKeep d a bank s
  | .bguiseConvert d a bank => Sys2Proof.Machine.execBguiseConvert d a bank s
  | .bguiseComplete core bank => Sys2Proof.Machine.execBguiseComplete core bank s
  | .bdesc d bank => Sys2Proof.Machine.execBdesc d bank s
  | .arcade d a b => Sys2Proof.Machine.execArcade d a b s
  | .arcadeDis d a => Sys2Proof.Machine.execArcadeDis d a s
  | .arcadeComplete ctx => Sys2Proof.Machine.execArcadeComplete ctx s
  | .barArrive d b dom gather swap => Sys2Proof.Machine.execBarArrive d b dom gather swap s
  | .barWait a dom => Sys2Proof.Machine.execBarWait a dom s
  | .barSync d b dom gather swap => Sys2Proof.Machine.execBarSync d b dom gather swap s
  | .barDepart dom => Sys2Proof.Machine.execBarDepart dom s
  | .barrierPhaseComplete launch inst dom => Sys2Proof.Machine.execBarrierPhaseComplete launch inst dom s
  | .gang => Sys2Proof.Machine.execGang s
  | .fork d a q mask => Sys2Proof.Machine.execFork d a q mask s
  | .forkTry d a q mask => Sys2Proof.Machine.execForkTry d a q mask s
  | .rendez d => Sys2Proof.Machine.execRendez d s
  | .forkMeetingComplete ctx => Sys2Proof.Machine.execForkMeetingComplete ctx s
  | .chain d a b e q => Sys2Proof.Machine.execChain d a b e q s
  | .chainTry d a b e q => Sys2Proof.Machine.execChainTry d a b e q s
  | .pmovPsel v => Sys2Proof.Machine.execPmovPsel v s
  | .pmovXin t row => Sys2Proof.Machine.execPmovXin t row s
  | .pmovGain v => Sys2Proof.Machine.execPmovGain v s
  | .pmovXscl v => Sys2Proof.Machine.execPmovXscl v s
  | .pmovWscl v => Sys2Proof.Machine.execPmovWscl v s
  | .pmovYout v => Sys2Proof.Machine.execPmovYout v s
  | .pmovExpose => Sys2Proof.Machine.execPmovExpose s
  | .pmovWrow t a row => Sys2Proof.Machine.execPmovWrow t a row s
  | .pmovWgo => Sys2Proof.Machine.execPmovWgo s
  | .pmovRefix => Sys2Proof.Machine.execPmovRefix s
  | .pmovStat d => Sys2Proof.Machine.execPmovStat d s
  | .pmovCalwWrite d a => Sys2Proof.Machine.execPmovCalwWrite d a s
  | .pmovCalwRead d a => Sys2Proof.Machine.execPmovCalwRead d a s
  | .portMoveApply core => Sys2Proof.Machine.execPortMoveApply core s
  | .referencePass core => Sys2Proof.Machine.execReferencePass core s
  | .exposureComplete core => Sys2Proof.Machine.execExposureComplete core s
  | .wgoComplete core => Sys2Proof.Machine.execWgoComplete core s
  | .refixComplete core => Sys2Proof.Machine.execRefixComplete core s
  | .trayq d => Sys2Proof.Machine.execTrayq d s
  | .trayqDep d a => Sys2Proof.Machine.execTrayqDep d a s
  | .trayqStop d => Sys2Proof.Machine.execTrayqStop d s
  | .trayqLand a => Sys2Proof.Machine.execTrayqLand a s
  | .traydrain => Sys2Proof.Machine.execTraydrain s
  | .closureRun ctx => Sys2Proof.Machine.execClosureRun ctx s
  | .detach => Sys2Proof.Machine.execDetach s
  | .attach dom => Sys2Proof.Machine.execAttach dom s
  | .follow a dom => Sys2Proof.Machine.execFollow a dom s
  | .rdtime d => Sys2Proof.Machine.execRdtime d s
  | .waitt a => Sys2Proof.Machine.execWaitt a s
  | .waittExpire who => Sys2Proof.Machine.execWaittExpire who s
  | .wsplit d => Sys2Proof.Machine.execWsplit d s
  | .wreturn a => Sys2Proof.Machine.execWreturn a s
  | .wsplitAdd a => Sys2Proof.Machine.execWsplitAdd a s
  | .weightReturnArrive launch => Sys2Proof.Machine.execWeightReturnArrive launch s
  | .nred d a b dom op => Sys2Proof.Machine.execNred d a b dom op s
  | .nredMergek t u row dom => Sys2Proof.Machine.execNredMergek t u row dom s
  | .nredRoundLand launch inst dom => Sys2Proof.Machine.execNredRoundLand launch inst dom s
  | .spill d n => Sys2Proof.Machine.execSpill d n s
  | .fill d n => Sys2Proof.Machine.execFill d n s
  | .csrr d csr => Sys2Proof.Machine.execCsrr d csr s
  | .csrw d a csr => Sys2Proof.Machine.execCsrw d a csr s
  | .csrs d a csr => Sys2Proof.Machine.execCsrs d a csr s
  | .csrc d a csr => Sys2Proof.Machine.execCsrc d a csr s
  | .trap a code => Sys2Proof.Machine.execTrap a code s
  | .break_ a code => Sys2Proof.Machine.execBreak a code s
  | .eret => Sys2Proof.Machine.execEret s
  | .eretU => Sys2Proof.Machine.execEretU s
  | .eretTo a => Sys2Proof.Machine.execEretTo a s
  | .wfi a => Sys2Proof.Machine.execWfi a s
  | .wfiDeadline ctx => Sys2Proof.Machine.execWfiDeadline ctx s
  | .replay a b => Sys2Proof.Machine.execReplay a b s
  | .replayFail a b => Sys2Proof.Machine.execReplayFail a b s
  | .movi d imm => Sys2Proof.Machine.execMovi d imm s
  | .add g d a b w => Sys2Proof.Machine.execAdd g d a b w s
  | .sub g d a b w => Sys2Proof.Machine.execSub g d a b w s
  | .addi g d a imm => Sys2Proof.Machine.execAddi g d a imm s
  | .mul g d a b w => Sys2Proof.Machine.execMul g d a b w s
  | .mulh g d a b => Sys2Proof.Machine.execMulh g d a b s
  | .mulhU g d a b => Sys2Proof.Machine.execMulhU g d a b s
  | .mulhSu g d a b => Sys2Proof.Machine.execMulhSu g d a b s
  | .div g d a b u w => Sys2Proof.Machine.execDiv g d a b u w s
  | .rem g d a b u w => Sys2Proof.Machine.execRem g d a b u w s
  | .and_ g d a b => Sys2Proof.Machine.execAnd g d a b s
  | .or_ g d a b => Sys2Proof.Machine.execOr g d a b s
  | .xor_ g d a b => Sys2Proof.Machine.execXor g d a b s
  | .andn g d a b => Sys2Proof.Machine.execAndn g d a b s
  | .shl g d a b w => Sys2Proof.Machine.execShl g d a b w s
  | .shlImm g d a n w => Sys2Proof.Machine.execShlImm g d a n w s
  | .shr g d a b w => Sys2Proof.Machine.execShr g d a b w s
  | .shrImm g d a n w => Sys2Proof.Machine.execShrImm g d a n w s
  | .sra g d a b w => Sys2Proof.Machine.execSra g d a b w s
  | .sraImm g d a n w => Sys2Proof.Machine.execSraImm g d a n w s
  | .rot g d a b w => Sys2Proof.Machine.execRot g d a b w s
  | .rotImm g d a n w => Sys2Proof.Machine.execRotImm g d a n w s
  | .clz g d a w => Sys2Proof.Machine.execClz g d a w s
  | .ctz g d a w => Sys2Proof.Machine.execCtz g d a w s
  | .popc g d a w => Sys2Proof.Machine.execPopc g d a w s
  | .rev g d a w => Sys2Proof.Machine.execRev g d a w s
  | .min_ g d a b w => Sys2Proof.Machine.execMin g d a b w s
  | .max_ g d a b w => Sys2Proof.Machine.execMax g d a b w s
  | .minu g d a b w => Sys2Proof.Machine.execMinu g d a b w s
  | .maxu g d a b w => Sys2Proof.Machine.execMaxu g d a b w s
  | .cmp g c a b r => Sys2Proof.Machine.execCmp g c a b r s
  | .sel g d a b neg c => Sys2Proof.Machine.execSel g d a b neg c s
  | .ext g d a x => Sys2Proof.Machine.execExt g d a x s
  | .bfx g d a b sx => Sys2Proof.Machine.execBfx g d a b sx s
  | .bfi g d a b => Sys2Proof.Machine.execBfi g d a b s
  | .lea g d a b sh => Sys2Proof.Machine.execLea g d a b sh s
  | .cond g c x y table => Sys2Proof.Machine.execCond g c x y table s
  | .fadd g d a b => Sys2Proof.Machine.execFadd g d a b s
  | .fsub g d a b => Sys2Proof.Machine.execFsub g d a b s
  | .fmul g d a b => Sys2Proof.Machine.execFmul g d a b s
  | .ffma g d a b c => Sys2Proof.Machine.execFfma g d a b c s
  | .fmin g d a b => Sys2Proof.Machine.execFmin g d a b s
  | .fmax g d a b => Sys2Proof.Machine.execFmax g d a b s
  | .fcmp g c a b r => Sys2Proof.Machine.execFcmp g c a b r s
  | .fcvt g d a op m => Sys2Proof.Machine.execFcvt g d a op m s
  | .fclass g d a => Sys2Proof.Machine.execFclass g d a s
  | .vadd g d a b r y => Sys2Proof.Machine.execVadd g d a b r y s
  | .vsub g d a b r y => Sys2Proof.Machine.execVsub g d a b r y s
  | .vmul g d a b r y => Sys2Proof.Machine.execVmul g d a b r y s
  | .vfma g d a b r y => Sys2Proof.Machine.execVfma g d a b r y s
  | .vmin g d a b r y => Sys2Proof.Machine.execVmin g d a b r y s
  | .vmax g d a b r y => Sys2Proof.Machine.execVmax g d a b r y s
  | .vabs g d a r y => Sys2Proof.Machine.execVabs g d a r y s
  | .vneg g d a r y => Sys2Proof.Machine.execVneg g d a r y s
  | .vnabs g d a r y => Sys2Proof.Machine.execVnabs g d a r y s
  | .vlogic g d a b r op => Sys2Proof.Machine.execVlogic g d a b r op s
  | .vshift g d a b r y => Sys2Proof.Machine.execVshift g d a b r y s
  | .vcmp g d a b r lt y => Sys2Proof.Machine.execVcmp g d a b r lt y s
  | .vsel g d a b r y => Sys2Proof.Machine.execVsel g d a b r y s
  | .vcvt g d a x r y => Sys2Proof.Machine.execVcvt g d a x r y s
  | .vpack g d a b r m => Sys2Proof.Machine.execVpack g d a b r m s
  | .vunpk g d a b r m => Sys2Proof.Machine.execVunpk g d a b r m s
  | .vred g d a op r y => Sys2Proof.Machine.execVred g d a op r y s
  | .vbcast g d a r y => Sys2Proof.Machine.execVbcast g d a r y s
  | .vscale g d a b r y => Sys2Proof.Machine.execVscale g d a b r y s
  | .vexp2 g d a r y => Sys2Proof.Machine.execVexp2 g d a r y s
  | .vlog2 g d a r y => Sys2Proof.Machine.execVlog2 g d a r y s
  | .vrcp g d a r y => Sys2Proof.Machine.execVrcp g d a r y s
  | .vrsqrt g d a r y => Sys2Proof.Machine.execVrsqrt g d a r y s
  | .vperm g d a b r y => Sys2Proof.Machine.execVperm g d a b r y s
  | .vscan g d a op r y => Sys2Proof.Machine.execVscan g d a op r y s
  | .vsrch g d a b r y => Sys2Proof.Machine.execVsrch g d a b r y s
  | .vmix g d a b r y => Sys2Proof.Machine.execVmix g d a b r y s
  | .viota g d a p h r y => Sys2Proof.Machine.execViota g d a p h r y s
  | .tmov g d a r => Sys2Proof.Machine.execTmov g d a r s
  | .tzero g d r => Sys2Proof.Machine.execTzero g d r s
  | .ttrans g d a y => Sys2Proof.Machine.execTtrans g d a y s
  | .topk g d a b k grp e => Sys2Proof.Machine.execTopk g d a b k grp e s
  | .tcolred g d a op row y => Sys2Proof.Machine.execTcolred g d a op row y s
  | .tfix g d a r y => Sys2Proof.Machine.execTfix g d a r y s
  | .tbndRd g d a row y => Sys2Proof.Machine.execTbndRd g d a row y s
  | .tbndSet g d a r y => Sys2Proof.Machine.execTbndSet g d a r y s
  | .rowStart core => Sys2Proof.Machine.execRowStart core s
  | .mma g d a b => Sys2Proof.Machine.execMma g d a b s
  | .mzero g => Sys2Proof.Machine.execMzero g s
  | .mdrain g d a => Sys2Proof.Machine.execMdrain g d a s
  | .rleave g drop => Sys2Proof.Machine.execRleave g drop s
  | .nopB => Sys2Proof.Machine.execNopB s
  | .matrixBlockComplete cell => Sys2Proof.Machine.execMatrixBlockComplete cell s
  | .drainBegin core => Sys2Proof.Machine.execDrainBegin core s
  | .drainRowDeliver core => Sys2Proof.Machine.execDrainRowDeliver core s
  | .drainRowWrite core => Sys2Proof.Machine.execDrainRowWrite core s
  | .valueLand ctx idx => Sys2Proof.Machine.execValueLand ctx idx s
  | .fixedResultLand ctx => Sys2Proof.Machine.execFixedResultLand ctx s
  | .cwaitTimeout ctx => Sys2Proof.Machine.execCwaitTimeout ctx s
  | .contextExit ctx => Sys2Proof.Machine.execContextExit ctx s
  | .bankAccess core bank => Sys2Proof.Machine.execBankAccess core bank s
  | .closedReplay core bank => Sys2Proof.Machine.execClosedReplay core bank s
  | .globalRequest ctx idx => Sys2Proof.Machine.execGlobalRequest ctx idx s
  | .replayRegisterWrite die num => Sys2Proof.Machine.execReplayRegisterWrite die num s
  | .rfailRegisterWrite die num => Sys2Proof.Machine.execRfailRegisterWrite die num s
  | .invRegisterWrite die cmd => Sys2Proof.Machine.execInvRegisterWrite die cmd s
  | .invalidationComplete die => Sys2Proof.Machine.execInvalidationComplete die s
  | .registerWrite reg v => Sys2Proof.Machine.execRegisterWrite reg v s
  | .copyEntry q => Sys2Proof.Machine.execCopyEntry q s
  | .gatherEntry q => Sys2Proof.Machine.execGatherEntry q s
  | .scatterEntry q => Sys2Proof.Machine.execScatterEntry q s
  | .fillEntry q => Sys2Proof.Machine.execFillEntry q s
  | .redcopyEntry q => Sys2Proof.Machine.execRedcopyEntry q s
  | .endEntry q => Sys2Proof.Machine.execEndEntry q s
  | .waittEntry q => Sys2Proof.Machine.execWaittEntry q s
  | .waitvEntry q => Sys2Proof.Machine.execWaitvEntry q s
  | .waitvReread q => Sys2Proof.Machine.execWaitvReread q s
  | .signalEntry q => Sys2Proof.Machine.execSignalEntry q s
  | .loopEntry q => Sys2Proof.Machine.execLoopEntry q s
  | .ifzEntry q => Sys2Proof.Machine.execIfzEntry q s
  | .ifnzEntry q => Sys2Proof.Machine.execIfnzEntry q s
  | .qfenceEntry q => Sys2Proof.Machine.execQfenceEntry q s
  | .tokenEntry q => Sys2Proof.Machine.execTokenEntry q s
  | .rendezEntry q => Sys2Proof.Machine.execRendezEntry q s
  | .mmaEntry q => Sys2Proof.Machine.execMmaEntry q s
  | .drainEntry q => Sys2Proof.Machine.execDrainEntry q s
  | .attrEntry q => Sys2Proof.Machine.execAttrEntry q s
  | .entryDeadline q => Sys2Proof.Machine.execEntryDeadline q s
  | .queueTailWrite pkg q v => Sys2Proof.Machine.execQueueTailWrite pkg q v s
  | .recordFetch pkg q => Sys2Proof.Machine.execRecordFetch pkg q s
  | .dependenceSatisfied pkg q second => Sys2Proof.Machine.execDependenceSatisfied pkg q second s
  | .dependenceReread pkg q second => Sys2Proof.Machine.execDependenceReread pkg q second s
  | .dispatchChoose pkg => Sys2Proof.Machine.execDispatchChoose pkg s
  | .launchPlace launch => Sys2Proof.Machine.execLaunchPlace launch s
  | .launchStart launch => Sys2Proof.Machine.execLaunchStart launch s
  | .reservationTimeout pkg => Sys2Proof.Machine.execReservationTimeout pkg s
  | .launchClassify launch => Sys2Proof.Machine.execLaunchClassify launch s
  | .preempt pkg => Sys2Proof.Machine.execPreempt pkg s
  | .launchRestore launch => Sys2Proof.Machine.execLaunchRestore launch s
  | .coreRelease core => Sys2Proof.Machine.execCoreRelease core s
  | .launchKillRequest launch => Sys2Proof.Machine.execLaunchKillRequest launch s
  | .hostAccess acc => Sys2Proof.Machine.execHostAccess acc s
  | .dialEpochSet v => Sys2Proof.Machine.execDialEpochSet v s
  | .dialSyncExchange pkg ns ahead => Sys2Proof.Machine.execDialSyncExchange pkg ns ahead s
  | .grandmasterLost pkg => Sys2Proof.Machine.execGrandmasterLost pkg s
  | .grandmasterTakeover pkg => Sys2Proof.Machine.execGrandmasterTakeover pkg s
  | .flitReceive pkg link good => Sys2Proof.Machine.execFlitReceive pkg link good s
  | .remotePathTimeout ctx idx => Sys2Proof.Machine.execRemotePathTimeout ctx idx s
  | .switchRedMerge ctx idx => Sys2Proof.Machine.execSwitchRedMerge ctx idx s
  | .mergeFlush entry => Sys2Proof.Machine.execMergeFlush entry s
  | .dieHeartbeatMiss die => Sys2Proof.Machine.execDieHeartbeatMiss die s
  | .packageLost pkg => Sys2Proof.Machine.execPackageLost pkg s
  | .bootImageVerify pkg img => Sys2Proof.Machine.execBootImageVerify pkg img s
  | .bootSelfTest core found withheld => Sys2Proof.Machine.execBootSelfTest core found withheld s
  | .coldReset pkg => Sys2Proof.Machine.execColdReset pkg s
  | .warmReset pkg => Sys2Proof.Machine.execWarmReset pkg s
  | .attestationRequest pkg nonce => Sys2Proof.Machine.execAttestationRequest pkg nonce s
  | .tenantKeyLoad die index tenant key => Sys2Proof.Machine.execTenantKeyLoad die index tenant key s
  | .latentReadout die nonce => Sys2Proof.Machine.execLatentReadout die nonce s
  | .latentRecordFreeze die cause => Sys2Proof.Machine.execLatentRecordFreeze die cause s
  | .eccScrub unit correctable => Sys2Proof.Machine.execEccScrub unit correctable s
  | .governorTick pkg draw => Sys2Proof.Machine.execGovernorTick pkg draw s
  | .thermalStep pkg temp => Sys2Proof.Machine.execThermalStep pkg temp s
  | .acknowledgementArrival ctx => Sys2Proof.Machine.execAcknowledgementArrival ctx s
  | .switchAcknowledgement entry => Sys2Proof.Machine.execSwitchAcknowledgement entry s

end Sys2Proof.Machine
end

