-- ==== Sys2Proof/Machine/Agenda.lean ====
section
/-! DEFINITION. What one step of the machine does next (log entry 1): first what the spec fixes to this cycle; then the
agenda's first move; with an empty agenda the first event of the part's own that is due, else an issue slot that a core
has not used, else the next cycle. -/

namespace Sys2Proof.Machine

/-! ## Events that are due -/

/-- Memory events of a context's requests. -/
def reqEvents (k : Nat) (c : Ctx) : List Instr :=
  (upTo c.reqs.length).flatMap fun i => [.globalRequest k i, .remotePathTimeout k i]

/-- Events of one context, landings first (R27, R65). -/
def ctxEvents (k : Nat) (c : Ctx) : List Instr :=
  (upTo c.landings.length).map (Instr.valueLand k) ++ reqEvents k c ++
  (if c.acks.isEmpty then [] else [.acknowledgementArrival k]) ++
  (if c.fork.isSome then [.forkMeetingComplete k] else []) ++
  (if c.status = .parked then [.waitwTimeout k, .waittExpire (.ctx k), .wfiDeadline k, .contextExit k] else [])

/-- Events of one core. -/
def coreEvents (core : Nat) (x : CoreSt) : List Instr :=
  (if x.drains.isEmpty then [] else [.drainRowWrite core, .drainRowDeliver core, .drainBegin core]) ++
  [.referencePass core] ++
  (if x.trigger.isSome then [.exposureComplete core, .wgoComplete core, .refixComplete core] else []) ++
  (if x.ports.isEmpty then [] else [.portMoveApply core]) ++
  (if x.launch.isSome then [.coreRelease core] else [])

/-- The dial time has come for a registry to be read again: once in a microsecond (R260, R336). -/
def rereadNow (s : State) : Bool := s.cycle % 3000 == 0

/-- The entry of a chain is read, or read again after a full registry (R260). -/
def entryEvents (s : State) (q : Nat) (ch : Chain) : List Instr :=
  let waitv : List Instr :=
    match ch.entry, ch.wait with
    | some _, .ready => if ch.io.isSome then [.waitvEntry q] else if rereadNow s then [.waitvReread q] else []
    | _, _ => [.waitvEntry q]
  waitv ++ [.endEntry q, .copyEntry q, .gatherEntry q, .scatterEntry q, .fillEntry q, .redcopyEntry q, .waittEntry q,
    .signalEntry q, .loopEntry q, .ifzEntry q, .ifnzEntry q, .qfenceEntry q, .tokenEntry q, .rendezEntry q, .mmaEntry q,
    .drainEntry q, .attrEntry q]

/-- Events of an engine queue: its first chain's entry, its WAITT and its deadline. -/
def queueEvents (s : State) (q : Nat) (x : Queue) : List Instr :=
  match x.chains with
  | [] => []
  | ch :: _ => [.waittExpire (.queue q), .entryDeadline q] ++ entryEvents s q ch

/-- Events of a launch. -/
def launchEvents (id : Nat) (l : Launch) : List Instr :=
  (if l.returns.isEmpty && !l.phaseOwed then [] else [.weightReturnArrive id]) ++
  (match l.phase with
    | .eligible => [.launchPlace id]
    | .imageFault => [.launchPlace id]
    | .placed => [.launchStart id]
    | .started => [.launchClassify id]
    | .saved => [.launchRestore id]
    | _ => [])

/-- The barriers that a context may have completed. -/
def barEvents (s : State) (k : Nat) (c : Ctx) : List Instr :=
  [Domain.core, .cell, .bay, .court, .pav, .die, .pkg, .sys].flatMap fun d =>
    if doneFor s k d < (c.bar d).arrived then [.barrierPhaseComplete (groupOf s (launchOf s k)) (domInst d (coreOf k)) d] else []

/-- Events of a host work queue of a package, key q. -/
def qcbEvents (s : State) (q : Nat) (x : Qcb) : List Instr :=
  [.recordFetch (q / 4096) (q % 4096)] ++
  (if x.front.isNone then []
   else (if rereadNow s then [.dependenceReread (q / 4096) (q % 4096) false, .dependenceReread (q / 4096) (q % 4096) true] else []) ++
     [.dependenceSatisfied (q / 4096) (q % 4096) false, .dependenceSatisfied (q / 4096) (q % 4096) true])

/-- Events of a package's dispatcher. -/
def pkgEvents (s : State) (p : Nat) : List Instr :=
  if s.launches.isEmpty then [] else [.dispatchChoose p, .reservationTimeout p, .preempt p]

/-- Every event that the part itself may make now, in the order in which the step tries them. -/
def autoEvents (s : State) : List Instr :=
  s.ctxs.map (fun p => Instr.fixedResultLand p.1) ++
  s.ctxs.flatMap (fun p => ctxEvents p.1 p.2) ++
  s.cores.flatMap (fun p => coreEvents p.1 p.2) ++
  (s.cells.filter fun p => !p.2.ops.isEmpty).map (fun p => Instr.matrixBlockComplete p.1) ++
  (s.banks.filter fun p => p.2.closing.isSome).map (fun p => Instr.bguiseComplete (p.1 / 16) (p.1 % 16)) ++
  s.arcades.map (fun a => Instr.arcadeComplete a.ctx) ++
  s.ctxs.flatMap (fun p => barEvents s p.1 p.2) ++
  s.rounds.map (fun r => Instr.nredRoundLand r.launch r.inst r.dom) ++
  s.queues.flatMap (fun p => queueEvents s p.1 p.2) ++
  s.launches.flatMap (fun p => launchEvents p.1 p.2) ++
  s.qcbs.flatMap (fun p => qcbEvents s p.1 p.2) ++
  (upTo s.domain).flatMap (pkgEvents s) ++
  (s.dies.filter fun p => !p.2.invals.isEmpty).map (fun p => Instr.invalidationComplete p.1) ++
  s.merges.flatMap (fun m => [Instr.mergeFlush m.id, Instr.switchAcknowledgement m.id]) ++
  (if s.grandmaster.isSome then [] else (upTo s.domain).map Instr.grandmasterTakeover)

/-- The first of a list of events that changes the state, with the outcome. -/
def firstEvent : List Instr → State → Option Out
  | [], _ => none
  | i :: r, s =>
    match exec i s with
    | .next t => if t = s then firstEvent r s else some (.next t)
    | o => some o

/-! ## Moves -/

/-- A slot instruction: it runs in a bundle only, so the agenda does not name it as an event. -/
def isEvent (i : Instr) : Bool := (slotA? i).isNone

/-- The core has not used its issue slot of this cycle. -/
def slotFree (s : State) (core : Nat) : Bool := (s.core core).nextSlot ≤ s.cycle

/-- What the spec fixes to this cycle for a context: landings of fixed latency (R65), and values and acknowledgements of
bank accesses (R297, R300). -/
def ctxDue (now k : Nat) (c : Ctx) : List Instr :=
  (if c.fixed.any (fun f => f.due ≤ now) then [.fixedResultLand k] else []) ++
  ((((upTo c.landings.length).zip c.landings).filter fun p => p.2.firm && p.2.due ≤ now).map fun p => .valueLand k p.1) ++
  (if c.acks.any (fun a => a.firm && a.due ≤ now) then [.acknowledgementArrival k] else [])

/-- A BGUISE other than a CONVERT lands in its cycle (R157). -/
def guiseDue (now : Nat) (x : Bank) : Bool :=
  match x.closing with | some (.guise _ _ _ _ due _ none) => due ≤ now | _ => false

/-- A core's port queue in this cycle (R218, R224, R229, R230): its head move, or the end of its trigger. -/
def portDue (s : State) (core : Nat) (x : CoreSt) : List Instr :=
  match x.trigger with
  | some (.reference _, due) => if due ≤ s.cycle then [.referencePass core] else []
  | some (.expose .., due) => if due ≤ s.cycle then [.exposureComplete core] else []
  | some (.wgo .., due) => if due ≤ s.cycle then [.wgoComplete core] else []
  | some (.refix _, due) => if due ≤ s.cycle then [.refixComplete core] else []
  | none => if portReady s core then [.portMoveApply core] else []

/-- Deadlines of registered waiters that have passed (R126, R374). -/
def waiterDue (s : State) : List Instr :=
  (allRegistered s).filterMap fun r => match r.who with
    | .ctx k _ => if r.deadline != 0 && r.deadline.toNat ≤ dialOf s k then some (.waitwTimeout k) else none
    | _ => none

/-- The timed actions of an engine queue whose time has come (R260, R264, R374). -/
def queueDue (s : State) (q : Nat) (x : Queue) : List Instr :=
  match x.chains with
  | [] => []
  | ch :: _ => (match ch.wait with | .waitt t => if t.toNat ≤ dialOf s ch.owner then [.waittExpire (.queue q)] else [] | _ => []) ++
      (if chainLate s ch then [.entryDeadline q] else [])

/-- Launches whose START has come (R339, R374). -/
def launchDue (s : State) (id : Nat) (l : Launch) : List Instr :=
  if l.phase = .placed ∧ (recWord l.w 21).toNat ≤ dial s (dieOf (coreOf (l.members.headD 0))) then [.launchStart id] else []

/-- Remote accesses that have just lost their path, have one again, or have had none for 2 ms (R396). -/
def pathDue (s : State) (k : Nat) (c : Ctx) : List Instr :=
  ((upTo c.reqs.length).zip c.reqs).filterMap fun p =>
    let lost := !isLocal p.2.addr && noPath s (coreOf k) (vaDie p.2.addr)
    match p.2.lostAt with
    | none => if lost then some (.remotePathTimeout k p.1) else none
    | some n => if !lost || n + 6000000 ≤ s.cycle then some (.remotePathTimeout k p.1) else none

/-- The state after an effect, if it has one. -/
def changed (f : State → State) (s : State) : Option State := let t := f s; if t = s then none else some t

/-- The dials' exchange of a package that the agenda has not made in its cycle, and the grandmaster's loss (R373). -/
def dialMove (s : State) : Option State :=
  (upTo s.domain).findSome? fun p =>
    (if (s.pkg p).syncAt < s.cycle then changed (effDialSync p 0 false) s else none) <|> changed (effGmLost p) s

/-- A host access whose fault was answered, or whose path is back or has been missing for 2 ms, is made again (R358, R396). -/
def hostMove (s : State) : Option State :=
  s.hostReqs.findSome? fun h => match h.state with
    | .retry => changed (effHostAccess h.acc) s
    | .failed _ => changed (effHostAccess h.acc) s
    | _ => none

/-- What dial times and time limits fix to this cycle; a new grandmaster takes over within 10 ms (R373). -/
def timeEvents (s : State) : List Instr :=
  List.flatten [
    s.ctxs.flatMap fun p => pathDue s p.1 p.2,
    waiterDue s,
    s.queues.flatMap fun p => queueDue s p.1 p.2,
    s.launches.flatMap fun p => launchDue s p.1 p.2,
    (s.merges.filter fun m => m.since + 3000 ≤ s.cycle).map fun m => .mergeFlush m.id,
    if s.grandmaster.isNone && decide (s.masterLostAt + 30000000 ≤ s.cycle) then (upTo s.domain).map .grandmasterTakeover else []]

/-- What happens in this cycle and no other, before anything else in it: timed actions (R374), bank accesses in their slots
(R294), what lands, SC announcements of a window (R366), and the rows that lane groups take (R195, R196). -/
def dueEvents (s : State) : List Instr :=
  List.flatten [
    timeEvents s,
    if s.announces.isEmpty then [] else (upTo s.domain).map .scWindowDelivery,
    slotEvents s,
    s.ctxs.flatMap fun p => ctxDue s.cycle p.1 p.2,
    s.cores.flatMap fun p => portDue s p.1 p.2,
    (s.banks.filter fun p => guiseDue s.cycle p.2).map fun p => .bguiseComplete (p.1 / 16) (p.1 % 16),
    (s.cores.filter fun p => !p.2.queue.isEmpty).map fun p => .rowStart p.1]

/-- One move of the agenda. -/
def runMove (m : Move) (s : State) : Out :=
  match m with
  | .event i => if isEvent i then exec i s else .next s
  | .turn k => if slotFree s (coreOf k) then issueCore exec (coreOf k) s else .next s
  | .pass => .next (tick s)

/-- A core with a context that can hold it and an issue slot left in this cycle. -/
def issuer (s : State) : Option Nat :=
  (s.ctxs.map fun p => coreOf p.1).find? fun core => slotFree s core && (pick s core).isSome

/-- Waits that CWAIT limits end in a trap only where nothing else of the cycle ends them (R426). -/
def lateEvents (s : State) : List Instr := (s.ctxs.filter fun p => p.2.status == .parked).map fun p => .cwaitTimeout p.1

/-- A move that the machine makes of its own: an event that is due, an issue slot, the end of a wait, or the passing of the
cycle. -/
def ownMove (s : State) : Out :=
  match firstEvent (autoEvents s) s, hostMove s with
  | some o, _ => o
  | none, some t => .next t
  | none, none =>
    match issuer s with
    | some core => issueCore exec core s
    | none => (firstEvent (lateEvents s) s).getD (.next (tick s))

/-- The move that comes next. -/
def nextMove (s : State) : Out :=
  match firstEvent (dueEvents s) s, dialMove s with
  | some o, _ => o
  | none, some t => .next t
  | none, none =>
    match s.sched with
    | m :: rest => runMove m { s with sched := rest }
    | [] => ownMove s

end Sys2Proof.Machine
end

