-- ==== Sys2Proof/Machine/Loaded.lean ====
section
/-! DEFINITION. A machine with one instruction loaded (log entry 2): core 0 of die 0 runs one member of a launch, whose
page tables map its code, and the agenda's first move is that core's issue slot. It stands for what the queue, the
dispatcher and the driver do before a program's first bundle (R318 to R339, R348 to R350). -/

namespace Sys2Proof.Machine

/-- The record of the loaded launch (R318): one member on one core, at supervisor level (MODE.PRIV), with 16 tiles. -/
def loadedRecord : Vector Word 32 :=
  let w : Vector Word 32 := Vector.replicate 32 0
  let w := vset w 0 0x100000
  let w := vset w 1 0x40000
  let w := vset w 2 0x0000001100000001
  vset w 10 0x800

/-- The loaded launch. -/
def loadedLaunch (k : Nat) : Launch :=
  {
    w := loadedRecord, addr := 0, pkg := 0, queue := 0, tenant := 0, asid := 1, prio := 0, age := 0, phase := .started
    members := [if k = 4 then 0 else k], cores := [0], released := [], exited := 0, killed := 0, killCause := none, failure := none
    outstanding := 2 ^ 62, phaseEnded := false, returns := [], phaseWrite := .issued, phaseOwed := false, ops := 0, bytes := 0
    cls := none, classed := false, startedAt := 0, saved := none, stopping := false, io := .issued }

/-- The loaded context: its member's context, or the handler context as one of the launch, about to fetch. -/
def loadedCtx (id k : Nat) : Ctx :=
  let l := loadedLaunch k
  { memberCtx id l k 0 with
    status := .running, tbase := 0, tcount := 16, wgt := BitVec.ofNat 63 (2 ^ 62) }

/-- One 8-byte word of die 0's HBM. -/
def putHbm (a v : Nat) (s : State) : State := { s with hbm := writeN s.hbm (hkey 0 a) 8 v }

/-- Page tables of address space 1 at die 0: offset 0 up to 1 GiB, every access allowed (R348 to R350). -/
def loadedTables (s : State) : State :=
  let s := putHbm 0x1008 0x2000 s
  let s := putHbm 0x2000 (3 * 2 ^ 22 + 1) s
  putHbm 0x3000 0x3F s

/-- Die 0 with those tables and nothing cached. -/
def loadedDie (s : State) : State :=
  s.modDie 0 fun d => { d with
    root := 0x1000, tlb := Vector.replicate 5 [], failed := false }

/-- Core 0 given over to the loaded context. -/
def loadedCore (id k : Nat) (s : State) : State :=
  { s.modCore 0 fun c => { c with
      launch := some id, tenant := some 0, running := if k = 4 then none else some k, nextSlot := s.cycle, draining := false } with
    ctxs := put k (loadedCtx id k) (s.ctxs.filter fun p => coreOf p.1 ≠ 0) }

/-- The state in which context k of core 0 is about to issue the bundle of two words. -/
def loadWords (k : Nat) (w0 w1 : Nat) (s : State) : State :=
  let id := s.seq
  let s := { s with seq := id + 1, view := none, hbmPoison := [], seals := [] }
  let s := putHbm 0x100000 (w0 + w1 * 2 ^ 32) (loadedTables (loadedDie s))
  let s := loadedCore id k (s.modPkg 0 fun p => { p with lost := false })
  { s with launches := put id (loadedLaunch k) s.launches, sched := .turn k :: s.sched }

/-- The loaded instruction of an opcode-table word: in slot A beside a zero word, or in slot B beside NOP, or beside GANG
for MMA (R202). RLEAVE is loaded in the handler context (R214). -/
def loadTableWord (s : State) (nbits w : Nat) : State :=
  match decodeTableWord nbits w with
  | none => loadWords 0 w 0 s
  | some i =>
    if slotA? i = some true then loadWords 0 w 0 s
    else loadWords (if isRleave i then 4 else 0) (if isMma i then encodeWordA .gang else 0) w s

end Sys2Proof.Machine
end

