-- ==== Sys2Proof/Machine/Step.lean ====
section
/-! DEFINITION. One step: the move that comes next, and what stands once it is made. -/

namespace Sys2Proof.Machine

/-- One step of the machine (log entry 1). -/
def step (s : State) : Host.Outcome State Fault Refusal := andThen (nextMove s) fun s => .next (afterMove s)

/-- The state with one instruction of the opcode table about to be fetched (log entry 2). -/
def State.withFetchWord (s : State) (nbits w : Nat) : State := loadTableWord s nbits w

end Sys2Proof.Machine
end

