-- ==== Sys2Proof/Safety.lean ====
section
/-! DEFINITION. The terms in which claims about the machine are stated: when a slot instruction runs, what a part of a
step leaves alone, the memories' canonical form, and the values of the spec's tables written over bits and integers. -/

namespace Sys2Proof.Machine

/-! ## When a slot instruction has its effect -/

/-- Slot instruction i has its effect in s: its guard is open (R70), and it stands inside a bundle that is running
(R60) or its own bundle issues (R28, R76, R77). -/
def Runs (i : Instr) (s : State) : Prop :=
  guardOpen i (me s) = true ∧ (s.view.isSome = true ∨ judge (partner i).1 (partner i).2 s s.cur = .issue false false)

/-- A context with nothing in flight: no pending register, no fixed-latency result, no access or answer that it waits for,
no closure, no poison. -/
def Quiet (c : Ctx) : Prop :=
  c.pend = 0 ∧ c.tray = [] ∧ c.lost = [] ∧ c.fixed = [] ∧ c.reqs = [] ∧ c.acks = [] ∧ c.portWait = none ∧ c.poison = [] ∧
  c.failure = none ∧ c.badC = 0 ∧ c.badCtl = []

/-! ## Frames -/

/-- t is s but for the record of context k. -/
def OnlyCtx (k : Nat) (s t : State) : Prop := t = { s with ctxs := t.ctxs } ∧ ∀ j, j ≠ k → t.ctx j = s.ctx j

/-- t is s but for the record of core c. -/
def OnlyCore (c : Nat) (s t : State) : Prop := t = { s with cores := t.cores } ∧ ∀ j, j ≠ c → t.core j = s.core j

/-- No byte of bank space, of any die's HBM as any key or none reads it (R305), or of host memory differs. -/
def SameBytes (s t : State) : Prop :=
  (∀ a, readByte t.bankMem a = readByte s.bankMem a) ∧ (∀ key a, frameRead t key a 1 = frameRead s key a 1) ∧
  ∀ a, readByte t.hostMem a = readByte s.hostMem a

/-- c' is c but for scalar and condition registers with what is in flight to them, fflags and event counters. -/
def OnlyRegs (c c' : Ctx) : Prop :=
  c' = { c with s := c'.s, c := c'.c, badC := c'.badC, fixed := c'.fixed, poison := c'.poison, pend := c'.pend, fflags := c'.fflags, evc := c'.evc }

/-! ## Entries of command chains -/

/-- The head chain of queue q stands at an entry with words w that its engine accepts, and may act on it now. -/
def AtEntry (s : State) (q : Nat) (ch : Chain) (rest : List Chain) (w : Vector Word 4) : Prop :=
  (s.queue q).chains = ch :: rest ∧ ch.entry = some w ∧ ch.ending = none ∧ ch.cancel = false ∧ launchStops s ch.owner = false ∧
  chainLate s ch = false ∧ attrTrap q ch = none ∧ accepts (queueEngine q) (opOf w) = true ∧ recordAddr ch = none ∧ ch.admitted = none

/-- A chain that has left an entry with no completion record for the entry at an address (R252, R262, R265). -/
def Chain.left (ch : Chain) (addr : Word) : Chain :=
  { ch with
    next := addr, entry := none, active := none, item := 0, piece := 0, entryItems := 0, entryStale := 0
    wait := .ready, ending := none, admitted := none, io := none, begun := false, index := none, buf := none }

/-- A chain after one item that is done (R255). -/
def Chain.itemDone (ch : Chain) : Chain :=
  { ch with
    item := ch.item + 1, piece := 0, items := ch.items + 1, entryItems := ch.entryItems + 1, admitted := none, wait := .ready
    begun := false, index := none, buf := none }

/-- The access that the head chain ch of queue q makes at a distance from a base has its answer v in s, and u is s without it
(R163, R258, R259): a piece in global memory performed at once, or an access whose pieces have all been performed and are back. -/
def Answered (s : State) (q : Nat) (ch : Chain) (base : Word) (off : Nat) (acc : Access) (v : Nat) (u : State) : Prop :=
  (ch.io = none ∧ isLocal base = false ∧ ∃ a x f t, slotSpans s (coreOf ch.owner) base off acc.bytes = [(0, a, acc.bytes)] ∧
    isLocal a = false ∧ pieceAct (chainAgent q ch) a acc (.queue q) s = (.done x v f, t) ∧ (t.queue q).chains = (s.queue q).chains ∧
    u = setIo q none t) ∨
  (∃ io, ch.io = some io ∧ io.addr = base ∧ io.off = off ∧ io.acc = acc ∧ io.gen = none ∧ ioNeeds s ch io = [] ∧ io.out = none ∧
    io.ready ≤ s.cycle ∧ v = ioValue io ∧ u = setIo q none s)

/-- An access whose first piece is local is asked for, at its bank: nothing else changes (R294). -/
def Asked (i : Instr) (s : State) (q : Nat) (ch : Chain) (base : Word) (off : Nat) (acc : Access) (red : Option (RedOp × Nat)) : Prop :=
  ∀ p l, ch.io = none → slotSpans s (coreOf ch.owner) base off acc.bytes = p :: l → isLocal p.2.1 = true →
    Sys2Proof.Machine.exec i s = .next (setIo q (some { addr := base, off := off, acc := acc, red := red, since := s.cycle }) s)

/-- The event i answers a next state in which only queue q differs from s, its head chain being c. -/
def Heads (i : Instr) (s : State) (q : Nat) (c : Chain) (rest : List Chain) : Prop :=
  ∃ t, Sys2Proof.Machine.exec i s = .next t ∧ (t.queue q).chains = c :: rest ∧ t = { s with queues := t.queues } ∧
    ∀ j, j ≠ q → t.queue j = s.queue j

/-- Register d of context k holds v and is not pending. -/
def Landed (t : State) (k : Nat) (d : SReg) (v : Word) : Prop := (t.ctx k).rd d = v ∧ (t.ctx k).pending d = false

/-- Bytes a to a + n - 1 of the local window, seen from a core, lie in one plain bank that the core may access: an ARRAY
bank in no arcade, with no change running and no poison. -/
def PlainBank (s : State) (core : Nat) (a : Word) (n : Nat) : Prop :=
  wf a 63 57 = 0x7E ∧ wf a 56 25 = 0 ∧ wf a 12 0 + n ≤ 8192 ∧ sameTenant s core (windowCore core a) = true ∧
  (s.bank (bankAt core a)).desc = 0 ∧ (s.bank (bankAt core a - 1)).desc = 0 ∧ (s.bank (bankAt core a)).closing = none ∧
  (s.bank (bankAt core a)).badDesc = false ∧ s.bankPoison = []

/-! ## Accesses -/

/-- The memory instructions of slot A that are done once their accesses are performed (R115 to R133). -/
def memForm : Instr → Bool
  | .ld .. | .ldAcq .. | .st .. | .stRel .. | .ldp .. | .ldpAcq .. | .stp .. | .stpRel .. | .lds .. | .sts .. | .xch .. | .xchS .. => true
  | .cas .. | .aadd .. | .aand .. | .aor .. | .axor .. | .amaxs .. | .amins .. | .amaxu .. | .aminu .. | .afadd .. | .afmax .. => true
  | .afmin .. | .red .. | .faddt .. | .scld .. | .scst .. | .scx .. | .tld .. | .tst .. | .tstB .. | .tldx .. => true
  | .spill .. | .fill .. => true
  | _ => false

/-- The landing l brings the value v to a destination: its registers, or its row with an exact tag (R16, R115 to R119). -/
def Brings (l : Landing) (v : Nat) : Dest → Prop
  | .none => False
  | .reg d n sign => l.regs = [(d, if sign then BitVec.ofInt 64 (signed (8 * n) v) else BitVec.ofNat 64 (v % 2 ^ (8 * n)))] ∧ l.rows = []
  | .pair d => l.regs = [(d, BitVec.ofNat 64 v), (d + 1, BitVec.ofNat 64 (v / 2 ^ 64))] ∧ l.rows = []
  | .status k none => l.regs = [(k, 0)] ∧ l.rows = []
  | .status k (some (d, n)) =>
    l.regs = [(k, 0), (d, if 16 ≤ n then BitVec.ofInt 64 (signed (8 * (n - 16)) v) else BitVec.ofNat 64 (v % 2 ^ (8 * n)))] ∧ l.rows = []
  | .regs _ _ => False
  | .row key => l.regs = [] ∧ l.rows = [(key, { data := BitVec.ofNat 1024 v })]

/-- In this cycle bank `bank` of a core, plain and without poison, serves from slot sl the access of request r of context k,
whose bytes all lie in it. -/
def Serves (s : State) (k core bank : Nat) (r : Req) (sl : Slot) (replay : Bool) : Prop :=
  let b := 16 * core + bank
  let key := localKey (k / 8) r.addr
  isLocal r.addr = true ∧ bank < 16 ∧ key / 8192 = b ∧ key % 8192 + r.acc.bytes ≤ 8192 ∧ r.did = 0 ∧
  (∃ a, chosenAt s b = some a ∧ a.who = .ctx k r.seq 0 ∧ a.slot = sl ∧ a.replay = replay) ∧
  (s.ctx k).reqs.find? (fun x => x.seq = r.seq) = some r ∧ listFor s k r = none ∧
  (s.bank b).closing = none ∧ (s.bank b).badDesc = false ∧ descOf s b = 0 ∧ oddOfPair s b = false ∧ s.bankPoison = []

/-- The event of a bank's slot. -/
def slotEvent (core bank : Nat) (replay : Bool) : Instr := if replay then .closedReplay core bank else .bankAccess core bank

/-- The cycle in which what is served to a context is there: at slot 0 the one that the issue fixes (R296), else as far as
slot and crossing say (R297, R300). -/
def arrivesAt (s : State) (k b : Nat) (r : Req) (sl : Slot) : Nat :=
  s.cycle + if sl = .own then r.issued % 4 else slotLatency (k / 8) b sl

/-- In this cycle bank b serves, from slot 0 of its frame, request r of context k, which lies there and reads no list. -/
def ServesOwn (s : State) (k b : Nat) (r : Req) (replay : Bool) : Prop :=
  localKey (k / 8) r.addr = 8192 * b ∧ r.did = 0 ∧ (s.ctx k).reqs.find? (fun x => x.seq = r.seq) = some r ∧
  (∃ a, chosenAt s b = some a ∧ a.who = .ctx k r.seq 0 ∧ a.slot = .own ∧ a.replay = replay) ∧ listFor s k r = none ∧
  (s.bank b).closing = none ∧ (s.bank b).badDesc = false ∧ s.bankPoison = []

/-- The request is over, and nothing but the bank's bytes, its turn and what context k waits for has changed. -/
def Over (s t : State) (k b : Nat) (r : Req) : Prop :=
  (∀ x, x ∈ (t.ctx k).reqs ↔ x ∈ (s.ctx k).reqs ∧ x.seq ≠ r.seq) ∧ (t.ctx k).s = (s.ctx k).s ∧ t.hbm = s.hbm ∧ t.seals = s.seals ∧
  t.hostMem = s.hostMem ∧ (t.turn b).served = s.cycle + 1

/-- What a served access does (R115 to R125): the bytes it leaves at key, and the value, flags and acknowledgement on their
way to context k, there in cycle `due`. A FADDT that no waiter awaits. -/
def Performed (s t : State) (k key due : Nat) (r : Req) : Prop :=
  let lands (v : Nat) (fl : BitVec 5) : Prop := ∃ l, (t.ctx k).landings = (s.ctx k).landings ++ [l] ∧ Brings l v r.dest ∧
    l.flags = fl ∧ l.poison = none ∧ l.due = due ∧ l.firm = true
  let answered (v : Nat) (fl : BitVec 5) : Prop :=
    (r.dest = .none → (t.ctx k).acks = (s.ctx k).acks ++ [⟨fl, none, due, true⟩] ∧ (t.ctx k).landings = (s.ctx k).landings) ∧
    (r.dest ≠ .none → (∀ d n, r.dest ≠ .regs d n) → lands v fl)
  match r.acc with
  | .read n => t.bankMem = s.bankMem ∧ answered (readN s.bankMem key n) 0
  | .write n v => t.bankMem = writeN s.bankMem key n v.toNat ∧ ((r.dest = .none ∨ ∃ d, r.dest = .status d none) → answered 0 0)
  | .rmw n f =>
    let old := readN s.bankMem key n
    t.bankMem = (match (rmwNew n f old).1 with | some new => writeN s.bankMem key n new | none => s.bankMem) ∧ answered old (rmwNew n f old).2
  | .faddt add _ =>
    let old := readN s.bankMem key 8
    (s.bank (key / 8192)).waiters = [] → t.bankMem = writeN s.bankMem key 8 ((old + add.toNat) % 2 ^ 64) ∧ answered old 0
  | _ => True

/-- What a served load of one of the core's own banks brings its fixed-latency results (R62, R296): the bytes at key. -/
def Given (s t : State) (k key : Nat) (r : Req) : Prop :=
  let gets (f : Fixed) (v : Word) : Prop := { f with value := v, of := none, bad := none } ∈ (t.ctx k).fixed
  t.bankMem = s.bankMem ∧ ∀ f ∈ (s.ctx k).fixed, f.of = some r.seq →
    match r.acc, r.dest with
    | .read n, .reg d m sign => f.reg = d →
      gets f (let v := readN s.bankMem key n; if sign then BitVec.ofInt 64 (signed (8 * m) v) else BitVec.ofNat 64 (v % 2 ^ (8 * m)))
    | .read n, .pair d =>
      (f.reg = d → gets f (BitVec.ofNat 64 (readN s.bankMem key n))) ∧ (f.reg = d + 1 → gets f (BitVec.ofNat 64 (readN s.bankMem key n / 2 ^ 64)))
    | .read n, .regs d m => n = 8 * m → m ≤ 8 → ∀ i, i < m → f.reg = d + BitVec.ofNat 5 i →
      gets f (BitVec.ofNat 64 (readN s.bankMem (key + 8 * i) 8))
    | _, _ => True

/-! ## Structures in banks (R144 to R147) -/

/-- A bank alone, not CLOSED, with nothing poisoned and no waiter, whose image the descriptor's kind gives, well formed. -/
def ImageBank (s : State) (b : Nat) : Prop :=
  aroleOf (descOf s b) = 0 ∧ descValid (descOf s b) (b % 16) = true ∧ oddOfPair s b = false ∧ (s.bank b).closing = none ∧
  (s.bank b).badDesc = false ∧ (s.bank b).waiters = [] ∧ (s.bank b).held = [] ∧ s.bankPoison = [] ∧
  hdCount s b ≤ capOf (descOf s b) ∧
  (kindOf (descOf s b) = 1 → hdHead s b < capOf (descOf s b) ∧ hdTail s b = (hdHead s b + hdCount s b) % capOf (descOf s b))

/-- The elements of a QUEUE, oldest first, or of a STACK, top first (R146). -/
def elems (s : State) (b : Nat) : List Nat :=
  let d := descOf s b
  if kindOf d = 1 then (List.range (hdCount s b)).map fun i => elemAt s d b ((hdHead s b + i) % capOf d)
  else (List.range (hdCount s b)).map fun i => elemAt s d b (hdCount s b - 1 - i)

/-- Nothing but bank b's bytes and what stands beside them, and the next age, differs. -/
def OnlyBank (b : Nat) (s t : State) : Prop :=
  t = { s with bankMem := t.bankMem, banks := t.banks, seq := t.seq } ∧ (∀ x, x ≠ b → t.bank x = s.bank x) ∧ descOf t b = descOf s b ∧
  ∀ a, a / 8192 ≠ b → readByte t.bankMem a = readByte s.bankMem a

/-! ## Invariants -/

/-- The three memories have the canonical form. -/
def State.memOk (s : State) : Prop :=
  Memory.wf s.bankMem = true ∧ Memory.wf s.hbm = true ∧ Memory.wf s.hostMem = true

/-! ## The scalar instructions of slot B -/

/-- Slot B instructions whose scalar or condition result has a fixed latency (R62). -/
def fixedScalar : Instr → Bool
  | .add .. | .sub .. | .addi .. | .and_ .. | .or_ .. | .xor_ .. | .andn .. | .shl .. | .shlImm .. | .shr .. | .shrImm .. => true
  | .sra .. | .sraImm .. | .rot .. | .rotImm .. | .clz .. | .ctz .. | .popc .. | .rev .. | .min_ .. | .max_ .. | .minu .. => true
  | .maxu .. | .cmp .. | .sel .. | .ext .. | .bfx .. | .bfi .. | .lea .. | .cond .. | .fadd .. | .fsub .. | .fmul .. => true
  | .ffma .. | .fmin .. | .fmax .. | .fcmp .. | .fcvt .. | .fclass .. => true
  | _ => false

/-- Slot B instructions whose scalar result lands at a variable time (R62, R83). -/
def lateScalar : Instr → Bool
  | .mul .. | .mulh .. | .mulhU .. | .mulhSu .. | .div .. | .rem .. => true
  | _ => false

/-- The integer instructions among the fixed ones: they set no flag (R32, R82). -/
def integerScalar : Instr → Bool
  | .fadd .. | .fsub .. | .fmul .. | .ffma .. | .fmin .. | .fmax .. | .fcmp .. | .fcvt .. => false
  | i => fixedScalar i

/-- The condition register that an instruction writes. -/
def condDest : Instr → Option CReg
  | .cmp _ c _ _ _ => some c
  | .cond _ c _ _ _ => some c
  | .fcmp _ c _ _ _ => some c
  | _ => none

/-! ## Values of the spec's tables -/

/-- What a control register reads as after v is written to it (R19 to R22, R199): its reserved bits are 0, PRIV is as before, and
the handler context has no DEF. -/
def csrKeeps (handler priv : Bool) (n : Nat) (v : Word) : Word :=
  if n = 0x000 then (v &&& if handler then 0x3C else 0x3E) ||| (if priv then 0x40 else 0)
  else if n = 0x001 then v &&& 0x1F
  else if n = 0x002 then (if v = 0 then 1 else if v.toNat ≤ 8 then v else 8)
  else if n = 0x003 then v &&& 0xF
  else if n ∈ [0x004, 0x02C, 0x200] then v &&& ~~~ 7
  else if n ∈ [0x008, 0x009] then v &&& 0xF
  else if n = 0x00A then v &&& 1
  else if n = 0x00B then v &&& 0xF7
  else if 0x010 ≤ n ∧ n ≤ 0x01F then v &&& 0xFFFFFFFF
  else if n = 0x109 then v &&& 0xFFFF
  else if n = 0x10B then v &&& 0x3FFF
  else if n ∈ [0x120, 0x121] then v &&& 0xFF
  else v

/-- The numbers of R19 that a write reaches: all but the read-only ones. -/
def csrWritable (n : Nat) : Prop := csrAcc n = some .rw ∨ csrAcc n = some .ur ∨ csrAcc n = some .s

/-- The width of a form with W (R81). -/
def formBits (w : Bool) : Nat := if w then 32 else 64

/-- Bit i of a 64-bit result of a form with W is bit i of the operation, or bit 31 above it (R81). -/
def formBit (w : Bool) (i : Nat) : Nat := if w then min i 31 else i

/-- The quotient of R33. -/
def quotient {n : Nat} (u : Bool) (x y : BitVec n) : BitVec n :=
  if y = 0 then BitVec.allOnes n else if u then x.udiv y else x.sdiv y

/-- The remainder of R33. -/
def remainder {n : Nat} (u : Bool) (x y : BitVec n) : BitVec n :=
  if y = 0 then x else if u then x.umod y else x.srem y

/-- An operation on 64 bits, or on the low 32 bits with its result sign-extended (R81). -/
def onForm (w : Bool) (f : {n : Nat} → BitVec n → BitVec n → BitVec n) (x y : Word) : Word :=
  if w then (f (x.truncate 32) (y.truncate 32)).signExtend 64 else f x y

end Sys2Proof.Machine
end

