-- ==== Sys2Proof/Certificates/Slice0/Obligations.lean ====
section
/-! DEFINITION. The statements for the provers, taken from the numbered rules of the spec. -/

open Sys2Proof Sys2Proof.Machine

/-! ## Scalar and condition registers -/

/-- ADD, SUB, ADDI, AND, OR, XOR, ANDN (R82), LEA (R89), MOVI (R93): the result, modulo 2^64 or sign-extended from 32 bits
(R81), is written with latency 1 (R62). The shifts (R84), bit by bit: SHL and SHR fill with zeros, SRA with the sign bit,
ROT rotates right; the amount is sb[5:0], sb[4:0] for .w, or the immediate; a 32-bit result is sign-extended (R81). -/
def Obligations.IntegerAndShiftResults : Prop :=
  (∀ (s : State) (g : Guard) (d a b : SReg),
     (∀ w, Runs (.add g d a b w) s → exec (.add g d a b w) s = .next (wrS d (onForm w (· + ·) (rdS s a) (rdS s b)) s)) ∧
     (∀ w, Runs (.sub g d a b w) s → exec (.sub g d a b w) s = .next (wrS d (onForm w (· - ·) (rdS s a) (rdS s b)) s)) ∧
     (∀ imm, Runs (.addi g d a imm) s → exec (.addi g d a imm) s = .next (wrS d (rdS s a + BitVec.ofInt 64 imm.toInt) s)) ∧
     (Runs (.and_ g d a b) s → exec (.and_ g d a b) s = .next (wrS d (rdS s a &&& rdS s b) s)) ∧
     (Runs (.or_ g d a b) s → exec (.or_ g d a b) s = .next (wrS d (rdS s a ||| rdS s b) s)) ∧
     (Runs (.xor_ g d a b) s → exec (.xor_ g d a b) s = .next (wrS d (rdS s a ^^^ rdS s b) s)) ∧
     (Runs (.andn g d a b) s → exec (.andn g d a b) s = .next (wrS d (rdS s a &&& ~~~ rdS s b) s)) ∧
     (∀ sh, Runs (.lea g d a b sh) s →
       exec (.lea g d a b sh) s = .next (wrS d (BitVec.ofNat 64 ((rdS s a).toNat + (rdS s b).toNat * 2 ^ sh.toNat)) s)) ∧
     (∀ imm : Imm 12, Runs (.movi d imm) s → exec (.movi d imm) s = .next (wrS d (BitVec.ofInt 64 imm.signed) s))) ∧
  (∀ (s : State) (g : Guard) (d a b : SReg) (w : Bool) (m : BitVec 6), (w = true → m.toNat < 32) →
     let x := rdS s a
     let n := (rdS s b).toNat % formBits w
     let bits := formBits w
     let left (n : Nat) (v : Word) : Prop := ∀ i, i < 64 → v.getLsbD i = (decide (n ≤ formBit w i) && x.getLsbD (formBit w i - n))
     let right (n : Nat) (v : Word) : Prop := ∀ i, i < 64 → v.getLsbD i = (decide (formBit w i + n < bits) && x.getLsbD (formBit w i + n))
     let arith (n : Nat) (v : Word) : Prop := ∀ i, i < 64 → v.getLsbD i = x.getLsbD (min (formBit w i + n) (bits - 1))
     let turn (n : Nat) (v : Word) : Prop := ∀ i, i < 64 → v.getLsbD i = x.getLsbD ((formBit w i + n) % bits)
     (Runs (.shl g d a b w) s → ∃ v, exec (.shl g d a b w) s = .next (wrS d v s) ∧ left n v) ∧
     (Runs (.shlImm g d a m w) s → ∃ v, exec (.shlImm g d a m w) s = .next (wrS d v s) ∧ left m.toNat v) ∧
     (Runs (.shr g d a b w) s → ∃ v, exec (.shr g d a b w) s = .next (wrS d v s) ∧ right n v) ∧
     (Runs (.shrImm g d a m w) s → ∃ v, exec (.shrImm g d a m w) s = .next (wrS d v s) ∧ right m.toNat v) ∧
     (Runs (.sra g d a b w) s → ∃ v, exec (.sra g d a b w) s = .next (wrS d v s) ∧ arith n v) ∧
     (Runs (.sraImm g d a m w) s → ∃ v, exec (.sraImm g d a m w) s = .next (wrS d v s) ∧ arith m.toNat v) ∧
     (Runs (.rot g d a b w) s → ∃ v, exec (.rot g d a b w) s = .next (wrS d v s) ∧ turn n v) ∧
     (Runs (.rotImm g d a m w) s → ∃ v, exec (.rotImm g d a m w) s = .next (wrS d v s) ∧ turn m.toNat v))

/-- BITS (R85): CLZ, CTZ and POPC count in the low 64 or 32 bits and REV reverses them. MINMAX (R86): the smaller or larger
of sa and sb, signed or unsigned, of 64 bits, or of 32 bits and then sign-extended. -/
def Obligations.BitsAndMinMaxResults : Prop :=
  ∀ (s : State) (g : Guard) (d a b : SReg) (w : Bool),
    let x := rdS s a
    let y := rdS s b
    let bits := formBits w
    (Runs (.clz g d a w) s → ∃ n : Nat, exec (.clz g d a w) s = .next (wrS d (BitVec.ofNat 64 n) s) ∧
      n ≤ bits ∧ (∀ i, bits - n ≤ i → i < bits → x.getLsbD i = false) ∧ (n < bits → x.getLsbD (bits - 1 - n) = true)) ∧
    (Runs (.ctz g d a w) s → ∃ n : Nat, exec (.ctz g d a w) s = .next (wrS d (BitVec.ofNat 64 n) s) ∧
      n ≤ bits ∧ (∀ i, i < n → x.getLsbD i = false) ∧ (n < bits → x.getLsbD n = true)) ∧
    (Runs (.popc g d a w) s →
      exec (.popc g d a w) s = .next (wrS d (BitVec.ofNat 64 ((List.range bits).countP x.getLsbD)) s)) ∧
    (Runs (.rev g d a w) s → ∃ v, exec (.rev g d a w) s = .next (wrS d v s) ∧
      ∀ i, i < 64 → v.getLsbD i = x.getLsbD (bits - 1 - formBit w i)) ∧
    (Runs (.min_ g d a b w) s →
      exec (.min_ g d a b w) s = .next (wrS d (onForm w (fun x y => if y.slt x then y else x) x y) s)) ∧
    (Runs (.max_ g d a b w) s →
      exec (.max_ g d a b w) s = .next (wrS d (onForm w (fun x y => if x.slt y then y else x) x y) s)) ∧
    (Runs (.minu g d a b w) s →
      exec (.minu g d a b w) s = .next (wrS d (onForm w (fun x y => if y.ult x then y else x) x y) s)) ∧
    (Runs (.maxu g d a b w) s →
      exec (.maxu g d a b w) s = .next (wrS d (onForm w (fun x y => if x.ult y then y else x) x y) s))

/-- EXT (R87) extends a low field of sa, and SEL (R92) selects sa or sb by a condition. BFX and BFI (R88), bit by bit: the
field of sb[13:8] + 1 bits from position sb[5:0], cut off at bit 63. CMP (R90), COND (R91) and FCMP (R98) write a condition
register. -/
def Obligations.SelectFieldAndCompareResults : Prop :=
  (∀ (s : State) (g : Guard) (d a b : SReg),
     let x := rdS s a
     let y := rdS s b
     (Runs (.ext g d a .sb) s → exec (.ext g d a .sb) s = .next (wrS d ((x.truncate 8).signExtend 64) s)) ∧
     (Runs (.ext g d a .sh) s → exec (.ext g d a .sh) s = .next (wrS d ((x.truncate 16).signExtend 64) s)) ∧
     (Runs (.ext g d a .sw) s → exec (.ext g d a .sw) s = .next (wrS d ((x.truncate 32).signExtend 64) s)) ∧
     (Runs (.ext g d a .zb) s → exec (.ext g d a .zb) s = .next (wrS d ((x.truncate 8).zeroExtend 64) s)) ∧
     (Runs (.ext g d a .zh) s → exec (.ext g d a .zh) s = .next (wrS d ((x.truncate 16).zeroExtend 64) s)) ∧
     (Runs (.ext g d a .zw) s → exec (.ext g d a .zw) s = .next (wrS d ((x.truncate 32).zeroExtend 64) s)) ∧
     (∀ neg c, Runs (.sel g d a b neg c) s →
       exec (.sel g d a b neg c) s = .next (wrS d (if (rdC s c ^^ neg) = true then x else y) s))) ∧
  (∀ (s : State) (g : Guard) (d a b : SReg),
     let p := (rdS s b).toNat % 64
     let n := min ((rdS s b).toNat / 256 % 64 + 1) (64 - p)
     (∀ sx, Runs (.bfx g d a b sx) s → ∃ v, exec (.bfx g d a b sx) s = .next (wrS d v s) ∧
       ∀ i, i < 64 → v.getLsbD i = if i < n then (rdS s a).getLsbD (p + i) else (sx && (rdS s a).getLsbD (p + n - 1))) ∧
     (Runs (.bfi g d a b) s → ∃ v, exec (.bfi g d a b) s = .next (wrS d v s) ∧
       ∀ i, i < 64 → v.getLsbD i = if p ≤ i ∧ i < p + n then (rdS s a).getLsbD (i - p) else (rdS s d).getLsbD i)) ∧
  (∀ (s : State) (g : Guard) (c : CReg) (a b : SReg),
     let x := rdS s a
     let y := rdS s b
     (Runs (.cmp g c a b .eq) s → exec (.cmp g c a b .eq) s = .next (wrC c (decide (x = y)) s)) ∧
     (Runs (.cmp g c a b .ne) s → exec (.cmp g c a b .ne) s = .next (wrC c (decide (x ≠ y)) s)) ∧
     (Runs (.cmp g c a b .lt) s → exec (.cmp g c a b .lt) s = .next (wrC c (x.slt y) s)) ∧
     (Runs (.cmp g c a b .ge) s → exec (.cmp g c a b .ge) s = .next (wrC c (y.sle x) s)) ∧
     (Runs (.cmp g c a b .ltu) s → exec (.cmp g c a b .ltu) s = .next (wrC c (x.ult y) s)) ∧
     (Runs (.cmp g c a b .geu) s → exec (.cmp g c a b .geu) s = .next (wrC c (y.ule x) s)) ∧
     (∀ (p q : CReg) (table : BitVec 4), Runs (.cond g c p q table) s → exec (.cond g c p q table) s =
       .next (wrC c (table.getLsbD (2 * (rdC s p).toNat + (rdC s q).toNat)) s)) ∧
     (∀ r, Runs (.fcmp g c a b r) s →
       let u := unpack fp32 (ftzOf s) (x.toNat % 2 ^ 32)
       let v := unpack fp32 (ftzOf s) (y.toNat % 2 ^ 32)
       let nv : Flags5 := if u.isSig || v.isSig || ((r == .lt || r == .le) && (u.isNan || v.isNan)) then flNV else 0
       let holds : Bool := match r with
         | .eq => eqV u v | .lt => ltV u v | .le => ltV u v || eqV u v | .un => u.isNan || v.isNan
       exec (.fcmp g c a b r) s = .next (wrC c holds (raise s.cur nv s)) ∧ ((u.isNan || v.isNan) = true → r ≠ .un → holds = false)))

/-- MUL, MULH, DIV and REM (R83, R33): the exact product's halves, the truncated quotient and its remainder with the edge
cases of R33; the destination is pending until the result lands (R27). That the results land when R83 first allows is the
model's choice, log entry 22. -/
def Obligations.MultiplyDivideResults : Prop :=
  ∀ (s : State) (g : Guard) (d a b : SReg),
    let x := rdS s a
    let y := rdS s b
    (∀ w, Runs (.mul g d a b w) s → exec (.mul g d a b w) s = .next (lateS 3 d (onForm w (· * ·) x y) s)) ∧
    (Runs (.mulh g d a b) s → exec (.mulh g d a b) s =
      .next (lateS 4 d ((x.signExtend 128 * y.signExtend 128).extractLsb' 64 64) s)) ∧
    (Runs (.mulhU g d a b) s → exec (.mulhU g d a b) s =
      .next (lateS 4 d ((x.zeroExtend 128 * y.zeroExtend 128).extractLsb' 64 64) s)) ∧
    (Runs (.mulhSu g d a b) s → exec (.mulhSu g d a b) s =
      .next (lateS 4 d ((x.signExtend 128 * y.zeroExtend 128).extractLsb' 64 64) s)) ∧
    (∀ u w, Runs (.div g d a b u w) s → exec (.div g d a b u w) s = .next (lateS 6 d (onForm w (quotient u) x y) s)) ∧
    (∀ u w, Runs (.rem g d a b u w) s → exec (.rem g d a b u w) s = .next (lateS 6 d (onForm w (remainder u) x y) s))

/-- FADD, FSUB, FMUL, FFMA, FMIN, FMAX, FCVT and FCLASS (R96, R97, R99, R100): the FP32 operands are bits [31:0] (R95),
rounded under mode.FRM (R36); flags rise at issue (R40) and the result, zero in its upper bits, has latency 4 (R62). -/
def Obligations.FloatResults : Prop :=
  ∀ (s : State) (g : Guard) (d a b c : SReg),
    let x := (rdS s a).toNat % 2 ^ 32
    let y := (rdS s b).toNat % 2 ^ 32
    let z := (rdS s c).toNat % 2 ^ 32
    let rm := frmOf s
    let ftz := (me s).mode.getLsbD 3
    let put (r : FR) : State := wrFixed 4 d (BitVec.ofNat 64 r.bits) (raise s.cur r.fl s)
    let putI (r : Int × Flags5) : State := wrFixed 4 d (BitVec.ofInt 64 r.1) (raise s.cur r.2 s)
    (Runs (.fadd g d a b) s → exec (.fadd g d a b) s = .next (put (addV fp32 rm ftz (unpack fp32 ftz x) (unpack fp32 ftz y)))) ∧
    (Runs (.fsub g d a b) s →
      exec (.fsub g d a b) s = .next (put (addV fp32 rm ftz (unpack fp32 ftz x) (unpack fp32 ftz (negBits fp32 y))))) ∧
    (Runs (.fmul g d a b) s → exec (.fmul g d a b) s = .next (put (fmul fp32 rm ftz x y))) ∧
    (Runs (.ffma g d a b c) s → exec (.ffma g d a b c) s = .next (put (ffma fp32 rm ftz x y z))) ∧
    (Runs (.fmin g d a b) s → exec (.fmin g d a b) s = .next (put (fminmax fp32 ftz false x y))) ∧
    (Runs (.fmax g d a b) s → exec (.fmax g d a b) s = .next (put (fminmax fp32 ftz true x y))) ∧
    (∀ m, let rm := fcvtRm m (frmBits s)
      (Runs (.fcvt g d a .i64 m) s → exec (.fcvt g d a .i64 m) s = .next (putI (toInt fp32 rm ftz true 64 x))) ∧
      (Runs (.fcvt g d a .u64 m) s → exec (.fcvt g d a .u64 m) s = .next (putI (toInt fp32 rm ftz false 64 x))) ∧
      (Runs (.fcvt g d a .i32 m) s → exec (.fcvt g d a .i32 m) s = .next (putI (toInt fp32 rm ftz true 32 x))) ∧
      (Runs (.fcvt g d a .u32 m) s → exec (.fcvt g d a .u32 m) s = .next (putI (toInt fp32 rm ftz false 32 x))) ∧
      (Runs (.fcvt g d a .fromI64 m) s → exec (.fcvt g d a .fromI64 m) s = .next (put (ofInt fp32 rm ftz (rdS s a).toInt))) ∧
      (Runs (.fcvt g d a .fromU64 m) s → exec (.fcvt g d a .fromU64 m) s = .next (put (ofInt fp32 rm ftz (rdS s a).toNat))) ∧
      (Runs (.fcvt g d a .f16 m) s → exec (.fcvt g d a .f16 m) s = .next (put (convert fp32 fp16 rm ftz x))) ∧
      (Runs (.fcvt g d a .fromF16 m) s →
        exec (.fcvt g d a .fromF16 m) s = .next (put (convert fp16 fp32 rm ftz ((rdS s a).toNat % 2 ^ 16)))) ∧
      (Runs (.fcvt g d a .bf16 m) s → exec (.fcvt g d a .bf16 m) s = .next (put (convert fp32 bf16 rm ftz x))) ∧
      (Runs (.fcvt g d a .fromBf16 m) s →
        exec (.fcvt g d a .fromBf16 m) s = .next (put (convert bf16 fp32 rm ftz ((rdS s a).toNat % 2 ^ 16))))) ∧
    (Runs (.fclass g d a) s →
      exec (.fclass g d a) s = .next (wrFixed 4 d (BitVec.ofNat 64 (2 ^ classBit fp32 x)) s))

/-- Rounding (R36) of an exact value m x 2^e. Where the result is no overflow, the delivered pattern reads as a value z of the
same sign: RTZ never exceeds the exact magnitude and RDN and RUP err in their direction, all by less than the unit of z's last
place; RNE is never further than half of it, and a tie goes to the even pattern; NX says whether z is exact (R40). Overflow is
what rounds beyond the largest finite value, and delivers the infinity or the largest finite value of R36's table with OF and NX.
Under FTZ a result below the smallest normal becomes a zero of its sign with UF and NX (R38), and nothing else differs. -/
def Obligations.RoundingIsCorrect : Prop :=
  ∀ (t : Fmt) (neg : Bool) (m : Nat) (e : Int), t ∈ [fp32, fp16, bf16] → 0 < m →
    (∀ rm, (round t rm false neg m e).fl &&& flOF = 0 →
      ∃ z q, unpack t false (round t rm false neg m e).bits = .fin neg z q ∧
        let k := min e q
        let exact : Nat := m * 2 ^ (e - k).toNat
        let got : Nat := z * 2 ^ (q - k).toNat
        let ulp : Nat := 2 ^ (q - k).toNat
        let down : Prop := rm = .rtz ∨ rm = .rdn ∧ neg = false ∨ rm = .rup ∧ neg = true
        let up : Prop := rm = .rup ∧ neg = false ∨ rm = .rdn ∧ neg = true
        (down → got ≤ exact ∧ exact < got + ulp) ∧ (up → exact ≤ got ∧ got < exact + ulp) ∧
        (rm = .rne → 2 * got ≤ 2 * exact + ulp ∧ 2 * exact ≤ 2 * got + ulp ∧
          (2 * exact = 2 * got + ulp ∨ 2 * got = 2 * exact + ulp → (round t rm false neg m e).bits % 2 = 0)) ∧
        (((round t rm false neg m e).fl &&& flNX = 0) ↔ got = exact)) ∧
    (∀ rm,
      let r := round t rm false neg m e
      let k := min e (t.bias - t.f)
      let exact : Nat := m * 2 ^ (e - k).toNat
      let ulp : Nat := 2 ^ (t.bias - t.f - k).toNat
      let top : Nat := (2 ^ (t.f + 1) - 1) * ulp
      let away : Prop := rm = .rup ∧ neg = false ∨ rm = .rdn ∧ neg = true
      ((r.fl &&& flOF ≠ 0) ↔ if rm = .rne then 2 * top + ulp ≤ 2 * exact else if away then top < exact else top + ulp ≤ exact) ∧
      (r.fl &&& flOF ≠ 0 → r.fl = flOF ||| flNX ∧ r.bits = t.sign neg + if rm = .rne ∨ away then t.inf else t.inf - 1)) ∧
    (∀ rm,
      let r := round t rm false neg m e
      round t rm true neg m e =
        if r.fl &&& flOF = 0 ∧ r.bits % 2 ^ (t.e + t.f) < 2 ^ t.f then ⟨zeroBits t neg, flUF ||| flNX⟩ else r)

/-- Writing scalar and condition registers (R11): s0 reads as 0 and c0 as 1 whatever is written; another register reads what
was written last, but for what a closure writes, which lands a cycle later (R236); every other register reads as before. Bytes written are read back, and no other byte changes: in a bank
and in HBM, for every place, length and value. In HBM that holds under every key and under none (R305): what was written
under a key is read back under it, and only the 16-byte blocks written to may read otherwise under another. -/
def Obligations.StateReadsBack : Prop :=
  (∀ (s : State) (d r : SReg) (p q : CReg) (v : Word) (b : Bool),
     let t := wrS d v s
     let u := wrC p b s
     OnlyCtx s.cur s t ∧ OnlyCtx s.cur s u ∧
     (s.ctx s.cur).rd 0 = 0 ∧ (s.ctx s.cur).rdC 0 = true ∧
     (t.ctx s.cur).rd r = (if r = d ∧ d ≠ 0 ∧ (s.ctx s.cur).running = none then v else (s.ctx s.cur).rd r) ∧
     (u.ctx s.cur).rdC q = (if q = p ∧ p ≠ 0 then b else (s.ctx s.cur).rdC q) ∧
     (∀ x, (t.ctx s.cur).rdC x = (s.ctx s.cur).rdC x) ∧ (∀ x, (u.ctx s.cur).rd x = (s.ctx s.cur).rd x)) ∧
  ((∀ (s : State) (key n v : Nat), readN (bankWrite key n v s).bankMem key n = v % 256 ^ n ∧
     (∀ a, ¬(key ≤ a ∧ a < key + n) → readByte (bankWrite key n v s).bankMem a = readByte s.bankMem a) ∧
     (bankWrite key n v s).hbm = s.hbm ∧ (bankWrite key n v s).seals = s.seals ∧ (bankWrite key n v s).hostMem = s.hostMem) ∧
   (∀ (s : State) (cipher other : Option (BitVec 512)) (a n v : Nat),
     let t := frameWrite cipher a n v s
     frameRead t cipher a n = v % 256 ^ n ∧
     (∀ x, ¬(a ≤ x ∧ x < a + n) → frameRead t cipher x 1 = frameRead s cipher x 1) ∧
     (∀ x, n = 0 ∨ x / 16 < a / 16 ∨ (a + n - 1) / 16 < x / 16 → frameRead t other x 1 = frameRead s other x 1) ∧
     t.bankMem = s.bankMem ∧ t.hostMem = s.hostMem) ∧
   (∀ (s : State) (die pa n v : Nat), hbmRead (hbmWrite die pa n v s) die pa n = v % 256 ^ n))

/-- Fixed-latency results (R62, R64, R65): a result of latency n of register d waits n cycles and then lands, the one due
first before the others, or its poison (R30); until then the register reads as before. A slot B instruction whose guard is false has no effect,
whatever its operands are (R70). A scalar slot B instruction of a context with nothing in flight waits for nothing and traps
on nothing (R28, R76): a bundle of it beside NOP issues, and so the instruction has its effect. -/
def Obligations.ScalarIssueAndLanding : Prop :=
  ((∀ (s : State) (n : Nat) (d r : SReg) (v : Word), d ≠ 0 →
     ((wrFixed n d v s).ctx s.cur).rd r = (s.ctx s.cur).rd r ∧
     ∃ f, f ∈ ((wrFixed n d v s).ctx s.cur).fixed ∧ f.reg = d ∧ f.value = v ∧ f.due = s.cycle + n) ∧
   (∀ (s : State) (k : Nat) (f : Fixed), (s.ctx k).fixed = [f] → f.due ≤ s.cycle → f.pends = false → f.of = none →
     ∃ t, exec (.fixedResultLand k) s = .next t ∧ OnlyCtx k s t ∧ (t.ctx k).fixed = [] ∧
       (f.bad = none → ∀ r, (t.ctx k).rd r = if r = f.reg ∧ r ≠ 0 then f.value else (s.ctx k).rd r) ∧
       (∀ p, f.bad = some p → f.reg ≠ 0 → find? (t.ctx k).poison f.reg.toNat = some p ∧ (t.ctx k).s = (s.ctx k).s)) ∧
   (∀ (s : State) (k : Nat) (f g : Fixed), (s.ctx k).fixed = [f, g] → f.due ≤ s.cycle → g.due ≤ s.cycle →
     f.pends = false → g.pends = false → f.of = none → g.of = none →
     ∃ t, exec (.fixedResultLand k) s = .next t ∧ (t.ctx k).fixed = if g.due < f.due then [f] else [g]) ∧
   (∀ (s : State) (k : Nat), (∀ f ∈ (s.ctx k).fixed, s.cycle < f.due) → exec (.fixedResultLand k) s = .next s)) ∧
  (∀ (i : Instr) (s : State) (g : Guard), Machine.guardOf i = some g → ((me s).rdC g.c ^^ g.neg) = false → exec i s = .next s) ∧
  (∀ (i : Instr) (s : State) (k : Nat), (fixedScalar i = true ∨ lateScalar i = true) → Quiet (s.ctx k) →
     guardOpen i (s.ctx k) = true → judge .nop i s k = .issue false false)

/-- What a fixed-latency scalar instruction of slot B leaves alone: everything but its own context; there, memory apart,
every register but its destinations, every special register, and, for an integer one, every flag (R32, R82). What MUL, MULH,
DIV and REM do besides their result: no register of the context changes at issue, the destination becomes pending (R27), the
off-core reference is counted in evc9 (R22), and no memory byte changes. -/
def Obligations.ScalarFrame : Prop :=
  (∀ (i : Instr) (s : State), fixedScalar i = true → Runs i s →
     ∃ t, exec i s = .next t ∧ OnlyCtx s.cur s t ∧ OnlyRegs (s.ctx s.cur) (t.ctx s.cur) ∧
       (∀ r : SReg, r ∉ (infoIn (s.ctx s.cur) i).dst → (t.ctx s.cur).rd r = (s.ctx s.cur).rd r) ∧
       (∀ c : CReg, condDest i ≠ some c → (t.ctx s.cur).rdC c = (s.ctx s.cur).rdC c) ∧
       (integerScalar i = true → (t.ctx s.cur).fflags = (s.ctx s.cur).fflags ∧ (t.ctx s.cur).evc = (s.ctx s.cur).evc)) ∧
  (∀ (i : Instr) (s : State), lateScalar i = true → Runs i s →
     ∃ t, exec i s = .next t ∧ SameBytes s t ∧ (∀ j, j ≠ s.cur → t.ctx j = s.ctx j) ∧
       (∀ r : SReg, (t.ctx s.cur).rd r = (s.ctx s.cur).rd r) ∧ (∀ c : CReg, (t.ctx s.cur).rdC c = (s.ctx s.cur).rdC c) ∧
       (t.ctx s.cur).fflags = (s.ctx s.cur).fflags ∧ (t.ctx s.cur).pc = (s.ctx s.cur).pc ∧
       (∀ r : SReg, (t.ctx s.cur).pending r = ((s.ctx s.cur).pending r || (r != 0 && (infoIn (s.ctx s.cur) i).dst.contains r))) ∧
       vget (t.ctx s.cur).evc 9 = satInc (vget (s.ctx s.cur).evc 9) 1)

/-! ## Control, traps and system registers -/

/-- BR, BC, BPEND, BNPEND, CALL, JR, RET (R101 to R103) and the two no-operations (R73, R74): the target is PC + 8 x offset,
or a register with bits [2:0] cleared (the operation `transfer`); an untaken branch and a NOP do nothing. -/
def Obligations.BranchResults : Prop :=
  ∀ (s : State) (c : CReg) (sense : Bool) (d a : SReg),
    let pc := (me s).pc
    (∀ off, Runs (.br off) s → exec (.br off) s = .next (transfer (pc + BitVec.ofInt 64 (8 * off.signed)) s)) ∧
    (∀ off, Runs (.bc c sense off) s → exec (.bc c sense off) s =
      .next (if rdC s c = sense then transfer (pc + BitVec.ofInt 64 (8 * off.signed)) s else s)) ∧
    (∀ off, Runs (.bpend a off) s → exec (.bpend a off) s =
      .next (if (me s).pendingAll a = true then transfer (pc + BitVec.ofInt 64 (8 * off.signed)) s else s)) ∧
    (∀ off, Runs (.bnpend a off) s → exec (.bnpend a off) s =
      .next (if (me s).pendingAll a = true then s else transfer (pc + BitVec.ofInt 64 (8 * off.signed)) s)) ∧
    (∀ off, Runs (.call off) s → exec (.call off) s =
      .next (wrS 30 (pc + 8) (transfer (pc + BitVec.ofInt 64 (8 * off.signed)) s))) ∧
    (Runs (.jr d a) s → exec (.jr d a) s = .next (wrS d (pc + 8) (transfer (rdS s a) s))) ∧
    (Runs .ret s → exec .ret s = .next (transfer (rdS s 30) s)) ∧
    (Runs .nop s → exec .nop s = .next s) ∧ (Runs .nopB s → exec .nopB s = .next s) ∧
    (∀ target, OnlyCtx s.cur s (transfer target s) ∧ (transfer target s).ctx s.cur =
      { s.ctx s.cur with npc := target &&& ~~~ 7, taken := true })

/-- LOOP, LOOPI and LBRK (R106, R108): a count that is not 0 opens the level with its start, its end and its count; a count
of 0 passes over the body; LBRK clears the active count and goes past the end. The depth of the loops (R105) and the end of
a pass (R107): only the active level's end bundle counts, once, and a taken transfer is not counted; the next PC is the
start of the loop, or the next bundle when the count reaches 0. The loop registers count as they stood before the bundle
(R60); that a count which the end bundle itself writes stands as written is the model's choice, log entry 76. The LOOP traps (R106, R108, R109): four levels open, a level
field that is not the depth, LBRK with no level, LOOP in an end bundle; xsub says which and xaddr is 0. -/
def Obligations.LoopRules : Prop :=
  (∀ (s : State) (level : BitVec 2) (stop : BitVec 12),
     let pc := (me s).pc
     let last := pc + BitVec.ofNat 64 (8 * stop.toNat)
     let opened (n : Word) : State := s.modCtx s.cur fun c => { c with
       lsa := vset c.lsa level.toNat (pc + 8), lea := vset c.lea level.toNat last, lct := vset c.lct level.toNat n }
     (∀ a, Runs (.loop level stop a) s → exec (.loop level stop a) s =
       .next (if rdS s a = 0 then transfer (last + 8) s else opened (rdS s a))) ∧
     (∀ cnt, Runs (.loopi level stop cnt) s → exec (.loopi level stop cnt) s =
       .next (if cnt.unsigned = 0 then transfer (last + 8) s else opened (BitVec.ofNat 64 cnt.unsigned))) ∧
     (Runs .lbrk s → exec .lbrk s =
       .next (let n := loopDepth (me s) - 1
         transfer (((vget (me s).lea n) &&& ~~~ 7) + 8) (s.modCtx s.cur fun c => { c with lct := vset c.lct n 0 })))) ∧
  ((∀ c : Ctx, loopDepth c ≤ 4 ∧ (∀ n, n < loopDepth c → vget c.lct n ≠ 0) ∧ (loopDepth c < 4 → vget c.lct (loopDepth c) = 0)) ∧
   (∀ (s : State) (k : Nat) (pre : Ctx) (a : Instr), loopDepth pre = 0 ∨ (s.ctx k).taken = true → loopPass k pre a s = s) ∧
   (∀ (s : State) (k n : Nat) (pre : Ctx) (a : Instr), loopDepth pre = n + 1 → (s.ctx k).taken = false →
     let t := loopPass k pre a s
     (aligned pre.pc ≠ aligned (vget pre.lea n) → t = s) ∧
     (aligned pre.pc = aligned (vget pre.lea n) →
       OnlyCtx k s t ∧
       vget (t.ctx k).lct n = (if writesCount a n = true then vget (s.ctx k).lct n else vget pre.lct n - 1) ∧
       (∀ m, m ≠ n → vget (t.ctx k).lct m = vget (s.ctx k).lct m) ∧
       (t.ctx k).npc = if vget pre.lct n = 1 then (s.ctx k).npc else aligned (vget pre.lsa n))) ∧
   (∀ (a : Instr) (n : Nat), writesCount a n = true ↔
     (∃ d x m, (a = .csrw d x m ∨ (x ≠ 0 ∧ (a = .csrs d x m ∨ a = .csrc d x m))) ∧ m.toNat = 0x28 + n))) ∧
  (∀ (c : Ctx) (level : BitVec 2) (stop : BitVec 12) (a : SReg) (cnt : Imm 7),
     let t (n : Nat) : Option TrapInfo := some { cause := 0x11, sub := BitVec.ofNat 8 n, addr := 0 }
     let expected : Option TrapInfo :=
       if loopDepth c = 4 then t 1 else if level.toNat ≠ loopDepth c then t 2
       else if loopDepth c ≠ 0 ∧ aligned c.pc = aligned (vget c.lea (loopDepth c - 1)) then t 4 else none
     loopTrap c (.loop level stop a) = expected ∧ loopTrap c (.loopi level stop cnt) = expected ∧
     loopTrap c .lbrk = if loopDepth c = 0 then t 3 else none)

/-- Trap entry (R277): cause, subcause, address and PC are recorded, H and PRIV are set, the PC is stvec, and the context is
STOPPED (R9); xstat changes only where the cause states it, every other register of the context stands, and no memory byte
changes. The context gives up its core (R10); that it then competes for it as R293 has it is log entry 84. A trap that reports a
failed access consumes the failure (R280). A closure that traps
takes DEFERRED (R245): xcause is DEFERRED, xsub the original cause, xpc the closure's PC, the stop PC the context's, and the
closure stays in the tray, marked; a context that has gone to EXIT has EXIT as its stop PC (R245, R327). A context that waits
at the gang barrier waits there no more (R206). A trap while a trap is handled kills the context (R277, R281): it stops with nothing in
its tray, its weight goes to the launch's root, it has departed every barrier, no registry holds it (R126), and the launch counts the
kill with the first cause. -/
def Obligations.TrapEntry : Prop :=
  (∀ (s : State) (k : Nat) (t : TrapInfo), (s.ctx k).h = false → (s.ctx k).running = none →
     let u := takeTrap t k s
     let c := s.ctx k
     let d := u.ctx k
     d.xcause = t.cause ∧ d.xsub = t.sub ∧ d.xaddr = t.addr ∧ d.xpc = (if c.status = .parked then c.parkPc else c.pc) ∧
     d.xstat = t.stat.getD c.xstat ∧ d.h = true ∧ d.mode = c.mode ||| 0x40 ∧ d.pc = (s.core (k / 8)).stvec ∧
     d.s = c.s ∧ d.c = c.c ∧ d.pend = c.pend ∧ d.fflags = c.fflags ∧ d.lsa = c.lsa ∧ d.lea = c.lea ∧ d.lct = c.lct ∧
     d.tray = c.tray ∧ d.fixed = c.fixed ∧ d.utvec = c.utvec ∧ d.fmt = c.fmt ∧ d.scl = c.scl ∧ d.reqs = c.reqs ∧
     d.status = .stopped ∧ d.failure = (if c.failure = some t then none else c.failure) ∧
     (∀ j, j ≠ k → u.ctx j = s.ctx j) ∧
     (c.park ≠ .gang → (∀ j, j ≠ k / 8 → u.core j = s.core j) ∧
       u.core (k / 8) = { s.core (k / 8) with running := (u.core (k / 8)).running, ring := (u.core (k / 8)).ring }) ∧
     ((s.ctxs.any fun p => p.2.leader == some k) = false → (u.core (k / 8)).running ≠ some (k % 8)) ∧
     (c.park = .gang → ∀ a ∈ (u.cell (k / 8 / 4)).arrivals, ∀ d, a.by_ ≠ .ctx k d) ∧ SameBytes s u) ∧
  (∀ (s : State) (k : Nat) (t : TrapInfo) (cl : Closure), (s.ctx k).h = false → (s.ctx k).running = some cl →
     let u := takeTrap t k s
     let c := s.ctx k
     let d := u.ctx k
     d.xcause = 0x0F ∧ d.xsub = t.cause ∧ d.xaddr = t.addr ∧ d.xpc = cl.pc ∧ d.h = true ∧ d.mode = c.mode ||| 0x40 ∧
     d.pc = (s.core (k / 8)).stvec ∧ d.running = none ∧ d.exiting = false ∧ d.status = .stopped ∧
     d.stop = some (if c.exiting = true then 0xFE00000000000000 else if c.status = .parked then c.parkPc else c.pc) ∧
     d.tray = { cl with faulted := true } :: c.tray ∧ d.s = c.s) ∧
  (∀ (s : State) (k : Nat) (t : TrapInfo) (l : Nat) (x : Launch), (s.ctx k).h = true → (s.ctx k).launch = some l →
     find? s.launches l = some x → departs k s = false →
     let u := takeTrap t k s
     let d := u.ctx k
     d.status = .idle ∧ d.left = .killed ∧ d.tray = [] ∧ d.wgt = 0 ∧ d.h = false ∧ (∀ dom, (d.bar dom).departed = true) ∧
     (∃ y, find? u.launches l = some y ∧ y.killed = x.killed + 1 ∧ y.returns = x.returns ++ [((s.ctx k).wgt.toNat : Int)] ∧
       y.killCause = (x.killCause <|> some (t.cause, t.sub))) ∧
     (∀ q ch, ch ∈ (u.queue q).chains → ch.owner = k → ch.cancel = true ∧ ch.tok = 0 ∧ ch.tok2 = 0) ∧
     (∀ b r, r ∈ (u.bank b).waiters ∨ r ∈ (u.die b).waiters → ∀ q, r.who = .ctx k q → ∀ x ∈ (s.ctx k).reqs, x.seq ≠ q) ∧
     u.hbm = s.hbm ∧ u.seals = s.seals ∧ u.hostMem = s.hostMem ∧
     ((∀ b r, r ∈ (s.bank b).waiters → ∀ q, r.who ≠ .ctx k q) → SameBytes s u))

/-- TRAP and BREAK (R286) let their bundle finish; then cause 0x20 or 0x21 is taken with xsub the code, xaddr sa and xpc the
bundle's PC. -/
def Obligations.TrapAndBreak : Prop :=
  (∀ (s : State) (a : SReg) (code : BitVec 5),
    (Runs (.trap a code) s → exec (.trap a code) s = .next (s.modCtx s.cur fun c => { c with
      after := some { cause := 0x20, sub := code.zeroExtend 8, addr := rdS s a } })) ∧
    (Runs (.break_ a code) s → exec (.break_ a code) s = .next (s.modCtx s.cur fun c => { c with
      after := some { cause := 0x21, sub := code.zeroExtend 8, addr := rdS s a } }))) ∧
  ∀ (s : State) (k : Nat) (x : Bundle) (t : TrapInfo), (s.ctx k).after = some t → (s.ctx k).status = .running →
    (s.ctx k).h = false → (s.ctx k).running = none →
    let d := (commit k x s).ctx k
    d.xcause = t.cause ∧ d.xsub = t.sub ∧ d.xaddr = t.addr ∧ d.xpc = (s.ctx k).pc ∧ d.h = true ∧
    d.pc = (s.core (k / 8)).stvec ∧ d.status = .stopped ∧ d.s = (s.ctx k).s

/-- ERET, ERET.U and ERET.TO (R287): H clears, PRIV returns to the base privilege, the context is STOPPED no more (R9), and it
goes on at xpc, at xpc + 8 after TRAP and BREAK, at the stop PC after DEFERRED (with the faulted closure first), or at a register; ERET.U goes to
utvec at user level with H set, and kills where utvec is 0. -/
def Obligations.TrapReturns : Prop :=
  ∀ s : State,
    let c := s.ctx s.cur
    let base : BitVec 7 := if c.basePriv then c.mode ||| 0x40 else c.mode &&& 0x3F
    let back : Status := if c.status = .stopped then .running else c.status
    (Runs .eret s → c.xcause ≠ 0x0F → exec .eret s = .next (s.modCtx s.cur fun c => { c with
      h := false, mode := base, npc := if c.xcause = 0x20 ∨ c.xcause = 0x21 then c.xpc + 8 else c.xpc, taken := true, stop := none
      status := back })) ∧
    (Runs .eret s → c.xcause = 0x0F → ∃ t, exec .eret s = .next t ∧ OnlyCtx s.cur s t ∧
      (t.ctx s.cur).h = false ∧ (t.ctx s.cur).mode = base ∧ (t.ctx s.cur).npc = c.stop.getD c.xpc ∧ (t.ctx s.cur).s = c.s ∧
      (t.ctx s.cur).status = back ∧
      (t.ctx s.cur).tray = c.tray.filter (fun cl => !cl.faulted) ∧
      (t.ctx s.cur).running = (c.tray.find? (·.faulted)).map fun cl => { cl with faulted := false }) ∧
    (Runs .eretU s → c.utvec ≠ 0 → exec .eretU s = .next (s.modCtx s.cur fun c => { c with
      mode := c.mode &&& 0x3F, npc := c.utvec &&& ~~~ 7, taken := true })) ∧
    (Runs .eretU s → c.utvec = 0 → exec .eretU s = .next (s.modCtx s.cur fun c => { c with
      after := some { cause := c.xcause, sub := c.xsub, addr := 0 } })) ∧
    (∀ a, Runs (.eretTo a) s → exec (.eretTo a) s = .next (s.modCtx s.cur fun c => { c with
      h := false, mode := base, stop := none, npc := rdS s a &&& ~~~ 7, taken := true, status := back })) ∧
    (c.h = false → ∀ a, sysTrap s c .eret = some { cause := 0x02, sub := 24, addr := 0 } ∧
      sysTrap s c .eretU = some { cause := 0x02, sub := 24, addr := 0 } ∧
      sysTrap s c (.eretTo a) = some { cause := 0x02, sub := 24, addr := 0 })

/-- What traps PRIV at user level (R276, R19): ERET.U, REPLAY, REPLAY.FAIL and the control-register accesses of R19, before
anything else of the instruction; a CALW write does where no earlier row of R221's table holds. At supervisor level none of them
does. In the handler context a move is ILLEGAL where no earlier row of that table holds (R221). A fetched pattern that is no
bundle traps ILLEGAL at its PC, with no effect of either slot (R75, R76). -/
def Obligations.PrivilegeAndIllegalTraps : Prop :=
  (∀ (s : State) (k : Nat) (c : Ctx) (d a b : SReg) (n : BitVec 10),
     let t : TrapInfo := { cause := 0x04, sub := 0, addr := 0 }
     let tn : TrapInfo := { cause := 0x04, sub := 0, addr := BitVec.ofNat 64 n.toNat }
     let user : Prop := c.mode.getLsbD 6 = false
     let trap (i : Instr) : Option TrapInfo := privTrap s k c i
     (user → trap .eretU = some t ∧ trap (.replay a b) = some t ∧ trap (.replayFail a b) = some t ∧
       trap (.pmovCalwWrite d a) = if portFails s k c (.pmovCalwWrite d a) then none else some t) ∧
     (user → csrAcc n.toNat = some .s →
       trap (.csrr d n) = some tn ∧ trap (.csrw d a n) = some tn ∧
       (a ≠ 0 ∨ d ≠ 0 → trap (.csrs d a n) = some tn ∧ trap (.csrc d a n) = some tn)) ∧
     (user → csrAcc n.toNat = some .ur → trap (.csrr d n) = none ∧ trap (.csrw d a n) = some tn ∧
       (a ≠ 0 → trap (.csrs d a n) = some tn ∧ trap (.csrc d a n) = some tn)) ∧
     (¬user → ∀ i, trap i = none)) ∧
  (∀ (s : State) (k : Nat) (c : Ctx) (i : Instr), k % 8 = 4 → isPmov i = true → portFails s k c i = false →
     illegalTrap s k c i = some { cause := 0x01, sub := 0, addr := 0 }) ∧
  (∀ (s : State) (k : Nat) (w0 w1 : Half) (e : Illegal), decode w0 w1 = .error e → (s.ctx k).h = false → (s.ctx k).running = none →
     (s.ctx k).status = .running → (quarterOf s (coreOf k)).fail = none →
     ∃ t, issueWords exec w0 w1 k s = .next t ∧ (t.ctx k).xcause = 0x01 ∧ (t.ctx k).xsub = 0 ∧ (t.ctx k).xpc = (s.ctx k).pc ∧
       (t.ctx k).h = true ∧ (t.ctx k).pc = (s.core (coreOf k)).stvec ∧ (t.ctx k).s = (s.ctx k).s ∧ (t.ctx k).c = (s.ctx k).c ∧ SameBytes s t)

/-- CSRR, CSRW, CSRS and CSRC (R284): the old value goes to sd with latency 1; CSRW writes sa, CSRS sets and CSRC clears the
bits of sa, and with a = s0 they write nothing. Every writable register of R19 reads as it was written by each of them, its
reserved bits 0 (R19 to R22, R199); mode.PRIV never changes by a write (R20); a write of one register leaves every other of the context and the general
registers. -/
def Obligations.ControlRegisters : Prop :=
  (∀ (s : State) (d a : SReg) (n : BitVec 10),
     let old := csrRead s s.cur (me s) n.toNat
     (Runs (.csrr d n) s → exec (.csrr d n) s = .next (wrS d old s)) ∧
     (Runs (.csrw d a n) s → exec (.csrw d a n) s = .next (wrS d old (csrWrite s.cur n.toNat (rdS s a) s))) ∧
     (Runs (.csrs d a n) s → exec (.csrs d a n) s =
       .next (if a = 0 then wrS d old s else wrS d old (csrWrite s.cur n.toNat (old ||| rdS s a) s))) ∧
     (Runs (.csrc d a n) s → exec (.csrc d a n) s =
       .next (if a = 0 then wrS d old s else wrS d old (csrWrite s.cur n.toNat (old &&& ~~~ rdS s a) s)))) ∧
  (∀ (s : State) (k n m : Nat) (v : Word), csrWritable n →
     let t := csrWrite k n v s
     csrRead t k (t.ctx k) n = csrKeeps (k % 8 == 4) ((s.ctx k).mode.getLsbD 6) n v ∧
     ((t.ctx k).mode.getLsbD 6 = (s.ctx k).mode.getLsbD 6) ∧
     (∀ r, (t.ctx k).rd r = (s.ctx k).rd r) ∧ SameBytes s t ∧
     (m ≠ n → csrAcc m ≠ none → csrRead t k (t.ctx k) m = csrRead s k (s.ctx k) m)) ∧
  (∀ (s : State) (d a : SReg) (n : BitVec 10), csrWritable n.toNat → a ≠ 0 → s.view = none →
     let old := csrRead s s.cur (s.ctx s.cur) n.toNat
     let v := (s.ctx s.cur).rd a
     let kept (i : Instr) (new : Word) : Prop := Runs i s → ∃ t, exec i s = .next t ∧
       csrRead t s.cur (t.ctx s.cur) n.toNat = csrKeeps (s.cur % 8 == 4) ((s.ctx s.cur).mode.getLsbD 6) n.toNat new
     kept (.csrw d a n) v ∧ kept (.csrs d a n) (old ||| v) ∧ kept (.csrc d a n) (old &&& ~~~ v))

/-! ## Memory instructions -/

/-- The loads (R110, R115, R117, R118, R127): each issues one access to sa + off, of its size, with its extension, its order
and its destination. The stores (R110, R116, R117, R118, R127): each issues one access that writes the low bytes of sd, or
the pair, at sa + off. -/
def Obligations.LoadsAndStoresIssue : Prop :=
  (∀ (s : State) (d a : SReg),
     let ea (off : Int) : Word := (me s).rd a + BitVec.ofInt 64 off
     (∀ m off, Runs (.ld d a m off) s →
       let n : Nat := match m with | .b => 1 | .bu => 1 | .h => 2 | .hu => 2 | .w => 4 | .wu => 4 | .d => 8
       let sign : Bool := match m with | .bu => false | .hu => false | .wu => false | _ => true
       exec (.ld d a m off) s = .next (issueOps [{
           ea := ea off.signed, n := n, acc := .read n, dest := .reg d n sign,
           port := .load n, bin := n == 4, align := n }] s)) ∧
     (∀ z u sc off, Runs (.ldAcq d a z u sc off) s →
       exec (.ldAcq d a z u sc off) s = .next (issueOps [{
           ea := ea off.signed, n := sizeBytes z, acc := .read (sizeBytes z),
           dest := .reg d (sizeBytes z) (!u), ord := { acq := true, scope := sc }, port := .load (sizeBytes z),
           align := sizeBytes z }] s)) ∧
     (∀ off, Runs (.ldp d a off) s → exec (.ldp d a off) s = .next (issueOps [{
         ea := ea off.signed, n := 16, acc := .read 16,
         dest := .pair d, port := .ldp, align := if wf (ea off.signed) 63 57 = 0 then 16 else 8 }] s)) ∧
     (∀ sc off, Runs (.ldpAcq d a sc off) s → exec (.ldpAcq d a sc off) s = .next (issueOps [{
         ea := ea off.signed, n := 16,
         acc := .read 16, dest := .pair d, ord := { acq := true, scope := sc }, port := .ldp,
         align := if wf (ea off.signed) 63 57 = 0 then 16 else 8 }] s)) ∧
     (∀ z k off, Runs (.lds d a z k off) s →
       let o : Int := match off with | .short v => 8 * (v.toNat : Int) | .lone v => v.toInt
       exec (.lds d a z k off) s = .next (issueOps [{
           ea := ea o, n := sizeBytes z, acc := .read (sizeBytes z),
           dest := .status k (some (d, sizeBytes z)), port := .load (sizeBytes z), plain := false, align := sizeBytes z }] s)) ∧
     (∀ w off, Runs (.scld d a w off) s →
       let n : Nat := if w then 4 else 8
       exec (.scld d a w off) s = .next (issueOps [{
           ea := ea off.signed, n := n, acc := .read n, dest := .reg d n true,
           ord := { acq := true, rel := true, scope := .pkg, sc := true }, align := n }] s))) ∧
  (∀ (s : State) (d a : SReg),
     let ea (off : Int) : Word := (me s).rd a + BitVec.ofInt 64 off
     let data (n : Nat) : SlotData := BitVec.ofNat 2048 (((me s).rd d).toNat % 2 ^ (8 * n))
     let both : SlotData := ((me s).rd d).zeroExtend 2048 ||| (((me s).rd (d + 1)).zeroExtend 2048 <<< 64)
     (∀ z off, Runs (.st d a z off) s → exec (.st d a z off) s = .next (issueOps [{
         ea := ea off.signed, n := sizeBytes z,
         acc := .write (sizeBytes z) (data (sizeBytes z)), port := .store (sizeBytes z), align := sizeBytes z }] s)) ∧
     (∀ z sc off, Runs (.stRel d a z sc off) s → exec (.stRel d a z sc off) s = .next (issueOps [{
         ea := ea off.signed,
         n := sizeBytes z, acc := .write (sizeBytes z) (data (sizeBytes z)), ord := { rel := true, scope := sc }, port := .store (sizeBytes z),
         align := sizeBytes z }] s)) ∧
     (∀ off, Runs (.stp d a off) s → exec (.stp d a off) s = .next (issueOps [{
         ea := ea off.signed, n := 16,
         acc := .write 16 both, port := .stp, align := if wf (ea off.signed) 63 57 = 0 then 16 else 8 }] s)) ∧
     (∀ sc off, Runs (.stpRel d a sc off) s → exec (.stpRel d a sc off) s = .next (issueOps [{
         ea := ea off.signed, n := 16,
         acc := .write 16 both, ord := { rel := true, scope := sc }, port := .stp,
         align := if wf (ea off.signed) 63 57 = 0 then 16 else 8 }] s)) ∧
     (∀ z k off, Runs (.sts d a z k off) s →
       let o : Int := match off with | .short v => 8 * (v.toNat : Int) | .lone v => v.toInt
       exec (.sts d a z k off) s = .next (issueOps [{
           ea := ea o, n := sizeBytes z, acc := .write (sizeBytes z) (data (sizeBytes z)),
           dest := .status k none, port := .store (sizeBytes z), plain := false, align := sizeBytes z }] s)) ∧
     (∀ w off, Runs (.scst d a w off) s →
       let n : Nat := if w then 4 else 8
       exec (.scst d a w off) s = .next (issueOps [{
           ea := ea off.signed, n := n, acc := .write n (data n),
           ord := { acq := true, rel := true, scope := .pkg, sc := true }, align := n }] s)))

/-- The atomic forms (R119, R121, R124, R127): each issues one read-modify-write of sd's operation at sa + off; AMO, XCH,
CAS, FADDT and SCX land the old word in sd, sign-extended, and RED lands nothing. What an atomic operation leaves in its
word and what it returns (R119, R121, R124): the new word of each operation on n bytes of value x with operand v; CAS writes
only on equality; FADDT adds. AFMAX and AFMIN (R41, R121) leave the larger and the smaller number, -0 below +0, the number where the
other is a NaN, and the word as it stands where both are. -/
def Obligations.AtomicOperations : Prop :=
  (∀ (s : State) (d a : SReg) (w : Bool) (sc : Scope) (k : Kind) (z : Imm 0) (off : Imm 9),
     let n : Nat := if w then 4 else 8
     let ea (off : Int) : Word := (me s).rd a + BitVec.ofInt 64 off
     let v := (me s).rd d
     let order : Order := { acq := k == .acq || k == .acqrel, rel := k == .rel || k == .acqrel, scope := sc }
     let amo (op : RedOp) (n : Nat) : State := issueOps [{
         ea := ea z.signed, n := n, acc := .rmw n (.red op v),
         dest := .reg d n true, ord := order, align := n }] s
     (Runs (.xch d a w off) s → exec (.xch d a w off) s = .next (issueOps [{
         ea := ea off.signed, n := n, acc := .rmw n (.xch v),
         dest := .reg d n true, port := .xch n, align := n }] s)) ∧
     (∀ kk, ∀ o : Imm 4, Runs (.xchS d a w kk o) s →
       let b : Int := match o with | .short v => 8 * (v.toNat : Int) | .lone v => v.toInt
       exec (.xchS d a w kk o) s = .next (issueOps [{
           ea := ea b, n := n, acc := .rmw n (.xch v),
           dest := .status kk (some (d, 16 + n)), port := .xch n, plain := false, align := n }] s)) ∧
     (Runs (.cas d a w off) s → exec (.cas d a w off) s = .next (issueOps [{
         ea := ea off.signed, n := n,
         acc := .rmw n (.cas v ((me s).rd (d + 1))), dest := .reg d n true, align := n }] s)) ∧
     (Runs (.aadd d a w sc k z) s → exec (.aadd d a w sc k z) s = .next (amo .add n)) ∧
     (Runs (.aand d a w sc k z) s → exec (.aand d a w sc k z) s = .next (amo .and n)) ∧
     (Runs (.aor d a w sc k z) s → exec (.aor d a w sc k z) s = .next (amo .or n)) ∧
     (Runs (.axor d a w sc k z) s → exec (.axor d a w sc k z) s = .next (amo .xor n)) ∧
     (Runs (.amaxs d a w sc k z) s → exec (.amaxs d a w sc k z) s = .next (amo .maxs n)) ∧
     (Runs (.amins d a w sc k z) s → exec (.amins d a w sc k z) s = .next (amo .mins n)) ∧
     (Runs (.amaxu d a w sc k z) s → exec (.amaxu d a w sc k z) s = .next (amo .maxu n)) ∧
     (Runs (.aminu d a w sc k z) s → exec (.aminu d a w sc k z) s = .next (amo .minu n)) ∧
     (Runs (.afadd d a sc k z) s → exec (.afadd d a sc k z) s = .next (amo .fadd 4)) ∧
     (Runs (.afmax d a sc k z) s → exec (.afmax d a sc k z) s = .next (amo .fmax 4)) ∧
     (Runs (.afmin d a sc k z) s → exec (.afmin d a sc k z) s = .next (amo .fmin 4)) ∧
     (∀ op, Runs (.red d a op w sc k z) s → exec (.red d a op w sc k z) s = .next (issueOps [{
         ea := ea z.signed, n := n,
         acc := .rmw n (.red op v), ord := order, align := n }] s)) ∧
     (Runs (.faddt d a sc z) s → exec (.faddt d a sc z) s = .next (issueOps [{
         ea := ea z.signed, n := 8,
         acc := .faddt v ((me s).rd (d + 1)), dest := .reg d 8 true, ord := { rel := true, scope := sc }, align := 8 }] s)) ∧
     (Runs (.scx d a w off) s → exec (.scx d a w off) s = .next (issueOps [{
         ea := ea off.signed, n := n, acc := .rmw n (.xch v),
         dest := .reg d n true, ord := { acq := true, rel := true, scope := .pkg, sc := true }, align := n }] s))) ∧
  (∀ (n x : Nat) (v e : Word), n = 4 ∨ n = 8 → x < 2 ^ (8 * n) →
     let y := v.toNat % 2 ^ (8 * n)
     let f (op : RedOp) : Option Nat × Flags5 := rmwNew n (.red op v) x
     let X := BitVec.ofNat (8 * n) x
     let V := BitVec.ofNat (8 * n) v.toNat
     rmwNew n (.xch v) x = (some y, 0) ∧
     rmwNew n (.cas e v) x = (if x = e.toNat % 2 ^ (8 * n) then some y else none, 0) ∧
     f .add = (some ((X + V).toNat), 0) ∧ f .and = (some ((X &&& V).toNat), 0) ∧ f .or = (some ((X ||| V).toNat), 0) ∧
     f .xor = (some ((X ^^^ V).toNat), 0) ∧ f .maxs = (some (if X.slt V then V else X).toNat, 0) ∧
     f .mins = (some (if V.slt X then V else X).toNat, 0) ∧ f .maxu = (some (if X.ult V then V else X).toNat, 0) ∧
     f .minu = (some (if V.ult X then V else X).toNat, 0) ∧
     (n = 4 → f .fadd = (some (addV fp32 .rne false (unpack fp32 false x) (unpack fp32 false y)).bits,
         (addV fp32 .rne false (unpack fp32 false x) (unpack fp32 false y)).fl) ∧
       let a := unpack fp32 false x
       let b := unpack fp32 false y
       (a.isNan = true → b.isNan = true → (f .fmax).1 = none ∧ (f .fmin).1 = none) ∧
       (a.isNan = true → b.isNan = false → (f .fmax).1 = some y ∧ (f .fmin).1 = some y) ∧
       (a.isNan = false → b.isNan = true → (f .fmax).1 = some x ∧ (f .fmin).1 = some x) ∧
       (a.isNan = false → b.isNan = false → f .fmax = (some (if ltZ a b then y else x), 0) ∧ f .fmin = (some (if ltZ b a then y else x), 0))))

/-- The tile transfers (R130, R131, R132): one access of 128 bytes per named row of the context's tiles, TLD and TLDX into
the rows and TST from them; row i of a whole tile stands at ea + 128 x i, row i of TLDX at base + i x pitch for the rows of
its mask; a TLDX with mask 0 does nothing. WAITW (R125) issues its access and parks until it lands; FENCE has no further
effect once it issues (R129); SPILL and FILL inside one bank of the carve-out move n registers below s31 by one access
(R302) and move s31 (R133); a stack slot lies in the carve-out or the overflow area, or is SPILLOVF with its subcause. -/
def Obligations.TilesWaitsFencesAndStack : Prop :=
  (∀ (s : State) (t : TReg) (a b : SReg) (r : Rows) (off : Imm 6) (pt : Nat), tileOf s s.cur (me s) t.toNat = some pt →
     let base (i : Nat) : Word := (me s).rd a + BitVec.ofInt 64 ((match off with | .short v => 128 * v.toInt | .lone v => v.toInt) +
       (if r.w then 128 * (i : Int) else 0))
     let rows : List Nat := if r.w then List.range 16 else [r.row.toNat]
     let tile : Option Word := if r.w then
       some ((me s).rd a + BitVec.ofInt 64 (match off with | .short v => 128 * v.toInt | .lone v => v.toInt)) else none
     let load (ea : Word) (i : Nat) : MemOp := { ea := ea, n := 128, acc := .read 128, dest := .row (16 * pt + i), align := 4, row := true }
     let store (ea : Word) (i : Nat) : MemOp := {
         ea := ea, n := 128, align := 4, row := true, tile := tile
         acc := .write 128 (((s.core (s.cur / 8)).row (16 * pt + i)).data.zeroExtend 2048) }
     let pitch : Int := (((me s).rd b).truncate 32).toInt
     (Runs (.tld t a r off) s → exec (.tld t a r off) s = .next (issueOps (rows.map fun i => { load (base i) i with tile := tile }) s)) ∧
     (Runs (.tst t a r off) s → exec (.tst t a r off) s = .next (issueOps (rows.map fun i => store (base i) i) s)) ∧
     (Runs (.tstB t a r off) s → exec (.tstB t a r off) s = .next (issueOps (rows.map fun i => store (base i) i) s)) ∧
     (Runs (.tldx t a b) s → exec (.tldx t a b) s = .next (issueOps (((List.range 16).filter fun i => ((me s).rd b).getLsbD (32 + i)).map
       fun (i : Nat) => load ((me s).rd a + BitVec.ofInt 64 ((i : Int) * pitch)) i) s)) ∧ issueOps [] s = s) ∧
  (∀ (s : State) (d a : SReg),
     (∀ z, Runs (.waitw d a z) s →
       let t := issueOps [{
           ea := (me s).rd a + BitVec.ofInt 64 z.signed, n := 8, acc := .waitw ((me s).rd d) ((me s).rd (d + 1)),
           dest := .reg d 8 true, align := 8 }] s
       exec (.waitw d a z) s = .next (park s.cur (.waitw d) t)) ∧
     (∀ k sc, Runs (.fence k sc) s → exec (.fence k sc) s = .next s) ∧
     (∀ k c kd sc, (c.reqs ≠ [] ∨ c.acks ≠ []) → mustWait s k c (.fence kd sc) = true) ∧
     (∀ n : BitVec 3,
       let m := n.toNat + 1
       let c := me s
       let inside (lo : Word) : Prop := isLocal lo = true ∧ c.spbase.toNat ≤ lo.toNat ∧ lo.toNat + 8 * m ≤ c.spbase.toNat + c.spsize.toNat ∧
         lo.toNat / 8192 = (lo.toNat + 8 * m - 1) / 8192
       let low := c.rd 31 - BitVec.ofNat 64 (8 * m)
       (Runs (.spill d n) s → inside low → ∃ v : SlotData,
         exec (.spill d n) s = .next (wrS 31 low (issueOps [{ ea := low, n := 8 * m, acc := .write (8 * m) v, align := 8 }] s)) ∧
         ∀ i, i < m → v.extractLsb' (64 * i) 64 = c.rd (d + BitVec.ofNat 5 i)) ∧
       (Runs (.fill d n) s → inside (c.rd 31) →
         exec (.fill d n) s = .next (wrS 31 (c.rd 31 + BitVec.ofNat 64 (8 * m)) (issueOps [{
             ea := c.rd 31, n := 8 * m, acc := .read (8 * m), dest := .regs d m, align := 8 }] s)))) ∧
     (∀ c : Ctx, ∀ x : Word,
       let b := c.spbase.toNat
       let top := b + c.spsize.toNat
       slotOf c x =
         if b ≤ x.toNat ∧ x.toNat < top then .ok x
         else if c.spovf ≠ 0 ∧ x.toNat < b ∧ b ≤ x.toNat + 2 ^ 18 then .ok (c.spovf - (c.spbase - x))
         else if top ≤ x.toNat then .error 2 else .error 1))

/-- What a memory instruction does as it issues (R27, R62, R111, R113, R296). With nothing in flight and no trap of its own, its
bundle beside a NOP issues. Each access is queued with its address, order and level; no byte and no register changes. A
plain load of one of the core's own banks has a result of latency 4, due in cycle n + 4; any other destination is pending.
The checks of R111 stand in the order region, alignment, extent, over every access before the next step: a hole or an absent
die traps PROT with the address, a misaligned access ALIGN. -/
def Obligations.AccessAtIssue : Prop :=
  (∀ (i : Instr) (s : State) (k : Nat),
     let c := s.ctx k
     let n := infoIn c i
     memForm i = true → Quiet c → staticTrap s k c i = none → spillTrap c i = none → pitchTrap c i = none →
     accessTrap s (coreOf k) (memOps s k c i) = none → typeCheck s k c i = none → waitsOperand s k c i = false →
     (∀ key ∈ keysOf s k c n.rsrc ++ keysOf s k c n.rdst, ((s.core (coreOf k)).row key).pend = 0 ∧
       ((s.core (coreOf k)).row key).poison = none) →
     holds s k c i = false → judge i .nopB s k = .issue false false) ∧
  (∀ (s : State) (ops : List MemOp), s.view = none →
     let k := s.cur
     let t := issueOps ops s
     SameBytes s t ∧ (∀ r, (t.ctx k).rd r = (s.ctx k).rd r) ∧ (∀ j, j ≠ k → (t.ctx j).reqs = (s.ctx j).reqs) ∧
     (∃ l, (t.ctx k).reqs = (s.ctx k).reqs ++ l ∧
       l.map (fun q => (q.acc, q.addr, q.dest, q.ord, q.plain)) = ops.map (fun op => (op.acc, op.ea, op.dest, op.ord, op.plain)) ∧
       ∀ q ∈ l, q.user = !((s.ctx k).mode.getLsbD 6) ∧ q.issued = s.cycle ∧ q.due = s.cycle + 1 ∧ q.did = 0 ∧ q.metClosed = false) ∧
     (∀ op ∈ ops, op.row = true → ∀ key, op.dest = .row key → ((t.core (k / 8)).row key).pend ≠ 0)) ∧
  (∀ (s : State) (op : MemOp), s.view = none → (∀ key, op.dest ≠ .row key) →
     let k := s.cur
     let t := issueOps [op] s
     (fixedLoad s (k / 8) op = false → (t.ctx k).fixed = (s.ctx k).fixed ∧
       (∀ r, r ≠ 0 → r ∈ destNames op.dest → (t.ctx k).pending r = true) ∧
       (∀ r, r ∉ destNames op.dest → (t.ctx k).pending r = (s.ctx k).pending r)) ∧
     (fixedLoad s (k / 8) op = true → ∀ r, r ≠ 0 → r ∈ destNames op.dest →
       ∃ f, f ∈ (t.ctx k).fixed ∧ f.reg = r ∧ f.due = s.cycle + 4 ∧ f.of = some s.seq)) ∧
  (∀ (s : State) (ea : Word) (n core : Nat) (d : SReg) (sign : Bool), isLocal ea = true → windowCore core ea = core →
     (s.bank (bankAt core ea)).desc = 0 →
     fixedLoad s core { ea := ea, n := n, acc := .read n, dest := .reg d n sign, port := .load n, align := n } = true) ∧
  (∀ (s : State) (core : Nat) (op : MemOp), op.tile = none →
     (wf op.ea 63 57 ≠ 0 → wf op.ea 63 57 ≠ 0x7E → accessTrap s core [op] = some { cause := 0x0A, sub := 0, addr := op.ea }) ∧
     (wf op.ea 63 57 = 0 → 4 * s.domain ≤ wf op.ea 56 47 → accessTrap s core [op] = some { cause := 0x0A, sub := 0, addr := op.ea }) ∧
     (wf op.ea 63 57 = 0 → wf op.ea 56 47 < 4 * s.domain → op.ord.sc = false → op.ea.toNat % op.align ≠ 0 →
       accessTrap s core [op] = some { cause := 0x05, sub := 0, addr := op.ea }) ∧
     (wf op.ea 63 57 = 0 → wf op.ea 56 47 < 4 * s.domain → op.ord.sc = true → wf op.ea 56 47 / 4 ≠ core / 4096 →
       accessTrap s core [op] = some { cause := 0x0A, sub := 2, addr := op.ea }) ∧
     (wf op.ea 63 57 = 0 → wf op.ea 56 47 < 4 * s.domain → op.ord.sc = false → op.ea.toNat % op.align = 0 →
       2 ^ 47 < wf op.ea 46 0 + op.n → accessTrap s core [op] = some { cause := 0x06, sub := 0, addr := op.ea }) ∧
     (wf op.ea 63 57 = 0 → wf op.ea 56 47 < 4 * s.domain → op.ord.sc = false → op.ea.toNat % op.align = 0 →
       wf op.ea 46 0 + op.n ≤ 2 ^ 47 → accessTrap s core [op] = none))

/-! ## Encodings, reset and the step -/

/-- Decoding an encoded bundle gives it back (R58, R66, R69): every well-formed slot A and slot B instruction with every
operand at every value, every stall count, and the lone form with its literal. -/
def Obligations.DecodeOfEncode : Prop :=
  (∀ (a b : Instr) (stall : BitVec 3), slotA? a = some true → slotA? b = some false → wellFormed a = true → wellFormed b = true →
    literal a = none → (isMma b = true → a = .gang) →
    decode (BitVec.ofNat 32 (encodeWordA a + stall.toNat * 2 ^ 28)) (BitVec.ofNat 32 (encodeWordB b)) = .ok ⟨stall, none, a, b⟩) ∧
  (∀ (a : Instr) (l : Half) (stall : BitVec 3), slotA? a = some true → wellFormed a = true → literal a = some l →
    decode (BitVec.ofNat 32 (encodeWordA a + stall.toNat * 2 ^ 28 + 2 ^ 31)) l = .ok ⟨stall, some l, a, .nopB⟩)

/-- Every pattern that decodes is the encoding of what it decodes to, so that no reserved bit is accepted (R75), and what it
decodes to is well formed. -/
def Obligations.EncodeOfDecode : Prop :=
  ∀ (w0 w1 : Half) (x : Bundle), decode w0 w1 = .ok x →
    wellFormed x.a = true ∧ wellFormed x.b = true ∧
    match x.lone with
    | none => w0 = BitVec.ofNat 32 (encodeWordA x.a + x.stall.toNat * 2 ^ 28) ∧ w1 = BitVec.ofNat 32 (encodeWordB x.b)
    | some l => w0 = BitVec.ofNat 32 (encodeWordA x.a + x.stall.toNat * 2 ^ 28 + 2 ^ 31) ∧ w1 = l ∧ x.b = .nopB

/-- Words written out from the encoding tables decode to the instructions they stand for, and reserved patterns to none. -/
def Obligations.KnownWords : Prop :=
  decodeTableWord 32 0b0_000_000001_0000000000000000000101 = some (.br (.short 5)) ∧
  decodeTableWord 32 0b0_000_001000_00011_00101_100_000010000 = some (.ld 3 5 .w (.short 16)) ∧
  decodeTableWord 32 0b0_000_001001_00011_00101_11_0_111111000 = some (.st 3 5 .d (.short 0x1F8)) ∧
  decodeTableWord 32 0b0_000_100011_00100_00000_00_0000000001 = some (.csrr 4 1) ∧
  decodeB 0b0000001_000_0_00011_00001_00010_00000_0 = some (.sub ⟨0, false⟩ 3 1 2 false) ∧
  decodeTableWord 32 0b0010001_010_1_00_011_00001_00010_000_010 = some (.cmp ⟨2, true⟩ 3 1 2 .lt) ∧
  decodeTableWord 32 0b0100000_000_0_0011_0001_0010_0101_0_0011 = some (.vadd ⟨0, false⟩ 3 1 2 ⟨5, false⟩ .i32) ∧
  decodeTableWord 32 0b1010000_000_0_00001_00010_00100_000000 = some (.mma ⟨0, false⟩ 1 2 4) ∧
  decodeTableWord 32 0b1111111_0000000000000000000000000 = some .nopB ∧
  decode 0b0_010_000000_0000000000000000000000 0b0000010_000_0_00001_00001_00000000001 =
    .ok ⟨2, none, .nop, .addi ⟨0, false⟩ 1 1 1⟩ ∧
  decode 0b1_001_100101_00110_00000_000000000000 0x12345678 = .ok ⟨1, some 0x12345678, .movi 6 (.lone 0x12345678), .nopB⟩ ∧
  decode 0 0b1010000_000_0_00001_00010_00100_000000 = .error .mmaWithoutGang ∧
  decode 1 0xFE000000 = .error (.word0 1) ∧ decode 0 0xFE000001 = .error (.word1 0xFE000001)

/-- The machine after reset: every context IDLE with the PC, status and every register 0 (of these R9 states IDLE; the zeros
are the model's choice, log entry 3), the core's values of log entry 4, nothing listed in memory (that unlisted bytes of HBM and of
host memory read 0 is the model's choice, log entry 5), and cycle 0. -/
def Obligations.ResetValues : Prop :=
  (∀ k, State.reset.ctx k = {} ∧ (State.reset.ctx k).status = .idle ∧ (State.reset.ctx k).pc = 0 ∧ (State.reset.ctx k).mode = 0 ∧
    (∀ r, (State.reset.ctx k).rd r = 0) ∧ (∀ r : CReg, (State.reset.ctx k).rdC r = (r == 0)) ∧ (State.reset.ctx k).pend = 0) ∧
  (∀ c, (State.reset.core c).stvec = 0 ∧ (State.reset.core c).ntile = 16 ∧ (State.reset.core c).rfout = 0 ∧
    (State.reset.core c).rows = [] ∧ (State.reset.core c).running = none) ∧
  (∀ b, (State.reset.bank b).desc = 0 ∧ (State.reset.bank b).closing = none) ∧
  (∀ a, readByte State.reset.bankMem a = 0 ∧ readByte State.reset.hbm a = 0 ∧ readByte State.reset.hostMem a = 0) ∧
  State.reset.memOk ∧ State.reset.cycle = 0 ∧ ∀ k, Quiet (State.reset.ctx k)

/-- Every step from a state whose memories have the canonical form leaves them in it. The canonical form is the model's own.
-/
def Obligations.MemoryKeptByEveryStep : Prop :=
 ∀ s t : State, s.memOk → step s = .next t → t.memOk

/-- A step runs the decoded bundle: when the agenda names a context whose core serves it, whose next bundle is due and
decodes to x, and x issues, the step is both slots' meanings on that state, then the commit of the bundle and what follows
every move. The slots' meanings are `exec` of slot A and of slot B, each reading the registers as they stood before. A GANG
bundle latches its MMA and arrives; its slot B has its effect, and the PC goes on, once the gang has formed (R203). What names
the context is the agenda of log entry 1. -/
def Obligations.StepRunsDecodedBundle : Prop :=
  (∀ (s : State) (rest : List Move) (k : Nat) (w0 w1 : Half) (f : State) (x : Bundle),
    firstEvent (dueEvents s) s = none → dialMove s = none → s.sched = .turn k :: rest →
    let s0 : State := { s with sched := rest }
    let v := select k s0
    let u := useSlot (coreOf k) v
    slotFree s0 (coreOf k) = true → pick s0 (coreOf k) = some k → (v.ctx k).running = none → readyClosure v k = none →
    (v.ctx k).backlog = [] → bundleDue v k = true → inFirmware u k = false → (u.ctx k).redo = none →
    fetch k { u with cur := k } = (.words w0 w1, f) → decode w0 w1 = .ok x → (x.a = .gang → gangFormed (f.ctx k) = false) →
    judge x.a x.b { f with cur := k } k = .issue false false → teamOf { f with cur := k } k = [] →
    step s = andThen (issueBundle exec x false false k { f with cur := k }) fun t => .next (afterMove t)) ∧
  (∀ (s : State) (x : Bundle) (k : Nat), x.a ≠ .gang →
    let s : State := { s with cur := k }
    let c := s.ctx k
    let p : State := { s.modCtx k (fun x => { x with
      npc := aligned x.pc + 8, taken := false, trayFull := if x.h then x.trayFull else none, after := none
      redo := if x.h then x.redo else none
      gang := none }) with view := some c }
    let runB (t : State) : Out := if guardOpen x.b c then exec x.b t else .next t
    issueBundle exec x false false k s =
      andThen (if slotBFirst x.a x.b then andThen (runB p) (exec x.a) else andThen (exec x.a p) runB)
        fun t => .next (commit k x t)) ∧
  (∀ (s : State) (x : Bundle) (k : Nat), x.a = .gang →
    let s : State := { s with cur := k }
    let p := openBundle k s
    let latch : Out := if guardOpen x.b (s.ctx k) && isMma x.b then exec x.b p else .next p
    issueBundle exec x false false k s = andThen latch fun t => andThen (exec .gang t) fun u =>
      let u : State := { u with view := none }
      match (u.ctx k).after with
      | some t => .next (takeTrap t k u)
      | none =>
        if gangFormed (u.ctx k) then
          let q := openBundle k { u with cur := k }
          andThen (if guardOpen x.b (u.ctx k) && !isMma x.b then exec x.b q else .next q) fun v => .next (commit k x v)
        else .next u)

/-- What one step is (log entry 1): the first event that the spec fixes to this cycle and that changes the state; else an
exchange of the dials that the agenda has not made; else the agenda's move; else the first event of the part's own that changes the
state, or a host access made again; else an issue slot of a core that has one left; else the end of a wait at its limit (R426);
else the next cycle. The order is the model's choice, log entry 1. -/
def Obligations.StepOrder : Prop :=
  (∀ (s : State) (o : Out), firstEvent (dueEvents s) s = some o → step s = andThen o fun t => .next (afterMove t)) ∧
  (∀ (s t : State), firstEvent (dueEvents s) s = none → dialMove s = some t → step s = .next (afterMove t)) ∧
  (∀ (s : State), firstEvent (dueEvents s) s = none → dialMove s = none →
    (∀ (rest : List Move) (i : Instr), s.sched = .event i :: rest → slotA? i = none →
      step s = andThen (exec i { s with sched := rest }) fun t => .next (afterMove t)) ∧
    (∀ rest : List Move, s.sched = .pass :: rest → step s = .next (afterMove (tick { s with sched := rest }))) ∧
    (s.sched = [] →
      (∀ o, firstEvent (autoEvents s) s = some o → step s = andThen o fun t => .next (afterMove t)) ∧
      (firstEvent (autoEvents s) s = none →
        (∀ t, hostMove s = some t → step s = .next (afterMove t)) ∧
        (hostMove s = none →
          (∀ core, issuer s = some core → step s = andThen (issueCore exec core s) fun t => .next (afterMove t)) ∧
          (issuer s = none →
            (∀ o, firstEvent (lateEvents s) s = some o → step s = andThen o fun t => .next (afterMove t)) ∧
            (firstEvent (lateEvents s) s = none → step s = .next (afterMove (tick s)))))))) ∧
  (∀ (s : State) (core : Nat), pick s core = none → issueCore exec core s = .next (useSlot core s)) ∧
  (∀ s : State, (tick s).cycle = s.cycle + 1)

/-! ## Landings and accesses -/

/-- A variable-latency value lands (R27): once due, the register (or row) holds it and is no longer pending, both seen
together; nothing else of the context changes but the list of what is on its way. Before it is due nothing happens. An
acknowledgement that is due raises its flags and keeps the oldest failure, with the cycle of it (R122, R280). -/
def Obligations.LandingEvents : Prop :=
  (∀ (s : State) (k i : Nat) (l : Landing) (r : SReg) (v : Word), (s.ctx k).landings[i]? = some l → l.due ≤ s.cycle → r ≠ 0 →
    l = { Landing.empty with
      seq := l.seq, due := l.due, regs := [(r, v)], firm := l.firm, waitw := l.waitw } → (∀ t, (s.ctx k).park ≠ .wfi t) →
    ∃ t, exec (.valueLand k i) s = .next t ∧ OnlyCtx k s t ∧ (t.ctx k).rd r = v ∧ (t.ctx k).pending r = false ∧
      (∀ x, x ≠ r → (t.ctx k).rd x = (s.ctx k).rd x ∧ (t.ctx k).pending x = (s.ctx k).pending x) ∧
      (∀ x, (t.ctx k).rdC x = (s.ctx k).rdC x) ∧ (t.ctx k).fflags = (s.ctx k).fflags ∧ (t.ctx k).pc = (s.ctx k).pc ∧
      (t.ctx k).landings = dropAt i (s.ctx k).landings) ∧
  (∀ (s : State) (k i : Nat) (l : Landing) (key : Nat) (x : Row), (s.ctx k).landings[i]? = some l → l.due ≤ s.cycle →
    l = { Landing.empty with
      seq := l.seq, due := l.due, rows := [(key, x)], firm := l.firm } → (∀ t, (s.ctx k).park ≠ .wfi t) →
    ∃ t, exec (.valueLand k i) s = .next t ∧
      (t.core (coreOf k)).row key = { x with
        pend := ((s.core (coreOf k)).row key).pend - 1, poison := none } ∧
      (∀ j, j ≠ key → (t.core (coreOf k)).row j = (s.core (coreOf k)).row j) ∧ (∀ c, c ≠ coreOf k → t.core c = s.core c) ∧
      (t.ctx k).s = (s.ctx k).s ∧ SameBytes s t) ∧
  (∀ (s : State) (k i : Nat) (l : Landing), (s.ctx k).landings[i]? = some l → s.cycle < l.due → exec (.valueLand k i) s = .next s) ∧
  (∀ (s : State) (k : Nat),
    ((∀ a ∈ (s.ctx k).acks, s.cycle < a.due) → exec (.acknowledgementArrival k) s = .next s) ∧
    (∀ (a : Ack) (rest : List Ack), (s.ctx k).acks = a :: rest → a.due ≤ s.cycle →
      ∃ t, exec (.acknowledgementArrival k) s = .next t ∧ OnlyCtx k s t ∧ (t.ctx k).acks = rest ∧
        (t.ctx k).fflags = (s.ctx k).fflags ||| a.flags ∧ (t.ctx k).failure = ((s.ctx k).failure <|> a.fail) ∧
        ((s.ctx k).failure = none → a.fail ≠ none → (t.ctx k).failedAt = s.cycle) ∧ (t.ctx k).s = (s.ctx k).s))

/-- A memory instruction is done once its accesses have been performed (R115 to R133, R294 to R300, R355). LD, LD.ACQ, ST,
ST.REL, LDP, LDP.ACQ, STP, STP.REL, LDS, STS, XCH, XCH.S, CAS, AADD, AAND, AOR, AXOR, AMAXS, AMINS, AMAXU, AMINU, AFADD, AFMAX,
AFMIN, RED, FADDT, SCLD, SCST, SCX, TLD, TST, TST.B, TLDX, SPILL and FILL complete: each asks for its accesses, and when a
plain bank's slot serves one, a read brings the bytes there, a write leaves its bytes, an atomic operation leaves its new word
and brings the old one, in that one slot, with the value, or the acknowledgement, there in the cycle that slot and crossing
give; a plain load of an own bank gives its result of latency 4 its value. WAITW (R125) answers 0, 5 or 2 in this order, or
registers. To global memory a read, a write and an atomic operation do the same at their home when their translation succeeds,
and are suspended by the fault record when it does not (R357). How soon a global value is there is the model's choice, log
entry 22; that a global read returns the latest write at its home is that of log entry 9. -/
def Obligations.AccessEvents : Prop :=
  (∀ (i : Instr) (s : State), memForm i = true → Runs i s → s.view = none →
     let k := s.cur
     ∃ (t : State) (l : List Req), exec i s = .next t ∧ (t.ctx k).reqs = (s.ctx k).reqs ++ l ∧
       l.length = (memOps s k (me s) i).length ∧
       (∀ (n : Nat) (op : MemOp) (r : Req), (memOps s k (me s) i)[n]? = some op → l[n]? = some r →
         r.acc = op.acc ∧ r.addr = op.ea ∧ r.dest = op.dest ∧ r.ord = op.ord ∧ r.issued = s.cycle) ∧
       ∀ r ∈ l, ∀ (u : State) (core bank : Nat) (sl : Slot) (again : Bool), Serves u k core bank r sl again → (u.ctx k).portWait = none →
         let key := localKey (k / 8) r.addr
         ((∀ f ∈ (u.ctx k).fixed, f.of ≠ some r.seq) → (∀ d n, r.dest ≠ .regs d n) →
           ∃ v, exec (slotEvent core bank again) u = .next v ∧ Over u v k (16 * core + bank) r ∧
             Performed u v k key (arrivesAt u k (16 * core + bank) r sl) r) ∧
         ((∃ f ∈ (u.ctx k).fixed, f.of = some r.seq) → sl = .own → (∃ n, r.acc = .read n) →
           ∃ v, exec (slotEvent core bank again) u = .next v ∧ Over u v k (16 * core + bank) r ∧ Given u v k key r)) ∧
  (∀ (s : State) (k core bank : Nat) (r : Req) (sl : Slot) (again : Bool) (thr deadline : Word) (d : SReg),
     Serves s k core bank r sl again → (s.ctx k).portWait = none → (∀ f ∈ (s.ctx k).fixed, f.of ≠ some r.seq) →
     r.acc = .waitw thr deadline → r.dest = .reg d 8 true →
     let b := 16 * core + bank
     let key := localKey (k / 8) r.addr
     let word : Word := BitVec.ofNat 64 (readN s.bankMem key 8)
     let answer : Option Nat :=
       if thr.toInt ≤ word.toInt then some 0
       else if deadline ≠ 0 ∧ deadline.toNat ≤ dialOf s k then some 5
       else if 16 ≤ (s.bank b).waiters.length then some 2 else none
     ∃ t, exec (slotEvent core bank again) s = .next t ∧ SameBytes s t ∧
       match answer with
       | some code => Over s t k b r ∧ ∃ l, (t.ctx k).landings = (s.ctx k).landings ++ [l] ∧ l.regs = [(d, BitVec.ofNat 64 code)] ∧
           l.due = arrivesAt s k b r sl ∧ l.waitw = true ∧ (t.bank b).waiters = (s.bank b).waiters
       | none =>
         (t.bank b).waiters = (s.bank b).waiters ++ [{ who := .ctx k r.seq, addr := key, thr := thr, deadline := deadline }] ∧ (t.ctx k).landings = (s.ctx k).landings ∧
           ∀ x ∈ (t.ctx k).reqs, x.seq = r.seq → x.state = .registered) ∧
  (∀ (s : State) (k i pa die : Nat) (r : Req) (e : TlbEntry), (s.ctx k).reqs[i]? = some r →
    isLocal r.addr = false → mayPerform s k r = true → r.tile = none → (∀ t, r.state ≠ .failed t) →
    r.addr.toNat % 4096 + r.acc.bytes ≤ 4096 → noPath s (coreOf k) (vaDie r.addr) = false → s.pathless = [] →
    translate s (agentOf s k r.user) r.addr r.acc.kind = .ok (.hbm die pa, e) → pteCnt e.leaf = false → s.hbmPoison = [] →
    let due := s.cycle + nominalLatency s (agentOf s k r.user) r.addr
    let ended (t : State) : Prop := t.bankMem = s.bankMem ∧ t.hostMem = s.hostMem ∧ (t.ctx k).s = (s.ctx k).s ∧
      ∀ x, x ∈ (t.ctx k).reqs ↔ x ∈ (s.ctx k).reqs ∧ x.seq ≠ r.seq
    let lands (t : State) (v : Nat) (fl : BitVec 5) : Prop := ∃ l, (t.ctx k).landings = (s.ctx k).landings ++ [l] ∧ Brings l v r.dest ∧
      l.flags = fl ∧ l.poison = none ∧ l.due = due
    let acked (t : State) (fl : BitVec 5) : Prop := (t.ctx k).acks = (s.ctx k).acks ++ [⟨fl, none, due, false⟩]
    let wrote (t : State) (n v : Nat) : Prop := hbmRead t die pa n = v % 256 ^ n ∧
      ∀ x, ¬(hkey die pa ≤ x ∧ x < hkey die pa + n) → frameRead t none x 1 = frameRead s none x 1
    (∀ n, r.acc = .read n → r.dest ≠ .none → (∀ d m, r.dest ≠ .regs d m) →
      ∃ t, exec (.globalRequest k i) s = .next t ∧ ended t ∧ SameBytes s t ∧ lands t (hbmRead s die pa n) 0) ∧
    (∀ n v, r.acc = .write n v → r.dest = .none →
      ∃ t, exec (.globalRequest k i) s = .next t ∧ ended t ∧ wrote t n v.toNat ∧ acked t 0) ∧
    (∀ n f, r.acc = .rmw n f → (∀ d m, r.dest ≠ .regs d m) →
      let old := hbmRead s die pa n
      ∃ t, exec (.globalRequest k i) s = .next t ∧ ended t ∧
        (match (rmwNew n f old).1 with | some new => wrote t n new | none => SameBytes s t) ∧
        if r.dest = .none then acked t (rmwNew n f old).2 else lands t old (rmwNew n f old).2)) ∧
  (∀ (s : State) (k i sub : Nat) (r : Req), (s.ctx k).reqs[i]? = some r →
    isLocal r.addr = false → mayPerform s k r = true → r.tile = none → (∀ t, r.state ≠ .failed t) →
    r.addr.toNat % 4096 + r.acc.bytes ≤ 4096 → noPath s (coreOf k) (vaDie r.addr) = false → s.pathless = [] →
    translate s (agentOf s k r.user) r.addr r.acc.kind = .error sub →
    let num := (recordFault (agentOf s k r.user) r.addr r.acc.kind sub (dropLeaf (agentOf s k r.user) r.addr s)).1
    ∃ t, exec (.globalRequest k i) s = .next t ∧ ∀ x ∈ (t.ctx k).reqs, x.seq = r.seq → x.state = .suspended (vaDie r.addr) num)

/-- A bank's slots (R294, R298): in each cycle a bank serves one request at most, of the class of the cycle's slot, and of
those present the first, at slot 1 by age and at the others going round from the slot's pointer; the pointer then stands one
past the party served. What was not asked for in this cycle is not performed. A plain request that meets a bank under change
is CLOSED and is tried again at the same slot of the next frame (R148); a status form lands code 4. A remote access that has
found no live path for 2 ms, 6,000,000 cycles since it lost it, fails with TIMEOUT (R396); before that it waits, and a path that
is back ends the count. SC announcements of the earliest window of a package that is four windows old are delivered together
(R366). -/
def Obligations.ReplaysPathsAndWindows : Prop :=
  ((∀ (s : State) (b : Nat),
     (∀ a, chosenAt s b = some a → a ∈ asks s ∧ a.bank = b ∧ a.slot = slotAt s.cycle ∧ (s.turn b).served ≤ s.cycle ∧
       ∀ x ∈ asks s, x.bank = b → askBefore (s.turn b) x a = false) ∧
     (chosenAt s b = none → ∀ x ∈ asks s, x.bank ≠ b) ∧
     (∀ a, ((useTurn s a).turn a.bank).served = s.cycle + 1 ∧
       (a.slot = .others → ((useTurn s a).turn a.bank).core = (a.index + 1) % 256) ∧
       (a.slot = .matrix → ((useTurn s a).turn a.bank).cell = (a.index + 1) % 64) ∧
       (a.slot = .copy → ((useTurn s a).turn a.bank).bay = (a.index + 1) % 16))) ∧
   (∀ (s : State) (core bank : Nat) (again : Bool), bank < 16 → (∀ a, chosenAt s (16 * core + bank) = some a → a.replay ≠ again) →
     exec (slotEvent core bank again) s = .next s) ∧
   (∀ (s : State) (k core bank : Nat) (r : Req) (a : Ask) (x : Closing), bank < 16 →
     let b := 16 * core + bank
     chosenAt s b = some a → a.who = .ctx k r.seq 0 → listFor s k r = none → (∀ d n, r.dest ≠ .regs d n) → (s.ctx k).reqs.find? (fun y => y.seq = r.seq) = some r →
     (s.bank b).closing = some x → (∀ m w, r.acc ≠ .guise m w) →
     ∃ t, exec (slotEvent core bank a.replay) s = .next t ∧ SameBytes s t ∧ (t.ctx k).s = (s.ctx k).s ∧
       ((∀ d v, r.dest ≠ .status d v) → (t.ctx k).landings = (s.ctx k).landings ∧
         ∀ y ∈ (t.ctx k).reqs, y.seq = r.seq → y.state = .closed ∧ y.metClosed = true ∧ y.due = s.cycle + 1) ∧
       (∀ d v, r.dest = .status d v → (∀ y ∈ (t.ctx k).reqs, y.seq ≠ r.seq) ∧
         ∃ l, (t.ctx k).landings = (s.ctx k).landings ++ [l] ∧ l.regs = [(d, 4)]))) ∧
  ((∀ (s : State) (k i : Nat) (r : Req) (d : SReg) (n : Nat) (sg : Bool), (s.ctx k).reqs[i]? = some r → isLocal r.addr = false →
     r.state = .issued → noPath s (coreOf k) (vaDie r.addr) = true → r.dest = .reg d n sg → d ≠ 0 →
     (r.lostAt = none → ∃ t, exec (.remotePathTimeout k i) s = .next t ∧ OnlyCtx k s t ∧ SameBytes s t ∧ (t.ctx k).s = (s.ctx k).s ∧
       ∀ x ∈ (t.ctx k).reqs, x.seq = r.seq → x.lostAt = some s.cycle) ∧
     (∀ at_, r.lostAt = some at_ →
       (s.cycle < at_ + 6000000 → exec (.remotePathTimeout k i) s = .next s) ∧
       (at_ + 6000000 ≤ s.cycle → ∃ t l, exec (.remotePathTimeout k i) s = .next t ∧ SameBytes s t ∧
         (t.ctx k).landings = (s.ctx k).landings ++ [l] ∧ l.poison = some ⟨0x12, r.addr⟩ ∧ l.regs.map (·.1) = [d] ∧
         ∀ x, x ∈ (t.ctx k).reqs ↔ x ∈ (s.ctx k).reqs ∧ x.seq ≠ r.seq))) ∧
   (∀ (s : State) (k i : Nat) (r : Req), (s.ctx k).reqs[i]? = some r → noPath s (coreOf k) (vaDie r.addr) = false → r.lostAt ≠ none →
     ∃ t, exec (.remotePathTimeout k i) s = .next t ∧ OnlyCtx k s t ∧ ∀ x ∈ (t.ctx k).reqs, x.seq = r.seq → x.lostAt = none) ∧
   (∀ (s : State) (pkg : Nat) (w : BitVec 60),
     let age (x : BitVec 60) : Int := (windowNow s pkg - x).toInt
     (∃ a ∈ s.announces, pkgOf a.core = pkg ∧ a.delivered = false ∧ a.window = w) → 4 ≤ age w →
     (∀ a ∈ s.announces, pkgOf a.core = pkg → a.delivered = false → age a.window ≤ age w) →
     exec (.scWindowDelivery pkg) s = .next { s with announces := s.announces.map fun a => { a with
       delivered := a.delivered || (pkgOf a.core == pkg && a.window == w) } }) ∧
   (∀ (s : State) (pkg : Nat), (∀ a ∈ s.announces, pkgOf a.core = pkg → a.delivered = false → (windowNow s pkg - a.window).toInt < 4) →
     exec (.scWindowDelivery pkg) s = .next s))

/-! ## Waits, teams, exits -/

/-- A park (R9): the context is PARKED on what it waits for, at its bundle's PC, and gives the core up, unless it is a member
of a team (R291); its registers stand.
RDTIME, WAITT and WFI (R288, R292): the dial as sampled at issue is on its way to the register, which is pending; a wait
parks until its dial time unless that has come, and WFI with no deadline parks while a register or row is pending. A
context's exit (R327): once its waits are over it is IDLE, its weight is on its way to the root, it has departed from every
barrier and left its team, no WAITW of it is registered (R126), and the launch counts it; until then it stays. How soon a dial value lands is the model's choice,
log entry 22. FOLLOW, ATTACH and DETACH (R290): FOLLOW and ATTACH arrive at a phase and park until it completes; FOLLOW names the
leader by its core of the bay, ATTACH the last leader; then the follower goes on at the leader's PC. DETACH leaves the team. -/
def Obligations.WaitsTeamsAndExits : Prop :=
  (∀ (s : State) (k : Nat) (p : Park),
     let t := park k p s
     let c := s.ctx k
     t.ctx k = { c with
       status := .parked, park := p, parkAt := dialOf s k, parkPc := c.pc } ∧ (∀ j, j ≠ k → t.ctx j = s.ctx j) ∧
     (inTeam s k = false → (t.core (coreOf k)).running ≠ some (ctxId k)) ∧ (inTeam s k = true → t.core (coreOf k) = s.core (coreOf k)) ∧
     (∀ c, c ≠ coreOf k → t.core c = s.core c) ∧ SameBytes s t ∧
     t.launches = s.launches ∧ t.queues = s.queues) ∧
  (∀ (s : State) (d a : SReg),
     (Runs (.rdtime d) s → d ≠ 0 → ∃ t l, exec (.rdtime d) s = .next t ∧ (t.ctx s.cur).landings = (s.ctx s.cur).landings ++ [l] ∧
       l.regs = [(d, BitVec.ofNat 64 (dialOf s s.cur))] ∧ l.due ≤ s.cycle + 4 ∧ (t.ctx s.cur).pending d = true ∧
       (t.ctx s.cur).s = (s.ctx s.cur).s ∧ (∀ j, j ≠ s.cur → t.ctx j = s.ctx j) ∧ SameBytes s t) ∧
     (Runs (.waitt a) s → exec (.waitt a) s =
       .next (if (rdS s a).toNat ≤ dialOf s s.cur then s else park s.cur (.waitt (rdS s a)) s)) ∧
     (Runs (.wfi a) s → a ≠ 0 → exec (.wfi a) s =
       .next (if (rdS s a).toNat ≤ dialOf s s.cur then s else park s.cur (.wfi (rdS s a)) s)) ∧
     (Runs (.wfi 0) s → exec (.wfi 0) s = .next (if anyPending s s.cur (me s) = true then park s.cur (.wfi 0) s else s)) ∧
     (∀ k, dialOf s k < 2 ^ 64)) ∧
  (∀ (s : State) (k l : Nat) (x : Launch), (s.ctx k).exiting = true → (s.ctx k).status = .parked → (s.ctx k).failure = none →
     (s.ctx k).launch = some l → find? s.launches l = some x → departs k s = false →
     (exitReady s k = false → exec (.contextExit k) s = .next s) ∧
     (exitReady s k = true → ∃ t y, exec (.contextExit k) s = .next t ∧ (t.ctx k).status = .idle ∧ (t.ctx k).left = .exited ∧
       (t.ctx k).wgt = 0 ∧ (t.ctx k).exiting = false ∧ (∀ dom, ((t.ctx k).bar dom).departed = true) ∧ (t.ctx k).leader = none ∧
       find? t.launches l = some y ∧ y.exited = x.exited + 1 ∧ y.returns = x.returns ++ [((s.ctx k).wgt.toNat : Int)] ∧
       (∀ b, ∀ w ∈ (t.bank b).waiters, w.mine k (s.ctx k) = false) ∧ (∀ d, ∀ w ∈ (t.die d).waiters, w.mine k (s.ctx k) = false) ∧
       ((∀ b, ∀ w ∈ (s.bank b).waiters, w.of k = false) → SameBytes s t))) ∧
  (∀ (s : State) (a : SReg) (dom : Domain), markOf s s.cur (s.ctx s.cur) dom = none → (me s).bar dom = (s.ctx s.cur).bar dom →
    let p := ((s.ctx s.cur).bar dom).arrived
    let joins (leader : Nat) (t : State) : Prop := (t.ctx s.cur).status = .parked ∧ (t.ctx s.cur).park = .team dom p leader ∧
      ((t.ctx s.cur).bar dom).arrived = p + 1 ∧ (t.ctx s.cur).s = (s.ctx s.cur).s ∧ SameBytes s t
    (Runs (.follow a dom) s → ∃ t, exec (.follow a dom) s = .next t ∧
      joins ((coreOf s.cur / 16 * 16 + (rdS s a).toNat % 16) * 8 + ctxId s.cur) t) ∧
    (Runs (.attach dom) s → ∃ t, exec (.attach dom) s = .next t ∧ joins ((me s).lastLeader.getD 0) t)) ∧
  (∀ s : State, Runs .detach s → departs s.cur s = false →
    ∃ t, exec .detach s = .next t ∧ (t.ctx s.cur).leader = none ∧ (∀ j, (t.ctx j).leader ≠ some s.cur) ∧
      (∀ j, (t.ctx j).s = (s.ctx j).s ∧ (t.ctx j).pc = (s.ctx j).pc) ∧ SameBytes s t) ∧
  (∀ (s : State) (k p leader : Nat) (dom : Domain), (s.ctx k).status = .parked → (s.ctx k).park = .team dom p leader →
    p < doneFor s k dom → (s.ctx k).h = false → (s.ctx leader).left = .no → (s.ctx leader).status ≠ .idle → (s.ctx leader).launch = (s.ctx k).launch → leader ≠ k →
    ((settle k s).ctx k).status = .ready ∧ ((settle k s).ctx k).leader = some leader ∧ ((settle k s).ctx k).pc = (s.ctx leader).pc)

/-- What ends a wait with a time (R126, R288, R292, R374): WAITT and WFI end at their dial time and not before; a registered
WAITW ends at its deadline with TIMEOUT, code 5, on its way to the register and no registration left. CWAIT (R426): a park
on a barrier phase that outlasts CWAIT with the phase incomplete traps TIMEOUT at the parked bundle, xsub 1 and xaddr the
domain's code, and the domain keeps its mark; before that, or with CWAIT 0, nothing happens. -/
def Obligations.Timeouts : Prop :=
  ((∀ (s : State) (k : Nat) (w : Word), (s.ctx k).status = .parked →
     let ready : Out := .next (s.modCtx k fun c => { c with status := if c.h then .stopped else .ready, park := .none })
     ((s.ctx k).park = .waitt w → exec (.waittExpire (.ctx k)) s = if w.toNat ≤ dialOf s k then ready else .next s) ∧
     ((s.ctx k).park = .wfi w → exec (.wfiDeadline k) s = if w ≠ 0 ∧ w.toNat ≤ dialOf s k then ready else .next s)) ∧
   (∀ (s : State) (q : Nat) (ch : Chain) (rest : List Chain) (w : Word), (s.queue q).chains = ch :: rest → ch.wait = .waitt w → dialOf s ch.owner < w.toNat →
     exec (.waittExpire (.queue q)) s = .next s) ∧
   (∀ (s : State) (k q n : Nat) (w : Registered) (r : Req) (d : SReg) (sg : Bool),
     w ∈ allRegistered s → w.who = .ctx k q → w.deadline ≠ 0 → w.deadline.toNat ≤ dialOf s k →
     (∀ x ∈ allRegistered s, (∃ j, x.who = .ctx k j) → x = w) → (s.ctx k).reqs.find? (fun x => x.seq = q) = some r → r.dest = .reg d n sg →
     ∃ t l, exec (.waitwTimeout k) s = .next t ∧ (t.ctx k).landings = (s.ctx k).landings ++ [l] ∧ l.regs = [(d, 5)] ∧ l.due = s.cycle ∧
       (∀ b x, x ∈ (t.bank b).waiters → x.who ≠ .ctx k q) ∧ (∀ b x, x ∈ (t.die b).waiters → x.who ≠ .ctx k q) ∧
       ∀ x, x ∈ (t.ctx k).reqs ↔ x ∈ (s.ctx k).reqs ∧ x.seq ≠ q)) ∧
  (∀ (s : State) (k p : Nat) (dom : Domain), (s.ctx k).status = .parked → (s.ctx k).park = .barPhase dom p →
     (s.ctx k).running = none → (s.ctx k).h = false →
     let w := cwaitOf s k
     (w = 0 ∨ dialOf s k < (s.ctx k).parkAt + w ∨ p < doneFor s k dom → exec (.cwaitTimeout k) s = .next s) ∧
     (w ≠ 0 → (s.ctx k).parkAt + w ≤ dialOf s k → ¬ p < doneFor s k dom →
       ∃ t, exec (.cwaitTimeout k) s = .next t ∧ (t.ctx k).xcause = 0x12 ∧ (t.ctx k).xsub = 1 ∧
         (t.ctx k).xaddr = BitVec.ofNat 64 (domCode dom) ∧ (t.ctx k).xpc = (s.ctx k).parkPc ∧ (t.ctx k).h = true ∧
         ((t.ctx k).bar dom).timedOut = some p ∧ (t.ctx k).status = .stopped ∧ (t.ctx k).s = (s.ctx k).s))

/-! ## Deferring, banks and plates -/

/-- The tray (R235, R241, R250): a deferred slot joins it with its captured registers; TRAYQ, TRAYQ.DEP and TRAYQ.STOP read
it; TRAYQ.LAND writes the faulted closure's register and removes it; TRAYDRAIN waits until it is empty and does nothing; the
oldest ready closure leaves it to run. -/
def Obligations.TrayResults : Prop :=
  (∀ (s : State) (i : Instr), ∃ cl, let t := pushClosure i [] none s
    (t.ctx s.cur).tray = (s.ctx s.cur).tray ++ [cl] ∧ cl.instr = i ∧ cl.pc = (me s).pc ∧ cl.s = (me s).s ∧ cl.c = (me s).c ∧
    cl.byName = (infoIn (me s) i).src.filter (me s).pendingAll ∧ cl.named = cl.byName ∧ (t.ctx s.cur).s = (s.ctx s.cur).s ∧
    vget (t.ctx s.cur).evc 7 = satInc (vget (s.ctx s.cur).evc 7) 1 ∧ SameBytes s t) ∧
  (∀ (s : State) (d a : SReg),
    (Runs (.trayq d) s → exec (.trayq d) s = .next (wrS d (BitVec.ofNat 64 (me s).tray.length) s)) ∧
    (Runs (.trayqDep d a) s → exec (.trayqDep d a) s =
      .next (wrS d (BitVec.ofNat 64 ((me s).tray.countP fun cl => a != 0 && cl.named.contains a)) s)) ∧
    (Runs (.trayqStop d) s → exec (.trayqStop d) s =
      .next (wrS d (if (me s).h = true ∧ (me s).xcause = 0x0F then (me s).stop.getD 0 else 0) s)) ∧
    (∀ cl, Runs (.trayqLand a) s → (me s).tray.find? (·.faulted) = some cl → cl.info.dst = [d] → d ≠ 0 → (s.ctx s.cur).running = none →
      ∃ t, exec (.trayqLand a) s = .next t ∧ OnlyCtx s.cur s t ∧ (t.ctx s.cur).rd d = rdS s a ∧
        (∀ r, r ≠ d → (t.ctx s.cur).rd r = (s.ctx s.cur).rd r) ∧ ∀ x ∈ (t.ctx s.cur).tray, x.faulted = false) ∧
    (∀ cl, Runs (.trayqLand a) s → (me s).tray.find? (·.faulted) = some cl → cl.info.dst = [] →
      ∃ t, exec (.trayqLand a) s = .next t ∧ OnlyCtx s.cur s t ∧ (t.ctx s.cur).s = (s.ctx s.cur).s ∧
        ∀ x ∈ (t.ctx s.cur).tray, x.faulted = false) ∧
    (Runs .traydrain s → exec .traydrain s = .next s) ∧
    (∀ k c, structural s k c .traydrain = if c.tray.isEmpty = true then none else some .traydrain)) ∧
  (∀ (s : State) (k : Nat),
    (readyClosure s k = none → exec (.closureRun k) s = .next s) ∧
    (∀ cl, readyClosure s k = some cl → ∃ t, exec (.closureRun k) s = .next t ∧ OnlyCtx k s t ∧ (t.ctx k).running = some cl ∧
      (t.ctx k).tray.length = ((s.ctx k).tray.filter (· != cl)).length ∧ (t.ctx k).s = (s.ctx k).s ∧ cl ∈ (s.ctx k).tray ∧
      closureReady s k cl = true ∧ ∀ x ∈ (s.ctx k).tray, closureReady s k x = true → cl.age ≤ x.age))

/-- BGUISE (R157): it issues as an access of its bank's slot 0, with sd pending. In that slot the bank takes the descriptor
with its old GEN and answers CLOSED until sd lands, at n + 4, or at n + 8 after a CONVERT of no element; CLEAR zeroes the bank,
KEEP leaves its bytes, or is refused and changes nothing, and CONVERT of a plain bank leaves them and counts nothing. That the
descriptor is taken in the slot and GEN rises at the end is log entry 38, and that sd lands no later than R157 allows is log entry
22. The end of
a BGUISE (R157): GEN increases by 1, the old descriptor lands in sd and the bank answers again; a refused KEEP changes no
descriptor and traps STRUCT 0x23 at its own bundle. BDESC (R156): a slot-0 access too, whose descriptor lands at n + 4. -/
def Obligations.GuiseInstructions : Prop :=
  (∀ (s : State) (d a : SReg) (bank : BitVec 4),
     let k := s.cur
     let asked (mode : GuiseMode) (o : Out) : Prop := ∃ t r, o = .next t ∧ (t.ctx k).reqs = (s.ctx k).reqs ++ [r] ∧
       r.acc = .guise mode (guiseDesc (rdS s a)) ∧ r.addr = bankBase (16 * coreOf k + bank.toNat) ∧ r.dest = .reg d 8 true ∧
       r.issued = s.cycle ∧ (d ≠ 0 → (t.ctx k).pending d = true) ∧ (t.ctx k).s = (s.ctx k).s ∧ (∀ j, j ≠ k → t.ctx j = s.ctx j) ∧
       t.banks = s.banks ∧ SameBytes s t
     (Runs (.bguiseClear d a bank) s → asked .clear (exec (.bguiseClear d a bank) s)) ∧
     (Runs (.bguiseKeep d a bank) s → asked .keep (exec (.bguiseKeep d a bank) s)) ∧
     (Runs (.bguiseConvert d a bank) s → asked .convert (exec (.bguiseConvert d a bank) s))) ∧
  (∀ (s : State) (k core bank : Nat) (d : SReg) (mode : GuiseMode) (new : Word) (r : Req) (again : Bool),
     let b := 16 * core + bank
     let old := descOf s b
     let closed (n : Nat) (bad : Bool) (counts : Option Word) (t : State) : Prop :=
       (t.bank b).closing = some (.guise k d r.pc old (s.cycle + r.issued % 4 + n) bad counts) ∧
       (∀ x, x ∈ (t.ctx k).reqs ↔ x ∈ (s.ctx k).reqs ∧ x.seq ≠ r.seq) ∧
       (t.ctx k).s = (s.ctx k).s ∧ (∀ j, j ≠ k → t.ctx j = s.ctx j) ∧ (∀ x, x ≠ b → t.bank x = s.bank x) ∧ t.hbm = s.hbm
     let set (t : State) : Prop := descOf t b = new ||| (old &&& BitVec.ofNat 64 (0xFFFF * 2 ^ 48))
     bank < 16 → ServesOwn s k b r again → r.acc = .guise mode new → r.dest = .reg d 8 true → (s.bank b).waiters = [] → inArcade s b = false → kindOf new ≠ 6 → kindOf old ≠ 6 →
     (mode = .clear → ∃ t, exec (slotEvent core bank again) s = .next t ∧ closed 0 false none t ∧ set t ∧
       ∀ x, readByte t.bankMem x = if x / 8192 = b then 0 else readByte s.bankMem x) ∧
     (mode = .keep → keepOk s b new = true → ∃ t, exec (slotEvent core bank again) s = .next t ∧ closed 0 false none t ∧
       set t ∧ SameBytes s t) ∧
     (mode = .keep → keepOk s b new = false → ∃ t, exec (slotEvent core bank again) s = .next t ∧ closed 0 true none t ∧
       descOf t b = old ∧ SameBytes s t) ∧
     (mode = .convert → kindOf old = 0 → ∃ t, exec (slotEvent core bank again) s = .next t ∧ closed 4 false (some 0) t ∧
       set t ∧ SameBytes s t)) ∧
  ((∀ (s : State) (core bank k due : Nat) (d : SReg) (pc old : Word) (bad : Bool), bank < 16 → d ≠ 0 →
     let b := 16 * core + bank
     (s.bank b).closing = some (.guise k d pc old due bad none) → (∀ t, (s.ctx k).park ≠ .wfi t) →
     (s.cycle < due → exec (.bguiseComplete core bank) s = .next s) ∧
     (due ≤ s.cycle → bad = false → ∃ t, exec (.bguiseComplete core bank) s = .next t ∧ (t.ctx k).rd d = old ∧
       (t.ctx k).pending d = false ∧ (t.bank b).closing = none ∧ descOf t b = descOf s b + BitVec.ofNat 64 (2 ^ 48) ∧
       (∀ r, r ≠ d → (t.ctx k).rd r = (s.ctx k).rd r) ∧ (∀ x, x ≠ b → t.bank x = s.bank x)) ∧
     (due ≤ s.cycle → bad = true → (s.ctx k).h = false → (s.ctx k).running = none → (s.ctx k).status ≠ .idle →
       ∃ t, exec (.bguiseComplete core bank) s = .next t ∧ (t.ctx k).rd d = old ∧ (t.ctx k).xcause = 0x0B ∧ (t.ctx k).xsub = 0x23 ∧
         (t.ctx k).xaddr = bankBase b ∧ (t.ctx k).xpc = pc ∧ (t.ctx k).h = true ∧ (t.bank b).closing = none ∧
         descOf t b = descOf s b ∧ SameBytes s t)) ∧
   (∀ (s : State) (d : SReg) (bank : BitVec 4), Runs (.bdesc d bank) s → d ≠ 0 →
     let k := s.cur
     let b := 16 * coreOf k + bank.toNat
     ∃ t r, exec (.bdesc d bank) s = .next t ∧ (t.ctx k).reqs = (s.ctx k).reqs ++ [r] ∧ r.acc = .desc ∧ r.addr = bankBase b ∧
       r.dest = .reg d 8 true ∧ r.issued = s.cycle ∧ s.cycle + 4 ≤ (t.ctx k).nextIssue ∧ (t.ctx k).s = (s.ctx k).s ∧ SameBytes s t ∧
       ∃ f ∈ (t.ctx k).fixed, f.reg = d ∧ f.due = s.cycle + 4 ∧ f.of = some r.seq) ∧
   (∀ (s : State) (k core bank : Nat) (d : SReg) (r : Req) (again : Bool),
     let b := 16 * core + bank
     bank < 16 → ServesOwn s k b r again → r.acc = .desc → r.dest = .reg d 8 true → r.plain = true →
     ∃ t, exec (slotEvent core bank again) s = .next t ∧ SameBytes s t ∧ t.banks = s.banks ∧ (t.ctx k).s = (s.ctx k).s ∧
       (∀ x, x ∈ (t.ctx k).reqs ↔ x ∈ (s.ctx k).reqs ∧ x.seq ≠ r.seq) ∧
       (∀ f ∈ (s.ctx k).fixed, f.of = some r.seq → f.reg = d →
         { f with value := descOf s b, of := none, bad := none } ∈ (t.ctx k).fixed) ∧
       ((∀ f ∈ (s.ctx k).fixed, f.of ≠ some r.seq) → ∃ l, (t.ctx k).landings = (s.ctx k).landings ++ [l] ∧
         l.regs = [(d, descOf s b)] ∧ l.due = s.cycle + r.issued % 4 ∧ l.poison = none)))

/-- ARCADE (R161): sd is pending, and a composition's list is read in its bank's slot; the code is fixed by what it holds then.
With code 0 the members are linked in the list's order, the first as lead, the last as end and linked to the lead; with any other no
descriptor changes. A dissolution is made at once. The named banks answer CLOSED until sd lands the code, 2 cycles a member later
than 4: that it lands no later than R161 allows is log entry 22, what a count outside 2 to 16 does to that time log entry 72, and
which banks are CLOSED until the list is read log entry 98. -/
def Obligations.ArcadeResults : Prop :=
  (∀ (s : State) (d a b : SReg), Runs (.arcade d a b) s →
    let k := s.cur
    let n := (rdS s b).toNat
    ∃ t op, exec (.arcade d a b) s = .next t ∧ t.arcades = s.arcades ++ [op] ∧ op.ctx = k ∧ op.d = d ∧ op.due = s.cycle + 4 + 2 * n ∧
      (d ≠ 0 → (t.ctx k).pending d = true) ∧ (∀ x, descOf t x = descOf s x) ∧ SameBytes s t ∧
      (∀ x ∈ op.named, (t.bank x).closing = some (.arcade k)) ∧
      (n < 2 ∨ 16 < n → op.code = 1 ∧ op.list = none ∧ op.named = [] ∧ (t.ctx k).reqs = (s.ctx k).reqs) ∧
      (2 ≤ n → n ≤ 16 → op.named = ownListed s (coreOf k) (listed s (coreOf k) (rdS s a) n) ∧
        ∃ r, (t.ctx k).reqs = (s.ctx k).reqs ++ [r] ∧ op.list = some r.seq ∧ r.acc = .read n ∧ r.addr = rdS s a)) ∧
  (∀ (s : State) (k core bank n : Nat) (r : Req) (op : ArcadeOp) (again : Bool),
    let b := 16 * core + bank
    let key := localKey (k / 8) r.addr
    let l := banksIn (k / 8) n (readN s.bankMem key n)
    let named := ownListed s (k / 8) l
    let open_ := reopen op.named s
    let code := composeCode open_ (k / 8) n l
    bank < 16 → key / 8192 = b → key % 8192 + n ≤ 8192 → r.acc = .read n → 0 < n → r.did = 0 → r.got = 0 →
    (s.ctx k).reqs.find? (fun x => x.seq = r.seq) = some r → listFor s k r = some op →
    (∃ a, chosenAt s b = some a ∧ a.who = .ctx k r.seq 0 ∧ a.replay = again) →
    (s.bank b).closing = none ∨ (s.bank b).closing = some (.arcade k) → (s.bank b).badDesc = false → descOf s b = 0 →
    oddOfPair s b = false → s.bankPoison = [] → (∀ x ∈ named, (open_.bank x).closing = none ∧ (s.bank x).badDesc = false) →
    ∃ t, exec (slotEvent core bank again) s = .next t ∧ { op with named := named, code := code, list := none } ∈ t.arcades ∧
      (∀ x ∈ named, (t.bank x).closing = some (.arcade k)) ∧
      (code ≠ 0 → (∀ x, descOf t x = descOf s x) ∧ SameBytes s t) ∧
      (code = 0 → ∀ i x, l[i]? = some x → ∃ y, l[(i + 1) % n]? = some y ∧
        aroleOf (descOf t x) = (if i = 0 then 1 else if i + 1 = n then 3 else 2) ∧ alinkOf (descOf t x) = y % 256 ∧
        kindOf (descOf t x) = kindOf (descOf s x) ∧ capOf (descOf t x) = capOf (descOf s x))) ∧
  (∀ (s : State) (d a : SReg), Runs (.arcadeDis d a) s →
    let k := s.cur
    let b := bankAt (coreOf k) (rdS s a)
    (aroleOf (descOf s b) ≠ 1 → ∃ t op, exec (.arcadeDis d a) s = .next t ∧ t.arcades = s.arcades ++ [op] ∧ op.code = 6 ∧
      op.due = s.cycle + 4 ∧ ∀ x, descOf t x = descOf s x) ∧
    (aroleOf (descOf s b) = 1 → ∃ t op, exec (.arcadeDis d a) s = .next t ∧ t.arcades = s.arcades ++ [op] ∧ op.code = 0 ∧
      op.due = s.cycle + 4 + 2 * (linkedFrom s 16 b).length ∧
      ∀ x, x ∈ linkedFrom s 16 b → (t.bank x).closing = some (.arcade k) ∧ aroleOf (descOf t x) = 0 ∧ alinkOf (descOf t x) = 0)) ∧
  (∀ (s : State) (k : Nat),
    let due (x : ArcadeOp) : Prop := x.ctx = k ∧ x.list = none ∧ x.due ≤ s.cycle
    ((∀ x ∈ s.arcades, ¬due x) → exec (.arcadeComplete k) s = .next s) ∧
    (∀ op, op ∈ s.arcades → due op → (∀ x ∈ s.arcades, due x → x = op) → op.d ≠ 0 → (∀ t, (s.ctx k).park ≠ .wfi t) →
      ∃ t, exec (.arcadeComplete k) s = .next t ∧ (t.ctx k).rd op.d = BitVec.ofNat 64 op.code ∧
        (t.ctx k).pending op.d = false ∧ (∀ x ∈ op.named, (t.bank x).closing = none) ∧
        (∀ x, x ∈ t.arcades ↔ x ∈ s.arcades ∧ x ≠ op) ∧ SameBytes s t))

/-- The ports of structures in banks (R146, R147, R152), at a bank alone whose image is well formed. An access at a port is one
operation of R147's table, answered with its status and value (R148). QUEUE: PUT at the tail, or FULL; TAKE of the oldest, or
EMPTY; PEEK; COUNT. STACK: the same at the top. MAP: INSERT puts the value under its key, in place of the old one, or is FULL;
FIND and DELETE give it, or ABSENT; other keys stand. HEAP: INSERT adds its entry with the next stamp; MIN takes the entry of slot
0 and PEEK reads it; no other entry is lost. HIST: BUMP and ADD change one bin, saturating; a bin is read. What does not return OK
changes nothing. -/
def Obligations.PortOperations : Prop :=
  (∀ (s : State) (core : Nat) (ea : Word) (acc : Access) (dest : Dest) (ord : Order) (row plain : Bool) (who : Waiter) (p : Port),
    let b := localKey core ea / 8192
    let r := portOp b p (portData acc) s
    ImageBank s b → kindOf (descOf s b) ∈ [1, 2, 3, 4, 5] → acc ≠ .desc → acc.isWaitw = false →
    portAt (descOf s b) (wf ea 12 0) (portKind row ord acc) plain = some p →
    bankPerf core ea acc dest ord row plain who s = (.done r.1.status r.1.value 0, r.2)) ∧
  (∀ (d : Word) (bin : Bool),
    let n := ewOf d / 8
    (kindOf d = 1 ∨ kindOf d = 2 → portAt d 0 (.store n) bin = some .put ∧ portAt d 0 (.load n) bin = some .take ∧
      portAt d 8 (.load n) bin = some .peek) ∧
    (kindOf d = 1 → portAt d 0x10 (.load 4) bin = some .count ∧ portAt d 0x10 (.load 8) bin = some .count) ∧
    (kindOf d ∈ [2, 3, 4] → portAt d 0x18 (.load 4) bin = some .count ∧ portAt d 0x18 (.load 8) bin = some .count) ∧
    (kindOf d = 3 → portAt d 0 .stp bin = some .insert ∧ portAt d 8 (.xch 8) bin = some .find ∧ portAt d 0x10 (.xch 8) bin = some .delete) ∧
    (kindOf d = 4 → portAt d 0 .stp bin = some .hinsert ∧ portAt d 8 .ldp bin = some .hmin ∧ portAt d 0x10 .ldp bin = some .hpeek) ∧
    (kindOf d = 5 → (∀ m, portAt d 0 (.store m) bin = some .bump) ∧ portAt d 8 (.xch 8) bin = some .hadd ∧
      ∀ i, i ≤ bmaskOf d → portAt d (0x40 + 4 * i) (.load 4) true = some (.bin i))) ∧
  (∀ (s : State) (b v : Nat), ImageBank s b →
    let d := descOf s b
    let op (p : Port) : Answer × State := portOp b p v s
    let value := v % 2 ^ ewOf d
    (kindOf d ∈ [1, 2, 3, 4] → op .count = (ansOk (hdCount s b), s)) ∧
    (kindOf d = 1 ∨ kindOf d = 2 →
      (hdCount s b = capOf d → op .put = (ansFull, s)) ∧
      (hdCount s b < capOf d → (op .put).1 = ansOk 0 ∧ OnlyBank b s (op .put).2 ∧
        elems (op .put).2 b = if kindOf d = 1 then elems s b ++ [value] else value :: elems s b) ∧
      (elems s b = [] → op .take = (ansEmpty, s) ∧ op .peek = (ansEmpty, s)) ∧
      (∀ x l, elems s b = x :: l → (op .take).1 = ansOk x ∧ OnlyBank b s (op .take).2 ∧ elems (op .take).2 b = l ∧
        op .peek = (ansOk x, s)))) ∧
  (∀ (s : State) (b v : Nat), ImageBank s b → kindOf (descOf s b) = 3 →
    let d := descOf s b
    let op (p : Port) : Answer × State := portOp b p v s
    let key := v % 2 ^ kwOf d
    let at_ (t : State) (x : Nat) : Option Nat := (findKey t b x).map fun i => bankRead t (bkey b (0x48 + 16 * i)) 8
    (at_ s key = none → op .find = (ansAbsent, s) ∧ op .delete = (ansAbsent, s)) ∧
    (∀ x, at_ s key = some x → op .find = (ansOk x, s)) ∧
    (at_ s key = none → hdCount s b = capOf d → op .insert = (ansFull, s)) ∧
    (at_ s key ≠ none ∨ hdCount s b < capOf d → (op .insert).1 = ansOk 0 ∧ OnlyBank b s (op .insert).2 ∧
      ∀ x, at_ (op .insert).2 x = if x = key then some (v / 2 ^ 64 % 2 ^ ewOf d) else at_ s x) ∧
    (((List.range (hdCount s b)).map fun i => bankRead s (bkey b (0x40 + 16 * i)) 8).Nodup → ∀ x, at_ s key = some x →
      (op .delete).1 = ansOk x ∧ OnlyBank b s (op .delete).2 ∧ ∀ y, at_ (op .delete).2 y = if y = key then none else at_ s y)) ∧
  (∀ (s : State) (b v : Nat), ImageBank s b → kindOf (descOf s b) = 4 →
    let d := descOf s b
    let op (p : Port) : Answer × State := portOp b p v s
    let answer (x : Nat) : Answer := ansOk (wrap 64 (signed 32 x) + x / 2 ^ 64 * 2 ^ 64)
    (hdCount s b = capOf d → op .hinsert = (ansFull, s)) ∧
    (hdCount s b < capOf d → hdStamp s b < 2 ^ 32 - 1 → (op .hinsert).1 = ansOk 0 ∧ OnlyBank b s (op .hinsert).2 ∧
      hdStamp (op .hinsert).2 b = hdStamp s b + 1 ∧
      (entries (op .hinsert).2 b).Perm (heapEntry (signed 32 v) (hdStamp s b) (v / 2 ^ 64 % 2 ^ ewOf d) :: entries s b)) ∧
    (hdCount s b = 0 → op .hmin = (ansEmpty, s) ∧ op .hpeek = (ansEmpty, s)) ∧
    (∀ x l, entries s b = x :: l → op .hpeek = (answer x, s) ∧ (op .hmin).1 = answer x ∧ OnlyBank b s (op .hmin).2 ∧
      (entries (op .hmin).2 b).Perm l)) ∧
  (∀ (s : State) (b v i : Nat), ImageBank s b → kindOf (descOf s b) = 5 →
    let d := descOf s b
    let op (p : Port) : Answer × State := portOp b p v s
    let bin (t : State) (i : Nat) : Nat := bankRead t (bkey b (0x40 + 4 * i)) 4
    let hit := (v / 2 ^ bshiftOf d) &&& bmaskOf d
    let asked := v % 2 ^ 32
    let changed (t : State) (x : Nat) (n : Int) : Prop := OnlyBank b s t ∧ (bin t x : Int) = max 0 (min n (2 ^ 32 - 1)) ∧
      (i ≤ bmaskOf d → i ≠ x → bin t i = bin s i)
    ((op .bump).1 = ansOk 0 ∧ changed (op .bump).2 hit (bin s hit + 1)) ∧
    (bmaskOf d < asked → op .hadd = (ansAbsent, s)) ∧
    (asked ≤ bmaskOf d → (op .hadd).1 = ansOk (bin s asked) ∧ changed (op .hadd).2 asked (bin s asked + signed 32 (v / 2 ^ 32))) ∧
    op (.bin i) = (ansOk (bin s i), s))

/-- An EXCH pair (R154, R155): its owner's accesses and every load reach the front bank, the stores of others the negative one, and
an access to the odd bank's addresses is STRUCT 0x12; an exchange makes the negative bank the front, and the new negative holds the
former front's bytes under POL KEEP and zeros under CLEAR. CONVERT of live elements (R160): every one is kept or counted as
dropped; a QUEUE or STACK becomes plain bytes with its count and its elements packed, or a QUEUE or STACK of those that fit, in
order, up to its capacity. -/
def Obligations.PairsAndConversions : Prop :=
  (∀ (s : State) (core b n : Nat) (ea v : Word) (dest : Dest) (row plain : Bool) (who : Waiter), b % 2 = 0 → kindOf (descOf s b) = 6 →
    (s.bank b).closing = none → (s.bank b).badDesc = false → s.bankPoison = [] → oddOfPair s b = false →
    localKey core ea / 8192 = b → 0 < n → wf ea 12 0 + n ≤ 8192 →
    let front := if (s.bank b).flipped then b + 1 else b
    let negative := if (s.bank b).flipped then b else b + 1
    let here := if b / 16 = core then front else negative
    let w := bankPerf core ea (.write n (v.zeroExtend 2048)) dest {} row plain who s
    bankPerf core ea (.read n) dest {} row plain who s = (.done 0 (readN s.bankMem (bkey front (wf ea 12 0)) n) 0, s) ∧
    w.1 = .done 0 0 0 ∧ readN w.2.bankMem (bkey here (wf ea 12 0)) n = v.toNat % 256 ^ n ∧
    ∀ a, ¬(bkey here (wf ea 12 0) ≤ a ∧ a < bkey here (wf ea 12 0) + n) → readByte w.2.bankMem a = readByte s.bankMem a) ∧
  (∀ (s : State) (core : Nat) (ea : Word) (acc : Access) (dest : Dest) (ord : Order) (row plain : Bool) (who : Waiter),
    oddOfPair s (localKey core ea / 8192) = true → (s.bank (localKey core ea / 8192)).closing = none →
    (s.bank (localKey core ea / 8192)).badDesc = false → acc ≠ .desc →
    bankPerf core ea acc dest ord row plain who s = (.failed { cause := 0x0B, sub := 0x12, addr := ea }, s)) ∧
  (∀ (s : State) (b i : Nat), kindOf (descOf s b) = 6 → i < 8192 →
    let t := swapPair b s
    let byte (u : State) (own store : Bool) : Byte := readByte u.bankMem (plainKey u own store b i)
    byte t true false = byte s false true ∧
    byte t false true = (if (descOf s b).getLsbD 37 then byte s true false else 0) ∧
    ∀ a, a / 8192 ≠ b → a / 8192 ≠ b + 1 → readByte t.bankMem a = readByte s.bankMem a) ∧
  (∀ (s : State) (b : Nat) (new : Word), ImageBank s b → kindOf (descOf s b) ∈ [1, 2, 3, 4, 5] → descValid new (b % 16) = true →
    let old := descOf s b
    let r := convertBank b new s
    (pairingOk (kindOf old) (kindOf new) = true → wf r.1 63 32 + wf r.1 31 0 = (liveOf s b).1.length) ∧
    (kindOf old = 1 ∨ kindOf old = 2 →
      let kept := ((elems s b).filter (· < 2 ^ ewOf new)).take (capOf new)
      (kindOf new = 0 → wf r.1 31 0 = 0 ∧ bankRead r.2 (bkey b 0) 8 = (elems s b).length ∧
        ∀ i x, (elems s b)[i]? = some x → bankRead r.2 (bkey b (0x40 + ewOf old / 8 * i)) (ewOf old / 8) = x) ∧
      (kindOf new = 1 ∨ kindOf new = 2 → wf r.1 63 32 = kept.length ∧ descOf r.2 b = new ∧
        elems r.2 b = if kindOf new = 1 then kept else kept.reverse)))

/-- A PMOV (R218 to R221) joins the port queue of its core with the values read at issue and changes nothing else; XIN takes
two rows, WROW two rows of weights clamped to -31..31; STAT and a CALW read leave their register pending. EXPOSE (R223,
R224) starts the exposure of the selected plate with the context's latches, due 49 cycles later. -/
def Obligations.PlateMoves : Prop :=
  (∀ (s : State) (v : PortVal) (t : TReg) (row : BitVec 4) (d a : SReg),
    let k := s.cur
    let c := me s
    let queued (op : PortOp) : Out := .next (s.modCore (coreOf k) fun x => { x with
      ports := x.ports ++ [⟨k, op⟩], portAt := if x.ports.isEmpty = true then max x.portAt (s.cycle + 1) else x.portAt })
    let asked (op : PortOp) (o : Out) : Prop := ∃ t, o = .next t ∧ (t.core (coreOf k)).ports = (s.core (coreOf k)).ports ++ [⟨k, op⟩] ∧
      (d ≠ 0 → (t.ctx k).pending d = true) ∧ (t.ctx k).s = (s.ctx k).s ∧ SameBytes s t
    (Runs (.pmovPsel v) s → exec (.pmovPsel v) s = queued (.psel ((portWord c v).truncate 2))) ∧
    (Runs (.pmovGain v) s → exec (.pmovGain v) s = queued (.gain ((portWord c v).truncate 4))) ∧
    (Runs (.pmovXscl v) s → exec (.pmovXscl v) s = queued (.xscl ((portWord c v).truncate 32))) ∧
    (Runs (.pmovWscl v) s → exec (.pmovWscl v) s = queued (.wscl ((portWord c v).truncate 32))) ∧
    (Runs (.pmovYout v) s → exec (.pmovYout v) s = queued (.yout ((portWord c v).truncate 8))) ∧
    (Runs (.pmovXin t row) s → exec (.pmovXin t row) s = queued (.xin (rowPair s k c t row.toNat))) ∧
    (Runs (.pmovWrow t a row) s → exec (.pmovWrow t a row) s = queued (.wrow ((c.rd a).truncate 8)
      (clampWeights (rowPair s k c t row.toNat)).1 (clampWeights (rowPair s k c t row.toNat)).2)) ∧
    (Runs .pmovWgo s → exec .pmovWgo s = queued .wgo) ∧ (Runs .pmovRefix s → exec .pmovRefix s = queued .refix) ∧
    (Runs (.pmovCalwWrite d a) s → exec (.pmovCalwWrite d a) s = queued (.calwWrite (c.rd d).toNat (c.rd a))) ∧
    (Runs (.pmovStat d) s → asked (.stat d) (exec (.pmovStat d) s)) ∧
    (Runs (.pmovCalwRead d a) s → asked (.calwRead d (c.rd a).toNat) (exec (.pmovCalwRead d a) s)) ∧
    (Runs .pmovExpose s → ∃ u, exec .pmovExpose s = .next u ∧
      (u.core (coreOf k)).trigger = some (.expose (s.ctx k).latches.psel.toNat k (s.ctx k).latches, s.cycle + 49) ∧
      (u.core (coreOf k)).ports = (s.core (coreOf k)).ports ++ [⟨k, .expose⟩] ∧
      (∀ key ∈ youtRows s k (s.ctx k), ((u.core (coreOf k)).row key).pend ≠ 0) ∧ (u.ctx k).s = (s.ctx k).s ∧ SameBytes s u)) ∧
  (∀ (s : State) (k : Nat) (c : Ctx) (t : TReg) (row : Nat), (rowPair s k c t row).extractLsb' 0 1024 = (rowAt s k c t row).data ∧
    (rowPair s k c t row).extractLsb' 1024 1024 = (rowAt s k c t (row + 1)).data) ∧
  (∀ (x : BitVec 2048) (j : Nat), j < 256 →
    signed 8 (byteOf (clampWeights x).1 j) = max (-31) (min 31 (signed 8 (byteOf x j)))) ∧
  (∀ c x, portWord c (.imm x) = BitVec.ofNat 64 x.unsigned) ∧ (∀ c a, portWord c (.reg a) = c.rd a)

/-- The head of the port queue is applied in its cycle, one a cycle, while no trigger runs and its launch is not being
pre-empted (R218, R230 to R233): a latch takes its value, STAT and a CALW read send their word on its way, a CALW write changes
its word, WGO and REFIX start for 2 us and 40 us of cycles and stay at the head; otherwise nothing is applied. The plate unit's triggers (R223 to R232): a reference pass of 48
cycles starts for a waiting EXPOSE and gives a new reading that drifts by no more than 1 LSB a ms unless calibration was
written since; an exposure sends its eight rows on their way with tags set, and takes a reading when a reference column qualifies (R227); WGO leaves each weight as asked for or, in a row
then marked bad, between -31 and 31; REFIX gives a fresh reading. Each leaves the unit idle, and none ends before it is due.
What a trigger leaves where the spec gives only bounds is a free value, log entry 13; a calibration word with an error the ECC
cannot correct poisons what is read from it, log entry 61. -/
def Obligations.PlatePortAndTriggers : Prop :=
  ((∀ (s : State) (core k : Nat) (op : PortOp) (rest : List PortMove), portReady s core = true →
     (s.core core).ports = ⟨k, op⟩ :: rest → op ≠ .expose →
     let l := (s.ctx k).latches
     let n := l.psel.toNat
     let p := (s.core core).plate n
     ∃ t, exec (.portMoveApply core) s = .next t ∧ SameBytes s t ∧ (t.ctx k).s = (s.ctx k).s ∧
       (match op with
       | .wgo => (t.core core).trigger = some (.wgo n l.wrowIndex l.wrow, s.cycle + 6000) ∧ (t.core core).ports = (s.core core).ports
       | .refix => (t.core core).trigger = some (.refix n, s.cycle + 120000) ∧ (t.core core).ports = (s.core core).ports
       | _ => (t.core core).trigger = none ∧ (t.core core).ports = rest ∧ (t.core core).portAt = s.cycle + 1) ∧
       ((t.ctx k).latches = match op with
       | .psel v => { l with
         psel := v }
       | .gain v => { l with
         gain := v }
       | .xscl v => { l with
         xscl := v }
       | .wscl v => { l with
         wscl := v }
       | .yout v => { l with
         yout := v }
       | .xin v => { l with
         xin := v }
       | .wrow i v _ => { l with
         wrowIndex := i, wrow := v }
       | _ => l) ∧
       (match op with
       | .stat d => (∃ x, (t.ctx k).landings = (s.ctx k).landings ++ [x] ∧ x.regs = [(d, plateStat s k n rest.length)]) ∧
         ((t.core core).plate n).wsat = 0 ∧ ((t.core core).plate n).wbad = 0
       | .calwRead d i => ∃ x, (t.ctx k).landings = (s.ctx k).landings ++ [x] ∧ x.regs = [(d, p.word i)] ∧
         (x.poison.isSome = true ↔ i ∈ p.badCal)
       | .calwWrite i v => ((t.core core).plate n).word i = (if i = 1 then v &&& 0xFFFFFFFF else v) ∧
         (∀ j, j ≠ i → ((t.core core).plate n).word j = p.word j) ∧ ((t.core core).plate n).calWritten = true
       | .wrow _ _ m => ((t.core core).plate n).wsat.toNat = min (p.wsat.toNat + m) 255
       | _ => (t.core core).plates = (s.core core).plates)) ∧
   (∀ (s : State) (core : Nat), portReady s core = false → exec (.portMoveApply core) s = .next s) ∧
   (∀ (s : State) (core : Nat), portReady s core = true ↔ (s.core core).trigger = none ∧ (s.core core).portAt ≤ s.cycle ∧
     ∃ m rest, (s.core core).ports = m :: rest ∧ launchStops s m.ctx = false ∧
       (m.op = .wgo ∨ m.op = .refix → mayStart s (pkgOf core) 0 core = true))) ∧
  (∀ (s : State) (core n due : Nat),
     let x := s.core core
     let p := x.plate n
     let now := dial s (dieOf core)
     let idle (t : State) : Prop := (t.core core).trigger = none ∧ (t.core core).ports = x.ports.tail
     (x.trigger = none → wantsPass s core = some n → exec (.referencePass core) s =
       .next (s.modCore core fun x => { x with trigger := some (.reference n, s.cycle + 48) })) ∧
     (x.trigger = some (.reference n, due) → s.cycle < due → exec (.referencePass core) s = .next s) ∧
     (x.trigger = some (.reference n, due) → due ≤ s.cycle → ∃ t, exec (.referencePass core) s = .next t ∧
       (t.core core).trigger = none ∧ ((t.core core).plate n).readAt = now ∧
       (p.calWritten = true ∨ ((t.core core).plate n).read ≤ p.read + 256 * (now - p.readAt) / 1000000) ∧
       (((t.core core).plate n).drift = true ↔ 512 < ((t.core core).plate n).read) ∧ ((t.core core).plate n).w = p.w ∧ SameBytes s t) ∧
     (∀ k l, x.trigger = some (.expose n k l, due) →
       (s.cycle < due → exec (.exposureComplete core) s = .next s) ∧
       (due ≤ s.cycle → ∃ t y, exec (.exposureComplete core) s = .next t ∧ idle t ∧ (t.ctx k).landings = (s.ctx k).landings ++ [y] ∧
         y.due = due + 4 ∧ y.regs = [] ∧ ((∀ i ∈ p.badCal, i < 2) → y.poison = none) ∧ y.rows.map (·.1) = youtRows s k { s.ctx k with
           latches := l } ∧ (∀ r ∈ y.rows, r.2.b = true ∧ ((scaleProduct l).1 = 0 → r.2.data = 0 ∧ r.2.e = 0)) ∧
         (qualified p l = [] → ((t.core core).plate n).read = p.read ∧ ((t.core core).plate n).drift = p.drift) ∧
         (qualified p l ≠ [] → ((t.core core).plate n).readAt = now ∧ ((t.core core).plate n).calWritten = false) ∧
         (t.ctx k).s = (s.ctx k).s ∧ ((t.core core).plate n).w = p.w ∧ SameBytes s t)) ∧
     (∀ row w, x.trigger = some (.wgo n row w, due) →
       (s.cycle < due → exec (.wgoComplete core) s = .next s) ∧
       (due ≤ s.cycle → ∃ t, exec (.wgoComplete core) s = .next t ∧ idle t ∧ SameBytes s t ∧
         (∀ j, j < 256 → ((t.core core).plate n).weight row.toNat j = signed 8 (byteOf w j) ∨
           (-31 ≤ ((t.core core).plate n).weight row.toNat j ∧ ((t.core core).plate n).weight row.toNat j ≤ 31 ∧
             row.toNat ∈ ((t.core core).plate n).badRows)) ∧
         ∀ i j, i ≠ row.toNat → ((t.core core).plate n).weight i j = p.weight i j)) ∧
     (x.trigger = some (.refix n, due) →
       (s.cycle < due → exec (.refixComplete core) s = .next s) ∧
       (due ≤ s.cycle → ∃ t, exec (.refixComplete core) s = .next t ∧ idle t ∧ ((t.core core).plate n).readAt = now ∧
         ((t.core core).plate n).drift = false ∧ ((t.core core).plate n).calWritten = false ∧
         ((t.core core).plate n).word 0 = BitVec.ofNat 64 now ∧ ((t.core core).plate n).w = p.w ∧
         (((t.core core).plate n).refixFailed = true ↔ 256 < ((t.core core).plate n).read) ∧ SameBytes s t)))

/-! ## Barriers, collectives, weight -/

/-- BAR (R135, R136): ARRIVE counts the arrival at the next phase and writes its number; WAIT and SYNC go on when the phase
is complete and park on it otherwise; DEPART leaves the barrier for good, and a second one traps OPERAND 6. A phase completes exactly when every member that
has not departed has arrived, and one has (R135, R136), once the tree's latency has passed since the last of these (R368): the barrier counts one more phase, and with it a member parked on
that phase is READY, or STOPPED at its trap as it was before. Until then, and for a member's GATHER record or SWAP first, it
does not complete. That it completes exactly at the tree's nominal latency is the model's choice, log entry 22; that all its members
see it in one step is log entry 104; a member of a handler is STOPPED again by log entry 84. -/
def Obligations.BarrierRules : Prop :=
  (∀ (s : State) (d a b : SReg) (dom : Domain) (ga sw : Bool), markOf s s.cur (s.ctx s.cur) dom = none →
     markOf s s.cur (me s) dom = none → (me s).bar dom = (s.ctx s.cur).bar dom →
     let k := s.cur
     let p := ((s.ctx k).bar dom).arrived
     let arrived (t : State) : Prop := ((t.ctx k).bar dom).arrived = p + 1 ∧ ((t.ctx k).bar dom).since = s.cycle ∧ ((t.ctx k).bar dom).swap = sw ∧
       ((t.ctx k).bar dom).gather = (if ga then some (rdS s b) else none) ∧
       (∀ r, (t.ctx k).rd r = if r = d ∧ d ≠ 0 then BitVec.ofNat 64 p else (s.ctx k).rd r) ∧
       (∀ e, e ≠ dom → (t.ctx k).bar e = (s.ctx k).bar e) ∧ (∀ j, j ≠ k → t.ctx j = s.ctx j) ∧ SameBytes s t
     (Runs (.barArrive d b dom ga sw) s → ∃ t, exec (.barArrive d b dom ga sw) s = .next t ∧ arrived t ∧ OnlyCtx k s t) ∧
     (Runs (.barSync d b dom ga sw) s → ∃ t, exec (.barSync d b dom ga sw) s = .next t ∧ arrived t ∧
       (¬ p < doneFor s k dom → (t.ctx k).status = .parked ∧ (t.ctx k).park = .barPhase dom p)) ∧
     (Runs (.barWait a dom) s → exec (.barWait a dom) s =
       .next (if (rdS s a).toNat < doneFor s k dom then s else park k (.barPhase dom (rdS s a).toNat) s)) ∧
     (Runs (.barDepart dom) s → ∃ t, exec (.barDepart dom) s = .next t ∧ OnlyCtx k s t ∧ ((t.ctx k).bar dom).departed = true ∧
       ((t.ctx k).bar dom).since = s.cycle ∧ ((t.ctx k).bar dom).arrived = p ∧ (∀ e, e ≠ dom → (t.ctx k).bar e = (s.ctx k).bar e) ∧ (t.ctx k).s = (s.ctx k).s)) ∧
  (∀ (s : State) (k : Nat) (c : Ctx) (dom : Domain), (c.bar dom).departed = true →
     valueTrap s k c (.barDepart dom) = some { cause := 0x02, sub := 6, addr := 0 }) ∧
  (∀ (s : State) (launch inst : Nat) (dom : Domain),
     let p := phasesDone s launch dom inst
     let ms := membersIn s launch dom inst
     (phaseReady s launch inst dom = false → exec (.barrierPhaseComplete launch inst dom) s = .next s) ∧
     (phaseReady s launch inst dom = true → (∀ k ∈ ms, ((s.ctx k).bar dom).gather = none ∧ ((s.ctx k).bar dom).gatherSeq = none ∧
         ((s.ctx k).bar dom).swap = false) → (∀ g ∈ goneIn s launch inst dom, (g.bars.get (domFin dom)).swap = false) →
       ∃ t, exec (.barrierPhaseComplete launch inst dom) s = .next t ∧ phasesDone t launch dom inst = p + 1 ∧
         (∀ l e i, (l, e, i) ≠ (launch, dom, inst) → phasesDone t l e i = phasesDone s l e i) ∧
         (∀ k ∈ ms, (s.ctx k).status = .parked → (s.ctx k).park = .barPhase dom p → groupOf s (launchOf s k) = launch →
           (t.ctx k).status = if (s.ctx k).h = true then .stopped else .ready) ∧
         (∀ k, (t.ctx k).s = (s.ctx k).s) ∧ SameBytes s t) ∧
     (allPlaced s launch dom = true → (phaseReady s launch inst dom = true ↔
       (∃ k ∈ ms, p < ((s.ctx k).bar dom).arrived) ∧ (∀ k ∈ ms, p < ((s.ctx k).bar dom).arrived ∨ ((s.ctx k).bar dom).departed = true) ∧
       (∀ k ∈ ms, ((s.ctx k).bar dom).since + treeLatency dom ≤ s.cycle) ∧
       ∀ b ∈ goneParts s launch inst dom, b.since + treeLatency dom ≤ s.cycle)) ∧
     (∀ k v, (gatherRow s [k] []) = v → ∀ i, i < 16 → lane 64 v i = (vget (s.ctx k).evc i).toNat))

/-- NRED (R141, R142, R369): a contribution opens the round of its group at its domain, or joins the open one, and its
destination is pending; a complete round of any number of contributions lands its result at every member. The result is the
sum, an extreme, the bitwise form, or the value of the lowest context, of all of them; MERGEK's row is the first 16 entries of the
union in order of key and index, then empty ones; two operations in one round land poison OPERAND. Termination weight (R139, R332):
WSPLIT halves wgt, the odd unit staying, and borrows 2^20 units at the root first when it is 1; WRETURN sends units to the root;
WSPLIT.ADD adds them. An arriving return lowers the root's count by its units, and the phase ends once, when the count is at
or below 0. That a round lands exactly the tree's nominal latency after its last contribution is the model's choice, log entry
22; that it lands at every member in one step is log entry 104; the order of NaN keys with one index is log entry 105. -/
def Obligations.CollectivesAndWeight : Prop :=
  ((∀ (s : State) (d a b : SReg) (dom : Domain) (op : NredOp), d ≠ 0 → Runs (.nred d a b dom op) s →
     let k := s.cur
     let same (r : Round) : Prop := r.launch = groupOf s (launchOf s k) ∧ r.dom = dom ∧ r.inst = domInst dom (coreOf k)
     let joins (parts : List Contribution) : Prop := ∃ t x, exec (.nred d a b dom op) s = .next t ∧
       t.rounds = [⟨groupOf s (launchOf s k), dom, domInst dom (coreOf k), parts ++ [x], s.cycle + treeLatency dom⟩] ∧ x.ctx = k ∧
       x.op = op ∧ x.merge = false ∧ x.value = rdS s a ∧ x.payload = (rdS s b).truncate 32 ∧ (t.ctx k).pending d = true ∧
       (t.ctx k).nredBusy.getLsbD (domCode dom) = true ∧ (t.ctx k).s = (s.ctx k).s ∧ SameBytes s t
     (s.rounds = [] → joins []) ∧ (∀ r, s.rounds = [r] → same r → joins r.parts)) ∧
   (∀ (s : State) (t u : TReg) (row : BitVec 4) (dom : Domain) (td us : Nat), Runs (.nredMergek t u row dom) s →
     keyOf s s.cur (me s) (t, row.toNat) = some td → keyOf s s.cur (me s) (u, row.toNat) = some us →
     let same (r : Round) : Prop := r.launch = groupOf s (launchOf s s.cur) ∧ r.dom = dom ∧ r.inst = domInst dom (coreOf s.cur)
     let joins (parts : List Contribution) : Prop := ∃ v x, exec (.nredMergek t u row dom) s = .next v ∧
       v.rounds = [⟨groupOf s (launchOf s s.cur), dom, domInst dom (coreOf s.cur), parts ++ [x], s.cycle + treeLatency dom⟩] ∧
       x.merge = true ∧ x.row = rowData s s.cur us ∧ x.dest = .row td ∧ ((v.core (coreOf s.cur)).row td).pend ≠ 0 ∧ SameBytes s v
     (s.rounds = [] → joins []) ∧ (∀ r, s.rounds = [r] → same r → joins r.parts)) ∧
   (∀ (s : State) (launch inst : Nat) (dom : Domain) (r : Round) (op : NredOp), s.rounds = [r] → r.launch = launch → r.inst = inst →
     r.dom = dom → op ≠ .maxkey → (r.parts.map (·.ctx)).Nodup →
     (∀ p ∈ r.parts, p.merge = false ∧ p.op = op ∧ (∃ d, d ≠ 0 ∧ p.dest = .reg d 8 true) ∧ groupOf s (launchOf s p.ctx) = launch ∧
       (s.ctx p.ctx).status ≠ .idle ∧ ∀ w, (s.ctx p.ctx).park ≠ .wfi w) →
     (roundReady s r = false ∨ s.cycle < r.due → exec (.nredRoundLand launch inst dom) s = .next s) ∧
     (roundReady s r = true → r.due ≤ s.cycle → ∃ t, exec (.nredRoundLand launch inst dom) s = .next t ∧ t.rounds = [] ∧
       (∀ p ∈ r.parts, ∀ d, p.dest = .reg d 8 true → (t.ctx p.ctx).rd d = (treeResult op r.parts).1 ∧
         (t.ctx p.ctx).pending d = false ∧ (t.ctx p.ctx).nredBusy.getLsbD (domCode dom) = false) ∧ SameBytes s t)) ∧
   ([Domain.core, .cell, .bay, .court, .pav, .die, .pkg, .sys].map treeLatency = [4, 8, 12, 20, 30, 60, 150, 6000]) ∧
   (∀ ps : List Contribution,
     (treeResult .sum64 ps).1 = (ps.map (·.value)).sum ∧
     (∀ i, i < 64 → (treeResult .and ps).1.getLsbD i = ps.all (·.value.getLsbD i) ∧
       (treeResult .or ps).1.getLsbD i = ps.any (·.value.getLsbD i)) ∧
     (ps ≠ [] →
       (∃ p ∈ ps, (treeResult .max ps).1 = p.value ∧ ∀ q ∈ ps, q.value.toInt ≤ p.value.toInt) ∧
       (∃ p ∈ ps, (treeResult .min ps).1 = p.value ∧ ∀ q ∈ ps, p.value.toInt ≤ q.value.toInt) ∧
       (∃ p ∈ ps, (treeResult .bcast ps).1 = p.value ∧ ∀ q ∈ ps, p.ctx ≤ q.ctx) ∧
       (∃ p ∈ ps, treeResult .maxkey ps = (p.value, p.payload) ∧
         ∀ q ∈ ps, q.value.toInt < p.value.toInt ∨ q.value = p.value ∧ p.payload.toNat ≤ q.payload.toNat))) ∧
   (∀ (rows : List RowData),
     let live := (rows.flatMap fun r => (upTo 16).map (lane 64 r)).filter fun e => e / 2 ^ 32 ≠ 0xFFFFFFFF
     ∃ sorted : List Nat, sorted.Perm live ∧ sorted.Pairwise (fun a b => entryBefore b a = false) ∧
       ∀ i, i < 16 → (i < sorted.length → lane 64 (mergeRows rows) i = sorted.getD i 0) ∧
         (sorted.length ≤ i → lane 64 (mergeRows rows) i / 2 ^ 32 = 0xFFFFFFFF)) ∧
   (∀ a b : Nat, keyRank (a % 2 ^ 32) ≠ keyRank (b % 2 ^ 32) ∨ a / 2 ^ 32 ≠ b / 2 ^ 32 →
     (entryBefore a b = true ↔ keyRank (b % 2 ^ 32) < keyRank (a % 2 ^ 32) ∨
       keyRank (a % 2 ^ 32) = keyRank (b % 2 ^ 32) ∧ a / 2 ^ 32 < b / 2 ^ 32)) ∧
   (∀ x : Nat, x < 2 ^ 31 → (x ≤ 0x7F800000 → keyRank x = x ∧ keyRank (2 ^ 31 + x) = -(x : Int) - 1) ∧
     (0x7F800000 < x → keyRank x < keyRank 0xFF800000 ∧ keyRank (2 ^ 31 + x) = keyRank x)) ∧
   (∀ (r : Round) (p : Contribution) (key : Nat), p ∈ r.parts → (∀ q ∈ r.parts, q.merge = true) → p.dest = .row key →
     (r.parts.map (·.ctx)).Nodup → ∃ rows, rows.Perm (r.parts.map (·.row)) ∧
       (treeLanding r p).rows = [(key, { data := mergeRows rows })] ∧ (treeLanding r p).poison = none) ∧
   (∀ (r : Round) (p x y : Contribution), x ∈ r.parts → y ∈ r.parts → x.merge = false → y.merge = false → x.op ≠ y.op →
     (treeLanding r p).poison = some ⟨0x02, 0⟩)) ∧
  ((∀ (s : State) (d a : SReg) (l : Nat) (x root : Launch), (s.ctx s.cur).launch = some l → find? s.launches l = some x →
     find? s.launches (groupOf s l) = some root →
     let k := s.cur
     let w := (s.ctx k).wgt
     (Runs (.wsplit d) s → 2 ≤ w.toNat → ∃ t, exec (.wsplit d) s = .next t ∧ OnlyCtx k s t ∧
       ((s.ctx k).running = none → ∀ r, (t.ctx k).rd r = if r = d ∧ d ≠ 0 then BitVec.ofNat 64 (w.toNat / 2) else (s.ctx k).rd r) ∧
       (t.ctx k).wgt.toNat + w.toNat / 2 = w.toNat) ∧
     (Runs (.wsplit d) s → w = 1 → d ≠ 0 → ∃ t y z, exec (.wsplit d) s = .next t ∧ find? t.launches (groupOf s l) = some y ∧
       y.outstanding = signed64 (root.outstanding + 2 ^ 20) ∧ y.returns = root.returns ∧
       (t.ctx k).landings = (s.ctx k).landings ++ [z] ∧
       z.regs = [(d, BitVec.ofNat 64 (2 ^ 19))] ∧ (t.ctx k).wgt.toNat = 2 ^ 19 + 1 ∧ (t.ctx k).pending d = true) ∧
     (Runs (.wreturn 0) s → ∃ t y, exec (.wreturn 0) s = .next t ∧ (t.ctx k).wgt = 0 ∧ find? t.launches l = some y ∧
       y.returns = x.returns ++ [(w.toNat : Int)] ∧ (t.ctx k).s = (s.ctx k).s) ∧
     (Runs (.wreturn a) s → a ≠ 0 → ∃ t y, exec (.wreturn a) s = .next t ∧ t.ctxs = s.ctxs ∧ find? t.launches l = some y ∧
       y.returns = x.returns ++ [((rdS s a).toNat : Int)]) ∧
     (Runs (.wsplitAdd a) s → w.toNat + (rdS s a).toNat < 2 ^ 63 → ∃ t, exec (.wsplitAdd a) s = .next t ∧ OnlyCtx k s t ∧
       (t.ctx k).wgt.toNat = w.toNat + (rdS s a).toNat ∧ (t.ctx k).s = (s.ctx k).s)) ∧
   (∀ (s : State) (l : Nat) (x root : Launch) (u : Int) (rest : List Int), find? s.launches l = some x →
     find? s.launches (groupOf s l) = some root → x.returns = u :: rest → root.w.get 29 = 0 →
     ∃ t y z, exec (.weightReturnArrive l) s = .next t ∧ find? t.launches (groupOf s l) = some y ∧ find? t.launches l = some z ∧
       z.returns = rest ∧ y.outstanding = signed64 (root.outstanding - u) ∧
       (y.phaseEnded = true ↔ root.phaseEnded = true ∨ 0 ≤ u ∧ signed64 (root.outstanding - u) ≤ 0) ∧ SameBytes s t))

/-! ## Rows and the joint array -/

/-- Every row instruction (VADD, VSUB, VMUL, VFMA, VMIN, VMAX, VABS, VNEG, VNABS, VLOGIC, VSHIFT, VCMP, VSEL, VCVT, VPACK,
VUNPK, VRED, VBCAST, VSCALE, VEXP2, VLOG2, VRCP, VRSQRT, VPERM, VSCAN, VSRCH, VMIX, VIOTA, TMOV, TZERO, TTRANS, TOPK,
TCOLRED, TFIX, TBND.RD, TBND.SET; R27, R169, R194) completes: it joins its core's dispatch queue with the results of its
source rows as they stand; its destination rows and register are pending, no row's data changes yet, and no memory byte and
no other register changes. The queue's head then starts group by group, each in a free lane group of its cell that the
arbiter grants its core (R195, R196) in a cycle in which the governor lets lane groups start (R414): the lane group is taken
for the group's cycles, and the group is on its way, due 5 cycles after them. How the arbiter chooses is the model's choice, log entry 78. -/
def Obligations.RowInstructionsIssue : Prop :=
  (∀ (i : Instr) (s : State), isRowInstr i = true → Runs i s →
    let k := s.cur
    let r := rowRes s k (me s) i
    ∃ t d, exec i s = .next t ∧ (t.core (coreOf k)).queue = (s.core (coreOf k)).queue ++ [d] ∧ d.ctx = k ∧ d.flags = r.fl ∧
      d.units = r.units.map (fun u => u.filterMap fun p => (keyOf s k (me s) p.1).map fun key => (key, p.2)) ∧
      d.regs = r.reg.toList ∧ (∀ u ∈ d.units, ∀ p ∈ u, ((t.core (coreOf k)).row p.1).pend ≠ 0) ∧
      (∀ p ∈ d.regs, p.1 ≠ 0 → (t.ctx k).pending p.1 = true) ∧
      (∀ key, ((t.core (coreOf k)).row key).data = ((s.core (coreOf k)).row key).data ∧
        ((t.core (coreOf k)).row key).b = ((s.core (coreOf k)).row key).b ∧ ((t.core (coreOf k)).row key).e = ((s.core (coreOf k)).row key).e) ∧
      (t.ctx k).s = (s.ctx k).s ∧ (t.ctx k).c = (s.ctx k).c ∧ (t.ctx k).fflags = (s.ctx k).fflags ∧ (t.ctx k).pc = (s.ctx k).pc ∧
      (∀ j, j ≠ k → t.ctx j = s.ctx j) ∧ (∀ c, c ≠ coreOf k → t.core c = s.core c) ∧ SameBytes s t) ∧
  (∀ (s : State) (core : Nat) (d : Dispatch) (rest : List Dispatch) (u : List (Nat × Row)) (us : List (List (Nat × Row))) (g : Fin 4),
    (s.core core).queue = d :: rest → d.units = u :: us → freeLane s (core / 4) = some g →
    mayStart s (pkgOf core) 2 (core / 4) = true → grantee s (core / 4) = some (core % 4) →
    ∃ t l, exec (.rowStart core) s = .next t ∧ (t.ctx d.ctx).landings = (s.ctx d.ctx).landings ++ [l] ∧ l.rows = u ∧
      l.due = s.cycle + d.cycles + 5 ∧ l.regs = (if us = [] then d.regs else []) ∧ l.flags = (if us = [] then d.flags else 0) ∧
      (t.core core).queue = (if us = [] then rest else { d with
        units := us } :: rest) ∧ (t.cell (core / 4)).lanes.get g = s.cycle + d.cycles ∧
      (∀ i, i ≠ g → (t.cell (core / 4)).lanes.get i = (s.cell (core / 4)).lanes.get i) ∧
      (t.ctx d.ctx).s = (s.ctx d.ctx).s ∧ SameBytes s t) ∧
  (∀ (s : State) (core : Nat), (s.core core).queue = [] ∨ freeLane s (core / 4) = none → exec (.rowStart core) s = .next s) ∧
  (∀ (s : State) (core : Nat) (d : Dispatch) (rest : List Dispatch), (s.core core).queue = d :: rest → d.units ≠ [] →
    mayStart s (pkgOf core) 2 (core / 4) = false → exec (.rowStart core) s = .next s) ∧
  (∀ (s : State) (core : Nat) (d : Dispatch) (rest : List Dispatch), (s.core core).queue = d :: rest → d.units ≠ [] →
    grantee s (core / 4) ≠ some (core % 4) → exec (.rowStart core) s = .next s) ∧
  (∀ (s : State) (cell i : Nat), (grantee s cell = some i → i < 4 ∧ (s.core (4 * cell + i)).queue ≠ []) ∧
    (grantee s cell = none → ∀ j, j < 4 → (s.cell cell).turn < 4 → (s.core (4 * cell + j)).queue = [])) ∧
  (∀ (s : State) (cell : Nat) (g : Fin 4), freeLane s cell = some g → (s.cell cell).lanes.get g ≤ s.cycle)

/-- The rows of the integer, bitwise and moving instructions (R171 to R193), lane by lane, for one row or all 16: their type's
arithmetic modulo 2^w, signs and shifts, the comparison masks, the selections and permutations, the moves of a row, VIOTA's and
VMIX's rows, the scans, searches and reductions of integer lanes in index order, the transposition, TOPK's ranks with their
values, and the blocks of VPACK and VUNPK. That TOPK reads a subnormal as a zero under FTZ follows R38 and R169 (log entry 63). -/
def Obligations.RowValues : Prop :=
  ∀ (s : State) (k : Nat) (c : Ctx) (g : Guard) (d a b : TReg) (sa : SReg) (r : Rows) (y : LaneType),
    let w := laneBits y
    let A (i j : Nat) : Nat := lane w (rowAt s k c a i).data j
    let B (i j : Nat) : Nat := lane w (rowAt s k c b i).data j
    let D (i j : Nat) : Nat := lane w (rowAt s k c d i).data j
    let lanes (i : Instr) (f : Nat → Nat → Nat) : Prop := ∃ o : Nat → Row, (rowRes s k c i).units = (rowsOf r).map (fun n => [((d, n), o n)]) ∧
      ∀ n j, n ∈ rowsOf r → j < laneCount y → lane w (o n).data j = f n j
    let whole (i : Instr) (f : Nat → Row) : Prop := (rowRes s k c i).units = (rowsOf r).map (fun n => [((d, n), f n)])
    let ones : Nat := 2 ^ w - 1
    let N := laneCount y
    let M := if r.w then 16 * N else N
    let S (q : Nat) : Nat := if r.w then A (q / N) (q % N) else A r.row.toNat q
    let pos (n j : Nat) : Nat := (if r.w then n * N else 0) + j
    let ftz := c.mode.getLsbD 3
    (y.int = true →
      lanes (.vadd g d a b r y) (fun n j => (A n j + B n j) % 2 ^ w) ∧
      lanes (.vsub g d a b r y) (fun n j => (A n j + (2 ^ w - B n j)) % 2 ^ w) ∧
      lanes (.vmul g d a b r y) (fun n j => A n j * B n j % 2 ^ w) ∧
      lanes (.vfma g d a b r y) (fun n j => (A n j * B n j + D n j) % 2 ^ w) ∧
      lanes (.vmin g d a b r y) (fun n j => if laneInt y (B n j) < laneInt y (A n j) then B n j else A n j) ∧
      lanes (.vmax g d a b r y) (fun n j => if laneInt y (A n j) < laneInt y (B n j) then B n j else A n j) ∧
      lanes (.vneg g d a r y) (fun n j => (2 ^ w - A n j) % 2 ^ w) ∧
      lanes (.vcmp g d a b r true y) (fun n j => if laneInt y (A n j) < laneInt y (B n j) then ones else 0) ∧
      lanes (.vcmp g d a b r false y) (fun n j => if A n j = B n j then ones else 0)) ∧
    lanes (.vsel g d a b r y) (fun n j => if D n j ≠ 0 then A n j else B n j) ∧
    lanes (.vperm g d a b r y) (fun n j => if B n j < laneCount y then A n (B n j) else 0) ∧
    lanes (.vbcast g d sa r y) (fun _ _ => (c.rd sa).toNat % 2 ^ w) ∧
    (∀ op, whole (.vlogic g d a b r op) fun n =>
      let x := (rowAt s k c a n).data
      let z := (rowAt s k c b n).data
      { data := match op with
        | .and => x &&& z
        | .or => x ||| z
        | .xor => x ^^^ z
        | .andn => x &&& ~~~ z
        | .not => ~~~ x }) ∧
    whole (.tzero g d r) (fun _ => {}) ∧
    whole (.tmov g d a r) (fun n => { rowAt s k c a n with
      pend := 0, poison := none, bad := 0 }) ∧
    whole (.tfix g d a r y) (fun n => { data := (rowAt s k c a n).data }) ∧
    whole (.tbndSet g d sa r y) (fun n =>
      let x := rowAt s k c d n
      let v : Byte := (c.rd sa).truncate 8
      { data := x.data, b := true, e := if x.b = true ∧ v.toNat < x.e.toNat then x.e else v }) ∧
    (∀ x row, (rowRes s k c (.tbndRd g x a row y)).reg = some (x, BitVec.ofNat 64
      ((if (rowAt s k c a row.toNat).b then 256 else 0) + (rowAt s k c a row.toNat).e.toNat))) ∧
    -- signs, shifts, the index and the counter rows
    (y.int = true →
      lanes (.vabs g d a r y) (fun n j => (laneInt y (A n j)).natAbs % 2 ^ w) ∧
      lanes (.vnabs g d a r y) (fun n j => (2 ^ w - (laneInt y (A n j)).natAbs) % 2 ^ w) ∧
      lanes (.vshift g d a b r y) (fun n j =>
        let m := signed w (B n j)
        if 0 ≤ m then (if w ≤ m.toNat then 0 else A n j * 2 ^ m.toNat % 2 ^ w)
        else wrap w (laneInt y (A n j) / ((2 ^ m.natAbs : Nat) : Int)))) ∧
    (y.flt = true →
      lanes (.vabs g d a r y) (fun n j => A n j % 2 ^ (w - 1)) ∧
      lanes (.vneg g d a r y) (fun n j => (A n j + 2 ^ (w - 1)) % 2 ^ w) ∧
      lanes (.vnabs g d a r y) (fun n j => A n j % 2 ^ (w - 1) + 2 ^ (w - 1))) ∧
    (∀ h : BitVec 2,
      let sh := if h.toNat = 3 then 16 else 4 * h.toNat
      lanes (.viota g d sa false h r y) (fun n j => ((c.rd sa).toNat + pos n j * 2 ^ sh) % 2 ^ w) ∧
      ∃ o : Nat → Row, (rowRes s k c (.viota g d sa true h r y)).units = (rowsOf r).map (fun n => [((d, n), o n)]) ∧
        ∀ n j, n ∈ rowsOf r → j < 16 → lane 64 (o n).data j = ((c.rd sa).toNat + (j + if r.w then 16 * n else 0) * 2 ^ sh) % 2 ^ 64) ∧
    (∃ o : LaneType → Nat → Row,
      let mixed (n j : Nat) : Word :=
        let z0 : Word := BitVec.ofNat 64 (lane 64 (rowAt s k c b n).data j) + BitVec.ofNat 64 (lane 64 (rowAt s k c a n).data j) * 0xA5C31F6E7D294B87
        let z1 := (z0 ^^^ (z0 >>> 31)) * 0xE3B16C5A09F7D24D
        let z2 := (z1 ^^^ (z1 >>> 29)) * 0xA5C31F6E7D294B87
        z2 ^^^ (z2 >>> 32)
      (∀ u, (rowRes s k c (.vmix g d a b r u)).units = (rowsOf r).map (fun n => [((d, n), o u n)])) ∧
      ∀ n j, n ∈ rowsOf r → j < 16 → lane 64 (o .u32 n).data j = (mixed n j).toNat ∧ lane 32 (o .f32 n).data (2 * j + 1) = 0 ∧
        lane 32 (o .f32 n).data (2 * j) =
          (if (mixed n j).toNat / 2 ^ 40 = 0 then 0 else (round fp32 .rne false false ((mixed n j).toNat / 2 ^ 40) (-24)).bits)) ∧
    -- scans, searches and reductions of integer lanes, in index order
    (y.int = true →
      lanes (.vscan g d a .sum r y) (fun n j => ((upTo (pos n j + 1)).map S).sum % 2 ^ w) ∧
      lanes (.vscan g d a .xsum r y) (fun n j => ((upTo (pos n j)).map S).sum % 2 ^ w) ∧
      (∃ o : Nat → Row, (rowRes s k c (.vscan g d a .max r y)).units = (rowsOf r).map (fun n => [((d, n), o n)]) ∧
        ∀ n j, n ∈ rowsOf r → j < N → (∃ q, q ≤ pos n j ∧ lane w (o n).data j = S q) ∧
          ∀ q, q ≤ pos n j → laneInt y (S q) ≤ laneInt y (lane w (o n).data j)) ∧
      lanes (.vsrch g d a b r y) (fun n j => ((upTo M).countP fun q => laneInt y (S q) < laneInt y (B n j)) % 2 ^ w) ∧
      (∀ x, (rowRes s k c (.vred g x a .sum r y)).reg = some (x, BitVec.ofInt 64 ((upTo M).map fun q => laneInt y (S q)).sum)) ∧
      (∀ x, ∃ q, q < M ∧ (rowRes s k c (.vred g x a .max r y)).reg = some (x, BitVec.ofInt 64 (laneInt y (S q))) ∧
        ∀ p, p < M → laneInt y (S p) ≤ laneInt y (S q)) ∧
      (∀ x, ∃ q, q < M ∧ (rowRes s k c (.vred g x a .min r y)).reg = some (x, BitVec.ofInt 64 (laneInt y (S q))) ∧
        ∀ p, p < M → laneInt y (S q) ≤ laneInt y (S p)) ∧
      (∀ x, ∃ q, q < M ∧ (rowRes s k c (.vred g x a .argmax r y)).reg = some (x, BitVec.ofNat 64 q) ∧
        (∀ p, p < M → laneInt y (S p) ≤ laneInt y (S q)) ∧ ∀ p, p < q → laneInt y (S p) < laneInt y (S q)) ∧
      ∀ row, ∃ o : ColOp → Row, (∀ op, (rowRes s k c (.tcolred g d a op row y)).units = [[((d, row.toNat), o op)]]) ∧ ∀ j, j < N →
        lane w (o .sum).data j = ((upTo 16).map fun i => A i j).sum % 2 ^ w ∧
        (∃ i, i < 16 ∧ lane w (o .max).data j = A i j) ∧ (∀ i, i < 16 → laneInt y (A i j) ≤ laneInt y (lane w (o .max).data j)) ∧
        (∃ i, i < 16 ∧ lane w (o .min).data j = A i j) ∧ ∀ i, i < 16 → laneInt y (lane w (o .min).data j) ≤ laneInt y (A i j)) ∧
    (∃ o : Nat → Row, (rowRes s k c (.ttrans g d a y)).units = [(upTo 16).map fun n => ((d, n), o n)] ∧
      ∀ n h j, n < 16 → h < N / 16 → j < 16 → lane w (o n).data (16 * h + j) = A j (16 * h + n)) ∧
    -- TOPK: column x, rows of the group by rank
    (∀ (kk : BitVec 4) (grp : GroupSize) (e : TopkType), ∃ od ob : Nat → Row,
      let L := 16 * grp.tiles
      let raw (x q : Nat) : Nat := lane 32 (rowAt s k c (a + BitVec.ofNat 4 (q / 16)) (q % 16)).data x
      let V (x q : Nat) : Nat := if e = .f32 ∧ ftz = true ∧ raw x q / 2 ^ 23 % 256 = 0 then raw x q / 2 ^ 31 % 2 * 2 ^ 31 else raw x q
      let before (x p q : Nat) : Prop := topKey e (V x q) < topKey e (V x p) ∨ topKey e (V x p) = topKey e (V x q) ∧ p < q
      (rowRes s k c (.topk g d a b kk grp e)).units = [(upTo 16).map (fun n => ((d, n), od n)) ++ (upTo 16).map fun n => ((b, n), ob n)] ∧
      ∀ x, x < 32 → ∃ rank : Nat → Nat,
        (∀ i, i ≤ kk.toNat → rank i < L ∧ lane 32 (od i).data x = rank i ∧ lane 32 (ob i).data x = V x (rank i)) ∧
        (∀ i j, i < j → j ≤ kk.toNat → before x (rank i) (rank j)) ∧
        (∀ q, q < L → (∀ i, i ≤ kk.toNat → rank i ≠ q) → before x (rank kk.toNat) q) ∧
        ∀ i, kk.toNat < i → i < 16 → lane 32 (od i).data x = 0xFFFFFFFF ∧ lane 32 (ob i).data x = 0) ∧
    -- blocks of 32 FP32 lanes (R45, R47)
    (∀ m : BitVec 4,
      let cb := containerBits m.toNat
      let block (i : Nat) : Nat × List Int × Nat × Flags5 := packBfp m.toNat ftz ((upTo 32).map fun j => lane 32 (rowAt s k c a i).data j)
      let bits (i : Nat) : Nat := ((upTo 32).map fun j => wrap cb ((block i).2.1.getD j 0) * 2 ^ (cb * j)).sum
      let tile : Nat := ((upTo 16).map fun i => bits i * 2 ^ (32 * cb * i)).sum
      let from_ : Nat := ((upTo (cb / 2)).map fun i => (rowAt s k c a i).data.toNat * 2 ^ (1024 * i)).sum
      (r.w = false → (rowRes s k c (.vpack g d a b r m)).units = [[((d, r.row.toNat), { data := BitVec.ofNat 1024 (bits r.row.toNat) }),
        ((b, r.row.toNat), { data := BitVec.ofNat 1024 (block r.row.toNat).1 })]]) ∧
      (r.w = true → ∃ ex : RowData, (rowRes s k c (.vpack g d a b r m)).units.flatten =
          (upTo 16).map (fun i => ((d, i), { data := BitVec.ofNat 1024 (tile / 2 ^ (1024 * i)) })) ++ [((b, 0), { data := ex })] ∧
        ∀ i, i < 128 → lane 8 ex i = if i < 16 then (block i).1 % 256 else 0) ∧
      ∃ o : Nat → Row, (rowRes s k c (.vunpk g d a b r m)).units = (rowsOf r).map (fun n => [((d, n), o n)]) ∧
        ∀ n j, n ∈ rowsOf r → j < 32 →
          lane 32 (o n).data j = (unpackBfp m.toNat (rmOf (c.mode.extractLsb' 4 2)) ftz
            (if r.w then lane 8 (rowAt s k c b 0).data n else lane 8 (rowAt s k c b n).data 0)
            (signed m.toNat ((if r.w then from_ / 2 ^ (32 * cb * n) else (rowAt s k c a n).data.toNat) / 2 ^ (cb * j)))).bits % 2 ^ 32)

/-- The rows of the float instructions and of scaling, conversion and reduction, lane by lane. For the exact types each
lane is the correctly rounded scalar operation of its format under the context's rounding mode and flush (R34 to R42, R171,
R175, R181, R182, R185); the flags of a row are those of all its lanes. Scans accumulate lane by lane in FP32 (R184), and
sums are those of the pairwise tree (R179, R191). VCVT between any two exact types (R177, R42): lanes beyond the source's are
zeros. The bounded forms (R56, R57): RNE without flush; the row's tag is exact when no source is bounded, unbounded when a lane is
infinite or NaN, else the bound of the largest lane error: the propagated error and the rounding's. -/
def Obligations.FloatRowValues : Prop :=
  (∀ (s : State) (k : Nat) (c : Ctx) (g : Guard) (d a b : TReg) (r : Rows) (y : LaneType) (t : Fmt),
    laneFmt y = some t → y.flt = true →
    let w := laneBits y
    let A (i j : Nat) : Nat := lane w (rowAt s k c a i).data j
    let B (i j : Nat) : Nat := lane w (rowAt s k c b i).data j
    let D (i j : Nat) : Nat := lane w (rowAt s k c d i).data j
    let rm := rmOf (c.mode.extractLsb' 4 2)
    let ftz := c.mode.getLsbD 3
    let lanes (i : Instr) (f : Nat → Nat → FR) : Prop := ∃ o : Nat → Row, (rowRes s k c i).units = (rowsOf r).map (fun n => [((d, n), o n)]) ∧
      (∀ n j, n ∈ rowsOf r → j < laneCount y → lane w (o n).data j = (f n j).bits % 2 ^ w) ∧
      ∀ bit, bit < 5 → ((rowRes s k c i).fl.getLsbD bit = true ↔
        ∃ n j, n ∈ rowsOf r ∧ j < laneCount y ∧ (f n j).fl.getLsbD bit = true)
    lanes (.vadd g d a b r y) (fun n j => fadd t rm ftz (A n j) (B n j)) ∧
    lanes (.vsub g d a b r y) (fun n j => fsub t rm ftz (A n j) (B n j)) ∧
    lanes (.vmul g d a b r y) (fun n j => fmul t rm ftz (A n j) (B n j)) ∧
    lanes (.vfma g d a b r y) (fun n j => ffma t rm ftz (A n j) (B n j) (D n j)) ∧
    lanes (.vmin g d a b r y) (fun n j => fminmax t ftz false (A n j) (B n j)) ∧
    lanes (.vmax g d a b r y) (fun n j => fminmax t ftz true (A n j) (B n j)) ∧
    lanes (.vscale g d a b r y) (fun n j => scaleLane t rm ftz (A n j) (signed w (B n j))) ∧
    lanes (.vexp2 g d a r y) (fun n j => exp2 t ftz (A n j)) ∧ lanes (.vlog2 g d a r y) (fun n j => log2 t ftz (A n j)) ∧
    lanes (.vrcp g d a r y) (fun n j => rcp t ftz (A n j)) ∧ lanes (.vrsqrt g d a r y) (fun n j => rsqrt t ftz (A n j)) ∧
    lanes (.vcvt g d a y r y) (fun n j => convert t t rm ftz (A n j)) ∧
    let N := laneCount y
    let M := if r.w then 16 * N else N
    let S (q : Nat) : Nat := if r.w then A (q / N) (q % N) else A r.row.toNat q
    let pos (n j : Nat) : Nat := (if r.w then n * N else 0) + j
    let V (x : Nat) : FV := unpack t ftz x
    let W (x : Nat) : FR := widen t ftz x
    let shown (op : ScanOp) (f : Nat → Nat) : Prop := ∃ o : Nat → Row,
      (rowRes s k c (.vscan g d a op r y)).units = (rowsOf r).map (fun n => [((d, n), o n)]) ∧
      ∀ n j, n ∈ rowsOf r → j < N → lane w (o n).data j = f (pos n j) % 2 ^ w
    lanes (.vcmp g d a b r true y) (fun n j => ⟨if ltV (V (A n j)) (V (B n j)) then 2 ^ w - 1 else 0, cmpFlags (V (A n j)) (V (B n j)) true⟩) ∧
    lanes (.vcmp g d a b r false y) (fun n j => ⟨if eqV (V (A n j)) (V (B n j)) then 2 ^ w - 1 else 0, cmpFlags (V (A n j)) (V (B n j)) false⟩) ∧
    lanes (.vsrch g d a b r y) (fun n j => ⟨(upTo M).countP fun q => ltV (V (S q)) (V (B n j)),
      if ((V (B n j)).isNan || (upTo M).any fun q => (V (S q)).isNan) = true then flNV else 0⟩) ∧
    (∃ acc top : Nat → Nat, acc 0 = (fadd fp32 .rne ftz 0 (W (S 0)).bits).bits ∧ (∀ q, acc (q + 1) = (fadd fp32 .rne ftz (acc q) (W (S (q + 1))).bits).bits) ∧
      top 0 = (fminmax t ftz true t.nan (S 0)).bits ∧ (∀ q, top (q + 1) = (fminmax t ftz true (top q) (S (q + 1))).bits) ∧
      shown .sum (fun q => (convert fp32 t .rne ftz (acc q)).bits) ∧
      shown .xsum (fun q => if q = 0 then 0 else (convert fp32 t .rne ftz (acc (q - 1))).bits) ∧ shown .max top) ∧
    (∀ x, (rowRes s k c (.vred g x a .sum r y)).reg = some (x, BitVec.ofNat 64
      (treeSum 5 ((rowsOf r).map fun i => treeSum 8 ((upTo N).map fun j => W (A i j)) ftz) ftz).bits)) ∧
    (∀ x, ∃ q, q < M ∧ (rowRes s k c (.vred g x a .argmax r y)).reg = some (x, BitVec.ofNat 64 q) ∧
      (∀ p, p < M → rank32 (W (S p)).bits ≤ rank32 (W (S q)).bits) ∧ ∀ p, p < q → rank32 (W (S p)).bits < rank32 (W (S q)).bits) ∧
    ∀ row, ∃ o : Row, (rowRes s k c (.tcolred g d a .sum row y)).units = [[((d, row.toNat), o)]] ∧ ∀ j, j < N →
      lane w o.data j = (convert fp32 t .rne ftz (treeSum 5 ((upTo 16).map fun i => W (A i j)) ftz).bits).bits % 2 ^ w) ∧
  (∀ (s : State) (k : Nat) (c : Ctx) (g : Guard) (d a : TReg) (r : Rows) (src dst : LaneType), src.bounded = false → dst.bounded = false →
    let wd := laneBits dst
    let rm := rmOf (c.mode.extractLsb' 4 2)
    let ftz := c.mode.getLsbD 3
    let lo : Int := if laneSigned dst then -(2 ^ (wd - 1) : Nat) else 0
    let hi : Int := if laneSigned dst then (2 ^ (wd - 1) : Nat) - 1 else (2 ^ wd : Nat) - 1
    let value (x : Nat) : Nat := match laneFmt src, laneFmt dst with
      | some p, some q => (convert p q rm ftz x).bits % 2 ^ wd
      | some p, none => (match unpack p ftz x with
          | .nan _ => 0
          | .inf n => wrap wd (if n then lo else hi)
          | .fin n m e => wrap wd (max lo (min hi (roundToInt rm n m e).1)))
      | none, some q => (roundInt q rm ftz false (laneInt src x) 0).bits % 2 ^ wd
      | none, none => wrap wd (max lo (min hi (laneInt src x)))
    ∃ o : Nat → Row, (rowRes s k c (.vcvt g d a dst r src)).units = (rowsOf r).map (fun n => [((d, n), o n)]) ∧
      ∀ n j, n ∈ rowsOf r → j < laneCount dst → lane wd (o n).data j =
        if j < laneCount src then value (lane (laneBits src) (rowAt s k c a n).data j) else 0) ∧
  (∀ (s : State) (k : Nat) (c : Ctx) (g : Guard) (d a b : TReg) (r : Rows) (y x : LaneType) (t u : Fmt), y.bounded = true →
    x.bounded = true → laneFmt y = some t → laneFmt x = some u →
    let w := laneBits y
    let N := laneCount y
    let Ra (n : Nat) : Row := rowAt s k c a n
    let Rb (n : Nat) : Row := rowAt s k c b n
    let Rd (n : Nat) : Row := rowAt s k c d n
    let A (n j : Nat) : Nat := lane w (Ra n).data j
    let B (n j : Nat) : Nat := lane w (Rb n).data j
    let D (n j : Nat) : Nat := lane w (Rd n).data j
    let δ (row : Row) : ℚ := if row.b then (2 : ℚ) ^ ((row.e.toNat : Int) - 127) else 0
    let mag (v : Nat) : ℚ := match unpack t false v with
      | .fin _ m e => m * (2 : ℚ) ^ e
      | _ => 0
    let h (z : FR) : ℚ := if z.fl &&& flNX = 0 then 0 else match unpack t false z.bits with
      | .fin _ m e => (2 : ℚ) ^ ((if m = 0 then -126 else max (e + (Nat.log2 m : Int)) (-126)) - ((t.f : Int) + 1))
      | _ => 0
    let finite (z : FR) : Prop := ∃ n m e, unpack t false z.bits = .fin n m e
    let cross (n j : Nat) : ℚ := mag (A n j) * δ (Rb n) + mag (B n j) * δ (Ra n) + δ (Ra n) * δ (Rb n)
    let tagged (i : Instr) (any : Nat → Bool) (z : Nat → Nat → FR) (e : Nat → Nat → ℚ) : Prop :=
      ∃ o : Nat → Row, (rowRes s k c i).units = (rowsOf r).map (fun n => [((d, n), o n)]) ∧ ∀ n, n ∈ rowsOf r →
        (∀ j, j < N → lane w (o n).data j = (z n j).bits % 2 ^ w) ∧ (any n = false → (o n).b = false ∧ (o n).e = 0) ∧
        (any n = true → (o n).b = true ∧ (∀ j, j < N → ¬ finite (z n j) → (o n).e = 0xFF) ∧
          ((∀ j, j < N → finite (z n j)) → ∀ m : ℚ, (∀ j, j < N → e n j ≤ m) → (∃ j, j < N ∧ e n j = m) →
            (m ≤ (2 : ℚ) ^ (-127 : Int) → (o n).e = 0) ∧
            ∀ q : Int, -127 < q → (2 : ℚ) ^ (q - 1) < m → m ≤ (2 : ℚ) ^ q → (o n).e = if 127 < q then 0xFF else BitVec.ofInt 8 (127 + q)))
    let two (n : Nat) : Bool := (Ra n).b || (Rb n).b
    tagged (.vadd g d a b r y) two (fun n j => fadd t .rne false (A n j) (B n j))
      (fun n j => δ (Ra n) + δ (Rb n) + h (fadd t .rne false (A n j) (B n j))) ∧
    tagged (.vsub g d a b r y) two (fun n j => fsub t .rne false (A n j) (B n j))
      (fun n j => δ (Ra n) + δ (Rb n) + h (fsub t .rne false (A n j) (B n j))) ∧
    tagged (.vmul g d a b r y) two (fun n j => fmul t .rne false (A n j) (B n j))
      (fun n j => cross n j + h (fmul t .rne false (A n j) (B n j))) ∧
    tagged (.vfma g d a b r y) (fun n => two n || (Rd n).b) (fun n j => ffma t .rne false (A n j) (B n j) (D n j))
      (fun n j => cross n j + δ (Rd n) + h (ffma t .rne false (A n j) (B n j) (D n j))) ∧
    tagged (.vmin g d a b r y) two (fun n j => fminmax t false false (A n j) (B n j)) (fun n _ => max (δ (Ra n)) (δ (Rb n))) ∧
    tagged (.vmax g d a b r y) two (fun n j => fminmax t false true (A n j) (B n j)) (fun n _ => max (δ (Ra n)) (δ (Rb n))) ∧
    tagged (.vscale g d a b r y) two (fun n j => scaleLane t .rne false (A n j) (signed w (B n j)))
      (fun n j => (2 : ℚ) ^ signed w (B n j) * δ (Ra n) + h (scaleLane t .rne false (A n j) (signed w (B n j)))) ∧
    let C (n j : Nat) : FR := if j < laneCount x then convert u t .rne false (lane (laneBits x) (Ra n).data j) else ⟨0, 0⟩
    tagged (.vcvt g d a y r x) (fun n => (Ra n).b) C (fun n j => if j < laneCount x then δ (Ra n) + h (C n j) else 0))

/-- MMA, GANG, MZERO and MDRAIN (R198, R203, R204, R210, R212): MMA latches K and its pairs; a GANG whose mask names a core
that has not arrived waits, one whose mask names only its own core goes on, and with an MMA that passes the start checks the
operation starts, with K = 0 without a block, the context holding the quarter; MZERO sets every word to +0; MDRAIN queues a
drain with hdl as it stands, its tile rows pending.
-/
def Obligations.JointInstructions : Prop :=
  ∀ s : State,
    let k := s.cur
    let core := coreOf k
    let c := s.ctx k
    let only : BitVec 4 := BitVec.ofNat 4 (2 ^ (core % 4))
    (∀ g d a b, Runs (.mma g d a b) s → exec (.mma g d a b) s = .next (s.modCtx k fun x => { x with
      mma := some ((me s).rd d, ((me s).rd a, (me s).rd (hiReg a)), ((me s).rd b, (me s).rd (hiReg b))) })) ∧
    (Runs .gang s → (s.cell (core / 4)).arrivals = [] → (s.core core).gmask &&& only ≠ 0 → (s.core core).gmask ≠ only →
      ∃ t a, exec .gang s = .next t ∧ (t.cell (core / 4)).arrivals = [a] ∧ a.core = core ∧ a.gmask = (s.core core).gmask ∧
        a.mma = c.mma.isSome ∧ (t.ctx k).status = .parked ∧ (t.ctx k).park = .gang ∧ (t.ctx k).s = c.s ∧ SameBytes s t) ∧
    (Runs .gang s → (s.cell (core / 4)).arrivals = [] → (s.core core).gmask = only → c.mma = none → c.status = .running →
      ∃ t, exec .gang s = .next t ∧ (t.cell (core / 4)).arrivals = [] ∧ (t.ctx k).status = .running ∧
        (t.core core).quarter = (s.core core).quarter ∧ SameBytes s t) ∧
    (∀ kk da db, Runs .gang s → (s.cell (core / 4)).arrivals = [] → (s.core core).gmask = only → c.mma = some (kk, da, db) →
      c.status = .running →
      let a : Arrival := {
        core := core, seq := s.seq, by_ := .ctx k 0, user := !(c.mode.getLsbD 6), gmask := only, mma := true
        k := kk, da := da, db := db, fmt := c.fmt, scl := c.scl, prev := (quarterOf s core).holder }
      startFault s a [a] = none →
      ∃ t, exec .gang s = .next t ∧ (t.ctx k).status = .running ∧ (t.ctx k).mma = none ∧
        (if kk = 0 then (t.cell (core / 4)).ops = (s.cell (core / 4)).ops
         else ∃ o, (t.cell (core / 4)).ops = (s.cell (core / 4)).ops ++ [o] ∧ o.members = [a] ∧ o.leader = a ∧ o.next = 0 ∧ o.blocks = (kk.toNat + 31) / 32) ∧
        (quarterOf t core).holder = some k ∧ (quarterOf t core).m = descCount da.2 ∧ (quarterOf t core).n = descCount db.2 ∧ SameBytes s t) ∧
    (∀ g, Runs (.mzero g) s → ∃ t, exec (.mzero g) s = .next t ∧ OnlyCore core s t ∧ (∀ i, (quarterOf t core).word i = 0) ∧
      (quarterOf t core).flags = 0 ∧ (quarterOf t core).holder = some k ∧ (t.core core).rows = (s.core core).rows) ∧
    (∀ g d a, Runs (.mdrain g d a) s → d ≠ 0 → ∃ t x, exec (.mdrain g d a) s = .next t ∧ (t.core core).drains = (s.core core).drains ++ [x] ∧
      x.by_ = .ctx k d ∧ x.base = (me s).rd a ∧ x.dest = (me s).rd (hiReg a) ∧ x.hdl = (s.core core).hdl ∧ x.begun = false ∧ x.row = 0 ∧
      (∀ key ∈ formRows s k (x.base, x.dest) (quarterOf s core).m, ((t.core core).row key).pend ≠ 0) ∧ (t.ctx k).pending d = true ∧ (t.ctx k).s = c.s ∧ SameBytes s t)

/-- A running operation of one or more members (R201, R204, R207 to R209): banks perform its reads in their slots; a block is
accumulated into every member's quarter when it is due and its reads are complete, and the last ends it; before that, and while it
is suspended, nothing happens; a failure ends it with the cause recorded in each member's quarter, subcause or'ed with 0x80. Each
word of a member takes R48's step: the exact sum of the block's products, from its row of A and its column of B, scaled by their
exponents and added with RNE; elements from K on count as 0. Drains (R212 to R215): a drain begins once no operation runs on
the quarter; with a handler each row lands in the delivery tile and the handler runs from hdl with hdlrow and hdlcnt; RLEAVE
sends the row on in the drain format, or drops it, and parks for the next; a row that left is written, to a tile or to
memory; after the last, sd lands M. That a row is delivered only once the handler's row instructions have read their rows is the
model's choice, log entry 10. -/
def Obligations.JointBlocksAndDrains : Prop :=
  (∀ (s : State) (cell : Nat) (o : MatOp), (s.cell cell).ops = [o] → o.leader.core / 4 = cell → (o.members.map (·.core)).Nodup →
     (∀ a ∈ o.members, (quarterOf s a.core).leaving = false) →
     (∀ die num, o.state = .suspended die num → exec (.matrixBlockComplete cell) s = .next s) ∧
     (o.state = .issued → blockTrap s o = none →
       (s.cycle < o.due ∨ mayStart s (pkgOf o.leader.core) 1 cell = false ∨ localNeeds s o ≠ []) →
       exec (.matrixBlockComplete cell) s = .next s) ∧
     (∀ t, o.state = .failed t → ∃ u, exec (.matrixBlockComplete cell) s = .next u ∧ (u.cell cell).ops = [] ∧
       (∀ a ∈ o.members, (quarterOf u a.core).fail = some { t with
         sub := 0x80 ||| t.sub } ∧ ∀ i, (quarterOf u a.core).word i = (quarterOf s a.core).word i) ∧ SameBytes s u) ∧
     (∀ vals u, o.state = .issued → o.rests = false → o.due ≤ s.cycle → mayStart s (pkgOf o.leader.core) 1 cell = true →
       membersDone s o = true → blockTrap s o = none → localNeeds s o = [] → tilePoison s (arrivalCtx s o.leader) o.leader.da = none →
       (∀ a ∈ o.members, tilePoison s (arrivalCtx s a) a.db = none) → fetchGlobal s o = ((none, vals), u) → u.cells = s.cells →
       (∀ a ∈ o.members, quarterOf u a.core = quarterOf s a.core) →
       ∃ t, exec (.matrixBlockComplete cell) s = .next t ∧
         (∀ i a, o.members[i]? = some a →
           (∀ w, (quarterOf t a.core).word w = (accumulate u o o.next vals i a (quarterOf s a.core)).word w) ∧
           ∀ w, w < 4096 → (descCount o.leader.da.2 ≤ w / 32 ∨ descCount a.db.2 ≤ w % 32) →
             (quarterOf t a.core).word w = (quarterOf s a.core).word w) ∧
         (t.cell cell).ops = if o.next + 1 = o.blocks then [] else [{ o with
           next := o.next + 1, due := u.cycle + blockCycles o.leader o.members, state := .issued, vals := [], rests := opStops u o }])) ∧
  (∀ (s : State) (o : MatOp) (b i r c ra cb : Nat) (vals : List (Part × Nat × Nat)) (x : Arrival) (q : Quarter),
     let lead := o.leader
     let wA := wf (vget lead.fmt 0) 3 0
     let wB := wf (vget x.fmt 1) 3 0
     let holds (a : Arrival) (d : Word × Word) (w v : Nat) (p : Part) (raw : Nat) : Prop :=
       if descTile d.2 = true then ∃ key, formRow s (arrivalCtx s a) d.1 v = some key ∧
         raw = ((s.core (coreOf (arrivalCtx s a))).row key).data.toNat / 2 ^ (8 * (b * blockBytes w))
       else partVal vals p = some raw
     2 ≤ wA → wA ≤ 8 → 2 ≤ wB → wB ≤ 8 → r < 128 → c < 32 → r < descCount lead.da.2 → c < descCount x.db.2 →
     holds lead lead.da wA r (.a r) ra → holds x x.db wB c (.b i c) cb →
     let elem (w raw k : Nat) : Int := if 32 * b + k < lead.k.toNat then signed w (raw / 2 ^ (containerBits w * k)) else 0
     let sum : Int := ((upTo 32).map fun k => elem wA ra k * elem wB cb k).sum
     let e (p : Part) (j : Nat) : Nat := match partVal vals p with
       | some v => v / 2 ^ (8 * j) % 256
       | none => 127
     let ea := e .ea r
     let eb := e (.eb i) c
     (accumulate s o b vals i x q).word (32 * r + c) = BitVec.ofNat 32 (if ea = 255 ∨ eb = 255 then fp32.nan else
       (addV fp32 .rne false (unpack fp32 false (q.word (32 * r + c)).toNat)
         (.fin (sum < 0) sum.natAbs ((ea : Int) + eb - 254 - ((wA : Int) - 2) - ((wB : Int) - 2)))).bits)) ∧
  (∀ (s : State) (lead core bank off n : Nat) (o : MatOp) (part : Part) (addr : Word), bank < 16 → opBy s lead = some o →
     (bankNeeds s o).find? (fun x => x.1 = part ∧ x.2.1 = off) = some (part, off, addr, n) →
     (∃ a, chosenAt s (16 * core + bank) = some a ∧ a.who = .fetch lead part off ∧ a.replay = false) → PlainBank s lead addr n →
     ∃ t, exec (.bankAccess core bank) s = .next t ∧ SameBytes s t ∧ opBy t lead = some { o with
       vals := o.vals ++ [(part, off, readN s.bankMem (localKey lead addr) n)] }) ∧
  (∀ (s : State) (core : Nat) (x : Drain) (rest : List Drain), (s.core core).drains = x :: rest →
     let q := quarterOf s core
     let h := handlerKey core
     let head (t : State) (y : Drain) : Prop := (t.core core).drains = y :: rest
     (x.begun = false → opOn s core = true → exec (.drainBegin core) s = .next s) ∧
     (x.begun = false → opOn s core = false → ∃ t, exec (.drainBegin core) s = .next t ∧ OnlyCore core s t ∧
       head t { x with
         begun := true, m := q.m, due := s.cycle + 4 }) ∧
     (x.begun = true → x.hdl ≠ 0 → x.held = false → x.ready = none → x.row < x.m → x.due ≤ s.cycle → (s.ctx h).park = .nextRow →
       (s.ctx h).status = .parked → (s.ctx h).h = false → rowsOut s h = false → rowPending s core (rowKey 16 0) = false →
       ∃ t, exec (.drainRowDeliver core) s = .next t ∧ (t.ctx h).status = .ready ∧ (t.ctx h).pc = x.hdl ∧
         (t.ctx h).hdlrow = BitVec.ofNat 7 x.row ∧ (t.ctx h).hdlcnt = BitVec.ofNat 8 (x.m - x.row) ∧
         (∀ j, j < 32 → lane 32 ((t.core core).row (rowKey 16 0)).data j = (drainRow q x.row).1.getD j 0 % 2 ^ 32) ∧
         ((t.core core).row (rowKey 16 0)).b = false ∧ (∃ y, head t y ∧ y.held = true ∧ y.row = x.row) ∧ (t.ctx h).s = (s.ctx h).s) ∧
     (∀ g drop, s.cur = h → Runs (.rleave g drop) s → x.held = true →
       ∃ t y, exec (.rleave g drop) s = .next t ∧ head t y ∧ y.held = false ∧ (t.ctx h).status = .parked ∧ (t.ctx h).park = .nextRow ∧
         y.due = s.cycle + 4 ∧ (drop = true → y.row = x.row + 1 ∧ y.ready = x.ready) ∧
         (drop = false → y.row = x.row ∧
           y.ready = some ((drainBytes q (lanesOf 32 ((s.core core).row (rowKey 16 0)).data)).1,
             (drainBytes q (lanesOf 32 ((s.core core).row (rowKey 16 0)).data)).2.1)) ∧ SameBytes s t) ∧
     (∀ v n place op c bank, bank < 16 → x.ready = some (v, n) → drainOp x = some op → drainNeeds s core = [(0, 0, place, n)] →
       (∃ a, chosenAt s (16 * c + bank) = some a ∧ a.who = .drain core 0 ∧ a.replay = false) → PlainBank s core place n →
       op.ea = x.base + BitVec.ofNat 64 (x.row * wf x.dest 15 0) ∧
       ∃ t y, exec (.bankAccess c bank) s = .next t ∧ t.bankMem = writeN s.bankMem (localKey core place) n v.toNat ∧ t.hbm = s.hbm ∧
         head t y ∧ y.row = x.row + 1 ∧ y.ready = none ∧ y.poison = x.poison) ∧
     (∀ v n key, x.begun = true → x.state = .issued → x.ready = some (v, n) → descTile x.dest = true → formRow s x.ctx x.base x.row = some key →
       ∃ t y, exec (.drainRowWrite core) s = .next t ∧ ((t.core core).row key).data = v ∧ head t y ∧ y.row = x.row + 1 ∧ y.ready = none ∧
         SameBytes s t) ∧
     (∀ k d, x.begun = true → x.ready = none → x.m ≤ x.row → x.held = false → x.by_ = .ctx k d → x.ctx = k → x.poison = none → d ≠ 0 →
       (∀ w, (s.ctx k).park ≠ .wfi w) →
       ∃ t, exec (.drainRowWrite core) s = .next t ∧ (t.core core).drains = rest ∧ (t.ctx k).rd d = BitVec.ofNat 64 x.m ∧
         (t.ctx k).pending d = false ∧ (quarterOf t core).flags = 0 ∧ SameBytes s t))

/-! ## Command chains -/

/-- CHAIN and FORK (R268, R269, R271): an accepted chain joins its queue with head, token and counters as stated, its tokens
pending; a refused one starts nothing and writes refused tokens; FORK's chains form a new fork group, and an earlier group for
whose meeting a register waits is kept. RENDEZ (R270) takes
the group's next meeting: it parks, or its register waits for the meeting. -/
def Obligations.ChainInstructions : Prop :=
  ∀ (s : State) (d a b : SReg) (n : BitVec 3), d ≠ 0 →
    let k := s.cur
    let core := coreOf k
    let refused : Word := BitVec.ofNat 64 (2 ^ 63)
    let joins (t : State) (q : Nat) (head : Word) (tok tok2 : SReg) (g : Option Nat) : Prop :=
      ∃ ch, (t.queue q).chains = (s.queue q).chains ++ [ch] ∧ ch.owner = k ∧ ch.user = !((me s).mode.getLsbD 6) ∧ ch.head = head ∧
        ch.next = head ∧ ch.entry = none ∧ ch.counters = Vector.replicate 4 0 ∧ ch.tok = tok ∧ ch.tok2 = tok2 ∧ ch.fork = g ∧
        ch.items = 0 ∧ ch.stale = 0 ∧ ch.wait = .ready
    let started (t : State) (e : EngineSel) : Prop :=
      joins t (queueKey e core n.toNat) ((me s).rd a) d b none ∧ (∀ q, q ≠ queueKey e core n.toNat → t.queue q = s.queue q) ∧
        (t.ctx k).pending d = true ∧ (b ≠ 0 → (t.ctx k).pending b = true) ∧ (t.ctx k).s = (s.ctx k).s ∧ SameBytes s t
    let split (t : State) (mask : BitVec 3) : Prop := ∃ g f,
      (∀ i, i < 3 → mask.getLsbD i = true →
        joins t (queueKey (if i = 0 then .copy else if i = 1 then .mat else .vec) core n.toNat) ((me s).rd (a + BitVec.ofNat 5 i))
          (d + BitVec.ofNat 5 i) 0 (some g)) ∧
      (t.ctx k).fork = some f ∧ f.group = g ∧ f.issued = 0 ∧ f.times = [] ∧ f.waiting = [] ∧ f.ended = none ∧
      (∀ f0, (s.ctx k).fork = some f0 → f0.waiting ≠ [] → f0 ∈ (t.ctx k).oldForks) ∧
      (t.ctx k).s = (s.ctx k).s ∧ SameBytes s t
    (∀ e, Runs (.chain d a b e n) s → ∃ t, exec (.chain d a b e n) s = .next t ∧ started t e) ∧
    (∀ e, Runs (.chainTry d a b e n) s → queueRoom s (queueKey e core n.toNat) = true →
      ∃ t, exec (.chainTry d a b e n) s = .next t ∧ started t e) ∧
    (∀ e, Runs (.chainTry d a b e n) s → queueRoom s (queueKey e core n.toNat) = false →
      exec (.chainTry d a b e n) s = .next (if b = 0 then wrS d refused s else wrS b refused (wrS d refused s))) ∧
    (∀ m, Runs (.fork d a n m) s → ∃ t, exec (.fork d a n m) s = .next t ∧ split t m) ∧
    (∀ m, Runs (.forkTry d a n m) s → forkRoom s core n.toNat m = true → ∃ t, exec (.forkTry d a n m) s = .next t ∧ split t m) ∧
    (∀ m, Runs (.forkTry d a n m) s → forkRoom s core n.toNat m = false →
      exec (.forkTry d a n m) s = .next (((List.range 3).filter fun i => m.getLsbD i).foldl
        (fun t i => wrS (d + BitVec.ofNat 5 i) refused t) s)) ∧
    (∀ f, (s.ctx k).fork = some f →
      (Runs (.rendez 0) s → f.met f.issued = none → ∃ t, exec (.rendez 0) s = .next t ∧ (t.ctx k).status = .parked ∧
        (t.ctx k).park = .rendez f.issued ∧ (∃ f', (t.ctx k).fork = some f' ∧ f'.issued = f.issued + 1) ∧ SameBytes s t) ∧
      (∀ x, Runs (.rendez 0) s → f.met f.issued = some x → ∃ t, exec (.rendez 0) s = .next t ∧ (t.ctx k).status = (s.ctx k).status ∧
        (∃ f', (t.ctx k).fork = some f' ∧ f'.issued = f.issued + 1) ∧ SameBytes s t) ∧
      (∀ x, Runs (.rendez d) s → f.met f.issued = some x → ∃ t, exec (.rendez d) s = .next t ∧ (t.ctx k).pending d = true ∧
        (∃ l, l ∈ (t.ctx k).landings ∧ l.regs = [(d, x)]) ∧ SameBytes s t) ∧
      (Runs (.rendez d) s → f.met f.issued = none → ∃ t f', exec (.rendez d) s = .next t ∧ (t.ctx k).pending d = true ∧
        (t.ctx k).fork = some f' ∧ f'.issued = f.issued + 1 ∧ f'.waiting = f.waiting ++ [(d, f.issued)] ∧ SameBytes s t))

/-- The control and ordering entries (R260, R262, R266): each passes to the next entry, skips, repeats, waits, or ends the
chain with its tokens, as its kind says; a reserved kind ends the chain FAILED with ILLEGAL. The next entry is read when the
chain reaches it (R252): once its owner's older accesses are performed (R267), 32 bytes are read and the entry acts with the
pending attributes; and the deadline of an entry that waits, or has not started, ends its chain TIMEOUT (R264). -/
def Obligations.ControlEntries : Prop :=
  (∀ (s : State) (q : Nat) (ch : Chain) (rest : List Chain) (w : Vector Word 4), AtEntry s q ch rest w →
     let op := wf (vget w 0) 7 0
     let md := wf (vget w 0) 15 8
     let cnt := wf (vget w 0) 31 16
     let arg := wf (vget w 0) 63 32
     let x := vget w 1
     let after := ch.left (ch.next + 32)
     let plain : Prop := md = 0 ∧ cnt = 0 ∧ arg = 0 ∧ vget w 2 = 0 ∧ vget w 3 = 0
     let token (status cause : Nat) : Word := BitVec.ofNat 64 (cause * 2 ^ 48 + status * 2 ^ 40 + min ch.stale 255 * 2 ^ 32 + ch.items % 2 ^ 32)
     let ends (i : Instr) (status cause : Nat) : Prop := ∃ t, exec i s = .next t ∧ (t.queue q).chains = rest ∧
       (ch.tok ≠ 0 → Landed t ch.owner ch.tok (token status cause)) ∧ (ch.tok2 ≠ 0 → Landed t ch.owner ch.tok2 (token status cause)) ∧
       SameBytes s t
     let word : Prop := x.toNat % 8 = 0 ∧ chainTrap s q ch x = none
     let resting (u : State) : Prop := (u.queue q).chains = { ch with
       io := none } :: rest
     (ch.wait = .ready → w = Vector.replicate 4 0 → ends (.endEntry q) 0 0) ∧
     (ch.wait = .ready → opKnown op = false → ends (.endEntry q) 1 1) ∧
     (ch.wait = .ready → op = 8 → plain → x.toNat ≤ dialOf s ch.owner → Heads (.waittEntry q) s q after rest) ∧
     (ch.wait = .ready → op = 8 → plain → dialOf s ch.owner < x.toNat → Heads (.waittEntry q) s q { ch with
       wait := .waitt x } rest) ∧
     (op = 9 → md ≤ 8 → cnt = 0 → arg = 0 → vget w 3 = 0 →
       (ch.wait = .woken 0 → Heads (.waitvEntry q) s q after rest) ∧
       (∀ v, v ≠ 0 → ch.wait = .woken v → Heads (.waitvEntry q) s q { ch with
         wait := .retry } rest) ∧
       (ch.wait = .ready ∨ ch.wait = .retry → word →
         Asked (.waitvEntry q) s q ch x 0 (.waitw (vget w 2) 0) none ∧
         (∀ v u, Answered s q ch x 0 (.waitw (vget w 2) 0) v u → resting u → ∃ t, exec (.waitvEntry q) s = .next t ∧
           SameBytes u t ∧ (t.queue q).chains = (if v = 0 then after else { ch with
             io := none, wait := .ready }) :: rest))) ∧
     exec (.waitvReread q) s = exec (.waitvEntry q) s ∧
     (ch.wait = .ready → op = 10 → md ≤ 8 → cnt = 0 → arg = 0 → word →
       Asked (.signalEntry q) s q ch x 0 (.faddt (vget w 2) (vget w 3)) none ∧
       ∀ v u, Answered s q ch x 0 (.faddt (vget w 2) (vget w 3)) v u → resting u → ∃ t, exec (.signalEntry q) s = .next t ∧
         SameBytes u t ∧ (t.queue q).chains = after :: rest) ∧
     (∀ i : Fin 4, ch.wait = .ready → op = 11 → md = i.val → cnt = 0 → vget w 2 = 0 → vget w 3 = 0 → x.toNat % 32 = 0 →
       ch.head.toNat ≤ x.toNat → x.toNat ≤ ch.next.toNat →
       let n : Nat := (if ch.counters.get i = 0 then arg else (ch.counters.get i).toNat) - 1
       Heads (.loopEntry q) s q { (ch.left (if n = 0 then ch.next + 32 else x)) with
         counters := ch.counters.set i (BitVec.ofNat 32 n) } rest) ∧
     (ch.wait = .ready → md = 0 → arg = 0 → cnt ≠ 0 → vget w 2 = 0 → vget w 3 = 0 → word →
       (op = 12 → Asked (.ifzEntry q) s q ch x 0 (.read 8) none) ∧ (op = 13 → Asked (.ifnzEntry q) s q ch x 0 (.read 8) none) ∧
       ∀ v u, Answered s q ch x 0 (.read 8) v u → resting u →
         (op = 12 → ∃ t, exec (.ifzEntry q) s = .next t ∧ SameBytes u t ∧
           (t.queue q).chains = ch.left (ch.next + BitVec.ofNat 64 (if v = 0 then 32 * (1 + cnt) else 32)) :: rest) ∧
         (op = 13 → ∃ t, exec (.ifnzEntry q) s = .next t ∧ SameBytes u t ∧
           (t.queue q).chains = ch.left (ch.next + BitVec.ofNat 64 (if v = 0 then 32 else 32 * (1 + cnt))) :: rest)) ∧
     (ch.wait = .ready → op = 16 → cnt = 0 → arg < 4 → x = 0 → vget w 2 = 0 → vget w 3 = 0 →
       let named (r : Nat) : Prop := (∃ i, i < 8 ∧ md.testBit i = true ∧ r = queueKey .copy (coreOf ch.owner) i) ∨
         (arg.testBit 0 = true ∧ r = queueKey .mat (coreOf ch.owner) 0) ∨ (arg.testBit 1 = true ∧ r = queueKey .vec (coreOf ch.owner) 0)
       let sibling (y : Chain) : Prop := y.owner = ch.owner ∧ y.fork = ch.fork ∧ ch.fork ≠ none
       ((∀ r, named r → ∀ y ∈ (s.queue r).chains, ch.seq ≤ y.seq ∨ sibling y) → Heads (.qfenceEntry q) s q after rest) ∧
       (∀ r y, named r → y ∈ (s.queue r).chains → y.seq < ch.seq → ¬ sibling y → exec (.qfenceEntry q) s = .next s)) ∧
     (ch.wait = .ready → op = 17 → plain → x = 0 → ∃ t, exec (.tokenEntry q) s = .next t ∧
       (ch.tok2 ≠ 0 → Landed t ch.owner ch.tok2 (token 0 0)) ∧
       (t.queue q).chains = { after with
         tok2 := 0 } :: rest ∧ SameBytes s t) ∧
     (ch.wait = .ready → op = 18 → plain → x = 0 →
       (ch.fork = none → Heads (.rendezEntry q) s q after rest) ∧
       (∀ g, ch.fork = some g → Heads (.rendezEntry q) s q { ch with
         wait := .meeting ch.meetings } rest)) ∧
     (∀ g v, ch.wait = .woken v → op = 18 → plain → x = 0 → ch.fork = some g → Heads (.rendezEntry q) s q { after with
         meetings := ch.meetings + 1 } rest) ∧
     (ch.wait = .ready → op = 31 → wf (vget w 0) 15 11 = 0 → ((vget w 0).getLsbD 10 = true → x.toNat % 16 = 0) →
       Heads (.attrEntry q) s q { after with
         attr := some ⟨w⟩ } rest)) ∧
  (∀ (s : State) (q : Nat) (ch : Chain) (rest : List Chain), (s.queue q).chains = ch :: rest → ch.ending = none → ch.cancel = false →
     (ch.entry = none → ch.wait = .ready → launchStops s ch.owner = false → chainLate s ch = false →
       ownerDone s ch = true → chainTrap s q ch ch.next = none →
       Asked (.endEntry q) s q ch ch.next 0 (.read 32) none ∧
       ∀ v u, Answered s q ch ch.next 0 (.read 32) v u → (u.queue q).chains = { ch with
           io := none } :: rest →
         let w : Vector Word 4 := #v[BitVec.ofNat 64 v, BitVec.ofNat 64 (v / 2 ^ 64), BitVec.ofNat 64 (v / 2 ^ 128), BitVec.ofNat 64 (v / 2 ^ 192)]
         (wf (vget w 0) 7 0 = 31 → accepts (queueEngine q) 31 = true → wf (vget w 0) 15 8 = 0 →
           ∃ t c, exec (.attrEntry q) s = .next t ∧ (t.queue q).chains = c :: rest ∧ c.attr = some ⟨w⟩ ∧ c.next = ch.next + 32 ∧
             c.entry = none ∧ c.active = none ∧ c.items = ch.items ∧ SameBytes u t) ∧
         (∀ y, ch.attr = some y → wf (vget y.w 0) 10 8 = 0 → wf (vget w 0) 63 0 = 8 → vget w 2 = 0 → vget w 3 = 0 → dialOf u ch.owner < (vget w 1).toNat →
           ∃ t c, exec (.waittEntry q) s = .next t ∧ (t.queue q).chains = c :: rest ∧ c.entry = some w ∧ c.active = some y ∧ c.attr = none ∧
             c.wait = .waitt (vget w 1) ∧ SameBytes u t)) ∧
     (ch.entry = none → ch.wait = .ready → launchStops s ch.owner = false → ownerDone s ch = false → exec (.endEntry q) s = .next s) ∧
     (chainLate s ch = true → ch.wait = .ready → atLimit s q ch = true → recordAddr ch = none → ch.entry ≠ none →
       ∃ t, exec (.entryDeadline q) s = .next t ∧ (t.queue q).chains = rest ∧
         (ch.tok ≠ 0 → Landed t ch.owner ch.tok (BitVec.ofNat 64 (5 * 2 ^ 40 + min ch.stale 255 * 2 ^ 32 + ch.items % 2 ^ 32))) ∧ SameBytes s t) ∧
     (chainLate s ch = false ∨ atLimit s q ch = false → exec (.entryDeadline q) s = .next s))

/-- The data-movement entries (R251, R255 to R259): an item begins in the engine's turn, its alignment and its local bytes
checked; each move reads up to 128 bytes of its row, or a copy engine's up to 256 (R294), whole before any is written, and writes
them, an engine 128 bytes in a cycle; an item whose last move is made is counted; the entry passes after its last item; an index of all ones moves nothing;
rows and indexed items lie at the stated addresses, and FILL's bytes repeat its pattern. An access to local memory is asked
for and performed in its bank's slot (R294, R300): a read brings the bytes there, a write leaves its bytes, each element of a
REDCOPY updates its word as RED does, a SIGNAL's FADDT adds, a WAITV's test answers or registers, and nothing else changes. A copy engine takes its queues in
turn, item by item. -/
def Obligations.MovementEntries : Prop :=
  (∀ (s : State) (q : Nat) (ch : Chain) (rest : List Chain) (w : Vector Word 4), AtEntry s q ch rest w →
    ch.wait = .ready → ch.active = none → moveLegal q w = true →
    let op := wf (vget w 0) 7 0
    let md := wf (vget w 0) 15 8
    let cnt := wf (vget w 0) 31 16
    let len := wf (vget w 0) 63 32
    let core := coreOf ch.owner
    let ev : Instr := if op = 1 then .copyEntry q else if op = 2 then .gatherEntry q else if op = 3 then .scatterEntry q
      else if op = 4 then .fillEntry q else .redcopyEntry q
    let items : Nat := if op = 1 ∧ md % 4 = 0 then 1 else if op = 1 ∧ md % 4 = 2 then (cnt + 1) * (md / 4 + 1) else cnt + 1
    let row (i : Nat) : Item :=
      { src := if op = 4 then none else some (vget w 1 + (if op = 1 ∧ md % 4 = 0 then 0
          else if op = 1 ∧ md % 4 = 2 then BitVec.ofInt 64 ((i / (cnt + 1) : Nat) * (((vget w 3).extractLsb' 32 16).toInt * 4096) +
            (i % (cnt + 1) : Nat) * (((vget w 3).extractLsb' 0 16).toInt * 8))
          else BitVec.ofInt 64 (i * ((vget w 3).extractLsb' 0 32).toInt)))
        dst := vget w 2 + (if op = 1 ∧ md % 4 = 0 then 0
          else if op = 1 ∧ md % 4 = 2 then BitVec.ofInt 64 ((i / (cnt + 1) : Nat) * (((vget w 3).extractLsb' 48 16).toInt * 4096) +
            (i % (cnt + 1) : Nat) * (((vget w 3).extractLsb' 16 16).toInt * 8))
          else BitVec.ofInt 64 (i * ((vget w 3).extractLsb' (if op = 4 then 0 else 32) 32).toInt))
        len := len }
    let at_ (i : Nat) : Nat := if op = 2 ∧ md % 2 = 1 then 128 * i + 4 * (md / 2) else 4 * i
    let indexed (i idx : Nat) : Item :=
      { src := some (vget w 2 + BitVec.ofNat 64 ((if op = 2 then idx else i) * len)),
        dst := vget w 3 + BitVec.ofNat 64 ((if op = 2 then i else idx) * len), len := len }
    let present (x : Item) : Prop :=
      (op ≠ 2 ∧ op ≠ 3 ∧ x = row ch.item) ∨ ((op = 2 ∨ op = 3) ∧ ∃ v, ch.index = some v ∧ v ≠ 0xFFFFFFFF ∧ x = indexed ch.item v)
    let heads (u : State) (c : Chain) : Prop := ∃ t, exec ev s = .next t ∧ (t.queue q).chains = c :: rest ∧ SameBytes u t
    let resting (u : State) : Prop := (u.queue q).chains = { ch with
      io := none } :: rest ∧ u.engines = s.engines
    let m : Nat := if md / 16 = 1 then 4 else 8
    let most : Nat := if queueEngine q = .copy then 256 else 128
    (∀ a ∈ namedIn w, reachTrap q a = none) →
    (items ≤ ch.item → Heads ev s q (ch.left (ch.next + 32)) rest) ∧
    (ch.item < items → engineTurn s q = false → exec ev s = .next s) ∧
    (ch.item < items → engineTurn s q = true →
      (op = 2 ∨ op = 3 →
        let base := vget w 1
        let off := at_ ch.item
        (ch.index = some 0xFFFFFFFF → Heads ev s q ch.itemDone rest) ∧
        (ch.index = none → reachTrap q (arcadeAddr s core base off) = none →
          (∀ p ∈ spans s core base off 4, pieceTrap s core p.2.1 = none) →
          Asked ev s q ch base off (.read 4) none ∧
          ∀ v u, Answered s q ch base off (.read 4) v u → resting u → heads u { ch with
            io := none, index := some v })) ∧
      (∀ x, present x →
        (ch.begun = false → itemTrap s q ch x = none → (op = 5 → (x.src.getD 0).toNat % m = 0 ∧ x.dst.toNat % m = 0) →
          ∃ t, exec ev s = .next t ∧ (t.queue q).chains = { ch with
            begun := true } :: rest ∧ (t.engine (engineKey q)).last = q % 16 ∧ SameBytes s t) ∧
        (ch.begun = true → nextCut q ch x = none → heads s ch.itemDone) ∧
        (∀ off n : Nat, ch.begun = true → nextCut q ch x = some (off, n) →
          n ≤ most ∧
          (∀ b, x.src = some b → ch.buf = none →
            let a := arcadeAddr s core b off
            Asked ev s q ch a 0 (.read n) none ∧
            ∀ v u, Answered s q ch a 0 (.read n) v u → resting u → heads u { ch with
              io := none, buf := some v }) ∧
          (∀ v, (x.src = none ∧ ch.buf = none ∧ v = fillBytes w off n) ∨ (x.src ≠ none ∧ ch.buf = some v) →
            let a := arcadeAddr s core x.dst off
            let acc : Access := .write n (BitVec.ofNat 2048 v)
            (ch.io = none → s.cycle < (s.engine (engineKey q)).moved → exec ev s = .next s) ∧
            ((s.engine (engineKey q)).moved ≤ s.cycle →
              Asked ev s q ch a 0 acc (if op = 5 then some (redOf w) else none)) ∧
            (∀ y u, Answered s q ch a 0 acc y u → resting u → (op = 5 → ch.io ≠ none) →
              (ch.io = none → (s.engine (engineKey q)).moved ≤ s.cycle) →
              ∃ t, exec ev s = .next t ∧ (t.queue q).chains = { ch with
                  io := none, piece := off + n, buf := none } :: rest ∧
                (t.engine (engineKey q)).moved = u.cycle + (n + 127) / 128 ∧ SameBytes u t))))) ∧
    (∀ off n i, n ≤ most → i < n →
      (BitVec.ofNat 2048 (fillBytes w off n)).extractLsb' (8 * i) 8 = (vget w 1).extractLsb' (8 * ((off + i) % 8)) 8)) ∧
  (∀ (s : State) (q core bank off n : Nat) (a : Word) (ch : Chain) (rest : List Chain) (io : EngineIo) (more : List (Nat × Word × Nat)),
    bank < 16 →
    (s.queue q).chains = ch :: rest → ch.io = some io → io.gen = none → ioNeeds s ch io = (off, a, n) :: more →
    let b := 16 * core + bank
    let key := localKey (coreOf ch.owner) a
    ∀ x, chosenAt s b = some x → x.who = .engine q off → x.replay = false → PlainBank s (coreOf ch.owner) a n →
    let lat : Nat := if x.slot = .wide then 3 else if x.slot = .others then (engineSlot q b).2.2 else 0
    let served (t : State) (v : Nat) : Prop := exec (.bankAccess core bank) s = .next t ∧ t.hbm = s.hbm ∧ t.seals = s.seals ∧ t.hostMem = s.hostMem ∧
      (t.turn b).served = s.cycle + 1 ∧ (t.queue q).chains = { ch with
        io := some { io with
          parts := io.parts ++ [(off, v)], ready := max io.ready (s.cycle + lat) } } :: rest
    (∀ c, io.red = none → io.acc = .read c → ∃ t, served t (readN s.bankMem key n) ∧ t.bankMem = s.bankMem) ∧
    (∀ c v, io.red = none → io.acc = .write c v → ∃ t, served t 0 ∧ t.bankMem = writeN s.bankMem key n (v >>> (8 * off)).toNat) ∧
    (∀ c v op, io.red = some (op, n) → io.acc = .write c v → n = 4 ∨ n = 8 → ∃ t, served t (readN s.bankMem key n) ∧
      t.bankMem = (match (rmwNew n (.red op (BitVec.ofNat 64 ((v >>> (8 * off)).toNat % 2 ^ (8 * n)))) (readN s.bankMem key n)).1 with
        | some new => writeN s.bankMem key n new | none => s.bankMem)) ∧
    (∀ add thr, io.red = none → io.acc = .faddt add thr → n = 8 → (s.bank (key / 8192)).waiters = [] →
      ∃ t, served t (readN s.bankMem key 8) ∧ t.bankMem = writeN s.bankMem key 8 ((readN s.bankMem key 8 + add.toNat) % 2 ^ 64)) ∧
    (∀ thr, io.red = none → io.acc = .waitw thr 0 → n = 8 →
      let word : Word := BitVec.ofNat 64 (readN s.bankMem key 8)
      let full : Bool := 16 ≤ (s.bank (key / 8192)).waiters.length
      (thr.toInt ≤ word.toInt ∨ full = true → ∃ t, served t (if thr.toInt ≤ word.toInt then 0 else 2) ∧ t.bankMem = s.bankMem) ∧
      (word.toInt < thr.toInt → full = false → ∃ t, exec (.bankAccess core bank) s = .next t ∧ SameBytes s t ∧
        (t.bank (key / 8192)).waiters = (s.bank (key / 8192)).waiters ++ [⟨.queue q, key, thr, 0, false⟩] ∧
        (t.queue q).chains = { ch with
          io := none, wait := .waitv } :: rest))) ∧
  (∀ (s : State) (q : Nat), queueEngine q = .copy → movesNow s q = false →
    (engineTurn s q = true ↔ mayStart s (queuePkg q) 3 (queueBay q) = true ∧ ∀ i, i < 8 → let r := q / 16 * 16 + i
      r ≠ q → movesNow s r = false ∧ (itemReady s r = true →
        (q % 16 + 7 - (s.engine (q / 16)).last % 8) % 8 < (i + 7 - (s.engine (q / 16)).last % 8) % 8)))

/-- The matrix entries and meetings (R261, R270): an MMA entry reads its block and arrives at the gang barrier, an operation
of its core alone starting at once; a DRAIN entry reads its pair and queues a drain; each counts its item and passes once
its operation or drain has ended; the failure that the quarter holds fails either and is cleared (R208). A meeting that every chain of the group has reached completes: the chains go on, its time
is kept, the register and the context that wait for it go on. -/
def Obligations.MatrixEntriesAndMeetings : Prop :=
  (∀ (s : State) (q : Nat) (ch : Chain) (rest : List Chain) (w : Vector Word 4), AtEntry s q ch rest w →
    let op := wf (vget w 0) 7 0
    let core := queueCore q
    let x := vget w 1
    let plain : Prop := (vget w 0).toNat = op ∧ vget w 2 = 0 ∧ vget w 3 = 0
    let free (n : Nat) : Prop := quarterTrap s core = none ∧ ∀ p ∈ spans s (coreOf ch.owner) x 0 n, chainTrap s q ch p.2.1 = none
    let reads (n v : Nat) (u : State) : Prop := free n ∧ Answered s q ch x 0 (.read n) v u ∧ (u.queue q).chains = { ch with
      io := none } :: rest
    let word (v i : Nat) : Word := BitVec.ofNat 64 (v / 2 ^ (64 * i))
    (op = 24 → ch.wait = .ready → plain → x.toNat % 8 = 0 → gangBusy s ch.owner = false → free 80 → Asked (.mmaEntry q) s q ch x 0 (.read 80) none) ∧
    (op = 25 → ch.wait = .ready → plain → ch.item = 0 → genAttr ch = none → drainBusy s ch.owner = false → free 16 →
      Asked (.drainEntry q) s q ch x 0 (.read 16) none) ∧
    (∀ t, op = 24 ∨ op = 25 → ch.wait = .ready → plain → ch.item = 0 → genAttr ch = none → x.toNat % 8 = 0 → gangBusy s ch.owner = false →
      drainBusy s ch.owner = false → quarterTrap s core = some t →
      let ev : Instr := if op = 24 then .mmaEntry q else .drainEntry q
      ∃ y, exec ev s = .next y ∧ (y.queue q).chains = rest ∧ (quarterOf y core).fail = none ∧ SameBytes s y ∧
        (ch.tok ≠ 0 → Landed y ch.owner ch.tok (BitVec.ofNat 64 (t.cause.toNat * 2 ^ 48 + 2 ^ 40 + min ch.stale 255 * 2 ^ 32 + ch.items % 2 ^ 32)))) ∧
    (∀ v u, op = 24 → ch.wait = .ready → plain → x.toNat % 8 = 0 → gangBusy s ch.owner = false → reads 80 v u →
      wf (word v 4) 11 9 = 0 → wf (word v 4) 63 19 = 0 → (s.core core).gmask = BitVec.ofNat 4 (2 ^ (core % 4)) →
      (s.core core).broken &&& (s.core core).gmask = 0 → u.core core = s.core core → (u.cell (core / 4)).arrivals = [] → word v 9 ≠ 0 →
      let w := modHead q (fun c => { c with
        wait := .gang }) u
      startFault w (blockArrival w q ch v) [blockArrival w q ch v] = none →
      ∃ t o, exec (.mmaEntry q) s = .next t ∧ (t.cell (core / 4)).ops = (u.cell (core / 4)).ops ++ [o] ∧ o.leader.k = word v 9 ∧
        o.leader.da = (word v 0, word v 1) ∧ o.leader.db = (word v 2, word v 3) ∧ o.members = [o.leader] ∧ o.next = 0 ∧
        (t.queue q).chains = { ch with
          wait := .operation, io := none } :: rest ∧ (quarterOf t core).holder = some ch.owner) ∧
    (∀ n, op = 24 → ch.wait = .woken n → Heads (.mmaEntry q) s q { (ch.left (ch.next + 32)) with
      items := ch.items + 1 } rest) ∧
    (∀ v u, op = 25 → ch.wait = .ready → plain → ch.item = 0 → genAttr ch = none → drainBusy s ch.owner = false → reads 16 v u →
      drainPairOk u ch.owner (quarterOf u core).m (word v 0) (word v 1) = true →
      ∃ t d, exec (.drainEntry q) s = .next t ∧ (t.core core).drains = (u.core core).drains ++ [d] ∧ d.by_ = .queue q ∧ d.base = word v 0 ∧
        d.dest = word v 1 ∧ d.hdl = (u.core core).hdl ∧ d.begun = false ∧ (t.queue q).chains = { ch with
          wait := .drain, io := none } :: rest) ∧
    (∀ n, op = 25 → ch.wait = .woken n → Heads (.drainEntry q) s q { (ch.left (ch.next + 32)) with
      items := ch.items + 1 } rest)) ∧
  (∀ (s : State) (k g j : Nat) (f : Fork) (d : SReg), liveGroups s k = [g] → meetingReady s k g = some j → (s.ctx k).fork = some f →
    f.group = g → f.waiting = [(d, f.times.length)] → d ≠ 0 → (s.ctx k).status = .parked → (s.ctx k).park = .rendez f.times.length →
    let now : Word := BitVec.ofNat 64 (dialOf s k)
    ∃ t f', exec (.forkMeetingComplete k) s = .next t ∧ (∀ p ∈ groupChains t k g, p.2.wait = .woken 0) ∧ (t.ctx k).fork = some f' ∧
      f'.times = f.times ++ [now] ∧ f'.waiting = [] ∧ Landed t k d now ∧ (t.ctx k).status = .ready ∧ SameBytes s t)

/-! ## Translation and its faults -/

/-- A four-level walk (R348 to R350, R355): ROOT 0, a zero root word or an invalid entry is NOTVALID; a leaf at level 3, 2
or 1 places the offset at its frame plus the offset bits below its level; the leaf then fails the first of TRANSIT, SEALLOC,
USER, WRITE, READ and EXEC that holds, and the cause is by kind. A fault record (R356, R357): a fault whose asid, page,
cause and subcode match an unanswered record joins it; else record FTAIL is written at FBASE + 32 x (FTAIL mod 2^FSIZE) with
its fields, FTAIL increases and the host's vector is raised; a fault that meets a full buffer writes none and waits behind
those that wait, its requester suspended on the number that the record will have (log entry 45). Each enters the latent
record (R411). Waiting faults are recorded in order of arrival as slots free (R357). Answers of fault records (R289, R358): a
REPLAY of n, by instruction or by register, answers every unanswered record with (n − NUM) mod 2^32 below 2^31: it leaves the
buffer, its accesses and chains retry, its fetches start again; REPLAY.FAIL answers record n alone as a failure with its cause; a
record that is not named stays, and no byte and no register changes; the faults that wait for room are then recorded
(admitFaults). A context whose fetch is answered is READY, or STOPPED at its trap as it was before (log entry 84). -/
def Obligations.TranslationAndFaults : Prop :=
  ((∀ (s : State) (ag : Agent) (va : Word) (kind : Nat), (s.die (wf va 56 47)).tlb = Vector.replicate 5 [] → s.hbmPoison = [] → ag.cls < 4 →
     let die := wf va 56 47
     let root := (s.die die).root.toNat
     let entry (table i : Nat) : Word := BitVec.ofNat 64 (hbmRead s die (table + 8 * i) 8)
     let frame (w : Word) : Nat := wf w 61 22
     let next (w : Word) : Prop := w.getLsbD 0 = true ∧ w.getLsbD 1 = false ∧ wf w 21 2 = 0 ∧ wf w 63 62 = 0 ∧ frame w * 4096 < 192 * 2 ^ 30
     let leaf (w : Word) : Prop := w.getLsbD 0 = true ∧ w.getLsbD 1 = true ∧ w.getLsbD 19 = false ∧ wf w 17 16 = 0 ∧ frame w * 4096 < 192 * 2 ^ 30
     let top := (entry root ag.asid.toNat).toNat
     let w0 := entry top (wf va 46 39)
     let w1 := entry (frame w0 * 4096) (wf va 38 30)
     let w2 := entry (frame w1 * 4096) (wf va 29 21)
     let w3 := entry (frame w2 * 4096) (wf va 20 12)
     let ends (w : Word) (off : Nat) : Prop :=
       (∀ sub, leafFault w ag.user kind = some sub → translate s ag va kind = .error sub) ∧
       (leafFault w ag.user kind = none → ∃ e, translate s ag va kind = .ok (.hbm die (frame w * 4096 + off), e))
     (root = 0 → translate s ag va kind = .error 1) ∧
     (root ≠ 0 → top = 0 → translate s ag va kind = .error 1) ∧
     (root ≠ 0 → top ≠ 0 → w0.getLsbD 0 = false → translate s ag va kind = .error 1) ∧
     (root ≠ 0 → top ≠ 0 → w0.getLsbD 0 = true → w0.getLsbD 1 = true → translate s ag va kind = .error 2) ∧
     (root ≠ 0 → top ≠ 0 → next w0 → leaf w1 → frame w1 % 2 ^ 18 = 0 → ends w1 (wf va 29 0)) ∧
     (root ≠ 0 → top ≠ 0 → next w0 → next w1 → leaf w2 → frame w2 % 2 ^ 9 = 0 → ends w2 (wf va 20 0)) ∧
     (root ≠ 0 → top ≠ 0 → next w0 → next w1 → next w2 → leaf w3 → ends w3 (wf va 11 0)) ∧
     (root ≠ 0 → top ≠ 0 → next w0 → next w1 → next w2 → w3.getLsbD 0 = true → w3.getLsbD 1 = false → translate s ag va kind = .error 2)) ∧
   (∀ (w : Word) (user : Bool) (kind : Nat), kind < 4 →
     let fails : List (Bool × Nat) := [(w.getLsbD 20, 3), (w.getLsbD 7 && wf w 17 16 != 0, 4), (user && !w.getLsbD 5, 5),
       ((kind == 1 || kind == 2) && (!w.getLsbD 3 || w.getLsbD 6), 6), ((kind == 0 || kind == 2) && !w.getLsbD 2, 7), (kind == 3 && !w.getLsbD 4, 8)]
     leafFault w user kind = (fails.find? (·.1)).map (·.2)) ∧
   (∀ kind sub, faultCause kind sub = if kind = 3 then 0x09 else if kind = 1 ∨ (kind = 2 ∧ sub = 6) then 0x08 else 0x07)) ∧
  (∀ (s : State) (ag : Agent) (va : Word) (kind sub : Nat), kind < 4 → sub < 16 → ag.ctx < 8 → ag.queue < 8 → ag.cls < 4 →
     let die := wf va 56 47
     let d := s.die die
     let cause : Byte := faultCause kind sub
     let same (r : FaultRec) : Prop := r.asid = ag.asid ∧ r.va.toNat / 4096 = va.toNat / 4096 ∧ r.cause = cause ∧ r.sub.toNat = sub
     let waits (w : FaultWait) : Prop := w.asid = ag.asid ∧ w.va.toNat / 4096 = va.toNat / 4096 ∧
       (faultCause w.kind w.sub : Byte) = cause ∧ w.sub = sub
     let u := (recordFault ag va kind sub s).2
     let at_ := d.fbase.toNat + 32 * (d.ftail.toNat % 2 ^ d.fsize)
     let number := (recordFault ag va kind sub s).1
     let noted : Prop := d.frozen = false → (d.latentAt ≠ s.cycle ∨ d.latentNow = 0) → ∃ e rest, (u.die die).latent = e :: rest ∧ e.code = 0x03 ∧ e.arg0 = va ∧ e.arg1 = BitVec.ofNat 64 number
     noted ∧
     (∀ r, r ∈ d.records → same r → (∃ r', r' ∈ d.records ∧ same r' ∧ number = r'.num) ∧ (u.die die).records = d.records ∧ SameBytes s u) ∧
     ((∀ r, r ∈ d.records → ¬ same r) → (d.ftail - fhead d).toNat = 2 ^ d.fsize →
       (u.die die).records = d.records ∧ (u.die die).ftail = d.ftail ∧ SameBytes s u ∧
       ((∃ w ∈ d.faultWaits, waits w) → (u.die die).faultWaits = d.faultWaits ∧
         ∃ (i : Nat) (w : FaultWait), d.faultWaits[i]? = some w ∧ waits w ∧ number = (d.ftail.toNat + i) % 2 ^ 32) ∧
       ((∀ w ∈ d.faultWaits, ¬ waits w) → number = (d.ftail.toNat + d.faultWaits.length) % 2 ^ 32 ∧
         ∃ w, (u.die die).faultWaits = d.faultWaits ++ [w] ∧ waits w ∧ w.va = va)) ∧
     ((∀ r, r ∈ d.records → ¬ same r) → (∀ w ∈ d.faultWaits, ¬ waits w) → (d.ftail - fhead d).toNat ≠ 2 ^ d.fsize → d.fsig = 0 →
       number = d.ftail.toNat ∧ (u.die die).ftail = d.ftail + 1 ∧
       (∃ r, (u.die die).records = d.records ++ [r] ∧ r.num = d.ftail.toNat ∧ same r ∧ r.va = va) ∧
       hbmRead u die at_ 8 = va.toNat ∧ hbmRead u die (at_ + 8) 8 = ag.asid.toNat * 2 ^ 48 + d.ftail.toNat ∧
       hbmRead u die (at_ + 16) 8 = ag.core % 2 ^ 20 * 2 ^ 12 + ag.ctx * 2 ^ 9 + ag.queue * 2 ^ 6 + ag.cls * 2 ^ 4 ∧
       hbmRead u die (at_ + 24) 8 = cause.toNat * 2 ^ 8 + sub * 2 ^ 4 + kind ∧
       (∀ a, (a < hkey die at_ ∨ hkey die at_ + 32 ≤ a) → frameRead u none a 1 = frameRead s none a 1) ∧
       (u.pkg (die / 4)).msix = (s.pkg (die / 4)).msix ++ [4 * (die % 4)])) ∧
  (∀ (s : State) (die : Nat), let d := s.die die
     (d.faultWaits = [] → admitFaults die s = s) ∧
     ((d.ftail - fhead d).toNat = 2 ^ d.fsize → admitFaults die s = s) ∧
     (∀ w ws, d.faultWaits = w :: ws → (d.ftail - fhead d).toNat ≠ 2 ^ d.fsize →
       admitFaults die s = admitFaults die (logFault die w (s.modDie die fun d => { d with faultWaits := ws })) ∧
       ∃ r, ((logFault die w s).die die).records = d.records ++ [r] ∧ r.num = d.ftail.toNat ∧ r.va = w.va ∧ r.asid = w.asid)) ∧
  ∀ (s : State) (die : Nat) (n : Half),
    let named (r : FaultRec) : Prop := r ∈ (s.die die).records ∧ (n - BitVec.ofNat 32 r.num).toNat < 2 ^ 31
    let answered (t : State) : Prop :=
      (∀ r, r ∈ (t.die die).records ↔ r ∈ (s.die die).records ∧ ¬ named r) ∧
      (∀ k q r, named r → q ∈ (s.ctx k).reqs → q.state = .suspended die r.num → { q with
        state := .retry } ∈ (t.ctx k).reqs) ∧
      (∀ q c r, named r → c ∈ (s.queue q).chains → c.wait = .suspended die r.num → { c with
        wait := .retry } ∈ (t.queue q).chains) ∧
      (∀ k r, named r → (s.ctx k).fetchStop = some (die, r.num) → (t.ctx k).fetchStop = none ∧
        (t.ctx k).status = if (s.ctx k).h = true then .stopped else .ready) ∧
      (∀ k q, q ∈ (s.ctx k).reqs → (∀ r, named r → q.state ≠ .suspended die r.num) → q ∈ (t.ctx k).reqs) ∧
      (∀ k, (t.ctx k).s = (s.ctx k).s ∧ (t.ctx k).pc = (s.ctx k).pc) ∧ SameBytes s t
    let failed (t : State) : Prop :=
      (∀ r, r ∈ (t.die die).records ↔ r ∈ (s.die die).records ∧ r.num ≠ n.toNat) ∧
      (∀ k q r, r ∈ (s.die die).records → (∀ r' ∈ (s.die die).records, r'.num = n.toNat → r' = r) → r.num = n.toNat →
        q ∈ (s.ctx k).reqs → q.state = .suspended die n.toNat → { q with
          state := .failed { cause := r.cause, sub := r.sub, addr := r.va } } ∈ (t.ctx k).reqs) ∧
      (∀ k q, q ∈ (s.ctx k).reqs → q.state ≠ .suspended die n.toNat → q ∈ (t.ctx k).reqs) ∧
      (∀ k, (t.ctx k).s = (s.ctx k).s ∧ (t.ctx k).pc = (s.ctx k).pc) ∧ SameBytes s t
    (∃ t, exec (.replayRegisterWrite die n) s = .next (admitFaults die t) ∧ answered t) ∧
    (∀ a b, Runs (.replay a b) s → wf (rdS s a) 9 0 = die → (rdS s b).truncate 32 = n → ∃ t, exec (.replay a b) s = .next (admitFaults die t) ∧ answered t) ∧
    ((∀ k, (s.ctx k).fetchStop ≠ some (die, n.toNat)) → ∃ t, exec (.rfailRegisterWrite die n) s = .next (admitFaults die t) ∧ failed t) ∧
    (∀ a b, Runs (.replayFail a b) s → wf (rdS s a) 9 0 = die → (rdS s b).truncate 32 = n → (∀ k, (s.ctx k).fetchStop ≠ some (die, n.toNat)) →
      ∃ t, exec (.replayFail a b) s = .next (admitFaults die t) ∧ failed t)

/-- Invalidation and register writes (R334, R342, R348, R354, R397): after INV no pool holds a translation of the range and
every other one stays, and INVDONE increases by 1 for each when it completes; a written register reads as written, in its
field's width and range; a read-only register does not change; no byte of memory changes. The firmware's write to a die's
latent record empties a frozen ring, which takes events again (R412; that this write is how it clears is the model's choice,
log entry 60). That a value outside a field's range leaves the field as it was, and that the reserved bits of CTL read 0, is
deduced, log entry 48; a window's words go to every die of the domain as to the switches. -/
def Obligations.InvalidationAndRegisters : Prop :=
  ∀ (s : State) (die : Nat) (v : Word),
    (let asid : BitVec 16 := v.extractLsb' 48 16
     let size := if wf v 11 10 = 0 then 2 ^ 12 else if wf v 11 10 = 1 then 2 ^ 21 else 2 ^ 30
     let base := wf v 46 12 * 4096 / size * size
     let inside (e : TlbEntry) : Prop := e.asid = asid ∧ (wf v 11 10 = 3 ∨ (e.base < base + size ∧ base < e.base + e.size))
     ∃ t, exec (.invRegisterWrite die v) s = .next t ∧
       (∀ p e, e ∈ poolOf t die p ↔ e ∈ poolOf s die p ∧ ¬ inside e) ∧ (t.die die).invals.length = (s.die die).invals.length + 1 ∧
       (t.die die).invdone = (s.die die).invdone ∧ SameBytes s t) ∧
    (∀ i rest, (s.die die).invals = i :: rest → ∃ t, exec (.invalidationComplete die) s = .next t ∧ (t.die die).invals = rest ∧
      (t.die die).invdone = (s.die die).invdone + 1 ∧ SameBytes s t) ∧
    ((s.die die).invals = [] → exec (.invalidationComplete die) s = .next s) ∧
    (∀ off : BitVec 8, off ∉ [0x30, 0x38] → (off = 0x10 → (s.die die).faultWaits = []) → ∃ t, exec (.registerWrite (.tcb die off) v) s = .next t ∧ SameBytes s t ∧
      (off ∈ [0x00, 0x08, 0x28, 0x50, 0x60] → tcbRead (t.die die) off.toNat = v) ∧
      (off ∈ [0x10, 0x68] → tcbRead (t.die die) off.toNat =
        if 4 ≤ wf v 4 0 ∧ wf v 4 0 ≤ 16 then BitVec.ofNat 64 (wf v 4 0) else tcbRead (s.die die) off.toNat) ∧
      (off = 0x58 → tcbRead (t.die die) 0x58 = v &&& 0xFFFF) ∧ (off = 0x78 → tcbRead (t.die die) 0x78 = v &&& 0xFFFFFFFF) ∧
      (∀ o, o ≠ off.toNat ∨ off ∉ [0x00, 0x08, 0x10, 0x28, 0x50, 0x58, 0x60, 0x68, 0x78] →
        tcbRead (t.die die) o = tcbRead (s.die die) o)) ∧
    (exec (.registerWrite (.tcb die 0x10) v) s = .next (admitFaults die (s.modDie die fun d => { d with
      fsize := if 4 ≤ wf v 4 0 ∧ wf v 4 0 ≤ 16 then wf v 4 0 else d.fsize }))) ∧
    (∀ pkg q, ∃ t u x, exec (.registerWrite (.qcb pkg q 0) v) s = .next t ∧ exec (.registerWrite (.qcb pkg q 1) v) s = .next u ∧
      exec (.registerWrite (.qcb pkg q 3) v) s = .next x ∧ x = s ∧ (t.qcb (4096 * pkg + q)).base = v ∧
      (u.qcb (4096 * pkg + q)).ctl = v &&& 0xFFFFFFFFFFF00001 ∧ (t.qcb (4096 * pkg + q)).head = (s.qcb (4096 * pkg + q)).head ∧
      (u.qcb (4096 * pkg + q)).head = (s.qcb (4096 * pkg + q)).head) ∧
    (∀ i : BitVec 4, ∃ t u, exec (.registerWrite (.window i 0) v) s = .next t ∧ exec (.registerWrite (.window i 1) v) s = .next u ∧
      (t.windows.get i.toFin).1 = v &&& 0x81FFFFFFFFE00000 ∧ (t.windows.get i.toFin).2 = (s.windows.get i.toFin).2 ∧
      (u.windows.get i.toFin).2 = v &&& 0xFFFF0000000003FF ∧ (u.windows.get i.toFin).1 = (s.windows.get i.toFin).1 ∧
      ∀ d, d < 4 * s.domain → (t.die d).windows.get i.toFin = t.windows.get i.toFin ∧ (u.die d).windows.get i.toFin = u.windows.get i.toFin) ∧
    (∃ t, exec (.registerWrite (.pmargin die) v) s = .next t ∧
      (t.die die).pmargin = if 1 ≤ v.toNat ∧ v.toNat ≤ 255 then v.toNat else (s.die die).pmargin) ∧
    (∀ pkg, ∃ t, exec (.registerWrite (.pcap pkg) v) s = .next t ∧ (t.pkg pkg).pcap = min v.toNat 2400) ∧
    (∃ t, exec (.registerWrite .domain v) s = .next t ∧ t = { s with
        domain := if 1 ≤ v.toNat ∧ v.toNat ≤ 192 then v.toNat else s.domain }) ∧
    (∀ d, (s.die d).frozen = false → exec (.registerWrite (.latent d) v) s = .next s) ∧
    (∀ d, (s.die d).frozen = true → ∃ t, exec (.registerWrite (.latent d) v) s = .next t ∧ t = { s with
        dies := t.dies } ∧ (t.die d).latent = [] ∧ (t.die d).frozen = false ∧ (t.die d).seq = (s.die d).seq ∧
      ∀ j, j ≠ d → t.die j = s.die j) ∧
    (∀ core, ∃ t, exec (.registerWrite (.stvec core) v) s = .next t ∧ (t.core core).stvec = v &&& ~~~ 7 ∧ OnlyCore core s t)

/-! ## Launches -/

/-- Host work queues (R335, R336): a TAIL write that overruns the ring clears EN and is not used; the front record is read
at BASE + 256 x (HEAD mod 2^SIZE) and HEAD increases, or EN is cleared with HEAD as it was; a record that breaks the table of
R319 ends at once with cause 0x01 and that row's XSUB, and is the front no more; another waits until both its dependences
are met, an unused one counting as met, and its age is the dial time at which it becomes eligible. Choosing
(R337, R338): the records that wait on a package stand in the order of priority, age and queue; the first that fits is
chosen; a first record that has waited 2 ms since it became eligible is reserved for, and no record of equal or lower priority is placed on a die that a
reserved one could use. SIZE 0 acts as 1 (log entry 83). The model's choices: what is refused at the front, before its
dependences (log entry 81); how a dependence is tested and registered (log entries 50 and 51); 2 ms from eligibility (log entry 53);
a fetch without a live path waits, log entry 44. -/
def Obligations.QueuesAndDispatch : Prop :=
  (∀ (s : State) (pkg q : Nat),
     let key := 4096 * pkg + q
     let x := s.qcb key
     let size := max 1 (wf x.ctl 39 36)
     let off (t : State) : Prop := (t.qcb key).ctl = x.ctl &&& ~~~ 1 ∧ (t.qcb key).head = x.head ∧ (t.qcb key).tail = x.tail ∧
       (t.qcb key).front = x.front ∧ t.launches = s.launches
     (∀ v, (v - x.head).toNat ≤ 2 ^ size → ∃ t, exec (.queueTailWrite pkg q v) s = .next t ∧ t = { s with qcbs := t.qcbs } ∧
       t.qcb key = { x with
         tail := v } ∧ ∀ j, j ≠ key → t.qcb j = s.qcb j) ∧
     (∀ v, 2 ^ size < (v - x.head).toNat → ∃ t, exec (.queueTailWrite pkg q v) s = .next t ∧ off t) ∧
     ((x.ctl.getLsbD 0 = false ∨ x.front.isSome = true ∨ x.head = x.tail) → exec (.recordFetch pkg q) s = .next s) ∧
     (x.ctl.getLsbD 0 = true → x.front = none → x.head ≠ x.tail →
       let a := x.base + BitVec.ofNat 64 (256 * (x.head.toNat % 2 ^ size))
       let ag : Agent := ⟨4096 * pkg, 5, q + 1, 0, x.ctl.extractLsb' 20 16, false, false⟩
       (∀ u, quietRead ag a 256 s = (.error .waits, u) → exec (.recordFetch pkg q) s = .next u) ∧
       (∀ u, quietRead ag a 256 s = (.error .fails, u) → u.qcb key = x → u.launches = s.launches → ∃ t, exec (.recordFetch pkg q) s = .next t ∧ off t) ∧
       (∀ v u, quietRead ag a 256 s = (.ok v, u) → u.qcb key = x → ∀ r : Vector Word 32, (∀ i : Fin 32, r.get i = BitVec.ofNat 64 (v / 2 ^ (64 * i.val))) →
         let w (i : Fin 32) : Word := r.get i
         let refused := recordSub u.domain (Config.driverQueue key) r
         (refused = none → ∃ t l, exec (.recordFetch pkg q) s = .next t ∧ find? t.launches u.seq = some l ∧ l.w = r ∧
           l.addr = a ∧ l.tenant = x.ctl.extractLsb' 48 16 ∧ l.asid = (w 31).truncate 16 ∧ l.prio = min (wf (w 1) 7 0) (wf x.ctl 47 40) ∧
           (t.qcb key).head = x.head + 1 ∧ (t.qcb key).front = some u.seq ∧
           l.phase = (if w 23 = 0 ∧ w 25 = 0 then .eligible else .waiting) ∧
           (w 23 = 0 → w 25 = 0 → l.age = dial u (4 * pkg) ∧ l.waits = dial u (4 * pkg))) ∧
         (∀ n, refused = some n → n < 6 → ∃ t l, exec (.recordFetch pkg q) s = .next (writeCrec u.seq t) ∧ find? t.launches u.seq = some l ∧
           l.w = r ∧ l.phase = .ended ∧ l.killCause = some (0x01, BitVec.ofNat 8 n) ∧ (t.qcb key).head = x.head + 1 ∧ (t.qcb key).front = none))) ∧
     (∀ id l b, x.front = some id → find? s.launches id = some l → l.phase = .waiting →
       let met := if b then x.dep1 else x.dep0
       let waits : Prop := (allRegistered s).any (fun r => r.who == .dep pkg q b) = true
       (x.dep0 = true → x.dep1 = true → ∀ ev, ev = .dependenceSatisfied pkg q b ∨ ev = .dependenceReread pkg q b →
         ∃ t, exec ev s = .next t ∧ find? t.launches id = some { l with
           phase := .eligible, age := dial s (4 * pkg), waits := dial s (4 * pkg) }) ∧
       (met = false → ¬ waits → testsNow x l b = false → exec (.dependenceSatisfied pkg q b) s = .next s) ∧
       (∀ v u ev, met = false → ¬ waits → l.io = .issued →
         (ev = .dependenceReread pkg q b ∨ (ev = .dependenceSatisfied pkg q b ∧ testsNow x l b = true)) →
         let a := l.w.get (if b then 25 else 23)
         let acc : Access := .waitw (l.w.get (if b then 26 else 24)) 0
         holeTrap s a = none → isLocal a = false →
         globalAccess ⟨4096 * pkg, 5, 0, 2, l.asid, false, false⟩ a acc (.dep pkg q b) (s.modLaunch id fun l => { l with
           io := .issued }) = (.done 0 v 0, u) →
         u.qcb key = x → find? u.launches id = some l →
         ∃ t, exec ev s = .next t ∧ ((if b then (t.qcb key).test1 else (t.qcb key).test0) = false) ∧
           ((if b then (t.qcb key).dep1 else (t.qcb key).dep0) = decide (v = 0)) ∧
           find? t.launches id = some (if v = 0 ∧ (if b then x.dep0 else x.dep1) = true then { l with
             phase := .eligible, age := dial u (4 * pkg), waits := dial u (4 * pkg) } else l)))) ∧
  (∀ (s : State) (pkg : Nat),
     (waitingOn s pkg).Pairwise (fun a b => ¬ (a.2.prio < b.2.prio) ∧ (a.2.prio = b.2.prio → a.2.age ≤ b.2.age ∧
       (a.2.age = b.2.age → a.2.queue ≤ b.2.queue))) ∧
     (∀ p, p ∈ waitingOn s pkg ↔ p ∈ s.launches ∧ p.2.pkg = pkg ∧ (p.2.phase = .eligible ∨ p.2.phase = .saved)) ∧
     ((∀ p ∈ s.launches, launchOver s p.1 = false) →
       ∃ t, exec (.dispatchChoose pkg) s = .next t ∧ t.launches = s.launches ∧ SameBytes s t ∧
         (t.pkg pkg).chosen = ((waitingOn s pkg).find? fun p => (placementOf s p.1 p.2 []).isSome).map (·.1)) ∧
     (∀ id l rest, waitingOn s pkg = (id, l) :: rest →
       (l.waits + 2000000 ≤ dial s (4 * pkg) → ∃ t, exec (.reservationTimeout pkg) s = .next t ∧ id ∈ (t.pkg pkg).reserved ∧
         (∀ r, r ≠ id → (r ∈ (t.pkg pkg).reserved ↔ r ∈ (s.pkg pkg).reserved)) ∧ t.launches = s.launches) ∧
       (dial s (4 * pkg) < l.waits + 2000000 → exec (.reservationTimeout pkg) s = .next s)) ∧
     (∀ id l p r y, l.pkg = pkg → l.phase ≠ .saved → placementOf s id l [] = some p → r ∈ (s.pkg pkg).reserved → r ≠ id →
       find? s.launches r = some y → (y.phase = .eligible ∨ y.phase = .saved) → l.prio ≤ y.prio → ∀ c ∈ p.cores, couldUse s y (dieOf c) = false))

/-- Placing and starting (R322 to R325, R339, R340): a chosen record with no image list takes its cores all at once, each
member's context being as stated; every member starts in one cycle once START is reached; after 50 µs the launch is classed
and the class is stored. -/
def Obligations.PlacementRules : Prop :=
  ∀ (s : State) (id : Nat) (l : Launch), find? s.launches id = some l →
    let w (i : Fin 32) : Word := l.w.get i
    (∀ p, l.phase = .eligible → (s.pkg l.pkg).chosen = some id → placementOf s id l [] = some p → p.members.Nodup →
      (∀ k ∈ p.members, k % 8 < 4) → wf (w 31) 23 16 = 0 →
      ∃ t l', exec (.launchPlace id) s = .next t ∧ find? t.launches id = some l' ∧ l'.phase = .placed ∧ l'.members = p.members ∧
        l'.cores = p.cores ∧ l'.w = l.w ∧ l'.base = shareBase (shareIndex s l) l.w ∧
        (∀ c ∈ p.cores, (t.core c).launch = some id ∧ (t.core c).tenant = some l.tenant ∧ (t.core c).hdl = w 12 ∧ (t.core c).vshare = 1 ∧
          (t.core c).gmask = 0) ∧
        (∀ i k, p.members[i]? = some k →
          let c := t.ctx k
          let n := k % 8
          let base : Word := BitVec.ofNat 64 (0x7E * 2 ^ 57 + (k / 8 % 256) * 2 ^ 17 + wf (w 10) 49 46 * 2 ^ 13) + BitVec.ofNat 64 (n * wf (w 10) 45 32)
          let arg (v : Word) : Word := if wf v 63 57 = 0x7D then BitVec.ofNat 64 (0x7E * 2 ^ 57 + (k / 8 % 256) * 2 ^ 17 + wf v 16 0) else v
          c.status = .idle ∧ c.pc = w 0 ∧ c.mode = (w 1).extractLsb' 12 7 ∧ c.asid = l.asid ∧ c.c = 0 ∧ c.pend = 0 ∧ c.fflags = 0 ∧
          (∀ r : Fin 7, c.rd (BitVec.ofNat 5 (r.val + 1)) = arg (w ⟨13 + r.val, by omega⟩)) ∧ c.rd 28 = arg (w 20) ∧
          c.rd 30 = 0xFE00000000000000 ∧ c.spbase = base ∧ c.spsize = BitVec.ofNat 14 (wf (w 10) 45 32) ∧
          c.rd 31 = base + BitVec.ofNat 64 (wf (w 10) 45 32) ∧
          c.spovf = (if w 11 = 0 then 0 else w 11 + BitVec.ofNat 64 (2 ^ 18 * (l'.base + i + 1))) ∧
          c.tbase = BitVec.ofNat 4 (n * wf (w 10) 11 7) ∧ c.tcount = BitVec.ofNat 5 (wf (w 10) 11 7) ∧
          c.wgt = BitVec.ofNat 63 (memberWeight l.w) ∧ c.launch = some id) ∧
        (∀ k, k ∉ p.members → (∀ c ∈ p.members, k ≠ 8 * (c / 8) + 4) → t.ctx k = s.ctx k)) ∧
    (l.phase = .eligible → (s.pkg l.pkg).chosen ≠ some id → exec (.launchPlace id) s = .next s) ∧
    (let now := dial s (dieOf (coreOf (l.members.headD 0)))
     (l.phase = .placed → (w 21).toNat ≤ now → ∃ t, exec (.launchStart id) s = .next t ∧ find? t.launches id = some { l with
        phase := .started, startedAt := now } ∧
        (∀ k ∈ l.members, (s.ctx k).left = .no → t.ctx k = { s.ctx k with
          status := .ready }) ∧ (∀ k, k ∉ l.members → t.ctx k = s.ctx k) ∧ SameBytes s t) ∧
     (l.phase = .placed → now < (w 21).toNat → exec (.launchStart id) s = .next s) ∧
     (l.phase = .started → l.classed = false → l.startedAt + 50000 ≤ now → ∃ t c, exec (.launchClassify id) s = .next t ∧
        (c = true ↔ 32 * l.bytes ≤ l.ops) ∧ find? t.launches id = some { l with
          cls := some c, classed := true } ∧ (t.pkg l.pkg).classes.head? = some ⟨l.asid, w 0, c⟩ ∧ t.ctxs = s.ctxs ∧ SameBytes s t))

/-- Pre-emption and restore (R342 to R345): the one candidate that frees a placement for a first record that cannot be
placed is stopped; a stopped launch whose members have come to rest is saved and its cores are cleared; a saved launch that
is chosen and fits is put back, its members' registers and its banks' bytes as they were saved. Release and kills (R281,
R306, R328): a core of a started launch whose members have all left, with nothing in flight to it, is cleared and released;
a host's request kills a started launch's member. -/
def Obligations.PreemptionReleaseAndKill : Prop :=
  (∀ (s : State) (pkg id : Nat) (l : Launch), find? s.launches id = some l →
     (∀ v lv rest, (∀ p ∈ s.launches, p.2.pkg = pkg → p.2.stopping = false) → waitingOn s pkg = (id, l) :: rest →
       placementOf s id l [] = none → candidates s l = [(v, lv)] → placementOf s id l [v] ≠ none → shares s v = [(v, lv)] → withMates s 4 [v] = [v] →
       find? s.launches v = some lv → lv.phase = .started →
       ∃ t, exec (.preempt pkg) s = .next t ∧ find? t.launches v = some { lv with
         stopping := true } ∧ t.ctxs = s.ctxs ∧ SameBytes s t) ∧
     (s.launches.filter (fun p => p.2.pkg == pkg && p.2.stopping) = [(id, l)] → s.launches.filter (fun p => p.1 == id) = [(id, l)] →
       withMates s 4 [id] = [id] → l.phase = .started → drained s l = true →
       ∃ t x, exec (.preempt pkg) s = .next t ∧ find? t.launches id = some { l with
         phase := .saved, waits := dial s (4 * l.pkg), stopping := false, saved := some x } ∧
         (∀ p ∈ s.ctxs, p.1 / 8 ∈ l.live → p.1 % 8 < 5 → ∃ c, (p.1, c) ∈ x.ctxs ∧ c.s = p.2.s ∧ c.c = p.2.c ∧ c.mode = p.2.mode) ∧
         (∀ k, k / 8 ∈ l.live → t.ctx k = {}) ∧ (∀ k, k / 8 ∉ l.live → t.ctx k = s.ctx k) ∧
         (∀ c ∈ l.live, (t.core c).launch = none ∧ (t.core c).rows = [] ∧ (t.core c).plates = (s.core c).plates) ∧
         (∀ a, a / 131072 ∈ l.live → readByte t.bankMem a = 0)) ∧
     (∀ x, l.saved = some x → (s.pkg l.pkg).chosen = some id → placementOf s id l [] ≠ none → (x.ctxs.map (·.1)).Nodup →
       (x.bytes.map (·.1)).Nodup → queuesFit s x = true → savedMates s id x = [] → (∀ p ∈ x.ctxs, ∀ y ∈ p.2.landings, s.cycle < y.due) →
       ∃ t, exec (.launchRestore id) s = .next t ∧ (∃ l', find? t.launches id = some l' ∧ l'.phase = .started ∧ l'.saved = none) ∧
         (∀ p ∈ x.ctxs, (t.ctx p.1).s = p.2.s ∧ (t.ctx p.1).c = p.2.c ∧ (t.ctx p.1).mode = p.2.mode) ∧
         (∀ p ∈ x.bytes, readByte t.bankMem p.1 = p.2) ∧ (∀ a, (∀ p ∈ x.bytes, p.1 ≠ a) → readByte t.bankMem a = readByte s.bankMem a)) ∧
     (l.saved = none → exec (.launchRestore id) s = .next s)) ∧
  (∀ (s : State) (id : Nat) (l : Launch), s.launches = [(id, l)] → l.phase = .started → l.w.get 27 = 0 →
     (∀ core, (s.core core).launch = some id → instanceLeft s l core = true → (∀ p ∈ s.queues, p.2.chains = []) →
       openReqs s core = false → recordOwed s core = false → coreBusy s core = false →
       ∃ t, exec (.coreRelease core) s = .next t ∧ (∀ l', find? t.launches id = some l' → core ∈ l'.released) ∧
         (t.core core).launch = none ∧ (t.core core).tenant = none ∧ (t.core core).rows = [] ∧ (t.core core).plates = (s.core core).plates ∧
         (∀ k, k / 8 = core → t.ctx k = {}) ∧ (∀ a, a / 131072 = core → readByte t.bankMem a = 0) ∧
         (∀ b, b / 16 = core → (t.bank b).desc = 0)) ∧
     (∀ core, (s.core core).launch = some id → instanceLeft s l core = true → openReqs s core = true →
       ∃ t, exec (.coreRelease core) s = .next t ∧ (t.core core).launch = some id ∧ (t.core core).draining = true) ∧
     (∀ k, l.here = [k] → (s.ctx k).left = .no → (s.ctx k).launch = some id → departs k s = false →
       (∀ r ∈ allRegistered s, r.mine k (s.ctx k) = false) →
       ∃ t l', exec (.launchKillRequest id) s = .next t ∧ (t.ctx k).left = .killed ∧ (t.ctx k).status = .idle ∧ (t.ctx k).tray = [] ∧
         (∀ x ∈ (s.ctx k).tray, x ∈ (t.ctx k).lost) ∧ (t.ctx k).wgt = 0 ∧ find? t.launches id = some l' ∧ l'.killed = l.killed + 1 ∧
         l'.killCause = (match l.killCause with | some c => some c | none => some (0x15, 1)) ∧
         l'.returns = l.returns ++ [((s.ctx k).wgt.toNat : Int)] ∧ SameBytes s t))

/-! ## The host, dials, the fabric, reliability -/

/-- A host access (R401, R357, R396): through BAR2, one within the aperture and the domain is performed as a class 0 request of
the die and asid that BAR0 chose, and answered, or suspended by a fault record; while it is suspended nothing happens; an access
answered as a failure gives the host its cause; a die field of no die fails PROT (R26); without a live path it waits 2 ms and
fails TIMEOUT (log entry 44); one outside the aperture does nothing. Through BAR0 the host chooses die and asid, and reads registers. -/
def Obligations.HostAccessRules : Prop :=
  ∀ (s : State) (pkg off : Nat) (z : Size) (v : Word),
    let n := sizeBytes z
    let rd : HostAcc := .read pkg off z
    let wr : HostAcc := .write pkg off z v
    let d := (s.pkg pkg).apDie
    let asid := (s.pkg pkg).apAsid
    let die := d.toNat
    let ag : Agent := ⟨4096 * pkg, 5, 0, 0, asid, false, true⟩
    let ea : Word := BitVec.ofNat 64 (die * 2 ^ 47 + off)
    (∀ a, (2 ^ 34 < off + n ∨ s.domain ≤ pkg) → a = rd ∨ a = wr → exec (.hostAccess a) s = .next s) ∧
    (off + n ≤ 2 ^ 34 → pkg < s.domain →
      ((∀ h ∈ s.hostReqs, h.acc ≠ rd) → 4 * s.domain ≤ die → ∃ t, exec (.hostAccess rd) s = .next t ∧
        t.hostOut = s.hostOut ++ [.failed 0x0A 0] ∧ SameBytes s t) ∧
      ((∀ h ∈ s.hostReqs, h.acc ≠ rd) → die < 4 * s.domain → noPath s (4096 * pkg) die = true → ∃ t, exec (.hostAccess rd) s = .next t ∧
        t.hostReqs = s.hostReqs ++ [⟨rd, d, asid, .retry, some s.cycle⟩] ∧ t.hostOut = s.hostOut ∧ SameBytes s t) ∧
      (die < 4 * s.domain → noPath s (4096 * pkg) die = false →
        ((∀ h ∈ s.hostReqs, h.acc ≠ rd) → ∀ x f u, globalAccess ag ea (.read n) (.queue 0) s = (.done 0 x f, u) →
          ∃ t, exec (.hostAccess rd) s = .next t ∧ t = { u with
            hostReqs := t.hostReqs, hostOut := u.hostOut ++ [.data (BitVec.ofNat 64 x)] }) ∧
        ((∀ h ∈ s.hostReqs, h.acc ≠ wr) → ∀ x f u, globalAccess ag ea (.write n (v.zeroExtend 2048)) (.queue 0) s = (.done 0 x f, u) →
          ∃ t, exec (.hostAccess wr) s = .next t ∧ t = { u with
            hostReqs := t.hostReqs }) ∧
        ((∀ h ∈ s.hostReqs, h.acc ≠ rd) → ∀ dd num u, globalAccess ag ea (.read n) (.queue 0) s = (.fault dd num, u) →
          ∃ t, exec (.hostAccess rd) s = .next t ∧ ⟨rd, d, asid, .suspended dd num, none⟩ ∈ t.hostReqs ∧ t.hostOut = u.hostOut)) ∧
      (∀ e a c, s.hostReqs = [⟨rd, e, a, .retry, some c⟩] → e.toNat < 4 * s.domain → noPath s (4096 * pkg) e.toNat = true →
        (s.cycle < c + 6000000 → exec (.hostAccess rd) s = .next s) ∧
        (c + 6000000 ≤ s.cycle → ∃ t, exec (.hostAccess rd) s = .next t ∧ t.hostReqs = [] ∧ t.hostOut = s.hostOut ++ [.failed 0x12 0] ∧
          SameBytes s t)) ∧
      (∀ e a dd num c, s.hostReqs = [⟨rd, e, a, .suspended dd num, c⟩] → exec (.hostAccess rd) s = .next s) ∧
      (∀ e a c g, s.hostReqs = [⟨rd, e, a, .failed g, c⟩] → ∃ t, exec (.hostAccess rd) s = .next t ∧ t.hostReqs = [] ∧
        t.hostOut = s.hostOut ++ [.failed g.cause g.sub] ∧ SameBytes s t)) ∧
    (∀ e a, ∃ t, exec (.hostAccess (.choose pkg e a)) s = .next t ∧ t = { s with
        pkgs := t.pkgs } ∧ (t.pkg pkg).apDie = e ∧ (t.pkg pkg).apAsid = a ∧ ∀ p, p ≠ pkg → t.pkg p = s.pkg p) ∧
    (∀ e o, exec (.hostAccess (.register (.tcb e o))) s = .next { s with
      hostOut := s.hostOut ++ [.data (tcbRead (s.die e) o.toNat)] }) ∧
    (∀ q w, exec (.hostAccess (.register (.qcb pkg q w))) s = .next { s with
      hostOut := s.hostOut ++ [.data (qcbRead (s.qcb (4096 * pkg + q)) w.toNat)] })

/-- Dials (R371 to R373): the epoch is set once at each die, to a value that its dial does not exceed, and where the grandmaster's is
set already to the grandmaster's reading; every millisecond a package that is not the grandmaster takes up the difference that it
measures from the grandmaster's dial, to 12 ns either way, with no step; a dial does not step back, and its rate stays within
100 parts per million; a lost grandmaster's loss and the takeover by the lowest live package. What R373 leaves to the parts is log
entry 18. -/
def Obligations.DialRules : Prop :=
  (∀ (s : State) (v : Word), 0 < s.domain → (∀ g, s.grandmaster = some g → g < s.domain) →
    (∀ d, d < 4 * s.domain → (s.die d).epochSet = false → dial s d ≤ v.toNat) →
    ((s.die (4 * s.grandmaster.getD 0)).epochSet = true → v.toNat = dial s (4 * s.grandmaster.getD 0)) →
    ∃ t, exec (.dialEpochSet v) s = .next t ∧ (∀ d, d < 4 * s.domain → (s.die d).epochSet = false → dial t d = v.toNat ∧ (t.die d).epochSet = true) ∧
      (∀ d, 4 * s.domain ≤ d ∨ (s.die d).epochSet = true → t.die d = s.die d) ∧ t = { s with
        dies := t.dies }) ∧
  (∀ (s : State) (v : Word) (d : Nat), d < 4 * s.domain → (s.die d).epochSet = false → v.toNat < dial s d →
    exec (.dialEpochSet v) s = .next s) ∧
  (∀ (s : State) (v : Word), (∀ d, d < 4 * s.domain → (s.die d).epochSet = true) → exec (.dialEpochSet v) s = .next s) ∧
  (∀ (s : State) (pkg g : Nat), syncDue s pkg = some g ↔ s.grandmaster = some g ∧ g ≠ pkg ∧ pkg < s.domain ∧ (s.pkg pkg).lost = false ∧
    (s.pkg g).lost = false ∧ (s.pkg pkg).syncAt ≤ s.cycle ∧ (s.die (4 * g)).epochSet = true ∧ (s.die (4 * pkg)).epochSet = true) ∧
  (∀ (s : State) (pkg ns g : Nat) (ahead : Bool), syncDue s pkg = some g → ns ≤ 12 →
    ∃ t, exec (.dialSyncExchange pkg ns ahead) s = .next t ∧ (∀ d, dial t d = dial s d) ∧
      (∀ d, d / 4 = pkg → (t.die d).slewAt = s.cycle ∧ (t.die d).slew =
        dialFine s (4 * g) + (if ahead then -(30000 * ns : Int) else 30000 * ns) - dialFine s (4 * pkg)) ∧
      (∀ d, d / 4 ≠ pkg → t.die d = s.die d) ∧ (t.pkg pkg).syncAt = (s.cycle / 3000000 + 1) * 3000000) ∧
  (∀ (s : State) (pkg ns : Nat) (ahead : Bool), syncDue s pkg = none ∨ 12 < ns → exec (.dialSyncExchange pkg ns ahead) s = .next s) ∧
  (∀ (s : State) (d n : Nat), 0 ≤ dialFine s d → dialFine s d + 10001 * n < 30000 * 2 ^ 64 → (s.die d).slewAt ≤ s.cycle →
    let t : State := { s with
      cycle := s.cycle + n }
    dial s d ≤ dial t d ∧ 30000 * (dial t d - dial s d) ≤ 10001 * n + 30000 ∧ 9999 * n ≤ 30000 * (dial t d - dial s d) + 30000) ∧
  (∀ (s : State) (pkg : Nat),
    (s.grandmaster = some pkg → (s.pkg pkg).lost = true → ∃ t, exec (.grandmasterLost pkg) s = .next t ∧ t.grandmaster = none ∧
      t.masterLostAt = s.cycle ∧ t.ctxs = s.ctxs ∧ SameBytes s t) ∧
    (s.grandmaster ≠ some pkg ∨ (s.pkg pkg).lost = false → exec (.grandmasterLost pkg) s = .next s) ∧
    (s.grandmaster = none → pkg < s.domain → (s.pkg pkg).lost = false → (∀ p, p < pkg → (s.pkg p).lost = true) →
      ∃ t, exec (.grandmasterTakeover pkg) s = .next t ∧ t.grandmaster = some pkg ∧ t.ctxs = s.ctxs ∧ SameBytes s t))

/-- Links and switches (R395, R398, R399): a good flit advances its link's sequence, a bad one is retried and the sixteenth
in a row takes the link down; a relaxed RED to an eligible page of its tenant's window opens a merge entry or joins the one
with its address, operation and size; the merged update is performed at the home one contribution at a time (R314), each in
its own address space and privilege, and then every contributor is acknowledged and the page's answer recorded. -/
def Obligations.FabricRules : Prop :=
  (∀ (s : State) (pkg link : Nat),
    let l := look {} (s.pkg pkg).links link
    let l' (t : State) : Link := look {} (t.pkg pkg).links link
    link < 18 → l.down = false →
    (∃ t, exec (.flitReceive pkg link true) s = .next t ∧ l' t = { l with
      seq := l.seq + 1, retries := 0 } ∧ ∀ i, i ≠ link → look {} (t.pkg pkg).links i = look {} (s.pkg pkg).links i) ∧
    (∃ t, exec (.flitReceive pkg link false) s = .next t ∧ l' t = { l with
      retries := l.retries + 1, down := decide (16 ≤ l.retries + 1) } ∧
      ∀ i, i ≠ link → look {} (t.pkg pkg).links i = look {} (s.pkg pkg).links i)) ∧
  (∀ (s : State) (k idx : Nat) (r : Req) (n : Nat) (op : RedOp) (v : Word) (i : Nat), (s.ctx k).reqs[idx]? = some r → r.acc = .rmw n (.red op v) →
    r.dest = .none → r.ord.acq = false → r.ord.rel = false → windowOf s r.addr = some i → isLocal r.addr = false → mayPerform s k r = true →
    k / 8 / 4096 ≠ wf r.addr 56 47 / 4 → noPath s (k / 8) (wf r.addr 56 47) = false →
    (s.core (k / 8)).tenant = some ((s.windows.toList.getD i (0, 0)).2.extractLsb' 48 16) →
    let page := r.addr.toNat / 4096
    let held (t : State) : Prop := { r with
      state := .merging } ∈ (t.ctx k).reqs ∧ (t.ctx k).s = (s.ctx k).s ∧ SameBytes s t
    (s.unsealed.contains (i, page) = false → ∃ t m, exec (.switchRedMerge k idx) s = .next t ∧ t.merges = s.merges ++ [m] ∧ m.addr = r.addr ∧
      m.op = op ∧ m.n = n ∧ m.parts = [(k, r.seq)] ∧ m.alone = true ∧ m.sent = none ∧ held t) ∧
    (∀ m, s.unsealed.contains (i, page) = true → s.merges = [m] → m.alone = false → m.sent = none → m.addr = r.addr → m.op = op → m.n = n →
      ∃ t m', exec (.switchRedMerge k idx) s = .next t ∧ t.merges = [m'] ∧ m'.parts = m.parts ++ [(k, r.seq)] ∧ m'.addr = m.addr ∧ m'.op = op ∧
        m'.n = n ∧ m'.alone = false ∧ m'.sent = none ∧ held t) ∧
    (s.unsealed.contains (i, page) = true → s.merges = [] → ∃ t m, exec (.switchRedMerge k idx) s = .next t ∧ t.merges = [m] ∧ m.addr = r.addr ∧
      m.op = op ∧ m.n = n ∧ m.parts = [(k, r.seq)] ∧ m.alone = false ∧ m.sent = none ∧ held t)) ∧
  (∀ (s : State) (m : Merge) (k j p q : Nat) (r y : Req) (v x : Nat) (fl gl : BitVec 5) (u w : State), s.merges = [m] → m.sent = none →
    (s.ctx k).reqs.find? (fun z => z.seq = p) = some r → globalAccess (agentOf s k r.user) r.addr r.acc (.ctx k p) s = (.done 0 v fl, u) → r.seq = p →
    let answer (f : BitVec 5) (t : State) : Prop := ∃ sealed_, t.merges = [{ m with
      sent := some (f, sealed_) }] ∧ ∀ pl e, translate s (agentOf s k r.user) m.addr 2 = .ok (pl, e) → sealed_ = e.leaf.getLsbD 7
    (m.parts = [(k, p)] → u.merges = s.merges →
      ∃ t, exec (.mergeFlush m.id) s = .next t ∧ answer fl t ∧ t.hbm = u.hbm ∧ t.seals = u.seals ∧ t.hostMem = u.hostMem ∧ t.bankMem = u.bankMem) ∧
    (m.parts = [(k, p), (j, q)] → (u.ctx j).reqs.find? (fun z => z.seq = q) = some y → y.seq = q →
      globalAccess (agentOf u j y.user) y.addr y.acc (.ctx j q) u = (.done 0 x gl, w) → w.merges = s.merges →
      ∃ t, exec (.mergeFlush m.id) s = .next t ∧ answer (fl ||| gl) t ∧ t.hbm = w.hbm ∧ t.seals = w.seals ∧ t.hostMem = w.hostMem ∧
        t.bankMem = w.bankMem)) ∧
  (∀ (s : State) (m : Merge) (k seq i : Nat) (r : Req) (fl : BitVec 5) (sealed_ : Bool), s.merges = [m] → m.sent = some (fl, sealed_) →
    m.parts = [(k, seq)] → (s.ctx k).reqs = [r] → r.seq = seq → windowOf s m.addr = some i →
    ∃ t, exec (.switchAcknowledgement m.id) s = .next t ∧ t.merges = [] ∧ (t.ctx k).reqs = [] ∧
      (∃ a ∈ (t.ctx k).acks, a.flags = fl ∧ a.fail = none) ∧
      (sealed_ = false → (i, m.addr.toNat / 4096) ∈ t.unsealed) ∧ (sealed_ = true → t.unsealed = s.unsealed) ∧ SameBytes s t)

/-- Boot and keys (R18, R404, R405, R406, R409): an image with a wrong magic, stage, version, reserved byte or digest, or whose
signature does not verify, stops boot; another extends the measurement of its stage; self-test maps out register-file banks
and NTILE follows; a report carries the nonce, measurements, capcores, keys in use, windows and time; a key slot is written.
The latent record and storage errors (R407, R408, R411 to R413): a read-out answers the ring, oldest first, with the nonce,
and clears nothing; the events of one cycle take SEQ in increasing UNIT and then INST; a freeze writes event 0x12 last, raises
the vector, and no event enters a frozen ring; a corrected error writes its event and is counted by the context that reads the unit, and one that is not corrected
writes its own and poisons its unit. The order of two events with one UNIT and INST is the model's choice, log entry 58; the units'
addresses and who counts an event, log entry 61; the report's map-out, log entry 60. -/
def Obligations.BootAndLatentRecord : Prop :=
  ((∀ (s : State) (pkg : Nat) (img : BootImage), (s.pkg pkg).bootStopped = false →
     let bad : Prop := img.magic.toNat ≠ 0x37494B534C474952 ∨ 8 ≤ img.stage.toNat ∨ img.version.toNat < Config.fuseVersion.toNat ∨
       img.reserved = false ∨ Config.verifies img.digest img.signature = false ∨ shake256 img.body img.length.toNat ≠ img.digest
     ∃ t, exec (.bootImageVerify pkg img) s = .next t ∧ ((t.pkg pkg).bootStopped = true ↔ bad) ∧
       (∀ i : Fin 8, i.val ≠ img.stage.toNat ∨ bad → (t.pkg pkg).measure.get i = (s.pkg pkg).measure.get i) ∧
       (∀ h : img.stage.toNat < 8, ¬ bad → (t.pkg pkg).measure.get ⟨img.stage.toNat, h⟩ =
         shake256 (((s.pkg pkg).measure.get ⟨img.stage.toNat, h⟩).toNat + img.digest.toNat * 2 ^ 512) 128) ∧
       t.ctxs = s.ctxs ∧ SameBytes s t) ∧
   (∀ (s : State) (core : Nat) (bad : BitVec 4) (withheld : Bool) (corrected : List Nat),
     let out (i : Nat) : Bool := bad.getLsbD i || corrected.any fun a => a / 64 == i && (look [] s.corrected core).contains a
     ((s.pkg (pkgOf core)).booted = false → (s.core core).tested = false → (s.core core).launch = none →
       ∃ t, exec (.bootSelfTest core ⟨bad, corrected⟩ withheld) s = .next t ∧ t = { s with
           cores := t.cores, corrected := t.corrected } ∧ (∀ c, c ≠ core → t.core c = s.core c) ∧ (t.core core).rows = (s.core core).rows ∧
         look [] t.corrected core = corrected ∧ (∀ i, i < 4 → (t.core core).rfout.getLsbD i = out i) ∧
         (t.core core).ntile = (if withheld then 0 else BitVec.ofNat 5 (4 * ((List.range 4).filter fun i => !out i).length))) ∧
     ((s.pkg (pkgOf core)).booted = true ∨ (s.core core).tested = true ∨ (s.core core).launch ≠ none →
       exec (.bootSelfTest core ⟨bad, corrected⟩ withheld) s = .next s)) ∧
   (∀ (s : State) (pkg : Nat) (nonce : BitVec 256), ∃ caps mapOut tenants keys signature,
     exec (.attestationRequest pkg nonce) s = .next { s with
       hostOut := s.hostOut ++ [.report pkg nonce (s.pkg pkg).measure caps mapOut tenants keys (s.die (4 * pkg)).windows
         (BitVec.ofNat 64 (dial s (4 * pkg))) signature] } ∧
     (∀ i, i < 4096 → ∃ m, mapOut[i]? = some m ∧ (∀ j, j < 4 → m.getLsbD j = (s.core (4096 * pkg + i)).rfout.getLsbD j) ∧
       (m.getLsbD 4 = true ↔ (s.core (4096 * pkg + i)).ntile = 0)) ∧
     (∀ a ten, (a, ten) ∈ tenants ↔ (∃ p ∈ s.qcbs, p.1 / 4096 = pkg ∧ p.2.qasid = a ∧ p.2.tenant = ten) ∨
       ∃ p ∈ s.launches, p.2.pkg = pkg ∧ p.2.asid = a ∧ p.2.tenant = ten) ∧
     caps.length = 4096 ∧ (∀ i, i < 4096 → caps[i]? = some ((capcore (s.core (4096 * pkg + i))).truncate 16)) ∧
     (∀ d j ten, (d, j, ten) ∈ keys ↔ d / 4 = pkg ∧ ∃ key, (j, ten, key) ∈ (s.die d).keys)) ∧
   (∀ (s : State) (die : Nat) (index : Byte) (tenant : Nat) (key : BitVec 512),
     ∃ t, exec (.tenantKeyLoad die index tenant key) s = .next t ∧ t = { s with
       dies := t.dies } ∧ (index.toNat, tenant, key) ∈ (t.die die).keys ∧
       (∀ j ten x, j ≠ index.toNat → ((j, ten, x) ∈ (t.die die).keys ↔ (j, ten, x) ∈ (s.die die).keys)) ∧
       (∀ d, d ≠ die → t.die d = s.die d))) ∧
  ((∀ (s : State) (die : Nat) (nonce : BitVec 256), ∃ signature, exec (.latentReadout die nonce) s = .next { s with
     hostOut := s.hostOut ++ [.latent die (s.die die).frozen (((s.die die).latent.reverse.map (·.seq)).headD 0)
       (((s.die die).latent.map (·.seq)).headD 0) nonce (s.die die).latent.reverse signature] }) ∧
   (∀ (s : State) (die : Nat) (cause : Word), (s.die die).frozen = false →
     ∃ t e, exec (.latentRecordFreeze die cause) s = .next t ∧ (t.die die).frozen = true ∧
       (∃ rest, (t.die die).latent = e :: rest) ∧ e.code = 0x12 ∧ e.arg0 = cause ∧ e.seq = (s.die die).seq ∧
       (((s.die die).latentAt ≠ s.cycle ∨ (s.die die).latentNow = 0) → (t.die die).latent = (e :: (s.die die).latent).take 4096) ∧
       e.time = BitVec.ofNat 64 (dial s die) ∧ (t.pkg (die / 4)).msix = (s.pkg (die / 4)).msix ++ [4 * (die % 4) + 2] ∧ SameBytes s t) ∧
   (∀ (s : State) (die : Nat) (cause : Word), (s.die die).frozen = true → exec (.latentRecordFreeze die cause) s = .next s ∧
     ∀ code unit inst a b, latent die code unit inst a b s = s) ∧
   (∀ (s : State) (die c1 c2 u1 u2 i1 i2 : Nat) (a1 a2 b1 b2 : Word), (s.die die).frozen = false →
     ((s.die die).latentAt ≠ s.cycle ∨ (s.die die).latentNow = 0) → c1 < 2 ^ 16 → c2 < 2 ^ 16 → c1 ≠ 0x12 → c2 ≠ 0x12 →
     u1 < 16 → u2 < 16 → i1 < 4096 → i2 < 4096 →
     let t := latent die c2 u2 i2 a2 b2 (latent die c1 u1 i1 a1 b1 s)
     let is (e : Event) (c u i : Nat) (a : Word) : Prop := e.code.toNat = c ∧ e.unit.toNat = u ∧ e.inst.toNat = i ∧ e.arg0 = a
     ∃ e f rest, (t.die die).latent = e :: f :: rest ∧ f.seq = (s.die die).seq ∧ e.seq = (s.die die).seq + 1 ∧
       (u2 < u1 ∨ u2 = u1 ∧ i2 < i1 → is e c1 u1 i1 a1 ∧ is f c2 u2 i2 a2) ∧
       (¬ (u2 < u1 ∨ u2 = u1 ∧ i2 < i1) → is e c2 u2 i2 a2 ∧ is f c1 u1 i1 a1)) ∧
   (∀ (s : State) (a : Nat) (ok : Bool),
     let noted (t : State) (die : Nat) (a0 a1 : Word) : Prop := (s.die die).frozen = false →
       ((s.die die).latentAt ≠ s.cycle ∨ (s.die die).latentNow = 0) →
       ∃ e : Event, (t.die die).latent = (e :: (s.die die).latent).take 4096 ∧ e.code = (if ok then 0x0A else 0x0B) ∧
         e.arg0 = a0 ∧ e.arg1 = a1
     let bankAddr : Word := BitVec.ofNat 64 (0x7E * 2 ^ 57 + (a / 8192 / 16 % 256) * 2 ^ 17 + (a / 8192 % 16) * 2 ^ 13) + BitVec.ofNat 64 (a % 8192)
     (∃ t, exec (.eccScrub (.bank a) ok) s = .next t ∧ noted t (a / 8192 / 16 / 1024) bankAddr 0 ∧
       (∀ x, x ∈ t.bankPoison ↔ x ∈ s.bankPoison ∨ ok = false ∧ x = a / 8) ∧ SameBytes s t ∧ t.ctxs = s.ctxs) ∧
     (∃ t, exec (.eccScrub (.hbm a) ok) s = .next t ∧ noted t (a / 2 ^ 52) (BitVec.ofNat 64 (a % 2 ^ 52)) 3 ∧
       (∀ x, x ∈ t.hbmPoison ↔ x ∈ s.hbmPoison ∨ ok = false ∧ x = a / 64) ∧ SameBytes s t ∧ t.ctxs = s.ctxs) ∧
     (∀ k key unit, unit < 33 → ∃ t, exec (.eccScrub (.row k key unit) ok) s = .next t ∧ noted t (k / 8 / 1024) 0 1 ∧
       (ok = false → ((t.core (k / 8)).row key).bad.getLsbD unit = true) ∧ (ok = true → t.cores = s.cores) ∧ SameBytes s t) ∧
     (∀ k r, ∃ t, exec (.eccScrub (.reg k r) ok) s = .next t ∧ noted t (k / 8 / 1024) 0 2 ∧
       (ok = false → r ≠ 0 → find? (t.ctx k).poison r.toNat = some ⟨0x13, 0⟩) ∧ (ok = true → (t.ctx k).poison = (s.ctx k).poison) ∧
       (t.ctx k).s = (s.ctx k).s ∧ SameBytes s t) ∧
     (∀ k r, ∃ t, exec (.eccScrub (.cond k r) ok) s = .next t ∧ noted t (k / 8 / 1024) 0 2 ∧
       (ok = false → r ≠ 0 → (t.ctx k).badC.getLsbD r.toNat = true) ∧ (ok = true → (t.ctx k).badC = (s.ctx k).badC) ∧
       (t.ctx k).c = (s.ctx k).c ∧ SameBytes s t) ∧
     (∃ t, exec (.eccScrub (.desc a) ok) s = .next t ∧ (ok = false → (t.bank a).badDesc = true) ∧ (t.bank a).desc = (s.bank a).desc ∧
       (ok = true → t.banks = s.banks) ∧ SameBytes s t) ∧
     (∀ n w, ∃ t, exec (.eccScrub (.cal a n w) ok) s = .next t ∧ (ok = false → w ∈ ((t.core a).plate n).badCal) ∧
       ((t.core a).plate n).w = ((s.core a).plate n).w ∧ (ok = true → t.cores = s.cores) ∧ SameBytes s t) ∧
     (∀ (k key unit : Nat) (r : SReg) (c : CReg) (u : EccUnit), u ∈ [.bankRead k a, .hbmRead k a, .row k key unit, .reg k r, .cond k c] → ∃ t, exec (.eccScrub u ok) s = .next t ∧
       (t.ctx k).evc.get 12 = (if ok then satInc ((s.ctx k).evc.get 12) 1 else (s.ctx k).evc.get 12) ∧
       (u = .bankRead k a → ∀ x, x ∈ t.bankPoison ↔ x ∈ s.bankPoison ∨ ok = false ∧ x = a / 8) ∧
       (u = .hbmRead k a → ∀ x, x ∈ t.hbmPoison ↔ x ∈ s.hbmPoison ∨ ok = false ∧ x = a / 64))))

/-- Power and losses (R410, R412, R414, R415): above the cap the busiest units of the first class in the order plates, joint arrays,
lane groups, copy engines that can be lowered lose 1/16 of their duty, below it the lowered units of the last class regain it, and
a step stands for 10 µs; a unit at duty d/256 may start work in at most d of any 256 cycles; a thermal step above 95 °C
lowers the cap by 100 W, and 110 °C freezes the rings; a failed die's ring freezes and its members are killed; a lost
package's links are all down. Resets (R217, R371, R412): both clear the package's contexts, cores, banks and launches; a
cold one also its HBM, dials and rings; a warm one keeps HBM, dials and rings; no context, core or byte of another package's
banks changes but for requests that wait on this one. The model's choices: the permanent cut of the cap, the floor of a unit's duty
and the freeze at 110 °C, log entry 59; what a cold and a warm reset clear and keep, log entry 60. -/
def Obligations.PowerLossesAndResets : Prop :=
  ((∀ (s : State) (pkg projected : Nat) (busiest : List (Nat × Nat)),
     let x := s.pkg pkg
     let cap := min x.pcap 2400 - x.thermalCap
     let units (cls : Nat) (u : Nat) : Prop := (cls, u) ∈ busiest ∧ 16 < dutyOf x cls u
     let low (cls : Nat) (u : Nat) : Prop := dutyOf x cls u < 256
     let done (t : State) : Prop := (t.pkg pkg).dutyAt = s.cycle + 30000 ∧ t.ctxs = s.ctxs ∧ SameBytes s t
     (s.cycle < x.dutyAt → exec (.governorTick pkg ⟨projected, busiest⟩) s = .next s) ∧
     ((∀ p ∈ busiest, p.1 < 4 ∧ p.2 < 2 ^ 24) → (∀ p ∈ x.duty, p.2 < 256) → x.dutyAt ≤ s.cycle →
       (∀ cls, cap < projected → cls < 4 → (∃ u, units cls u) → (∀ j u, j < cls → ¬ units j u) →
         ∃ t, exec (.governorTick pkg ⟨projected, busiest⟩) s = .next t ∧ done t ∧
           (∀ u, units cls u → dutyOf (t.pkg pkg) cls u = dutyOf x cls u - 16) ∧
           (∀ j u, j < 4 → u < 2 ^ 24 → j ≠ cls ∨ ¬ units cls u → dutyOf (t.pkg pkg) j u = dutyOf x j u)) ∧
       (cap < projected → (∀ j u, ¬ units j u) → exec (.governorTick pkg ⟨projected, busiest⟩) s = .next s)) ∧
     (∀ cls, x.dutyAt ≤ s.cycle → projected ≤ cap → cls < 4 → (x.duty.map (·.1)).Nodup →
       (∀ p ∈ x.duty, p.1 < 4 * 2 ^ 24 ∧ p.2 < 256) → (∃ u, u < 2 ^ 24 ∧ low cls u) →
       (∀ j u, cls < j → j < 4 → u < 2 ^ 24 → ¬ low j u) →
       ∃ t, exec (.governorTick pkg ⟨projected, busiest⟩) s = .next t ∧ done t ∧
         (∀ u, u < 2 ^ 24 → low cls u → dutyOf (t.pkg pkg) cls u = min 256 (dutyOf x cls u + 16)) ∧
         (∀ j u, j < 4 → j ≠ cls → u < 2 ^ 24 → dutyOf (t.pkg pkg) j u = dutyOf x j u))) ∧
   (∀ (s : State) (pkg n cls unit : Nat),
     ((List.range 256).filter fun j => mayStart { s with cycle := n + j } pkg cls unit).length ≤ dutyOf (s.pkg pkg) cls unit) ∧
   (∀ (s : State) (pkg temp : Nat),
     (temp ≤ 950 → exec (.thermalStep pkg temp) s = .next s) ∧
     (950 < temp → ∃ t, exec (.thermalStep pkg temp) s = .next t ∧ (t.pkg pkg).thermalCap = (s.pkg pkg).thermalCap + 100 ∧
       (1100 ≤ temp → ∀ d, d / 4 = pkg → (t.die d).frozen = true) ∧ (temp < 1100 → ∀ d, (t.die d).frozen = (s.die d).frozen) ∧
       t.ctxs = s.ctxs ∧ SameBytes s t)) ∧
   (∀ (s : State) (die : Nat), (s.die die).failed = false → (s.die die).records = [] → (s.die die).faultWaits = [] → (s.die die).waiters = [] →
     (s.launches = [] → ∃ t, exec (.dieHeartbeatMiss die) s = .next t ∧ (t.die die).failed = true ∧ (t.die die).frozen = true ∧ t.ctxs = s.ctxs ∧
       SameBytes s t) ∧
     (∀ id l k, s.launches = [(id, l)] → l.phase = .started → l.here = [k] → k / 8 / 1024 = die → (s.ctx k).left = .no → (s.ctx k).launch = some id →
       departs k s = false → ∃ t, exec (.dieHeartbeatMiss die) s = .next t ∧ (t.die die).failed = true ∧ (t.ctx k).left = .killed ∧
         ∃ l', find? t.launches id = some l' ∧ l'.killed = l.killed + 1 ∧
           l'.killCause = (match l.killCause with | some c => some c | none => some (0x12, 0)))) ∧
   (∀ (s : State) (pkg : Nat), (s.pkg pkg).lost = false → (∀ d, d / 4 = pkg → (s.die d).waiters = []) →
     ∃ t, exec (.packageLost pkg) s = .next t ∧ (t.pkg pkg).lost = true ∧ (∀ i, i < 18 → (look {} (t.pkg pkg).links i).down = true) ∧
       t.ctxs = s.ctxs ∧ SameBytes s t)) ∧
  (∀ (s : State) (pkg : Nat),
     let wiped (t : State) : Prop := (∀ k, k / 8 / 4096 = pkg → t.ctx k = {}) ∧ (∀ c, c / 4096 = pkg → t.core c = {}) ∧
       (∀ a, a / 8192 / 16 / 4096 = pkg → readByte t.bankMem a = 0) ∧ (∀ a, a / 8192 / 16 / 4096 ≠ pkg → readByte t.bankMem a = readByte s.bankMem a) ∧
       (∀ p ∈ t.launches, p.2.pkg ≠ pkg) ∧ (∀ d, d / 4 = pkg → (t.die d).root = 0 ∧ (t.die d).records = [] ∧ (t.die d).keys = []) ∧
       t.pkg pkg = { countAt := s.cycle } ∧ (∀ d, d / 4 = pkg → (t.die d).windows = Vector.replicate 16 (0, 0)) ∧ (∀ q, queuePkg q = pkg → (t.queue q).chains = [] ∧ t.engine (engineKey q) = {}) ∧
       (∀ b, b / 16 / 4096 = pkg → t.bank b = {} ∧ t.turn b = {}) ∧ t.hostMem = s.hostMem ∧ (∀ c, c / 4096 ≠ pkg → (t.core c).rows = (s.core c).rows) ∧
       (∀ k, k / 8 / 4096 ≠ pkg → (t.ctx k).s = (s.ctx k).s)
     (∃ t, exec (.coldReset pkg) s = .next t ∧ wiped t ∧ (∀ d, d / 4 = pkg → dial t d = 0 ∧ (t.die d).latent = [] ∧ (t.die d).frozen = false ∧
       (t.die d).seq = 0) ∧ (∀ a, a / 2 ^ 52 / 4 = pkg → readByte t.hbm a = 0) ∧ ∀ a, a / 2 ^ 52 / 4 ≠ pkg → readByte t.hbm a = readByte s.hbm a) ∧
     (∃ t, exec (.warmReset pkg) s = .next t ∧ wiped t ∧ (∀ d, d / 4 = pkg → dial t d = dial s d ∧ (t.die d).latent = (s.die d).latent ∧
       (t.die d).frozen = (s.die d).frozen ∧ (t.die d).seq = (s.die d).seq) ∧ t.hbm = s.hbm))
end

