-- ==== Sys2Proof/Laws/State.lean ====
section
/-! SUPPORT. Reading the state after an update: the sparse tables, one lemma per field per update, and the registers of a
context. -/

namespace Sys2Proof.Machine

/-! ## Sparse tables -/

theorem look_put {α : Type} (d : α) (k j : Nat) (v : α) (m : List (Nat × α)) :
    look d (put k v m) j = if j = k then v else look d m j := by
  induction m with
  | nil =>
    by_cases h : j = k
    · simp [put, look, h]
    · have h' : ¬k = j := fun e => h e.symm
      simp [put, look, h, h']
  | cons p t ih =>
    obtain ⟨k', v'⟩ := p
    simp only [put]
    by_cases h : j = k
    · subst h
      by_cases h1 : j < k'
      · simp [h1, look]
      · by_cases h2 : j = k'
        · simp [h2, look]
        · have h3 : ¬k' = j := fun e => h2 e.symm
          simp [h1, h2, h3, look, ih]
    · have h' : ¬k = j := fun e => h e.symm
      by_cases h1 : k < k'
      · simp [h1, look, h, h']
      · by_cases h2 : k = k'
        · subst h2
          simp [look, h, h']
        · simp [h1, h2, look, h, ih]

theorem find?_put {α : Type} (k j : Nat) (v : α) (m : List (Nat × α)) :
    find? (put k v m) j = if j = k then some v else find? m j := by
  induction m with
  | nil =>
    by_cases h : j = k
    · simp [put, find?, h]
    · have h' : ¬k = j := fun e => h e.symm
      simp [put, find?, h, h']
  | cons p t ih =>
    obtain ⟨k', v'⟩ := p
    simp only [put]
    by_cases h : j = k
    · subst h
      by_cases h1 : j < k'
      · simp [h1, find?]
      · by_cases h2 : j = k'
        · simp [h2, find?]
        · have h3 : ¬k' = j := fun e => h2 e.symm
          simp [h1, h2, h3, find?, ih]
    · have h' : ¬k = j := fun e => h e.symm
      by_cases h1 : k < k'
      · simp [h1, find?, h, h']
      · by_cases h2 : k = k'
        · subst h2
          simp [find?, h, h']
        · simp [h1, h2, find?, h, ih]

theorem look_drop {α : Type} (d : α) (k j : Nat) (m : List (Nat × α)) :
    look d (drop k m) j = if j = k then d else look d m j := by
  induction m with
  | nil => simp [drop, look]
  | cons p t ih =>
    obtain ⟨k', v'⟩ := p
    unfold drop at ih ⊢
    by_cases h : k' = k
    · subst h
      rw [List.filter_cons_of_neg (by simp), ih]
      by_cases hj : j = k'
      · simp [hj]
      · have : ¬k' = j := fun e => hj e.symm
        simp [hj, look, this]
    · rw [List.filter_cons_of_pos (by simpa using h)]
      simp only [look, ih]
      by_cases h1 : k' = j
      · subst h1; simp [h]
      · simp [h1]

theorem find?_drop {α : Type} (k j : Nat) (m : List (Nat × α)) :
    find? (drop k m) j = if j = k then none else find? m j := by
  induction m with
  | nil => simp [drop, find?]
  | cons p t ih =>
    obtain ⟨k', v'⟩ := p
    unfold drop at ih ⊢
    by_cases h : k' = k
    · subst h
      rw [List.filter_cons_of_neg (by simp), ih]
      by_cases hj : j = k'
      · simp [hj]
      · have : ¬k' = j := fun e => hj e.symm
        simp [hj, find?, this]
    · rw [List.filter_cons_of_pos (by simpa using h)]
      simp only [find?, ih]
      by_cases h1 : k' = j
      · subst h1; simp [h]
      · simp [h1]

/-! ## One record changed -/

/-- The record that `modCtx` changes, and every other. -/
theorem ctx_modCtx (s : State) (k j : Nat) (f) : (s.modCtx k f).ctx j = if j = k then f (s.ctx k) else s.ctx j := by
  simp only [State.modCtx, State.ctx, look_put]

@[simp] theorem ctx_modCtx_self (s : State) (k : Nat) (f) : (s.modCtx k f).ctx k = f (s.ctx k) := by simp [ctx_modCtx]

theorem ctx_modCtx_ne (s : State) (f) (k j : Nat) (h : j ≠ k) : (s.modCtx k f).ctx j = s.ctx j := by simp [ctx_modCtx, h]

/-- The record that `modCore` changes, and every other. -/
theorem core_modCore (s : State) (k j : Nat) (f) : (s.modCore k f).core j = if j = k then f (s.core k) else s.core j := by
  simp only [State.modCore, State.core, look_put]

@[simp] theorem core_modCore_self (s : State) (k : Nat) (f) : (s.modCore k f).core k = f (s.core k) := by simp [core_modCore]

theorem core_modCore_ne (s : State) (f) (k j : Nat) (h : j ≠ k) : (s.modCore k f).core j = s.core j := by simp [core_modCore, h]

/-- The record that `modBank` changes, and every other. -/
theorem bank_modBank (s : State) (k j : Nat) (f) : (s.modBank k f).bank j = if j = k then f (s.bank k) else s.bank j := by
  simp only [State.modBank, State.bank, look_put]

@[simp] theorem bank_modBank_self (s : State) (k : Nat) (f) : (s.modBank k f).bank k = f (s.bank k) := by simp [bank_modBank]

theorem bank_modBank_ne (s : State) (f) (k j : Nat) (h : j ≠ k) : (s.modBank k f).bank j = s.bank j := by simp [bank_modBank, h]

/-- The record that `modCell` changes, and every other. -/
theorem cell_modCell (s : State) (k j : Nat) (f) : (s.modCell k f).cell j = if j = k then f (s.cell k) else s.cell j := by
  simp only [State.modCell, State.cell, look_put]

@[simp] theorem cell_modCell_self (s : State) (k : Nat) (f) : (s.modCell k f).cell k = f (s.cell k) := by simp [cell_modCell]

theorem cell_modCell_ne (s : State) (f) (k j : Nat) (h : j ≠ k) : (s.modCell k f).cell j = s.cell j := by simp [cell_modCell, h]

/-- The record that `modQueue` changes, and every other. -/
theorem queue_modQueue (s : State) (k j : Nat) (f) : (s.modQueue k f).queue j = if j = k then f (s.queue k) else s.queue j := by
  simp only [State.modQueue, State.queue, look_put]

@[simp] theorem queue_modQueue_self (s : State) (k : Nat) (f) : (s.modQueue k f).queue k = f (s.queue k) := by simp [queue_modQueue]

theorem queue_modQueue_ne (s : State) (f) (k j : Nat) (h : j ≠ k) : (s.modQueue k f).queue j = s.queue j := by simp [queue_modQueue, h]

/-- The record that `modDie` changes, and every other. -/
theorem die_modDie (s : State) (k j : Nat) (f) : (s.modDie k f).die j = if j = k then f (s.die k) else s.die j := by
  simp only [State.modDie, State.die, look_put]

@[simp] theorem die_modDie_self (s : State) (k : Nat) (f) : (s.modDie k f).die k = f (s.die k) := by simp [die_modDie]

theorem die_modDie_ne (s : State) (f) (k j : Nat) (h : j ≠ k) : (s.modDie k f).die j = s.die j := by simp [die_modDie, h]

/-- The record that `modPkg` changes, and every other. -/
theorem pkg_modPkg (s : State) (k j : Nat) (f) : (s.modPkg k f).pkg j = if j = k then f (s.pkg k) else s.pkg j := by
  simp only [State.modPkg, State.pkg, look_put]

@[simp] theorem pkg_modPkg_self (s : State) (k : Nat) (f) : (s.modPkg k f).pkg k = f (s.pkg k) := by simp [pkg_modPkg]

theorem pkg_modPkg_ne (s : State) (f) (k j : Nat) (h : j ≠ k) : (s.modPkg k f).pkg j = s.pkg j := by simp [pkg_modPkg, h]

/-- The record that `modQcb` changes, and every other. -/
theorem qcb_modQcb (s : State) (k j : Nat) (f) : (s.modQcb k f).qcb j = if j = k then f (s.qcb k) else s.qcb j := by
  simp only [State.modQcb, State.qcb, look_put]

@[simp] theorem qcb_modQcb_self (s : State) (k : Nat) (f) : (s.modQcb k f).qcb k = f (s.qcb k) := by simp [qcb_modQcb]

theorem qcb_modQcb_ne (s : State) (f) (k j : Nat) (h : j ≠ k) : (s.modQcb k f).qcb j = s.qcb j := by simp [qcb_modQcb, h]

/-- The record that `modTurn` changes, and every other. -/
theorem turn_modTurn (s : State) (k j : Nat) (f) : (s.modTurn k f).turn j = if j = k then f (s.turn k) else s.turn j := by
  simp only [State.modTurn, State.turn, look_put]

/-- The record that `modEngine` changes, and every other. -/
theorem engine_modEngine (s : State) (k j : Nat) (f) : (s.modEngine k f).engine j = if j = k then f (s.engine k) else s.engine j := by
  simp only [State.modEngine, State.engine, look_put]

/-! ## What an update leaves alone: one lemma per field and per table -/

@[simp] theorem modCtx_cycle (s : State) (k : Nat) (f) : (s.modCtx k f).cycle = s.cycle := rfl
@[simp] theorem modCtx_cur (s : State) (k : Nat) (f) : (s.modCtx k f).cur = s.cur := rfl
@[simp] theorem modCtx_sched (s : State) (k : Nat) (f) : (s.modCtx k f).sched = s.sched := rfl
@[simp] theorem modCtx_view (s : State) (k : Nat) (f) : (s.modCtx k f).view = s.view := rfl
@[simp] theorem modCtx_freeCtr (s : State) (k : Nat) (f) : (s.modCtx k f).freeCtr = s.freeCtr := rfl
@[simp] theorem modCtx_seq (s : State) (k : Nat) (f) : (s.modCtx k f).seq = s.seq := rfl
@[simp] theorem modCtx_cores (s : State) (k : Nat) (f) : (s.modCtx k f).cores = s.cores := rfl
@[simp] theorem modCtx_banks (s : State) (k : Nat) (f) : (s.modCtx k f).banks = s.banks := rfl
@[simp] theorem modCtx_turns (s : State) (k : Nat) (f) : (s.modCtx k f).turns = s.turns := rfl
@[simp] theorem modCtx_cells (s : State) (k : Nat) (f) : (s.modCtx k f).cells = s.cells := rfl
@[simp] theorem modCtx_queues (s : State) (k : Nat) (f) : (s.modCtx k f).queues = s.queues := rfl
@[simp] theorem modCtx_engines (s : State) (k : Nat) (f) : (s.modCtx k f).engines = s.engines := rfl
@[simp] theorem modCtx_arcades (s : State) (k : Nat) (f) : (s.modCtx k f).arcades = s.arcades := rfl
@[simp] theorem modCtx_rounds (s : State) (k : Nat) (f) : (s.modCtx k f).rounds = s.rounds := rfl
@[simp] theorem modCtx_barriers (s : State) (k : Nat) (f) : (s.modCtx k f).barriers = s.barriers := rfl
@[simp] theorem modCtx_launches (s : State) (k : Nat) (f) : (s.modCtx k f).launches = s.launches := rfl
@[simp] theorem modCtx_dies (s : State) (k : Nat) (f) : (s.modCtx k f).dies = s.dies := rfl
@[simp] theorem modCtx_pkgs (s : State) (k : Nat) (f) : (s.modCtx k f).pkgs = s.pkgs := rfl
@[simp] theorem modCtx_qcbs (s : State) (k : Nat) (f) : (s.modCtx k f).qcbs = s.qcbs := rfl
@[simp] theorem modCtx_domain (s : State) (k : Nat) (f) : (s.modCtx k f).domain = s.domain := rfl
@[simp] theorem modCtx_windows (s : State) (k : Nat) (f) : (s.modCtx k f).windows = s.windows := rfl
@[simp] theorem modCtx_unsealed (s : State) (k : Nat) (f) : (s.modCtx k f).unsealed = s.unsealed := rfl
@[simp] theorem modCtx_merges (s : State) (k : Nat) (f) : (s.modCtx k f).merges = s.merges := rfl
@[simp] theorem modCtx_announces (s : State) (k : Nat) (f) : (s.modCtx k f).announces = s.announces := rfl
@[simp] theorem modCtx_grandmaster (s : State) (k : Nat) (f) : (s.modCtx k f).grandmaster = s.grandmaster := rfl
@[simp] theorem modCtx_masterLostAt (s : State) (k : Nat) (f) : (s.modCtx k f).masterLostAt = s.masterLostAt := rfl
@[simp] theorem modCtx_corrected (s : State) (k : Nat) (f) : (s.modCtx k f).corrected = s.corrected := rfl
@[simp] theorem modCtx_hostOut (s : State) (k : Nat) (f) : (s.modCtx k f).hostOut = s.hostOut := rfl
@[simp] theorem modCtx_hostReqs (s : State) (k : Nat) (f) : (s.modCtx k f).hostReqs = s.hostReqs := rfl
@[simp] theorem modCtx_bankMem (s : State) (k : Nat) (f) : (s.modCtx k f).bankMem = s.bankMem := rfl
@[simp] theorem modCtx_hbm (s : State) (k : Nat) (f) : (s.modCtx k f).hbm = s.hbm := rfl
@[simp] theorem modCtx_seals (s : State) (k : Nat) (f) : (s.modCtx k f).seals = s.seals := rfl
@[simp] theorem modCtx_hostMem (s : State) (k : Nat) (f) : (s.modCtx k f).hostMem = s.hostMem := rfl
@[simp] theorem modCtx_bankPoison (s : State) (k : Nat) (f) : (s.modCtx k f).bankPoison = s.bankPoison := rfl
@[simp] theorem modCtx_hbmPoison (s : State) (k : Nat) (f) : (s.modCtx k f).hbmPoison = s.hbmPoison := rfl
@[simp] theorem modCtx_pathless (s : State) (k : Nat) (f) : (s.modCtx k f).pathless = s.pathless := rfl
@[simp] theorem modCtx_core (s : State) (k j : Nat) (f) : (s.modCtx k f).core j = s.core j := rfl
@[simp] theorem modCtx_bank (s : State) (k j : Nat) (f) : (s.modCtx k f).bank j = s.bank j := rfl
@[simp] theorem modCtx_cell (s : State) (k j : Nat) (f) : (s.modCtx k f).cell j = s.cell j := rfl
@[simp] theorem modCtx_queue (s : State) (k j : Nat) (f) : (s.modCtx k f).queue j = s.queue j := rfl
@[simp] theorem modCtx_die (s : State) (k j : Nat) (f) : (s.modCtx k f).die j = s.die j := rfl
@[simp] theorem modCtx_pkg (s : State) (k j : Nat) (f) : (s.modCtx k f).pkg j = s.pkg j := rfl
@[simp] theorem modCtx_qcb (s : State) (k j : Nat) (f) : (s.modCtx k f).qcb j = s.qcb j := rfl

@[simp] theorem modCore_cycle (s : State) (k : Nat) (f) : (s.modCore k f).cycle = s.cycle := rfl
@[simp] theorem modCore_cur (s : State) (k : Nat) (f) : (s.modCore k f).cur = s.cur := rfl
@[simp] theorem modCore_sched (s : State) (k : Nat) (f) : (s.modCore k f).sched = s.sched := rfl
@[simp] theorem modCore_view (s : State) (k : Nat) (f) : (s.modCore k f).view = s.view := rfl
@[simp] theorem modCore_freeCtr (s : State) (k : Nat) (f) : (s.modCore k f).freeCtr = s.freeCtr := rfl
@[simp] theorem modCore_seq (s : State) (k : Nat) (f) : (s.modCore k f).seq = s.seq := rfl
@[simp] theorem modCore_ctxs (s : State) (k : Nat) (f) : (s.modCore k f).ctxs = s.ctxs := rfl
@[simp] theorem modCore_banks (s : State) (k : Nat) (f) : (s.modCore k f).banks = s.banks := rfl
@[simp] theorem modCore_turns (s : State) (k : Nat) (f) : (s.modCore k f).turns = s.turns := rfl
@[simp] theorem modCore_cells (s : State) (k : Nat) (f) : (s.modCore k f).cells = s.cells := rfl
@[simp] theorem modCore_queues (s : State) (k : Nat) (f) : (s.modCore k f).queues = s.queues := rfl
@[simp] theorem modCore_engines (s : State) (k : Nat) (f) : (s.modCore k f).engines = s.engines := rfl
@[simp] theorem modCore_arcades (s : State) (k : Nat) (f) : (s.modCore k f).arcades = s.arcades := rfl
@[simp] theorem modCore_rounds (s : State) (k : Nat) (f) : (s.modCore k f).rounds = s.rounds := rfl
@[simp] theorem modCore_barriers (s : State) (k : Nat) (f) : (s.modCore k f).barriers = s.barriers := rfl
@[simp] theorem modCore_launches (s : State) (k : Nat) (f) : (s.modCore k f).launches = s.launches := rfl
@[simp] theorem modCore_dies (s : State) (k : Nat) (f) : (s.modCore k f).dies = s.dies := rfl
@[simp] theorem modCore_pkgs (s : State) (k : Nat) (f) : (s.modCore k f).pkgs = s.pkgs := rfl
@[simp] theorem modCore_qcbs (s : State) (k : Nat) (f) : (s.modCore k f).qcbs = s.qcbs := rfl
@[simp] theorem modCore_domain (s : State) (k : Nat) (f) : (s.modCore k f).domain = s.domain := rfl
@[simp] theorem modCore_windows (s : State) (k : Nat) (f) : (s.modCore k f).windows = s.windows := rfl
@[simp] theorem modCore_unsealed (s : State) (k : Nat) (f) : (s.modCore k f).unsealed = s.unsealed := rfl
@[simp] theorem modCore_merges (s : State) (k : Nat) (f) : (s.modCore k f).merges = s.merges := rfl
@[simp] theorem modCore_announces (s : State) (k : Nat) (f) : (s.modCore k f).announces = s.announces := rfl
@[simp] theorem modCore_grandmaster (s : State) (k : Nat) (f) : (s.modCore k f).grandmaster = s.grandmaster := rfl
@[simp] theorem modCore_masterLostAt (s : State) (k : Nat) (f) : (s.modCore k f).masterLostAt = s.masterLostAt := rfl
@[simp] theorem modCore_corrected (s : State) (k : Nat) (f) : (s.modCore k f).corrected = s.corrected := rfl
@[simp] theorem modCore_hostOut (s : State) (k : Nat) (f) : (s.modCore k f).hostOut = s.hostOut := rfl
@[simp] theorem modCore_hostReqs (s : State) (k : Nat) (f) : (s.modCore k f).hostReqs = s.hostReqs := rfl
@[simp] theorem modCore_bankMem (s : State) (k : Nat) (f) : (s.modCore k f).bankMem = s.bankMem := rfl
@[simp] theorem modCore_hbm (s : State) (k : Nat) (f) : (s.modCore k f).hbm = s.hbm := rfl
@[simp] theorem modCore_seals (s : State) (k : Nat) (f) : (s.modCore k f).seals = s.seals := rfl
@[simp] theorem modCore_hostMem (s : State) (k : Nat) (f) : (s.modCore k f).hostMem = s.hostMem := rfl
@[simp] theorem modCore_bankPoison (s : State) (k : Nat) (f) : (s.modCore k f).bankPoison = s.bankPoison := rfl
@[simp] theorem modCore_hbmPoison (s : State) (k : Nat) (f) : (s.modCore k f).hbmPoison = s.hbmPoison := rfl
@[simp] theorem modCore_pathless (s : State) (k : Nat) (f) : (s.modCore k f).pathless = s.pathless := rfl
@[simp] theorem modCore_ctx (s : State) (k j : Nat) (f) : (s.modCore k f).ctx j = s.ctx j := rfl
@[simp] theorem modCore_bank (s : State) (k j : Nat) (f) : (s.modCore k f).bank j = s.bank j := rfl
@[simp] theorem modCore_cell (s : State) (k j : Nat) (f) : (s.modCore k f).cell j = s.cell j := rfl
@[simp] theorem modCore_queue (s : State) (k j : Nat) (f) : (s.modCore k f).queue j = s.queue j := rfl
@[simp] theorem modCore_die (s : State) (k j : Nat) (f) : (s.modCore k f).die j = s.die j := rfl
@[simp] theorem modCore_pkg (s : State) (k j : Nat) (f) : (s.modCore k f).pkg j = s.pkg j := rfl
@[simp] theorem modCore_qcb (s : State) (k j : Nat) (f) : (s.modCore k f).qcb j = s.qcb j := rfl

@[simp] theorem modBank_cycle (s : State) (k : Nat) (f) : (s.modBank k f).cycle = s.cycle := rfl
@[simp] theorem modBank_cur (s : State) (k : Nat) (f) : (s.modBank k f).cur = s.cur := rfl
@[simp] theorem modBank_sched (s : State) (k : Nat) (f) : (s.modBank k f).sched = s.sched := rfl
@[simp] theorem modBank_view (s : State) (k : Nat) (f) : (s.modBank k f).view = s.view := rfl
@[simp] theorem modBank_freeCtr (s : State) (k : Nat) (f) : (s.modBank k f).freeCtr = s.freeCtr := rfl
@[simp] theorem modBank_seq (s : State) (k : Nat) (f) : (s.modBank k f).seq = s.seq := rfl
@[simp] theorem modBank_ctxs (s : State) (k : Nat) (f) : (s.modBank k f).ctxs = s.ctxs := rfl
@[simp] theorem modBank_cores (s : State) (k : Nat) (f) : (s.modBank k f).cores = s.cores := rfl
@[simp] theorem modBank_turns (s : State) (k : Nat) (f) : (s.modBank k f).turns = s.turns := rfl
@[simp] theorem modBank_cells (s : State) (k : Nat) (f) : (s.modBank k f).cells = s.cells := rfl
@[simp] theorem modBank_queues (s : State) (k : Nat) (f) : (s.modBank k f).queues = s.queues := rfl
@[simp] theorem modBank_engines (s : State) (k : Nat) (f) : (s.modBank k f).engines = s.engines := rfl
@[simp] theorem modBank_arcades (s : State) (k : Nat) (f) : (s.modBank k f).arcades = s.arcades := rfl
@[simp] theorem modBank_rounds (s : State) (k : Nat) (f) : (s.modBank k f).rounds = s.rounds := rfl
@[simp] theorem modBank_barriers (s : State) (k : Nat) (f) : (s.modBank k f).barriers = s.barriers := rfl
@[simp] theorem modBank_launches (s : State) (k : Nat) (f) : (s.modBank k f).launches = s.launches := rfl
@[simp] theorem modBank_dies (s : State) (k : Nat) (f) : (s.modBank k f).dies = s.dies := rfl
@[simp] theorem modBank_pkgs (s : State) (k : Nat) (f) : (s.modBank k f).pkgs = s.pkgs := rfl
@[simp] theorem modBank_qcbs (s : State) (k : Nat) (f) : (s.modBank k f).qcbs = s.qcbs := rfl
@[simp] theorem modBank_domain (s : State) (k : Nat) (f) : (s.modBank k f).domain = s.domain := rfl
@[simp] theorem modBank_windows (s : State) (k : Nat) (f) : (s.modBank k f).windows = s.windows := rfl
@[simp] theorem modBank_unsealed (s : State) (k : Nat) (f) : (s.modBank k f).unsealed = s.unsealed := rfl
@[simp] theorem modBank_merges (s : State) (k : Nat) (f) : (s.modBank k f).merges = s.merges := rfl
@[simp] theorem modBank_announces (s : State) (k : Nat) (f) : (s.modBank k f).announces = s.announces := rfl
@[simp] theorem modBank_grandmaster (s : State) (k : Nat) (f) : (s.modBank k f).grandmaster = s.grandmaster := rfl
@[simp] theorem modBank_masterLostAt (s : State) (k : Nat) (f) : (s.modBank k f).masterLostAt = s.masterLostAt := rfl
@[simp] theorem modBank_corrected (s : State) (k : Nat) (f) : (s.modBank k f).corrected = s.corrected := rfl
@[simp] theorem modBank_hostOut (s : State) (k : Nat) (f) : (s.modBank k f).hostOut = s.hostOut := rfl
@[simp] theorem modBank_hostReqs (s : State) (k : Nat) (f) : (s.modBank k f).hostReqs = s.hostReqs := rfl
@[simp] theorem modBank_bankMem (s : State) (k : Nat) (f) : (s.modBank k f).bankMem = s.bankMem := rfl
@[simp] theorem modBank_hbm (s : State) (k : Nat) (f) : (s.modBank k f).hbm = s.hbm := rfl
@[simp] theorem modBank_seals (s : State) (k : Nat) (f) : (s.modBank k f).seals = s.seals := rfl
@[simp] theorem modBank_hostMem (s : State) (k : Nat) (f) : (s.modBank k f).hostMem = s.hostMem := rfl
@[simp] theorem modBank_bankPoison (s : State) (k : Nat) (f) : (s.modBank k f).bankPoison = s.bankPoison := rfl
@[simp] theorem modBank_hbmPoison (s : State) (k : Nat) (f) : (s.modBank k f).hbmPoison = s.hbmPoison := rfl
@[simp] theorem modBank_pathless (s : State) (k : Nat) (f) : (s.modBank k f).pathless = s.pathless := rfl
@[simp] theorem modBank_ctx (s : State) (k j : Nat) (f) : (s.modBank k f).ctx j = s.ctx j := rfl
@[simp] theorem modBank_core (s : State) (k j : Nat) (f) : (s.modBank k f).core j = s.core j := rfl
@[simp] theorem modBank_cell (s : State) (k j : Nat) (f) : (s.modBank k f).cell j = s.cell j := rfl
@[simp] theorem modBank_queue (s : State) (k j : Nat) (f) : (s.modBank k f).queue j = s.queue j := rfl
@[simp] theorem modBank_die (s : State) (k j : Nat) (f) : (s.modBank k f).die j = s.die j := rfl
@[simp] theorem modBank_pkg (s : State) (k j : Nat) (f) : (s.modBank k f).pkg j = s.pkg j := rfl
@[simp] theorem modBank_qcb (s : State) (k j : Nat) (f) : (s.modBank k f).qcb j = s.qcb j := rfl

@[simp] theorem modCell_cycle (s : State) (k : Nat) (f) : (s.modCell k f).cycle = s.cycle := rfl
@[simp] theorem modCell_cur (s : State) (k : Nat) (f) : (s.modCell k f).cur = s.cur := rfl
@[simp] theorem modCell_sched (s : State) (k : Nat) (f) : (s.modCell k f).sched = s.sched := rfl
@[simp] theorem modCell_view (s : State) (k : Nat) (f) : (s.modCell k f).view = s.view := rfl
@[simp] theorem modCell_freeCtr (s : State) (k : Nat) (f) : (s.modCell k f).freeCtr = s.freeCtr := rfl
@[simp] theorem modCell_seq (s : State) (k : Nat) (f) : (s.modCell k f).seq = s.seq := rfl
@[simp] theorem modCell_ctxs (s : State) (k : Nat) (f) : (s.modCell k f).ctxs = s.ctxs := rfl
@[simp] theorem modCell_cores (s : State) (k : Nat) (f) : (s.modCell k f).cores = s.cores := rfl
@[simp] theorem modCell_banks (s : State) (k : Nat) (f) : (s.modCell k f).banks = s.banks := rfl
@[simp] theorem modCell_turns (s : State) (k : Nat) (f) : (s.modCell k f).turns = s.turns := rfl
@[simp] theorem modCell_queues (s : State) (k : Nat) (f) : (s.modCell k f).queues = s.queues := rfl
@[simp] theorem modCell_engines (s : State) (k : Nat) (f) : (s.modCell k f).engines = s.engines := rfl
@[simp] theorem modCell_arcades (s : State) (k : Nat) (f) : (s.modCell k f).arcades = s.arcades := rfl
@[simp] theorem modCell_rounds (s : State) (k : Nat) (f) : (s.modCell k f).rounds = s.rounds := rfl
@[simp] theorem modCell_barriers (s : State) (k : Nat) (f) : (s.modCell k f).barriers = s.barriers := rfl
@[simp] theorem modCell_launches (s : State) (k : Nat) (f) : (s.modCell k f).launches = s.launches := rfl
@[simp] theorem modCell_dies (s : State) (k : Nat) (f) : (s.modCell k f).dies = s.dies := rfl
@[simp] theorem modCell_pkgs (s : State) (k : Nat) (f) : (s.modCell k f).pkgs = s.pkgs := rfl
@[simp] theorem modCell_qcbs (s : State) (k : Nat) (f) : (s.modCell k f).qcbs = s.qcbs := rfl
@[simp] theorem modCell_domain (s : State) (k : Nat) (f) : (s.modCell k f).domain = s.domain := rfl
@[simp] theorem modCell_windows (s : State) (k : Nat) (f) : (s.modCell k f).windows = s.windows := rfl
@[simp] theorem modCell_unsealed (s : State) (k : Nat) (f) : (s.modCell k f).unsealed = s.unsealed := rfl
@[simp] theorem modCell_merges (s : State) (k : Nat) (f) : (s.modCell k f).merges = s.merges := rfl
@[simp] theorem modCell_announces (s : State) (k : Nat) (f) : (s.modCell k f).announces = s.announces := rfl
@[simp] theorem modCell_grandmaster (s : State) (k : Nat) (f) : (s.modCell k f).grandmaster = s.grandmaster := rfl
@[simp] theorem modCell_masterLostAt (s : State) (k : Nat) (f) : (s.modCell k f).masterLostAt = s.masterLostAt := rfl
@[simp] theorem modCell_corrected (s : State) (k : Nat) (f) : (s.modCell k f).corrected = s.corrected := rfl
@[simp] theorem modCell_hostOut (s : State) (k : Nat) (f) : (s.modCell k f).hostOut = s.hostOut := rfl
@[simp] theorem modCell_hostReqs (s : State) (k : Nat) (f) : (s.modCell k f).hostReqs = s.hostReqs := rfl
@[simp] theorem modCell_bankMem (s : State) (k : Nat) (f) : (s.modCell k f).bankMem = s.bankMem := rfl
@[simp] theorem modCell_hbm (s : State) (k : Nat) (f) : (s.modCell k f).hbm = s.hbm := rfl
@[simp] theorem modCell_seals (s : State) (k : Nat) (f) : (s.modCell k f).seals = s.seals := rfl
@[simp] theorem modCell_hostMem (s : State) (k : Nat) (f) : (s.modCell k f).hostMem = s.hostMem := rfl
@[simp] theorem modCell_bankPoison (s : State) (k : Nat) (f) : (s.modCell k f).bankPoison = s.bankPoison := rfl
@[simp] theorem modCell_hbmPoison (s : State) (k : Nat) (f) : (s.modCell k f).hbmPoison = s.hbmPoison := rfl
@[simp] theorem modCell_pathless (s : State) (k : Nat) (f) : (s.modCell k f).pathless = s.pathless := rfl
@[simp] theorem modCell_ctx (s : State) (k j : Nat) (f) : (s.modCell k f).ctx j = s.ctx j := rfl
@[simp] theorem modCell_core (s : State) (k j : Nat) (f) : (s.modCell k f).core j = s.core j := rfl
@[simp] theorem modCell_bank (s : State) (k j : Nat) (f) : (s.modCell k f).bank j = s.bank j := rfl
@[simp] theorem modCell_queue (s : State) (k j : Nat) (f) : (s.modCell k f).queue j = s.queue j := rfl
@[simp] theorem modCell_die (s : State) (k j : Nat) (f) : (s.modCell k f).die j = s.die j := rfl
@[simp] theorem modCell_pkg (s : State) (k j : Nat) (f) : (s.modCell k f).pkg j = s.pkg j := rfl
@[simp] theorem modCell_qcb (s : State) (k j : Nat) (f) : (s.modCell k f).qcb j = s.qcb j := rfl

@[simp] theorem modQueue_cycle (s : State) (k : Nat) (f) : (s.modQueue k f).cycle = s.cycle := rfl
@[simp] theorem modQueue_cur (s : State) (k : Nat) (f) : (s.modQueue k f).cur = s.cur := rfl
@[simp] theorem modQueue_sched (s : State) (k : Nat) (f) : (s.modQueue k f).sched = s.sched := rfl
@[simp] theorem modQueue_view (s : State) (k : Nat) (f) : (s.modQueue k f).view = s.view := rfl
@[simp] theorem modQueue_freeCtr (s : State) (k : Nat) (f) : (s.modQueue k f).freeCtr = s.freeCtr := rfl
@[simp] theorem modQueue_seq (s : State) (k : Nat) (f) : (s.modQueue k f).seq = s.seq := rfl
@[simp] theorem modQueue_ctxs (s : State) (k : Nat) (f) : (s.modQueue k f).ctxs = s.ctxs := rfl
@[simp] theorem modQueue_cores (s : State) (k : Nat) (f) : (s.modQueue k f).cores = s.cores := rfl
@[simp] theorem modQueue_banks (s : State) (k : Nat) (f) : (s.modQueue k f).banks = s.banks := rfl
@[simp] theorem modQueue_turns (s : State) (k : Nat) (f) : (s.modQueue k f).turns = s.turns := rfl
@[simp] theorem modQueue_cells (s : State) (k : Nat) (f) : (s.modQueue k f).cells = s.cells := rfl
@[simp] theorem modQueue_engines (s : State) (k : Nat) (f) : (s.modQueue k f).engines = s.engines := rfl
@[simp] theorem modQueue_arcades (s : State) (k : Nat) (f) : (s.modQueue k f).arcades = s.arcades := rfl
@[simp] theorem modQueue_rounds (s : State) (k : Nat) (f) : (s.modQueue k f).rounds = s.rounds := rfl
@[simp] theorem modQueue_barriers (s : State) (k : Nat) (f) : (s.modQueue k f).barriers = s.barriers := rfl
@[simp] theorem modQueue_launches (s : State) (k : Nat) (f) : (s.modQueue k f).launches = s.launches := rfl
@[simp] theorem modQueue_dies (s : State) (k : Nat) (f) : (s.modQueue k f).dies = s.dies := rfl
@[simp] theorem modQueue_pkgs (s : State) (k : Nat) (f) : (s.modQueue k f).pkgs = s.pkgs := rfl
@[simp] theorem modQueue_qcbs (s : State) (k : Nat) (f) : (s.modQueue k f).qcbs = s.qcbs := rfl
@[simp] theorem modQueue_domain (s : State) (k : Nat) (f) : (s.modQueue k f).domain = s.domain := rfl
@[simp] theorem modQueue_windows (s : State) (k : Nat) (f) : (s.modQueue k f).windows = s.windows := rfl
@[simp] theorem modQueue_unsealed (s : State) (k : Nat) (f) : (s.modQueue k f).unsealed = s.unsealed := rfl
@[simp] theorem modQueue_merges (s : State) (k : Nat) (f) : (s.modQueue k f).merges = s.merges := rfl
@[simp] theorem modQueue_announces (s : State) (k : Nat) (f) : (s.modQueue k f).announces = s.announces := rfl
@[simp] theorem modQueue_grandmaster (s : State) (k : Nat) (f) : (s.modQueue k f).grandmaster = s.grandmaster := rfl
@[simp] theorem modQueue_masterLostAt (s : State) (k : Nat) (f) : (s.modQueue k f).masterLostAt = s.masterLostAt := rfl
@[simp] theorem modQueue_corrected (s : State) (k : Nat) (f) : (s.modQueue k f).corrected = s.corrected := rfl
@[simp] theorem modQueue_hostOut (s : State) (k : Nat) (f) : (s.modQueue k f).hostOut = s.hostOut := rfl
@[simp] theorem modQueue_hostReqs (s : State) (k : Nat) (f) : (s.modQueue k f).hostReqs = s.hostReqs := rfl
@[simp] theorem modQueue_bankMem (s : State) (k : Nat) (f) : (s.modQueue k f).bankMem = s.bankMem := rfl
@[simp] theorem modQueue_hbm (s : State) (k : Nat) (f) : (s.modQueue k f).hbm = s.hbm := rfl
@[simp] theorem modQueue_seals (s : State) (k : Nat) (f) : (s.modQueue k f).seals = s.seals := rfl
@[simp] theorem modQueue_hostMem (s : State) (k : Nat) (f) : (s.modQueue k f).hostMem = s.hostMem := rfl
@[simp] theorem modQueue_bankPoison (s : State) (k : Nat) (f) : (s.modQueue k f).bankPoison = s.bankPoison := rfl
@[simp] theorem modQueue_hbmPoison (s : State) (k : Nat) (f) : (s.modQueue k f).hbmPoison = s.hbmPoison := rfl
@[simp] theorem modQueue_pathless (s : State) (k : Nat) (f) : (s.modQueue k f).pathless = s.pathless := rfl
@[simp] theorem modQueue_ctx (s : State) (k j : Nat) (f) : (s.modQueue k f).ctx j = s.ctx j := rfl
@[simp] theorem modQueue_core (s : State) (k j : Nat) (f) : (s.modQueue k f).core j = s.core j := rfl
@[simp] theorem modQueue_bank (s : State) (k j : Nat) (f) : (s.modQueue k f).bank j = s.bank j := rfl
@[simp] theorem modQueue_cell (s : State) (k j : Nat) (f) : (s.modQueue k f).cell j = s.cell j := rfl
@[simp] theorem modQueue_die (s : State) (k j : Nat) (f) : (s.modQueue k f).die j = s.die j := rfl
@[simp] theorem modQueue_pkg (s : State) (k j : Nat) (f) : (s.modQueue k f).pkg j = s.pkg j := rfl
@[simp] theorem modQueue_qcb (s : State) (k j : Nat) (f) : (s.modQueue k f).qcb j = s.qcb j := rfl

@[simp] theorem modDie_cycle (s : State) (k : Nat) (f) : (s.modDie k f).cycle = s.cycle := rfl
@[simp] theorem modDie_cur (s : State) (k : Nat) (f) : (s.modDie k f).cur = s.cur := rfl
@[simp] theorem modDie_sched (s : State) (k : Nat) (f) : (s.modDie k f).sched = s.sched := rfl
@[simp] theorem modDie_view (s : State) (k : Nat) (f) : (s.modDie k f).view = s.view := rfl
@[simp] theorem modDie_freeCtr (s : State) (k : Nat) (f) : (s.modDie k f).freeCtr = s.freeCtr := rfl
@[simp] theorem modDie_seq (s : State) (k : Nat) (f) : (s.modDie k f).seq = s.seq := rfl
@[simp] theorem modDie_ctxs (s : State) (k : Nat) (f) : (s.modDie k f).ctxs = s.ctxs := rfl
@[simp] theorem modDie_cores (s : State) (k : Nat) (f) : (s.modDie k f).cores = s.cores := rfl
@[simp] theorem modDie_banks (s : State) (k : Nat) (f) : (s.modDie k f).banks = s.banks := rfl
@[simp] theorem modDie_turns (s : State) (k : Nat) (f) : (s.modDie k f).turns = s.turns := rfl
@[simp] theorem modDie_cells (s : State) (k : Nat) (f) : (s.modDie k f).cells = s.cells := rfl
@[simp] theorem modDie_queues (s : State) (k : Nat) (f) : (s.modDie k f).queues = s.queues := rfl
@[simp] theorem modDie_engines (s : State) (k : Nat) (f) : (s.modDie k f).engines = s.engines := rfl
@[simp] theorem modDie_arcades (s : State) (k : Nat) (f) : (s.modDie k f).arcades = s.arcades := rfl
@[simp] theorem modDie_rounds (s : State) (k : Nat) (f) : (s.modDie k f).rounds = s.rounds := rfl
@[simp] theorem modDie_barriers (s : State) (k : Nat) (f) : (s.modDie k f).barriers = s.barriers := rfl
@[simp] theorem modDie_launches (s : State) (k : Nat) (f) : (s.modDie k f).launches = s.launches := rfl
@[simp] theorem modDie_pkgs (s : State) (k : Nat) (f) : (s.modDie k f).pkgs = s.pkgs := rfl
@[simp] theorem modDie_qcbs (s : State) (k : Nat) (f) : (s.modDie k f).qcbs = s.qcbs := rfl
@[simp] theorem modDie_domain (s : State) (k : Nat) (f) : (s.modDie k f).domain = s.domain := rfl
@[simp] theorem modDie_windows (s : State) (k : Nat) (f) : (s.modDie k f).windows = s.windows := rfl
@[simp] theorem modDie_unsealed (s : State) (k : Nat) (f) : (s.modDie k f).unsealed = s.unsealed := rfl
@[simp] theorem modDie_merges (s : State) (k : Nat) (f) : (s.modDie k f).merges = s.merges := rfl
@[simp] theorem modDie_announces (s : State) (k : Nat) (f) : (s.modDie k f).announces = s.announces := rfl
@[simp] theorem modDie_grandmaster (s : State) (k : Nat) (f) : (s.modDie k f).grandmaster = s.grandmaster := rfl
@[simp] theorem modDie_masterLostAt (s : State) (k : Nat) (f) : (s.modDie k f).masterLostAt = s.masterLostAt := rfl
@[simp] theorem modDie_corrected (s : State) (k : Nat) (f) : (s.modDie k f).corrected = s.corrected := rfl
@[simp] theorem modDie_hostOut (s : State) (k : Nat) (f) : (s.modDie k f).hostOut = s.hostOut := rfl
@[simp] theorem modDie_hostReqs (s : State) (k : Nat) (f) : (s.modDie k f).hostReqs = s.hostReqs := rfl
@[simp] theorem modDie_bankMem (s : State) (k : Nat) (f) : (s.modDie k f).bankMem = s.bankMem := rfl
@[simp] theorem modDie_hbm (s : State) (k : Nat) (f) : (s.modDie k f).hbm = s.hbm := rfl
@[simp] theorem modDie_seals (s : State) (k : Nat) (f) : (s.modDie k f).seals = s.seals := rfl
@[simp] theorem modDie_hostMem (s : State) (k : Nat) (f) : (s.modDie k f).hostMem = s.hostMem := rfl
@[simp] theorem modDie_bankPoison (s : State) (k : Nat) (f) : (s.modDie k f).bankPoison = s.bankPoison := rfl
@[simp] theorem modDie_hbmPoison (s : State) (k : Nat) (f) : (s.modDie k f).hbmPoison = s.hbmPoison := rfl
@[simp] theorem modDie_pathless (s : State) (k : Nat) (f) : (s.modDie k f).pathless = s.pathless := rfl
@[simp] theorem modDie_ctx (s : State) (k j : Nat) (f) : (s.modDie k f).ctx j = s.ctx j := rfl
@[simp] theorem modDie_core (s : State) (k j : Nat) (f) : (s.modDie k f).core j = s.core j := rfl
@[simp] theorem modDie_bank (s : State) (k j : Nat) (f) : (s.modDie k f).bank j = s.bank j := rfl
@[simp] theorem modDie_cell (s : State) (k j : Nat) (f) : (s.modDie k f).cell j = s.cell j := rfl
@[simp] theorem modDie_queue (s : State) (k j : Nat) (f) : (s.modDie k f).queue j = s.queue j := rfl
@[simp] theorem modDie_pkg (s : State) (k j : Nat) (f) : (s.modDie k f).pkg j = s.pkg j := rfl
@[simp] theorem modDie_qcb (s : State) (k j : Nat) (f) : (s.modDie k f).qcb j = s.qcb j := rfl

@[simp] theorem modPkg_cycle (s : State) (k : Nat) (f) : (s.modPkg k f).cycle = s.cycle := rfl
@[simp] theorem modPkg_cur (s : State) (k : Nat) (f) : (s.modPkg k f).cur = s.cur := rfl
@[simp] theorem modPkg_sched (s : State) (k : Nat) (f) : (s.modPkg k f).sched = s.sched := rfl
@[simp] theorem modPkg_view (s : State) (k : Nat) (f) : (s.modPkg k f).view = s.view := rfl
@[simp] theorem modPkg_freeCtr (s : State) (k : Nat) (f) : (s.modPkg k f).freeCtr = s.freeCtr := rfl
@[simp] theorem modPkg_seq (s : State) (k : Nat) (f) : (s.modPkg k f).seq = s.seq := rfl
@[simp] theorem modPkg_ctxs (s : State) (k : Nat) (f) : (s.modPkg k f).ctxs = s.ctxs := rfl
@[simp] theorem modPkg_cores (s : State) (k : Nat) (f) : (s.modPkg k f).cores = s.cores := rfl
@[simp] theorem modPkg_banks (s : State) (k : Nat) (f) : (s.modPkg k f).banks = s.banks := rfl
@[simp] theorem modPkg_turns (s : State) (k : Nat) (f) : (s.modPkg k f).turns = s.turns := rfl
@[simp] theorem modPkg_cells (s : State) (k : Nat) (f) : (s.modPkg k f).cells = s.cells := rfl
@[simp] theorem modPkg_queues (s : State) (k : Nat) (f) : (s.modPkg k f).queues = s.queues := rfl
@[simp] theorem modPkg_engines (s : State) (k : Nat) (f) : (s.modPkg k f).engines = s.engines := rfl
@[simp] theorem modPkg_arcades (s : State) (k : Nat) (f) : (s.modPkg k f).arcades = s.arcades := rfl
@[simp] theorem modPkg_rounds (s : State) (k : Nat) (f) : (s.modPkg k f).rounds = s.rounds := rfl
@[simp] theorem modPkg_barriers (s : State) (k : Nat) (f) : (s.modPkg k f).barriers = s.barriers := rfl
@[simp] theorem modPkg_launches (s : State) (k : Nat) (f) : (s.modPkg k f).launches = s.launches := rfl
@[simp] theorem modPkg_dies (s : State) (k : Nat) (f) : (s.modPkg k f).dies = s.dies := rfl
@[simp] theorem modPkg_qcbs (s : State) (k : Nat) (f) : (s.modPkg k f).qcbs = s.qcbs := rfl
@[simp] theorem modPkg_domain (s : State) (k : Nat) (f) : (s.modPkg k f).domain = s.domain := rfl
@[simp] theorem modPkg_windows (s : State) (k : Nat) (f) : (s.modPkg k f).windows = s.windows := rfl
@[simp] theorem modPkg_unsealed (s : State) (k : Nat) (f) : (s.modPkg k f).unsealed = s.unsealed := rfl
@[simp] theorem modPkg_merges (s : State) (k : Nat) (f) : (s.modPkg k f).merges = s.merges := rfl
@[simp] theorem modPkg_announces (s : State) (k : Nat) (f) : (s.modPkg k f).announces = s.announces := rfl
@[simp] theorem modPkg_grandmaster (s : State) (k : Nat) (f) : (s.modPkg k f).grandmaster = s.grandmaster := rfl
@[simp] theorem modPkg_masterLostAt (s : State) (k : Nat) (f) : (s.modPkg k f).masterLostAt = s.masterLostAt := rfl
@[simp] theorem modPkg_corrected (s : State) (k : Nat) (f) : (s.modPkg k f).corrected = s.corrected := rfl
@[simp] theorem modPkg_hostOut (s : State) (k : Nat) (f) : (s.modPkg k f).hostOut = s.hostOut := rfl
@[simp] theorem modPkg_hostReqs (s : State) (k : Nat) (f) : (s.modPkg k f).hostReqs = s.hostReqs := rfl
@[simp] theorem modPkg_bankMem (s : State) (k : Nat) (f) : (s.modPkg k f).bankMem = s.bankMem := rfl
@[simp] theorem modPkg_hbm (s : State) (k : Nat) (f) : (s.modPkg k f).hbm = s.hbm := rfl
@[simp] theorem modPkg_seals (s : State) (k : Nat) (f) : (s.modPkg k f).seals = s.seals := rfl
@[simp] theorem modPkg_hostMem (s : State) (k : Nat) (f) : (s.modPkg k f).hostMem = s.hostMem := rfl
@[simp] theorem modPkg_bankPoison (s : State) (k : Nat) (f) : (s.modPkg k f).bankPoison = s.bankPoison := rfl
@[simp] theorem modPkg_hbmPoison (s : State) (k : Nat) (f) : (s.modPkg k f).hbmPoison = s.hbmPoison := rfl
@[simp] theorem modPkg_pathless (s : State) (k : Nat) (f) : (s.modPkg k f).pathless = s.pathless := rfl
@[simp] theorem modPkg_ctx (s : State) (k j : Nat) (f) : (s.modPkg k f).ctx j = s.ctx j := rfl
@[simp] theorem modPkg_core (s : State) (k j : Nat) (f) : (s.modPkg k f).core j = s.core j := rfl
@[simp] theorem modPkg_bank (s : State) (k j : Nat) (f) : (s.modPkg k f).bank j = s.bank j := rfl
@[simp] theorem modPkg_cell (s : State) (k j : Nat) (f) : (s.modPkg k f).cell j = s.cell j := rfl
@[simp] theorem modPkg_queue (s : State) (k j : Nat) (f) : (s.modPkg k f).queue j = s.queue j := rfl
@[simp] theorem modPkg_die (s : State) (k j : Nat) (f) : (s.modPkg k f).die j = s.die j := rfl
@[simp] theorem modPkg_qcb (s : State) (k j : Nat) (f) : (s.modPkg k f).qcb j = s.qcb j := rfl

@[simp] theorem modQcb_cycle (s : State) (k : Nat) (f) : (s.modQcb k f).cycle = s.cycle := rfl
@[simp] theorem modQcb_cur (s : State) (k : Nat) (f) : (s.modQcb k f).cur = s.cur := rfl
@[simp] theorem modQcb_sched (s : State) (k : Nat) (f) : (s.modQcb k f).sched = s.sched := rfl
@[simp] theorem modQcb_view (s : State) (k : Nat) (f) : (s.modQcb k f).view = s.view := rfl
@[simp] theorem modQcb_freeCtr (s : State) (k : Nat) (f) : (s.modQcb k f).freeCtr = s.freeCtr := rfl
@[simp] theorem modQcb_seq (s : State) (k : Nat) (f) : (s.modQcb k f).seq = s.seq := rfl
@[simp] theorem modQcb_ctxs (s : State) (k : Nat) (f) : (s.modQcb k f).ctxs = s.ctxs := rfl
@[simp] theorem modQcb_cores (s : State) (k : Nat) (f) : (s.modQcb k f).cores = s.cores := rfl
@[simp] theorem modQcb_banks (s : State) (k : Nat) (f) : (s.modQcb k f).banks = s.banks := rfl
@[simp] theorem modQcb_turns (s : State) (k : Nat) (f) : (s.modQcb k f).turns = s.turns := rfl
@[simp] theorem modQcb_cells (s : State) (k : Nat) (f) : (s.modQcb k f).cells = s.cells := rfl
@[simp] theorem modQcb_queues (s : State) (k : Nat) (f) : (s.modQcb k f).queues = s.queues := rfl
@[simp] theorem modQcb_engines (s : State) (k : Nat) (f) : (s.modQcb k f).engines = s.engines := rfl
@[simp] theorem modQcb_arcades (s : State) (k : Nat) (f) : (s.modQcb k f).arcades = s.arcades := rfl
@[simp] theorem modQcb_rounds (s : State) (k : Nat) (f) : (s.modQcb k f).rounds = s.rounds := rfl
@[simp] theorem modQcb_barriers (s : State) (k : Nat) (f) : (s.modQcb k f).barriers = s.barriers := rfl
@[simp] theorem modQcb_launches (s : State) (k : Nat) (f) : (s.modQcb k f).launches = s.launches := rfl
@[simp] theorem modQcb_dies (s : State) (k : Nat) (f) : (s.modQcb k f).dies = s.dies := rfl
@[simp] theorem modQcb_pkgs (s : State) (k : Nat) (f) : (s.modQcb k f).pkgs = s.pkgs := rfl
@[simp] theorem modQcb_domain (s : State) (k : Nat) (f) : (s.modQcb k f).domain = s.domain := rfl
@[simp] theorem modQcb_windows (s : State) (k : Nat) (f) : (s.modQcb k f).windows = s.windows := rfl
@[simp] theorem modQcb_unsealed (s : State) (k : Nat) (f) : (s.modQcb k f).unsealed = s.unsealed := rfl
@[simp] theorem modQcb_merges (s : State) (k : Nat) (f) : (s.modQcb k f).merges = s.merges := rfl
@[simp] theorem modQcb_announces (s : State) (k : Nat) (f) : (s.modQcb k f).announces = s.announces := rfl
@[simp] theorem modQcb_grandmaster (s : State) (k : Nat) (f) : (s.modQcb k f).grandmaster = s.grandmaster := rfl
@[simp] theorem modQcb_masterLostAt (s : State) (k : Nat) (f) : (s.modQcb k f).masterLostAt = s.masterLostAt := rfl
@[simp] theorem modQcb_corrected (s : State) (k : Nat) (f) : (s.modQcb k f).corrected = s.corrected := rfl
@[simp] theorem modQcb_hostOut (s : State) (k : Nat) (f) : (s.modQcb k f).hostOut = s.hostOut := rfl
@[simp] theorem modQcb_hostReqs (s : State) (k : Nat) (f) : (s.modQcb k f).hostReqs = s.hostReqs := rfl
@[simp] theorem modQcb_bankMem (s : State) (k : Nat) (f) : (s.modQcb k f).bankMem = s.bankMem := rfl
@[simp] theorem modQcb_hbm (s : State) (k : Nat) (f) : (s.modQcb k f).hbm = s.hbm := rfl
@[simp] theorem modQcb_seals (s : State) (k : Nat) (f) : (s.modQcb k f).seals = s.seals := rfl
@[simp] theorem modQcb_hostMem (s : State) (k : Nat) (f) : (s.modQcb k f).hostMem = s.hostMem := rfl
@[simp] theorem modQcb_bankPoison (s : State) (k : Nat) (f) : (s.modQcb k f).bankPoison = s.bankPoison := rfl
@[simp] theorem modQcb_hbmPoison (s : State) (k : Nat) (f) : (s.modQcb k f).hbmPoison = s.hbmPoison := rfl
@[simp] theorem modQcb_pathless (s : State) (k : Nat) (f) : (s.modQcb k f).pathless = s.pathless := rfl
@[simp] theorem modQcb_ctx (s : State) (k j : Nat) (f) : (s.modQcb k f).ctx j = s.ctx j := rfl
@[simp] theorem modQcb_core (s : State) (k j : Nat) (f) : (s.modQcb k f).core j = s.core j := rfl
@[simp] theorem modQcb_bank (s : State) (k j : Nat) (f) : (s.modQcb k f).bank j = s.bank j := rfl
@[simp] theorem modQcb_cell (s : State) (k j : Nat) (f) : (s.modQcb k f).cell j = s.cell j := rfl
@[simp] theorem modQcb_queue (s : State) (k j : Nat) (f) : (s.modQcb k f).queue j = s.queue j := rfl
@[simp] theorem modQcb_die (s : State) (k j : Nat) (f) : (s.modQcb k f).die j = s.die j := rfl
@[simp] theorem modQcb_pkg (s : State) (k j : Nat) (f) : (s.modQcb k f).pkg j = s.pkg j := rfl

@[simp] theorem modTurn_cycle (s : State) (k : Nat) (f) : (s.modTurn k f).cycle = s.cycle := rfl
@[simp] theorem modTurn_cur (s : State) (k : Nat) (f) : (s.modTurn k f).cur = s.cur := rfl
@[simp] theorem modTurn_sched (s : State) (k : Nat) (f) : (s.modTurn k f).sched = s.sched := rfl
@[simp] theorem modTurn_view (s : State) (k : Nat) (f) : (s.modTurn k f).view = s.view := rfl
@[simp] theorem modTurn_freeCtr (s : State) (k : Nat) (f) : (s.modTurn k f).freeCtr = s.freeCtr := rfl
@[simp] theorem modTurn_seq (s : State) (k : Nat) (f) : (s.modTurn k f).seq = s.seq := rfl
@[simp] theorem modTurn_ctxs (s : State) (k : Nat) (f) : (s.modTurn k f).ctxs = s.ctxs := rfl
@[simp] theorem modTurn_cores (s : State) (k : Nat) (f) : (s.modTurn k f).cores = s.cores := rfl
@[simp] theorem modTurn_cells (s : State) (k : Nat) (f) : (s.modTurn k f).cells = s.cells := rfl
@[simp] theorem modTurn_queues (s : State) (k : Nat) (f) : (s.modTurn k f).queues = s.queues := rfl
@[simp] theorem modTurn_engines (s : State) (k : Nat) (f) : (s.modTurn k f).engines = s.engines := rfl
@[simp] theorem modTurn_arcades (s : State) (k : Nat) (f) : (s.modTurn k f).arcades = s.arcades := rfl
@[simp] theorem modTurn_rounds (s : State) (k : Nat) (f) : (s.modTurn k f).rounds = s.rounds := rfl
@[simp] theorem modTurn_barriers (s : State) (k : Nat) (f) : (s.modTurn k f).barriers = s.barriers := rfl
@[simp] theorem modTurn_launches (s : State) (k : Nat) (f) : (s.modTurn k f).launches = s.launches := rfl
@[simp] theorem modTurn_dies (s : State) (k : Nat) (f) : (s.modTurn k f).dies = s.dies := rfl
@[simp] theorem modTurn_pkgs (s : State) (k : Nat) (f) : (s.modTurn k f).pkgs = s.pkgs := rfl
@[simp] theorem modTurn_qcbs (s : State) (k : Nat) (f) : (s.modTurn k f).qcbs = s.qcbs := rfl
@[simp] theorem modTurn_domain (s : State) (k : Nat) (f) : (s.modTurn k f).domain = s.domain := rfl
@[simp] theorem modTurn_windows (s : State) (k : Nat) (f) : (s.modTurn k f).windows = s.windows := rfl
@[simp] theorem modTurn_unsealed (s : State) (k : Nat) (f) : (s.modTurn k f).unsealed = s.unsealed := rfl
@[simp] theorem modTurn_merges (s : State) (k : Nat) (f) : (s.modTurn k f).merges = s.merges := rfl
@[simp] theorem modTurn_announces (s : State) (k : Nat) (f) : (s.modTurn k f).announces = s.announces := rfl
@[simp] theorem modTurn_grandmaster (s : State) (k : Nat) (f) : (s.modTurn k f).grandmaster = s.grandmaster := rfl
@[simp] theorem modTurn_masterLostAt (s : State) (k : Nat) (f) : (s.modTurn k f).masterLostAt = s.masterLostAt := rfl
@[simp] theorem modTurn_corrected (s : State) (k : Nat) (f) : (s.modTurn k f).corrected = s.corrected := rfl
@[simp] theorem modTurn_hostOut (s : State) (k : Nat) (f) : (s.modTurn k f).hostOut = s.hostOut := rfl
@[simp] theorem modTurn_hostReqs (s : State) (k : Nat) (f) : (s.modTurn k f).hostReqs = s.hostReqs := rfl
@[simp] theorem modTurn_bankMem (s : State) (k : Nat) (f) : (s.modTurn k f).bankMem = s.bankMem := rfl
@[simp] theorem modTurn_hbm (s : State) (k : Nat) (f) : (s.modTurn k f).hbm = s.hbm := rfl
@[simp] theorem modTurn_seals (s : State) (k : Nat) (f) : (s.modTurn k f).seals = s.seals := rfl
@[simp] theorem modTurn_hostMem (s : State) (k : Nat) (f) : (s.modTurn k f).hostMem = s.hostMem := rfl
@[simp] theorem modTurn_bankPoison (s : State) (k : Nat) (f) : (s.modTurn k f).bankPoison = s.bankPoison := rfl
@[simp] theorem modTurn_hbmPoison (s : State) (k : Nat) (f) : (s.modTurn k f).hbmPoison = s.hbmPoison := rfl
@[simp] theorem modTurn_pathless (s : State) (k : Nat) (f) : (s.modTurn k f).pathless = s.pathless := rfl
@[simp] theorem modTurn_ctx (s : State) (k j : Nat) (f) : (s.modTurn k f).ctx j = s.ctx j := rfl
@[simp] theorem modTurn_core (s : State) (k j : Nat) (f) : (s.modTurn k f).core j = s.core j := rfl
@[simp] theorem modTurn_cell (s : State) (k j : Nat) (f) : (s.modTurn k f).cell j = s.cell j := rfl
@[simp] theorem modTurn_queue (s : State) (k j : Nat) (f) : (s.modTurn k f).queue j = s.queue j := rfl
@[simp] theorem modTurn_die (s : State) (k j : Nat) (f) : (s.modTurn k f).die j = s.die j := rfl
@[simp] theorem modTurn_pkg (s : State) (k j : Nat) (f) : (s.modTurn k f).pkg j = s.pkg j := rfl
@[simp] theorem modTurn_qcb (s : State) (k j : Nat) (f) : (s.modTurn k f).qcb j = s.qcb j := rfl
@[simp] theorem modTurn_banks (s : State) (k : Nat) (f) : (s.modTurn k f).banks = s.banks := rfl
@[simp] theorem modTurn_bank (s : State) (k j : Nat) (f) : (s.modTurn k f).bank j = s.bank j := rfl

@[simp] theorem modEngine_cycle (s : State) (k : Nat) (f) : (s.modEngine k f).cycle = s.cycle := rfl
@[simp] theorem modEngine_cur (s : State) (k : Nat) (f) : (s.modEngine k f).cur = s.cur := rfl
@[simp] theorem modEngine_sched (s : State) (k : Nat) (f) : (s.modEngine k f).sched = s.sched := rfl
@[simp] theorem modEngine_view (s : State) (k : Nat) (f) : (s.modEngine k f).view = s.view := rfl
@[simp] theorem modEngine_freeCtr (s : State) (k : Nat) (f) : (s.modEngine k f).freeCtr = s.freeCtr := rfl
@[simp] theorem modEngine_seq (s : State) (k : Nat) (f) : (s.modEngine k f).seq = s.seq := rfl
@[simp] theorem modEngine_ctxs (s : State) (k : Nat) (f) : (s.modEngine k f).ctxs = s.ctxs := rfl
@[simp] theorem modEngine_cores (s : State) (k : Nat) (f) : (s.modEngine k f).cores = s.cores := rfl
@[simp] theorem modEngine_turns (s : State) (k : Nat) (f) : (s.modEngine k f).turns = s.turns := rfl
@[simp] theorem modEngine_cells (s : State) (k : Nat) (f) : (s.modEngine k f).cells = s.cells := rfl
@[simp] theorem modEngine_queues (s : State) (k : Nat) (f) : (s.modEngine k f).queues = s.queues := rfl
@[simp] theorem modEngine_arcades (s : State) (k : Nat) (f) : (s.modEngine k f).arcades = s.arcades := rfl
@[simp] theorem modEngine_rounds (s : State) (k : Nat) (f) : (s.modEngine k f).rounds = s.rounds := rfl
@[simp] theorem modEngine_barriers (s : State) (k : Nat) (f) : (s.modEngine k f).barriers = s.barriers := rfl
@[simp] theorem modEngine_launches (s : State) (k : Nat) (f) : (s.modEngine k f).launches = s.launches := rfl
@[simp] theorem modEngine_dies (s : State) (k : Nat) (f) : (s.modEngine k f).dies = s.dies := rfl
@[simp] theorem modEngine_pkgs (s : State) (k : Nat) (f) : (s.modEngine k f).pkgs = s.pkgs := rfl
@[simp] theorem modEngine_qcbs (s : State) (k : Nat) (f) : (s.modEngine k f).qcbs = s.qcbs := rfl
@[simp] theorem modEngine_domain (s : State) (k : Nat) (f) : (s.modEngine k f).domain = s.domain := rfl
@[simp] theorem modEngine_windows (s : State) (k : Nat) (f) : (s.modEngine k f).windows = s.windows := rfl
@[simp] theorem modEngine_unsealed (s : State) (k : Nat) (f) : (s.modEngine k f).unsealed = s.unsealed := rfl
@[simp] theorem modEngine_merges (s : State) (k : Nat) (f) : (s.modEngine k f).merges = s.merges := rfl
@[simp] theorem modEngine_announces (s : State) (k : Nat) (f) : (s.modEngine k f).announces = s.announces := rfl
@[simp] theorem modEngine_grandmaster (s : State) (k : Nat) (f) : (s.modEngine k f).grandmaster = s.grandmaster := rfl
@[simp] theorem modEngine_masterLostAt (s : State) (k : Nat) (f) : (s.modEngine k f).masterLostAt = s.masterLostAt := rfl
@[simp] theorem modEngine_corrected (s : State) (k : Nat) (f) : (s.modEngine k f).corrected = s.corrected := rfl
@[simp] theorem modEngine_hostOut (s : State) (k : Nat) (f) : (s.modEngine k f).hostOut = s.hostOut := rfl
@[simp] theorem modEngine_hostReqs (s : State) (k : Nat) (f) : (s.modEngine k f).hostReqs = s.hostReqs := rfl
@[simp] theorem modEngine_bankMem (s : State) (k : Nat) (f) : (s.modEngine k f).bankMem = s.bankMem := rfl
@[simp] theorem modEngine_hbm (s : State) (k : Nat) (f) : (s.modEngine k f).hbm = s.hbm := rfl
@[simp] theorem modEngine_seals (s : State) (k : Nat) (f) : (s.modEngine k f).seals = s.seals := rfl
@[simp] theorem modEngine_hostMem (s : State) (k : Nat) (f) : (s.modEngine k f).hostMem = s.hostMem := rfl
@[simp] theorem modEngine_bankPoison (s : State) (k : Nat) (f) : (s.modEngine k f).bankPoison = s.bankPoison := rfl
@[simp] theorem modEngine_hbmPoison (s : State) (k : Nat) (f) : (s.modEngine k f).hbmPoison = s.hbmPoison := rfl
@[simp] theorem modEngine_pathless (s : State) (k : Nat) (f) : (s.modEngine k f).pathless = s.pathless := rfl
@[simp] theorem modEngine_ctx (s : State) (k j : Nat) (f) : (s.modEngine k f).ctx j = s.ctx j := rfl
@[simp] theorem modEngine_core (s : State) (k j : Nat) (f) : (s.modEngine k f).core j = s.core j := rfl
@[simp] theorem modEngine_cell (s : State) (k j : Nat) (f) : (s.modEngine k f).cell j = s.cell j := rfl
@[simp] theorem modEngine_queue (s : State) (k j : Nat) (f) : (s.modEngine k f).queue j = s.queue j := rfl
@[simp] theorem modEngine_die (s : State) (k j : Nat) (f) : (s.modEngine k f).die j = s.die j := rfl
@[simp] theorem modEngine_pkg (s : State) (k j : Nat) (f) : (s.modEngine k f).pkg j = s.pkg j := rfl
@[simp] theorem modEngine_qcb (s : State) (k j : Nat) (f) : (s.modEngine k f).qcb j = s.qcb j := rfl
@[simp] theorem modEngine_banks (s : State) (k : Nat) (f) : (s.modEngine k f).banks = s.banks := rfl
@[simp] theorem modEngine_bank (s : State) (k j : Nat) (f) : (s.modEngine k f).bank j = s.bank j := rfl

/-- A launch changed leaves everything else as it was. -/
theorem modLaunch_eq (s : State) (l : Nat) (f) : s.modLaunch l f = { s with launches := (s.modLaunch l f).launches } := by
  unfold State.modLaunch
  split <;> rfl

@[simp] theorem modLaunch_cycle (s : State) (l : Nat) (f) : (s.modLaunch l f).cycle = s.cycle := by rw [modLaunch_eq]
@[simp] theorem modLaunch_cur (s : State) (l : Nat) (f) : (s.modLaunch l f).cur = s.cur := by rw [modLaunch_eq]
@[simp] theorem modLaunch_sched (s : State) (l : Nat) (f) : (s.modLaunch l f).sched = s.sched := by rw [modLaunch_eq]
@[simp] theorem modLaunch_view (s : State) (l : Nat) (f) : (s.modLaunch l f).view = s.view := by rw [modLaunch_eq]
@[simp] theorem modLaunch_freeCtr (s : State) (l : Nat) (f) : (s.modLaunch l f).freeCtr = s.freeCtr := by rw [modLaunch_eq]
@[simp] theorem modLaunch_seq (s : State) (l : Nat) (f) : (s.modLaunch l f).seq = s.seq := by rw [modLaunch_eq]
@[simp] theorem modLaunch_ctxs (s : State) (l : Nat) (f) : (s.modLaunch l f).ctxs = s.ctxs := by rw [modLaunch_eq]
@[simp] theorem modLaunch_cores (s : State) (l : Nat) (f) : (s.modLaunch l f).cores = s.cores := by rw [modLaunch_eq]
@[simp] theorem modLaunch_banks (s : State) (l : Nat) (f) : (s.modLaunch l f).banks = s.banks := by rw [modLaunch_eq]
@[simp] theorem modLaunch_turns (s : State) (l : Nat) (f) : (s.modLaunch l f).turns = s.turns := by rw [modLaunch_eq]
@[simp] theorem modLaunch_cells (s : State) (l : Nat) (f) : (s.modLaunch l f).cells = s.cells := by rw [modLaunch_eq]
@[simp] theorem modLaunch_queues (s : State) (l : Nat) (f) : (s.modLaunch l f).queues = s.queues := by rw [modLaunch_eq]
@[simp] theorem modLaunch_engines (s : State) (l : Nat) (f) : (s.modLaunch l f).engines = s.engines := by rw [modLaunch_eq]
@[simp] theorem modLaunch_arcades (s : State) (l : Nat) (f) : (s.modLaunch l f).arcades = s.arcades := by rw [modLaunch_eq]
@[simp] theorem modLaunch_rounds (s : State) (l : Nat) (f) : (s.modLaunch l f).rounds = s.rounds := by rw [modLaunch_eq]
@[simp] theorem modLaunch_barriers (s : State) (l : Nat) (f) : (s.modLaunch l f).barriers = s.barriers := by rw [modLaunch_eq]
@[simp] theorem modLaunch_dies (s : State) (l : Nat) (f) : (s.modLaunch l f).dies = s.dies := by rw [modLaunch_eq]
@[simp] theorem modLaunch_pkgs (s : State) (l : Nat) (f) : (s.modLaunch l f).pkgs = s.pkgs := by rw [modLaunch_eq]
@[simp] theorem modLaunch_qcbs (s : State) (l : Nat) (f) : (s.modLaunch l f).qcbs = s.qcbs := by rw [modLaunch_eq]
@[simp] theorem modLaunch_domain (s : State) (l : Nat) (f) : (s.modLaunch l f).domain = s.domain := by rw [modLaunch_eq]
@[simp] theorem modLaunch_windows (s : State) (l : Nat) (f) : (s.modLaunch l f).windows = s.windows := by rw [modLaunch_eq]
@[simp] theorem modLaunch_unsealed (s : State) (l : Nat) (f) : (s.modLaunch l f).unsealed = s.unsealed := by rw [modLaunch_eq]
@[simp] theorem modLaunch_merges (s : State) (l : Nat) (f) : (s.modLaunch l f).merges = s.merges := by rw [modLaunch_eq]
@[simp] theorem modLaunch_announces (s : State) (l : Nat) (f) : (s.modLaunch l f).announces = s.announces := by rw [modLaunch_eq]
@[simp] theorem modLaunch_grandmaster (s : State) (l : Nat) (f) : (s.modLaunch l f).grandmaster = s.grandmaster := by rw [modLaunch_eq]
@[simp] theorem modLaunch_masterLostAt (s : State) (l : Nat) (f) : (s.modLaunch l f).masterLostAt = s.masterLostAt := by rw [modLaunch_eq]
@[simp] theorem modLaunch_corrected (s : State) (l : Nat) (f) : (s.modLaunch l f).corrected = s.corrected := by rw [modLaunch_eq]
@[simp] theorem modLaunch_hostOut (s : State) (l : Nat) (f) : (s.modLaunch l f).hostOut = s.hostOut := by rw [modLaunch_eq]
@[simp] theorem modLaunch_hostReqs (s : State) (l : Nat) (f) : (s.modLaunch l f).hostReqs = s.hostReqs := by rw [modLaunch_eq]
@[simp] theorem modLaunch_bankMem (s : State) (l : Nat) (f) : (s.modLaunch l f).bankMem = s.bankMem := by rw [modLaunch_eq]
@[simp] theorem modLaunch_hbm (s : State) (l : Nat) (f) : (s.modLaunch l f).hbm = s.hbm := by rw [modLaunch_eq]
@[simp] theorem modLaunch_seals (s : State) (l : Nat) (f) : (s.modLaunch l f).seals = s.seals := by rw [modLaunch_eq]
@[simp] theorem modLaunch_hostMem (s : State) (l : Nat) (f) : (s.modLaunch l f).hostMem = s.hostMem := by rw [modLaunch_eq]
@[simp] theorem modLaunch_bankPoison (s : State) (l : Nat) (f) : (s.modLaunch l f).bankPoison = s.bankPoison := by rw [modLaunch_eq]
@[simp] theorem modLaunch_hbmPoison (s : State) (l : Nat) (f) : (s.modLaunch l f).hbmPoison = s.hbmPoison := by rw [modLaunch_eq]
@[simp] theorem modLaunch_pathless (s : State) (l : Nat) (f) : (s.modLaunch l f).pathless = s.pathless := by rw [modLaunch_eq]
@[simp] theorem modLaunch_ctx (s : State) (l j : Nat) (f) : (s.modLaunch l f).ctx j = s.ctx j := by rw [modLaunch_eq]; rfl
@[simp] theorem modLaunch_core (s : State) (l j : Nat) (f) : (s.modLaunch l f).core j = s.core j := by rw [modLaunch_eq]; rfl
@[simp] theorem modLaunch_bank (s : State) (l j : Nat) (f) : (s.modLaunch l f).bank j = s.bank j := by rw [modLaunch_eq]; rfl
@[simp] theorem modLaunch_cell (s : State) (l j : Nat) (f) : (s.modLaunch l f).cell j = s.cell j := by rw [modLaunch_eq]; rfl
@[simp] theorem modLaunch_queue (s : State) (l j : Nat) (f) : (s.modLaunch l f).queue j = s.queue j := by rw [modLaunch_eq]; rfl
@[simp] theorem modLaunch_die (s : State) (l j : Nat) (f) : (s.modLaunch l f).die j = s.die j := by rw [modLaunch_eq]; rfl
@[simp] theorem modLaunch_pkg (s : State) (l j : Nat) (f) : (s.modLaunch l f).pkg j = s.pkg j := by rw [modLaunch_eq]; rfl
@[simp] theorem modLaunch_qcb (s : State) (l j : Nat) (f) : (s.modLaunch l f).qcb j = s.qcb j := by rw [modLaunch_eq]; rfl

theorem find_modLaunch (s : State) (l j : Nat) (f) :
    find? (s.modLaunch l f).launches j = if j = l then (find? s.launches l).map f else find? s.launches j := by
  unfold State.modLaunch
  split
  · rename_i x h
    simp only [find?_put, h, Option.map_some]
  · rename_i h
    by_cases hj : j = l <;> simp [hj, h]

/-! ## Frames -/

theorem OnlyCtx.modCtx (s : State) (k : Nat) (f) : OnlyCtx k s (s.modCtx k f) := ⟨rfl, fun _ h => ctx_modCtx_ne s f _ _ h⟩

theorem OnlyCtx.refl (s : State) (k : Nat) : OnlyCtx k s s := ⟨rfl, fun _ _ => rfl⟩

theorem OnlyCtx.trans {k : Nat} {s t u : State} (h : OnlyCtx k s t) (h' : OnlyCtx k t u) : OnlyCtx k s u := by
  refine ⟨?_, fun j hj => (h'.2 j hj).trans (h.2 j hj)⟩
  rw [h'.1, h.1]

theorem OnlyCore.modCore (s : State) (k : Nat) (f) : OnlyCore k s (s.modCore k f) :=
  ⟨rfl, fun _ h => core_modCore_ne s f _ _ h⟩

theorem SameBytes.refl (s : State) : SameBytes s s := ⟨fun _ => rfl, fun _ _ => rfl, fun _ => rfl⟩

theorem SameBytes.trans {s t u : State} (h : SameBytes s t) (h' : SameBytes t u) : SameBytes s u :=
  ⟨fun a => (h'.1 a).trans (h.1 a), fun key a => (h'.2.1 key a).trans (h.2.1 key a), fun a => (h'.2.2 a).trans (h.2.2 a)⟩

/-- What a key reads of a frame depends on the cells and the seals alone. -/
theorem frameRead_congr {s t : State} (h1 : t.hbm = s.hbm) (h2 : t.seals = s.seals) (key : Option (BitVec 512)) (a n : Nat) :
    frameRead t key a n = frameRead s key a n := by
  simp only [frameRead, blockAs, h1, h2]

/-- States with the same memories have the same bytes. -/
theorem SameBytes.of_eq {s t : State} (h1 : t.bankMem = s.bankMem) (h2 : t.hbm = s.hbm) (h3 : t.seals = s.seals)
    (h4 : t.hostMem = s.hostMem) : SameBytes s t :=
  ⟨fun a => by rw [h1], fun key a => frameRead_congr h2 h3 key a 1, fun a => by rw [h4]⟩

theorem OnlyCtx.sameBytes {k : Nat} {s t : State} (h : OnlyCtx k s t) : SameBytes s t := by
  rw [h.1]; exact SameBytes.of_eq rfl rfl rfl rfl

/-! ## Registers of a context -/

@[simp] theorem rd_zero (c : Ctx) : c.rd 0 = 0 := by simp [Ctx.rd]

@[simp] theorem rdC_zero (c : Ctx) : c.rdC 0 = true := by simp [Ctx.rdC]

/-- Reading a scalar register of a context depends on its registers alone. -/
theorem rd_congr {c c' : Ctx} (h : c'.s = c.s) (r : SReg) : c'.rd r = c.rd r := by simp [Ctx.rd, h]

/-- Reading a condition register depends on the condition registers alone. -/
theorem rdC_congr {c c' : Ctx} (h : c'.c = c.c) (r : CReg) : c'.rdC r = c.rdC r := by simp [Ctx.rdC, h]

theorem setS_s_ne (c : Ctx) (d : SReg) (v : Word) (h : d ≠ 0) : (c.setS d v).s = c.s.set d.toNat v d.isLt := by
  simp only [Ctx.setS, h, if_false]

/-- A scalar register reads what was written; s0 reads 0 (R11). -/
theorem rd_setS (c : Ctx) (d r : SReg) (v : Word) : (c.setS d v).rd r = if r = d ∧ d ≠ 0 then v else c.rd r := by
  by_cases h : d = 0
  · rw [if_neg (fun hh => hh.2 h)]
    simp only [Ctx.setS, h, if_true]
  · by_cases h3 : r = 0
    · subst h3
      rw [if_neg (fun (hh : 0 = d ∧ d ≠ 0) => h hh.1.symm), rd_zero, rd_zero]
    · simp only [Ctx.rd, h3, if_false, setS_s_ne c d v h]
      show (c.s.set d.toNat v d.isLt)[r.toNat]'r.isLt = _
      rw [Vector.getElem_set]
      by_cases h2 : r = d
      · rw [if_pos (by rw [h2]), if_pos ⟨h2, h⟩]
      · rw [if_neg (fun hh => h2 (BitVec.eq_of_toNat_eq hh.symm)), if_neg (fun hh => h2 hh.1)]
        rfl

/-- A bit of a vector after `setBit`. -/
theorem getLsbD_setBit {n : Nat} (v : BitVec n) (i j : Nat) (b : Bool) (h : i < n) :
    (setBit v i b).getLsbD j = if j = i then b else v.getLsbD j := by
  have hp : (BitVec.ofNat n (2 ^ i)).getLsbD j = (decide (j < n) && decide (i = j)) := by
    rw [BitVec.getLsbD_ofNat, Nat.testBit_two_pow]
  have hv : n ≤ j → v.getLsbD j = false := BitVec.getLsbD_of_ge v j
  unfold setBit
  cases b
  · rw [if_neg (by decide), BitVec.getLsbD_and, BitVec.getLsbD_not, hp]
    by_cases hj : j = i
    · rw [hj]; simp [h]
    · have : ¬i = j := fun e => hj e.symm
      by_cases hn : j < n
      · simp only [hj, this, hn, decide_true, decide_false, Bool.and_false, Bool.not_false, Bool.and_true, if_false]
      · simp only [hj, hn, hv (by omega), Bool.false_and, if_false]
  · rw [if_pos rfl, BitVec.getLsbD_or, hp]
    by_cases hj : j = i
    · rw [hj]; simp [h]
    · have : ¬i = j := fun e => hj e.symm
      simp only [hj, this, decide_false, Bool.and_false, Bool.or_false, if_false]

theorem toNat_eq_iff {n : Nat} (x y : BitVec n) : x.toNat = y.toNat ↔ x = y := ⟨BitVec.eq_of_toNat_eq, fun h => by rw [h]⟩

/-- A condition register reads what was written; c0 reads 1 (R11). -/
theorem rdC_setC (c : Ctx) (p q : CReg) (b : Bool) : (c.setC p b).rdC q = if q = p ∧ p ≠ 0 then b else c.rdC q := by
  by_cases h : p = 0
  · rw [if_neg (fun hh => hh.2 h)]
    simp only [Ctx.setC, h, if_true]
  · by_cases hq : q = 0
    · subst hq
      rw [if_neg (fun (hh : 0 = p ∧ p ≠ 0) => h hh.1.symm), rdC_zero, rdC_zero]
    · have hq' : (q == 0) = false := beq_eq_false_iff_ne.mpr hq
      simp only [Ctx.setC, h, if_false, Ctx.rdC, hq', Bool.false_or, getLsbD_setBit _ _ _ _ p.isLt, toNat_eq_iff, ne_eq,
        not_false_eq_true, and_true]

/-- A pending bit after it is set or cleared (R27). -/
theorem pending_setPend (c : Ctx) (d r : SReg) (b : Bool) :
    (c.setPend d b).pending r = if r = d ∧ d ≠ 0 then b else c.pending r := by
  by_cases h : d = 0
  · rw [if_neg (fun hh => hh.2 h)]
    simp only [Ctx.setPend, h, if_true]
  · simp only [Ctx.setPend, h, if_false, Ctx.pending, getLsbD_setBit _ _ _ _ d.isLt, toNat_eq_iff, ne_eq,
      not_false_eq_true, and_true]
    by_cases h2 : r = d
    · have : (r != 0) = true := bne_iff_ne.mpr (h2 ▸ h)
      rw [if_pos h2, if_pos h2, this, Bool.true_and]
    · rw [if_neg h2, if_neg h2]

@[simp] theorem setS_c (c : Ctx) (d : SReg) (v : Word) : (c.setS d v).c = c.c := by unfold Ctx.setS; split <;> rfl
@[simp] theorem setS_pend (c : Ctx) (d : SReg) (v : Word) : (c.setS d v).pend = c.pend := by unfold Ctx.setS; split <;> rfl
@[simp] theorem setS_fixed (c : Ctx) (d : SReg) (v : Word) : (c.setS d v).fixed = c.fixed := by unfold Ctx.setS; split <;> rfl
@[simp] theorem setS_poison (c : Ctx) (d : SReg) (v : Word) : (c.setS d v).poison = c.poison := by unfold Ctx.setS; split <;> rfl
@[simp] theorem setC_s (c : Ctx) (d : CReg) (b : Bool) : (c.setC d b).s = c.s := by unfold Ctx.setC; split <;> rfl
@[simp] theorem setC_pend (c : Ctx) (d : CReg) (b : Bool) : (c.setC d b).pend = c.pend := by unfold Ctx.setC; split <;> rfl
@[simp] theorem setC_fixed (c : Ctx) (d : CReg) (b : Bool) : (c.setC d b).fixed = c.fixed := by unfold Ctx.setC; split <;> rfl
@[simp] theorem setPend_s (c : Ctx) (d : SReg) (b : Bool) : (c.setPend d b).s = c.s := by unfold Ctx.setPend; split <;> rfl
@[simp] theorem setPend_c (c : Ctx) (d : SReg) (b : Bool) : (c.setPend d b).c = c.c := by unfold Ctx.setPend; split <;> rfl
@[simp] theorem setPend_fixed (c : Ctx) (d : SReg) (b : Bool) : (c.setPend d b).fixed = c.fixed := by unfold Ctx.setPend; split <;> rfl

/-- `setS` changes the scalar registers alone. -/
theorem setS_eq (c : Ctx) (d : SReg) (v : Word) : c.setS d v = { c with s := (c.setS d v).s } := by unfold Ctx.setS; split <;> rfl
/-- `setC` changes the condition registers and their poison alone. -/
theorem setC_eq (c : Ctx) (d : CReg) (b : Bool) : c.setC d b = { c with c := (c.setC d b).c, badC := (c.setC d b).badC } := by
  unfold Ctx.setC; split <;> rfl
/-- `setPend` changes the pending bits alone. -/
theorem setPend_eq (c : Ctx) (d : SReg) (b : Bool) : c.setPend d b = { c with pend := (c.setPend d b).pend } := by
  unfold Ctx.setPend; split <;> rfl

end Sys2Proof.Machine
end

