-- ==== Sys2Proof/Laws/Memory.lean ====
section
/-! SUPPORT. The memories: their canonical form, and reading bytes after an operation on them (R4). -/

namespace Sys2Proof.Machine

/-! ## The canonical form -/

/-- The canonical form as a property of the list: addresses strictly rising, no zero listed. -/
theorem Memory.wf_iff (m : List Host.Cell) :
    Memory.wf m = true ↔ m.Pairwise (fun p q => p.1 < q.1) ∧ ∀ p ∈ m, p.2 ≠ 0 := by
  induction m with
  | nil => simp [Memory.wf]
  | cons p t ih =>
    obtain ⟨a, v⟩ := p
    cases t with
    | nil => simp [Memory.wf]
    | cons q r =>
      obtain ⟨b, w⟩ := q
      simp only [Memory.wf, Bool.and_eq_true, bne_iff_ne, decide_eq_true_eq, ih]
      constructor
      · rintro ⟨⟨hv, hab⟩, hp, hz⟩
        refine ⟨List.pairwise_cons.mpr ⟨fun x hx => ?_, hp⟩, fun x hx => ?_⟩
        · rcases List.mem_cons.mp hx with h | h
          · subst h; exact hab
          · exact Nat.lt_trans hab ((List.pairwise_cons.mp hp).1 x h)
        · rcases List.mem_cons.mp hx with h | h
          · subst h; exact hv
          · exact hz x h
      · rintro ⟨hp, hz⟩
        have h := List.pairwise_cons.mp hp
        exact ⟨⟨hz _ (List.mem_cons_self ..), h.1 _ (List.mem_cons_self ..)⟩, h.2, fun x hx => hz x (List.mem_cons_of_mem _ hx)⟩

/-- A part of a canonical memory is canonical. -/
theorem Memory.wf_filter {m : List Host.Cell} (f : Host.Cell → Bool) (h : Memory.wf m = true) : Memory.wf (m.filter f) = true := by
  rw [Memory.wf_iff] at h ⊢
  exact ⟨h.1.filter f, fun p hp => h.2 p (List.mem_filter.mp hp).1⟩

theorem Memory.wf_drop {m : List Host.Cell} (a : Nat) (h : Memory.wf m = true) : Memory.wf (drop a m) = true :=
  Memory.wf_filter _ h

theorem Memory.wf_eraseN {m : List Host.Cell} (a n : Nat) (h : Memory.wf m = true) : Memory.wf (eraseN m a n) = true :=
  Memory.wf_filter _ h

/-- An entry of a table after `put`. -/
theorem mem_put {α : Type} {k : Nat} {v : α} {m : List (Nat × α)} {p : Nat × α} (h : p ∈ put k v m) : p = (k, v) ∨ p ∈ m := by
  induction m with
  | nil => exact .inl (by simpa [put] using h)
  | cons q t ih =>
    obtain ⟨k', v'⟩ := q
    simp only [put] at h
    split at h
    · rcases List.mem_cons.mp h with h | h
      · exact .inl h
      · exact .inr h
    · split at h
      · rcases List.mem_cons.mp h with h | h
        · exact .inl h
        · exact .inr (List.mem_cons_of_mem _ h)
      · rcases List.mem_cons.mp h with h | h
        · exact .inr (h ▸ List.mem_cons_self ..)
        · rcases ih h with h | h
          · exact .inl h
          · exact .inr (List.mem_cons_of_mem _ h)

/-- `put` keeps the keys rising. -/
theorem pairwise_put {α : Type} (k : Nat) (v : α) {m : List (Nat × α)} (h : m.Pairwise fun p q => p.1 < q.1) :
    (put k v m).Pairwise fun p q => p.1 < q.1 := by
  induction m with
  | nil => simp [put]
  | cons q t ih =>
    obtain ⟨k', v'⟩ := q
    have hq := List.pairwise_cons.mp h
    simp only [put]
    split
    · rename_i hk
      refine List.pairwise_cons.mpr ⟨fun p hp => ?_, h⟩
      rcases List.mem_cons.mp hp with hp | hp
      · subst hp; exact hk
      · exact Nat.lt_trans hk (hq.1 p hp)
    · split
      · rename_i hk
        subst hk
        exact List.pairwise_cons.mpr ⟨hq.1, hq.2⟩
      · refine List.pairwise_cons.mpr ⟨fun p hp => ?_, ih hq.2⟩
        rcases mem_put hp with hp | hp
        · subst hp; show k' < k; omega
        · exact hq.1 p hp

theorem Memory.wf_put {m : List Host.Cell} (a : Nat) {v : Byte} (hv : v ≠ 0) (h : Memory.wf m = true) :
    Memory.wf (put a v m) = true := by
  rw [Memory.wf_iff] at h ⊢
  refine ⟨pairwise_put a v h.1, fun p hp => ?_⟩
  rcases mem_put hp with hp | hp
  · subst hp; exact hv
  · exact h.2 p hp

/-- A byte written keeps the canonical form. -/
theorem Memory.wf_writeByte {m : List Host.Cell} (a : Nat) (v : Byte) (h : Memory.wf m = true) :
    Memory.wf (writeByte m a v) = true := by
  unfold writeByte
  split
  · exact Memory.wf_drop a h
  · rename_i hv; exact Memory.wf_put a hv h

/-- Bytes written keep the canonical form. -/
theorem Memory.wf_writeN (n : Nat) : ∀ {m : List Host.Cell} (a v : Nat), Memory.wf m = true → Memory.wf (writeN m a n v) = true := by
  induction n with
  | zero => intro m a v h; exact h
  | succ n ih => intro m a v h; exact ih _ _ (Memory.wf_writeByte _ _ h)

/-! ## Reading what was written -/

/-- A byte reads what was written to it; every other byte reads as before. -/
theorem readByte_writeByte (m : List Host.Cell) (a b : Nat) (v : Byte) :
    readByte (writeByte m a v) b = if b = a then v else readByte m b := by
  unfold readByte writeByte
  split
  · rename_i hv; rw [look_drop, hv]
  · rw [look_put]

/-- Byte b after n bytes of v are written from address a (R4: little-endian). -/
theorem readByte_writeN (n : Nat) : ∀ (m : List Host.Cell) (a v b : Nat),
    readByte (writeN m a n v) b =
      if a ≤ b ∧ b < a + n then BitVec.ofNat 8 (v / 256 ^ (b - a) % 256) else readByte m b := by
  induction n with
  | zero =>
    intro m a v b
    rw [if_neg (by omega)]
    rfl
  | succ n ih =>
    intro m a v b
    rw [writeN, ih, readByte_writeByte]
    by_cases h : a + 1 ≤ b ∧ b < a + 1 + n
    · rw [if_pos h, if_pos (by omega), Nat.div_div_eq_div_mul]
      have : b - a = (b - (a + 1)) + 1 := by omega
      rw [this, pow_succ, Nat.mul_comm]
    · rw [if_neg h]
      by_cases hb : b = a
      · subst hb
        rw [if_pos rfl, if_pos (by omega), Nat.sub_self, pow_zero, Nat.div_one]
      · rw [if_neg hb, if_neg (by omega)]

/-- Bytes outside a range are untouched when the range is erased; bytes inside read 0. -/
theorem readByte_eraseN (m : List Host.Cell) (a n b : Nat) :
    readByte (eraseN m a n) b = if a ≤ b ∧ b < a + n then 0 else readByte m b := by
  unfold readByte eraseN
  induction m with
  | nil => simp [look]
  | cons p t ih =>
    obtain ⟨k, v⟩ := p
    by_cases h : a ≤ k ∧ k < a + n
    · rw [List.filter_cons_of_neg (by simpa using h), ih]
      by_cases hb : a ≤ b ∧ b < a + n
      · rw [if_pos hb, if_pos hb]
      · have : ¬k = b := fun e => hb (e ▸ h)
        rw [if_neg hb, if_neg hb]
        simp only [look, this, if_false]
    · rw [List.filter_cons_of_pos (by simp only [Bool.not_eq_true', Bool.and_eq_false_iff, decide_eq_false_iff_not]; omega)]
      simp only [look, ih]
      by_cases hk : k = b
      · subst hk; rw [if_pos rfl, if_neg h, if_pos rfl]
      · rw [if_neg hk, if_neg hk]

/-- n bytes read are the number whose bytes they are. -/
theorem readN_lt (m : List Host.Cell) (n : Nat) : ∀ a, readN m a n < 256 ^ n := by
  induction n with
  | zero => intro a; simp [readN]
  | succ n ih =>
    intro a
    have h1 := ih (a + 1)
    have h2 : (readByte m a).toNat < 256 := (readByte m a).isLt
    simp only [readN, pow_succ]
    omega

/-- Reading where nothing differs. -/
theorem readN_congr {m m' : List Host.Cell} (n : Nat) :
    ∀ a, (∀ b, a ≤ b → b < a + n → readByte m b = readByte m' b) → readN m a n = readN m' a n := by
  induction n with
  | zero => intro a _; rfl
  | succ n ih =>
    intro a h
    rw [readN, readN, h a (by omega) (by omega), ih (a + 1) fun b h1 h2 => h b (by omega) (by omega)]

/-- n bytes read back as they were written (R4). -/
theorem readN_writeN (n : Nat) : ∀ (m : List Host.Cell) (a v : Nat), readN (writeN m a n v) a n = v % 256 ^ n := by
  induction n with
  | zero => intro m a v; simp [readN, Nat.mod_one]
  | succ n ih =>
    intro m a v
    rw [readN, readByte_writeN, if_pos (by omega), Nat.sub_self, pow_zero, Nat.div_one]
    have : readN (writeN m a (n + 1) v) (a + 1) n = readN (writeN (writeByte m a (BitVec.ofNat 8 (v % 256))) (a + 1) n (v / 256)) (a + 1) n := rfl
    rw [this, ih, BitVec.toNat_ofNat, Nat.pow_succ 256 n, Nat.mul_comm (256 ^ n) 256, Nat.mod_mul]
    omega

/-! ## The operations that write a memory -/

theorem memOk_congr {s t : State} (h1 : t.bankMem = s.bankMem) (h2 : t.hbm = s.hbm) (h3 : t.hostMem = s.hostMem)
    (h : s.memOk) : t.memOk := by
  unfold State.memOk; rw [h1, h2, h3]; exact h

theorem bankWrite_memOk (key n v : Nat) {s : State} (h : s.memOk) : (bankWrite key n v s).memOk :=
  ⟨Memory.wf_writeN n _ _ h.1, h.2⟩

theorem clearBank_memOk (b : Nat) {s : State} (h : s.memOk) : (clearBank b s).memOk := ⟨Memory.wf_eraseN _ _ h.1, h.2⟩

theorem reseal_memOk (key : Option (BitVec 512)) (j : Nat) {s : State} (h : s.memOk) : (reseal key j s).memOk := by
  unfold reseal
  split
  · exact h
  · exact ⟨h.1, Memory.wf_writeN _ _ _ h.2.1, h.2.2⟩

theorem resealAll_memOk (key : Option (BitVec 512)) (l : List Nat) : ∀ {s : State}, s.memOk → (l.foldl (fun s j => reseal key j s) s).memOk := by
  induction l with
  | nil => intro s h; exact h
  | cons j l ih => intro s h; exact ih (reseal_memOk key j h)

theorem frameWrite_memOk (key : Option (BitVec 512)) (a n v : Nat) {s : State} (h : s.memOk) : (frameWrite key a n v s).memOk := by
  unfold frameWrite
  split
  · exact ⟨h.1, Memory.wf_writeN n _ _ h.2.1, h.2.2⟩
  · have := resealAll_memOk key (unitsOf 16 a n) h
    exact ⟨this.1, Memory.wf_writeN n _ _ this.2.1, this.2.2⟩

theorem hbmWrite_memOk (die pa n v : Nat) {s : State} (h : s.memOk) : (hbmWrite die pa n v s).memOk := frameWrite_memOk _ _ _ _ h

theorem hostWrite_memOk (a n v : Nat) {s : State} (h : s.memOk) : State.memOk { s with hostMem := writeN s.hostMem a n v } :=
  ⟨h.1, h.2.1, Memory.wf_writeN n _ _ h.2.2⟩

/-- A bank's byte after a bank write. -/
theorem readByte_bankWrite (key n v a : Nat) (s : State) :
    readByte (bankWrite key n v s).bankMem a =
      if key ≤ a ∧ a < key + n then BitVec.ofNat 8 (v / 256 ^ (a - key) % 256) else readByte s.bankMem a :=
  readByte_writeN n _ _ _ _

/-! ## Sealed frames (R305) -/

/-- Byte i of a block as a key, or none, reads it. -/
def byteAs (s : State) (key : Option (BitVec 512)) (j i : Nat) : Nat := blockAs s key j / 2 ^ (8 * i) % 256

/-- Byte i of n bytes read is that byte. -/
theorem readN_byte (m : List Host.Cell) (n : Nat) : ∀ a i, i < n → readN m a n / 2 ^ (8 * i) % 256 = (readByte m (a + i)).toNat := by
  induction n with
  | zero => intro a i h; omega
  | succ n ih =>
    intro a i h
    have hb : (readByte m a).toNat < 256 := (readByte m a).isLt
    rw [readN]
    cases i with
    | zero =>
      rw [Nat.mul_zero, pow_zero, Nat.div_one, Nat.add_mul_mod_self_left, Nat.mod_eq_of_lt hb, Nat.add_zero]
    | succ i =>
      rw [show 8 * (i + 1) = 8 + 8 * i by ring, pow_add, ← Nat.div_div_eq_div_mul]
      rw [show ((readByte m a).toNat + 256 * readN m (a + 1) n) / 2 ^ 8 = readN m (a + 1) n by omega, ih _ _ (by omega)]
      congr 2
      omega

/-- A block that its own key reads gives the bytes that stand in hbm. -/
theorem byteAs_own {s : State} {key : Option (BitVec 512)} {j i : Nat} (h : find? s.seals j = key) (hi : i < 16) :
    byteAs s key j i = (readByte s.hbm (16 * j + i)).toNat := by
  simp only [byteAs, blockAs, h, if_pos]
  exact readN_byte _ _ _ _ hi

/-- A block that is sealed anew reads the same through its new key, and so does every other block through any key. -/
theorem byteAs_reseal (key key' : Option (BitVec 512)) (j j' i : Nat) (s : State) (h : key' = key ∨ j' ≠ j) (hi : i < 16) :
    byteAs (reseal key j s) key' j' i = byteAs s key' j' i := by
  by_cases hk : find? s.seals j = key
  · simp [reseal, hk]
  · by_cases hj : j' = j
    · obtain rfl : key' = key := h.resolve_right (not_not.mpr hj)
      subst hj
      have hf : find? (reseal key' j' s).seals j' = key' := by
        simp only [reseal, hk, if_false]
        cases key' <;> simp [find?_drop, find?_put]
      have hr : readByte (reseal key' j' s).hbm (16 * j' + i) = BitVec.ofNat 8 (blockAs s key' j' / 256 ^ i % 256) := by
        simp only [reseal, hk, if_false]
        rw [readByte_writeN, if_pos (by omega), Nat.add_sub_cancel_left]
      rw [byteAs_own hf hi, hr, byteAs, BitVec.toNat_ofNat, pow_mul, show (2 : Nat) ^ 8 = 256 by norm_num, Nat.mod_mod]
    · have hf : find? (reseal key j s).seals j' = find? s.seals j' := by
        simp only [reseal, hk, if_false]
        cases key <;> simp [find?_drop, find?_put, hj]
      have hr : readN (reseal key j s).hbm (16 * j') 16 = readN s.hbm (16 * j') 16 := by
        simp only [reseal, hk, if_false]
        exact readN_congr _ _ fun b h1 h2 => by rw [readByte_writeN, if_neg (by omega)]
      simp only [byteAs, blockAs, hf, hr]

/-- A block sealed anew is from then on its new key's. -/
theorem find?_reseal (key : Option (BitVec 512)) (j j' : Nat) (s : State) :
    find? (reseal key j s).seals j' = if j' = j then key else find? s.seals j' := by
  unfold reseal
  split
  · rename_i h
    split
    · rename_i hj; rw [hj, h]
    · rfl
  · cases key <;> simp [find?_drop, find?_put]

theorem find?_resealAll (key : Option (BitVec 512)) (l : List Nat) (j : Nat) : ∀ s : State,
    find? (l.foldl (fun s j => reseal key j s) s).seals j = if j ∈ l then key else find? s.seals j := by
  induction l with
  | nil => intro s; simp
  | cons x l ih =>
    intro s
    rw [List.foldl_cons, ih, find?_reseal]
    by_cases h1 : j ∈ l
    · simp [h1]
    · by_cases h2 : j = x <;> simp [h1, h2]

theorem byteAs_resealAll (key key' : Option (BitVec 512)) (l : List Nat) (j i : Nat) (hi : i < 16) : ∀ s : State, (key' = key ∨ j ∉ l) →
    byteAs (l.foldl (fun s j => reseal key j s) s) key' j i = byteAs s key' j i := by
  induction l with
  | nil => intro s _; rfl
  | cons x l ih =>
    intro s h
    rw [List.foldl_cons, ih _ (h.imp_right fun h => fun hm => h (List.mem_cons_of_mem _ hm)),
      byteAs_reseal _ _ _ _ _ _ (h.imp_right fun h (e : j = x) => h (by simp [e])) hi]

/-- The blocks that n bytes touch. -/
theorem mem_unitsOf (a n j : Nat) (hn : n ≠ 0) : j ∈ unitsOf 16 a n ↔ a / 16 ≤ j ∧ j ≤ (a + n - 1) / 16 := by
  simp only [unitsOf, upTo, List.mem_map, List.mem_range]
  constructor
  · rintro ⟨x, hx, rfl⟩; omega
  · rintro ⟨h1, h2⟩; exact ⟨j - a / 16, by omega, by omega⟩

/-- One byte read is the byte of its block. -/
theorem frameRead_byte (s : State) (key : Option (BitVec 512)) (b : Nat) : frameRead s key b 1 = byteAs s key (b / 16) (b % 16) := by
  unfold frameRead
  split
  · rename_i h
    have hf : find? s.seals (b / 16) = key := by rw [h.1, h.2]; rfl
    rw [byteAs_own hf (Nat.mod_lt _ (by omega)), show 16 * (b / 16) + b % 16 = b by omega]
    simp [readN]
  · simp [upTo, ofBytes, byteAs, List.range_succ]

/-- A block's bytes depend on its cells and its key alone. -/
theorem byteAs_congr {s t : State} (key : Option (BitVec 512)) (j i : Nat) (h1 : find? t.seals j = find? s.seals j)
    (h2 : readN t.hbm (16 * j) 16 = readN s.hbm (16 * j) 16) : byteAs t key j i = byteAs s key j i := by
  simp only [byteAs, blockAs, h1, h2]

/-- A block outside the cells that are written keeps its cells. -/
theorem readN_writeN_away (m : List Host.Cell) (a n v j : Nat) (h : j < a / 16 ∨ (a + n - 1) / 16 < j) :
    readN (writeN m a n v) (16 * j) 16 = readN m (16 * j) 16 :=
  readN_congr _ _ fun c h4 h5 => by rw [readByte_writeN, if_neg (by omega)]

/-- Bytes written into cells of blocks that the key owns: what the key reads of them after. -/
theorem byteAs_written {s t : State} {key : Option (BitVec 512)} {a n v : Nat} (b : Nat) (ht : t.hbm = writeN s.hbm a n v)
    (hs : t.seals = s.seals) (h : n = 0 ∨ b / 16 < a / 16 ∨ (a + n - 1) / 16 < b / 16 ∨ find? s.seals (b / 16) = key) :
    byteAs t key (b / 16) (b % 16) = if a ≤ b ∧ b < a + n then v / 256 ^ (b - a) % 256 else byteAs s key (b / 16) (b % 16) := by
  have hlt : b % 16 < 16 := Nat.mod_lt _ (by omega)
  have hb : 16 * (b / 16) + b % 16 = b := by omega
  rcases h with h | h | h | h
  · subst h
    rw [if_neg (by omega)]
    exact byteAs_congr _ _ _ (by rw [hs]) (by rw [ht]; rfl)
  · rw [if_neg (by omega)]
    exact byteAs_congr _ _ _ (by rw [hs]) (by rw [ht, readN_writeN_away _ _ _ _ _ (.inl h)])
  · rw [if_neg (by omega)]
    exact byteAs_congr _ _ _ (by rw [hs]) (by rw [ht, readN_writeN_away _ _ _ _ _ (.inr h)])
  · rw [byteAs_own (by rw [hs]; exact h) hlt, byteAs_own h hlt, hb, ht, readByte_writeN]
    split
    · rw [BitVec.toNat_ofNat, show (2 : Nat) ^ 8 = 256 by norm_num, Nat.mod_mod]
    · rfl

/-- What a key, or none, reads of a byte after n bytes were written under it: the byte written, else as before. -/
theorem frameRead_frameWrite (key : Option (BitVec 512)) (a n v b : Nat) (s : State) :
    frameRead (frameWrite key a n v s) key b 1 = if a ≤ b ∧ b < a + n then v / 256 ^ (b - a) % 256 else frameRead s key b 1 := by
  rw [frameRead_byte, frameRead_byte]
  unfold frameWrite
  split
  · rename_i hc
    refine byteAs_written b rfl rfl ?_
    rcases hc with h | h
    · right; right; right; rw [h.1, h.2]; rfl
    · exact .inl h
  · rename_i hc
    have hn : n ≠ 0 := fun h => hc (.inr h)
    have h1 := byteAs_resealAll key key (unitsOf 16 a n) (b / 16) (b % 16) (Nat.mod_lt _ (by omega)) s (.inl rfl)
    have h2 := find?_resealAll key (unitsOf 16 a n) (b / 16) s
    generalize (unitsOf 16 a n).foldl (fun s j => reseal key j s) s = u at h1 h2 ⊢
    rw [← h1]
    refine byteAs_written (s := u) b rfl rfl ?_
    by_cases hm : b / 16 ∈ unitsOf 16 a n
    · right; right; right; rw [h2, if_pos hm]
    · rw [mem_unitsOf _ _ _ hn] at hm; omega

/-- What any key, or none, reads of a byte of a block that a write does not touch. -/
theorem frameRead_frameWrite_away (key key' : Option (BitVec 512)) (a n v b : Nat) (s : State)
    (h : b / 16 < a / 16 ∨ (a + n - 1) / 16 < b / 16) : frameRead (frameWrite key a n v s) key' b 1 = frameRead s key' b 1 := by
  rw [frameRead_byte, frameRead_byte]
  unfold frameWrite
  split
  · exact byteAs_congr _ _ _ rfl (readN_writeN_away _ _ _ _ _ h)
  · rename_i hc
    have hn : n ≠ 0 := fun h => hc (.inr h)
    rw [← byteAs_resealAll key key' (unitsOf 16 a n) _ _ (Nat.mod_lt b (by omega : 0 < 16)) s
      (.inr fun hm => by rw [mem_unitsOf _ _ _ hn] at hm; omega)]
    exact byteAs_congr _ _ _ rfl (readN_writeN_away _ _ _ _ _ h)

/-- An unencrypted byte of a die's HBM after an unencrypted write (R305). -/
theorem hbmRead_hbmWrite (die pa n v pa' : Nat) (s : State) :
    hbmRead (hbmWrite die pa n v s) die pa' 1 =
      if pa ≤ pa' ∧ pa' < pa + n then v / 256 ^ (pa' - pa) % 256 else hbmRead s die pa' 1 := by
  unfold hbmRead hbmWrite
  rw [frameRead_frameWrite]
  unfold hkey
  by_cases h : pa ≤ pa' ∧ pa' < pa + n
  · rw [if_pos (by omega), if_pos h]
    congr 3
    omega
  · rw [if_neg (by omega), if_neg h]

/-- The memory right after reset is canonical. -/
theorem reset_memOk : State.reset.memOk := ⟨rfl, rfl, rfl⟩

end Sys2Proof.Machine
end

