-- ==== Sys2Proof/Laws/Ops.lean ====
section
/-! SUPPORT. What each shared operation over the state does: the run of a slot, register writes, counters, landings, parks,
traps, returns and kills; none of them touches a memory. -/

namespace Sys2Proof.Machine

/-! ## The run of a slot -/

/-- An instruction that runs has its effect (R28, R60, R70). -/
theorem runSlot_runs {i : Instr} {s : State} (h : Runs i s) (eff : State → State) : runSlot i eff s = eff s := by
  obtain ⟨hg, hv⟩ := h
  unfold runSlot
  simp only [hg, Bool.not_true, Bool.false_eq_true, if_false]
  rcases hv with hv | hv
  · simp [hv]
  · by_cases h2 : s.view.isSome = true
    · simp [h2]
    · simp [h2, hv]

/-- The meaning of an instruction that runs answers the state its effect leaves. -/
theorem next_runSlot {i : Instr} {s : State} (h : Runs i s) {eff : State → State} {t : State} (e : eff s = t) :
    (Host.Outcome.next (runSlot i eff s) : Out) = .next t := by rw [runSlot_runs h, e]

/-- A false guard does nothing (R70). -/
theorem runSlot_closed {i : Instr} {s : State} (h : guardOpen i (me s) = false) (eff : State → State) : runSlot i eff s = s := by
  simp [runSlot, h]

/-- Everything that a slot run on its own can do. -/
theorem runSlot_cases (i : Instr) (eff : State → State) (s : State) :
    runSlot i eff s = s ∨ runSlot i eff s = eff s ∨ (∃ t, runSlot i eff s = bundleTrap t s.cur s) ∨
    (∃ p, runSlot i eff s = park s.cur p s) ∨ runSlot i eff s = pushClosure i [] none s := by
  unfold runSlot
  split
  · exact .inl rfl
  · split
    · exact .inr (.inl rfl)
    · dsimp only
      split
      · exact .inr (.inr (.inl ⟨_, rfl⟩))
      · exact .inr (.inr (.inr (.inl ⟨_, rfl⟩)))
      · exact .inl rfl
      · split
        · exact .inr (.inr (.inr (.inr rfl)))
        · exact .inr (.inl rfl)

/-! ## Register writes -/

theorem wrS_only (r : SReg) (v : Word) (s : State) : OnlyCtx s.cur s (wrS r v s) := by
  unfold wrS
  split <;> exact OnlyCtx.modCtx _ _ _

theorem wrC_only (r : CReg) (b : Bool) (s : State) : OnlyCtx s.cur s (wrC r b s) := OnlyCtx.modCtx _ _ _

theorem wrFixed_only (n : Nat) (r : SReg) (v : Word) (s : State) : OnlyCtx s.cur s (wrFixed n r v s) := OnlyCtx.modCtx _ _ _

theorem setPending_only (k : Nat) (rs : List SReg) (s : State) : OnlyCtx k s (setPending k rs s) := OnlyCtx.modCtx _ _ _

theorem countEv_only (k i n : Nat) (s : State) : OnlyCtx k s (countEv k i n s) := OnlyCtx.modCtx _ _ _

theorem unpark_only (k : Nat) (s : State) : OnlyCtx k s (unpark k s) := OnlyCtx.modCtx _ _ _

theorem unrun_only (k : Nat) (s : State) : OnlyCtx k s (unrun k s) := OnlyCtx.modCtx _ _ _

theorem returnTrap_only (k : Nat) (s : State) : OnlyCtx k s (returnTrap k s) := OnlyCtx.modCtx _ _ _

theorem setReq_only (k seq : Nat) (f : Req → Option Req) (s : State) : OnlyCtx k s (setReq k seq f s) := OnlyCtx.modCtx _ _ _

/-- Outside a closure a latency-1 write is there at once (R31). -/
theorem wrS_now {d : SReg} {v : Word} {s : State} (h : (s.ctx s.cur).running = none) :
    wrS d v s = s.modCtx s.cur (wrCtx s.cycle d v) := by simp [wrS, h]

/-- A closure's result of latency 1 lands in the next cycle (R236, R240). -/
theorem wrS_closure {d : SReg} {v : Word} {s : State} (h : (s.ctx s.cur).running.isSome = true) : wrS d v s = wrFixed 1 d v s := by
  simp [wrS, h]

/-- What registers read after a latency-1 write outside a closure (R11, R31). -/
theorem wrS_rd (d r : SReg) (v : Word) (s : State) (h : (s.ctx s.cur).running = none) :
    ((wrS d v s).ctx s.cur).rd r = if r = d ∧ d ≠ 0 then v else (s.ctx s.cur).rd r := by
  simp only [wrS_now h, ctx_modCtx_self, wrCtx]
  exact rd_setS _ _ _ _

/-- What condition registers read after a write (R11). -/
theorem wrC_rdC (p q : CReg) (b : Bool) (s : State) :
    ((wrC p b s).ctx s.cur).rdC q = if q = p ∧ p ≠ 0 then b else (s.ctx s.cur).rdC q := by
  simp only [wrC, ctx_modCtx_self]
  exact rdC_setC _ _ _ _

/-- A scalar write leaves the condition registers alone. -/
theorem wrS_rdC (d : SReg) (v : Word) (q : CReg) (s : State) : ((wrS d v s).ctx s.cur).rdC q = (s.ctx s.cur).rdC q := by
  unfold wrS
  split
  · simp only [wrFixed, ctx_modCtx_self]
    split
    · rfl
    · exact rdC_congr (setPend_c _ _ _) _
  · simp only [ctx_modCtx_self, wrCtx]
    exact rdC_congr (setS_c _ _ _) _

/-- A condition write leaves the scalar registers alone. -/
theorem wrC_rd (p : CReg) (b : Bool) (r : SReg) (s : State) : ((wrC p b s).ctx s.cur).rd r = (s.ctx s.cur).rd r := by
  simp only [wrC, ctx_modCtx_self]
  exact rd_congr (setC_s _ _ _) _

/-- A fixed-latency result is queued to land n cycles on; s0 takes none (R62). -/
theorem wrFixed_fixed (n : Nat) (r : SReg) (v : Word) (s : State) :
    ((wrFixed n r v s).ctx s.cur).fixed = if r = 0 then (s.ctx s.cur).fixed
      else (s.ctx s.cur).fixed ++ [{ reg := r, value := v, due := s.cycle + n, pends := (s.ctx s.cur).running.isSome }] := by
  simp only [wrFixed, ctx_modCtx_self]
  split <;> rfl

/-- Registers made pending (R31). -/
theorem setPending_pending (k : Nat) (rs : List SReg) (r : SReg) (s : State) :
    ((setPending k rs s).ctx k).pending r = ((rs.contains r && r != 0) || (s.ctx k).pending r) := by
  simp only [setPending, ctx_modCtx_self]
  generalize s.ctx k = c
  induction rs generalizing c with
  | nil => simp
  | cons d rs ih =>
    rw [List.foldl_cons, ih, pending_setPend]
    by_cases h : r = d
    · subst h
      cases h0 : (r != 0) with
      | false => simp at h0; simp [h0]
      | true =>
        have h1 : r ≠ 0 := by simpa using h0
        rw [if_pos ⟨rfl, h1⟩]
        simp
    · simp [h]

/-! ## Rows, landings, the latent record -/

theorem modRow_only (core key : Nat) (f : Row → Row) (s : State) : OnlyCore core s (modRow core key f s) := OnlyCore.modCore _ _ _

/-- The rows of a core after one is changed. -/
theorem modRow_row (core key j : Nat) (f : Row → Row) (s : State) :
    ((modRow core key f s).core core).row j = if j = key then f ((s.core core).row key) else (s.core core).row j := by
  simp only [modRow, core_modCore_self, CoreSt.row, look_put]

/-- A landing goes to the end of its context's list, with a fresh age. -/
theorem queueLanding_landings (k : Nat) (l : Landing) (s : State) :
    ((queueLanding k l s).ctx k).landings = (s.ctx k).landings ++ [{ l with seq := s.seq }] ∧ (queueLanding k l s).seq = s.seq + 1 ∧
    ∀ j, j ≠ k → (queueLanding k l s).ctx j = s.ctx j := by
  have e : ∀ j, (queueLanding k l s).ctx j =
      (s.modCtx k fun c => { c with landings := c.landings ++ [{ l with seq := s.seq }] }).ctx j := fun _ => rfl
  refine ⟨by rw [e, ctx_modCtx_self], rfl, fun j hj => by rw [e, ctx_modCtx_ne _ _ _ _ hj]⟩

/-- A frozen ring takes no event (R412). -/
theorem latent_frozen {d : Nat} {s : State} (h : (s.die d).frozen = true) (code unit inst : Nat) (a b : Word) : latent d code unit inst a b s = s := by
  simp [latent, h]

/-- The ring after the first event of a cycle: that event, then what stood there (R411). -/
theorem noteEvent_fresh {now : Nat} {x : Die} (h : x.latentAt ≠ now ∨ x.latentNow = 0) (e : Event) :
    (noteEvent now e x).latent = ({ e with seq := x.seq } :: x.latent).take 4096 := by
  have h0 : (if x.latentAt = now then x.latentNow else 0) = 0 := by
    rcases h with h | h <;> simp [h]
  simp [noteEvent, h0, upTo]

/-- An event takes one place of the sequence, and changes the ring alone. -/
theorem noteEvent_only (now : Nat) (e : Event) (x : Die) :
    (noteEvent now e x).seq = x.seq + 1 ∧
    noteEvent now e x = { x with
      latent := (noteEvent now e x).latent, seq := x.seq + 1, latentAt := now, latentNow := (noteEvent now e x).latentNow } :=
  ⟨rfl, rfl⟩

/-- The first event of a cycle enters the ring of its die and nothing else changes (R411). -/
theorem latent_entry {d : Nat} {s : State} (h : (s.die d).frozen = false)
    (hf : (s.die d).latentAt ≠ s.cycle ∨ (s.die d).latentNow = 0) (code unit inst : Nat) (a b : Word) :
    ((latent d code unit inst a b s).die d).latent.head? =
      some ⟨BitVec.ofNat 64 (dial s d), (s.die d).seq, BitVec.ofNat 16 code, BitVec.ofNat 4 unit, BitVec.ofNat 12 inst, a, b⟩ ∧
    latent d code unit inst a b s = { s with dies := (latent d code unit inst a b s).dies } ∧
    ∀ j, j ≠ d → (latent d code unit inst a b s).die j = s.die j := by
  simp only [latent, h, Bool.false_eq_true, if_false]
  refine ⟨?_, rfl, fun j hj => die_modDie_ne _ _ _ _ hj⟩
  rw [die_modDie_self, noteEvent_fresh hf]
  rfl

/-- No event of the latent record changes anything but the dies. -/
theorem latent_eq (d code unit inst : Nat) (a b : Word) (s : State) :
    latent d code unit inst a b s = { s with dies := (latent d code unit inst a b s).dies } := by
  unfold latent
  split <;> rfl

/-! ## Traps -/

/-- A trap while a trap is handled kills the context (R277). -/
theorem takeTrap_handling {k : Nat} {s : State} (t : TrapInfo) (h : (s.ctx k).h = true) : takeTrap t k s = kill t.cause t.sub k s := by
  simp [takeTrap, h]

/-- Any other trap enters the handler (R277). -/
theorem takeTrap_enters {k : Nat} {s : State} (t : TrapInfo) (h : (s.ctx k).h = false) : takeTrap t k s = enterTrap t k s := by
  simp [takeTrap, h]

/-- A bundle's trap is a trap of the context, once what it reports is cleared (R76, R208). -/
theorem bundleTrap_takes (t : TrapInfo) (k : Nat) (s : State) : ∃ u, bundleTrap t k s = takeTrap t k (clearQuarter t k u) :=
  ⟨_, rfl⟩

/-! ## The memories -/

theorem foldl_mem {α : Type} (f : State → α → State)
    (h : ∀ s x, (f s x).bankMem = s.bankMem ∧ (f s x).hbm = s.hbm ∧ (f s x).hostMem = s.hostMem) (l : List α) :
    ∀ s, (l.foldl f s).bankMem = s.bankMem ∧ (l.foldl f s).hbm = s.hbm ∧ (l.foldl f s).hostMem = s.hostMem := by
  induction l with
  | nil => intro s; exact ⟨rfl, rfl, rfl⟩
  | cons x l ih =>
    intro s
    have h1 := ih (f s x)
    have h2 := h s x
    exact ⟨h1.1.trans h2.1, h1.2.1.trans h2.2.1, h1.2.2.trans h2.2.2⟩

@[simp] theorem countEv_mem (k i n : Nat) (s : State) :
    (countEv k i n s).bankMem = s.bankMem ∧ (countEv k i n s).hbm = s.hbm ∧ (countEv k i n s).hostMem = s.hostMem := ⟨rfl, rfl, rfl⟩

@[simp] theorem countFlags_mem (k : Nat) (fl : BitVec 5) (s : State) :
    (countFlags k fl s).bankMem = s.bankMem ∧ (countFlags k fl s).hbm = s.hbm ∧ (countFlags k fl s).hostMem = s.hostMem := foldl_mem _ (fun s i => by split <;> simp) _ s

@[simp] theorem raise_mem (k : Nat) (fl : BitVec 5) (s : State) :
    (raise k fl s).bankMem = s.bankMem ∧ (raise k fl s).hbm = s.hbm ∧ (raise k fl s).hostMem = s.hostMem := by simp [raise]

@[simp] theorem countOps_mem (k n : Nat) (s : State) :
    (countOps k n s).bankMem = s.bankMem ∧ (countOps k n s).hbm = s.hbm ∧ (countOps k n s).hostMem = s.hostMem := by
  unfold countOps
  repeat' split
  all_goals simp

@[simp] theorem countBytes_mem (k n : Nat) (s : State) :
    (countBytes k n s).bankMem = s.bankMem ∧ (countBytes k n s).hbm = s.hbm ∧ (countBytes k n s).hostMem = s.hostMem := by
  unfold countBytes
  repeat' split
  all_goals simp

@[simp] theorem wrS_mem (r : SReg) (v : Word) (s : State) :
    (wrS r v s).bankMem = s.bankMem ∧ (wrS r v s).hbm = s.hbm ∧ (wrS r v s).hostMem = s.hostMem := by
  unfold wrS
  split <;> exact ⟨rfl, rfl, rfl⟩

@[simp] theorem wrC_mem (r : CReg) (b : Bool) (s : State) :
    (wrC r b s).bankMem = s.bankMem ∧ (wrC r b s).hbm = s.hbm ∧ (wrC r b s).hostMem = s.hostMem := ⟨rfl, rfl, rfl⟩

@[simp] theorem wrFixed_mem (n : Nat) (r : SReg) (v : Word) (s : State) :
    (wrFixed n r v s).bankMem = s.bankMem ∧ (wrFixed n r v s).hbm = s.hbm ∧ (wrFixed n r v s).hostMem = s.hostMem := ⟨rfl, rfl, rfl⟩

@[simp] theorem setPending_mem (k : Nat) (rs : List SReg) (s : State) :
    (setPending k rs s).bankMem = s.bankMem ∧ (setPending k rs s).hbm = s.hbm ∧ (setPending k rs s).hostMem = s.hostMem := ⟨rfl, rfl, rfl⟩

@[simp] theorem modRow_mem (core key : Nat) (f : Row → Row) (s : State) :
    (modRow core key f s).bankMem = s.bankMem ∧ (modRow core key f s).hbm = s.hbm ∧ (modRow core key f s).hostMem = s.hostMem := ⟨rfl, rfl, rfl⟩

@[simp] theorem pendRows_mem (core : Nat) (keys : List Nat) (s : State) :
    (pendRows core keys s).bankMem = s.bankMem ∧ (pendRows core keys s).hbm = s.hbm ∧ (pendRows core keys s).hostMem = s.hostMem := foldl_mem _ (fun s i => by simp) _ s

@[simp] theorem queueLanding_mem (k : Nat) (l : Landing) (s : State) :
    (queueLanding k l s).bankMem = s.bankMem ∧ (queueLanding k l s).hbm = s.hbm ∧ (queueLanding k l s).hostMem = s.hostMem := ⟨rfl, rfl, rfl⟩

@[simp] theorem latent_mem (d code unit inst : Nat) (a b : Word) (s : State) :
    (latent d code unit inst a b s).bankMem = s.bankMem ∧ (latent d code unit inst a b s).hbm = s.hbm ∧ (latent d code unit inst a b s).hostMem = s.hostMem := by
  rw [latent_eq]
  exact ⟨rfl, rfl, rfl⟩

@[simp] theorem latentCore_mem (core code : Nat) (a b : Word) (s : State) :
    (latentCore core code a b s).bankMem = s.bankMem ∧ (latentCore core code a b s).hbm = s.hbm ∧ (latentCore core code a b s).hostMem = s.hostMem := by simp [latentCore]

@[simp] theorem msix_mem (d v : Nat) (s : State) :
    (msix d v s).bankMem = s.bankMem ∧ (msix d v s).hbm = s.hbm ∧ (msix d v s).hostMem = s.hostMem := ⟨rfl, rfl, rfl⟩

@[simp] theorem giveUp_mem (k : Nat) (s : State) :
    (giveUp k s).bankMem = s.bankMem ∧ (giveUp k s).hbm = s.hbm ∧ (giveUp k s).hostMem = s.hostMem := by
  unfold giveUp
  repeat' split
  all_goals simp

@[simp] theorem yieldCore_mem (k : Nat) (s : State) :
    (yieldCore k s).bankMem = s.bankMem ∧ (yieldCore k s).hbm = s.hbm ∧ (yieldCore k s).hostMem = s.hostMem := by
  unfold yieldCore
  split <;> simp

@[simp] theorem park_mem (k : Nat) (p : Park) (s : State) :
    (park k p s).bankMem = s.bankMem ∧ (park k p s).hbm = s.hbm ∧ (park k p s).hostMem = s.hostMem := by simp [park]

@[simp] theorem unpark_mem (k : Nat) (s : State) :
    (unpark k s).bankMem = s.bankMem ∧ (unpark k s).hbm = s.hbm ∧ (unpark k s).hostMem = s.hostMem := ⟨rfl, rfl, rfl⟩

@[simp] theorem returnWeight_mem (k : Nat) (n : Int) (s : State) :
    (returnWeight k n s).bankMem = s.bankMem ∧ (returnWeight k n s).hbm = s.hbm ∧ (returnWeight k n s).hostMem = s.hostMem := by
  unfold returnWeight
  repeat' split
  all_goals simp

@[simp] theorem freeQuarter_mem (core : Nat) (s : State) :
    (freeQuarter core s).bankMem = s.bankMem ∧ (freeQuarter core s).hbm = s.hbm ∧ (freeQuarter core s).hostMem = s.hostMem := ⟨rfl, rfl, rfl⟩

@[simp] theorem releaseQuarter_mem (k : Nat) (s : State) :
    (releaseQuarter k s).bankMem = s.bankMem ∧ (releaseQuarter k s).hbm = s.hbm ∧ (releaseQuarter k s).hostMem = s.hostMem := by
  unfold releaseQuarter
  repeat' split
  all_goals simp

@[simp] theorem stopChains_mem (k : Nat) (s : State) :
    (stopChains k s).bankMem = s.bankMem ∧ (stopChains k s).hbm = s.hbm ∧ (stopChains k s).hostMem = s.hostMem := ⟨rfl, rfl, rfl⟩

@[simp] theorem dropMoves_mem (k : Nat) (s : State) :
    (dropMoves k s).bankMem = s.bankMem ∧ (dropMoves k s).hbm = s.hbm ∧ (dropMoves k s).hostMem = s.hostMem := ⟨rfl, rfl, rfl⟩

@[simp] theorem dropFollowers_mem (k : Nat) (s : State) :
    (dropFollowers k s).bankMem = s.bankMem ∧ (dropFollowers k s).hbm = s.hbm ∧ (dropFollowers k s).hostMem = s.hostMem := ⟨rfl, rfl, rfl⟩

@[simp] theorem unrun_mem (k : Nat) (s : State) :
    (unrun k s).bankMem = s.bankMem ∧ (unrun k s).hbm = s.hbm ∧ (unrun k s).hostMem = s.hostMem := ⟨rfl, rfl, rfl⟩

@[simp] theorem unarrive_mem (cell : Nat) (f : Arrival → Bool) (s : State) :
    (unarrive cell f s).bankMem = s.bankMem ∧ (unarrive cell f s).hbm = s.hbm ∧ (unarrive cell f s).hostMem = s.hostMem := by
  unfold unarrive
  dsimp only
  split
  · simp
  · have h := foldl_mem (fun s a => unclaim a s) (fun s a => by unfold unclaim; split <;> simp)
      ((s.cell cell).arrivals.filter f) (s.modCell cell fun x => { x with arrivals := x.arrivals.filter fun a => !f a })
    exact h

@[simp] theorem enterTrap_mem (t : TrapInfo) (k : Nat) (s : State) :
    (enterTrap t k s).bankMem = s.bankMem ∧ (enterTrap t k s).hbm = s.hbm ∧ (enterTrap t k s).hostMem = s.hostMem := by
  unfold enterTrap
  dsimp only
  repeat' split
  all_goals simp

@[simp] theorem markBroken_mem (cell : Nat) (b : BitVec 4) (s : State) :
    (markBroken cell b s).bankMem = s.bankMem ∧ (markBroken cell b s).hbm = s.hbm ∧ (markBroken cell b s).hostMem = s.hostMem := foldl_mem _ (fun s i => by split <;> simp) _ s

@[simp] theorem clearQuarter_mem (t : TrapInfo) (k : Nat) (s : State) :
    (clearQuarter t k s).bankMem = s.bankMem ∧ (clearQuarter t k s).hbm = s.hbm ∧ (clearQuarter t k s).hostMem = s.hostMem := by
  unfold clearQuarter
  split
  · exact ⟨rfl, rfl, rfl⟩
  · simp

/-- What a kill leaves of the memories: HBM and host memory stand, and the banks keep the canonical form, since a registry
that empties rewrites the WMASK of its image (R126, R145). -/
def MemKept (s t : State) : Prop :=
  t.hbm = s.hbm ∧ t.hostMem = s.hostMem ∧ (Memory.wf s.bankMem = true → Memory.wf t.bankMem = true)

theorem MemKept.of {s t : State} (h : t.bankMem = s.bankMem ∧ t.hbm = s.hbm ∧ t.hostMem = s.hostMem) : MemKept s t :=
  ⟨h.2.1, h.2.2, fun w => h.1 ▸ w⟩

theorem MemKept.trans {s t u : State} (h1 : MemKept s t) (h2 : MemKept t u) : MemKept s u :=
  ⟨h2.1.trans h1.1, h2.2.1.trans h1.2.1, fun w => h2.2.2 (h1.2.2 w)⟩

theorem MemKept.memOk {s t : State} (h : MemKept s t) (w : s.memOk) : t.memOk :=
  ⟨h.2.2 w.1, by rw [h.1]; exact w.2.1, by rw [h.2.1]; exact w.2.2⟩

theorem MemKept.foldl {α : Type} {f : State → α → State} (h : ∀ s x, MemKept s (f s x)) (l : List α) : ∀ s, MemKept s (l.foldl f s) := by
  induction l with
  | nil => intro s; exact .of ⟨rfl, rfl, rfl⟩
  | cons x l ih => intro s; exact (h s x).trans (ih _)

theorem syncMask_kept (b : Nat) (s : State) : MemKept s (syncMask b s) := by
  unfold syncMask
  dsimp only
  split
  · exact .of ⟨rfl, rfl, rfl⟩
  · exact ⟨rfl, rfl, fun w => Memory.wf_writeN _ _ _ w⟩

theorem unregister_kept (f : Registered → Bool) (s : State) : MemKept s (unregister f s) := by
  unfold unregister
  refine MemKept.trans (t := { s with dies := s.dies.map fun (p : Nat × Die) => (p.1, { p.2 with waiters := p.2.waiters.filter fun r => !f r }) })
    (.of ⟨rfl, rfl, rfl⟩) (MemKept.foldl (fun s p => ?_) _ _)
  split
  · exact MemKept.trans (.of ⟨rfl, rfl, rfl⟩) (syncMask_kept _ _)
  · exact .of ⟨rfl, rfl, rfl⟩

theorem killBody_kept (cause sub : Byte) (k : Nat) (s : State) : MemKept s (killBody cause sub k s) := by
  unfold killBody
  dsimp only
  refine MemKept.trans (t := releaseQuarter k (unarrive (coreOf k / 4) (arrivedBy k) (returnWeight k (s.ctx k).wgt.toNat s))) (.of (by simp)) ?_
  refine (unregister_kept (·.mine k (s.ctx k)) _).trans (.of ?_)
  split <;> simp

theorem breakGang_kept (fuel : Nat) : ∀ (core : Nat) (s : State), MemKept s (breakGang fuel core s) := by
  induction fuel with
  | zero => intro core s; exact .of ⟨rfl, rfl, rfl⟩
  | succ n ih =>
    intro core s
    unfold breakGang
    dsimp only
    refine MemKept.trans (.of (by simp)) (MemKept.foldl (fun s a => ?_) _ _)
    split
    · split
      · exact (killBody_kept _ _ _ _).trans (ih _ _)
      · exact .of (by simp)
    · exact .of (by simp)

theorem kill_kept (cause sub : Byte) (k : Nat) (s : State) : MemKept s (kill cause sub k s) := by
  unfold kill
  dsimp only
  split
  · exact (killBody_kept _ _ _ _).trans (breakGang_kept _ _ _)
  · exact killBody_kept _ _ _ _

theorem takeTrap_kept (t : TrapInfo) (k : Nat) (s : State) : MemKept s (takeTrap t k s) := by
  unfold takeTrap
  split
  · exact kill_kept _ _ _ _
  · exact .of (by simp)

theorem bundleTrap_kept (t : TrapInfo) (k : Nat) (s : State) : MemKept s (bundleTrap t k s) := by
  unfold bundleTrap
  dsimp only
  split
  · exact MemKept.trans (.of (by simp)) (takeTrap_kept _ _ _)
  · exact MemKept.trans (.of (by simp)) (takeTrap_kept _ _ _)

@[simp] theorem pushClosure_mem (i : Instr) (extra : List Nat) (mate : Option Nat) (s : State) :
    (pushClosure i extra mate s).bankMem = s.bankMem ∧ (pushClosure i extra mate s).hbm = s.hbm ∧
    (pushClosure i extra mate s).hostMem = s.hostMem := ⟨rfl, rfl, rfl⟩

/-- A slot run on its own keeps the memories' canonical form if its effect does. -/
theorem runSlot_memOk {i : Instr} {eff : State → State} {s : State} (he : (eff s).memOk) (h : s.memOk) : (runSlot i eff s).memOk := by
  rcases runSlot_cases i eff s with e | e | ⟨t, e⟩ | ⟨p, e⟩ | e <;> rw [e]
  · exact h
  · exact he
  · exact (bundleTrap_kept _ _ _).memOk h
  · exact memOk_congr (by simp) (by simp) (by simp) h
  · exact memOk_congr (by simp) (by simp) (by simp) h

end Sys2Proof.Machine
end

