-- ==== Sys2Proof/Laws/Slots.lean ====
section
/-! SUPPORT. What the bank frame can do (R294, R298): the slot of a cycle, the request that a bank serves, what serving it
leaves of the bank's turns, and the cycles in which a unit may start (R414). -/

namespace Sys2Proof.Machine

/-! ## The frame -/

/-- The five cases of a cycle (R294). -/
theorem slotAt_cases (n : Nat) :
    (n % 4 = 0 ∧ slotAt n = .own) ∨ (n % 4 = 1 ∧ slotAt n = .wide) ∨ (n % 4 = 2 ∧ slotAt n = .others) ∨
    (n % 4 = 3 ∧ n / 4 % 2 = 0 ∧ slotAt n = .matrix) ∨ (n % 4 = 3 ∧ n / 4 % 2 = 1 ∧ slotAt n = .copy) := by
  have h : n % 4 = 0 ∨ n % 4 = 1 ∨ n % 4 = 2 ∨ n % 4 = 3 := by omega
  have h2 : n / 4 % 2 = 0 ∨ n / 4 % 2 = 1 := by omega
  rcases h with h | h | h | h <;> rcases h2 with h2 | h2 <;> simp [slotAt, h, h2]

/-- The distance of an index from a pointer is below the number of parties (R298). -/
theorem fromPointer_lt (p : Nat × Nat) (i : Nat) (h : 0 < p.2) : fromPointer p i < p.2 := Nat.mod_lt _ h

/-! ## The request that a bank serves -/

/-- A fold that keeps what it holds or takes the next element ends with an element of its list. -/
theorem foldl_takes {α : Type} (f : Option α → α → Option α) (hf : ∀ m a, f m a = m ∨ f m a = some a) (l : List α) :
    ∀ (m : Option α) (x : α), l.foldl f m = some x → m = some x ∨ x ∈ l := by
  induction l with
  | nil => intro m x h; exact .inl h
  | cons a l ih =>
    intro m x h
    rcases ih _ x h with h | h
    · rcases hf m a with e | e <;> rw [e] at h
      · exact .inl h
      · exact .inr (by simp [Option.some.inj h])
    · exact .inr (List.mem_cons_of_mem _ h)

/-- A bank serves one of the requests that are present at it in this cycle. -/
theorem chosenAt_mem {s : State} {b : Nat} {a : Ask} (h : chosenAt s b = some a) : a ∈ asks s ∧ a.bank = b := by
  unfold chosenAt at h
  rcases foldl_takes _ (fun m x => by cases m with | none => exact .inr rfl | some y => by_cases hb : askBefore (s.turn b) x y <;> simp [hb]) _ none a h with h | h
  · cases h
  · simpa using h

/-- A bank that has performed an access in a cycle performs no other in it (R294). -/
theorem chosenAt_once {s : State} {b : Nat} (h : s.cycle < (s.turn b).served) : chosenAt s b = none := by
  cases hc : chosenAt s b with
  | none => rfl
  | some a =>
    obtain ⟨hm, hb⟩ := chosenAt_mem hc
    simp only [asks, List.mem_filter, decide_eq_true_eq] at hm
    rw [hb] at hm
    omega

/-- BANK_ACCESS and CLOSED_REPLAY serve the chosen request, if it is theirs, or change nothing. -/
theorem effBankSlot_cases (replay : Bool) (core bank : Nat) (s : State) :
    effBankSlot replay core bank s = s ∨
    ∃ a, chosenAt s (16 * core + bank % 16) = some a ∧ a.replay = replay ∧
      effBankSlot replay core bank s = serve a (useTurn s a) := by
  unfold effBankSlot
  split
  · exact .inl rfl
  · next a h =>
    split
    · exact .inr ⟨a, h, ‹_›, rfl⟩
    · exact .inl rfl

/-! ## Turns -/

/-- A bank whose slot has been used serves no more in this cycle. -/
@[simp] theorem useTurn_served (s : State) (a : Ask) : ((useTurn s a).turn a.bank).served = s.cycle + 1 := by
  simp only [useTurn, turn_modTurn, if_true]
  split <;> rfl

/-- The turns of other banks stay. -/
theorem useTurn_turn_ne (s : State) (a : Ask) (b : Nat) (h : b ≠ a.bank) : (useTurn s a).turn b = s.turn b := by
  simp [useTurn, turn_modTurn, h]

/-- A slot's use changes the bank's turns alone. -/
theorem useTurn_only (s : State) (a : Ask) : useTurn s a = { s with turns := (useTurn s a).turns } := rfl

/-! ## Starts -/

/-- At duty 256/256 a unit may start in every cycle (R414). -/
theorem mayStart_full {s : State} {pkg cls unit : Nat} (h : dutyOf (s.pkg pkg) cls unit = 256) : mayStart s pkg cls unit = true := by
  simp only [mayStart, h, decide_eq_true_eq]
  exact Nat.mod_lt _ (by decide)

end Sys2Proof.Machine
end

