-- ==== Sys2Proof/Tests/Slice0.lean ====
section
/-! SUPPORT. Tests of the model's own: terms that are refused, words written out from the encoding tables, and for each
statement with hypotheses a state and operands that meet them. -/

namespace Sys2Proof.Tests
open Sys2Proof Sys2Proof.Machine

set_option Elab.async false

/-! ## Illegal operands -/

/-- For each check of `wellFormed`, a term that it refuses (R70, R71, R75 and the entries' own rules). -/
def illFormedA : List Instr := [
  .loop 0 0 1, .loopi 0 0 (.short 1), .ldAcq 1 2 .d true .ctx (.short 0), .aadd 1 2 false .core .relaxed (.short 0),
  .aand 1 2 false .core .relaxed (.short 0), .aor 1 2 false .core .relaxed (.short 0), .axor 1 2 false .core .relaxed (.short 0),
  .amaxs 1 2 false .core .relaxed (.short 0), .amins 1 2 false .core .relaxed (.short 0),
  .amaxu 1 2 false .core .relaxed (.short 0), .aminu 1 2 false .core .relaxed (.short 0), .afadd 1 2 .core .relaxed (.short 0),
  .afmax 1 2 .core .relaxed (.short 0), .afmin 1 2 .core .relaxed (.short 0), .red 1 2 .add true .core .relaxed (.short 0),
  .red 1 2 .add true .core .acq (.short 0), .red 1 2 .fadd false .core .rel (.short 0), .tld 1 2 ⟨3, true⟩ (.short 0),
  .tst 1 2 ⟨3, true⟩ (.short 0), .tstB 1 2 ⟨3, true⟩ (.short 0), .barArrive 1 2 .cell false false, .barArrive 1 0 .cell false true,
  .barSync 1 2 .cell false false, .barSync 1 0 .cell false true, .fork 1 2 0 0, .fork 1 2 3 2, .fork 0 2 0 1, .fork 31 2 0 3,
  .fork 1 31 0 3, .forkTry 1 2 0 0, .chain 0 1 2 .copy 0, .chain 1 2 3 .mat 1, .chainTry 0 1 2 .copy 0, .chainTry 1 2 3 .vec 1,
  .pmovXin 0 1, .pmovWrow 0 0 3, .nred 1 2 3 .cell .sum64, .spill 0 0, .spill 30 1, .fill 0 0, .fill 30 1]

/-- A guard g = 0 with gn = 1. -/
def badGuard : Guard := ⟨0, true⟩

/-- The reserved guard, in every slot B class. -/
def illFormedGuards : List Instr := [
  .add badGuard 1 2 3 false, .sub badGuard 1 2 3 false, .addi badGuard 1 2 3, .mul badGuard 1 2 3 false, .mulh badGuard 1 2 3,
  .mulhU badGuard 1 2 3, .mulhSu badGuard 1 2 3, .div badGuard 1 2 3 false false, .rem badGuard 1 2 3 false false,
  .and_ badGuard 1 2 3, .or_ badGuard 1 2 3, .xor_ badGuard 1 2 3, .andn badGuard 1 2 3, .shl badGuard 1 2 3 false,
  .shlImm badGuard 1 2 3 false, .shr badGuard 1 2 3 false, .shrImm badGuard 1 2 3 false, .sra badGuard 1 2 3 false,
  .sraImm badGuard 1 2 3 false, .rot badGuard 1 2 3 false, .rotImm badGuard 1 2 3 false, .clz badGuard 1 2 false,
  .ctz badGuard 1 2 false, .popc badGuard 1 2 false, .rev badGuard 1 2 false, .min_ badGuard 1 2 3 false,
  .max_ badGuard 1 2 3 false, .minu badGuard 1 2 3 false, .maxu badGuard 1 2 3 false, .cmp badGuard 1 2 3 .eq,
  .sel badGuard 1 2 3 false 1, .ext badGuard 1 2 .sb, .bfx badGuard 1 2 3 false, .bfi badGuard 1 2 3, .lea badGuard 1 2 3 0,
  .cond badGuard 1 2 3 0, .fadd badGuard 1 2 3, .fsub badGuard 1 2 3, .fmul badGuard 1 2 3, .ffma badGuard 1 2 3 4,
  .fmin badGuard 1 2 3, .fmax badGuard 1 2 3, .fcmp badGuard 1 2 3 .eq, .fcvt badGuard 1 2 .i64 .dyn, .fclass badGuard 1 2,
  .mma badGuard 1 2 3, .mzero badGuard, .mdrain badGuard 1 2, .rleave badGuard false]

/-- A guard that is always open. -/
def always : Guard := ⟨0, false⟩

/-- The remaining checks of slot B: amounts, rounding modes, rows and row types. -/
def illFormedB : List Instr := [
  .shlImm always 1 2 32 true, .shrImm always 1 2 32 true, .sraImm always 1 2 32 true, .rotImm always 1 2 32 true,
  .fcvt always 1 2 .fromF16 .rne, .vadd always 1 2 3 ⟨1, true⟩ .f32, .vsub always 1 2 3 ⟨1, true⟩ .f32,
  .vmul always 1 2 3 ⟨1, true⟩ .f32, .vfma always 1 2 3 ⟨1, true⟩ .f32, .vmin always 1 2 3 ⟨1, true⟩ .f32,
  .vmax always 1 2 3 ⟨1, true⟩ .f32, .vabs always 1 2 ⟨1, false⟩ .f32b, .vneg always 1 2 ⟨1, false⟩ .f32b,
  .vnabs always 1 2 ⟨1, false⟩ .f32b, .vlogic always 1 2 3 ⟨1, false⟩ .not, .vshift always 1 2 3 ⟨1, false⟩ .f32,
  .vcmp always 1 2 3 ⟨1, false⟩ false .f32b, .vsel always 1 2 3 ⟨1, false⟩ .bf16b, .vcvt always 1 2 .f32b ⟨1, false⟩ .f32,
  .vpack always 1 2 1 ⟨1, false⟩ 4, .vpack always 1 2 3 ⟨1, false⟩ 1, .vpack always 1 2 3 ⟨1, false⟩ 9,
  .vunpk always 1 2 1 ⟨1, false⟩ 4, .vunpk always 1 2 3 ⟨1, false⟩ 1, .vred always 1 2 .sum ⟨1, false⟩ .f32b,
  .vbcast always 1 2 ⟨1, false⟩ .f32b, .vscale always 1 2 3 ⟨1, false⟩ .i32, .vexp2 always 1 2 ⟨1, false⟩ .i32,
  .vlog2 always 1 2 ⟨1, false⟩ .i32, .vrcp always 1 2 ⟨1, false⟩ .i32, .vrsqrt always 1 2 ⟨1, false⟩ .i32,
  .vperm always 1 2 3 ⟨1, false⟩ .f32b, .vscan always 1 2 .sum ⟨1, false⟩ .f32b, .vsrch always 1 2 3 ⟨1, false⟩ .i8,
  .vmix always 1 2 3 ⟨1, false⟩ .i32, .viota always 1 2 true 0 ⟨1, false⟩ .i32, .viota always 1 2 false 0 ⟨1, false⟩ .f32,
  .tmov always 1 2 ⟨1, true⟩, .tzero always 1 ⟨1, true⟩, .ttrans always 1 2 .f32b, .topk always 1 2 1 0 .g1 .f32,
  .topk always 5 4 1 0 .g2 .f32, .topk always 0 4 5 0 .g2 .f32, .tcolred always 1 2 .sum 0 .f32b, .tfix always 1 2 ⟨1, false⟩ .f32,
  .tbndRd always 1 2 0 .f32, .tbndSet always 1 2 ⟨1, false⟩ .f32]

theorem test_illFormed : (illFormedA ++ illFormedGuards ++ illFormedB).all (fun i => !wellFormed i) = true := by decide

/-! ## Words of every instruction, written out from the encoding tables (R66 to R74 and the classes' own rules) -/

/-- A decoder reads the instruction of a pair from its word. -/
def reads (decoder : Nat → Option Instr) (p : Half × Instr) : Bool := decoder p.1.toNat == some p.2

/-- The slot A decoder of a bundle that is not lone. -/
def slotA (w : Nat) : Option Instr := decodeA w none

def controlWords1 : List (Half × Instr) := [
  (0b0_000_0000000000000000000000000000, .nop),
  (0b0_000_000001_1000000000000000000001, .br (.short 0x200001)),
  (0b0_000_000010_101_1_100000000000000010, .bc 5 true (.short 0x20002)),
  (0b0_000_000011_10001_1_1000000000000010, .bpend 17 (.short 0x8002)),
  (0b0_000_000011_10010_0_0000000000000011, .bnpend 18 (.short 3)),
  (0b0_000_000100_0000000000000000001001, .call (.short 9)),
  (0b0_000_000101_11110_01011_000000000000, .jr 30 11),
  (0b0_000_0001010000000000000000000001, .ret),
  (0b0_000_000110_10_0_100000000001_00_10011, .loop 2 2049 19),
  (0b0_000_000110_01_1_000000000011_1000001, .loopi 1 3 (.short 65)),
  (0b0_000_0001110000000000000000000000, .lbrk),
  (0b0_000_011111_10101_00000000000000000, .rdtime 21),
  (0b0_000_01111100000_10110_000000000001, .waitt 22)]

theorem test_decode_controlWords1 : controlWords1.all (reads slotA) = true := by decide

def controlWords2 : List (Half × Instr) := [
  (0b0_000_100011_00111_0000000_1000001011, .csrr 7 0x20B),
  (0b0_000_100011_00111_10100_01_0100100011, .csrw 7 20 0x123),
  (0b0_000_100011_01001_00011_10_0000000001, .csrs 9 3 1),
  (0b0_000_100011_01001_00011_11_0000000010, .csrc 9 3 2),
  (0b0_000_10010000000_00100_11110_0000000, .trap 4 30),
  (0b0_000_10010000000_00101_10001_0000001, .break_ 5 17),
  (0b0_000_1001000000000000000000000010, .eret),
  (0b0_000_1001000000000000000000000011, .eretU),
  (0b0_000_10010000000_00110_000000000100, .eretTo 6),
  (0b0_000_10010000000_00111_000000000101, .wfi 7),
  (0b0_000_10010000000_01000_01001_0000110, .replay 8 9),
  (0b0_000_10010000000_01010_01011_0000111, .replayFail 10 11),
  (0b0_000_100101_01100_00000_100000000001, .movi 12 (.short 0x801))]

theorem test_decode_controlWords2 : controlWords2.all (reads slotA) = true := by decide

def memoryWords1 : List (Half × Instr) := [
  (0b0_000_001000_00011_10101_110_100000001, .ld 3 21 .d (.short 0x101)),
  (0b0_000_001000_00011_10101_111_10_1_0110_00, .ldAcq 3 21 .w true .die (.short 0)),
  (0b0_000_001001_10010_00101_01_0_000000101, .st 18 5 .h (.short 5)),
  (0b0_000_001001_10010_00101_00_1_1000_00000, .stRel 18 5 .b .sys (.short 0)),
  (0b0_000_001010_01000_01001_00_1000000001, .ldp 8 9 (.short 0x201)),
  (0b0_000_001010_01000_01001_01_0001_000000, .ldpAcq 8 9 .core (.short 0)),
  (0b0_000_001010_01010_01011_10_0000000110, .stp 10 11 (.short 6)),
  (0b0_000_001010_01010_01011_11_0010_000000, .stpRel 10 11 .cell (.short 0)),
  (0b0_000_001011_01100_01101_0_11_11001_1001, .lds 12 13 .d 25 (.short 9)),
  (0b0_000_001011_01100_01101_1_10_00110_0011, .sts 12 13 .w 6 (.short 3)),
  (0b0_000_0100010000000000000000_01_0100, .fence .rel .court),
  (0b0_000_0100100_1001_10001_0_1011_0_100001, .tld 9 17 ⟨11, false⟩ (.short 33)),
  (0b0_000_0100110_1010_10010_1_0000_0_000010, .tst 10 18 ⟨0, true⟩ (.short 2))]

theorem test_decode_memoryWords1 : memoryWords1.all (reads slotA) = true := by decide

def memoryWords2 : List (Half × Instr) := [
  (0b0_000_0100110_1011_10011_0_0101_1_000001, .tstB 11 19 ⟨5, false⟩ (.short 1)),
  (0b0_000_0101000_1100_10100_10101_0000000, .tldx 12 20 21),
  (0b0_000_010101_00011_00100_00000000_1001, .bguiseClear 3 4 9),
  (0b0_000_010101_00101_00110_00000001_1010, .bguiseKeep 5 6 10),
  (0b0_000_010101_00111_01000_00000010_1011, .bguiseConvert 7 8 11),
  (0b0_000_010110_01001_0000000000000_1100, .bdesc 9 12),
  (0b0_000_010110_01010_01011_01100_1000000, .arcade 10 11 12),
  (0b0_000_010110_01101_01110_000001010000, .arcadeDis 13 14),
  (0b0_000_100010_10100_11111000000000_101, .spill 20 5),
  (0b0_000_100010_10101_11111000000001_110, .fill 21 6)]

theorem test_decode_memoryWords2 : memoryWords2.all (reads slotA) = true := by decide

def atomicsWords1 : List (Half × Instr) := [
  (0b0_000_001100_00011_00100_00_1_000000101, .xch 3 4 true (.short 5)),
  (0b0_000_001100_00101_00110_01_0_00111_1000, .xchS 5 6 false 7 (.short 8)),
  (0b0_000_001100_01000_01001_10_1_100000000, .cas 8 9 true (.short 256)),
  (0b0_000_001101_01010_01011_0000_0_1000_011, .aadd 10 11 false .sys .acqrel (.short 0)),
  (0b0_000_001101_01100_01101_0001_1_0001_001, .aand 12 13 true .core .acq (.short 0)),
  (0b0_000_001101_01110_01111_0010_0_0010_010, .aor 14 15 false .cell .rel (.short 0)),
  (0b0_000_001101_10000_10001_0011_1_0000_000, .axor 16 17 true .ctx .relaxed (.short 0)),
  (0b0_000_001101_10010_10011_0100_0_0011_011, .amaxs 18 19 false .bay .acqrel (.short 0)),
  (0b0_000_001101_10100_10101_0101_1_0100_001, .amins 20 21 true .court .acq (.short 0)),
  (0b0_000_001101_10110_10111_0110_0_0101_010, .amaxu 22 23 false .pav .rel (.short 0)),
  (0b0_000_001101_11000_11001_0111_1_0111_011, .aminu 24 25 true .pkg .acqrel (.short 0)),
  (0b0_000_001101_11010_11011_10001_0110_010, .afadd 26 27 .die .rel (.short 0)),
  (0b0_000_001101_11100_11101_10011_0110_001, .afmax 28 29 .die .acq (.short 0))]

theorem test_decode_atomicsWords1 : atomicsWords1.all (reads slotA) = true := by decide

def atomicsWords2 : List (Half × Instr) := [
  (0b0_000_001101_11110_11111_10101_0000_000, .afmin 30 31 .ctx .relaxed (.short 0)),
  (0b0_000_001110_00001_00010_1001_1_1000_010, .red 1 2 .fmax true .sys .rel (.short 0)),
  (0b0_000_001111_00100_00101_0_0111_0000000, .faddt 4 5 .pkg (.short 0)),
  (0b0_000_001111_00110_00111_100000000000, .waitw 6 7 (.short 0)),
  (0b0_000_010000_01000_01001_00_1_000000011, .scld 8 9 true (.short 3)),
  (0b0_000_010000_01010_01011_01_0_000000100, .scst 10 11 false (.short 4)),
  (0b0_000_010000_01100_01101_10_1_000000101, .scx 12 13 true (.short 5))]

theorem test_decode_atomicsWords2 : atomicsWords2.all (reads slotA) = true := by decide

def sharedWords1 : List (Half × Instr) := [
  (0b0_000_010111_00011_00000_00100_011_1_1_00, .barArrive 3 4 .court true true),
  (0b0_000_01011100000_00101_00000_111_0001, .barWait 5 .sys),
  (0b0_000_010111_00110_00000_00000_001_0_0_10, .barSync 6 0 .cell false false),
  (0b0_000_010111000000000000000_010_0011, .barDepart .bay),
  (0b0_000_0110000000000000000000000000, .gang),
  (0b0_000_011001_00111_01000_000000_101_111, .fork 7 8 5 7),
  (0b0_000_011001_01001_01010_000001_000_110, .forkTry 9 10 0 6),
  (0b0_000_011010_01011_00000000000000000, .rendez 11),
  (0b0_000_011011_01100_01101_01110_0_00_110_0, .chain 12 13 14 .copy 6),
  (0b0_000_011011_01111_10000_10001_1_10_000_0, .chainTry 15 16 17 .vec 0),
  (0b0_000_01110000000_00000_0_1_0000_000011, .pmovPsel (.imm (.short 3))),
  (0b0_000_0111000_1001_0000010000100_0110, .pmovXin 9 6),
  (0b0_000_01110000000_10010_0_0_0010_000000, .pmovGain (.reg 18))]

theorem test_decode_sharedWords1 : sharedWords1.all (reads slotA) = true := by decide

def sharedWords2 : List (Half × Instr) := [
  (0b0_000_01110000000_10011_0_0_0011_000000, .pmovXscl (.reg 19)),
  (0b0_000_01110000000_00000_0_1_0100_100001, .pmovWscl (.imm (.short 33))),
  (0b0_000_01110000000_00000_0_1_0101_000100, .pmovYout (.imm (.short 4))),
  (0b0_000_0111000000000000010110000000, .pmovExpose),
  (0b0_000_0111000_1010_10100_10011100_1110, .pmovWrow 10 20 14),
  (0b0_000_0111000000000000011000000000, .pmovWgo),
  (0b0_000_0111000000000000011001000000, .pmovRefix),
  (0b0_000_011100_10101_00000111010000000, .pmovStat 21),
  (0b0_000_011100_10110_10111_001011000000, .pmovCalwWrite 22 23),
  (0b0_000_011100_11000_11001_111011000000, .pmovCalwRead 24 25),
  (0b0_000_011101_11010_00000000000000000, .trayq 26),
  (0b0_000_011101_11011_11100_000000000001, .trayqDep 27 28),
  (0b0_000_011101_11101_00000000000000010, .trayqStop 29)]

theorem test_decode_sharedWords2 : sharedWords2.all (reads slotA) = true := by decide

def sharedWords3 : List (Half × Instr) := [
  (0b0_000_01110100000_11110_000000000011, .trayqLand 30),
  (0b0_000_0111010000000000000000000100, .traydrain),
  (0b0_000_0111100000000000000000000000, .detach),
  (0b0_000_011110000000000000000_100_0001, .attach .pav),
  (0b0_000_01111000000_00110_00000_010_0010, .follow 6 .bay),
  (0b0_000_100000_00111_00000000000000000, .wsplit 7),
  (0b0_000_10000000000_01000_000000000001, .wreturn 8),
  (0b0_000_10000000000_01001_000000000010, .wsplitAdd 9),
  (0b0_000_100001_01010_01011_01100_101_0011, .nred 10 11 12 .die .maxkey),
  (0b0_000_1000010_0011_0_1001_0_1101_110_0100, .nredMergek 3 9 13 .pkg)]

theorem test_decode_sharedWords3 : sharedWords3.all (reads slotA) = true := by decide

def scalarWords1 : List (Half × Instr) := [
  (0b0000000_010_1_10011_01101_00111_00000_1, .add ⟨2, true⟩ 19 13 7 true),
  (0b0000001_010_1_10011_01101_00111_00000_0, .sub ⟨2, true⟩ 19 13 7 false),
  (0b0000010_010_1_01001_01000_10000000001, .addi ⟨2, true⟩ 9 8 0x401),
  (0b0000011_010_1_01010_01011_01100_00000_1, .mul ⟨2, true⟩ 10 11 12 true),
  (0b0000100_010_1_01010_01011_01100_000000, .mulh ⟨2, true⟩ 10 11 12),
  (0b0000100_010_1_01010_01011_01100_000010, .mulhU ⟨2, true⟩ 10 11 12),
  (0b0000100_010_1_01010_01011_01100_000100, .mulhSu ⟨2, true⟩ 10 11 12),
  (0b0000101_010_1_01010_01011_01100_0000_1_0, .div ⟨2, true⟩ 10 11 12 true false),
  (0b0000110_010_1_01010_01011_01100_0000_0_1, .rem ⟨2, true⟩ 10 11 12 false true),
  (0b0000111_010_1_10000_10001_10010_000000, .and_ ⟨2, true⟩ 16 17 18),
  (0b0001000_010_1_10000_10001_10010_000000, .or_ ⟨2, true⟩ 16 17 18),
  (0b0001001_010_1_10000_10001_10010_000000, .xor_ ⟨2, true⟩ 16 17 18),
  (0b0001010_010_1_10000_10001_10010_000000, .andn ⟨2, true⟩ 16 17 18)]

theorem test_decode_scalarWords1 : scalarWords1.all (reads decodeB) = true := by decide

def scalarWords2 : List (Half × Instr) := [
  (0b0001011_010_1_00011_00100_00101_00000_1, .shl ⟨2, true⟩ 3 4 5 true),
  (0b0001011_010_1_00011_00100_00101_1_1_000_0, .shlImm ⟨2, true⟩ 3 4 37 false),
  (0b0001100_010_1_00011_00100_00101_00000_0, .shr ⟨2, true⟩ 3 4 5 false),
  (0b0001100_010_1_00011_00100_00110_1_1_000_0, .shrImm ⟨2, true⟩ 3 4 38 false),
  (0b0001101_010_1_00011_00100_00101_00000_1, .sra ⟨2, true⟩ 3 4 5 true),
  (0b0001101_010_1_00011_00100_00111_1_0_000_1, .sraImm ⟨2, true⟩ 3 4 7 true),
  (0b0001110_010_1_00011_00100_00101_00000_0, .rot ⟨2, true⟩ 3 4 5 false),
  (0b0001110_010_1_00011_00100_11111_1_1_000_0, .rotImm ⟨2, true⟩ 3 4 63 false),
  (0b0001111_010_1_00110_00111_00000000_1_00, .clz ⟨2, true⟩ 6 7 true),
  (0b0001111_010_1_00110_00111_00000000_0_01, .ctz ⟨2, true⟩ 6 7 false),
  (0b0001111_010_1_00110_00111_00000000_1_10, .popc ⟨2, true⟩ 6 7 true),
  (0b0001111_010_1_00110_00111_00000000_0_11, .rev ⟨2, true⟩ 6 7 false),
  (0b0010000_010_1_01000_01001_01010_000_1_00, .min_ ⟨2, true⟩ 8 9 10 true)]

theorem test_decode_scalarWords2 : scalarWords2.all (reads decodeB) = true := by decide

def scalarWords3 : List (Half × Instr) := [
  (0b0010000_010_1_01000_01001_01010_000_0_01, .max_ ⟨2, true⟩ 8 9 10 false),
  (0b0010000_010_1_01000_01001_01010_000_1_10, .minu ⟨2, true⟩ 8 9 10 true),
  (0b0010000_010_1_01000_01001_01010_000_0_11, .maxu ⟨2, true⟩ 8 9 10 false),
  (0b0010001_010_1_00_110_10100_10101_000_101, .cmp ⟨2, true⟩ 6 20 21 .geu),
  (0b0010010_010_1_10110_10111_11000_00_1_101, .sel ⟨2, true⟩ 22 23 24 true 5),
  (0b0010011_010_1_11001_11010_00000000_101, .ext ⟨2, true⟩ 25 26 .zh),
  (0b0010100_010_1_11011_11100_11101_00000_1, .bfx ⟨2, true⟩ 27 28 29 true),
  (0b0010101_010_1_11011_11100_11101_000000, .bfi ⟨2, true⟩ 27 28 29),
  (0b0010110_010_1_01110_11100_01101_000_011, .lea ⟨2, true⟩ 14 28 13 3),
  (0b0010111_010_1_00_001_00_010_00_011_00_1110, .cond ⟨2, true⟩ 1 2 3 14),
  (0b0011000_010_1_00001_00010_00011_000000, .fadd ⟨2, true⟩ 1 2 3),
  (0b0011001_010_1_00001_00010_00011_000000, .fsub ⟨2, true⟩ 1 2 3),
  (0b0011010_010_1_00001_00010_00011_000000, .fmul ⟨2, true⟩ 1 2 3)]

theorem test_decode_scalarWords3 : scalarWords3.all (reads decodeB) = true := by decide

def scalarWords4 : List (Half × Instr) := [
  (0b0011011_010_1_00001_00010_00011_0_00100, .ffma ⟨2, true⟩ 1 2 3 4),
  (0b0011100_010_1_00001_00010_00011_000000, .fmin ⟨2, true⟩ 1 2 3),
  (0b0011100_010_1_00001_00010_00011_000001, .fmax ⟨2, true⟩ 1 2 3),
  (0b0011101_010_1_00_100_00101_00110_0000_10, .fcmp ⟨2, true⟩ 4 5 6 .le),
  (0b0011110_010_1_00111_01000_00110_000_000, .fcvt ⟨2, true⟩ 7 8 .f16 .dyn),
  (0b0011111_010_1_01001_01010_00000000000, .fclass ⟨2, true⟩ 9 10)]

theorem test_decode_scalarWords4 : scalarWords4.all (reads decodeB) = true := by decide

def rowsWords1 : List (Half × Instr) := [
  (0b0100000_010_1_0011_1001_1100_0101_0_1000, .vadd ⟨2, true⟩ 3 9 12 ⟨5, false⟩ .f32b),
  (0b0100001_010_1_0011_1001_1100_0000_1_1001, .vsub ⟨2, true⟩ 3 9 12 ⟨0, true⟩ .bf16b),
  (0b0100010_010_1_0011_1001_1100_0110_0_0001, .vmul ⟨2, true⟩ 3 9 12 ⟨6, false⟩ .bf16),
  (0b0100011_010_1_0011_1001_1100_0110_0_0010, .vfma ⟨2, true⟩ 3 9 12 ⟨6, false⟩ .f16),
  (0b0100100_010_1_0011_1001_1100_0110_0_0011, .vmin ⟨2, true⟩ 3 9 12 ⟨6, false⟩ .i32),
  (0b0100101_010_1_0011_1001_1100_0110_0_0100, .vmax ⟨2, true⟩ 3 9 12 ⟨6, false⟩ .i16),
  (0b0100110_010_1_0011_1001_0000_0110_0_0101, .vabs ⟨2, true⟩ 3 9 ⟨6, false⟩ .i8),
  (0b0100110_010_1_0011_1001_0001_0110_0_0000, .vneg ⟨2, true⟩ 3 9 ⟨6, false⟩ .f32),
  (0b0100110_010_1_0011_1001_0010_0110_0_0001, .vnabs ⟨2, true⟩ 3 9 ⟨6, false⟩ .bf16),
  (0b0100111_010_1_0011_1001_1100_0110_0_0011, .vlogic ⟨2, true⟩ 3 9 12 ⟨6, false⟩ .andn),
  (0b0101000_010_1_0011_1001_1100_0110_0_0111, .vshift ⟨2, true⟩ 3 9 12 ⟨6, false⟩ .u32),
  (0b0101001_010_1_0011_1001_1100_0110_0_1_110, .vcmp ⟨2, true⟩ 3 9 12 ⟨6, false⟩ true .u8),
  (0b0101010_010_1_0011_1001_1100_0110_0_0110, .vsel ⟨2, true⟩ 3 9 12 ⟨6, false⟩ .u8)]

theorem test_decode_rowsWords1 : rowsWords1.all (reads decodeB) = true := by decide

def rowsWords2 : List (Half × Instr) := [
  (0b0101011_010_1_0011_1001_0011_0110_0_0000, .vcvt ⟨2, true⟩ 3 9 .i32 ⟨6, false⟩ .f32),
  (0b0101100_010_1_0011_1001_1100_0110_0_0111, .vpack ⟨2, true⟩ 3 9 12 ⟨6, false⟩ 7),
  (0b0101101_010_1_0011_1001_1100_0110_0_1000, .vunpk ⟨2, true⟩ 3 9 12 ⟨6, false⟩ 8),
  (0b0101110_010_1_0011_1001_0_10_1_0110_0_0011, .vred ⟨2, true⟩ 19 9 .min ⟨6, false⟩ .i32),
  (0b0101111_010_1_0011_1001_000_1_0110_0_0011, .vbcast ⟨2, true⟩ 3 25 ⟨6, false⟩ .i32),
  (0b0110000_010_1_0011_1001_1100_0110_0_1000, .vscale ⟨2, true⟩ 3 9 12 ⟨6, false⟩ .f32b),
  (0b0110001_010_1_0011_1001_0000_0110_0_0000, .vexp2 ⟨2, true⟩ 3 9 ⟨6, false⟩ .f32),
  (0b0110010_010_1_0011_1001_0000_0110_0_0001, .vlog2 ⟨2, true⟩ 3 9 ⟨6, false⟩ .bf16),
  (0b0110011_010_1_0011_1001_0000_0110_0_0010, .vrcp ⟨2, true⟩ 3 9 ⟨6, false⟩ .f16),
  (0b0110011_010_1_0011_1001_0001_0110_0_0000, .vrsqrt ⟨2, true⟩ 3 9 ⟨6, false⟩ .f32),
  (0b0110100_010_1_0011_1001_1100_0110_0_0100, .vperm ⟨2, true⟩ 3 9 12 ⟨6, false⟩ .i16),
  (0b0110101_010_1_0011_1001_00_01_0110_0_0011, .vscan ⟨2, true⟩ 3 9 .xsum ⟨6, false⟩ .i32),
  (0b0110110_010_1_0011_1001_1100_0110_0_0111, .vsrch ⟨2, true⟩ 3 9 12 ⟨6, false⟩ .u32)]

theorem test_decode_rowsWords2 : rowsWords2.all (reads decodeB) = true := by decide

def rowsWords3 : List (Half × Instr) := [
  (0b0110111_010_1_0011_1001_1100_0110_0_0111, .vmix ⟨2, true⟩ 3 9 12 ⟨6, false⟩ .u32),
  (0b0111000_010_1_0011_1001_1_10_1_0110_0_0111, .viota ⟨2, true⟩ 3 25 true 2 ⟨6, false⟩ .u32),
  (0b1000000_010_1_0011_1001_0000_0110_0_0000, .tmov ⟨2, true⟩ 3 9 ⟨6, false⟩),
  (0b1000001_010_1_0011_00000000_0000_1_0000, .tzero ⟨2, true⟩ 3 ⟨0, true⟩),
  (0b1000010_010_1_0011_1001_000000001_0101, .ttrans ⟨2, true⟩ 3 9 .i8),
  (0b1000011_010_1_0000_0100_0001_0011_0_01_10, .topk ⟨2, true⟩ 0 4 1 3 .g2 .u32),
  (0b1000100_010_1_0011_1001_00_10_0110_0_0100, .tcolred ⟨2, true⟩ 3 9 .min 6 .i16),
  (0b1000101_010_1_0011_1001_0000_0110_0_1001, .tfix ⟨2, true⟩ 3 9 ⟨6, false⟩ .bf16b),
  (0b1000110_010_1_0011_1001_000_1_0110_0_1000, .tbndRd ⟨2, true⟩ 19 9 6 .f32b),
  (0b1000110_010_1_0011_1001_001_1_0110_0_1000, .tbndSet ⟨2, true⟩ 3 25 ⟨6, false⟩ .f32b)]

theorem test_decode_rowsWords3 : rowsWords3.all (reads decodeB) = true := by decide

def jointWords : List (Half × Instr) := [
  (0b1010000_010_1_10001_10010_10100_000000, .mma ⟨2, true⟩ 17 18 20),
  (0b1010001_010_1_000000000000000000000, .mzero ⟨2, true⟩),
  (0b1010010_010_1_10101_10110_00000000000, .mdrain ⟨2, true⟩ 21 22),
  (0b1010011_010_1_00000000000000000000_1, .rleave ⟨2, true⟩ true),
  (0b11111110000000000000000000000000, .nopB)]

theorem test_decode_jointWords : jointWords.all (reads decodeB) = true := by decide

/-! ## States of the tests -/

/-- Context 0 alone, with a record. -/
def one (c : Ctx) : State := { State.reset with
  ctxs := [(0, c)] }

/-- Context 0 of core 0 is inside a bundle that runs, at supervisor level, with all 16 tiles. -/
def inside : State := { one { status := .running, mode := 0x40, tcount := 16 } with
  view := some { status := .running, mode := 0x40, tcount := 16 } }

/-- A context that handles no trap and runs no closure. -/
def plainCtx : Ctx := { status := .running }

/-- The instructions of the words above. -/
def slotInstrs : List Instr :=
  (controlWords1 ++ controlWords2 ++ memoryWords1 ++ memoryWords2 ++ atomicsWords1 ++ atomicsWords2 ++ sharedWords1 ++
    sharedWords2 ++ sharedWords3 ++ scalarWords1 ++ scalarWords2 ++ scalarWords3 ++ scalarWords4 ++ rowsWords1 ++ rowsWords2 ++
    rowsWords3 ++ jointWords).map (·.2)

/-- Every slot instruction runs somewhere: the hypothesis `Runs` of the statements. -/
theorem test_runs_each : ∀ i ∈ slotInstrs, Runs i inside := fun i h =>
  ⟨List.all_eq_true.mp (by decide : slotInstrs.all (fun i => guardOpen i (me inside)) = true) i h, .inl rfl⟩

/-- A bundle of its own issues from a context with nothing in flight. -/
theorem test_runs_bundle : Runs (.add always 1 2 3 false) (one plainCtx) := ⟨by decide, .inr (by decide)⟩

theorem test_slotInstrs_count : slotInstrs.length = 191 := by decide +kernel

/-! ## Witnesses: scalar instructions, registers -/

theorem test_shift_amount : (true = true → (31 : BitVec 6).toNat < 32) ∧ (false = true → (63 : BitVec 6).toNat < 32) := by decide

theorem test_rounding : fp32 ∈ [fp32, fp16, bf16] ∧ 0 < 3 ∧ (round fp32 .rne false true 3 (-160)).fl &&& flOF = 0 := by decide +kernel

/-- A result in flight, due in cycle n. -/
def inFlight (r : SReg) (n : Nat) : Fixed := { reg := r, value := 5, due := n, pends := false }

/-- The same with poison. -/
def badFlight : Fixed := { inFlight 3 0 with
  bad := some ⟨0x13, 0⟩ }

theorem test_fixedResults :
    ((one { fixed := [inFlight 3 0] }).ctx 0).fixed = [inFlight 3 0] ∧ (inFlight 3 0).due ≤ (one {}).cycle ∧
    (inFlight 3 0).pends = false ∧ (inFlight 3 0).of = none ∧ (inFlight 3 0).bad = none ∧
    (badFlight.bad = some ⟨0x13, 0⟩ ∧ badFlight.reg ≠ 0 ∧ badFlight.due ≤ (one {}).cycle) ∧ ((one { fixed := [inFlight 3 0, inFlight 4 0] }).ctx 0).fixed = [inFlight 3 0, inFlight 4 0] ∧
    (∀ f ∈ ((one { fixed := [inFlight 3 1] }).ctx 0).fixed, (one {}).cycle < f.due) := by decide

theorem test_falseGuard : Machine.guardOf (.add ⟨1, false⟩ 1 2 3 false) = some ⟨1, false⟩ ∧
    ((me (one {})).rdC 1 ^^ false) = false := by decide

theorem test_quiet : Quiet ((one plainCtx).ctx 0) := ⟨rfl, rfl, rfl, rfl, rfl, rfl, rfl, rfl, rfl, rfl, rfl⟩

theorem test_scalarKinds : fixedScalar (.fadd always 1 2 3) = true ∧ lateScalar (.div always 1 2 3 true true) = true ∧
    guardOpen (.fadd always 1 2 3) ((one plainCtx).ctx 0) = true ∧ (fixedScalar (.fadd ⟨2, true⟩ 1 2 3) = true ∧
    Runs (.fadd ⟨2, true⟩ 1 2 3) inside) ∧ (lateScalar (.mul ⟨2, true⟩ 10 11 12 true) = true ∧ Runs (.mul ⟨2, true⟩ 10 11 12 true) inside) :=
  ⟨rfl, rfl, rfl, ⟨rfl, by decide, .inl rfl⟩, ⟨rfl, by decide, .inl rfl⟩⟩

/-! ## Witnesses: loops, traps, control registers -/

/-- A context with one loop level open, whose end bundle is at 0x1038. -/
def inLoop (pc : Word) (n : Word) (taken : Bool) : Ctx := { plainCtx with
  pc := pc, taken := taken, lsa := #v[0x1000, 0, 0, 0], lea := #v[0x1038, 0, 0, 0], lct := #v[n, 0, 0, 0] }

theorem test_loopDepths : loopDepth ((one {}).ctx 0) = 0 ∧ ((one (inLoop 0x1038 2 true)).ctx 0).taken = true ∧
    (loopDepth ((one (inLoop 0x1030 2 false)).ctx 0) = 0 + 1 ∧ ((one (inLoop 0x1030 2 false)).ctx 0).taken = false ∧
      aligned ((one (inLoop 0x1030 2 false)).ctx 0).pc ≠ aligned (vget ((one (inLoop 0x1030 2 false)).ctx 0).lea 0)) ∧
    (loopDepth ((one (inLoop 0x1038 1 false)).ctx 0) = 0 + 1 ∧
      aligned ((one (inLoop 0x1038 1 false)).ctx 0).pc = aligned (vget ((one (inLoop 0x1038 1 false)).ctx 0).lea 0)) ∧
    loopDepth { plainCtx with
      lct := #v[1, 2, 3, 4] } = 4 := by decide

/-- A pass of the loop of R109's example: c1 = 0 takes the next pass. -/
theorem test_loopPass :
    let s := one (inLoop 0x1038 2 false)
    let t := loopPass 0 (s.ctx 0) .nop s
    (t.ctx 0).npc = 0x1000 ∧ vget (t.ctx 0).lct 0 = 1 ∧ writesCount (.csrw 0 1 0x28) 0 = true ∧ writesCount (.csrs 0 0 0x28) 0 = false := by decide

/-- A closure of the tray: an addition. -/
def aClosure : Closure := {
  instr := .add always 1 2 3 false, pc := 0x40, age := 0, s := Vector.replicate 32 0, c := 0, frm := 0, ftz := false
  byName := [], behind := [], faulted := false, readyAt := none }

/-- A launch record with one member, context 0 of core 0. -/
def aLaunch : Launch :=
  { w := Vector.replicate 32 0, addr := 0, pkg := 0, queue := 0, tenant := 0, asid := 0, prio := 0, age := 0, phase := .started,
    members := [0], cores := [0], released := [], exited := 0, killed := 0, killCause := none, failure := none, outstanding := 5,
    phaseEnded := false, returns := [], phaseWrite := .issued, phaseOwed := false, ops := 0, bytes := 0, cls := none,
    classed := false, startedAt := 0, saved := none, stopping := false, io := .issued }

/-- Launch 1 has context 0, with a record. -/
def launched (c : Ctx) : State := { one { c with
    launch := some 1 } with
  launches := [(1, aLaunch)] }

theorem test_trapEntry : ((one plainCtx).ctx 0).h = false ∧ ((one plainCtx).ctx 0).running = none ∧
    (((one { plainCtx with
      running := some aClosure }).ctx 0).h = false ∧ ((one { plainCtx with
      running := some aClosure }).ctx 0).running = some aClosure) ∧
    (((launched { plainCtx with
      h := true }).ctx 0).h = true ∧ ((launched { plainCtx with
      h := true }).ctx 0).launch = some 1 ∧ find? (launched { plainCtx with
      h := true }).launches 1 = some aLaunch ∧ departs 0 (launched { plainCtx with
      h := true }) = false) ∧
    (({ plainCtx with
      status := .parked, park := .gang } : Ctx).h = false ∧ ({ plainCtx with
      running := some aClosure, exiting := true } : Ctx).exiting = true) ∧
    allRegistered (launched { plainCtx with
      h := true }) = [] := by decide

/-- A context whose bundle ends in a trap. -/
def ending : Ctx := { plainCtx with
  after := some ⟨0x20, 3, 9, none⟩ }

theorem test_trapAtTheEnd : ((one ending).ctx 0).after = some ⟨0x20, 3, 9, none⟩ ∧ ((one ending).ctx 0).status = .running ∧
    ((one ending).ctx 0).h = false ∧ ((one ending).ctx 0).running = none := by decide

/-- A trap handler inside a bundle. -/
def handling (cause : Byte) (utvec : Word) : State := { one { status := .running, mode := 0x40, h := true, xcause := cause, utvec := utvec } with
  view := some { status := .running, mode := 0x40, h := true, xcause := cause, utvec := utvec } }

theorem test_trapReturns : Runs .eret (handling 0x20 0) ∧ ((handling 0x20 0).ctx 0).xcause ≠ 0x0F ∧
    Runs .eret (handling 0x0F 0) ∧ ((handling 0x0F 0).ctx 0).xcause = 0x0F ∧ Runs .eretU (handling 0x20 0x800) ∧
    ((handling 0x20 0x800).ctx 0).utvec ≠ 0 ∧ Runs .eretU (handling 0x20 0) ∧ ((handling 0x20 0).ctx 0).utvec = 0 ∧
    Runs (.eretTo 3) (handling 0x20 0) ∧ ((one plainCtx).ctx 0).h = false :=
  ⟨⟨rfl, .inl rfl⟩, by decide, ⟨rfl, .inl rfl⟩, rfl, ⟨rfl, .inl rfl⟩, by decide, ⟨rfl, .inl rfl⟩, rfl, ⟨rfl, .inl rfl⟩, rfl⟩

theorem test_privilege : plainCtx.mode.getLsbD 6 = false ∧ csrAcc 0x200 = some .s ∧ csrAcc 0x109 = some .ur ∧ csrAcc 0x124 = some .ur ∧
    ¬ ({ mode := 0x40 } : Ctx).mode.getLsbD 6 = false ∧ (0 : Nat) % 8 ≠ 4 := by decide

theorem test_illegalPattern : decode 1 0 = .error (.word0 1) ∧ ((one plainCtx).ctx 0).status = .running ∧
    (quarterOf (one plainCtx) (coreOf 0)).fail = none := by decide

theorem test_csrs : (0x123 : Nat) ∈ [0x000, 0x001, 0x002, 0x003, 0x004, 0x008, 0x00F, 0x010, 0x01F, 0x020, 0x024, 0x02B, 0x02C, 0x109,
    0x10A, 0x10B, 0x10C, 0x120, 0x121, 0x122, 0x123, 0x124, 0x200] ∧ 3 % 8 < 4 ∧ 0x109 ≠ 0x123 ∧ csrAcc 0x109 ≠ none := by decide

/-! ## Witnesses: memory -/

theorem test_atomicWords : (4 = 4 ∨ 4 = 8) ∧ 2 ^ 32 - 1 < 2 ^ (8 * 4) ∧ (unpack fp32 false 0x7FC00000).isNan = true := by decide

theorem test_tiles : tileOf inside 0 (me inside) (15 : TReg).toNat = some 15 ∧ tileOf inside 0 (me inside) (0 : TReg).toNat = some 0 := by decide

/-- Inside a bundle, with s31 in a carve-out of 64 bytes at an address of the own banks. -/
def stacked (s31 : Word) : State := { inside with
  view := some { status := .running, mode := 0x40, s := (Vector.replicate 32 0).set 31 s31, spbase := 0xFC00000000001000, spsize := 64,
                 spovf := 0x2000 } }

/-- A stack's registers lie inside one bank of the carve-out: SPILL's below s31, FILL's from s31 on. -/
def insideStack (c : Ctx) (lo : Word) (m : Nat) : Bool :=
  isLocal lo && c.spbase.toNat ≤ lo.toNat && lo.toNat + 8 * m ≤ c.spbase.toNat + c.spsize.toNat && lo.toNat / 8192 == (lo.toNat + 8 * m - 1) / 8192

theorem test_stack :
    insideStack (me (stacked 0xFC00000000001040)) ((me (stacked 0xFC00000000001040)).rd 31 - 64) 8 = true ∧
    insideStack (me (stacked 0xFC00000000001000)) ((me (stacked 0xFC00000000001000)).rd 31) 8 = true ∧
    Runs (.spill 1 7) (stacked 0xFC00000000001040) ∧ Runs (.fill 1 7) (stacked 0xFC00000000001000) :=
  ⟨by decide, by decide, ⟨rfl, .inl rfl⟩, ⟨rfl, .inl rfl⟩⟩

/-- A slot at each edge: the carve-out's last byte, its first overflow slot, 2^18 below, and one further. -/
theorem test_stackSlots :
    let c := me (stacked 0)
    slotOf c (c.spbase + 63) = .ok (c.spbase + 63) ∧ slotOf c (c.spbase - 8) = .ok (c.spovf - 8) ∧
    slotOf c (c.spbase - 0x40000) = .ok (c.spovf - 0x40000) ∧ slotOf c (c.spbase - 0x40008) = .error 1 ∧
    slotOf c (c.spbase + 64) = .error 2 := by decide

/-- A bank's own address: the last 8 bytes of bank 15 of core 0. -/
def ownAddr : Word := 0xFC0000000001FFF8

theorem test_ownBank : isLocal ownAddr = true ∧ windowCore 0 ownAddr = 0 ∧ 8 ∈ [1, 2, 4, 8] ∧ ownAddr.toNat % 8 = 0 ∧
    (inside.bank (localKey 0 ownAddr / 8192)).desc = 0 ∧ (inside.bank (localKey 0 ownAddr / 8192 - 1)).desc = 0 ∧
    (inside.bank (localKey 0 ownAddr / 8192)).closing = none ∧ inside.bankPoison = [] := by decide

/-- A load of 8 bytes at an address. -/
def loadAt (a : Word) (sc : Bool) : MemOp := {
  ea := a, n := 8, acc := .read 8, dest := .reg 3 8 true, align := 8, ord := { sc := sc } }

theorem test_remote : (one plainCtx).view = none ∧ fixedLoad (one plainCtx) 0 (loadAt 0x1000 false) = false ∧
    fixedLoad (one plainCtx) 0 (loadAt ownAddr false) = true ∧ (3 : SReg) ≠ 0 ∧ (3 : SReg) ∈ destNames (loadAt 0x1000 false).dest ∧
    (∀ key, (loadAt ownAddr false).dest ≠ .row key) :=
  ⟨rfl, by decide, by decide, by decide, by decide, fun _ => nofun⟩

/-- A load at 0x10 of die 0 beside NOP, in a context with nothing in flight, waits for nothing and traps on nothing. -/
theorem test_accessIssues :
    let s := one plainCtx
    let c := s.ctx 0
    let i : Instr := .ld 3 0 .d (.short 16)
    memForm i = true ∧ staticTrap s 0 c i = none ∧ spillTrap c i = none ∧ pitchTrap c i = none ∧
    accessTrap s (coreOf 0) (memOps s 0 c i) = none ∧ typeCheck s 0 c i = none ∧ waitsOperand s 0 c i = false ∧
    (∀ key ∈ keysOf s 0 c (infoIn c i).rsrc ++ keysOf s 0 c (infoIn c i).rdst, ((s.core (coreOf 0)).row key).pend = 0 ∧
      ((s.core (coreOf 0)).row key).poison = none) ∧ holds s 0 c i = false := by decide

theorem test_accessChecks :
    let s := State.reset
    (wf 0x8000000000000000 63 57 ≠ 0 ∧ wf 0x8000000000000000 63 57 ≠ 0x7E) ∧
    (wf (BitVec.ofNat 64 (2 ^ 49)) 63 57 = 0 ∧ 4 * s.domain ≤ wf (BitVec.ofNat 64 (2 ^ 49)) 56 47) ∧
    (wf 0x1001 63 57 = 0 ∧ wf 0x1001 56 47 < 4 * s.domain ∧ (loadAt 0x1001 false).ord.sc = false ∧ (loadAt 0x1001 false).ea.toNat % 8 ≠ 0) ∧
    ((loadAt 0x1000 true).ord.sc = true ∧ wf 0x1000 56 47 / 4 ≠ 4096 / 4096) ∧
    (wf 0x7FFFFFFFFFFC 63 57 = 0 ∧ (0x7FFFFFFFFFFC : Word).toNat % 4 = 0 ∧ 2 ^ 47 < wf 0x7FFFFFFFFFFC 46 0 + 8) ∧
    wf 0x7FFFFFFFFFF8 46 0 + 8 ≤ 2 ^ 47 := by decide

/-! ## Witnesses: encodings, the step -/

theorem test_roundTripHypotheses : slotA? .gang = some true ∧ slotA? (.mma always 1 2 3) = some false ∧ wellFormed .gang = true ∧
    wellFormed (.mma always 1 2 3) = true ∧ literal .gang = none ∧ isMma (.mma always 1 2 3) = true ∧
    wellFormed (.movi 6 (.lone 0x12345678)) = true ∧ literal (.movi 6 (.lone 0x12345678)) = some 0x12345678 ∧
    decode 0 0xFE000000 = .ok ⟨0, none, .nop, .nopB⟩ := by decide

/-- The machine with a bundle of zeros loaded for context 0 of core 0. -/
def loadedNop : State := State.reset.withFetchWord 32 0

/-- It is about to serve that context. -/
def served : State := useSlot (coreOf 0) (select 0 { loadedNop with sched := [] })

theorem test_stepHypotheses : firstEvent (dueEvents loadedNop) loadedNop = none ∧ loadedNop.sched = .turn 0 :: [] ∧
    ((select 0 { loadedNop with sched := [] }).ctx 0).backlog = [] ∧ (Instr.nop ≠ .gang) ∧ slotFree { loadedNop with sched := [] } (coreOf 0) = true ∧
    pick { loadedNop with sched := [] } (coreOf 0) = some 0 ∧ ((select 0 { loadedNop with sched := [] }).ctx 0).running = none ∧
    readyClosure (select 0 { loadedNop with sched := [] }) 0 = none ∧ bundleDue (select 0 { loadedNop with sched := [] }) 0 = true ∧
    inFirmware served 0 = false ∧ (served.ctx 0).redo = none ∧
    (match (fetch 0 { served with cur := 0 }).1 with | .words a b => a == 0 && b == 0 | _ => false) = true ∧
    decode 0 0 = .ok ⟨0, none, .nop, .add always 0 0 0 false⟩ ∧
    judge .nop (.add always 0 0 0 false) { (fetch 0 { served with cur := 0 }).2 with cur := 0 } 0 = .issue false false ∧
    teamOf { (fetch 0 { served with cur := 0 }).2 with cur := 0 } 0 = [] := by decide +kernel

/-- Context 0 parked at a barrier phase that its partner, context 8, has not reached, past its CWAIT of 2 ns. -/
def stuck : State := { State.reset with
  ctxs := [(0, { status := .parked, park := .barPhase .bay 0, launch := some 1, bars := vset (Vector.replicate 8 {}) 2 { arrived := 1 } }),
           (8, { launch := some 1 })]
  cycle := 6, pkgs := [(0, {})], launches := [(1, { aLaunch with members := [0, 8], cores := [0, 1], w := vset (Vector.replicate 32 0) 22 2 })] }

theorem test_stepOrder : ({ State.reset with sched := [.event (.governorTick 0 ⟨0, []⟩)] } : State).sched = .event (.governorTick 0 ⟨0, []⟩) :: [] ∧
    firstEvent (dueEvents { State.reset with sched := [.event (.governorTick 0 ⟨0, []⟩)] }) { State.reset with sched := [.event (.governorTick 0 ⟨0, []⟩)] } = none ∧
    slotA? (.governorTick 0 ⟨0, []⟩) = none ∧ (firstEvent (dueEvents (one { fixed := [inFlight 3 0] })) (one { fixed := [inFlight 3 0] })).isSome = true ∧
    firstEvent (dueEvents (one { landings := [{ Landing.empty with regs := [(3, 7)] }] })) (one { landings := [{ Landing.empty with regs := [(3, 7)] }] }) = none ∧
    (firstEvent (autoEvents (one { landings := [{ Landing.empty with regs := [(3, 7)] }] })) (one { landings := [{ Landing.empty with regs := [(3, 7)] }] })).isSome = true ∧
    firstEvent (dueEvents (one plainCtx)) (one plainCtx) = none ∧
    firstEvent (autoEvents (one plainCtx)) (one plainCtx) = none ∧ issuer (one plainCtx) = some 0 ∧
    firstEvent (dueEvents State.reset) State.reset = none ∧ firstEvent (autoEvents State.reset) State.reset = none ∧ issuer State.reset = none ∧
    firstEvent (lateEvents State.reset) State.reset = none ∧ pick State.reset 0 = none ∧
    firstEvent (dueEvents { State.reset with sched := [.pass] }) { State.reset with sched := [.pass] } = none := by decide +kernel

theorem test_lateEvents : firstEvent (dueEvents stuck) stuck = none ∧ stuck.sched = [] ∧ firstEvent (autoEvents stuck) stuck = none ∧
    issuer stuck = none ∧ (firstEvent (lateEvents stuck) stuck).isSome = true := by decide +kernel

theorem test_memoryHypotheses : State.reset.memOk ∧ (match step State.reset with | .next t => t.cycle == 1 | _ => false) = true :=
  ⟨⟨rfl, rfl, rfl⟩, by decide +kernel⟩

theorem test_stepRuns : (match step loadedNop with | .next t => (t.ctx 0).pc == 0x100008 | _ => false) = true := by decide +kernel

/-! ## Witnesses: landings and accesses -/

/-- A value on its way to register r. -/
def valueTo (r : SReg) (n : Nat) : Landing := { Landing.empty with due := n, regs := [(r, 7)] }

/-- A row on its way. -/
def rowTo (key : Nat) : Landing := { Landing.empty with rows := [(key, {})] }

theorem test_landings :
    (((one { landings := [valueTo 3 0] }).ctx 0).landings[0]? = some (valueTo 3 0) ∧ (valueTo 3 0).due ≤ (one {}).cycle ∧ (3 : SReg) ≠ 0 ∧
      valueTo 3 0 = { Landing.empty with seq := (valueTo 3 0).seq, due := (valueTo 3 0).due, regs := [(3, 7)], firm := (valueTo 3 0).firm, waitw := (valueTo 3 0).waitw }) ∧
    (((one { landings := [rowTo 255] }).ctx 0).landings[0]? = some (rowTo 255) ∧ (rowTo 255).due ≤ (one {}).cycle ∧
      rowTo 255 = { Landing.empty with seq := (rowTo 255).seq, due := (rowTo 255).due, rows := [(255, {})], firm := (rowTo 255).firm }) ∧
    (((one { landings := [valueTo 3 1] }).ctx 0).landings[0]? = some (valueTo 3 1) ∧ (one {}).cycle < (valueTo 3 1).due) ∧
    (let a : Ack := { flags := 1, fail := some ⟨7, 1, 9, none⟩ }
     ((one { acks := [a] }).ctx 0).acks = a :: [] ∧ a.due ≤ (one {}).cycle ∧ ((one { acks := [a] }).ctx 0).failure = none ∧ a.fail ≠ none) ∧
    (∀ a ∈ ((one { acks := [{ flags := 1, fail := none, due := 1 }] }).ctx 0).acks, (one {}).cycle < a.due) := by decide +kernel

theorem test_notWaiting : ∀ t, ((one {}).ctx 0).park ≠ .wfi t := fun _ h => by cases h

/-- Every memory instruction asks for its accesses where it runs. -/
theorem test_memForm : memForm (.ld 3 0 .d (.short 16)) = true ∧ (one plainCtx).view = none ∧ Runs (.ld 3 0 .d (.short 16)) (one plainCtx) :=
  ⟨rfl, rfl, by decide, .inr (by decide +kernel)⟩

/-- A request of context 0, issued in cycle 0. -/
def request (acc : Access) (a : Word) (d : Dest) (st : ReqState) (due : Nat) : Req :=
  { seq := 1, acc := acc, addr := a, dest := d, ord := {}, user := false, pc := 0, plain := true, metClosed := false, due := due, state := st }

/-- A read of the last 8 bytes of bank 15 of core 0. -/
def bankRead8 : Req := request (.read 8) ownAddr (.reg 3 8 true) .issued 1

/-- A write of the same bytes, and an atomic addition there. -/
def bankWrite8 : Req := request (.write 8 77) ownAddr .none .issued 1
def bankAdd8 : Req := request (.rmw 8 (.red .add 5)) ownAddr (.reg 3 8 true) .issued 1

/-- Context 0 of core 0 in a slot-0 cycle, with a request. -/
def inSlot0 (c : Ctx) : State := { one c with
  cycle := 4 }

theorem test_serves : ∀ r ∈ [bankRead8, bankWrite8, bankAdd8], Serves (inSlot0 { reqs := [r] }) 0 0 15 r .own false := by
  have h : ∀ r ∈ [bankRead8, bankWrite8, bankAdd8],
      chosenAt (inSlot0 { reqs := [r] }) 15 = some ⟨15, .own, 0, 0, 0, 1, false, .ctx 0 1 0⟩ ∧
      ((inSlot0 { reqs := [r] }).ctx 0).reqs.find? (fun x => x.seq = r.seq) = some r ∧ r.addr = ownAddr ∧ r.acc.bytes = 8 ∧ r.did = 0 ∧ r.seq = 1 ∧
      oddOfPair (inSlot0 { reqs := [r] }) (16 * 0 + 15) = false := by
    decide +kernel
  intro r hr
  obtain ⟨h1, h2, h3, h4, h5, h6, h7⟩ := h r hr
  refine ⟨by rw [h3]; decide, by decide, by rw [h3]; decide, by rw [h3, h4]; decide, h5, ⟨_, h1, by rw [h6], rfl, rfl⟩, h2, rfl, rfl, rfl, rfl, h7, rfl⟩

theorem test_servedFixed :
    let f : Fixed := { reg := 3, value := 0, due := 4, pends := false, of := some 1 }
    let s := inSlot0 { reqs := [bankRead8], fixed := [f] }
    chosenAt s 15 = some ⟨15, .own, 0, 0, 0, 1, false, .ctx 0 1 0⟩ ∧ (∃ f ∈ (s.ctx 0).fixed, f.of = some bankRead8.seq) ∧ (s.ctx 0).portWait = none ∧
    (∀ f ∈ ((inSlot0 { reqs := [bankWrite8] }).ctx 0).fixed, f.of ≠ some bankWrite8.seq) := by decide +kernel

/-- A WAITW there, for a threshold and a deadline. -/
def bankWaitw (thr deadline : Word) : Req := request (.waitw thr deadline) ownAddr (.reg 3 8 true) .issued 1

/-- Its bank with some waiters. -/
def waitedOn (thr deadline : Word) (n : Nat) : State := { inSlot0 { reqs := [bankWaitw thr deadline] } with
  banks := [(15, { waiters := List.replicate n ⟨.queue 0, 0, 0, 0, false⟩ })] }

/-- The word is 0: at the threshold, past the deadline, a full registry, and a registration. -/
theorem test_waitwAnswers :
    (∀ p ∈ [((0 : Word), (0 : Word), 0), (1, 1, 0), (1, 0, 16), (1, 0, 15)],
      chosenAt (waitedOn p.1 p.2.1 p.2.2) 15 = some ⟨15, .own, 0, 0, 0, 1, false, .ctx 0 1 0⟩ ∧ ((waitedOn p.1 p.2.1 p.2.2).bank 15).closing = none) ∧
    (0 : Word).toInt ≤ (BitVec.ofNat 64 (readN (waitedOn 0 0 0).bankMem (localKey 0 ownAddr) 8)).toInt ∧ (1 : Word).toNat ≤ dialOf (waitedOn 1 1 0) 0 ∧
    ((waitedOn 1 0 16).bank 15).waiters.length = 16 ∧ ((waitedOn 1 0 15).bank 15).waiters.length = 15 := by decide +kernel

/-- The loaded machine, its context with a request. -/
def loadedWith (r : Req) : State := { loadedNop.modCtx 0 fun c => { c with reqs := [r] } with sched := [] }

/-- A read, a write and an addition at the last 8 bytes of a page of code memory, and a read that no page maps. -/
def globalRead8 : Req := request (.read 8) 0x100FF8 (.reg 3 8 true) .issued 0
def globalWrite8 : Req := request (.write 8 77) 0x100FF8 .none .issued 0
def globalAdd8 : Req := request (.rmw 8 (.red .add 5)) 0x100FF8 (.reg 3 8 true) .issued 0
def faultingRead8 : Req := request (.read 8) 0x40000000 (.reg 3 8 true) .issued 0

theorem test_globalAccess :
    (∀ r ∈ [globalRead8, globalWrite8, globalAdd8], let s := loadedWith r
      (s.ctx 0).reqs[0]? = some r ∧ isLocal r.addr = false ∧ mayPerform s 0 r = true ∧ r.tile = none ∧ r.state = .issued ∧
      r.addr.toNat % 4096 + r.acc.bytes ≤ 4096 ∧ noPath s (coreOf 0) (vaDie r.addr) = false ∧ s.pathless = [] ∧ s.hbmPoison = [] ∧
      (match translate s (agentOf s 0 r.user) r.addr r.acc.kind with
        | .ok (.hbm d pa, e) => d == 0 && pa == 0x100FF8 && !pteCnt e.leaf | _ => false) = true) ∧
    globalRead8.dest ≠ .none ∧ globalWrite8.dest = .none := by decide +kernel

theorem test_globalFault :
    let s := loadedWith faultingRead8
    (s.ctx 0).reqs[0]? = some faultingRead8 ∧ mayPerform s 0 faultingRead8 = true ∧ faultingRead8.tile = none ∧ s.pathless = [] ∧
    (match translate s (agentOf s 0 false) faultingRead8.addr kindRead with | .error x => x == 1 | _ => false) = true ∧
    (recordFault (agentOf s 0 false) faultingRead8.addr kindRead 1 s).1 = 0 := by decide +kernel

theorem test_notFailed : (∀ t, globalRead8.state ≠ .failed t) ∧ (∀ t, faultingRead8.state ≠ .failed t) ∧
    (∀ d m, globalRead8.dest ≠ .regs d m) ∧ ∀ d m, bankWrite8.dest ≠ .regs d m :=
  ⟨(fun _ h => by cases h), (fun _ h => by cases h), (fun _ _ h => by cases h), (fun _ _ h => by cases h)⟩
/-- Bank 15 of core 0 under a change that has not ended, in a slot-0 cycle. -/
def changing (r : Req) : State := { inSlot0 { reqs := [r] } with
  banks := [(15, { closing := some (.guise 0 4 0x40 0 4 false none) })] }

/-- A read that met CLOSED, and one of a status form. -/
def replayRead : Req := request (.read 8) ownAddr (.reg 3 8 true) .closed 1
def statusRead : Req := { request (.read 8) ownAddr (.status 4 (some (3, 8))) .issued 1 with
  plain := false }

theorem test_closedReplays :
    (∀ r ∈ [bankRead8, replayRead, statusRead], let s := changing r
      chosenAt s 15 = some ⟨15, .own, 0, 0, 0, 1, r.state == .closed, .ctx 0 1 0⟩ ∧ (s.bank 15).closing = some (.guise 0 4 0x40 0 4 false none) ∧
      (s.ctx 0).reqs.find? (fun y => y.seq = r.seq) = some r) ∧
    chosenAt (changing bankRead8) 14 = none ∧ (∀ a, chosenAt (changing bankRead8) 15 = some a → a.replay ≠ true) :=
  ⟨by decide +kernel, by decide +kernel, fun a h => by
    rw [show chosenAt (changing bankRead8) 15 = some ⟨15, .own, 0, 0, 0, 1, false, .ctx 0 1 0⟩ by decide +kernel] at h
    cases h; decide⟩

theorem test_notStatus : (∀ d v, replayRead.dest ≠ .status d v) ∧ (∀ d n, replayRead.dest ≠ .regs d n) ∧ (∀ m w, replayRead.acc ≠ .guise m w) ∧
    ∀ d n, statusRead.dest ≠ .regs d n :=
  ⟨fun _ _ => nofun, fun _ _ => nofun, fun _ _ => nofun, fun _ _ => nofun⟩

/-- Context 0 with a read of die 1, which has failed, in a given cycle. -/
def pathless (cycle : Nat) : State := { one { reqs := [request (.read 8) (BitVec.ofNat 64 (2 ^ 47)) (.reg 3 8 true) .issued 0] } with
  dies := [(1, { failed := true })], cycle := cycle }

theorem test_noPath :
    noPath (pathless 5999999) (coreOf 0) (vaDie (BitVec.ofNat 64 (2 ^ 47))) = true ∧ isLocal (BitVec.ofNat 64 (2 ^ 47)) = false ∧
    (pathless 5999999).cycle < 0 + 6000000 ∧ noPath (pathless 6000000) (coreOf 0) (vaDie (BitVec.ofNat 64 (2 ^ 47))) = true ∧
    0 + 6000000 ≤ (pathless 6000000).cycle := by decide +kernel

/-- Package 0 with two announcements, of windows 2 and 3. -/
def announced (cycle : Nat) : State := { State.reset with
  cycle := cycle, announces := [{ core := 0, ctx := 0, seq := 1, window := 2, delivered := false }, { core := 1, ctx := 8, seq := 2, window := 3, delivered := false }] }

theorem test_windows : (∃ a ∈ (announced 96).announces, pkgOf a.core = 0 ∧ a.delivered = false ∧ a.window = 2) ∧ 16 * 2 + 64 ≤ (announced 96).cycle ∧
    (∀ a ∈ (announced 96).announces, pkgOf a.core = 0 → a.delivered = false → 2 ≤ a.window) ∧
    (∀ a ∈ (announced 95).announces, pkgOf a.core = 0 → a.delivered = false → (announced 95).cycle < 16 * a.window + 64) := by decide +kernel

/-! ## Witnesses: waits, teams, exits -/

/-- A member of launch 1, at its exit. -/
def exiting (tray : List Closure) : State := launched { status := .parked, park := .exit, exiting := true, tray := tray, wgt := 9 }

theorem test_exits : ((exiting []).ctx 0).exiting = true ∧ ((exiting []).ctx 0).status = .parked ∧ ((exiting []).ctx 0).failure = none ∧
    ((exiting []).ctx 0).launch = some 1 ∧ find? (exiting []).launches 1 = some aLaunch ∧ departs 0 (exiting []) = false ∧
    exitReady (exiting []) 0 = true ∧ allRegistered (exiting []) = [] ∧ inTeam (exiting []) 0 = false ∧ inTeam (one { leader := some 8 }) 0 = true ∧ exitReady (exiting [aClosure]) 0 = false ∧ departs 0 (exiting [aClosure]) = false := by decide +kernel

theorem test_dialInstructions : Runs (.rdtime 3) inside ∧ (3 : SReg) ≠ 0 ∧ Runs (.waitt 4) inside ∧ Runs (.wfi 4) inside ∧ Runs (.wfi 0) inside :=
  ⟨⟨rfl, .inl rfl⟩, by decide, ⟨rfl, .inl rfl⟩, ⟨rfl, .inl rfl⟩, ⟨rfl, .inl rfl⟩⟩

/-- Context 0 of core 0, which has joined a team of the bay and waits for the leader, context 8. -/
def joining (done : Nat) : State := { State.reset with
  ctxs := [(0, { status := .parked, park := .team .bay 0 8, launch := some 1, bars := Vector.replicate 8 { arrived := 1 } }),
           (8, { status := .running, launch := some 1, pc := 0x400 })]
  launches := [(1, { aLaunch with members := [0, 8], cores := [0, 1] })], barriers := [⟨1, .bay, 0, done⟩] }

theorem test_teams : markOf inside inside.cur (inside.ctx inside.cur) .bay = none ∧ (me inside).bar .bay = (inside.ctx inside.cur).bar .bay ∧
    Runs (.follow 3 .bay) inside ∧ Runs (.attach .bay) inside ∧ Runs .detach inside ∧ departs inside.cur inside = false ∧
    (let s := joining 1
     (s.ctx 0).status = .parked ∧ (s.ctx 0).park = .team .bay 0 8 ∧ 0 < doneFor s 0 .bay ∧ (s.ctx 8).left = .no ∧ (s.ctx 8).status ≠ .idle ∧
     (s.ctx 8).launch = (s.ctx 0).launch ∧ 8 ≠ 0) :=
  ⟨by decide, by decide, ⟨rfl, .inl rfl⟩, ⟨rfl, .inl rfl⟩, ⟨rfl, .inl rfl⟩, by decide, by decide +kernel⟩

/-- A chain of context 0. -/
def aChain : Chain :=
  { owner := 0, user := false, seq := 5, head := 0x1000, next := 0x1000, entry := none, item := 0, piece := 0, counters := Vector.replicate 4 0,
    attr := none, active := none, admitted := none, meetings := 0, tok := 7, tok2 := 8, fork := none, items := 0, stale := 0, entryItems := 0,
    entryStale := 0, wait := .ready, ending := none, cancel := false }

/-- A WAITW of context 0, registered at die 0. -/
def aWaitw : Req := request (.waitw 1 1) 0x1000 (.reg 3 8 true) .registered 0

/-- Die 0 with that registration, whose deadline has come. -/
def overdue : State := { one { reqs := [aWaitw] } with
  cycle := 30, dies := [(0, { waiters := [⟨.ctx 0 1, 0x1000, 1, 1, false⟩] })] }

theorem test_deadlines :
    ((one { status := .parked, park := .waitt 5 }).ctx 0).park = .waitt 5 ∧ ((one { status := .parked, park := .wfi 5 }).ctx 0).park = .wfi 5 ∧
    (let s : State := { State.reset with queues := [(0, { chains := [{ aChain with wait := .waitt 1 }] })] }
     (s.queue 0).chains = { aChain with wait := .waitt 1 } :: [] ∧ dialOf s 0 < (1 : Word).toNat) ∧
    (⟨.ctx 0 1, 0x1000, 1, 1, false⟩ : Registered) ∈ allRegistered overdue ∧ (1 : Word) ≠ 0 ∧ (1 : Word).toNat ≤ dialOf overdue 0 ∧
    (overdue.ctx 0).reqs.find? (fun x => x.seq = 1) = some aWaitw ∧ allRegistered overdue = [⟨.ctx 0 1, 0x1000, 1, 1, false⟩] := by decide +kernel

/-- A member of launch 1 parked on a phase of the bay in cycle n, with CWAIT 2 ns. -/
def atBarrier (n : Nat) : State := { launched { status := .parked, park := .barPhase .bay 0, bars := Vector.replicate 8 { arrived := 1 } } with
  cycle := n, launches := [(1, { aLaunch with w := vset (Vector.replicate 32 0) 22 2 })] }

theorem test_collectiveTimeouts : ((atBarrier 6).ctx 0).park = .barPhase .bay 0 ∧ ((atBarrier 6).ctx 0).running = none ∧
    cwaitOf (atBarrier 6) 0 ≠ 0 ∧ ((atBarrier 6).ctx 0).parkAt + cwaitOf (atBarrier 6) 0 ≤ dialOf (atBarrier 6) 0 ∧ ¬ 0 < doneFor (atBarrier 6) 0 .bay ∧
    dialOf (atBarrier 5) 0 < ((atBarrier 5).ctx 0).parkAt + cwaitOf (atBarrier 5) 0 ∧
    cwaitOf (launched { status := .parked, park := .barPhase .bay 0 }) 0 = 0 := by decide +kernel

/-! ## Witnesses: the tray, banks -/

/-- Inside a bundle of the handler of a closure's trap. -/
def repairing (cl : Closure) : State := { one { status := .running, mode := 0x40, h := true, xcause := 0x0F, tray := [cl] } with
  view := some { status := .running, mode := 0x40, h := true, xcause := 0x0F, tray := [cl] } }

theorem test_tray :
    (let s := repairing { aClosure with faulted := true }
     (me s).tray.find? (·.faulted) = some { aClosure with faulted := true } ∧ ({ aClosure with faulted := true } : Closure).info.dst = [1] ∧
     Runs (.trayqLand 4) s) ∧
    (let cl : Closure := { aClosure with faulted := true, instr := .st 1 2 .w (.short 0) }
     (me (repairing cl)).tray.find? (·.faulted) = some cl ∧ cl.info.dst = []) ∧
    readyClosure (one {}) 0 = none ∧ readyClosure (one { tray := [aClosure] }) 0 = some aClosure :=
  ⟨⟨by decide +kernel, by decide +kernel, rfl, .inl rfl⟩, by decide +kernel, by decide +kernel, by decide +kernel⟩

/-- A BGUISE of context 0 in its slot at bank 9 of core 0, whose descriptor is `old`; a BDESC there. -/
def guising (mode : GuiseMode) (new old : Word) : State := { inSlot0 { reqs := [request (.guise mode new) (bankBase 9) (.reg 4 8 true) .issued 1] } with
  banks := [(9, { desc := old })] }
def describing (c : Ctx) : State := inSlot0 { c with
  reqs := [request .desc (bankBase 9) (.reg 4 8 true) .issued 1] }

theorem test_guise : Runs (.bguiseClear 3 4 9) inside ∧ Runs (.bguiseKeep 3 4 9) inside ∧ Runs (.bguiseConvert 3 4 9) inside ∧ Runs (.bdesc 3 9) inside :=
  ⟨⟨rfl, .inl rfl⟩, ⟨rfl, .inl rfl⟩, ⟨rfl, .inl rfl⟩, ⟨rfl, .inl rfl⟩⟩

theorem test_guiseSlot :
    (∀ mode ∈ [GuiseMode.clear, .keep, .convert], let s := guising mode 0 0
      chosenAt s 9 = some ⟨9, .own, 0, 0, 0, 1, false, .ctx 0 1 0⟩ ∧ (s.bank 9).closing = none ∧ (s.bank 9).waiters = [] ∧ inArcade s 9 = false ∧
      kindOf (descOf s 9) = 0 ∧ localKey 0 (bankBase 9) = 8192 * 9) ∧
    kindOf (0x8001 : Word) ≠ 6 ∧ keepOk (guising .keep 0 0) 9 0 = true ∧ keepOk (guising .keep 1 0) 9 1 = false ∧
    chosenAt (guising .keep 1 0) 9 = some ⟨9, .own, 0, 0, 0, 1, false, .ctx 0 1 0⟩ ∧
    chosenAt (describing {}) 9 = some ⟨9, .own, 0, 0, 0, 1, false, .ctx 0 1 0⟩ ∧ (∀ f ∈ ((describing {}).ctx 0).fixed, f.of ≠ some 1) ∧
    portLead inside 9 = false ∧ portLead { inside with banks := [(9, { desc := 0x4000000001 })] } 9 = true := by decide +kernel

/-- Bank 9 of core 0 at the end of a BGUISE by context 0. -/
def guised (bad : Bool) (cycle : Nat) : State := { one plainCtx with
  cycle := cycle, banks := [(9, { closing := some (.guise 0 4 0x40 0 4 bad none) })] }

theorem test_guiseEnds : ((guised false 3).bank (16 * 0 + 9)).closing = some (.guise 0 4 0x40 0 4 false none) ∧ (guised false 3).cycle < 4 ∧
    4 ≤ (guised true 4).cycle ∧ ((guised true 4).ctx 0).h = false ∧ ((guised true 4).ctx 0).running = none ∧ ((guised true 4).ctx 0).status ≠ .idle ∧
    (inside.bank (16 * coreOf inside.cur + 9)).closing = none := by decide +kernel

/-- Core 0 with an arcade operation of context 0. -/
def composing (cycle : Nat) : State := { one plainCtx with
  cycle := cycle, arcades := [{ ctx := 0, d := 4, code := 0, named := [1, 2], due := 8 }] }

theorem test_arcades : (composing 8).arcades.find? (fun x => x.ctx = 0) = some { ctx := 0, d := 4, code := 0, named := [1, 2], due := 8 } ∧
    (composing 7).cycle < 8 ∧ 8 ≤ (composing 8).cycle ∧ aroleOf (descOf inside (bankAt (coreOf 0) (rdS inside 4))) ≠ 1 ∧
    aroleOf (descOf { inside with banks := [(0, { desc := 0x4000000000 })] } (bankAt (coreOf 0) (rdS inside 4))) = 1 := by decide +kernel

theorem test_notWaitingPlain : ∀ t, (plainCtx).park ≠ .wfi t := fun _ h => by cases h

/-! ## Witnesses: plates -/

/-- Core 0 with a port queue and a trigger. -/
def plateUnit (ports : List PortMove) (trigger : Option (Trigger × Nat)) (cycle : Nat) : State := { one plainCtx with
  cycle := cycle, cores := [(0, { ports := ports, trigger := trigger })] }

theorem test_portMoves : ((plateUnit [⟨0, .gain 3⟩] none 0).core 0).trigger = none ∧
    ((plateUnit [⟨0, .gain 3⟩] none 0).core 0).ports = ⟨0, .gain 3⟩ :: [] ∧ (.gain 3 : PortOp) ≠ .expose ∧ (.wgo : PortOp) ≠ .expose ∧
    portReady { plateUnit [⟨0, .wgo⟩] none 240 with pkgs := [(0, { duty := [(0, 240)] })] } 0 = false ∧
    portReady (plateUnit [⟨0, .gain 3⟩] none 0) 0 = true ∧ portReady (plateUnit [⟨0, .wgo⟩] none 0) 0 = true ∧
    portReady (plateUnit [⟨0, .gain 3⟩] (some (.refix 1, 9)) 0) 0 = false := by decide +kernel

/-- An EXPOSE of context 0 waits for a reference pass of plate 0, whose last reading is a second old. -/
def waitingPass : State := { one { status := .parked, park := .expose, tcount := 16, plateCount := 4, latches := { yout := 0x10 } } with
  cycle := 3000000000, cores := [(0, {})] }

theorem test_referencePass : (waitingPass.core 0).trigger = none ∧ wantsPass waitingPass 0 = some 0 := by decide +kernel

theorem test_triggersDue : ((plateUnit [⟨0, .expose⟩] (some (.expose 0 0 {}, 49)) 48).cycle < 49 ∧
    ((plateUnit [⟨0, .expose⟩] (some (.expose 0 0 {}, 49)) 49).core 0).trigger = some (.expose 0 0 {}, 49)) ∧
    49 ≤ (plateUnit [⟨0, .expose⟩] (some (.expose 0 0 {}, 49)) 49).cycle ∧
    ((plateUnit [⟨0, .wgo⟩] (some (.wgo 0 255 7, 6000)) 6000).core 0).trigger = some (.wgo 0 255 7, 6000) ∧
    ((plateUnit [⟨0, .refix⟩] (some (.refix 0, 120000)) 120000).core 0).trigger = some (.refix 0, 120000) ∧
    ((plateUnit [] (some (.reference 0, 48)) 48).core 0).trigger = some (.reference 0, 48) := by decide +kernel

/-- A plate whose reference columns have level 31 in row 0, and latches with 127 there: no column qualifies at gain 10. -/
def levelled : Plate := { cal := (List.range 8).map fun k => (134 + 32 * k, 31) }

theorem test_qualified : qualified levelled { gain := 10, xin := 127 } = [] ∧ qualified {} {} ≠ [] ∧ (scaleProduct {}).1 = 0 := by
  decide +kernel

theorem test_calibration : (∀ k, k < 2 → (levelled.word (134 + 32 * k)) = 31) ∧ ({} : Plate).calWritten = false := by decide +kernel

/-! ## Witnesses: barriers, collectives, weight -/

theorem test_barrierIssue : markOf inside inside.cur (inside.ctx inside.cur) .sys = none ∧ markOf inside inside.cur (me inside) .sys = none ∧
    (me inside).bar .sys = (inside.ctx inside.cur).bar .sys := by decide

/-- Contexts 0 and 8 of launch 1 at a barrier of the bay: context 0 has arrived, context 8 too or departed, in cycle 0; the
bay's tree has a latency of 12 cycles. -/
def meeting (arrived : Nat) (departed : Bool) (cycle : Nat := 12) : State := { State.reset with
  cycle := cycle
  ctxs := [(0, { status := .parked, park := .barPhase .bay 0, launch := some 1, bars := Vector.replicate 8 { arrived := 1 } }),
           (8, { status := .running, launch := some 1, bars := Vector.replicate 8 { arrived := arrived, departed := departed } })]
  launches := [(1, { aLaunch with members := [0, 8], cores := [0, 1] })] }

theorem test_phases : phaseReady (meeting 0 false) 1 0 .bay = false ∧ phaseReady (meeting 1 false) 1 0 .bay = true ∧
    phaseReady (meeting 1 false 11) 1 0 .bay = false ∧
    phaseReady (meeting 0 true) 1 0 .bay = true ∧ allPlaced (meeting 1 false) 1 .bay = true ∧ membersIn (meeting 1 false) 1 .bay 0 = [0, 8] ∧
    (∀ k ∈ [0, 8], (((meeting 1 false).ctx k).bar .bay).gather = none ∧ (((meeting 1 false).ctx k).bar .bay).gatherSeq = none ∧
      (((meeting 1 false).ctx k).bar .bay).swap = false) ∧
    ((meeting 1 false).ctx 0).park = .barPhase .bay 0 ∧ groupOf (meeting 1 false) (launchOf (meeting 1 false) 0) = 1 := by decide +kernel

theorem test_nred : Runs (.nred 3 4 0 .bay .sum64) inside ∧ inside.rounds = [] ∧ Runs (.nredMergek 3 4 5 .bay) inside ∧
    keyOf inside inside.cur (me inside) (3, 5) = some 53 ∧ keyOf inside inside.cur (me inside) (4, 5) = some 69 :=
  ⟨⟨rfl, .inl rfl⟩, rfl, ⟨rfl, .inl rfl⟩, by decide, by decide⟩

/-- A contribution to a sum. -/
def adds (k : Nat) (op : NredOp) : Contribution := ⟨k, op, false, 5, 0, 0, .reg 3 8 true⟩

/-- Both members' contributions, or one only. -/
def summing (parts : List Contribution) : State := { meeting 1 false with
  rounds := [⟨1, .bay, 0, parts, 12⟩] }

theorem test_round : let s := summing [adds 0 .sum64, adds 8 .sum64]
    (∀ p ∈ [adds 0 .sum64, adds 8 .sum64], groupOf s (launchOf s p.ctx) = 1 ∧ (s.ctx p.ctx).status ≠ .idle) ∧
    roundReady s ⟨1, .bay, 0, [adds 0 .sum64, adds 8 .sum64], 12⟩ = true ∧ ¬ s.cycle < 12 ∧ ({ s with cycle := 11 } : State).cycle < 12 ∧ (adds 0 .sum64).op ≠ (adds 8 .and).op ∧
    (adds 0 .sum64).ctx ≠ (adds 8 .sum64).ctx := by decide +kernel

theorem test_roundWaits :
    let s : State := { summing [adds 0 .sum64, adds 8 .sum64] with launches := [(1, { aLaunch with members := [0, 8, 16], cores := [0, 1, 2] })] }
    roundReady s ⟨1, .bay, 0, [adds 0 .sum64, adds 8 .sum64], 12⟩ = false := by decide +kernel

theorem test_roundParks : ∀ p ∈ [adds 0 .sum64, adds 8 .sum64], ∀ w, ((summing [adds 0 .sum64, adds 8 .sum64]).ctx p.ctx).park ≠ .wfi w := by
  intro p hp w h
  simp only [List.mem_cons, List.not_mem_nil, or_false] at hp
  obtain rfl | rfl := hp <;> cases h

/-- A member of launch 1 inside a bundle, with its weight. -/
def weighed (w : BitVec 63) : State := { launched { status := .running, mode := 0x40, wgt := w } with
  view := some { status := .running, mode := 0x40, wgt := w, launch := some 1 } }

theorem test_weight : ((weighed 3).ctx 0).launch = some 1 ∧ find? (weighed 3).launches 1 = some aLaunch ∧ 2 ≤ ((weighed 2).ctx 0).wgt.toNat ∧
    ((weighed 1).ctx 0).wgt = 1 ∧ Runs (.wsplit 3) (weighed 1) ∧ Runs (.wreturn 0) (weighed 1) ∧ Runs (.wreturn 3) (weighed 1) ∧
    Runs (.wsplitAdd 3) (weighed 1) ∧ ((weighed 1).ctx 0).wgt.toNat + (rdS (weighed 1) 3).toNat < 2 ^ 63 :=
  ⟨by decide, by decide, by decide, by decide, ⟨rfl, .inl rfl⟩, ⟨rfl, .inl rfl⟩, ⟨rfl, .inl rfl⟩, ⟨rfl, .inl rfl⟩, by decide⟩

theorem test_returns : let s : State := { launched plainCtx with launches := [(1, { aLaunch with returns := [5] })] }
    find? s.launches 1 = some { aLaunch with returns := [5] } ∧ groupOf s 1 = 1 ∧ aLaunch.w.get 29 = 0 := by decide +kernel

/-! ## Witnesses: rows and the joint array -/

theorem test_rowIssue : isRowInstr (.vadd ⟨2, true⟩ 3 9 12 ⟨5, false⟩ .f32b) = true ∧ Runs (.vadd ⟨2, true⟩ 3 9 12 ⟨5, false⟩ .f32b) inside ∧
    (let s : State := { State.reset with cores := [(0, { queue := [⟨0, [[(5, {})]], [], 0, 0, 1⟩] })] }
     (s.core 0).queue = (⟨0, [[(5, {})]], [], 0, 0, 1⟩ : Dispatch) :: []) ∧ (State.reset.core 0).queue = [] ∧
    LaneType.i32.int = true ∧ laneFmt .bf16 = some bf16 ∧ LaneType.bf16.flt = true :=
  ⟨rfl, ⟨by decide, .inl rfl⟩, by decide +kernel, by decide, rfl, rfl, rfl⟩

/-- Cores 0 and 1 with a row each at the head of their queues, in a cell whose lane groups are busy up to cycle n. -/
def rowsWaiting (n : Nat) : State := { State.reset with
  cores := [(0, { queue := [⟨0, [[(5, {})]], [], 0, 0, 1⟩] }), (1, { queue := [⟨8, [[(5, {})]], [], 0, 0, 1⟩] })]
  cells := [(0, { lanes := Vector.replicate 4 n })] }

theorem test_rowStart : mayStart (rowsWaiting 0) (pkgOf 0) 2 0 = true ∧
    mayStart { rowsWaiting 0 with cycle := 16, pkgs := [(0, { duty := [(2 * 2 ^ 24, 16)] })] } (pkgOf 0) 2 0 = false ∧ freeLane (rowsWaiting 0) 0 = some 0 ∧ freeLane (rowsWaiting 1) 0 = none ∧
    grantee (rowsWaiting 0) (0 / 4) = some (0 % 4) ∧ grantee (rowsWaiting 0) (1 / 4) ≠ some (1 % 4) := by
  decide +kernel

/-- Inside a bundle on core 0 with a gang mask, and an MMA of the bundle. -/
def ganging (gmask : BitVec 4) (mma : Option (Word × (Word × Word) × (Word × Word))) : State := { inside with
  cores := [(0, { gmask := gmask })]
  ctxs := [(0, { status := .running, mode := 0x40, tcount := 16, mma := mma, fmt := #v[8, 8, 0, 0] })] }

/-- Descriptors of one row or column in tile 0 and in tile 1. -/
def tileA : Word × Word := (0, 0x8000000000000000)
def tileB : Word × Word := (1, 0x8000000000000000)

theorem test_gang : Runs .gang (ganging 3 none) ∧ ((ganging 3 none).cell (0 / 4)).arrivals = [] ∧ ((ganging 3 none).core 0).gmask &&& 1 ≠ 0 ∧
    ((ganging 3 none).core 0).gmask ≠ 1 ∧ ((ganging 1 none).core 0).gmask = 1 ∧ ((ganging 1 none).ctx 0).mma = none ∧
    ((ganging 1 none).ctx 0).status = .running ∧ ((ganging 1 (some (32, tileA, tileB))).ctx 0).mma = some (32, tileA, tileB) ∧
    (let s := ganging 1 (some (32, tileA, tileB))
     let a : Arrival := {
       core := 0, seq := s.seq, by_ := .ctx 0 0, user := !((s.ctx 0).mode.getLsbD 6), gmask := 1, mma := true
       k := 32, da := tileA, db := tileB, fmt := (s.ctx 0).fmt, scl := (s.ctx 0).scl, prev := (quarterOf s 0).holder }
     startFault s a [a] = none) :=
  ⟨⟨rfl, .inl rfl⟩, by decide, by decide, by decide, by decide, by decide, by decide, by decide, by decide +kernel⟩

theorem test_jointRuns : Runs (.mma always 1 2 4) inside ∧ Runs (.mzero always) inside ∧ Runs (.mdrain always 3 4) inside ∧ (3 : SReg) ≠ 0 :=
  ⟨⟨by decide, .inl rfl⟩, ⟨by decide, .inl rfl⟩, ⟨by decide, .inl rfl⟩, by decide⟩

/-- The arrival of context 0 on core 0 with a descriptor of A. -/
def arrivalOf (da : Word × Word) : Arrival :=
  { core := 0, seq := 0, by_ := .ctx 0 0, user := false, gmask := 1, mma := true, k := 32, da := da, db := tileB, fmt := #v[8, 8, 0, 0]
    scl := Vector.replicate 4 0 }

/-- An operation of that member alone. -/
def matOpOf (da : Word × Word) (st : ReqState) : MatOp :=
  { members := [arrivalOf da], leader := arrivalOf da, next := 0, blocks := 1, due := 8, state := st }

/-- Core 0 and its cell running it. -/
def operating (da : Word × Word) (st : ReqState) (cycle : Nat) : State := { ganging 1 none with
  cycle := cycle, cores := [(0, { tenant := some 5, gmask := 1, quarter := { holder := some 0, m := 1, n := 1 } })]
  cells := [(0, { ops := [matOpOf da st] })], view := none }

/-- A vector of A at the start of bank 15. -/
def bankA : Word × Word := (bankBase 15, 0)

theorem test_blocks : ((operating tileA .issued 8).cell 0).ops = [matOpOf tileA .issued] ∧ (arrivalOf tileA).by_ = .ctx 0 0 ∧
    (quarterOf (operating tileA .issued 8) 0).holder = some 0 ∧ (operating tileA .issued 7).cycle < 8 ∧ 8 ≤ (operating tileA .issued 8).cycle ∧ mayStart (operating tileA .issued 8) (pkgOf 0) 1 0 = true ∧
    mayStart { operating tileA .issued 240 with pkgs := [(0, { duty := [(2 ^ 24, 240)] })] } (pkgOf 0) 1 0 = false ∧
    blockTrap (operating tileA .issued 7) (matOpOf tileA .issued) = none ∧ localNeeds (operating tileA .issued 8) (matOpOf tileA .issued) = [] ∧
    membersDone (operating tileA .issued 8) (matOpOf tileA .issued) = true ∧ (matOpOf tileA .issued).rests = false ∧
    tilePoison (operating tileA .issued 8) 0 tileA = none ∧ tilePoison (operating tileA .issued 8) 0 tileB = none ∧
    (fetchGlobal (operating tileA .issued 8) (matOpOf tileA .issued)).1.1 = none ∧
    quarterOf (fetchGlobal (operating tileA .issued 8) (matOpOf tileA .issued)).2 0 = quarterOf (operating tileA .issued 8) 0 ∧
    ((operating tileA (.suspended 0 3) 8).cell 0).ops = [matOpOf tileA (.suspended 0 3)] ∧
    ((operating tileA (.failed ⟨7, 1, 0, none⟩) 8).cell 0).ops = [matOpOf tileA (.failed ⟨7, 1, 0, none⟩)] := by
  decide +kernel

/-- In the matrix slot of cycle 11 bank 15 serves the read of that vector. -/
theorem test_blockRead : let s := operating bankA .issued 11
    let o := matOpOf bankA .issued
    opBy s 0 = some o ∧ localNeeds s o ≠ [] ∧ blockTrap s o = none ∧
    (bankNeeds s o).find? (fun x => x.1 = .a 0 ∧ x.2.1 = 0) = some (.a 0, 0, bankBase 15, 32) ∧
    (∃ a, chosenAt s (16 * 0 + 15) = some a ∧ a.who = .fetch 0 (.a 0) 0 ∧ a.replay = false) ∧ PlainBank s 0 (bankBase 15) 32 :=
  ⟨by decide +kernel, by decide +kernel, by decide +kernel, by decide +kernel,
    ⟨⟨15, .matrix, 0, 0, 0, 0, false, .fetch 0 (.a 0) 0⟩, by decide +kernel, rfl, rfl⟩, by unfold PlainBank; decide +kernel⟩

/-- A drain of two rows of core 0 by context 0 into tile 2. -/
def aDrain : Drain :=
  { by_ := .ctx 0 3, ctx := 0, user := false, base := 2, dest := 0x8000000000000000, hdl := 0x200, begun := true, row := 0, m := 2,
    held := false, flags := 0, sats := 0, poison := none, ready := none, state := .issued, due := 0 }

/-- Core 0 with that drain at its head, and its handler context. -/
def draining (x : Drain) : State := { inside with
  cores := [(0, { tenant := some 5, drains := [x], quarter := { m := 2, n := 32 } })]
  ctxs := [(0, { status := .running, tcount := 16 }), (4, { status := .parked, park := .nextRow, tcount := 16 })]
  view := none }

theorem test_drains :
    ((draining { aDrain with begun := false }).core 0).drains = { aDrain with begun := false } :: [] ∧
    opOn (draining { aDrain with begun := false }) 0 = false ∧
    opOn { operating tileA .issued 8 with cores := [(0, { drains := [{ aDrain with begun := false }] })] } 0 = true ∧
    aDrain.hdl ≠ 0 ∧ aDrain.row < aDrain.m ∧ aDrain.due ≤ (draining aDrain).cycle ∧ ((draining aDrain).ctx (handlerKey 0)).park = .nextRow ∧
    ((draining aDrain).ctx (handlerKey 0)).status = .parked ∧ descTile aDrain.dest = true ∧ formRow (draining aDrain) 0 aDrain.base 1 = some 33 ∧
    ({ aDrain with row := 2 } : Drain).m ≤ 2 := by decide +kernel

/-- A row on its way to the start of bank 15, in the matrix slot of cycle 11. -/
def leaving : Drain := { aDrain with
  base := bankBase 15, dest := 0, row := 0, ready := some (77, 128) }

theorem test_drainWrites :
    (let s : State := { draining leaving with cycle := 11 }
     let op : MemOp := { ea := bankBase 15, n := 128, acc := .write 128 77, align := 4, row := true }
     leaving.ready = some (77, 128) ∧ drainOp leaving = some op ∧ drainNeeds s 0 = [(0, 0, bankBase 15, 128)] ∧
     chosenAt s (16 * 0 + 15) = some ⟨15, .matrix, 0, 0, 0, 4096, false, .drain 0 0⟩ ∧ PlainBank s 0 op.ea 128) ∧
    ((draining { aDrain with ready := some (77, 128), row := 1 }).core 0).drains = { aDrain with ready := some (77, 128), row := 1 } :: [] ∧
    formRow (draining aDrain) 0 aDrain.base 1 = some 33 ∧ aDrain.state = .issued := by unfold PlainBank; decide +kernel

/-- The handler inside a bundle, holding a row. -/
def handlerRow : State := { draining { aDrain with held := true } with
  cur := 4, view := some { status := .running } }

theorem test_rleave : handlerRow.cur = handlerKey 0 ∧ Runs (.rleave always false) handlerRow ∧ Runs (.rleave always true) handlerRow :=
  ⟨rfl, ⟨by decide, .inl rfl⟩, ⟨by decide, .inl rfl⟩⟩

theorem test_drainNotWaiting : ∀ w, ((draining aDrain).ctx 0).park ≠ .wfi w := fun _ h => by cases h

/-! ## Witnesses: command chains -/

theorem test_chainIssue : Runs (.chain 3 4 5 .copy 7) inside ∧ Runs (.chainTry 3 4 5 .vec 0) inside ∧ queueRoom inside (queueKey .vec 0 0) = true ∧
    (let s : State := { inside with queues := [(queueKey .vec 0 0, { chains := List.replicate 64 aChain })] }
     Runs (.chainTry 3 4 5 .vec 0) s ∧ queueRoom s (queueKey .vec 0 0) = false ∧ Runs (.forkTry 3 4 0 4) s ∧ forkRoom s 0 0 4 = false) ∧
    Runs (.fork 3 4 0 7) inside ∧ Runs (.forkTry 3 4 0 7) inside ∧ forkRoom inside 0 0 7 = true :=
  ⟨⟨rfl, .inl rfl⟩, ⟨rfl, .inl rfl⟩, by decide, ⟨⟨rfl, .inl rfl⟩, by decide +kernel, ⟨rfl, .inl rfl⟩, by decide +kernel⟩, ⟨rfl, .inl rfl⟩,
    ⟨rfl, .inl rfl⟩, by decide⟩

/-- Inside a bundle of a context with a fork group, whose meetings so far have times. -/
def forked (times : List Word) : State := { one { status := .running, fork := some ⟨1, 0, [], times, none⟩ } with
  view := some { status := .running } }

theorem test_meetings : ((forked []).ctx 0).fork = some ⟨1, 0, [], [], none⟩ ∧ Fork.met ⟨1, 0, [], [], none⟩ 0 = none ∧
    Fork.met ⟨1, 0, [], [5], none⟩ 0 = some 5 ∧ Runs (.rendez 0) (forked []) ∧ Runs (.rendez 3) (forked [5]) :=
  ⟨rfl, by decide, by decide, ⟨rfl, .inl rfl⟩, ⟨rfl, .inl rfl⟩⟩

/-- A chain of context 0 that stands at an entry. -/
def standing (w : Vector Word 4) (wait : ChainWait) : Chain := { aChain with
  entry := some w, wait := wait, next := 0xFC00000000000100, head := 0xFC00000000000100 }

/-- It is the head of a queue of bay 0. -/
def queued (q : Nat) (ch : Chain) : State := { one plainCtx with
  cores := [(0, { tenant := some 5 })], queues := [(q, { chains := [ch] })] }

/-- A word 0 of an entry. -/
def head0 (op md cnt arg : Nat) : Word := BitVec.ofNat 64 (op + md * 2 ^ 8 + cnt * 2 ^ 16 + arg * 2 ^ 32)

/-- A word of bank 0 of core 0. -/
def word0 : Word := 0xFC00000000000000

/-- One entry of every control kind that waits for nothing but its own words. -/
def controlWords : List (Vector Word 4) := [
  Vector.replicate 4 0, #v[0xFF, 0, 0, 0], #v[head0 8 0 0 0, 0, 0, 0], #v[head0 8 0 0 0, 1, 0, 0], #v[head0 9 8 0 0, word0, 0, 0],
  #v[head0 10 0 0 0, word0, 1, 0], #v[head0 11 3 0 4, 0xFC00000000000100, 0, 0], #v[head0 12 0 1 0, word0, 0, 0],
  #v[head0 13 0 1 0, word0, 0, 0], #v[head0 16 0xFF 0 3, 0, 0, 0], #v[head0 17 0 0 0, 0, 0, 0], #v[head0 18 0 0 0, 0, 0, 0],
  #v[head0 31 0 0 0, 0, 0, 0], #v[head0 31 4 0 0, 0x10, 0, 0]]

/-- Such a chain stands at its entry, whatever its words are, if its engine accepts the kind. -/
theorem standing_at (w : Vector Word 4) (h : accepts (queueEngine 0) (opOf w) = true) :
    AtEntry (queued 0 (standing w .ready)) 0 (standing w .ready) [] w := ⟨rfl, rfl, rfl, rfl, rfl, rfl, rfl, h, rfl, rfl⟩

theorem test_controlEntries : ∀ w ∈ controlWords, AtEntry (queued 0 (standing w .ready)) 0 (standing w .ready) [] w :=
  fun w h => standing_at w (List.all_eq_true.mp (by decide +kernel : controlWords.all (fun w => accepts (queueEngine 0) (opOf w)) = true) w h)

theorem test_wokenEntries : AtEntry (queued 0 (standing #v[head0 9 8 0 0, word0, 0, 0] (.woken 0))) 0
      (standing #v[head0 9 8 0 0, word0, 0, 0] (.woken 0)) [] #v[head0 9 8 0 0, word0, 0, 0] ∧
    AtEntry (queued 0 { standing #v[head0 18 0 0 0, 0, 0, 0] (.woken 0) with fork := some 1 }) 0
      { standing #v[head0 18 0 0 0, 0, 0, 0] (.woken 0) with fork := some 1 } [] #v[head0 18 0 0 0, 0, 0, 0] := by
  unfold AtEntry
  decide +kernel

/-- A chain whose engine has made an access, in pieces with values. -/
def answering (ch : Chain) (a : Word) (acc : Access) (parts : List (Nat × Nat)) : Chain := { ch with
  io := some { addr := a, acc := acc, since := 0, parts := parts } }

/-- What it reads is there. -/
theorem answered_once (q : Nat) (ch : Chain) (a : Word) (acc : Access) (v : Nat)
    (h : ioNeeds (queued q (answering ch a acc [(0, v)])) (answering ch a acc [(0, v)]) { addr := a, acc := acc, since := 0, parts := [(0, v)] } = [])
    (hv : v = ioValue { addr := a, acc := acc, since := 0, parts := [(0, v)] }) :
    Answered (queued q (answering ch a acc [(0, v)])) q (answering ch a acc [(0, v)]) a 0 acc v (setIo q none (queued q (answering ch a acc [(0, v)]))) :=
  .inr ⟨_, rfl, rfl, rfl, rfl, rfl, h, rfl, Nat.le_refl _, hv, rfl⟩

/-- What the entries that touch their word ask of it, and what answers them. -/
theorem test_wordEntries :
    let ch := standing #v[head0 12 0 1 0, word0, 0, 0] .ready
    let s := queued 0 ch
    word0.toNat % 8 = 0 ∧ chainTrap s 0 ch word0 = none ∧ ch.io = none ∧ isLocal word0 = true ∧ slotSpans s 0 word0 0 8 = [(0, word0, 8)] ∧
    (∀ acc ∈ [Access.read 8, .waitw 0 0, .waitw 1 0, .faddt 1 0], ioNeeds s ch { addr := word0, acc := acc, since := 0, parts := [(0, 5)] } = []) ∧
    5 = ioValue { addr := word0, acc := .read 8, since := 0, parts := [(0, 5)] } ∧ ioValue { addr := word0, acc := .read 8, since := 0, parts := [(0, 0)] } = 0 ∧
    ((setIo 0 none (queued 0 (answering ch word0 (.read 8) [(0, 5)]))).queue 0).chains = ch :: [] := by decide +kernel

/-- An access to global memory is answered at once. -/
theorem test_answeredGlobal :
    let ch : Chain := { standing #v[head0 12 0 1 0, 0x100000, 0, 0] .ready with asid := 1 }
    let s : State := { loadedNop with queues := [(0, { chains := [ch] })] }
    ch.io = none ∧ isLocal 0x100000 = false ∧ slotSpans s 0 0x100000 0 8 = [(0, 0x100000, 8)] ∧
    (match pieceAct (chainAgent 0 ch) 0x100000 (.read 8) (.queue 0) s with
      | (.done a v f, t) => a == 0 && v == 0 && f == 0 && (t.queue 0).chains == [ch] | _ => false) = true := by decide +kernel

theorem test_controlFields :
    (0xFC00000000000100 : Word).toNat % 32 = 0 ∧ (wf (head0 11 3 0 4) 15 8 = 3) ∧ (∀ y ∈ ((queued 0 (standing #v[head0 16 1 0 0, 0, 0, 0] .ready)).queue
      (queueKey .copy (coreOf 0) 0)).chains, 5 ≤ y.seq) ∧
    (let s : State := { queued 0 (standing #v[head0 16 2 0 0, 0, 0, 0] .ready) with
       queues := [(0, { chains := [standing #v[head0 16 2 0 0, 0, 0, 0] .ready] }), (1, { chains := [{ aChain with seq := 4 }] })] }
     ∃ y, y ∈ (s.queue (queueKey .copy (coreOf 0) 1)).chains ∧ y.seq < 5) ∧
    opKnown (wf (0xFF : Word) 7 0) = false := by decide +kernel

/-- A chain between entries, whose next one is an ATTR in bank 0. -/
def nextAttr : State := { one plainCtx with
  cores := [(0, { tenant := some 5 })], queues := [(0, { chains := [{ aChain with next := word0 }] })] }

theorem test_entryReading :
    let ch : Chain := { aChain with next := word0 }
    (nextAttr.queue 0).chains = ch :: [] ∧ launchStops nextAttr 0 = false ∧ chainLate nextAttr ch = false ∧ ownerDone nextAttr ch = true ∧
    chainTrap nextAttr 0 ch word0 = none ∧
    slotSpans nextAttr 0 word0 0 32 ≠ [] ∧ accepts (queueEngine 0) 31 = true ∧
    ownerDone { nextAttr with ctxs := [(0, { plainCtx with reqs := [bankRead8] })] } ch = false := by decide +kernel

/-- Its entry is there: an ATTR, and a WAITT for dial time 9 after an ATTR. -/
theorem test_entryRead :
    let ch : Chain := { aChain with next := word0, attr := some ⟨#v[31, 0, 0, 0]⟩ }
    let u := setIo 0 none (queued 0 (answering ch word0 (.read 32) [(0, 31)]))
    Answered (queued 0 (answering ch word0 (.read 32) [(0, 31)])) 0 (answering ch word0 (.read 32) [(0, 31)]) word0 0 (.read 32) 31 u ∧
    Answered (queued 0 (answering ch word0 (.read 32) [(0, 8 + 9 * 2 ^ 64)])) 0 (answering ch word0 (.read 32) [(0, 8 + 9 * 2 ^ 64)]) word0 0 (.read 32)
      (8 + 9 * 2 ^ 64) (setIo 0 none (queued 0 (answering ch word0 (.read 32) [(0, 8 + 9 * 2 ^ 64)]))) ∧
    (u.queue 0).chains = ch :: [] ∧ wf (31 : Word) 10 8 = 0 ∧ dialOf u 0 < 9 :=
  ⟨answered_once _ _ _ _ _ (by decide +kernel) (by decide +kernel), answered_once _ _ _ _ _ (by decide +kernel) (by decide +kernel), by decide +kernel,
    by decide +kernel, by decide +kernel⟩

/-- A chain whose entry has a deadline of dial time n. -/
def withDeadline (n : Word) : Chain := { standing #v[head0 8 0 0 0, 99, 0, 0] .ready with
  active := some ⟨#v[head0 31 2 0 0, 0, n, 0]⟩ }

theorem test_entryDeadline : chainLate (queued 0 (withDeadline 0)) (withDeadline 0) = true ∧ recordAddr (withDeadline 0) = none ∧
    (withDeadline 0).entry ≠ none ∧ (withDeadline 0).ending = none ∧ chainLate (queued 0 (withDeadline 1)) (withDeadline 1) = false ∧
    atLimit (queued 0 (withDeadline 0)) 0 (withDeadline 0) = true ∧ (withDeadline 0).wait = .ready := by decide +kernel

/-- An entry of each data-movement kind. -/
def moveWords : List (Vector Word 4) := [
  #v[head0 1 0 0 128, word0, word0 + 128, 0], #v[head0 2 0 0 4, word0, word0 + 64, word0 + 128], #v[head0 3 0 0 4, word0, word0 + 64, word0 + 128],
  #v[head0 4 0 0 128, 7, word0, 0], #v[head0 5 0x10 0 4, word0, word0 + 128, 0]]

theorem test_moves : ∀ w ∈ moveWords, AtEntry (queued 0 (standing w .ready)) 0 (standing w .ready) [] w ∧ moveLegal 0 w = true ∧
    (standing w .ready).active = none ∧ (standing w .ready).admitted = none := fun w h =>
  ⟨standing_at w (List.all_eq_true.mp (by decide +kernel : moveWords.all (fun w => accepts (queueEngine 0) (opOf w)) = true) w h),
    List.all_eq_true.mp (by decide +kernel : moveWords.all (moveLegal 0) = true) w h, rfl, rfl⟩

/-- A GATHER, a COPY, a FILL and a REDCOPY of 4 bytes, at their first item. -/
def gatherOf : Vector Word 4 := #v[head0 2 0 0 4, word0, word0 + 64, word0 + 128]
def copyOf : Vector Word 4 := #v[head0 1 0 0 4, word0 + 64, word0 + 128, 0]
def fillOf : Vector Word 4 := #v[head0 4 0 0 4, 7, word0 + 128, 0]
def redcopyOf : Vector Word 4 := #v[head0 5 0x10 0 4, word0 + 64, word0 + 128, 0]

/-- A chain at such an entry in queue 0, as far as its fields say. -/
def moving (w : Vector Word 4) (begun : Bool) (index buf : Option Nat) : Chain := { standing w .ready with
  begun := begun, index := index, buf := buf }

/-- The item of the GATHER for index 0, and of the others. -/
def fourBytes : Item := { src := some (word0 + 64), dst := word0 + 128, len := 4 }

theorem test_moveIndex : let ch := moving gatherOf false none none
    let s := queued 0 ch
    engineTurn s 0 = true ∧ reachTrap 0 word0 = none ∧ (∀ p ∈ spans s 0 word0 0 4, pieceTrap s 0 p.2.1 = none) ∧ [gatherOf, copyOf, fillOf, redcopyOf].all (fun w => (namedIn w).all fun a => (reachTrap 0 a).isNone) = true ∧
    ch.io = none ∧ slotSpans s 0 word0 0 4 ≠ [] ∧ (moving gatherOf false (some 0xFFFFFFFF) none).index = some 0xFFFFFFFF ∧
    ((setIo 0 none (queued 0 (answering ch word0 (.read 4) [(0, 0)]))).queue 0).chains = ch :: [] := by decide +kernel

theorem test_moveIndexRead : let ch := moving gatherOf false none none
    Answered (queued 0 (answering ch word0 (.read 4) [(0, 3)])) 0 (answering ch word0 (.read 4) [(0, 3)]) word0 0 (.read 4) 3
      (setIo 0 none (queued 0 (answering ch word0 (.read 4) [(0, 3)]))) := answered_once _ _ _ _ _ (by decide +kernel) (by decide +kernel)

theorem test_movePieces :
    (∀ p ∈ [(gatherOf, some 0, some (word0 + 64)), (copyOf, none, some (word0 + 64)), (redcopyOf, none, some (word0 + 64)), (fillOf, none, none)],
      let x : Item := { src := p.2.2, dst := word0 + 128, len := 4 }
      let s := queued 0 (moving p.1 false p.2.1 none)
      itemTrap s 0 (moving p.1 false p.2.1 none) x = none ∧ engineTurn s 0 = true ∧ movesNow s 0 = false ∧ queueEngine 0 = .copy ∧
      nextCut 0 (moving p.1 true p.2.1 none) x = some (0, 4) ∧ nextCut 0 { moving p.1 true p.2.1 none with piece := 4 } x = none ∧
      engineTurn (queued 0 (moving p.1 true p.2.1 none)) 0 = true) ∧
    (word0 + 64).toNat % 4 = 0 ∧ arcadeAddr (queued 0 (moving copyOf true none none)) 0 (word0 + 64) 0 = word0 + 64 ∧
    slotSpans (queued 0 (moving copyOf true none none)) 0 (word0 + 64) 0 4 = [(0, word0 + 64, 4)] ∧ fillBytes fillOf 0 4 = 7 ∧ (moving copyOf true none (some 9)).buf = some 9 ∧
    ((queued 0 (moving copyOf true none (some 9))).engine (engineKey 0)).moved = 0 ∧
    (let s : State := { queued 0 (moving copyOf true none (some 9)) with engines := [(engineKey 0, { moved := 1 })] }
     s.cycle < (s.engine (engineKey 0)).moved) ∧
    engineTurn { queued 0 (moving copyOf false none none) with
      queues := [(0, { chains := [moving copyOf false none none] }), (1, { chains := [moving copyOf true none none] })] } 0 = false := by decide +kernel

/-- The read and the write of such a move are there. -/
theorem test_moveAnswers : ∀ w ∈ [copyOf, redcopyOf],
    (let ch := moving w true none none
     Answered (queued 0 (answering ch (word0 + 64) (.read 4) [(0, 9)])) 0 (answering ch (word0 + 64) (.read 4) [(0, 9)]) (word0 + 64) 0 (.read 4) 9
       (setIo 0 none (queued 0 (answering ch (word0 + 64) (.read 4) [(0, 9)])))) ∧
    (let ch := moving w true none (some 9)
     let acc : Access := .write 4 (BitVec.ofNat 2048 9)
     Answered (queued 0 (answering ch (word0 + 128) acc [(0, 0)])) 0 (answering ch (word0 + 128) acc [(0, 0)]) (word0 + 128) 0 acc 0
       (setIo 0 none (queued 0 (answering ch (word0 + 128) acc [(0, 0)])))) := by
  intro w hw
  simp only [List.mem_cons, List.not_mem_nil, or_false] at hw
  obtain rfl | rfl := hw <;>
    exact ⟨answered_once _ _ _ _ _ (by decide +kernel) (by decide +kernel), answered_once _ _ _ _ _ (by decide +kernel) (by decide +kernel)⟩

/-- Queue q with an access of its head chain in a cycle. -/
def inSlot (q cycle : Nat) (io : EngineIo) : State := { queued q { aChain with io := some io } with
  cycle := cycle }

/-- An access of n bytes at the end of bank 15. -/
def ioAt (n : Nat) (acc : Access) (red : Option (RedOp × Nat)) : EngineIo := { addr := bankBase 15 + BitVec.ofNat 64 (8192 - n), acc := acc, red := red, since := 0 }

/-- In the copy slot of cycle 7 bank 15 serves queue 0, and in cycle 5 the vector sequencer of the cell. -/
theorem test_engineSlots : (∀ io ∈ [ioAt 128 (.read 128) none, ioAt 128 (.write 128 9) none, ioAt 8 (.write 8 9) (some (.add, 8)), ioAt 4 (.write 4 9) (some (.add, 4)),
      ioAt 8 (.faddt 1 0) none, ioAt 8 (.waitw 0 0) none, ioAt 8 (.waitw 1 0) none],
      ioNeeds (inSlot 0 7 io) aChain io = [(0, io.addr, io.acc.bytes)] ∧ io.gen = none ∧
      chosenAt (inSlot 0 7 io) (16 * 0 + 15) = some ⟨15, .copy, 0, 0, 4, 5, false, .engine 0 0⟩ ∧
      chosenAt (inSlot (queueKey .vec 0 0) 5 io) (16 * 0 + 15) = some ⟨15, .wide, 0, 0, 4, 5, false, .engine (queueKey .vec 0 0) 0⟩ ∧
      PlainBank (inSlot 0 7 io) 0 io.addr io.acc.bytes) ∧
    (0 : Word).toInt ≤ (BitVec.ofNat 64 (readN (inSlot 0 7 (ioAt 8 (.waitw 0 0) none)).bankMem (localKey 0 (bankBase 15 + 8184)) 8)).toInt ∧
    (BitVec.ofNat 64 (readN (inSlot 0 7 (ioAt 8 (.waitw 1 0) none)).bankMem (localKey 0 (bankBase 15 + 8184)) 8)).toInt < (1 : Word).toInt := by
  unfold PlainBank
  decide +kernel

/-- A matrix entry of core 0's sequencer, its block of 80 bytes in bank 0: K = 1, one row and one column of bank 1. -/
def matWords (op : Nat) : Vector Word 4 := #v[head0 op 0 0 0, word0, 0, 0]

/-- The state at that entry. -/
def matState (op : Nat) (wait : ChainWait) (io : Option EngineIo) : State :=
  { queued (queueKey .mat 0 0) { standing (matWords op) wait with io := io } with
    cores := [(0, { tenant := some 5, gmask := 1 })]
    ctxs := [(0, { status := .running, tcount := 16, fmt := #v[8, 8, 0, 0] })] }

/-- The blocks: da, db, formats and K of an operation; base and hi of a drain. -/
def mmaBlock : Nat := 0x8000000000000000 * 2 ^ 64 + 1 * 2 ^ 128 + 0x8000000000000000 * 2 ^ 192 + 0x88 * 2 ^ 256 + 32 * 2 ^ 576
def drainBlock : Nat := 2 + 0x8000000000000000 * 2 ^ 64

/-- The read of the block, which is there. -/
def blockIo (n v : Nat) : EngineIo := { addr := word0, acc := .read n, since := 0, parts := [(0, v)] }

theorem test_drainEntry :
    let q := queueKey .mat 0 0
    let ch : Chain := { standing (matWords 25) .ready with io := some (blockIo 16 drainBlock) }
    let s := matState 25 .ready ch.io
    AtEntry s q ch [] (matWords 25) ∧ drainBusy s 0 = false ∧ quarterTrap s 0 = none ∧
    (∀ p ∈ spans s 0 word0 0 16, chainTrap s q ch p.2.1 = none) ∧
    ((setIo q none s).queue q).chains = { ch with io := none } :: [] ∧
    ioNeeds s ch (blockIo 16 drainBlock) = [] ∧ ioValue (blockIo 16 drainBlock) = drainBlock ∧
    drainPairOk (setIo q none s) 0 (quarterOf (setIo q none s) 0).m 2 0x8000000000000000 = true ∧
    AtEntry (matState 25 .ready none) q (standing (matWords 25) .ready) [] (matWords 25) ∧
    AtEntry (matState 25 (.woken 0) none) q (standing (matWords 25) (.woken 0)) [] (matWords 25) ∧
    AtEntry (matState 24 (.woken 0) none) q (standing (matWords 24) (.woken 0)) [] (matWords 24) := by
  unfold AtEntry
  decide +kernel

theorem test_drainRead : let q := queueKey .mat 0 0
    let ch : Chain := { standing (matWords 25) .ready with io := some (blockIo 16 drainBlock) }
    Answered (matState 25 .ready ch.io) q ch word0 0 (.read 16) drainBlock (setIo q none (matState 25 .ready ch.io)) :=
  .inr ⟨_, rfl, rfl, rfl, rfl, rfl, by decide +kernel, rfl, by decide, by decide +kernel, rfl⟩

theorem test_mmaEntry :
    let q := queueKey .mat 0 0
    let ch : Chain := { standing (matWords 24) .ready with io := some (blockIo 80 mmaBlock) }
    let s := matState 24 .ready ch.io
    let u := setIo q none s
    let w := modHead q (fun c => { c with wait := .gang }) u
    AtEntry s q ch [] (matWords 24) ∧ word0.toNat % 8 = 0 ∧ gangBusy s 0 = false ∧ quarterTrap s 0 = none ∧
    (∀ p ∈ spans s 0 word0 0 80, chainTrap s q ch p.2.1 = none) ∧
    (u.queue q).chains = { ch with io := none } :: [] ∧ ioNeeds s ch (blockIo 80 mmaBlock) = [] ∧ ioValue (blockIo 80 mmaBlock) = mmaBlock ∧
    wf (BitVec.ofNat 64 (mmaBlock / 2 ^ 256)) 11 9 = 0 ∧ wf (BitVec.ofNat 64 (mmaBlock / 2 ^ 256)) 63 19 = 0 ∧ (s.core 0).gmask = BitVec.ofNat 4 (2 ^ (0 % 4)) ∧
    (s.core 0).broken &&& (s.core 0).gmask = 0 ∧ u.core 0 = s.core 0 ∧ (u.cell (0 / 4)).arrivals = [] ∧ BitVec.ofNat 64 (mmaBlock / 2 ^ 576) ≠ 0 ∧
    startFault w (blockArrival w q ch mmaBlock) [blockArrival w q ch mmaBlock] = none := by
  unfold AtEntry
  decide +kernel

theorem test_mmaRead : let q := queueKey .mat 0 0
    let ch : Chain := { standing (matWords 24) .ready with io := some (blockIo 80 mmaBlock) }
    Answered (matState 24 .ready ch.io) q ch word0 0 (.read 80) mmaBlock (setIo q none (matState 24 .ready ch.io)) :=
  .inr ⟨_, rfl, rfl, rfl, rfl, rfl, by decide +kernel, rfl, by decide, by decide +kernel, rfl⟩

/-- A quarter that holds a failure. -/
theorem test_quarterHolds : let s : State := { matState 24 .ready none with cores := [(0, { tenant := some 5, gmask := 1, quarter := { fail := some ⟨7, 0x81, 0, none⟩ } })] }
    quarterTrap s 0 = some ⟨7, 0x81, 0, none⟩ ∧ AtEntry s (queueKey .mat 0 0) (standing (matWords 24) .ready) [] (matWords 24) ∧ gangBusy s 0 = false ∧
    drainBusy s 0 = false ∧ genAttr (standing (matWords 24) .ready) = none := by
  unfold AtEntry
  decide +kernel

/-- Context 0 and its group's only chain, both at meeting 0. -/
def bothMeet : State := { one { status := .parked, park := .rendez 0, fork := some ⟨1, 1, [(3, 0)], [], none⟩ } with
  queues := [(0, { chains := [{ aChain with fork := some 1, wait := .meeting 0 }] })] }

theorem test_meeting : liveGroups bothMeet 0 = [1] ∧ meetingReady bothMeet 0 1 = some 0 ∧ (bothMeet.ctx 0).fork = some ⟨1, 1, [(3, 0)], [], none⟩ ∧
    (bothMeet.ctx 0).status = .parked ∧ (bothMeet.ctx 0).park = .rendez 0 := by decide +kernel

/-! ## Witnesses: translation and its faults -/

/-- Die 0 with its root table at 0x1000 and words of page tables; address space 1. -/
def tables (words : List (Nat × Nat)) : State :=
  words.foldl (fun s p => putHbm p.1 p.2 s) { State.reset with dies := [(0, { root := 0x1000 })] }

/-- The entry of a table at a page, and the leaf of a page. -/
def tableAt (page : Nat) : Nat := page * 2 ^ 22 + 1
def leafAt (page : Nat) : Nat := page * 2 ^ 22 + 0x3F

/-- A supervisor data agent of address space 1. -/
def anAgent : Agent := ⟨0, 0, 0, 0, 1, false, false⟩

/-- The last address of offset 0's first table entries: indexes 0, 511, 511, 511. -/
def lastVa : Word := 0x7FFFFFFFFF

/-- What the walk statement reads, at that address. -/
def entryOf (s : State) (table i : Nat) : Word := BitVec.ofNat 64 (hbmRead s 0 (table + 8 * i) 8)

/-- The walk statement's conditions on a word. -/
def isNext (w : Word) : Bool := w.getLsbD 0 && !w.getLsbD 1 && wf w 21 2 == 0 && wf w 63 62 == 0 && decide (wf w 61 22 * 4096 < 192 * 2 ^ 30)
def isLeaf (w : Word) : Bool := w.getLsbD 0 && w.getLsbD 1 && !w.getLsbD 19 && wf w 17 16 == 0 && decide (wf w 61 22 * 4096 < 192 * 2 ^ 30)

theorem test_walkCommon : ((tables []).die (wf lastVa 56 47)).tlb = Vector.replicate 5 [] ∧ (tables []).hbmPoison = [] ∧ anAgent.cls < 4 ∧
    wf lastVa 46 39 = 0 ∧ wf lastVa 38 30 = 511 ∧ wf lastVa 29 21 = 511 ∧ wf lastVa 20 12 = 511 ∧ (State.reset.die 0).root.toNat = 0 ∧
    ((tables []).die 0).root.toNat ≠ 0 := by decide +kernel

theorem test_walkEnds :
    (entryOf (tables []) 0x1000 1).toNat = 0 ∧
    (let s := tables [(0x1008, 0x2000)]
     (entryOf s 0x1000 1).toNat ≠ 0 ∧ (entryOf s 0x2000 0).getLsbD 0 = false) ∧
    (let s := tables [(0x1008, 0x2000), (0x2000, leafAt 4)]
     (entryOf s 0x2000 0).getLsbD 0 = true ∧ (entryOf s 0x2000 0).getLsbD 1 = true) ∧
    (let s := tables [(0x1008, 0x2000), (0x2000, tableAt 3), (0x3FF8, leafAt 0x40000)]
     isNext (entryOf s 0x2000 0) = true ∧ isLeaf (entryOf s 0x3000 511) = true ∧ wf (entryOf s 0x3000 511) 61 22 % 2 ^ 18 = 0 ∧
     leafFault (entryOf s 0x3000 511) false kindRead = none) ∧
    (let s := tables [(0x1008, 0x2000), (0x2000, tableAt 3), (0x3FF8, tableAt 4), (0x4FF8, leafAt 0x200)]
     isNext (entryOf s 0x3000 511) = true ∧ isLeaf (entryOf s 0x4000 511) = true ∧ wf (entryOf s 0x4000 511) 61 22 % 2 ^ 9 = 0) ∧
    (let s := tables [(0x1008, 0x2000), (0x2000, tableAt 3), (0x3FF8, tableAt 4), (0x4FF8, tableAt 5), (0x5FF8, leafAt 7)]
     isNext (entryOf s 0x4000 511) = true ∧ isLeaf (entryOf s 0x5000 511) = true) ∧
    (let s := tables [(0x1008, 0x2000), (0x2000, tableAt 3), (0x3FF8, tableAt 4), (0x4FF8, tableAt 5), (0x5FF8, tableAt 7)]
     (entryOf s 0x5000 511).getLsbD 0 = true ∧ (entryOf s 0x5000 511).getLsbD 1 = false) := by decide +kernel

theorem test_leafFaults : leafFault (BitVec.ofNat 64 (7 * 2 ^ 22 + 3)) true kindRead = some 5 ∧ leafFault (BitVec.ofNat 64 (7 * 2 ^ 22 + 0x37)) true kindWrite = some 6 := by
  decide +kernel

/-- An unanswered record of die 0: a read of page 0x40000 by address space 1. -/
def aRecord (num : Nat) : FaultRec := ⟨num, 0x40000123, 1, 7, 1, 0⟩

/-- Die 0 with records; FSIZE is 4. -/
def recorded (l : List FaultRec) (tail : Half) : State := { State.reset with dies := [(0, { records := l, ftail := tail })] }

theorem test_faultRecords :
    (let s := recorded [aRecord 0] 1
     aRecord 0 ∈ (s.die 0).records ∧ (aRecord 0).asid = anAgent.asid ∧ (aRecord 0).va.toNat / 4096 = (0x40000FFF : Word).toNat / 4096 ∧
     (aRecord 0).cause = faultCause kindRead 1 ∧ (aRecord 0).sub.toNat = 1) ∧
    (let s := recorded [aRecord 0] 16
     (∀ r, r ∈ (s.die 0).records → ¬ r.va.toNat / 4096 = (0x50000000 : Word).toNat / 4096) ∧ ((s.die 0).ftail - fhead (s.die 0)).toNat = 2 ^ (s.die 0).fsize) ∧
    (let s := recorded [aRecord 0] 15
     ((s.die 0).ftail - fhead (s.die 0)).toNat ≠ 2 ^ (s.die 0).fsize ∧ (s.die 0).fsig = 0 ∧ (s.die 0).frozen = false ∧ (s.die 0).faultWaits = []) := by
  decide +kernel

/-- A full buffer behind which a fault of page 0x50000 waits; another fault, and the same one again. -/
theorem test_waitingFaults :
    let w : FaultWait := { va := 0x50000123, asid := 1, core := 0, ctx := 0, queue := 0, cls := 0, kind := 0, sub := 1 }
    let s : State := { State.reset with dies := [(0, { records := [aRecord 0], ftail := 16, faultWaits := [w] })] }
    (s.die 0).faultWaits = w :: [] ∧ ((s.die 0).ftail - fhead (s.die 0)).toNat = 2 ^ (s.die 0).fsize ∧ w.asid = anAgent.asid ∧
    w.va.toNat / 4096 = (0x50000FFF : Word).toNat / 4096 ∧ faultCause w.kind w.sub = faultCause 0 1 ∧
    w.va.toNat / 4096 ≠ (0x60000000 : Word).toNat / 4096 ∧
    (let t : State := { State.reset with dies := [(0, { records := [aRecord 1], ftail := 16, faultWaits := [w] })] }
     ((t.die 0).ftail - fhead (t.die 0)).toNat ≠ 2 ^ (t.die 0).fsize) := by decide +kernel

/-- Die 0 with record 0, and everything that waits for it. -/
def suspended : State := { recorded [aRecord 0] 1 with
  ctxs := [(0, { reqs := [request (.read 8) 0x40000000 (.reg 3 8 true) (.suspended 0 0) 0] }), (8, { status := .stopped, fetchStop := some (0, 0) })]
  queues := [(0, { chains := [{ aChain with wait := .suspended 0 0 }] })] }

theorem test_answers : aRecord 0 ∈ (suspended.die 0).records ∧ ((0 : Half) - BitVec.ofNat 32 (aRecord 0).num).toNat < 2 ^ 31 ∧
    ¬ ((0 : Half) - BitVec.ofNat 32 (aRecord 1).num).toNat < 2 ^ 31 ∧ (suspended.ctx 8).fetchStop = some (0, 0) ∧
    request (.read 8) 0x40000000 (.reg 3 8 true) (.suspended 0 0) 0 ∈ (suspended.ctx 0).reqs ∧ (suspended.ctx 0).fetchStop ≠ some (0, 1) := by decide +kernel

theorem test_replays : Runs (.replay 3 4) inside ∧ Runs (.replayFail 3 4) inside ∧ wf (rdS inside 3) 9 0 = 0 ∧ (rdS inside 4).truncate 32 = (0 : Half) ∧
    ∀ k, (inside.ctx k).fetchStop ≠ some (0, 0) := by
  refine ⟨⟨rfl, .inl rfl⟩, ⟨rfl, .inl rfl⟩, by decide, by decide, fun k => ?_⟩
  rw [show inside.ctx k = look {} inside.ctxs k from rfl]
  simp only [inside, one, look]
  split <;> simp

theorem test_invalidations : (let s : State := { State.reset with dies := [(0, { invals := [⟨1, 0, 4096, false⟩] })] }
    (s.die 0).invals = (⟨1, 0, 4096, false⟩ : Inval) :: []) ∧ (State.reset.die 0).invals = [] ∧ (0x58 : BitVec 8) ∉ [(0x30 : BitVec 8), 0x38] := by decide +kernel

/-! ## Witnesses: launches -/

/-- The words of a record: one member on one core at user level with all tiles (R318, R320). -/
def recordWords : Nat := 0x100000 + 0x0000001100000001 * 2 ^ 128 + 0x800 * 2 ^ 640 + 1 * 2 ^ 1984

/-- Queue 0 of package 0, enabled, of 2^4 entries, asid 1, with a record at its front. -/
def queueState (head tail : Half) (front : Option Nat) : State :=
  { loadedTables (loadedDie State.reset) with
    qcbs := [(0, { base := 0x100000, ctl := BitVec.ofNat 64 (1 + 1 * 2 ^ 20 + 4 * 2 ^ 36), head := head, tail := tail, front := front, dep0 := true, dep1 := true })] }

theorem test_queues : ((5 : Half) - ((queueState 5 5 none).qcb 0).head).toNat ≤ 2 ^ wf ((queueState 5 5 none).qcb 0).ctl 39 36 ∧
    2 ^ wf ((queueState 5 5 none).qcb 0).ctl 39 36 < ((22 : Half) - ((queueState 5 5 none).qcb 0).head).toNat ∧
    ((queueState 5 5 none).qcb 0).head = ((queueState 5 5 none).qcb 0).tail ∧ ((queueState 5 6 none).qcb 0).ctl.getLsbD 0 = true ∧
    ((queueState 5 6 none).qcb 0).front = none ∧ ((queueState 5 6 none).qcb 0).head ≠ ((queueState 5 6 none).qcb 0).tail ∧
    (let s := queueState 5 6 none
     let r := quietRead ⟨0, 5, 1, 0, 1, false, false⟩ (0x100000 + BitVec.ofNat 64 (256 * (5 % 2 ^ 4))) 256 s
     let e := quietRead ⟨0, 5, 1, 0, 0, false, false⟩ 0x100000 256 s
     (match r.1 with | .ok v => v == 0 | .error _ => false) = true ∧ r.2.qcb 0 = s.qcb 0 ∧ (match e.1 with | .error .fails => true | _ => false) = true ∧ e.2.qcb 0 = s.qcb 0 ∧ e.2.launches = s.launches) ∧
    max 1 (wf (0 : Word) 39 36) = 1 := by decide +kernel

/-- It stands in the ring. -/
theorem test_recordRead : let s := queueState 5 6 none
    let s : State := { s with hbm := writeN s.hbm (hkey 0 0x100500) 256 recordWords }
    let r := quietRead ⟨0, 5, 1, 0, 1, false, false⟩ (0x100000 + BitVec.ofNat 64 (256 * (5 % 2 ^ 4))) 256 s
    (match r.1 with | .ok v => v == recordWords | .error _ => false) = true ∧ r.2.qcb 0 = s.qcb 0 ∧
    ∀ b, recordSub 1 b (Vector.ofFn fun i : Fin 32 => BitVec.ofNat 64 (recordWords / 2 ^ (64 * i.val))) = none := by decide +kernel

/-- Records of which no row, row 1, row 3 and row 4 of the table refuses. -/
theorem test_recordRows : ∀ b, recordSub 1 b (vset loadedRecord 1 0) = none ∧ recordSub 1 b (vset loadedRecord 2 0) = some 1 ∧
    recordSub 1 b (vset loadedRecord 0 0x100004) = some 3 ∧ recordSub 1 b (vset loadedRecord 28 (BitVec.ofNat 64 (2 ^ 62 + 1))) = some 4 := by
  decide +kernel

/-- Launch 1 waits for a dependence at VA 0x100000, which holds 0. -/
def dependent : Launch := { aLaunch with
  phase := .waiting, asid := 1, w := vset (vset (Vector.replicate 32 0) 1 0x40000) 23 0x100000 }

/-- It is at the front of queue 0, whose second dependence is met. -/
def waitingRecord (dep0 : Bool) : State :=
  { queueState 1 1 (some 1) with
    launches := [(1, dependent)]
    qcbs := [(0, { front := some 1, dep0 := dep0, dep1 := true })] }

theorem test_dependences : ((waitingRecord true).qcb 0).front = some 1 ∧ find? (waitingRecord true).launches 1 = some dependent ∧ dependent.phase = .waiting ∧
    ((waitingRecord true).qcb 0).dep0 = true ∧ ((waitingRecord true).qcb 0).dep1 = true ∧ ((waitingRecord false).qcb 0).dep0 = false ∧
    testsNow ((waitingRecord false).qcb 0) dependent false = false ∧ testsNow { (waitingRecord false).qcb 0 with test0 := true } dependent false = true ∧
    dependent.io = .issued ∧ (allRegistered (waitingRecord false)).any (fun r => r.who == .dep 0 0 false) = false ∧
    holeTrap (waitingRecord false) (dependent.w.get 23) = none ∧ isLocal (dependent.w.get 23) = false ∧
    (match (globalAccess ⟨0, 5, 0, 2, 1, false, false⟩ (dependent.w.get 23) (.waitw (dependent.w.get 24) 0) (.dep 0 0 false)
      (waitingRecord false)) with
      | (.done a v f, u) => a == 0 && v == 0 && f == 0 && u.qcb 0 == (waitingRecord false).qcb 0 && find? u.launches 1 == some dependent
      | _ => false) = true := by decide +kernel

/-- An eligible launch of one member in one pavilion of a die. -/
def eligible : Launch := { loadedLaunch 0 with
  phase := .eligible, members := [], cores := [], w := vset (vset loadedRecord 1 0) 2 0x3500000001 }

/-- The dispatcher of package 0 with it, chosen, having waited from dial time 0. -/
def dispatching (cycle : Nat) (chosen : Option Nat) : State := { State.reset with
  cycle := cycle, launches := [(1, eligible)], pkgs := [(0, { chosen := chosen })] }

theorem test_dispatch : waitingOn (dispatching 0 none) 0 = [(1, eligible)] ∧ (∀ p ∈ (dispatching 0 none).launches, launchOver (dispatching 0 none) p.1 = false) ∧
    (∀ b, recordSub 1 b eligible.w = none) ∧ eligible.waits + 2000000 ≤ dial (dispatching 6000000 none) (4 * 0) ∧
    dial (dispatching 5999999 none) (4 * 0) < eligible.waits + 2000000 := by decide +kernel

/-- Launch 2, of higher priority, has a reservation on package 0. -/
def reserving : State := { dispatching 0 none with
  launches := [(1, eligible), (2, { eligible with pkg := 1, prio := 9 })], pkgs := [(0, { reserved := [2] })] }

theorem test_reserved : 2 ∈ (reserving.pkg 0).reserved ∧ find? reserving.launches 2 = some { eligible with pkg := 1, prio := 9 } ∧ eligible.prio ≤ 9 ∧
    (placementOf reserving 1 eligible []).isSome = true ∧ eligible.phase ≠ .saved ∧
    couldUse reserving { eligible with pkg := 1, prio := 9 } 0 = false := by decide +kernel

theorem test_placement : find? (dispatching 0 (some 1)).launches 1 = some eligible ∧ eligible.phase = .eligible ∧ ((dispatching 0 (some 1)).pkg 0).chosen = some 1 ∧
    (match placementOf (dispatching 0 (some 1)) 1 eligible [] with | some p => p.members == [0] && decide (p.members.Nodup) | none => false) = true ∧
    wf (eligible.w.get 31) 23 16 = 0 ∧ ((dispatching 0 none).pkg 0).chosen ≠ some 1 := by decide +kernel

/-- A launch that has been placed, with START n, and one that has started. -/
def placedState (start : Word) (phase : Phase) (cycle : Nat) : State := { one plainCtx with
  cycle := cycle, launches := [(1, { aLaunch with phase := phase, w := vset (Vector.replicate 32 0) 21 start })] }

theorem test_starts : ((placedState 10 .placed 30).launches.map (·.2.phase)) = [.placed] ∧ (10 : Word).toNat ≤ dial (placedState 10 .placed 30) 0 ∧
    dial (placedState 10 .placed 29) 0 < (10 : Word).toNat ∧ aLaunch.classed = false ∧ aLaunch.startedAt + 50000 ≤ dial (placedState 0 .started 150000) 0 ∧
    ((placedState 10 .placed 30).ctx 0).left = .no := by decide +kernel

/-- Launch 1 of priority 0 holds core 0; launch 2 of priority 200 wants a whole die, and only die 0 stands. -/
def preempting : State :=
  { State.reset with
    dies := [(1, { failed := true }), (2, { failed := true }), (3, { failed := true })], cores := [(0, { launch := some 1 })]
    launches := [(1, loadedLaunch 0), (2, { eligible with prio := 200, queue := 1, addr := 256, w := vset eligible.w 2 0x3E00000001 })] }

theorem test_preempt : (∀ p ∈ preempting.launches, p.2.pkg = 0 → p.2.stopping = false) ∧ (waitingOn preempting 0).map (·.1) = [2] ∧
    candidates preempting (preempting.launches.getD 1 (0, loadedLaunch 0)).2 = [(1, loadedLaunch 0)] ∧ shares preempting 1 = [(1, loadedLaunch 0)] ∧
    (let l := (preempting.launches.getD 1 (0, loadedLaunch 0)).2
     placementOf preempting 2 l [] = none ∧ placementOf preempting 2 l [1] ≠ none) ∧ (loadedLaunch 0).phase = .started := by decide +kernel

theorem test_saves :
    let s : State := { State.reset with
      ctxs := [(0, { status := .stopped, launch := some 1 })], cores := [(0, { launch := some 1 })]
      launches := [(1, { loadedLaunch 0 with stopping := true })] }
    (s.launches.find? (fun p => p.2.pkg == 0 && p.2.stopping && drained s p.2) = some (1, { loadedLaunch 0 with stopping := true })) := by decide +kernel

/-- A saved image of one context and one byte. -/
def anImage : Saved := ⟨[(0, plainCtx)], [], [], [(5, 9)], [], [], []⟩

theorem test_restores :
    let l : Launch := { loadedLaunch 0 with phase := .saved, saved := some anImage, cores := [0] }
    let s : State := { State.reset with launches := [(1, l)], pkgs := [(0, { chosen := some 1 })] }
    l.saved = some anImage ∧ (s.pkg l.pkg).chosen = some 1 ∧ placementOf s 1 l [] ≠ none ∧ (anImage.ctxs.map (·.1)).Nodup ∧ (anImage.bytes.map (·.1)).Nodup ∧
    (loadedLaunch 0).saved = none := by decide +kernel

/-- Launch 1 on core 0, whose member has left or not. -/
def coreLeft (left : Left) (reqs : List Req) : State := { one { status := .idle, launch := some 1, left := left, reqs := reqs } with
  cores := [(0, { launch := some 1 })], launches := [(1, aLaunch)] }

theorem test_releases : (coreLeft .exited []).launches = [(1, aLaunch)] ∧ aLaunch.phase = .started ∧ aLaunch.w.get 27 = 0 ∧
    ((coreLeft .exited []).core 0).launch = some 1 ∧ instanceLeft (coreLeft .exited []) aLaunch 0 = true ∧ (∀ p ∈ (coreLeft .exited []).queues, p.2.chains = []) ∧
    openReqs (coreLeft .exited []) 0 = false ∧ recordOwed (coreLeft .exited []) 0 = false ∧ allRegistered (coreLeft .no []) = [] ∧ opOn (coreLeft .exited []) 0 = false ∧
    openReqs (coreLeft .exited [globalRead8]) 0 = true ∧ instanceLeft (coreLeft .exited [globalRead8]) aLaunch 0 = true ∧
    aLaunch.here = [0] ∧ ((coreLeft .no []).ctx 0).left = .no ∧ ((coreLeft .no []).ctx 0).launch = some 1 ∧ departs 0 (coreLeft .no []) = false := by decide +kernel

/-! ## Witnesses: the host, dials, the fabric, reliability -/

theorem test_hostAccesses : 2 ^ 34 ≤ 2 ^ 34 ∧ 4 * State.reset.domain ≤ 4 ∧ 2 ^ 34 - 8 < 2 ^ 34 ∧ 3 < 4 * State.reset.domain ∧
    (∀ h ∈ loadedNop.hostReqs, h.acc ≠ .read 0 0x100000 .d) ∧
    (match (globalAccess ⟨0, 5, 0, 0, 1, false, true⟩ 0x100000 (.read 8) (.queue 0) loadedNop).1 with | .done a _ f => a == 0 && f == 0 | _ => false) = true ∧
    (match (globalAccess ⟨0, 5, 0, 0, 1, false, true⟩ 0x100000 (.write 8 5) (.queue 0) loadedNop).1 with | .done a _ f => a == 0 && f == 0 | _ => false) = true ∧
    (match (globalAccess ⟨0, 5, 0, 0, 2, false, true⟩ 0x100000 (.read 8) (.queue 0) loadedNop).1 with | .fault d n => d == 0 && n == 0 | _ => false) = true := by
  decide +kernel

theorem test_dials : (∀ d, d < 4 * State.reset.domain → (State.reset.die d).epochSet = false ∧ dial State.reset d ≤ (0 : Word).toNat) ∧
    (let s : State := { State.reset with dies := [(3, { epochSet := true })], cycle := 30 }
     (3 < 4 * s.domain ∧ (s.die 3).epochSet = true) ∧ (9 : Word).toNat < dial s 0) ∧ State.reset.grandmaster = some 0 ∧ 0 ≠ 1 ∧ (State.reset.pkg 1).lost = false ∧
    0 ≤ (State.reset.die 0).dialBase ∧ (State.reset.die 0).dialBase.toNat + State.reset.cycle + 3000 < 2 ^ 62 ∧ State.reset.grandmaster ≠ some 1 := by decide +kernel

theorem test_takeover : let s : State := { State.reset with grandmaster := none, domain := 2, pkgs := [(0, { lost := true })] }
    s.grandmaster = none ∧ 1 < s.domain ∧ (s.pkg 1).lost = false ∧ ∀ p, p < 1 → (s.pkg p).lost = true := by decide +kernel

theorem test_links : (17 < 18) ∧ (look {} (State.reset.pkg 0).links 17).down = false := by decide +kernel

/-- A relaxed RED to die 4's offset 0 by context 0, in window 0 of tenant 7. -/
def aRed (st : ReqState) : Req := request (.rmw 8 (.red .add 5)) (BitVec.ofNat 64 (4 * 2 ^ 47)) .none st 0

/-- A merge entry at that address. -/
def aMerge (sent : Option (BitVec 5 × Bool)) : Merge := ⟨1, BitVec.ofNat 64 (4 * 2 ^ 47), .add, 8, [(0, 1)], false, 0, sent⟩

/-- The switches with that window, the page eligible or not, and merge entries. -/
def merging (unsealed : List (Nat × Nat)) (m : List Merge) (st : ReqState) : State := { one { reqs := [aRed st] } with
  domain := 2, cores := [(0, { tenant := some 7 })], unsealed := unsealed, merges := m
  windows := State.reset.windows.set 0 (BitVec.ofNat 64 (2 ^ 63 + 4 * 2 ^ 47), BitVec.ofNat 64 (7 * 2 ^ 48 + 1)) }

theorem test_merges :
    (let s := merging [] [] .issued
     (s.ctx 0).reqs[0]? = some (aRed .issued) ∧ (aRed .issued).dest = .none ∧ (aRed .issued).ord.acq = false ∧ (aRed .issued).ord.rel = false ∧
     windowOf s (aRed .issued).addr = some 0 ∧ isLocal (aRed .issued).addr = false ∧ mayPerform s 0 (aRed .issued) = true ∧
     0 / 8 / 4096 ≠ wf (aRed .issued).addr 56 47 / 4 ∧ noPath s (0 / 8) (wf (aRed .issued).addr 56 47) = false ∧
     (s.core (0 / 8)).tenant = some ((s.windows.toList.getD 0 (0, 0)).2.extractLsb' 48 16) ∧ s.unsealed.contains (0, (aRed .issued).addr.toNat / 4096) = false) ∧
    (merging [(0, 4 * 2 ^ 35)] [aMerge none] .issued).unsealed.contains (0, (aRed .issued).addr.toNat / 4096) = true ∧
    (merging [(0, 4 * 2 ^ 35)] [aMerge none] .issued).merges = [aMerge none] ∧ (aMerge none).sent = none ∧ (aMerge none).alone = false ∧
    (aMerge none).addr = (aRed .issued).addr ∧ (merging [(0, 4 * 2 ^ 35)] [] .issued).merges = [] ∧
    ((merging [] [aMerge (some (0, true))] .merging).ctx 0).reqs = [aRed .merging] ∧ (aRed .merging).seq = 1 ∧
    windowOf (merging [] [aMerge (some (0, true))] .merging) (aMerge none).addr = some 0 := by decide +kernel

/-- Die 4 maps that offset for address space 1. -/
def flushing : State := { merging [] [aMerge none] .merging with
  dies := [(4, { root := 0x1000 })]
  ctxs := [(0, { reqs := [aRed .merging], asid := 1 })]
  hbm := writeN (writeN (writeN [] (hkey 4 0x1008) 8 0x2000) (hkey 4 0x2000) 8 (tableAt 3)) (hkey 4 0x3000) 8 0x3F }

/-- The update of one contributor, and then of another. -/
theorem test_flush : (match globalAccess (agentOf flushing 0 false) (aRed .merging).addr (aRed .merging).acc (.ctx 0 1) flushing with
    | (.done a _ _, u) => a == 0 && u.merges == flushing.merges && (u.ctx 0).reqs.find? (fun z => z.seq = 1) == some (aRed .merging) &&
      (match globalAccess (agentOf u 0 false) (aRed .merging).addr (aRed .merging).acc (.ctx 0 1) u with
        | (.done b _ _, w) => b == 0 && w.merges == u.merges | _ => false)
    | _ => false) = true := by decide +kernel

theorem test_reliability : (State.reset.pkg 0).bootStopped = false ∧ (.row 0 5 1 : EccUnit) ∈ [.bankRead 0 8, .hbmRead 0 64, .row 0 5 1, .reg 0 3, .cond 0 2] ∧ (State.reset.core 0).launch = none ∧ (State.reset.die 0).frozen = false ∧
    (State.reset.die 0).latentNow = 0 ∧
    (let s : State := { State.reset with dies := [(0, { frozen := true })] }
     (s.die 0).frozen = true) ∧
    (let s : State := { State.reset with pkgs := [(0, { dutyAt := 1 })] }
     s.cycle < (s.pkg 0).dutyAt) ∧
    ((State.reset.pkg 0).dutyAt ≤ State.reset.cycle ∧ min (State.reset.pkg 0).pcap 2400 - (State.reset.pkg 0).thermalCap < 2401 ∧ 16 < dutyOf (State.reset.pkg 0) 0 7) ∧
    (let x : Pkg := { duty := [(7, 16), (2 * 2 ^ 24 + 1, 17)] }
     dutyOf x 0 7 ≤ 16 ∧ 16 < dutyOf x 2 1 ∧ dutyOf x 2 1 < 256 ∧ dutyOf x 3 1 = 256 ∧ (x.duty.map (·.1)).Nodup ∧
     ∀ p ∈ x.duty, p.1 < 4 * 2 ^ 24 ∧ p.2 < 256) ∧
    950 ≤ 950 ∧ 950 < 951 ∧ 1100 ≤ 1100 ∧ 1099 < 1100 := by decide +kernel

/-- Two events of one cycle, the one of the dispatcher (unit 6) entered first: SEQ follows UNIT (R411). -/
theorem test_eventOrder : (((latent 0 0x02 0 5 9 0 (latent 0 0x05 6 0 8 0 State.reset)).die 0).latent.map fun e => (e.unit, e.arg0, e.seq)) =
    [(6, 8, 1), (0, 9, 0)] ∧ ((latent 0 0x05 6 0 8 0 (latent 0 0x02 0 5 9 0 State.reset)).die 0).latent.map (fun e => (e.unit, e.arg0, e.seq)) =
    [(6, 8, 1), (0, 9, 0)] := by decide +kernel

theorem test_losses : (State.reset.die 0).failed = false ∧ (State.reset.die 0).records = [] ∧ (State.reset.die 0).faultWaits = [] ∧ (State.reset.die 0).waiters = [] ∧ State.reset.launches = [] ∧
    (coreLeft .no []).launches = [(1, aLaunch)] ∧ aLaunch.here = [0] ∧ 0 / 8 / 1024 = 0 ∧ ((coreLeft .no []).die 0).failed = false ∧
    (State.reset.pkg 0).lost = false ∧ ∀ d, d < 4 → (State.reset.die d).waiters = [] := by decide +kernel

/-! ## Witnesses: structures in banks, pairs, arcades -/

/-- Bank 0 of core 0 with a descriptor and bytes of its image. -/
def imaged (desc : Word) (bytes : List Host.Cell) : State := { State.reset with
  banks := [(0, { desc := desc })], bankMem := bytes }

/-- A QUEUE of 8-bit elements, CAP 4, whose slots 3 and 0 hold 9 and 7; a full STACK of 16-bit elements, CAP 3: 7, 300, 5; a MAP
with 6 under key 2; a HEAP with priority 1, stamp 4 and value 8; a HIST of 2 bins. -/
def aQueue : State := imaged 0x21 [(0, 3), (4, 1), (8, 2), (64, 7), (67, 9)]
def aStack : State := imaged 0x1001A [(8, 3), (64, 7), (66, 44), (67, 1), (68, 5)]
def aMap : State := imaged 0xF0023 [(8, 1), (64, 2), (72, 6)]
def aHeap : State := imaged 0x30024 [(8, 1), (16, 5), (64, 1), (68, 4), (72, 8)]
def aHist : State := imaged 0x120005 [(64, 3)]

theorem test_images :
    (∀ s ∈ [imaged 0x21 [], aQueue, imaged 0x1001A [], aStack, imaged 0xF0023 [], aMap, imaged 0x30024 [], aHeap, aHist], ImageBank s 0) ∧
    [aQueue, aStack, aMap, aHeap, aHist].map (fun s => kindOf (descOf s 0)) = [1, 2, 3, 4, 5] := by
  unfold ImageBank
  decide +kernel

theorem test_ports : elems (imaged 0x21 []) 0 = [] ∧ hdCount aQueue 0 < capOf (descOf aQueue 0) ∧ elems aQueue 0 = [9, 7] ∧
    hdCount aStack 0 = capOf (descOf aStack 0) ∧ elems aStack 0 = [5, 300, 7] ∧ findKey (imaged 0xF0023 []) 0 2 = none ∧
    findKey aMap 0 2 = some 0 ∧ bankRead aMap 72 8 = 6 ∧ hdCount aMap 0 < capOf (descOf aMap 0) ∧ entries aHeap 0 = [heapEntry 1 4 8] ∧
    hdStamp aHeap 0 < 2 ^ 32 - 1 ∧ hdCount (imaged 0x30024 []) 0 = 0 ∧ bmaskOf (descOf aHist 0) = 1 ∧
    portAt (descOf aQueue 0) (wf (bankBase 0) 12 0) (portKind false {} (.write 1 8)) true = some .put ∧
    (portOp 0 .take 0 aQueue).1 = ansOk 9 ∧ (portOp 0 .put 6 aStack).1 = ansFull := by decide +kernel

/-- R160's example: a STACK of 7, 300 and 5 of 16 bits becomes a QUEUE of 8-bit elements, CAP 4. -/
theorem test_convert : ImageBank aStack 0 ∧ descValid 0x21 0 = true ∧
    (convertBank 0 0x21 aStack).1 = 0x0000000200000001 ∧ elems (convertBank 0 0x21 aStack).2 0 = [5, 7] := by
  unfold ImageBank
  decide +kernel

/-- Banks 0 and 1 of core 0 an EXCH pair with POL CLEAR, its front the odd one; a byte in each. -/
def aPair : State := { imaged 6 [(0, 1), (8192, 2)] with
  banks := [(0, { desc := 6, flipped := true })] }

theorem test_pairs : kindOf (descOf aPair 0) = 6 ∧ (aPair.bank 0).closing = none ∧ (aPair.bank 0).badDesc = false ∧ aPair.bankPoison = [] ∧
    oddOfPair aPair 0 = false ∧ localKey 0 (bankBase 0) / 8192 = 0 ∧ wf (bankBase 0) 12 0 + 1 ≤ 8192 ∧ oddOfPair aPair 1 = true ∧
    localKey 0 (bankBase 1) / 8192 = 1 ∧ (descOf aPair 0).getLsbD 37 = false ∧ readByte (swapPair 0 aPair).bankMem 8192 = 0 := by decide +kernel

/-- Context 0's ARCADE reads the list of banks 1 and 2 at the end of bank 15 in its slot. -/
def listing : State := { inSlot0 { reqs := [request (.read 2) 0xFC0000000001FFFE (.reg 4 8 true) .issued 1] } with
  cores := [(0, { tenant := some 5 })]
  arcades := [{ ctx := 0, d := 4, code := 0, named := [1, 2], due := 8, list := some 1 }]
  banks := [(1, { closing := some (.arcade 0) }), (2, { closing := some (.arcade 0) })], bankMem := [(131070, 1), (131071, 2)] }

theorem test_listRead : let r := request (.read 2) 0xFC0000000001FFFE (.reg 4 8 true) .issued 1
    let op : ArcadeOp := { ctx := 0, d := 4, code := 0, named := [1, 2], due := 8, list := some 1 }
    localKey 0 r.addr / 8192 = 15 ∧ (listing.ctx 0).reqs.find? (fun x => x.seq = r.seq) = some r ∧ listFor listing 0 r = some op ∧
    chosenAt listing 15 = some ⟨15, .own, 0, 0, 0, 1, false, .ctx 0 1 0⟩ ∧ banksIn 0 2 (readN listing.bankMem 131070 2) = [1, 2] ∧
    ownListed listing 0 [1, 2] = [1, 2] ∧ composeCode (reopen [1, 2] listing) 0 2 [1, 2] = 0 ∧
    ((reopen [1, 2] listing).bank 1).closing = none ∧ (listing.bank 15).closing = none := by decide +kernel

theorem test_listIssue : Runs (.arcade 3 4 5) inside ∧ Runs (.arcadeDis 3 4) inside ∧ listFor (inSlot0 { reqs := [bankRead8] }) 0 bankRead8 = none ∧
    csrWritable 0x28 ∧ csrWritable 0x200 := ⟨⟨rfl, .inl rfl⟩, ⟨rfl, .inl rfl⟩, by decide, .inl (by decide), .inr (.inr (by decide))⟩

/-! ## Witnesses: rounds that are open, operations of several members -/

/-- Context 0 inside a bundle, a round of its group open. -/
def joiningRound : State := { inside with
  rounds := [⟨groupOf inside (launchOf inside 0), .bay, 0, [adds 8 .sum64], 12⟩] }

theorem test_roundJoined : Runs (.nred 3 4 0 .bay .sum64) joiningRound ∧ joiningRound.rounds = [⟨groupOf joiningRound (launchOf joiningRound 0), .bay,
    domInst .bay (coreOf 0), [adds 8 .sum64], 12⟩] := ⟨⟨rfl, .inl rfl⟩, rfl⟩

/-- Two members' entries of MERGEK: keys 2.0 and 1.0, and 2.0 again with a lower index; their other keys are 0.0. -/
def entryRow (l : List Nat) : RowData := rowOf 64 16 fun i => l.getD i ((16 + i) * 2 ^ 32)
def mergesA : Contribution := ⟨0, .sum64, true, 0, 0, entryRow [0x740000000, 0x93F800000], .row 3⟩
def mergesB : Contribution := ⟨8, .sum64, true, 0, 0, entryRow [0x540000000], .row 5⟩

theorem test_mergesAll : (∀ q ∈ [mergesA, mergesB], q.merge = true) ∧ mergesA.dest = .row 3 ∧ ([mergesA, mergesB].map (·.ctx)).Nodup :=
  ⟨fun q h => by simp only [List.mem_cons, List.not_mem_nil, or_false] at h; obtain rfl | rfl := h <;> rfl, rfl, by decide⟩

theorem test_mergeRows : ((upTo 4).map fun i => lane 64 (mergeRows [mergesA.row, mergesB.row]) i / 2 ^ 32) = [5, 7, 9, 17] := by decide +kernel

/-- An operation of cores 0 and 1 of cell 0, K = 32, each with one column. -/
def pairedOp : MatOp :=
  let b := { arrivalOf tileA with core := 1, by_ := .ctx 8 0, gmask := 3 }
  { members := [{ arrivalOf tileA with gmask := 3 }, b], leader := { arrivalOf tileA with gmask := 3 }, next := 0, blocks := 1, due := 8, state := .issued }

/-- The two cores and their cell running it. -/
def pairRuns : State := { ganging 3 none with
  cycle := 8, cores := [(0, { tenant := some 5, quarter := { holder := some 0, m := 1, n := 1 } }), (1, { tenant := some 5, quarter := { holder := some 8, m := 1, n := 1 } })]
  ctxs := [(0, { status := .running, mode := 0x40, tcount := 16 }), (8, { status := .running, mode := 0x40, tcount := 16 })]
  cells := [(0, { ops := [pairedOp] })], view := none }

theorem test_pairBlock : (pairRuns.cell 0).ops = [pairedOp] ∧ pairedOp.leader.core / 4 = 0 ∧ (pairedOp.members.map (·.core)).Nodup ∧
    (∀ a ∈ pairedOp.members, (quarterOf pairRuns a.core).leaving = false) ∧ blockTrap pairRuns pairedOp = none ∧ membersDone pairRuns pairedOp = true ∧
    mayStart pairRuns (pkgOf 0) 1 0 = true ∧ localNeeds pairRuns pairedOp = [] ∧ tilePoison pairRuns 0 tileA = none ∧
    (∀ a ∈ pairedOp.members, tilePoison pairRuns (arrivalCtx pairRuns a) a.db = none) ∧ (fetchGlobal pairRuns pairedOp).1.1 = none ∧
    quarterOf (fetchGlobal pairRuns pairedOp).2 1 = quarterOf pairRuns 1 := by decide +kernel

/-- One product, 3 x 5, of 8-bit elements with 6 fraction bits each: 15 x 2^-12. -/
theorem test_product :
    let s : State := { pairRuns with
      cores := [(0, { tenant := some 5, rows := [(0, { data := 3 }), (16, { data := 5 })], quarter := { holder := some 0, m := 1, n := 1 } })] }
    let o : MatOp := { matOpOf tileA .issued with members := [arrivalOf tileA] }
    formRow s 0 tileA.1 0 = some 0 ∧ formRow s 0 tileB.1 0 = some 16 ∧
    (accumulate s o 0 [] 0 (arrivalOf tileA) (quarterOf s 0)).word 0 = 0x3B700000 := by decide +kernel

/-! ## Witnesses: lanes, rounding, returns -/

theorem test_laneTypes : LaneType.f32b.bounded = true ∧ LaneType.bf16b.bounded = true ∧ laneFmt .f32b = some fp32 ∧ laneFmt .bf16b = some bf16 ∧
    LaneType.i8.bounded = false ∧ LaneType.f16.bounded = false := by decide

/-- 2^128 - 2^103 ties to even at the top of FP32's range and overflows; 2^-127 is a subnormal that FTZ flushes. -/
theorem test_roundingEdges : (round fp32 .rne false false (2 ^ 25 - 1) 103).bits = 0x7F800000 ∧ (round fp32 .rtz false false (2 ^ 25 - 1) 103).bits = 0x7F7FFFFF ∧
    (round fp32 .rdn false true (2 ^ 25 - 1) 103).bits = 0xFF800000 ∧ (round fp32 .rne true true 1 (-127)).bits = 0x80000000 ∧
    (round fp32 .rne false false 1 (-127)).bits = 0x00400000 := by decide +kernel

/-- A context that fetches at its handler again is STOPPED no longer after ERET.TO. -/
theorem test_returnTo : let s : State := { handling 0x20 0 with ctxs := [(0, { status := .stopped, mode := 0x40, h := true, xcause := 0x20 })] }
    Runs (.eretTo 3) s ∧ (s.ctx 0).status = .stopped ∧ (match exec (.eretTo 3) s with | .next t => (t.ctx 0).status == .running | _ => false) = true :=
  ⟨⟨rfl, .inl rfl⟩, by decide, by decide +kernel⟩

/-! ## Witnesses: paths, dials, boot -/

/-- The dispatcher's read of die 1, which has failed, and a host access there: no live path. -/
theorem test_noPathYet : let s : State := { queueState 5 6 none with
      dies := [(1, { failed := true })], pkgs := [(0, { apDie := 1, apAsid := 1 })] }
    noPath s 0 1 = true ∧ (s.pkg 0).apDie.toNat < 4 * s.domain ∧
    (match (quietRead ⟨0, 5, 1, 0, 1, false, false⟩ (BitVec.ofNat 64 (2 ^ 47)) 256 s).1 with | .error .waits => true | _ => false) = true ∧
    (∀ h ∈ s.hostReqs, h.acc ≠ .read 0 0x100000 .d) := by decide +kernel

/-- Package 1, whose epoch is set as the grandmaster's is, exchanges timing in this cycle, and in 1 ms again. -/
theorem test_syncs : let s : State := { State.reset with domain := 2, dies := [(0, { epochSet := true }), (4, { epochSet := true })] }
    syncDue s 1 = some 0 ∧ syncDue s 0 = none ∧ syncDue { s with pkgs := [(1, { syncAt := 3000000 })] } 1 = none := by decide +kernel

theorem test_selfTests : (State.reset.pkg (pkgOf 0)).booted = false ∧ (State.reset.core 0).tested = false ∧
    ({ State.reset with pkgs := [(0, { booted := true })] } : State).pkg (pkgOf 0) = { booted := true } ∧
    (match exec (.bootSelfTest 0 ⟨2, []⟩ false) State.reset with | .next t => (t.core 0).ntile == 12 | _ => false) = true := by decide +kernel

/-- A path that was lost and one that was found again. -/
theorem test_pathFound : ((pathless 0).ctx 0).reqs[0]? = some (request (.read 8) (BitVec.ofNat 64 (2 ^ 47)) (.reg 3 8 true) .issued 0) ∧
    (request (.read 8) (BitVec.ofNat 64 (2 ^ 47)) (.reg 3 8 true) .issued 0).lostAt = none ∧
    noPath { pathless 0 with dies := [] } (coreOf 0) (vaDie (BitVec.ofNat 64 (2 ^ 47))) = false := by decide +kernel

end Sys2Proof.Tests
end

section
/-! PROOFS. Reset and reading back: what stands after reset, and what registers and memories read after a write. -/

namespace Sys2Proof.Machine

/-! ## Reset -/

/-- A context of reset has every scalar register 0. -/
theorem rd_initial (r : SReg) : ({} : Ctx).rd r = 0 := by
  simp [Ctx.rd, Vector.get]

/-- A context of reset has c0 alone set. -/
theorem rdC_initial (r : CReg) : ({} : Ctx).rdC r = (r == 0) := by simp [Ctx.rdC]

/-- No context is listed at reset. -/
theorem ctx_reset (k : Nat) : State.reset.ctx k = {} := rfl

/-- Settles O24: nothing is listed at reset, so each record is the one of its type's defaults. -/
theorem resetValues : Obligations.ResetValues := by
  refine ⟨fun k => ⟨rfl, rfl, rfl, rfl, fun r => ?_, fun r => ?_, rfl⟩, fun _ => ⟨rfl, rfl, rfl, rfl, rfl⟩, fun _ => ⟨rfl, rfl⟩,
    fun _ => ⟨rfl, rfl, rfl⟩, reset_memOk, rfl, fun k => ?_⟩
  · rw [ctx_reset, rd_initial]
  · rw [ctx_reset, rdC_initial]
  · exact ⟨rfl, rfl, rfl, rfl, rfl, rfl, rfl, rfl, rfl, rfl, rfl⟩

/-! ## Registers -/

/-- A fixed-latency result on its way changes no scalar register (R62). -/
theorem wrFixed_rd (n : Nat) (d r : SReg) (v : Word) (s : State) : ((wrFixed n d v s).ctx s.cur).rd r = (s.ctx s.cur).rd r := by
  simp only [wrFixed, ctx_modCtx_self]
  split
  · rfl
  · exact rd_congr (setPend_s _ _ _) r

/-- What a register reads after a latency-1 write: at once outside a closure, as before inside one (R11, R236). -/
theorem wrS_rd_running (d r : SReg) (v : Word) (s : State) :
    ((wrS d v s).ctx s.cur).rd r = if r = d ∧ d ≠ 0 ∧ (s.ctx s.cur).running = none then v else (s.ctx s.cur).rd r := by
  cases h : (s.ctx s.cur).running with
  | none => simp [wrS_rd d r v s h]
  | some cl => rw [wrS_closure (by simp [h]), wrFixed_rd]; simp

/-! ## Bytes of a frame, several at once (R4, R305) -/

/-- The number whose bytes are the base-256 digits of v is v, as far as they go. -/
theorem ofBytes_digits (n : Nat) : ∀ v : Nat, ofBytes ((upTo n).map fun i => v / 256 ^ i % 256) = v % 256 ^ n := by
  induction n with
  | zero => intro v; simp [upTo, ofBytes, Nat.mod_one]
  | succ n ih =>
    intro v
    have h := ih (v / 256)
    simp only [upTo, ofBytes, List.range_succ_eq_map, List.map_cons, List.map_map, List.foldr_cons] at h ⊢
    have e : ((fun i => v / 256 ^ i % 256) ∘ Nat.succ) = fun i => v / 256 / 256 ^ i % 256 := by
      funext i; simp [Nat.pow_succ', Nat.div_div_eq_div_mul]
    rw [e, h, pow_zero, Nat.div_one, Nat.pow_succ', Nat.mod_mul]

/-- n bytes read are put together from the single bytes (R4). -/
theorem readN_eq_ofBytes (m : List Host.Cell) (n : Nat) : ∀ a, readN m a n = ofBytes ((upTo n).map fun i => readN m (a + i) 1) := by
  induction n with
  | zero => intro a; rfl
  | succ n ih =>
    intro a
    have h := ih (a + 1)
    simp only [upTo, ofBytes, List.range_succ_eq_map, List.map_cons, List.map_map, List.foldr_cons] at h ⊢
    have e : ((fun i => readN m (a + i) 1) ∘ Nat.succ) = fun i => readN m (a + 1 + i) 1 := by
      funext i; simp only [Function.comp_apply]; congr 1; omega
    rw [e, ← h]
    simp [readN]

/-- The same of a frame, through any key or none (R305). -/
theorem frameRead_eq_ofBytes (s : State) (key : Option (BitVec 512)) (a n : Nat) :
    frameRead s key a n = ofBytes ((upTo n).map fun i => frameRead s key (a + i) 1) := by
  by_cases h : s.seals = [] ∧ key = none
  · simp only [frameRead, h, and_self, if_true]
    exact readN_eq_ofBytes _ _ _
  · simp only [frameRead_byte]
    rw [frameRead, if_neg h]
    rfl

/-- What was written under a key, or none, reads back under it, whatever the length (R305). -/
theorem frameRead_frameWrite_same (key : Option (BitVec 512)) (a n v : Nat) (s : State) :
    frameRead (frameWrite key a n v s) key a n = v % 256 ^ n := by
  rw [frameRead_eq_ofBytes, ← ofBytes_digits]
  congr 1
  refine List.map_congr_left fun i hi => ?_
  have : i < n := List.mem_range.mp hi
  rw [frameRead_frameWrite, if_pos (by omega), Nat.add_sub_cancel_left]

/-- Sealing a block anew changes the cells of HBM and the seals alone. -/
theorem reseal_eq (key : Option (BitVec 512)) (j : Nat) (s : State) :
    reseal key j s = { s with hbm := (reseal key j s).hbm, seals := (reseal key j s).seals } := by
  unfold reseal
  split <;> rfl

theorem resealAll_other (key : Option (BitVec 512)) (l : List Nat) : ∀ s : State,
    (l.foldl (fun s j => reseal key j s) s).bankMem = s.bankMem ∧ (l.foldl (fun s j => reseal key j s) s).hostMem = s.hostMem := by
  induction l with
  | nil => intro s; exact ⟨rfl, rfl⟩
  | cons j l ih =>
    intro s
    have h := ih (reseal key j s)
    rw [reseal_eq] at h
    rw [List.foldl_cons, reseal_eq]
    exact h

/-- A write to a frame touches no bank and no host memory. -/
theorem frameWrite_other (key : Option (BitVec 512)) (a n v : Nat) (s : State) :
    (frameWrite key a n v s).bankMem = s.bankMem ∧ (frameWrite key a n v s).hostMem = s.hostMem := by
  unfold frameWrite
  split
  · exact ⟨rfl, rfl⟩
  · exact resealAll_other key _ s

/-- A write of no byte leaves what every key reads. -/
theorem frameRead_frameWrite_zero (key key' : Option (BitVec 512)) (a v b m : Nat) (s : State) :
    frameRead (frameWrite key a 0 v s) key' b m = frameRead s key' b m := by
  have h : (frameWrite key a 0 v s).hbm = s.hbm ∧ (frameWrite key a 0 v s).seals = s.seals := by
    unfold frameWrite; rw [if_pos (.inr rfl)]; exact ⟨rfl, rfl⟩
  exact frameRead_congr h.1 h.2 key' b m

/-- Settles O7: registers by the rules of `wrS` and `wrC`, banks by `readN_writeN`, frames byte by byte under each key. -/
theorem stateReadsBack : Obligations.StateReadsBack := by
  refine ⟨fun s d r p q v b => ?_, fun s key n v => ?_, fun s cipher other a n v => ?_, fun s die pa n v => ?_⟩
  · exact ⟨wrS_only d v s, wrC_only p b s, rd_zero _, rdC_zero _, wrS_rd_running d r v s, wrC_rdC p q b s,
      fun x => wrS_rdC d v x s, fun x => wrC_rd p b x s⟩
  · exact ⟨readN_writeN n _ _ _, fun a ha => by rw [readByte_bankWrite, if_neg ha], rfl, rfl, rfl⟩
  · obtain ⟨hbank, hhost⟩ := frameWrite_other cipher a n v s
    refine ⟨frameRead_frameWrite_same cipher a n v s, fun x hx => by rw [frameRead_frameWrite, if_neg hx], fun x hx => ?_, hbank, hhost⟩
    rcases hx with rfl | hx
    · exact frameRead_frameWrite_zero cipher other a v x 1 s
    · exact frameRead_frameWrite_away cipher other a n v x s hx
  · exact frameRead_frameWrite_same none (hkey die pa) n v s

end Sys2Proof.Machine
end

section
/-! PROOFS. The scalar instructions: the judging of a bundle with nothing in flight (R28, R76), false guards (R70), and
fixed-latency results (R62 to R65). -/

namespace Sys2Proof.Machine

/-! ## A context with nothing in flight -/

section
variable {c : Ctx} (h : Quiet c)
include h

theorem Quiet.waits_eq_false (r : SReg) : c.waits r = false := by
  obtain ⟨hpend, htray, hlost, -⟩ := h
  simp [Ctx.waits, Ctx.pendingAll, Ctx.pending, hpend, htray, hlost]

theorem Quiet.behind_eq_nil (s : State) (k : Nat) (i : Instr) : behind s k c i = [] := by
  obtain ⟨-, htray, -⟩ := h
  simp [behind, behindAges, htray]

theorem Quiet.waitsFlush_eq_false (i : Instr) : waitsFlush c i = false := by
  obtain ⟨-, -, -, -, hreqs, hacks, -⟩ := h
  simp [waitsFlush, unflushed, hreqs, hacks]

theorem Quiet.waitsAcquire_eq_false (i : Instr) : waitsAcquire c i = false := by
  obtain ⟨-, -, -, -, hreqs, -⟩ := h
  simp [waitsAcquire, hreqs]

theorem Quiet.ctlPoison_eq_none (i : Instr) : ctlPoison c i = none := by
  obtain ⟨-, -, -, -, -, -, -, -, -, hbadC, hbadCtl⟩ := h
  simp [ctlPoison, hbadC, hbadCtl]

theorem Quiet.reportTrap_eq_none (i : Instr) : reportTrap c i = none := by
  obtain ⟨-, -, -, -, -, -, -, -, hfailure, -⟩ := h
  simp [reportTrap, hfailure]

theorem Quiet.stallTrap_eq_none (now : Nat) (i : Instr) : stallTrap now c i = none := by
  obtain ⟨-, -, -, hfixed, -⟩ := h
  unfold stallTrap
  split
  · simp [hfixed]
  · rfl

/-- A quiet context meets no poison in an instruction that reads no row. -/
theorem Quiet.poisonTrap_eq_none (s : State) (k : Nat) {i : Instr} (hr : (infoIn c i).rsrc = []) : poisonTrap s k c false i = none := by
  obtain ⟨-, -, -, -, -, -, -, hpoison, -⟩ := id h
  simp [poisonTrap, h.ctlPoison_eq_none, hr, keysOf, find?, hpoison]

end

/-! ## Instructions of registers alone -/

/-- NOP and the scalar instructions of slot B. -/
def registerForm (i : Instr) : Bool := fixedScalar i || lateScalar i || i == .nop

/-- The checks of issue that are about more than an instruction's scalar and condition registers do not concern it: it names
no row, pair, control register or memory, and needs no room. -/
structure ChecksRegistersOnly (s : State) (k : Nat) (c : Ctx) (i : Instr) : Prop where
  rsrc_nil : (infoIn c i).rsrc = []
  rdst_nil : (infoIn c i).rdst = []
  forms_nil : operandForms s k c i = []
  extra_nil : extraRows s k c i = []
  csrForm_none : csrForm i = none
  isPmov_false : isPmov i = false
  notInHandler_false : notInHandler i = false
  isRleave_false : isRleave i = false
  privTrap_none : privTrap s k c i = none
  staticTrap_none : staticTrap s k c i = none
  valueTrap_none : valueTrap s k c i = none
  otherTrap_eq : otherTrap s k c i = (poisonTrap s k c false i <|> reportTrap c i <|> none)
  structural_eq : structural s k c i = if waitsAcquire c i || waitsOperand s k c i || waitsCsr s k c i || waitsRoom s k i then some .reissue else none
  waitsRoom_false : waitsRoom s k i = false
  holds_false : holds s k c i = false

theorem checks_of_registerForm {i : Instr} (h : registerForm i = true) (s : State) (k : Nat) (c : Ctx) : ChecksRegistersOnly s k c i := by
  cases i <;> simp only [registerForm, fixedScalar, lateScalar, Bool.or_true, Bool.or_false, Bool.false_or, Bool.true_or, beq_iff_eq, reduceCtorEq] at h
  all_goals exact ⟨rfl, rfl, rfl, rfl, rfl, rfl, rfl, rfl, rfl, rfl, rfl, rfl, rfl, rfl, rfl⟩

section
variable {s : State} {k : Nat} {c : Ctx} {i : Instr} (r : ChecksRegistersOnly s k c i)
include r

theorem ChecksRegistersOnly.illegalTrap_eq_none : illegalTrap s k c i = none := by
  simp [illegalTrap, wrongContext, r.notInHandler_false, r.isRleave_false, r.isPmov_false, r.csrForm_none]

variable (q : Quiet c)
include q

theorem ChecksRegistersOnly.waitsOn_eq_false : waitsOn s k c i = false := by
  simp [waitsOn, r.rsrc_nil, r.rdst_nil, keysOf, q.waits_eq_false]

theorem ChecksRegistersOnly.defersSlot_eq_false : defersSlot s k c i = false := by
  simp [defersSlot, r.waitsOn_eq_false q, q.behind_eq_nil, q.waitsFlush_eq_false]

theorem ChecksRegistersOnly.mustWait_eq_false : mustWait s k c i = false := by
  obtain ⟨-, htray, -⟩ := id q
  simp [mustWait, waitsForms, r.waitsOn_eq_false q, r.forms_nil, r.extra_nil, q.behind_eq_nil, q.waitsFlush_eq_false, htray]

theorem ChecksRegistersOnly.structural_eq_none : structural s k c i = none := by
  have hoperand : waitsOperand s k c i = false := by simp [waitsOperand, r.rdst_nil, r.extra_nil, keysOf]
  have hcsr : waitsCsr s k c i = false := by simp [waitsCsr, r.csrForm_none]
  simp [r.structural_eq, q.waitsAcquire_eq_false, hoperand, hcsr, r.waitsRoom_false]

theorem ChecksRegistersOnly.otherTrap_eq_none : otherTrap s k c i = none := by
  simp [r.otherTrap_eq, q.poisonTrap_eq_none s k r.rsrc_nil, q.reportTrap_eq_none]

end

/-- A bundle of two instructions of registers alone, the first with no destination, issues where nothing is in flight. -/
theorem judge_issues {s : State} {k : Nat} {a b : Instr} (q : Quiet (s.ctx k)) (ra : ChecksRegistersOnly s k (s.ctx k) a)
    (rb : ChecksRegistersOnly s k (s.ctx k) b) (hd : (infoIn (s.ctx k) a).dst = []) (hg : guardOpen b (s.ctx k) = true) :
    judge a b s k = .issue false false := by
  obtain ⟨-, -, -, -, -, -, hport, -⟩ := id q
  have hoperand : operandTraps s k (s.ctx k) true false false a b = none := by
    simp [operandTraps, ra.illegalTrap_eq_none, rb.illegalTrap_eq_none, ra.privTrap_none, ra.staticTrap_none, rb.staticTrap_none, ra.valueTrap_none,
      rb.valueTrap_none, sharedDest, hd]
  simp [judge, hg, ra.defersSlot_eq_false q, rb.defersSlot_eq_false q, ra.mustWait_eq_false q, rb.mustWait_eq_false q, hoperand,
    ra.structural_eq_none q, rb.structural_eq_none q, ra.otherTrap_eq_none q, rb.otherTrap_eq_none q, q.stallTrap_eq_none, hport,
    ra.holds_false, rb.holds_false]

/-! ## False guards -/

/-- A slot instruction with a guard is the run of a slot. -/
theorem exec_guarded {i : Instr} {g : Guard} (h : Machine.guardOf i = some g) : ∃ eff : State → State → State, ∀ s, exec i s = .next (runSlot i (eff s) s) := by
  cases i <;> cases h <;> exact ⟨_, fun _ => rfl⟩

theorem exec_guard_false {i : Instr} {s : State} {g : Guard} (h : Machine.guardOf i = some g) (hf : ((me s).rdC g.c ^^ g.neg) = false) :
    exec i s = .next s := by
  obtain ⟨eff, he⟩ := exec_guarded h
  have hclosed : guardOpen i (me s) = false := by simpa [guardOpen, h, guardPass] using hf
  rw [he, runSlot_closed hclosed]

/-! ## Fixed-latency results -/

/-- No result is due: none lands. -/
theorem nextFixed_none {l : List Fixed} {now : Nat} (h : ∀ f ∈ l, now < f.due) : nextFixed l now = none := by
  have hz : ((upTo l.length).zip l).filter (fun p => decide (p.2.due ≤ now) && p.2.of.isNone) = [] := by
    rw [List.filter_eq_nil_iff]
    intro p hp
    have := h p.2 (List.of_mem_zip hp).2
    simp; omega
  simp [nextFixed, hz]

/-- One result that is due is the next. -/
theorem nextFixed_one {f : Fixed} {now : Nat} (hd : f.due ≤ now) (ho : f.of = none) : nextFixed [f] now = some 0 := by
  simp [nextFixed, upTo, List.range_succ, hd, ho]

/-- Of two results that are due the earlier is the next, or the older (R64). -/
theorem nextFixed_two {f g : Fixed} {now : Nat} (hf : f.due ≤ now) (hg : g.due ≤ now) (hof : f.of = none) (hog : g.of = none) :
    nextFixed [f, g] now = some (if g.due < f.due then 1 else 0) := by
  by_cases h : g.due < f.due <;> simp [nextFixed, upTo, List.range_succ, hf, hg, hof, hog, h]

/-- The next result, and no other, leaves the list and lands. -/
theorem exec_fixedResultLand {s : State} {k i : Nat} {f : Fixed} (hn : nextFixed (s.ctx k).fixed s.cycle = some i)
    (hi : (s.ctx k).fixed[i]? = some f) (hp : f.pends = false) :
    exec (.fixedResultLand k) s = .next (s.modCtx k fun c => { landFixed f c with fixed := dropAt i c.fixed }) := by
  show Host.Outcome.next (effFixedLand k s) = _
  simp [effFixedLand, hn, hi, hp]

theorem landFixed_value {f : Fixed} (h : f.bad = none) (c : Ctx) (r : SReg) :
    (landFixed f c).rd r = if r = f.reg ∧ r ≠ 0 then f.value else c.rd r := by
  have e : (landFixed f c).rd r = (c.setS f.reg f.value).rd r := by simp only [landFixed, h]; rfl
  rw [e, rd_setS]
  by_cases hr : r = f.reg
  · subst hr; rfl
  · simp [hr]

theorem landFixed_poison {f : Fixed} {p : Poison} (h : f.bad = some p) (hr : f.reg ≠ 0) (c : Ctx) :
    find? (landFixed f c).poison f.reg.toNat = some p ∧ (landFixed f c).s = c.s := by
  simp only [landFixed, h, hr, if_false, find?_put, if_true, and_self]

/-- Settles O8: `landFixed` gives what lands, `exec_guard_false` the false guard, `judge_issues` the ready bundle. -/
theorem scalarIssueAndLanding : Obligations.ScalarIssueAndLanding := by
  refine ⟨⟨fun s n d r v hd => ⟨wrFixed_rd n d r v s, ?_⟩, fun s k f hf hdue hp hof => ?_, fun s k f g hfg hdf hdg hpf hpg hof hog => ?_, fun s k h => ?_⟩,
    fun i s g => exec_guard_false, fun i s k hi q hg => ?_⟩
  · rw [wrFixed_fixed, if_neg hd]
    exact ⟨_, List.mem_append_right _ (List.mem_singleton.mpr rfl), rfl, rfl, rfl⟩
  · refine ⟨_, exec_fixedResultLand (by rw [hf]; exact nextFixed_one hdue hof) (by rw [hf]; rfl) hp, OnlyCtx.modCtx _ _ _, ?_, ?_, ?_⟩
    · rw [ctx_modCtx_self, hf]; rfl
    · intro hb r; rw [ctx_modCtx_self]; exact landFixed_value hb _ r
    · intro p hb hr; rw [ctx_modCtx_self]; exact landFixed_poison hb hr _
  · have hn := nextFixed_two hdf hdg hof hog
    by_cases hlt : g.due < f.due
    · refine ⟨_, exec_fixedResultLand (i := 1) (f := g) (by rw [hfg, hn, if_pos hlt]) (by rw [hfg]; rfl) hpg, ?_⟩
      rw [ctx_modCtx_self, hfg, if_pos hlt]; rfl
    · refine ⟨_, exec_fixedResultLand (i := 0) (f := f) (by rw [hfg, hn, if_neg hlt]) (by rw [hfg]; rfl) hpf, ?_⟩
      rw [ctx_modCtx_self, hfg, if_neg hlt]; rfl
  · show Host.Outcome.next (effFixedLand k s) = _
    simp [effFixedLand, nextFixed_none h]
  · have hreg : registerForm i = true := by rcases hi with hi | hi <;> simp [registerForm, hi]
    exact judge_issues q (checks_of_registerForm (i := .nop) rfl s k _) (checks_of_registerForm hreg s k _) rfl hg

end Sys2Proof.Machine
end

section
/-! PROOFS. What giving up the core, counting, raising flags and register writes leave alone (R10, R22, R40), and with them
the frame of the scalar instructions of slot B. -/

namespace Sys2Proof.Machine

/-! ## Giving up the core (R10) -/

/-- A context that gives up its core changes the contexts and cores alone. -/
theorem giveUp_eq (k : Nat) (s : State) : giveUp k s = { s with ctxs := (giveUp k s).ctxs, cores := (giveUp k s).cores } := by
  unfold giveUp
  split <;> rfl

theorem giveUp_ctx_ne (s : State) {k j : Nat} (h : j ≠ k) : (giveUp k s).ctx j = s.ctx j := by
  unfold giveUp
  split
  · exact ctx_modCtx_ne _ _ _ _ h
  · rfl

/-- Of the context that gives up its core the status alone may change. -/
theorem giveUp_ctx (k : Nat) (s : State) : (giveUp k s).ctx k = { s.ctx k with status := ((giveUp k s).ctx k).status } := by
  unfold giveUp
  split
  · rw [ctx_modCtx_self, modCore_ctx]
    by_cases h : (s.ctx k).status = .running <;> simp [h]
  · rfl

/-- A context that is not RUNNING keeps its status too. -/
theorem giveUp_ctx_rests {k : Nat} {s : State} (h : (s.ctx k).status ≠ .running) : (giveUp k s).ctx k = s.ctx k := by
  unfold giveUp
  split
  · simp [h]
  · rfl

theorem giveUp_core_ne (s : State) {k c : Nat} (h : c ≠ coreOf k) : (giveUp k s).core c = s.core c := by
  unfold giveUp
  split
  · rw [modCtx_core, core_modCore_ne _ _ _ _ h]
  · rfl

/-- Of the core what changes is who holds it. -/
theorem giveUp_core (k : Nat) (s : State) : (giveUp k s).core (coreOf k) =
    { s.core (coreOf k) with running := ((giveUp k s).core (coreOf k)).running, ring := ((giveUp k s).core (coreOf k)).ring } := by
  unfold giveUp
  split
  · rw [modCtx_core, core_modCore_self]
  · rfl

/-- The context does not hold the core that it has given up. -/
theorem giveUp_running (k : Nat) (s : State) : ((giveUp k s).core (coreOf k)).running ≠ some (ctxId k) := by
  unfold giveUp
  split
  · rw [modCtx_core, core_modCore_self]; nofun
  · assumption

theorem yieldCore_cases (k : Nat) (s : State) : yieldCore k s = s ∨ yieldCore k s = giveUp k s := by
  unfold yieldCore
  split
  · exact .inl rfl
  · exact .inr rfl

/-! ## An off-core reference (R10, R22) -/

theorem countEv_evc (k n : Nat) {i : Nat} (h : i < 16) (s : State) :
    (countEv k i n s).ctx k = { s.ctx k with evc := (s.ctx k).evc.set i (satInc ((s.ctx k).evc.get ⟨i, h⟩) n) } := by
  simp [countEv, h]

/-- An off-core reference gives up the core or keeps it, once it is counted. -/
theorem offCore_cases (k : Nat) (s : State) : offCore k s = countEv k 9 1 s ∨ offCore k s = giveUp k (countEv k 9 1 s) := by
  unfold offCore
  dsimp only
  split
  · exact .inl rfl
  · exact yieldCore_cases _ _

theorem offCore_eq (k : Nat) (s : State) : offCore k s = { s with ctxs := (offCore k s).ctxs, cores := (offCore k s).cores } := by
  rcases offCore_cases k s with h | h <;> rw [h]
  · rfl
  · rw [giveUp_eq]; rfl

theorem offCore_ctx_ne (s : State) {k j : Nat} (h : j ≠ k) : (offCore k s).ctx j = s.ctx j := by
  have hc := (countEv_only k 9 1 s).2 j h
  rcases offCore_cases k s with e | e <;> rw [e]
  · exact hc
  · rw [giveUp_ctx_ne _ h, hc]

/-- Of the context the counter evc9 and the status alone may change. -/
theorem offCore_ctx (k : Nat) (s : State) : (offCore k s).ctx k = { s.ctx k with
    evc := (s.ctx k).evc.set 9 (satInc ((s.ctx k).evc.get 9) 1), status := ((offCore k s).ctx k).status } := by
  have hc := countEv_evc k 1 (i := 9) (by decide) s
  rcases offCore_cases k s with e | e <;> rw [e]
  · rw [hc]; rfl
  · rw [giveUp_ctx, hc]; rfl

theorem offCore_core_ne (s : State) {k c : Nat} (h : c ≠ coreOf k) : (offCore k s).core c = s.core c := by
  rcases offCore_cases k s with e | e <;> rw [e]
  · rfl
  · rw [giveUp_core_ne _ h]; rfl

theorem offCore_core (k : Nat) (s : State) : (offCore k s).core (coreOf k) =
    { s.core (coreOf k) with running := ((offCore k s).core (coreOf k)).running, ring := ((offCore k s).core (coreOf k)).ring } := by
  rcases offCore_cases k s with e | e <;> rw [e]
  · rfl
  · rw [giveUp_core]; rfl

theorem offCore_sameBytes (k : Nat) (s : State) : SameBytes s (offCore k s) := by
  rw [offCore_eq]; exact .of_eq rfl rfl rfl rfl

/-! ## Flags (R40) -/

/-- c' is c but for its event counters. -/
def OnlyCounters (c c' : Ctx) : Prop := c' = { c with evc := c'.evc }

theorem OnlyCounters.trans {a b c : Ctx} (h : OnlyCounters a b) (h' : OnlyCounters b c) : OnlyCounters a c := by
  unfold OnlyCounters at *; rw [h', h]

theorem countEv_counters (k i n : Nat) (s : State) : OnlyCounters (s.ctx k) ((countEv k i n s).ctx k) := by
  unfold OnlyCounters countEv
  rw [ctx_modCtx_self]
  split <;> rfl

/-- Counting flags changes the context's event counters alone. -/
theorem countFlags_only (k : Nat) (fl : BitVec 5) (s : State) :
    OnlyCtx k s (countFlags k fl s) ∧ OnlyCounters (s.ctx k) ((countFlags k fl s).ctx k) := by
  unfold countFlags
  induction upTo 5 generalizing s with
  | nil => exact ⟨.refl s k, rfl⟩
  | cons i l ih =>
    rw [List.foldl_cons]
    split
    · obtain ⟨ho, hc⟩ := ih (countEv k i 1 s)
      exact ⟨(countEv_only k i 1 s).trans ho, (countEv_counters k i 1 s).trans hc⟩
    · exact ih s

theorem raise_only (k : Nat) (fl : BitVec 5) (s : State) : OnlyCtx k s (raise k fl s) :=
  (OnlyCtx.modCtx s k _).trans (countFlags_only k fl _).1

/-- Raised flags join fflags; beside them only event counters change. -/
theorem raise_ctx (k : Nat) (fl : BitVec 5) (s : State) :
    (raise k fl s).ctx k = { s.ctx k with fflags := (s.ctx k).fflags ||| fl, evc := ((raise k fl s).ctx k).evc } := by
  have h := (countFlags_only k fl (s.modCtx k fun c => { c with fflags := c.fflags ||| fl })).2
  rw [ctx_modCtx_self] at h
  exact h

@[simp] theorem raise_cur (k : Nat) (fl : BitVec 5) (s : State) : (raise k fl s).cur = s.cur := by rw [(raise_only k fl s).1]

/-! ## The frame of a scalar result -/

/-- t is s but for the running context's registers: the scalar ones of dst, the condition register cond and, where flagged,
fflags and the event counters. -/
structure KeepsBut (dst : List SReg) (cond : Option CReg) (flagged : Bool) (s t : State) : Prop where
  only : OnlyCtx s.cur s t
  regs : OnlyRegs (s.ctx s.cur) (t.ctx s.cur)
  scalars : ∀ r, r ∉ dst → (t.ctx s.cur).rd r = (s.ctx s.cur).rd r
  conds : ∀ c, cond ≠ some c → (t.ctx s.cur).rdC c = (s.ctx s.cur).rdC c
  flags : flagged = false → (t.ctx s.cur).fflags = (s.ctx s.cur).fflags ∧ (t.ctx s.cur).evc = (s.ctx s.cur).evc

theorem KeepsBut.trans {dst : List SReg} {cond : Option CReg} {flagged : Bool} {s t u : State}
    (h : KeepsBut dst cond flagged s t) (h' : KeepsBut dst cond flagged t u) : KeepsBut dst cond flagged s u := by
  obtain ⟨ho, hr, hs, hc, hf⟩ := h
  have hcur : t.cur = s.cur := by rw [ho.1]
  obtain ⟨ho', hr', hs', hc', hf'⟩ := h'
  rw [hcur] at ho' hr' hs' hc' hf'
  refine ⟨ho.trans ho', ?_, fun r h => (hs' r h).trans (hs r h), fun c h => (hc' c h).trans (hc c h), fun h => ?_⟩
  · unfold OnlyRegs at hr hr' ⊢
    rw [hr', hr]
  · exact ⟨(hf' h).1.trans (hf h).1, (hf' h).2.trans (hf h).2⟩

theorem keepsBut_wrFixed (n : Nat) (d : SReg) (v : Word) (cond : Option CReg) (flagged : Bool) (s : State) :
    KeepsBut [d] cond flagged s (wrFixed n d v s) := by
  refine ⟨wrFixed_only n d v s, ?_, fun r _ => wrFixed_rd n d r v s, fun c _ => ?_, fun _ => ?_⟩ <;>
    simp only [wrFixed, ctx_modCtx_self]
  · split
    · rfl
    · rw [setPend_eq]; rfl
  · split
    · rfl
    · exact rdC_congr (setPend_c _ _ _) c
  · split
    · exact ⟨rfl, rfl⟩
    · rw [setPend_eq]; exact ⟨rfl, rfl⟩

theorem keepsBut_wrS (d : SReg) (v : Word) (cond : Option CReg) (flagged : Bool) (s : State) :
    KeepsBut [d] cond flagged s (wrS d v s) := by
  cases h : (s.ctx s.cur).running with
  | some cl => rw [wrS_closure (by simp [h])]; exact keepsBut_wrFixed 1 d v cond flagged s
  | none =>
    refine ⟨wrS_only d v s, ?_, fun r hr => ?_, fun c _ => wrS_rdC d v c s, fun _ => ?_⟩
    · rw [wrS_now h, ctx_modCtx_self, wrCtx, setS_eq]; rfl
    · rw [wrS_rd d r v s h, if_neg fun e => hr (List.mem_singleton.mpr e.1)]
    · rw [wrS_now h, ctx_modCtx_self, wrCtx, setS_eq]; exact ⟨rfl, rfl⟩

theorem keepsBut_wrC (p : CReg) (b : Bool) (dst : List SReg) (flagged : Bool) (s : State) :
    KeepsBut dst (some p) flagged s (wrC p b s) := by
  refine ⟨wrC_only p b s, ?_, fun r _ => wrC_rd p b r s, fun c hc => ?_, fun _ => ?_⟩
  · rw [wrC, ctx_modCtx_self, setC_eq]; rfl
  · rw [wrC_rdC p c b s, if_neg fun e => hc (by rw [e.1])]
  · rw [wrC, ctx_modCtx_self, setC_eq]; exact ⟨rfl, rfl⟩

theorem keepsBut_raise (fl : BitVec 5) (dst : List SReg) (cond : Option CReg) (s : State) :
    KeepsBut dst cond true s (raise s.cur fl s) := by
  refine ⟨raise_only _ fl s, ?_, fun r _ => ?_, fun c _ => ?_, nofun⟩ <;> rw [raise_ctx]
  · rfl
  · exact rd_congr rfl r
  · exact rdC_congr rfl c

/-- A scalar FP result: flags, then the value on its way (R62, R95). -/
theorem keepsBut_flagS (d : SReg) (v : Word) (fl : Flags5) (cond : Option CReg) (s : State) :
    KeepsBut [d] cond true s (flagS d v fl s) :=
  (keepsBut_raise fl [d] cond s).trans (keepsBut_wrFixed 4 d v cond true _)

/-! ## The fixed-latency instructions -/

/-- What a fixed-latency scalar instruction leaves of s: one register written at once or on its way, or one condition register,
with flags for a floating-point one. -/
inductive ScalarEffect (i : Instr) (s : State) : State → Prop where
  | now (d : SReg) (v : Word) : (∀ c, (infoIn c i).dst = [d]) → ScalarEffect i s (wrS d v s)
  | cond (p : CReg) (b : Bool) : condDest i = some p → ScalarEffect i s (wrC p b s)
  | flagged (d : SReg) (v : Word) (fl : Flags5) : (∀ c, (infoIn c i).dst = [d]) → integerScalar i = false → ScalarEffect i s (flagS d v fl s)
  | condFlagged (p : CReg) (b : Bool) (fl : Flags5) : condDest i = some p → integerScalar i = false →
      ScalarEffect i s (wrC p b (raise s.cur fl s))
  | later (n : Nat) (d : SReg) (v : Word) : (∀ c, (infoIn c i).dst = [d]) → ScalarEffect i s (wrFixed n d v s)

theorem fixedScalar_effect {i : Instr} (h : fixedScalar i = true) : ∃ eff : State → State,
    (∀ s, exec i s = .next (runSlot i eff s)) ∧ ∀ s, ScalarEffect i s (eff s) := by
  cases i <;> simp only [fixedScalar, Bool.false_eq_true] at h
  case cmp g p a b r => exact ⟨_, fun _ => rfl, fun s => .cond p _ rfl⟩
  case cond g p x y t => exact ⟨_, fun _ => rfl, fun s => .cond p _ rfl⟩
  case fcmp g p a b r => exact ⟨_, fun _ => rfl, fun s => .condFlagged p _ _ rfl rfl⟩
  case fclass g d a => exact ⟨_, fun _ => rfl, fun s => .later 4 d _ fun _ => rfl⟩
  case fcvt g d a op m => exact ⟨_, fun _ => rfl, fun s => .flagged d _ _ (fun _ => rfl) rfl⟩
  case fadd | fsub | fmul | ffma | fmin | fmax => exact ⟨_, fun _ => rfl, fun s => .flagged _ _ _ (fun _ => rfl) rfl⟩
  all_goals exact ⟨_, fun _ => rfl, fun s => .now _ _ fun _ => rfl⟩

theorem ScalarEffect.keepsBut {i : Instr} {s t : State} (h : ScalarEffect i s t) :
    KeepsBut (infoIn (s.ctx s.cur) i).dst (condDest i) (!integerScalar i) s t := by
  cases h with
  | now d v hd => rw [hd]; exact keepsBut_wrS d v _ _ s
  | cond p b hc => rw [hc]; exact keepsBut_wrC p b _ _ s
  | flagged d v fl hd hi => rw [hd, hi]; exact keepsBut_flagS d v fl _ s
  | condFlagged p b fl hc hi =>
    rw [hc, hi]
    have hw := keepsBut_wrC p b (infoIn (s.ctx s.cur) i).dst true (raise s.cur fl s)
    exact (keepsBut_raise fl _ _ s).trans hw
  | later n d v hd => rw [hd]; exact keepsBut_wrFixed n d v _ _ s

/-! ## The variable-latency instructions -/

theorem lateScalar_effect {i : Instr} (h : lateScalar i = true) : ∃ (n : Nat) (d : SReg) (v : State → Word),
    (∀ s, exec i s = .next (runSlot i (fun s => lateS n d (v s) s) s)) ∧ ∀ c, (infoIn c i).dst = [d] := by
  cases i <;> simp only [lateScalar, Bool.false_eq_true] at h
  all_goals exact ⟨_, _, _, fun _ => rfl, fun _ => rfl⟩

/-- A landing joins its context's list, and nothing else of the context changes. -/
theorem queueLanding_ctx (k : Nat) (l : Landing) (s : State) : (queueLanding k l s).ctx k =
    { s.ctx k with landings := (s.ctx k).landings ++ [{ l with seq := s.seq }] } := by
  show (s.modCtx k fun c => { c with landings := c.landings ++ [{ l with seq := s.seq }] }).ctx k = _
  rw [ctx_modCtx_self]

theorem setPending_ctx (k : Nat) (rs : List SReg) (s : State) :
    (setPending k rs s).ctx k = { s.ctx k with pend := ((setPending k rs s).ctx k).pend } := by
  rw [setPending, ctx_modCtx_self]
  generalize s.ctx k = c
  induction rs generalizing c with
  | nil => rfl
  | cons r rs ih => rw [List.foldl_cons, ih, setPend_eq]

/-- A result of variable latency at issue (R27, R83): of the context's registers none changes; pending bits, what is on its
way, the counters and the status may. -/
theorem lateS_ctx (n : Nat) (d : SReg) (v : Word) (s : State) : (lateS n d v s).ctx s.cur = { s.ctx s.cur with
    pend := ((setPending s.cur [d] s).ctx s.cur).pend
    landings := ((lateS n d v s).ctx s.cur).landings
    evc := (s.ctx s.cur).evc.set 9 (satInc ((s.ctx s.cur).evc.get 9) 1)
    status := ((lateS n d v s).ctx s.cur).status } := by
  unfold lateS
  dsimp only
  rw [offCore_ctx, queueLanding_ctx, setPending_ctx]

theorem lateS_ctx_ne (n : Nat) (d : SReg) (v : Word) (s : State) {j : Nat} (h : j ≠ s.cur) : (lateS n d v s).ctx j = s.ctx j := by
  unfold lateS
  dsimp only
  rw [offCore_ctx_ne _ h, (queueLanding_landings _ _ _).2.2 j h]
  exact (setPending_only _ _ _).2 j h

theorem lateS_sameBytes (n : Nat) (d : SReg) (v : Word) (s : State) : SameBytes s (lateS n d v s) := by
  have h : SameBytes s (queueLanding s.cur { Landing.empty with due := s.cycle + n, regs := [(d, v)] } (setPending s.cur [d] s)) :=
    .of_eq rfl rfl rfl rfl
  exact h.trans (offCore_sameBytes _ _)

/-- Settles O9: a fixed-latency instruction by the shape of its result, a variable-latency one by `lateS_ctx`. -/
theorem scalarFrame : Obligations.ScalarFrame := by
  refine ⟨fun i s hi hr => ?_, fun i s hi hr => ?_⟩
  · obtain ⟨eff, hexec, heff⟩ := fixedScalar_effect hi
    obtain ⟨honly, hregs, hscalars, hconds, hflags⟩ := (heff s).keepsBut
    exact ⟨eff s, by rw [hexec, runSlot_runs hr], honly, hregs, hscalars, hconds, fun h => hflags (by simp [h])⟩
  · obtain ⟨n, d, v, hexec, hd⟩ := lateScalar_effect hi
    have hctx := lateS_ctx n d (v s) s
    refine ⟨lateS n d (v s) s, by rw [hexec, runSlot_runs hr], lateS_sameBytes _ _ _ _, fun j hj => lateS_ctx_ne _ _ _ _ hj,
      fun r => ?_, fun c => ?_, by rw [hctx], by rw [hctx], fun r => ?_, ?_⟩ <;> rw [hctx]
    · exact rd_congr rfl r
    · exact rdC_congr rfl c
    · exact (setPending_pending _ _ r s).trans (by rw [hd, Bool.or_comm, Bool.and_comm])
    · simp only [vget, Nat.reduceLT, dite_true]
      exact Vector.getElem_set_self _

end Sys2Proof.Machine
end

section
/-! PROOFS. The counterexample to AccessAtIssue. -/

namespace Sys2Proof.Machine

/-- Context 0 has all 16 tiles and nothing in flight; a unit of row 0 of its tile 0 is poisoned in storage (R408). -/
def eccRowState : State := { State.reset with
  ctxs := [(0, { status := .running, tcount := 16 })], cores := [(0, { rows := [(0, { bad := 1 })] })] }

/-- A store of that row to the first bytes of die 0's memory. -/
def eccRowStore : Instr := .tst 0 0 ⟨0, false⟩ (.short 0)

/-- The context is quiet: the poisoned unit stands in the row, not in the context. -/
theorem quiet_eccRowState : Quiet (eccRowState.ctx 0) := by
  refine ⟨rfl, rfl, rfl, rfl, rfl, rfl, rfl, rfl, rfl, rfl, rfl⟩

/-- The store has no trap of its own, its row is neither pending nor marked with a failed operation's poison, and its
bank space is free. -/
theorem eccRowStore_checks :
    memForm eccRowStore = true ∧ staticTrap eccRowState 0 (eccRowState.ctx 0) eccRowStore = none ∧
    spillTrap (eccRowState.ctx 0) eccRowStore = none ∧ pitchTrap (eccRowState.ctx 0) eccRowStore = none ∧
    accessTrap eccRowState (coreOf 0) (memOps eccRowState 0 (eccRowState.ctx 0) eccRowStore) = none ∧
    typeCheck eccRowState 0 (eccRowState.ctx 0) eccRowStore = none ∧
    waitsOperand eccRowState 0 (eccRowState.ctx 0) eccRowStore = false ∧
    (∀ key ∈ keysOf eccRowState 0 (eccRowState.ctx 0) (infoIn (eccRowState.ctx 0) eccRowStore).rsrc ++
        keysOf eccRowState 0 (eccRowState.ctx 0) (infoIn (eccRowState.ctx 0) eccRowStore).rdst,
      ((eccRowState.core (coreOf 0)).row key).pend = 0 ∧ ((eccRowState.core (coreOf 0)).row key).poison = none) ∧
    holds eccRowState 0 (eccRowState.ctx 0) eccRowStore = false := by decide

/-- Yet its bundle traps ECC at the poisoned unit (R30, R408). -/
theorem eccRowStore_traps : judge eccRowStore .nopB eccRowState 0 = .trap { cause := 0x13, sub := 0x13, addr := 0 } := by decide

/-- Refutes O20: the first clause asks only that the rows have no poison of their own; a row with a poisoned unit (R408) is
met by its reader all the same, and the bundle of a TST of it traps ECC instead of issuing. -/
theorem not_accessAtIssue : ¬ Obligations.AccessAtIssue := by
  intro h
  obtain ⟨hform, hstatic, hspill, hpitch, haccess, htype, hoperand, hrows, hholds⟩ := eccRowStore_checks
  have hissue := h.1 eccRowStore eccRowState 0 hform quiet_eccRowState hstatic hspill hpitch haccess htype hoperand hrows hholds
  rw [eccRowStore_traps] at hissue
  exact Judged.noConfusion hissue

end Sys2Proof.Machine
end

section
/-! PROOFS. Control registers: reading and writing them (R19 to R22, R199, R284), and the traps of privilege (R276). -/

namespace Sys2Proof.Machine

/-! ## Poison of control registers (R408) -/

/-- t is s but for the lists of poisoned control registers of contexts. -/
def OnlyCtlPoison (s t : State) : Prop := t = { s with ctxs := t.ctxs } ∧ ∀ j, t.ctx j = { s.ctx j with badCtl := (t.ctx j).badCtl }

theorem OnlyCtlPoison.refl (s : State) : OnlyCtlPoison s s := ⟨rfl, fun _ => rfl⟩

theorem OnlyCtlPoison.trans {s t u : State} (h : OnlyCtlPoison s t) (h' : OnlyCtlPoison t u) : OnlyCtlPoison s u :=
  ⟨by rw [h'.1, h.1], fun j => by rw [h'.2 j, h.2 j]⟩

theorem onlyCtlPoison_modCtx (s : State) (j : Nat) (f : Ctx → List Nat) : OnlyCtlPoison s (s.modCtx j fun c => { c with badCtl := f c }) := by
  refine ⟨rfl, fun i => ?_⟩
  rw [ctx_modCtx]
  split
  · next h => rw [h]
  · rfl

theorem setCtlPoison_only (k n : Nat) (bad : Bool) (s : State) : OnlyCtlPoison s (setCtlPoison k n bad s) := by
  unfold setCtlPoison
  induction ctlKeys k n generalizing s with
  | nil => exact .refl s
  | cons j l ih =>
    rw [List.foldl_cons]
    refine OnlyCtlPoison.trans ?_ (ih _)
    by_cases h : (s.ctx j).badCtl.contains n = bad
    · rw [if_pos h]; exact .refl s
    · rw [if_neg h]; exact onlyCtlPoison_modCtx s j fun c => if bad then n :: c.badCtl else c.badCtl.filter (· ≠ n)

/-! ## Reading a control register -/

/-- Beside the reading context itself, a control register is read from its core, the core's handler context and the dial. -/
theorem csrRead_congr {s t : State} {k : Nat} (hcore : t.core (coreOf k) = s.core (coreOf k)) (hdial : dialOf t k = dialOf s k)
    (hrow : (t.ctx (handlerKey (coreOf k))).hdlrow = (s.ctx (handlerKey (coreOf k))).hdlrow)
    (hcnt : (t.ctx (handlerKey (coreOf k))).hdlcnt = (s.ctx (handlerKey (coreOf k))).hdlcnt) (c : Ctx) (m : Nat) :
    csrRead t k c m = csrRead s k c m := by
  unfold csrRead
  rw [hcore, hdial, hrow, hcnt]

/-- No control register reads the lists of poisoned ones. -/
theorem csrRead_ctlPoison {s t : State} (h : OnlyCtlPoison s t) (k m : Nat) : csrRead t k (t.ctx k) m = csrRead s k (s.ctx k) m := by
  obtain ⟨he, hc⟩ := h
  rw [csrRead_congr (s := s) (by rw [he]; rfl) (by rw [he]; rfl) (by rw [hc]) (by rw [hc]), hc k]
  rfl

section
variable (s : State) (k : Nat) (c : Ctx) {m : Nat}

/-! A register of the six numbered groups reads its element; no other register reads the group. -/

theorem csrRead_fmt (h : 0x008 ≤ m) (h' : m < 0x00C) : csrRead s k c m = vget c.fmt (m - 0x008) := by
  unfold csrRead; repeat rw [if_neg (by omega)]
  rw [if_pos h']

theorem csrRead_with_fmt {x} (h : m < 0x008 ∨ 0x00C ≤ m) : csrRead s k { c with fmt := x } m = csrRead s k c m := by
  unfold csrRead
  rcases h with h | h
  · simp only [h, if_true]
  · simp only [Nat.not_lt.mpr h, if_false]; rfl

theorem csrRead_scl (h : 0x00C ≤ m) (h' : m < 0x010) : csrRead s k c m = vget c.scl (m - 0x00C) := by
  unfold csrRead; repeat rw [if_neg (by omega)]
  rw [if_pos h']

theorem csrRead_with_scl {x} (h : m < 0x00C ∨ 0x010 ≤ m) : csrRead s k { c with scl := x } m = csrRead s k c m := by
  unfold csrRead
  rcases h with h | h
  · simp only [h, if_true]
  · simp only [Nat.not_lt.mpr h, if_false]; rfl

theorem csrRead_evc (h : 0x010 ≤ m) (h' : m < 0x020) : csrRead s k c m = (vget c.evc (m - 0x010)).zeroExtend 64 := by
  unfold csrRead; repeat rw [if_neg (by omega)]
  rw [if_pos h']

theorem csrRead_with_evc {x} (h : m < 0x010 ∨ 0x020 ≤ m) : csrRead s k { c with evc := x } m = csrRead s k c m := by
  unfold csrRead
  rcases h with h | h
  · simp only [h, if_true]
  · simp only [Nat.not_lt.mpr h, if_false]; rfl

theorem csrRead_lsa (h : 0x020 ≤ m) (h' : m < 0x024) : csrRead s k c m = vget c.lsa (m - 0x020) := by
  unfold csrRead; repeat rw [if_neg (by omega)]
  rw [if_pos h']

theorem csrRead_with_lsa {x} (h : m < 0x020 ∨ 0x024 ≤ m) : csrRead s k { c with lsa := x } m = csrRead s k c m := by
  unfold csrRead
  rcases h with h | h
  · simp only [h, if_true]
  · simp only [Nat.not_lt.mpr h, if_false]; rfl

theorem csrRead_lea (h : 0x024 ≤ m) (h' : m < 0x028) : csrRead s k c m = vget c.lea (m - 0x024) := by
  unfold csrRead; repeat rw [if_neg (by omega)]
  rw [if_pos h']

theorem csrRead_with_lea {x} (h : m < 0x024 ∨ 0x028 ≤ m) : csrRead s k { c with lea := x } m = csrRead s k c m := by
  unfold csrRead
  rcases h with h | h
  · simp only [h, if_true]
  · simp only [Nat.not_lt.mpr h, if_false]; rfl

theorem csrRead_lct (h : 0x028 ≤ m) (h' : m < 0x02C) : csrRead s k c m = vget c.lct (m - 0x028) := by
  unfold csrRead; repeat rw [if_neg (by omega)]
  rw [if_pos h']

theorem csrRead_with_lct {x} (h : m < 0x028 ∨ 0x02C ≤ m) : csrRead s k { c with lct := x } m = csrRead s k c m := by
  unfold csrRead
  rcases h with h | h
  · simp only [h, if_true]
  · simp only [Nat.not_lt.mpr h, if_false]; rfl

end

/-- An element of a vector after one is replaced. -/
theorem vget_vset {m w : Nat} (v : Vector (BitVec w) m) (i j : Nat) (x : BitVec w) :
    vget (vset v i x) j = if j = i ∧ i < m then x else vget v j := by
  unfold vset
  by_cases hi : i < m
  · rw [dif_pos hi]
    by_cases hj : j < m
    · simp only [vget, hj, dite_true]
      refine (Vector.getElem_set hi hj).trans ?_
      by_cases h : j = i
      · rw [if_pos h.symm, if_pos ⟨h, hi⟩]
      · rw [if_neg (fun e => h e.symm), if_neg (fun e => h e.1)]; rfl
    · rw [if_neg (by omega)]; simp [vget, hj]
  · rw [dif_neg hi, if_neg (fun e => hi e.2)]

/-! ## Writing one -/

/-- After a write of n the context c' reads w there, and every other register as c does; its scalar registers and its
handler's row and count are those of c. -/
structure WritesCsr (s : State) (k n : Nat) (w : Word) (c c' : Ctx) : Prop where
  own : csrRead s k c' n = w
  other : ∀ m, m ≠ n → csrRead s k c' m = csrRead s k c m
  keeps : c'.s = c.s ∧ c'.hdlrow = c.hdlrow ∧ c'.hdlcnt = c.hdlcnt

/-- A write of element n - lo of a numbered group, which alone is read there. -/
theorem writesCsr_group {s : State} {k : Nat} {c c' : Ctx} {w len lo hi n : Nat} {get : Ctx → Vector (BitVec w) len} {read : BitVec w → Word}
    (hread : ∀ (c : Ctx) (m : Nat), lo ≤ m → m < hi → csrRead s k c m = read (vget (get c) (m - lo)))
    (hout : ∀ m, m < lo ∨ hi ≤ m → csrRead s k c' m = csrRead s k c m) (x : BitVec w) (hset : get c' = vset (get c) (n - lo) x)
    (hkeeps : c'.s = c.s ∧ c'.hdlrow = c.hdlrow ∧ c'.hdlcnt = c.hdlcnt) (hlen : hi - lo = len) (h : lo ≤ n) (h' : n < hi) : WritesCsr s k n (read x) c c' := by
  refine ⟨by rw [hread c' n h h', hset, vget_vset, if_pos (by omega)], fun m hm => ?_, hkeeps⟩
  by_cases hr : lo ≤ m ∧ m < hi
  · rw [hread c' m hr.1 hr.2, hread c m hr.1 hr.2, hset, vget_vset, if_neg (by omega)]
  · exact hout m (by omega)

/-- The low bits of a word, extended again: a mask. -/
theorem zeroExtend_truncate (m : Nat) (v : Word) : (v.truncate m).zeroExtend 64 = v &&& (BitVec.allOnes m).zeroExtend 64 := by
  ext i hi
  simp [BitVec.getLsbD_eq_getElem, hi, Bool.and_comm]

/-- What mode reads after a write (R20). -/
theorem modeWrite_read (handler : Bool) (old : BitVec 7) (v : Word) : (modeWrite handler old v).zeroExtend 64 =
    (v &&& if handler then 0x3C else 0x3E) ||| (if old.getLsbD 6 then 0x40 else 0) := by
  have hp : (old &&& 0x40).zeroExtend 64 = if old.getLsbD 6 then (0x40 : Word) else 0 := by
    revert old; decide
  have hm : ∀ mask : BitVec 7, (v.truncate 7 &&& mask).zeroExtend 64 = v &&& mask.zeroExtend 64 := by
    intro mask
    ext i hi
    by_cases h : i < 7
    · simp [h, hi]
    · have : mask.getLsbD i = false := BitVec.getLsbD_of_ge mask i (by omega)
      simp [h, this]
  have hor : ∀ x y : BitVec 7, (x ||| y).zeroExtend 64 = x.zeroExtend 64 ||| y.zeroExtend 64 := fun x y => BitVec.setWidth_or
  rw [modeWrite, hor, hp, hm, BitVec.or_comm]
  cases handler <;> rfl

/-- What vshare reads after a write (R21). -/
theorem shareWrite_read (v : Word) : (shareWrite v).zeroExtend 64 = if v = 0 then 1 else if v.toNat ≤ 8 then v else 8 := by
  unfold shareWrite
  by_cases h0 : v = 0
  · subst h0; rfl
  · have h0' : v.toNat ≠ 0 := fun e => h0 (BitVec.eq_of_toNat_eq e)
    rw [if_neg h0, if_neg h0']
    split
    · apply BitVec.eq_of_toNat_eq
      simp only [BitVec.toNat_setWidth, BitVec.truncate_eq_setWidth]
      omega
    · rfl

/-- The numbers of R19 that a write reaches. -/
theorem csrWritable_range {n : Nat} (h : csrWritable n) :
    n ≤ 0x004 ∨ (0x008 ≤ n ∧ n ≤ 0x02C) ∨ (0x109 ≤ n ∧ n ≤ 0x10C) ∨ (0x120 ≤ n ∧ n ≤ 0x124) ∨ n = 0x200 := by
  unfold csrWritable csrAcc at h
  split_ifs at h <;> first | omega | simp at h

/-- The registers of a context that stand by themselves. -/
def singleCsrs : List Nat := [0x000, 0x001, 0x02C, 0x109, 0x10A, 0x10B, 0x10C, 0x120, 0x121, 0x122, 0x123, 0x124]

/-- A register of a context: of a numbered group, or by itself. -/
theorem csrWritable_ctx {n : Nat} (h : csrWritable n) (hc : coreCtl n = false) :
    (0x008 ≤ n ∧ n < 0x00C) ∨ (0x00C ≤ n ∧ n < 0x010) ∨ (0x010 ≤ n ∧ n < 0x020) ∨ (0x020 ≤ n ∧ n < 0x024) ∨
    (0x024 ≤ n ∧ n < 0x028) ∨ (0x028 ≤ n ∧ n < 0x02C) ∨ n ∈ singleCsrs := by
  have hr := csrWritable_range h
  simp only [coreCtl, Bool.or_eq_false_iff, beq_eq_false_iff_ne] at hc
  simp only [singleCsrs, List.mem_cons, List.not_mem_nil]
  omega

section
variable (s : State) (k : Nat) (handler : Bool) (v : Word) (c : Ctx) {n : Nat}

theorem csrSet_fmt (h : 0x008 ≤ n) (h' : n < 0x00C) : csrSet handler n v c = { c with fmt := vset c.fmt (n - 0x008) (v &&& fmtMask (n - 0x008)) } := by
  unfold csrSet; repeat rw [if_neg (by omega)]
  rw [if_pos h']

theorem csrSet_scl (h : 0x00C ≤ n) (h' : n < 0x010) : csrSet handler n v c = { c with scl := vset c.scl (n - 0x00C) v } := by
  unfold csrSet; repeat rw [if_neg (by omega)]
  rw [if_pos h']

theorem csrSet_evc (h : 0x010 ≤ n) (h' : n < 0x020) : csrSet handler n v c = { c with evc := vset c.evc (n - 0x010) (v.truncate 32) } := by
  unfold csrSet; repeat rw [if_neg (by omega)]
  rw [if_pos h']

theorem csrSet_lsa (h : 0x020 ≤ n) (h' : n < 0x024) : csrSet handler n v c = { c with lsa := vset c.lsa (n - 0x020) v } := by
  unfold csrSet; repeat rw [if_neg (by omega)]
  rw [if_pos h']

theorem csrSet_lea (h : 0x024 ≤ n) (h' : n < 0x028) : csrSet handler n v c = { c with lea := vset c.lea (n - 0x024) v } := by
  unfold csrSet; repeat rw [if_neg (by omega)]
  rw [if_pos h']

theorem csrSet_lct (h : 0x028 ≤ n) (h' : n < 0x02C) : csrSet handler n v c = { c with lct := vset c.lct (n - 0x028) v } := by
  unfold csrSet; repeat rw [if_neg (by omega)]
  rw [if_pos h']

theorem csrSet_single_self (h : n ∈ singleCsrs) :
    csrRead s k (csrSet handler n v c) n = csrKeeps handler (c.mode.getLsbD 6) n v := by
  simp only [singleCsrs, List.mem_cons, List.not_mem_nil, or_false] at h
  rcases h with rfl | rfl | rfl | rfl | rfl | rfl | rfl | rfl | rfl | rfl | rfl | rfl
  · exact modeWrite_read handler c.mode v
  · exact zeroExtend_truncate 5 v
  · rfl
  · exact zeroExtend_truncate 16 v
  · rfl
  · exact zeroExtend_truncate 14 v
  · rfl
  · exact zeroExtend_truncate 8 v
  · exact zeroExtend_truncate 8 v
  · rfl
  · rfl
  · rfl

theorem csrSet_single_ne (h : n ∈ singleCsrs) {m : Nat} (hm : m ≠ n) : csrRead s k (csrSet handler n v c) m = csrRead s k c m := by
  simp only [singleCsrs, List.mem_cons, List.not_mem_nil, or_false] at h
  rcases h with rfl | rfl | rfl | rfl | rfl | rfl | rfl | rfl | rfl | rfl | rfl | rfl <;>
    · simp only [csrSet, Nat.reduceEqDiff, Nat.reduceLT, if_true, if_false, OfNat.ofNat_ne_zero, OfNat.ofNat_ne_one, one_ne_zero, csrRead, hm]
      rfl

theorem csrSet_single_keeps (h : n ∈ singleCsrs) : (csrSet handler n v c).s = c.s ∧ (csrSet handler n v c).hdlrow = c.hdlrow ∧
    (csrSet handler n v c).hdlcnt = c.hdlcnt := by
  simp only [singleCsrs, List.mem_cons, List.not_mem_nil, or_false] at h
  rcases h with rfl | rfl | rfl | rfl | rfl | rfl | rfl | rfl | rfl | rfl | rfl | rfl <;> exact ⟨rfl, rfl, rfl⟩

/-- A write of a context's own register (R19 to R22, R199). -/
theorem csrSet_writes (hw : csrWritable n) (hn : coreCtl n = false) :
    WritesCsr s k n (csrKeeps handler (c.mode.getLsbD 6) n v) c (csrSet handler n v c) := by
  rcases csrWritable_ctx hw hn with ⟨h, h'⟩ | ⟨h, h'⟩ | ⟨h, h'⟩ | ⟨h, h'⟩ | ⟨h, h'⟩ | ⟨h, h'⟩ | h
  · rw [csrSet_fmt handler v c h h', show csrKeeps handler (c.mode.getLsbD 6) n v = v &&& fmtMask (n - 0x008) by interval_cases n <;> rfl]
    exact writesCsr_group (get := Ctx.fmt) (read := id) (fun c _ => csrRead_fmt s k c) (fun _ => csrRead_with_fmt s k c) _ rfl ⟨rfl, rfl, rfl⟩ rfl h h'
  · rw [csrSet_scl handler v c h h', show csrKeeps handler (c.mode.getLsbD 6) n v = v by interval_cases n <;> rfl]
    exact writesCsr_group (get := Ctx.scl) (read := id) (fun c _ => csrRead_scl s k c) (fun _ => csrRead_with_scl s k c) _ rfl ⟨rfl, rfl, rfl⟩ rfl h h'
  · rw [csrSet_evc handler v c h h', show csrKeeps handler (c.mode.getLsbD 6) n v = (v.truncate 32).zeroExtend 64 by
      rw [zeroExtend_truncate]; interval_cases n <;> rfl]
    exact writesCsr_group (get := Ctx.evc) (read := (·.zeroExtend 64)) (fun c _ => csrRead_evc s k c) (fun _ => csrRead_with_evc s k c) _
      rfl ⟨rfl, rfl, rfl⟩ rfl h h'
  · rw [csrSet_lsa handler v c h h', show csrKeeps handler (c.mode.getLsbD 6) n v = v by interval_cases n <;> rfl]
    exact writesCsr_group (get := Ctx.lsa) (read := id) (fun c _ => csrRead_lsa s k c) (fun _ => csrRead_with_lsa s k c) _ rfl ⟨rfl, rfl, rfl⟩ rfl h h'
  · rw [csrSet_lea handler v c h h', show csrKeeps handler (c.mode.getLsbD 6) n v = v by interval_cases n <;> rfl]
    exact writesCsr_group (get := Ctx.lea) (read := id) (fun c _ => csrRead_lea s k c) (fun _ => csrRead_with_lea s k c) _ rfl ⟨rfl, rfl, rfl⟩ rfl h h'
  · rw [csrSet_lct handler v c h h', show csrKeeps handler (c.mode.getLsbD 6) n v = v by interval_cases n <;> rfl]
    exact writesCsr_group (get := Ctx.lct) (read := id) (fun c _ => csrRead_lct s k c) (fun _ => csrRead_with_lct s k c) _ rfl ⟨rfl, rfl, rfl⟩ rfl h h'
  · exact ⟨csrSet_single_self s k handler v c h, fun m => csrSet_single_ne s k handler v c h, csrSet_single_keeps handler v c h⟩

end

/-- A write of the register n of context k leaves in t: what reads there and elsewhere, the scalar registers, the running
context and every byte. -/
structure CsrWritten (s t : State) (k n : Nat) (w : Word) : Prop where
  own : csrRead t k (t.ctx k) n = w
  other : ∀ m, m ≠ n → csrRead t k (t.ctx k) m = csrRead s k (s.ctx k) m
  regs : (t.ctx k).s = (s.ctx k).s
  cur : t.cur = s.cur
  bytes : SameBytes s t

/-- A core's register: which of its fields a write changes. -/
theorem csrWrite_core {s : State} {k n : Nat} {w : Word} (f : CoreSt → CoreSt)
    (hown : ∀ c, csrRead (s.modCore (coreOf k) f) k c n = w)
    (hother : ∀ c m, m ≠ n → csrRead (s.modCore (coreOf k) f) k c m = csrRead s k c m) : CsrWritten s (s.modCore (coreOf k) f) k n w :=
  ⟨hown _, hother _, rfl, rfl, .of_eq rfl rfl rfl rfl⟩

theorem csrWrite_ctx {s : State} {k n : Nat} {w : Word} (f : Ctx → Ctx) (h : WritesCsr s k n w (s.ctx k) (f (s.ctx k))) :
    CsrWritten s (s.modCtx k f) k n w := by
  obtain ⟨hown, hother, hs, hrow, hcnt⟩ := h
  have hread : ∀ c m, csrRead (s.modCtx k f) k c m = csrRead s k c m := by
    have hh : ∀ g : Ctx → Nat, g (f (s.ctx k)) = g (s.ctx k) → g ((s.modCtx k f).ctx (handlerKey (coreOf k))) = g (s.ctx (handlerKey (coreOf k))) := by
      intro g hg
      rw [ctx_modCtx]
      split
      · next e => rw [hg, e]
      · rfl
    intro c m
    refine csrRead_congr (s := s) (t := s.modCtx k f) rfl rfl ?_ ?_ c m
    · exact BitVec.eq_of_toNat_eq (hh (fun c => c.hdlrow.toNat) (by rw [hrow]))
    · exact BitVec.eq_of_toNat_eq (hh (fun c => c.hdlcnt.toNat) (by rw [hcnt]))
  refine ⟨?_, fun m hm => ?_, ?_, rfl, .of_eq rfl rfl rfl rfl⟩
  · rw [hread, ctx_modCtx_self, hown]
  · rw [hread, ctx_modCtx_self, hother m hm]
  · rw [ctx_modCtx_self, hs]

/-- CSRW's write of a register of R19 (R19 to R22, R199). -/
theorem csrWrite_written (s : State) (k : Nat) {n : Nat} (v : Word) (hw : csrWritable n) :
    CsrWritten s (csrWrite k n v s) k n (csrKeeps (k % 8 == 4) ((s.ctx k).mode.getLsbD 6) n v) := by
  have hp := setCtlPoison_only k n false s
  unfold csrWrite
  dsimp only
  generalize setCtlPoison k n false s = u at hp ⊢
  have hread := csrRead_ctlPoison hp k
  have hbytes : SameBytes s u := by rw [hp.1]; exact .of_eq rfl rfl rfl rfl
  have hregs : (u.ctx k).s = (s.ctx k).s := by rw [hp.2 k]
  have hcur : u.cur = s.cur := by rw [hp.1]
  have hmode : (u.ctx k).mode = (s.ctx k).mode := by rw [hp.2 k]
  suffices h : ∀ t, CsrWritten u t k n (csrKeeps (k % 8 == 4) ((u.ctx k).mode.getLsbD 6) n v) →
      CsrWritten s t k n (csrKeeps (k % 8 == 4) ((s.ctx k).mode.getLsbD 6) n v) by
    apply h
    by_cases h2 : n = 0x002
    · subst h2
      rw [if_pos rfl]
      refine csrWrite_core _ (fun c => ?_) (fun c m hm => ?_)
      · show ((u.modCore _ _).core (coreOf k)).vshare.zeroExtend 64 = _
        rw [core_modCore_self]; exact shareWrite_read v
      · simp only [csrRead, core_modCore_self, hm, if_false]; rfl
    by_cases h3 : n = 0x003
    · subst h3
      rw [if_neg (by decide), if_pos rfl]
      refine csrWrite_core _ (fun c => ?_) (fun c m hm => ?_)
      · show ((u.modCore _ _).core (coreOf k)).gmask.zeroExtend 64 = _
        rw [core_modCore_self]; exact zeroExtend_truncate 4 v
      · simp only [csrRead, core_modCore_self, hm, if_false]; rfl
    by_cases h4 : n = 0x004
    · subst h4
      rw [if_neg (by decide), if_neg (by decide), if_pos rfl]
      refine csrWrite_core _ (fun c => ?_) (fun c m hm => ?_)
      · show ((u.modCore _ _).core (coreOf k)).hdl = _
        rw [core_modCore_self]; rfl
      · simp only [csrRead, core_modCore_self, hm, if_false]; rfl
    by_cases h200 : n = 0x200
    · subst h200
      rw [if_neg (by decide), if_neg (by decide), if_neg (by decide), if_pos rfl]
      refine csrWrite_core _ (fun c => ?_) (fun c m hm => ?_)
      · show ((u.modCore _ _).core (coreOf k)).stvec = _
        rw [core_modCore_self]; rfl
      · simp only [csrRead, core_modCore_self, hm, if_false]; rfl
    · rw [if_neg h2, if_neg h3, if_neg h4, if_neg h200]
      exact csrWrite_ctx _ (csrSet_writes u k _ v _ hw (by simp [coreCtl, h2, h3, h4, h200]))
  intro t h
  rw [← hmode]
  exact ⟨h.own, fun m hm => (h.other m hm).trans (hread m), h.regs.trans hregs, h.cur.trans hcur, hbytes.trans h.bytes⟩

/-- mode.PRIV, as control register 0 reads (R20). -/
theorem priv_of_csrRead (s : State) (k : Nat) (c : Ctx) : (csrRead s k c 0).getLsbD 6 = c.mode.getLsbD 6 := by
  show (c.mode.zeroExtend 64).getLsbD 6 = _
  simp

/-- No write changes mode.PRIV (R20). -/
theorem CsrWritten.priv {s t : State} {k n : Nat} {v : Word}
    (h : CsrWritten s t k n (csrKeeps (k % 8 == 4) ((s.ctx k).mode.getLsbD 6) n v)) :
    (t.ctx k).mode.getLsbD 6 = (s.ctx k).mode.getLsbD 6 := by
  rw [← priv_of_csrRead t k]
  by_cases hn : n = 0
  · subst hn
    rw [h.own]
    simp only [csrKeeps, if_true]
    cases (s.ctx k).mode.getLsbD 6 <;> cases (k % 8 == 4) <;> simp
  · rw [h.other 0 (Ne.symm hn), priv_of_csrRead]

/-- A latency-1 result leaves what every control register reads. -/
theorem csrRead_wrS (d : SReg) (v : Word) (s : State) (m : Nat) :
    csrRead (wrS d v s) s.cur ((wrS d v s).ctx s.cur) m = csrRead s s.cur (s.ctx s.cur) m := by
  obtain ⟨ho, hr, -, -, hf⟩ := keepsBut_wrS d v none false s
  obtain ⟨hfflags, hevc⟩ := hf rfl
  generalize wrS d v s = t at ho hr hfflags hevc ⊢
  unfold OnlyRegs at hr
  have hh : (t.ctx (handlerKey (coreOf s.cur))).hdlrow = (s.ctx (handlerKey (coreOf s.cur))).hdlrow ∧
      (t.ctx (handlerKey (coreOf s.cur))).hdlcnt = (s.ctx (handlerKey (coreOf s.cur))).hdlcnt := by
    by_cases e : handlerKey (coreOf s.cur) = s.cur
    · rw [e, hr]; exact ⟨rfl, rfl⟩
    · rw [ho.2 _ e]; exact ⟨rfl, rfl⟩
  rw [csrRead_congr (s := s) (t := t) (by rw [ho.1]; rfl) (by rw [ho.1]; rfl) hh.1 hh.2, hr, hfflags, hevc]
  rfl

/-- The four instructions in one: what an access that runs leaves (R284). -/
theorem exec_csr {i : Instr} {s : State} {op : CsrOp} {n : Nat} {d a : SReg} (h : csrForm i = some (op, n, d, a)) (hr : Runs i s) :
    exec i s = .next (effCsr op n d a s) := by
  cases i <;> cases h <;> exact congrArg Host.Outcome.next (runSlot_runs hr _)

/-- An access that writes. -/
theorem effCsr_write {op : CsrOp} {a : SReg} (h : csrWrites op a = true) (n : Nat) (d : SReg) (s : State) : effCsr op n d a s =
    wrS d (csrRead s s.cur (me s) n) (csrWrite s.cur n (csrNew op (csrRead s s.cur (me s) n) ((me s).rd a)) s) := by
  rw [effCsr, if_pos h]

/-- An access that only reads. -/
theorem effCsr_read {op : CsrOp} {a : SReg} (h : csrWrites op a = false) (n : Nat) (d : SReg) (s : State) :
    effCsr op n d a s = wrS d (csrRead s s.cur (me s) n) s := by
  rw [effCsr, if_neg (by rw [h]; exact Bool.false_ne_true)]

/-- CSRS and CSRC write where a is not s0 (R284). -/
theorem csrWrites_setClear {op : CsrOp} (h : op = .s ∨ op = .c) (a : SReg) : csrWrites op a = (a != 0) := by
  rcases h with rfl | rfl <;> rfl

/-- CSRS and CSRC, written out (R284). -/
theorem effCsr_setClear {op : CsrOp} (h : op = .s ∨ op = .c) (n : Nat) (d a : SReg) (s : State) : effCsr op n d a s =
    if a = 0 then wrS d (csrRead s s.cur (me s) n) s
    else wrS d (csrRead s s.cur (me s) n) (csrWrite s.cur n (csrNew op (csrRead s s.cur (me s) n) ((me s).rd a)) s) := by
  by_cases ha : a = 0
  · rw [if_pos ha, effCsr_read (by rw [csrWrites_setClear h, ha]; rfl)]
  · rw [if_neg ha, effCsr_write (by rw [csrWrites_setClear h]; exact bne_iff_ne.mpr ha)]

/-- What an access that writes leaves in the register (R284). -/
theorem csrRead_effCsr {op : CsrOp} {n : Nat} {d a : SReg} {s : State} (hw : csrWritable n) (hop : csrWrites op a = true) (hv : s.view = none) :
    csrRead (effCsr op n d a s) s.cur ((effCsr op n d a s).ctx s.cur) n = csrKeeps (s.cur % 8 == 4) ((s.ctx s.cur).mode.getLsbD 6) n
      (csrNew op (csrRead s s.cur (s.ctx s.cur) n) ((s.ctx s.cur).rd a)) := by
  have hme : me s = s.ctx s.cur := by rw [me, hv]; rfl
  rw [effCsr_write hop, hme]
  generalize csrNew op _ _ = new
  have h := csrWrite_written s s.cur new hw
  have hr := csrRead_wrS d (csrRead s s.cur (s.ctx s.cur) n) (csrWrite s.cur n new s) n
  rw [h.cur] at hr
  rw [hr, h.own]

/-- Settles O16: `exec_csr` and `effCsr_write`, `effCsr_read` for the forms, `csrWrite_written` for each register. -/
theorem controlRegisters : Obligations.ControlRegisters := by
  refine ⟨fun s d a n => ⟨fun hr => ?_, fun hr => ?_, fun hr => ?_, fun hr => ?_⟩, fun s k n m v hw => ?_, fun s d a n hw ha hv => ?_⟩
  · rw [exec_csr rfl hr, effCsr_read rfl]
  · rw [exec_csr rfl hr, effCsr_write rfl]; rfl
  · rw [exec_csr rfl hr, effCsr_setClear (.inl rfl)]; rfl
  · rw [exec_csr rfl hr, effCsr_setClear (.inr rfl)]; rfl
  · have h := csrWrite_written s k v hw
    exact ⟨h.own, h.priv, fun r => rd_congr h.regs r, h.bytes, fun hm _ => h.other m hm⟩
  · have ha' : (a != 0) = true := bne_iff_ne.mpr ha
    exact ⟨fun hr => ⟨_, exec_csr rfl hr, csrRead_effCsr hw rfl hv⟩,
      fun hr => ⟨_, exec_csr rfl hr, csrRead_effCsr hw ((csrWrites_setClear (.inl rfl) a).trans ha') hv⟩,
      fun hr => ⟨_, exec_csr rfl hr, csrRead_effCsr hw ((csrWrites_setClear (.inr rfl) a).trans ha') hv⟩⟩

end Sys2Proof.Machine
end

section
/-! PROOFS. The traps of privilege (R19, R221, R276) and of a pattern that is no bundle (R75, R76). -/

namespace Sys2Proof.Machine

/-! ## Entry to the handler (R277) -/

/-- Arrivals withdrawn: the cell and the quarters' holders change. -/
theorem foldl_unclaim (l : List Arrival) (s : State) : let t := l.foldl (fun s a => unclaim a s) s
    t = { s with cores := t.cores } ∧ ∀ c, (t.core c).stvec = (s.core c).stvec := by
  induction l generalizing s with
  | nil => exact ⟨rfl, fun _ => rfl⟩
  | cons a l ih =>
    have h : unclaim a s = { s with cores := (unclaim a s).cores } ∧ ∀ c, ((unclaim a s).core c).stvec = (s.core c).stvec := by
      unfold unclaim
      split
      · refine ⟨rfl, fun c => ?_⟩
        by_cases hc : c = a.core
        · rw [hc, core_modCore_self]
        · rw [core_modCore_ne _ _ _ _ hc]
      · exact ⟨rfl, fun _ => rfl⟩
    obtain ⟨he, hv⟩ := ih (unclaim a s)
    exact ⟨by rw [List.foldl_cons, he, h.1], fun c => (hv c).trans (h.2 c)⟩

theorem unarrive_eq (cell : Nat) (f : Arrival → Bool) (s : State) :
    unarrive cell f s = { s with cells := (unarrive cell f s).cells, cores := (unarrive cell f s).cores } := by
  unfold unarrive
  dsimp only
  split
  · rfl
  · rw [(foldl_unclaim _ _).1]; rfl

theorem unarrive_stvec (cell : Nat) (f : Arrival → Bool) (s : State) (c : Nat) : ((unarrive cell f s).core c).stvec = (s.core c).stvec := by
  unfold unarrive
  dsimp only
  split
  · rfl
  · exact (foldl_unclaim _ _).2 c

theorem yieldCore_eq (k : Nat) (s : State) : yieldCore k s = { s with ctxs := (yieldCore k s).ctxs, cores := (yieldCore k s).cores } := by
  rcases yieldCore_cases k s with h | h <;> rw [h]
  exact giveUp_eq k s

/-- A context that is not RUNNING is as it was once it has given up the core. -/
theorem yieldCore_ctx_rests {k : Nat} {s : State} (h : (s.ctx k).status ≠ .running) : (yieldCore k s).ctx k = s.ctx k := by
  rcases yieldCore_cases k s with e | e <;> rw [e]
  exact giveUp_ctx_rests h

theorem latentCore_eq (core code : Nat) (a b : Word) (s : State) :
    latentCore core code a b s = { s with dies := (latentCore core code a b s).dies } := latent_eq _ _ _ _ _ _ _

theorem latentCore_ctx (core code : Nat) (a b : Word) (s : State) (k : Nat) : (latentCore core code a b s).ctx k = s.ctx k := by
  rw [latentCore_eq]; rfl

/-- A trap of a running context with no tray closure: what the handler is told, where it starts, and what stands (R277). -/
theorem enterTrap_enters {t : TrapInfo} {k : Nat} {s : State} (hrun : (s.ctx k).running = none) (hst : (s.ctx k).status = .running)
    (hfull : t.cause ≠ causeTrayFull) (htime : t.cause ≠ causeTimeout) : let u := enterTrap t k s
    (u.ctx k).xcause = t.cause ∧ (u.ctx k).xsub = t.sub ∧ (u.ctx k).xpc = (s.ctx k).pc ∧ (u.ctx k).h = true ∧
    (u.ctx k).pc = (s.core (coreOf k)).stvec ∧ (u.ctx k).s = (s.ctx k).s ∧ (u.ctx k).c = (s.ctx k).c ∧ SameBytes s u := by
  have hpc : trapPc (s.ctx k) = (s.ctx k).pc := by simp [trapPc, hst]
  unfold enterTrap
  simp only [hrun, if_neg hfull, if_neg htime, hpc]
  generalize hu : (if (s.ctx k).park = .gang then unarrive (coreOf k / 4) (arrivedBy k) s else s) = u
  have huctx : u.ctx k = s.ctx k := by
    rw [← hu]
    split
    · rw [unarrive_eq]; rfl
    · rfl
  have hustvec : (u.core (coreOf k)).stvec = (s.core (coreOf k)).stvec := by
    rw [← hu]
    split
    · exact unarrive_stvec _ _ _ _
    · rfl
  have hubytes : SameBytes s u := by
    rw [← hu]
    split
    · rw [unarrive_eq]; exact .of_eq rfl rfl rfl rfl
    · exact .refl s
  rw [latentCore_ctx, yieldCore_ctx_rests (by rw [ctx_modCtx_self]; nofun), ctx_modCtx_self, huctx, hustvec]
  refine ⟨rfl, rfl, rfl, rfl, rfl, rfl, rfl, hubytes.trans ?_⟩
  rw [latentCore_eq, yieldCore_eq]
  exact .of_eq rfl rfl rfl rfl

/-- Nothing of the quarter is cleared where it has failed nothing (R208). -/
theorem clearQuarter_of_none {k : Nat} {s : State} (h : (quarterOf s (coreOf k)).fail = none) (t : TrapInfo) : clearQuarter t k s = s := by
  rw [clearQuarter, if_neg (by rw [h]; nofun)]

/-- ILLEGAL outside a handler enters it (R76, R277). -/
theorem bundleTrap_illegal {k : Nat} {s : State} (hh : (s.ctx k).h = false) (hq : (quarterOf s (coreOf k)).fail = none) :
    bundleTrap (trapOf causeIllegal 0 0) k s = enterTrap (trapOf causeIllegal 0 0) k s := by
  show takeTrap _ k (clearQuarter _ k s) = _
  rw [clearQuarter_of_none hq, takeTrap_enters _ hh]

/-! ## PRIV (R19, R221, R276) -/

/-- At supervisor level no control register traps PRIV (R19). -/
theorem csrTrap_supervisor {c : Ctx} (h : c.mode.getLsbD 6 = true) (op : CsrOp) (n : Nat) (d a : SReg) :
    ((csrTrap c op n d a).filter fun t => t.cause == causePriv) = none := by
  unfold csrTrap
  simp only [h]
  cases csrAcc n with
  | none => rfl
  | some acc =>
    cases acc with
    | ro => dsimp only; split <;> rfl
    | _ => rfl

/-- At supervisor level nothing traps PRIV (R276). -/
theorem privTrap_supervisor {c : Ctx} (h : c.mode.getLsbD 6 = true) (s : State) (k : Nat) (i : Instr) : privTrap s k c i = none := by
  unfold privTrap
  simp only [h]
  split
  · rfl
  · rfl
  · rfl
  · split <;> rfl
  · split
    · exact csrTrap_supervisor h _ _ _ _
    · rfl

/-- A control register of level S at user level (R19). -/
theorem csrTrap_user_s {c : Ctx} (h : c.mode.getLsbD 6 = false) {n : Nat} (hn : csrAcc n = some .s) {op : CsrOp} {d a : SReg}
    (hrw : csrReads op d = true ∨ csrWrites op a = true) : csrTrap c op n d a = some (trapOf causePriv 0 (BitVec.ofNat 64 n)) := by
  unfold csrTrap
  simp only [h, hn]
  rw [if_pos (by rcases hrw with e | e <;> simp [e])]

/-- A control register that the user level may only read (R19). -/
theorem csrTrap_user_ur {c : Ctx} (h : c.mode.getLsbD 6 = false) {n : Nat} (hn : csrAcc n = some .ur) (op : CsrOp) (d a : SReg) :
    csrTrap c op n d a = if csrWrites op a then some (trapOf causePriv 0 (BitVec.ofNat 64 n)) else none := by
  unfold csrTrap
  simp only [h, hn]
  rfl

/-- PRIV of an access to a control register is csrTrap's. -/
theorem privTrap_csr {i : Instr} {op : CsrOp} {n : Nat} {d a : SReg} (h : csrForm i = some (op, n, d, a)) (s : State) (k : Nat) (c : Ctx) :
    privTrap s k c i = (csrTrap c op n d a).filter fun t => t.cause == causePriv := by
  cases i <;> cases h <;> rfl

/-- CSRS and CSRC touch the register where either operand is not s0 (R284). -/
theorem csr_touches {op : CsrOp} (hop : op = .s ∨ op = .c) {d a : SReg} (h : a ≠ 0 ∨ d ≠ 0) : csrReads op d = true ∨ csrWrites op a = true := by
  rcases h with h | h
  · exact .inr ((csrWrites_setClear hop a).trans (bne_iff_ne.mpr h))
  · exact .inl (by rw [csrReads, bne_iff_ne.mpr h]; rfl)

/-- CSRR reads the register whatever its destination is (R284). -/
theorem csrReads_r (d : SReg) : csrReads .r d = true := Bool.or_true _

/-- An access to a register of level S traps at user level. -/
theorem privTrap_csr_s {i : Instr} {op : CsrOp} {n : Nat} {d a : SReg} (hi : csrForm i = some (op, n, d, a)) {c : Ctx}
    (h : c.mode.getLsbD 6 = false) (hn : csrAcc n = some .s) (hrw : csrReads op d = true ∨ csrWrites op a = true) (s : State) (k : Nat) :
    privTrap s k c i = some (trapOf causePriv 0 (BitVec.ofNat 64 n)) := by
  rw [privTrap_csr hi, csrTrap_user_s h hn hrw]; rfl

/-- A write of a register that the user level may only read traps there. -/
theorem privTrap_csr_ur {i : Instr} {op : CsrOp} {n : Nat} {d a : SReg} (hi : csrForm i = some (op, n, d, a)) {c : Ctx}
    (h : c.mode.getLsbD 6 = false) (hn : csrAcc n = some .ur) (hw : csrWrites op a = true) (s : State) (k : Nat) :
    privTrap s k c i = some (trapOf causePriv 0 (BitVec.ofNat 64 n)) := by
  rw [privTrap_csr hi, csrTrap_user_ur h hn, if_pos hw]; rfl

/-- Settles O15: `privTrap` by the levels of R19, and `enterTrap_enters` for a pattern that does not decode. -/
theorem privilegeAndIllegalTraps : Obligations.PrivilegeAndIllegalTraps := by
  refine ⟨fun s k c d a b n => ⟨fun hu => ?_, fun hu hn => ?_, fun hu hn => ?_, fun hu i => ?_⟩, fun s k c i hk hp hf => ?_,
    fun s k w0 w1 e hd hh hrun hst hq => ?_⟩
  · simp only [privTrap, hu]
    exact ⟨rfl, rfl, rfl, rfl⟩
  · exact ⟨privTrap_csr_s (i := .csrr d n) rfl hu hn (.inl (csrReads_r d)) s k, privTrap_csr_s rfl hu hn (.inr rfl) s k, fun h =>
      ⟨privTrap_csr_s rfl hu hn (csr_touches (.inl rfl) h) s k, privTrap_csr_s rfl hu hn (csr_touches (.inr rfl) h) s k⟩⟩
  · have hw {op : CsrOp} (hop : op = .s ∨ op = .c) (ha : a ≠ 0) : csrWrites op a = true :=
      (csrWrites_setClear hop a).trans (bne_iff_ne.mpr ha)
    refine ⟨?_, privTrap_csr_ur rfl hu hn rfl s k, fun ha =>
      ⟨privTrap_csr_ur rfl hu hn (hw (.inl rfl) ha) s k, privTrap_csr_ur rfl hu hn (hw (.inr rfl) ha) s k⟩⟩
    exact (privTrap_csr (i := .csrr d n) rfl s k c).trans (by rw [csrTrap_user_ur hu hn]; rfl)
  · exact privTrap_supervisor (by simpa using hu) s k i
  · unfold illegalTrap
    rw [if_pos]
    · rfl
    · rw [hp, hf, show ctxId k = 4 from hk]; simp
  · refine ⟨_, by rw [issueWords, hd, bundleTrap_illegal hh hq], ?_⟩
    exact enterTrap_enters (t := trapOf causeIllegal 0 0) hrun hst (by decide) (by decide)

end Sys2Proof.Machine
end

section
/-! PROOFS. Values and acknowledgements that land (R27, R122, R280). -/

namespace Sys2Proof.Machine

/-! ## Values (R27) -/

/-- Only a context in WFI is woken by a landing (R288). -/
theorem wakeWfi_of_ne {k : Nat} {s : State} (h : ∀ t, (s.ctx k).park ≠ .wfi t) : wakeWfi k s = s := by
  unfold wakeWfi
  split
  · next t e => exact absurd e (h t)
  · rfl

/-- A value that lands changes its register, the pending bit and the poison (R27). -/
theorem landReg_eq (c : Ctx) (r : SReg) (v : Word) : landReg none c (r, v) =
    { c with s := (c.setS r v).s, pend := (c.setPend r false).pend, poison := drop r.toNat c.poison } := by
  unfold landReg Ctx.setS Ctx.setPend
  by_cases h : r = 0
  · simp only [h, if_true]
  · simp only [h, if_false]

theorem landReg_rd (c : Ctx) (r x : SReg) (v : Word) (h : r ≠ 0) : (landReg none c (r, v)).rd x = if x = r then v else c.rd x := by
  rw [landReg_eq]
  exact (rd_setS c r x v).trans (by simp only [h, ne_eq, not_false_eq_true, and_true])

theorem landReg_pending (c : Ctx) (r x : SReg) (v : Word) (h : r ≠ 0) :
    (landReg none c (r, v)).pending x = if x = r then false else c.pending x := by
  rw [landReg_eq]
  exact (pending_setPend c r x false).trans (by simp only [h, ne_eq, not_false_eq_true, and_true])

/-- A landing with one scalar value. -/
theorem applyLanding_reg {k : Nat} {l : Landing} {r : SReg} {v : Word} {s : State}
    (hl : l = { Landing.empty with seq := l.seq, due := l.due, regs := [(r, v)], firm := l.firm, waitw := l.waitw })
    (hp : ∀ t, (s.ctx k).park ≠ .wfi t) : applyLanding k l s = s.modCtx k fun c => landReg none c (r, v) := by
  rw [hl]
  have hw : wakeWfi k (s.modCtx k fun c => landReg none c (r, v)) = s.modCtx k fun c => landReg none c (r, v) :=
    wakeWfi_of_ne (by rw [ctx_modCtx_self, landReg_eq]; exact hp)
  show (if ([(r, v)].all (·.1 = 0) ∧ ([] : List (Nat × Row)).isEmpty ∧ ([] : List SReg).all (· = 0)) then
    (s.modCtx k fun c => landReg none c (r, v)) else wakeWfi k (s.modCtx k fun c => landReg none c (r, v))) = _
  rw [hw, ite_self]

/-- A landing with one row. -/
theorem applyLanding_row {k : Nat} {l : Landing} {key : Nat} {x : Row} {s : State}
    (hl : l = { Landing.empty with seq := l.seq, due := l.due, rows := [(key, x)], firm := l.firm })
    (hp : ∀ t, (s.ctx k).park ≠ .wfi t) : applyLanding k l s = modRow (coreOf k) key (landRow none x) (s.modCtx k id) := by
  rw [hl]
  have hw : wakeWfi k (modRow (coreOf k) key (landRow none x) (s.modCtx k id)) = modRow (coreOf k) key (landRow none x) (s.modCtx k id) :=
    wakeWfi_of_ne fun t => by show ((s.modCtx k id).ctx k).park ≠ _; rw [ctx_modCtx_self]; exact hp t
  show (if (([] : List (SReg × Word)).all (·.1 = 0) ∧ [(key, x)].isEmpty ∧ ([] : List SReg).all (· = 0)) then
    modRow (coreOf k) key (landRow none x) (s.modCtx k id) else wakeWfi k (modRow (coreOf k) key (landRow none x) (s.modCtx k id))) = _
  rw [hw, ite_self]

/-- VALUE_LAND of a landing that is due (R27). -/
theorem effValueLand_due {s : State} {k i : Nat} {l : Landing} (h : (s.ctx k).landings[i]? = some l) (hd : l.due ≤ s.cycle) :
    effValueLand k i s = applyLanding k l (s.modCtx k fun c => { c with landings := dropAt i c.landings }) := by
  simp only [effValueLand, h, if_pos hd]

/-- Before its cycle a landing stays. -/
theorem effValueLand_early {s : State} {k i : Nat} {l : Landing} (h : (s.ctx k).landings[i]? = some l) (hd : s.cycle < l.due) :
    effValueLand k i s = s := by
  simp only [effValueLand, h, if_neg (Nat.not_le.mpr hd)]

/-! ## Acknowledgements (R122, R280) -/

theorem effAckArrive_early {s : State} {k : Nat} (h : ∀ a ∈ (s.ctx k).acks, s.cycle < a.due) : effAckArrive k s = s := by
  have hn : ((s.ctx k).acks.find? fun a => a.due ≤ s.cycle) = none := by
    rw [List.find?_eq_none]
    intro a ha
    simpa using h a ha
  simp only [effAckArrive, hn]

/-- What an acknowledgement brings, but for its flags. -/
def Ctx.acked (now : Nat) (a : Ack) (c : Ctx) : Ctx := { c with
  acks := c.acks.erase a, failure := c.failure <|> a.fail
  failedAt := if c.failure.isNone ∧ a.fail.isSome then now else c.failedAt }

theorem raise_zero_ctx (k : Nat) (fl : BitVec 5) (s : State) :
    OnlyCtx k s (if fl = 0 then s else raise k fl s) ∧ ∃ evc, (if fl = 0 then s else raise k fl s).ctx k =
      { s.ctx k with fflags := (s.ctx k).fflags ||| fl, evc := evc } := by
  by_cases h : fl = 0
  · rw [if_pos h]
    exact ⟨.refl s k, (s.ctx k).evc, by simp [h]⟩
  · rw [if_neg h]
    exact ⟨raise_only k fl s, _, raise_ctx k fl s⟩

/-- The oldest acknowledgement, once due, brings its flags or its failure. -/
theorem effAckArrive_due {s : State} {k : Nat} {a : Ack} {rest : List Ack} (h : (s.ctx k).acks = a :: rest) (hd : a.due ≤ s.cycle) :
    OnlyCtx k s (effAckArrive k s) ∧ ∃ evc, (effAckArrive k s).ctx k =
      { (s.ctx k).acked s.cycle a with fflags := (s.ctx k).fflags ||| a.flags, evc := evc } := by
  have hf : ((s.ctx k).acks.find? fun a => a.due ≤ s.cycle) = some a := by
    rw [h, List.find?_cons_of_pos (by simpa using hd)]
  obtain ⟨ho, evc, he⟩ := raise_zero_ctx k a.flags (s.modCtx k (Ctx.acked s.cycle a))
  simp only [effAckArrive, hf]
  refine ⟨(OnlyCtx.modCtx s k _).trans ho, evc, he.trans ?_⟩
  rw [ctx_modCtx_self]
  rfl

/-- Settles O28: `applyLanding_reg` and `applyLanding_row` for values, `effAckArrive_due` for acknowledgements. -/
theorem landingEvents : Obligations.LandingEvents := by
  refine ⟨fun s k i l r v hi hd hr hl hp => ?_, fun s k i l key x hi hd hl hp => ?_, fun s k i l hi hd => ?_,
    fun s k => ⟨fun h => ?_, fun a rest h hd => ?_⟩⟩
  · refine ⟨effValueLand k i s, rfl, ?_⟩
    rw [effValueLand_due hi hd, applyLanding_reg hl (by rw [ctx_modCtx_self]; exact hp), ctx_modCtx_self, ctx_modCtx_self]
    refine ⟨(OnlyCtx.modCtx s k _).trans (OnlyCtx.modCtx _ k _), ?_, ?_, fun x hx => ⟨?_, ?_⟩, fun x => ?_, ?_⟩
    · rw [landReg_rd _ _ _ _ hr, if_pos rfl]
    · rw [landReg_pending _ _ _ _ hr, if_pos rfl]
    · rw [landReg_rd _ _ _ _ hr, if_neg hx]; rfl
    · rw [landReg_pending _ _ _ _ hr, if_neg hx]; rfl
    · rw [landReg_eq]; exact rdC_congr rfl x
    · rw [landReg_eq]; exact ⟨rfl, rfl, rfl⟩
  · refine ⟨effValueLand k i s, rfl, ?_⟩
    rw [effValueLand_due hi hd, applyLanding_row hl (by rw [ctx_modCtx_self]; exact hp)]
    refine ⟨?_, fun j hj => ?_, fun c hc => core_modCore_ne _ _ _ _ hc, ?_, .of_eq rfl rfl rfl rfl⟩
    · rw [modRow_row, if_pos rfl]; rfl
    · rw [modRow_row, if_neg hj]; rfl
    · show (((s.modCtx k _).modCtx k id).ctx k).s = _
      rw [ctx_modCtx_self, ctx_modCtx_self]; rfl
  · exact congrArg Host.Outcome.next (effValueLand_early hi hd)
  · exact congrArg Host.Outcome.next (effAckArrive_early h)
  · obtain ⟨ho, evc, he⟩ := effAckArrive_due h hd
    refine ⟨effAckArrive k s, rfl, ho, ?_, ?_, ?_, fun hn hs => ?_, ?_⟩ <;> rw [he]
    · show (s.ctx k).acks.erase a = rest
      rw [h, List.erase_cons_head]
    · rfl
    · show (if (s.ctx k).failure.isNone ∧ a.fail.isSome then s.cycle else _) = _
      rw [if_pos ⟨by rw [hn]; rfl, Option.isSome_iff_ne_none.mpr hs⟩]
    · rfl

end Sys2Proof.Machine
end

section
/-! PROOFS. Parks, the dial's waits, teams and the exit of a context (R9, R288, R290 to R292, R327). -/

namespace Sys2Proof.Machine

/-! ## Tables -/

/-- What a table reads is its default or one of its records. -/
theorem look_default_or_mem {α : Type} (d : α) (m : List (Nat × α)) (k : Nat) : look d m k = d ∨ (k, look d m k) ∈ m := by
  induction m with
  | nil => exact .inl rfl
  | cons p t ih =>
    obtain ⟨k', v⟩ := p
    by_cases h : k' = k
    · subst h; simp [look]
    · simp only [look, if_neg h]
      exact ih.imp id (List.mem_cons_of_mem _)

/-- A change of every record that leaves the default alone. -/
theorem look_map {α : Type} (d : α) (g : α → α) (hg : g d = d) (m : List (Nat × α)) (k : Nat) :
    look d (m.map fun p => (p.1, g p.2)) k = g (look d m k) := by
  induction m with
  | nil => exact hg.symm
  | cons p t ih =>
    obtain ⟨k', v⟩ := p
    by_cases h : k' = k
    · subst h; simp [look]
    · simp only [List.map_cons, look, if_neg h]
      exact ih

/-- Whether some record has property q, once a record is replaced by one that has it just as the old one had. -/
theorem any_put {α : Type} (d v : α) (q : α → Bool) (hd : q d = false) (k : Nat) (m : List (Nat × α)) (hv : q v = q (look d m k)) :
    ((put k v m).any fun p => q p.2) = m.any fun p => q p.2 := by
  induction m with
  | nil => simp only [look, hd] at hv; simp [put, hv]
  | cons p t ih =>
    obtain ⟨k', v'⟩ := p
    by_cases hlt : k < k'
    · rw [put, if_pos hlt, List.any_cons, hv]
      rcases look_default_or_mem d ((k', v') :: t) k with h | h
      · rw [h, hd, Bool.false_or]
      · cases hq : q (look d ((k', v') :: t) k) with
        | false => rw [Bool.false_or]
        | true => exact (List.any_eq_true.mpr ⟨_, h, hq⟩).symm
    · by_cases he : k = k'
      · subst he
        rw [put, if_neg hlt, if_pos rfl, List.any_cons, List.any_cons, hv]
        simp [look]
      · rw [put, if_neg hlt, if_neg he, List.any_cons, List.any_cons]
        rw [look, if_neg (Ne.symm he)] at hv
        rw [ih hv]

/-! ## Parks (R9, R291) -/

/-- A change that leaves a context's leader and backlog leaves who belongs to a team. -/
theorem inTeam_modCtx (s : State) (k : Nat) (f : Ctx → Ctx) (h : ∀ c, (f c).leader = c.leader ∧ (f c).backlog = c.backlog) :
    inTeam (s.modCtx k f) k = inTeam s k := by
  have ha : ((s.modCtx k f).ctxs.any fun p => p.2.leader == some k) = s.ctxs.any fun p => p.2.leader == some k :=
    any_put {} _ (fun c : Ctx => c.leader == some k) rfl k s.ctxs (by rw [(h _).1]; rfl)
  unfold inTeam
  rw [ctx_modCtx_self, (h _).1, (h _).2, ha]

theorem yieldCore_team {s : State} {k : Nat} (h : inTeam s k = true) : yieldCore k s = s := by rw [yieldCore, if_pos h]

theorem yieldCore_alone {s : State} {k : Nat} (h : inTeam s k = false) : yieldCore k s = giveUp k s := by
  rw [yieldCore, if_neg (by simp [h])]

theorem yieldCore_ctx_ne (s : State) {k j : Nat} (h : j ≠ k) : (yieldCore k s).ctx j = s.ctx j := by
  rcases yieldCore_cases k s with e | e <;> rw [e]
  exact giveUp_ctx_ne s h

theorem yieldCore_core_ne (s : State) {k c : Nat} (h : c ≠ coreOf k) : (yieldCore k s).core c = s.core c := by
  rcases yieldCore_cases k s with e | e <;> rw [e]
  exact giveUp_core_ne s h

/-- A context parked on p at dial time `now`. -/
def Ctx.parkedOn (p : Park) (now : Nat) (c : Ctx) : Ctx := { c with status := .parked, park := p, parkAt := now, parkPc := c.pc }

theorem park_yields (k : Nat) (p : Park) (s : State) : park k p s = yieldCore k (s.modCtx k (Ctx.parkedOn p (dialOf s k))) := rfl

theorem inTeam_parkedOn (s : State) (k : Nat) (p : Park) (now : Nat) : inTeam (s.modCtx k (Ctx.parkedOn p now)) k = inTeam s k :=
  inTeam_modCtx s k _ fun _ => ⟨rfl, rfl⟩

theorem park_ctx (k : Nat) (p : Park) (s : State) : (park k p s).ctx k =
    { s.ctx k with status := .parked, park := p, parkAt := dialOf s k, parkPc := (s.ctx k).pc } := by
  rw [park, yieldCore_ctx_rests (by rw [ctx_modCtx_self]; nofun), ctx_modCtx_self]

theorem park_ctx_ne (p : Park) (s : State) {k j : Nat} (h : j ≠ k) : (park k p s).ctx j = s.ctx j := by
  rw [park, yieldCore_ctx_ne _ h, ctx_modCtx_ne _ _ _ _ h]

theorem park_eq (k : Nat) (p : Park) (s : State) : park k p s = { s with ctxs := (park k p s).ctxs, cores := (park k p s).cores } := by
  unfold park
  rw [yieldCore_eq]; rfl

theorem park_sameBytes (k : Nat) (p : Park) (s : State) : SameBytes s (park k p s) := by
  rw [park_eq]; exact .of_eq rfl rfl rfl rfl

theorem park_core_ne (p : Park) (s : State) {k c : Nat} (h : c ≠ coreOf k) : (park k p s).core c = s.core c := by
  rw [park, yieldCore_core_ne _ h, modCtx_core]

/-- Outside a team the core is given up. -/
theorem park_alone (p : Park) {s : State} {k : Nat} (h : inTeam s k = false) : ((park k p s).core (coreOf k)).running ≠ some (ctxId k) := by
  rw [park_yields, yieldCore_alone ((inTeam_parkedOn s k p _).trans h)]
  exact giveUp_running _ _

/-- A member of a team keeps it (R291). -/
theorem park_team (p : Park) {s : State} {k : Nat} (h : inTeam s k = true) : (park k p s).core (coreOf k) = s.core (coreOf k) := by
  rw [park_yields, yieldCore_team ((inTeam_parkedOn s k p _).trans h)]
  rfl

/-! ## Leaving a team (R290) -/

/-- A follower of context k without its leader. -/
def Ctx.unled (k : Nat) (c : Ctx) : Ctx := if c.leader = some k then { c with leader := none, lastLeader := some k } else c

theorem unled_leader (k : Nat) (c : Ctx) : (c.unled k).leader ≠ some k := by
  unfold Ctx.unled
  split
  · nofun
  · assumption

theorem unled_keeps (k : Nat) (c : Ctx) : c.unled k = { c with leader := (c.unled k).leader, lastLeader := (c.unled k).lastLeader } := by
  unfold Ctx.unled
  split <;> rfl

theorem dropFollowers_ctx (k j : Nat) (s : State) : (dropFollowers k s).ctx j = (s.ctx j).unled k := by
  have h : (fun p : Nat × Ctx => if p.2.leader = some k then (p.1, { p.2 with leader := none, lastLeader := some k }) else p) =
      fun p => (p.1, p.2.unled k) := by
    funext p
    unfold Ctx.unled
    split <;> rfl
  show look {} (s.ctxs.map fun p : Nat × Ctx => if p.2.leader = some k then (p.1, { p.2 with leader := none, lastLeader := some k }) else p) j = _
  rw [h, look_map {} (Ctx.unled k) rfl]
  rfl

theorem leaveTeam_eq (k : Nat) (s : State) : leaveTeam k s = { s with ctxs := (leaveTeam k s).ctxs } := by
  unfold leaveTeam
  dsimp only
  split <;> rfl

/-- Of a context, leaving a team changes its leader, and the last one, alone. -/
theorem leaveTeam_ctx (k j : Nat) (s : State) : (leaveTeam k s).ctx j =
    { s.ctx j with leader := ((leaveTeam k s).ctx j).leader, lastLeader := ((leaveTeam k s).ctx j).lastLeader } := by
  have hd : (dropFollowers k s).ctx j = { s.ctx j with
      leader := ((dropFollowers k s).ctx j).leader, lastLeader := ((dropFollowers k s).ctx j).lastLeader } := by
    rw [dropFollowers_ctx]; exact unled_keeps k _
  unfold leaveTeam
  dsimp only
  split
  · rw [ctx_modCtx]
    split
    · next h => subst h; rw [hd]
    · exact hd
  · exact hd

theorem leaveTeam_leader (k : Nat) (s : State) : ((leaveTeam k s).ctx k).leader = none := by
  unfold leaveTeam
  dsimp only
  split
  · rw [ctx_modCtx_self]
  · next h => simpa using h

theorem leaveTeam_followers (k j : Nat) (s : State) : ((leaveTeam k s).ctx j).leader ≠ some k := by
  unfold leaveTeam
  dsimp only
  split
  · rw [ctx_modCtx]
    split
    · nofun
    · rw [dropFollowers_ctx]; exact unled_leader k _
  · rw [dropFollowers_ctx]; exact unled_leader k _

/-! ## Registrations (R126) -/

/-- No waiter of bank b is picked by f. -/
def NoWaiter (f : Registered → Bool) (s : State) (b : Nat) : Prop := ∀ w ∈ (s.bank b).waiters, f w = false

/-- The waiters of one bank that f picks removed. -/
def unregisterAt (f : Registered → Bool) (b : Nat) (s : State) : State :=
  if (s.bank b).waiters.any f then syncMask b (s.modBank b fun x => { x with waiters := x.waiters.filter fun r => !f r }) else s

/-- The waiters of the dies that f picks removed. -/
def unregisterDies (f : Registered → Bool) (s : State) : State :=
  { s with dies := s.dies.map fun (p : Nat × Die) => (p.1, { p.2 with waiters := p.2.waiters.filter fun r => !f r }) }

theorem unregister_fold (f : Registered → Bool) (s : State) :
    unregister f s = s.banks.foldl (fun s p => unregisterAt f p.1 s) (unregisterDies f s) := rfl

theorem syncMask_eq (b : Nat) (s : State) :
    syncMask b s = { s with bankMem := (syncMask b s).bankMem, bankPoison := (syncMask b s).bankPoison } := by
  unfold syncMask
  dsimp only
  split <;> rfl

theorem syncMask_bank (b j : Nat) (s : State) : (syncMask b s).bank j = s.bank j := by rw [syncMask_eq]; rfl

theorem unregisterAt_eq (f : Registered → Bool) (b : Nat) (s : State) : unregisterAt f b s = { s with
    banks := (unregisterAt f b s).banks, bankMem := (unregisterAt f b s).bankMem, bankPoison := (unregisterAt f b s).bankPoison } := by
  unfold unregisterAt
  split
  · rw [syncMask_eq]; rfl
  · rfl

theorem unregisterAt_bank (f : Registered → Bool) (b j : Nat) (s : State) :
    ((unregisterAt f b s).bank j).waiters = if j = b then (s.bank j).waiters.filter (fun r => !f r) else (s.bank j).waiters := by
  unfold unregisterAt
  split
  · rw [syncMask_bank, bank_modBank]
    split
    · next h => rw [h]
    · rfl
  · next h =>
    split
    · next hj =>
      subst hj
      rw [List.filter_eq_self.mpr]
      intro w hw
      rw [Bool.not_eq_true, List.any_eq_false] at h
      simpa using h w hw
    · rfl

/-- A bank with nothing to remove is left as it is. -/
theorem unregisterAt_none {f : Registered → Bool} {b : Nat} {s : State} (h : NoWaiter f s b) : unregisterAt f b s = s := by
  rw [unregisterAt, if_neg]
  rw [Bool.not_eq_true, List.any_eq_false]
  exact fun w hw => by simp [h w hw]

theorem noWaiter_unregisterAt {f : Registered → Bool} {b j : Nat} {s : State} (h : j = b ∨ NoWaiter f s j) : NoWaiter f (unregisterAt f b s) j := by
  unfold NoWaiter
  rw [unregisterAt_bank]
  split
  · intro w hw
    simpa using (List.mem_filter.mp hw).2
  · next hj => exact h.resolve_left hj

theorem noWaiter_foldl (f : Registered → Bool) (l : List (Nat × Bank)) (s : State) (j : Nat)
    (h : (∃ p ∈ l, p.1 = j) ∨ NoWaiter f s j) : NoWaiter f (l.foldl (fun s p => unregisterAt f p.1 s) s) j := by
  induction l generalizing s with
  | nil => exact h.resolve_left (by simp)
  | cons p l ih =>
    rw [List.foldl_cons]
    apply ih
    rcases h with ⟨q, hq, rfl⟩ | h
    · rcases List.mem_cons.mp hq with rfl | hq
      · exact .inr (noWaiter_unregisterAt (.inl rfl))
      · exact .inl ⟨q, hq, rfl⟩
    · exact .inr (noWaiter_unregisterAt (.inr h))

theorem foldl_unregisterAt_eq (f : Registered → Bool) (l : List (Nat × Bank)) (s : State) :
    let t := l.foldl (fun s p => unregisterAt f p.1 s) s
    t = { s with banks := t.banks, bankMem := t.bankMem, bankPoison := t.bankPoison } := by
  induction l generalizing s with
  | nil => rfl
  | cons p l ih =>
    have h := ih (unregisterAt f p.1 s)
    rw [List.foldl_cons]
    dsimp only at h ⊢
    rw [h, unregisterAt_eq f p.1 s]

theorem foldl_unregisterAt_none {f : Registered → Bool} {s : State} (h : ∀ b, NoWaiter f s b) (l : List (Nat × Bank)) :
    l.foldl (fun s p => unregisterAt f p.1 s) s = s := by
  induction l with
  | nil => rfl
  | cons p l ih => rw [List.foldl_cons, unregisterAt_none (h p.1), ih]

/-- Removing registrations changes the banks, their bytes and the dies alone. -/
theorem unregister_eq (f : Registered → Bool) (s : State) : unregister f s = { s with
    banks := (unregister f s).banks, bankMem := (unregister f s).bankMem, bankPoison := (unregister f s).bankPoison
    dies := (unregister f s).dies } := by
  have h := foldl_unregisterAt_eq f s.banks (unregisterDies f s)
  rw [unregister_fold]
  dsimp only at h ⊢
  rw [h]
  rfl

theorem unregister_banks (f : Registered → Bool) (s : State) (b : Nat) : NoWaiter f (unregister f s) b := by
  rw [unregister_fold]
  apply noWaiter_foldl
  rcases look_default_or_mem {} s.banks b with h | h
  · refine .inr fun w hw => ?_
    rw [show (unregisterDies f s).bank b = {} from h] at hw
    exact absurd hw List.not_mem_nil
  · exact .inl ⟨_, h, rfl⟩

theorem unregister_dies (f : Registered → Bool) (s : State) (d : Nat) : ∀ w ∈ ((unregister f s).die d).waiters, f w = false := by
  have hd : (unregister f s).die d = { s.die d with waiters := (s.die d).waiters.filter fun r => !f r } := by
    have h := foldl_unregisterAt_eq f s.banks (unregisterDies f s)
    rw [unregister_fold]
    dsimp only at h ⊢
    rw [h]
    exact look_map {} (fun x : Die => { x with waiters := x.waiters.filter fun r => !f r }) rfl s.dies d
  rw [hd]
  intro w hw
  simpa using (List.mem_filter.mp hw).2

/-- No byte changes where no bank has a registration to remove. -/
theorem unregister_sameBytes {f : Registered → Bool} {s : State} (h : ∀ b, NoWaiter f s b) : SameBytes s (unregister f s) := by
  rw [unregister_fold, foldl_unregisterAt_none (f := f) (s := unregisterDies f s) h]
  exact .of_eq rfl rfl rfl rfl

end Sys2Proof.Machine
end

section
/-! PROOFS. RDTIME, WAITT, WFI, FOLLOW, ATTACH, DETACH and the exit of a context (R288, R290, R292, R327). -/

namespace Sys2Proof.Machine

/-! ## The dial (R288, R292) -/

theorem dialOf_lt (s : State) (k : Nat) : dialOf s k < 2 ^ 64 := by
  unfold dialOf dial wrap
  have h := Int.emod_lt_of_pos (dialFine s (dieOf (coreOf k)) / 30000) (b := ((2 ^ 64 : Nat) : Int)) (by decide)
  omega

/-- RDTIME's value on its way. -/
def dialLanding (d : SReg) (s : State) : Landing :=
  { Landing.empty with due := s.cycle + 1, regs := [(d, BitVec.ofNat 64 (dialOf s s.cur))] }

theorem effRdtime_ctx (d : SReg) (s : State) : (effRdtime d s).ctx s.cur = { s.ctx s.cur with
    pend := ((setPending s.cur [d] s).ctx s.cur).pend
    landings := (s.ctx s.cur).landings ++ [{ dialLanding d s with seq := s.seq }]
    evc := (s.ctx s.cur).evc.set 9 (satInc ((s.ctx s.cur).evc.get 9) 1)
    status := ((effRdtime d s).ctx s.cur).status } := by
  unfold effRdtime
  dsimp only
  rw [offCore_ctx, queueLanding_ctx, setPending_ctx]
  rfl

theorem effRdtime_ctx_ne (d : SReg) (s : State) {j : Nat} (h : j ≠ s.cur) : (effRdtime d s).ctx j = s.ctx j := by
  unfold effRdtime
  dsimp only
  rw [offCore_ctx_ne _ h, (queueLanding_landings _ _ _).2.2 j h]
  exact (setPending_only _ _ _).2 j h

theorem effRdtime_sameBytes (d : SReg) (s : State) : SameBytes s (effRdtime d s) := by
  have h : SameBytes s (queueLanding s.cur (dialLanding d s) (setPending s.cur [d] s)) := .of_eq rfl rfl rfl rfl
  exact h.trans (offCore_sameBytes _ _)

/-! ## Exit (R327) -/

/-- A context that has exited. -/
def Ctx.exited (now : Nat) (c : Ctx) : Ctx := { departAll now c with
  status := .idle, park := .none, wgt := 0, left := .exited, exiting := false, failure := none, backlog := [] }

theorem releaseQuarter_of_not_departs {k : Nat} {s : State} (h : departs k s = false) : releaseQuarter k s = s := by
  unfold releaseQuarter
  rw [if_neg]
  intro e
  simp [departs, e] at h

theorem departs_modLaunch (k l : Nat) (s : State) (f : Launch → Launch) : departs k (s.modLaunch l f) = departs k s := by
  unfold departs
  rw [modLaunch_core, modLaunch_ctx]

/-- The state as the exiting context leaves its team, with no registration of it. -/
def unteamed (k : Nat) (s : State) : State := unregister (·.mine k (s.ctx k)) (leaveTeam k s)

/-- A context exits: with no failure to leave and no quarter held, and its waits over. -/
theorem effContextExit_ready {s : State} {k l : Nat} (he : (s.ctx k).exiting = true) (hs : (s.ctx k).status = .parked)
    (hf : (s.ctx k).failure = none) (hl : (s.ctx k).launch = some l) (hd : departs k s = false) (hr : exitReady s k = true) :
    effContextExit k s = (giveUp k ((unteamed k (s.modLaunch l fun x => { x with returns := x.returns ++ [((s.ctx k).wgt.toNat : Int)] })).modCtx k
      (Ctx.exited s.cycle))).modLaunch l fun x => { x with exited := x.exited + 1 } := by
  have hfail : leaveFailure k s = s := by simp only [leaveFailure, hf]
  have hw : returnWeight k (s.ctx k).wgt.toNat s = s.modLaunch l fun x => { x with returns := x.returns ++ [((s.ctx k).wgt.toNat : Int)] } := by
    simp only [returnWeight, hl]
  unfold effContextExit
  dsimp only
  rw [if_neg (by simp [he, hs, hr]), hfail, hw, hd, releaseQuarter_of_not_departs (by rw [departs_modLaunch, hd]), hl, unteamed, modLaunch_ctx]
  have hc : (unregister (·.mine k (s.ctx k)) (leaveTeam k (s.modLaunch l fun x =>
      { x with returns := x.returns ++ [((s.ctx k).wgt.toNat : Int)] }))).cycle = s.cycle := by
    rw [unregister_eq, leaveTeam_eq]
    exact modLaunch_cycle s l _
  rw [if_neg Bool.false_ne_true, hc]
  rfl

theorem unteamed_ctx (k j : Nat) (s : State) : (unteamed k s).ctx j = (leaveTeam k s).ctx j := by
  rw [unteamed, unregister_eq]; rfl

theorem unteamed_launches (k : Nat) (s : State) : (unteamed k s).launches = s.launches := by
  rw [unteamed, unregister_eq, leaveTeam_eq]

theorem giveUp_bank (k b : Nat) (s : State) : (giveUp k s).bank b = s.bank b := by rw [giveUp_eq]; rfl

theorem giveUp_die (k d : Nat) (s : State) : (giveUp k s).die d = s.die d := by rw [giveUp_eq]; rfl

theorem giveUp_launches (k : Nat) (s : State) : (giveUp k s).launches = s.launches := by rw [giveUp_eq]

/-- Every part in a barrier is departed once the context has left them all (R136). -/
theorem departAll_bar (now : Nat) (c : Ctx) (dom : Domain) : ((departAll now c).bar dom).departed = true := by
  have h : (departAll now c).bar dom = if (c.bar dom).departed then c.bar dom else { c.bar dom with departed := true, since := now } :=
    Vector.getElem_map ..
  rw [h]
  split
  · assumption
  · rfl

theorem giveUp_exited_ctx (k now : Nat) (s : State) : (giveUp k (s.modCtx k (Ctx.exited now))).ctx k = Ctx.exited now (s.ctx k) := by
  rw [giveUp_ctx_rests (by rw [ctx_modCtx_self]; nofun), ctx_modCtx_self]

/-- A registration of no request of the context is none of its own. -/
theorem mine_of_not_of {k : Nat} {w : Registered} (h : w.of k = false) (c : Ctx) : w.mine k c = false := by
  unfold Registered.of at h
  unfold Registered.mine
  cases hw : w.who with
  | ctx j q => rw [hw] at h; simp only [h, Bool.false_and]
  | _ => rfl

theorem unteamed_sameBytes {k : Nat} {s : State} (h : ∀ b, ∀ w ∈ (s.bank b).waiters, w.of k = false) : SameBytes s (unteamed k s) := by
  have hb : ∀ b, (leaveTeam k s).bank b = s.bank b := fun b => by rw [leaveTeam_eq]; rfl
  refine SameBytes.trans (t := leaveTeam k s) (by rw [leaveTeam_eq]; exact .of_eq rfl rfl rfl rfl) (unregister_sameBytes fun b w hw => ?_)
  rw [hb] at hw
  exact mine_of_not_of (h b w hw) _

/-- What an exit leaves: the context, its launch, the registrations and the bytes. -/
theorem effContextExit_leaves {s : State} {k l : Nat} {x : Launch} (he : (s.ctx k).exiting = true) (hs : (s.ctx k).status = .parked)
    (hf : (s.ctx k).failure = none) (hl : (s.ctx k).launch = some l) (hx : find? s.launches l = some x) (hd : departs k s = false)
    (hr : exitReady s k = true) : let t := effContextExit k s
    (∃ u, t.ctx k = Ctx.exited s.cycle ((leaveTeam k u).ctx k)) ∧
    find? t.launches l = some { x with returns := x.returns ++ [((s.ctx k).wgt.toNat : Int)], exited := x.exited + 1 } ∧
    (∀ b, ∀ w ∈ (t.bank b).waiters, w.mine k (s.ctx k) = false) ∧ (∀ d, ∀ w ∈ (t.die d).waiters, w.mine k (s.ctx k) = false) ∧
    ((∀ b, ∀ w ∈ (s.bank b).waiters, w.of k = false) → SameBytes s t) := by
  rw [effContextExit_ready he hs hf hl hd hr]
  generalize hu : (s.modLaunch l fun x => { x with returns := x.returns ++ [((s.ctx k).wgt.toNat : Int)] }) = u
  have hctx : u.ctx k = s.ctx k := by rw [← hu]; exact modLaunch_ctx s l k _
  have hbank : ∀ b, u.bank b = s.bank b := fun b => by rw [← hu]; exact modLaunch_bank s l b _
  have hbytes : SameBytes s u := by rw [← hu, modLaunch_eq]; exact .of_eq rfl rfl rfl rfl
  have hfind : find? u.launches l = some { x with returns := x.returns ++ [((s.ctx k).wgt.toNat : Int)] } := by
    rw [← hu, find_modLaunch, if_pos rfl, hx]; rfl
  refine ⟨⟨u, ?_⟩, ?_, fun b => ?_, fun d => ?_, fun h => ?_⟩
  · rw [modLaunch_ctx, giveUp_exited_ctx, unteamed_ctx]
  · rw [find_modLaunch, if_pos rfl, giveUp_launches, modCtx_launches, unteamed_launches, hfind]; rfl
  · rw [modLaunch_bank, giveUp_bank, modCtx_bank, ← hctx]
    exact unregister_banks _ _ b
  · rw [modLaunch_die, giveUp_die, modCtx_die, ← hctx]
    exact unregister_dies _ _ d
  · refine (hbytes.trans (unteamed_sameBytes fun b w hw => h b w ?_)).trans ?_
    · rw [← hbank]; exact hw
    · rw [modLaunch_eq, giveUp_eq]
      exact .of_eq rfl rfl rfl rfl

/-! ## Teams (R290) -/

theorem bar_setBar_self (c : Ctx) (dom : Domain) (f : BarMember → BarMember) : (c.setBar dom f).bar dom = f (c.bar dom) :=
  Vector.getElem_set_self _

/-- FOLLOW's leader: the core of the bay by its low four bits (R290). -/
theorem leaderNamed_eq (k : Nat) (v : Word) : leaderNamed k v = (coreOf k / 16 * 16 + v.toNat % 16) * 8 + ctxId k := by
  simp [leaderNamed, wf, field]

/-- An arrival, where no wait has timed out (R135). -/
theorem arrive_ctx {s : State} {k : Nat} {dom : Domain} (h : markOf s k (s.ctx k) dom = none) : ∃ f : BarMember → BarMember,
    arrive k dom false none s = s.modCtx k (fun c => c.setBar dom f) ∧ ∀ b, (f b).arrived = b.arrived + 1 :=
  ⟨_, by rw [arrive, h]; rfl, fun _ => rfl⟩

/-- The phase that the arrival is for (R135). -/
theorem barPhase_eq {s : State} {k : Nat} {c : Ctx} {dom : Domain} (h : markOf s k (s.ctx k) dom = none) (hc : c.bar dom = (s.ctx k).bar dom) :
    barPhase s k c dom = ((s.ctx k).bar dom).arrived := by
  have hm : markOf s k c dom = none := by
    rw [← h]
    unfold markOf
    rw [hc]
  rw [barPhase, hm, hc]
  rfl

/-- FOLLOW and ATTACH: the context has arrived and is parked on the phase (R290). -/
theorem effJoin_parks {s : State} {dom : Domain} (hm : markOf s s.cur (s.ctx s.cur) dom = none)
    (hb : (me s).bar dom = (s.ctx s.cur).bar dom) (leader : Nat) : let t := effJoin dom leader s
    let p := ((s.ctx s.cur).bar dom).arrived
    (t.ctx s.cur).status = .parked ∧ (t.ctx s.cur).park = .team dom p leader ∧ ((t.ctx s.cur).bar dom).arrived = p + 1 ∧
    (t.ctx s.cur).s = (s.ctx s.cur).s ∧ SameBytes s t := by
  obtain ⟨f, hf, harr⟩ := arrive_ctx hm
  unfold effJoin
  dsimp only
  rw [barPhase_eq hm hb, hf, park_ctx, ctx_modCtx_self]
  refine ⟨rfl, rfl, ?_, rfl, SameBytes.trans (t := s.modCtx s.cur fun c => c.setBar dom f) (.of_eq rfl rfl rfl rfl) (park_sameBytes _ _ _)⟩
  show (((s.ctx s.cur).setBar dom f).bar dom).arrived = _
  rw [bar_setBar_self, harr]

/-- A parked context outside a handler that is able to issue again. -/
theorem unpark_ctx {s : State} {k : Nat} (hs : (s.ctx k).status = .parked) (hh : (s.ctx k).h = false) :
    (unpark k s).ctx k = { s.ctx k with status := .ready, park := .none } := by
  have hr : (s.ctx k).rested = .ready := by rw [Ctx.rested, hh]; rfl
  rw [unpark, ctx_modCtx_self, if_pos hs, hr]

theorem unpark_ctx_ne (s : State) {k j : Nat} (h : j ≠ k) : (unpark k s).ctx j = s.ctx j := ctx_modCtx_ne _ _ _ _ h

/-- The follower goes on where its leader does (R290). -/
theorem settle_team {s : State} {k p leader : Nat} {dom : Domain} (hs : (s.ctx k).status = .parked)
    (hp : (s.ctx k).park = .team dom p leader) (hdone : p < doneFor s k dom) : settle k s = joinTeam k leader (unpark k s) := by
  unfold settle
  dsimp only
  rw [if_pos ⟨hs, by rw [hp]; exact decide_eq_true hdone⟩, hp]

theorem joinTeam_ctx {s : State} {k leader : Nat} (h : (s.ctx leader).left = .no ∧ (s.ctx leader).status ≠ .idle ∧
    (s.ctx leader).launch = (s.ctx k).launch) :
    (joinTeam k leader s).ctx k = { s.ctx k with leader := some leader, pc := (s.ctx leader).pc } := by
  rw [joinTeam, if_pos h, ctx_modCtx_self]

theorem effDetach_of_not_departs {s : State} (h : departs s.cur s = false) : effDetach s = leaveTeam s.cur s := by
  unfold effDetach
  dsimp only
  rw [h, if_neg Bool.false_ne_true]

/-- Settles O31: parks by `park_ctx`, exits by `effContextExit_ready`, teams by `effJoin_parks`, `settle_team` and the lemmas
about `leaveTeam`. -/
theorem waitsTeamsAndExits : Obligations.WaitsTeamsAndExits := by
  refine ⟨fun s k p => ?_, fun s d a => ⟨fun hr hd => ?_, fun hr => ?_, fun hr ha => ?_, fun hr => ?_, dialOf_lt s⟩,
    fun s k l x he hs hf hl hx hd => ⟨fun hr => ?_, fun hr => ?_⟩, fun s a dom hm hb => ?_, fun s hr hd => ?_,
    fun s k p leader dom hs hp hdone hh hleft hidle hlaunch hne => ?_⟩
  · exact ⟨park_ctx k p s, fun j hj => park_ctx_ne p s hj, park_alone p, park_team p, fun c hc => park_core_ne p s hc,
      park_sameBytes k p s, by rw [park_eq], by rw [park_eq]⟩
  · refine ⟨effRdtime d s, { dialLanding d s with seq := s.seq }, next_runSlot hr rfl, by rw [effRdtime_ctx], rfl,
      Nat.add_le_add_left (by decide) _, ?_, by rw [effRdtime_ctx], fun j hj => effRdtime_ctx_ne d s hj, effRdtime_sameBytes d s⟩
    rw [effRdtime_ctx]
    exact (setPending_pending s.cur [d] d s).trans (by rw [bne_iff_ne.mpr hd]; simp)
  · exact next_runSlot hr rfl
  · exact next_runSlot hr (by rw [effWfi, if_neg ha])
  · exact next_runSlot hr rfl
  · have e : effContextExit k s = s := by rw [effContextExit, if_pos (by simp [hr])]
    exact congrArg Host.Outcome.next e
  · obtain ⟨⟨u, hctx⟩, hlaunch, hbanks, hdies, hbytes⟩ := effContextExit_leaves he hs hf hl hx hd hr
    refine ⟨effContextExit k s, _, rfl, ?_, ?_, ?_, ?_, fun dom => ?_, ?_, hlaunch, rfl, rfl, hbanks, hdies, hbytes⟩
    case refine_5 => rw [hctx]; exact departAll_bar _ _ dom
    case refine_6 => rw [hctx]; exact leaveTeam_leader k _
    all_goals rw [hctx]; rfl
  · refine ⟨fun hr => ⟨_, next_runSlot hr rfl, ?_⟩, fun hr => ⟨_, next_runSlot hr rfl, effJoin_parks hm hb _⟩⟩
    rw [leaderNamed_eq]
    exact effJoin_parks hm hb _
  · refine ⟨_, next_runSlot hr (effDetach_of_not_departs hd), leaveTeam_leader _ _, fun j => leaveTeam_followers _ j _, fun j => ?_,
      by rw [leaveTeam_eq]; exact .of_eq rfl rfl rfl rfl⟩
    rw [leaveTeam_ctx]
    exact ⟨rfl, rfl⟩
  · have hl : (unpark k s).ctx leader = s.ctx leader := unpark_ctx_ne s hne
    rw [settle_team hs hp hdone, joinTeam_ctx (by rw [hl, unpark_ctx hs hh]; exact ⟨hleft, hidle, hlaunch⟩), hl, unpark_ctx hs hh]
    exact ⟨rfl, rfl, rfl⟩

end Sys2Proof.Machine
end

section
/-! PROOFS. Row instructions: how they join the dispatch queue (R194) and start in lane groups (R195, R196). -/

namespace Sys2Proof.Machine

/-! ## Pending rows (R27) -/

theorem pendRows_eq (core : Nat) (keys : List Nat) (s : State) : pendRows core keys s = { s with cores := (pendRows core keys s).cores } := by
  unfold pendRows
  induction keys generalizing s with
  | nil => rfl
  | cons key keys ih => rw [List.foldl_cons, ih]; rfl

theorem pendRows_core_ne (keys : List Nat) (s : State) {core c : Nat} (h : c ≠ core) : (pendRows core keys s).core c = s.core c := by
  unfold pendRows
  induction keys generalizing s with
  | nil => rfl
  | cons key keys ih => rw [List.foldl_cons, ih]; exact core_modCore_ne _ _ _ _ h

/-- Of the core its rows alone change. -/
theorem pendRows_core (core : Nat) (keys : List Nat) (s : State) :
    (pendRows core keys s).core core = { s.core core with rows := ((pendRows core keys s).core core).rows } := by
  unfold pendRows
  induction keys generalizing s with
  | nil => rfl
  | cons key keys ih => rw [List.foldl_cons, ih, modRow, core_modCore_self]

/-- A row is pending once more for each time it is named. -/
theorem pendRows_row (core : Nat) (keys : List Nat) (s : State) (j : Nat) : ((pendRows core keys s).core core).row j =
    { (s.core core).row j with pend := ((s.core core).row j).pend + keys.count j } := by
  unfold pendRows
  induction keys generalizing s with
  | nil => rfl
  | cons key keys ih =>
    rw [List.foldl_cons, ih, modRow_row, List.count_cons]
    by_cases h : j = key
    · subst h
      simp only [if_true, beq_self_eq_true]
      congr 1
      omega
    · rw [if_neg h, if_neg (by simpa using Ne.symm h)]
      rfl

/-! ## A row instruction issues (R194) -/

/-- The dispatch entry of a row instruction: the results of its source rows as they stand. -/
def rowDispatch (i : Instr) (s : State) : Dispatch :=
  let k := s.cur
  let r := rowRes s k (me s) i
  { ctx := k, units := r.units.map fun u => u.filterMap fun p => (keyOf s k (me s) p.1).map fun key => (key, p.2)
    regs := r.reg.toList, flags := r.fl, sats := r.sats, cycles := r.cycles }

/-- TFIX leaves its bound in xstat. -/
def rowNoted (i : Instr) (s : State) : State :=
  match i with
  | .tfix _ _ a r _ => s.modCtx s.cur fun x => { x with xstat := BitVec.ofNat 64 (fixBound s s.cur (me s) (rowsAt a (rowsOf r))) }
  | _ => s

/-- The entry d joins its core's queue, its destinations pending. -/
def rowQueued (d : Dispatch) (s : State) : State :=
  (pendRows (coreOf d.ctx) (d.units.flatten.map (·.1)) (setPending d.ctx (d.regs.map (·.1)) s)).modCore (coreOf d.ctx)
    fun x => { x with queue := x.queue ++ [d] }

theorem effRow_eq (i : Instr) (s : State) :
    effRow i s = offCore s.cur (countOps s.cur (laneOps i) (rowQueued (rowDispatch i s) (rowNoted i s))) := by
  unfold effRow rowQueued rowDispatch rowNoted
  dsimp only
  cases (rowRes s s.cur (me s) i).reg <;> rfl

theorem rowNoted_only (i : Instr) (s : State) : OnlyCtx s.cur s (rowNoted i s) := by
  unfold rowNoted
  split
  · exact OnlyCtx.modCtx s _ _
  · exact .refl s _

theorem rowNoted_core (i : Instr) (c : Nat) (s : State) : (rowNoted i s).core c = s.core c := by rw [(rowNoted_only i s).1]; rfl

theorem rowNoted_ctx (i : Instr) (s : State) : (rowNoted i s).ctx s.cur = { s.ctx s.cur with xstat := ((rowNoted i s).ctx s.cur).xstat } := by
  unfold rowNoted
  split
  · rw [ctx_modCtx_self]
  · rfl

theorem countOps_eq (k n : Nat) (s : State) : countOps k n s = { s with launches := (countOps k n s).launches } := by
  unfold countOps
  split
  · exact modLaunch_eq _ _ _
  · rfl

theorem countOps_ctx (k n j : Nat) (s : State) : (countOps k n s).ctx j = s.ctx j := by rw [countOps_eq]; rfl

theorem countOps_core (k n c : Nat) (s : State) : (countOps k n s).core c = s.core c := by rw [countOps_eq]; rfl

theorem exec_rowInstr {i : Instr} (h : isRowInstr i = true) (s : State) : exec i s = .next (runSlot i (effRow i) s) := by
  cases i <;> simp only [isRowInstr, Bool.false_eq_true] at h
  all_goals rfl

section
variable (d : Dispatch) (s : State)

theorem rowQueued_eq : rowQueued d s = { s with ctxs := (rowQueued d s).ctxs, cores := (rowQueued d s).cores } := by
  unfold rowQueued
  rw [pendRows_eq]; rfl

theorem rowQueued_ctx (j : Nat) : (rowQueued d s).ctx j = (setPending d.ctx (d.regs.map (·.1)) s).ctx j := by
  unfold rowQueued
  rw [pendRows_eq]; rfl

theorem rowQueued_core : (rowQueued d s).core (coreOf d.ctx) = { s.core (coreOf d.ctx) with
    rows := ((rowQueued d s).core (coreOf d.ctx)).rows, queue := (s.core (coreOf d.ctx)).queue ++ [d] } := by
  unfold rowQueued
  rw [core_modCore_self, pendRows_core]
  rfl

theorem rowQueued_core_ne {c : Nat} (h : c ≠ coreOf d.ctx) : (rowQueued d s).core c = s.core c := by
  unfold rowQueued
  rw [core_modCore_ne _ _ _ _ h, pendRows_core_ne _ _ h]
  rfl

theorem rowQueued_row (key : Nat) : ((rowQueued d s).core (coreOf d.ctx)).row key = { (s.core (coreOf d.ctx)).row key with
    pend := ((s.core (coreOf d.ctx)).row key).pend + (d.units.flatten.map (·.1)).count key } := by
  have h := pendRows_row (coreOf d.ctx) (d.units.flatten.map (·.1)) (setPending d.ctx (d.regs.map (·.1)) s) key
  unfold rowQueued
  rw [core_modCore_self]
  exact h

end

/-- Of the core, an off-core reference leaves the rows and the queue. -/
theorem offCore_row (k : Nat) (s : State) (key : Nat) : ((offCore k s).core (coreOf k)).row key = (s.core (coreOf k)).row key := by
  rw [offCore_core]; rfl

section
variable (i : Instr) (s : State)

/-- Of its context, a row instruction at issue changes pending bits, xstat, the counters and the status alone. -/
theorem effRow_ctx : (effRow i s).ctx s.cur = { s.ctx s.cur with
    xstat := ((rowNoted i s).ctx s.cur).xstat
    pend := ((setPending s.cur ((rowDispatch i s).regs.map (·.1)) (rowNoted i s)).ctx s.cur).pend
    evc := (s.ctx s.cur).evc.set 9 (satInc ((s.ctx s.cur).evc.get 9) 1)
    status := ((effRow i s).ctx s.cur).status } := by
  rw [effRow_eq, offCore_ctx, countOps_ctx]
  rw [rowQueued_ctx, show (rowDispatch i s).ctx = s.cur from rfl, setPending_ctx, rowNoted_ctx]

theorem effRow_ctx_ne {j : Nat} (h : j ≠ s.cur) : (effRow i s).ctx j = s.ctx j := by
  rw [effRow_eq, offCore_ctx_ne _ h, countOps_ctx]
  exact ((rowQueued_ctx _ _ j).trans ((setPending_only _ _ _).2 j h)).trans ((rowNoted_only i s).2 j h)

/-- The entry is at the end of the core's queue. -/
theorem effRow_queue : ((effRow i s).core (coreOf s.cur)).queue = (s.core (coreOf s.cur)).queue ++ [rowDispatch i s] := by
  have h := congrArg CoreSt.queue (rowQueued_core (rowDispatch i s) (rowNoted i s))
  rw [effRow_eq, offCore_core, countOps_core]
  exact h.trans (by rw [rowNoted_core]; rfl)

theorem effRow_row (key : Nat) : ((effRow i s).core (coreOf s.cur)).row key = { (s.core (coreOf s.cur)).row key with
    pend := ((s.core (coreOf s.cur)).row key).pend + ((rowDispatch i s).units.flatten.map (·.1)).count key } := by
  have h := rowQueued_row (rowDispatch i s) (rowNoted i s) key
  rw [effRow_eq, offCore_row, countOps_core]
  exact h.trans (by rw [rowNoted_core]; rfl)

theorem effRow_core_ne {c : Nat} (h : c ≠ coreOf s.cur) : (effRow i s).core c = s.core c := by
  rw [effRow_eq, offCore_core_ne _ h, countOps_core]
  exact (rowQueued_core_ne (rowDispatch i s) _ h).trans (rowNoted_core i c s)

theorem effRow_sameBytes : SameBytes s (effRow i s) := by
  rw [effRow_eq]
  refine SameBytes.trans (t := countOps s.cur (laneOps i) (rowQueued (rowDispatch i s) (rowNoted i s))) ?_ (offCore_sameBytes _ _)
  rw [countOps_eq, rowQueued_eq, (rowNoted_only i s).1]
  exact .of_eq rfl rfl rfl rfl

/-- The destination rows are pending. -/
theorem effRow_pends {u : List (Nat × Row)} (hu : u ∈ (rowDispatch i s).units) {p : Nat × Row} (hp : p ∈ u) :
    (((effRow i s).core (coreOf s.cur)).row p.1).pend ≠ 0 := by
  have hc : 0 < ((rowDispatch i s).units.flatten.map (·.1)).count p.1 :=
    List.count_pos_iff.mpr (List.mem_map.mpr ⟨p, List.mem_flatten.mpr ⟨u, hu, hp⟩, rfl⟩)
  rw [effRow_row]
  exact Nat.ne_of_gt (Nat.lt_of_lt_of_le hc (Nat.le_add_left _ _))

/-- The destination register is pending. -/
theorem effRow_pending {p : SReg × Word} (hp : p ∈ (rowDispatch i s).regs) (h : p.1 ≠ 0) : ((effRow i s).ctx s.cur).pending p.1 = true := by
  have hs := setPending_pending s.cur ((rowDispatch i s).regs.map (·.1)) p.1 (rowNoted i s)
  have hm : ((rowDispatch i s).regs.map (·.1)).contains p.1 = true := List.contains_iff_mem.mpr (List.mem_map_of_mem hp)
  rw [effRow_ctx]
  refine hs.trans ?_
  rw [hm, bne_iff_ne.mpr h]
  rfl

end

/-! ## Rows start (R195, R196) -/

/-- The group on its way. -/
def rowLanding (d : Dispatch) (u : List (Nat × Row)) (us : List (List (Nat × Row))) (now : Nat) : Landing := { Landing.empty with
  due := now + d.cycles + 5, rows := u, regs := if us.isEmpty then d.regs else [], flags := if us.isEmpty then d.flags else 0
  sats := if us.isEmpty then d.sats else 0, row := true, firm := true }

/-- The cell once the arbiter has granted the core lane group g. -/
def rowGranted (core cycles : Nat) (g : Fin 4) (s : State) : State := s.modCell (core / 4) fun x =>
  { (x.grant (core % 4) (shareOf s (core / 4) (core % 4))) with lanes := x.lanes.set g.val (s.cycle + cycles) g.isLt }

/-- The state once the head's next rows have a lane group. -/
def rowStarted (core : Nat) (d : Dispatch) (rest : List Dispatch) (u : List (Nat × Row)) (us : List (List (Nat × Row))) (g : Fin 4)
    (s : State) : State :=
  queueLanding d.ctx (rowLanding d u us s.cycle)
    ((rowGranted core d.cycles g s).modCore core fun x => { x with queue := if us.isEmpty then rest else { d with units := us } :: rest })

section
variable {s : State} {core : Nat} {d : Dispatch} {rest : List Dispatch} (hq : (s.core core).queue = d :: rest)
include hq

theorem effRowStart_starts {u : List (Nat × Row)} {us : List (List (Nat × Row))} {g : Fin 4} (hu : d.units = u :: us)
    (hg : freeLane s (core / 4) = some g) (hm : mayStart s (pkgOf core) 2 (core / 4) = true)
    (hgr : grantee s (core / 4) = some (core % 4)) : effRowStart core s = rowStarted core d rest u us g s := by
  simp only [effRowStart, hq, hg, hu]
  rw [if_neg (by simp [hm, hgr])]
  rfl

/-- Without a grant or the governor's leave, the head waits. -/
theorem effRowStart_waits (hu : d.units ≠ []) (h : grantee s (core / 4) ≠ some (core % 4) ∨ mayStart s (pkgOf core) 2 (core / 4) = false) :
    effRowStart core s = s := by
  cases hl : d.units with
  | nil => exact absurd hl hu
  | cons u us =>
    cases hg : freeLane s (core / 4) with
    | none => simp only [effRowStart, hq, hg]
    | some g =>
      simp only [effRowStart, hq, hg, hl]
      rw [if_pos (h.imp id fun e => by rw [e]; rfl)]

end

/-- With an empty queue, or no free lane group, nothing starts. -/
theorem effRowStart_idle {s : State} {core : Nat} (h : (s.core core).queue = [] ∨ freeLane s (core / 4) = none) : effRowStart core s = s := by
  rcases h with h | h
  · simp only [effRowStart, h]
  · cases hq : (s.core core).queue <;> simp only [effRowStart, hq, h]

theorem rowStarted_ctx (core : Nat) (d : Dispatch) (rest : List Dispatch) (u : List (Nat × Row)) (us : List (List (Nat × Row))) (g : Fin 4)
    (s : State) : (rowStarted core d rest u us g s).ctx d.ctx =
      { s.ctx d.ctx with landings := (s.ctx d.ctx).landings ++ [{ rowLanding d u us s.cycle with seq := s.seq }] } :=
  queueLanding_ctx _ _ _

theorem rowStarted_cell (core : Nat) (d : Dispatch) (rest : List Dispatch) (u : List (Nat × Row)) (us : List (List (Nat × Row))) (g : Fin 4)
    (s : State) : ((rowStarted core d rest u us g s).cell (core / 4)).lanes = (s.cell (core / 4)).lanes.set g.val (s.cycle + d.cycles) g.isLt := by
  show ((rowGranted core d.cycles g s).cell (core / 4)).lanes = _
  rw [rowGranted, cell_modCell_self]

theorem rowStarted_queue (core : Nat) (d : Dispatch) (rest : List Dispatch) (u : List (Nat × Row)) (us : List (List (Nat × Row))) (g : Fin 4)
    (s : State) : ((rowStarted core d rest u us g s).core core).queue = if us.isEmpty then rest else { d with units := us } :: rest := by
  show (((rowGranted core d.cycles g s).modCore core fun x => { x with queue := if us.isEmpty then rest else { d with units := us } :: rest }).core
    core).queue = _
  rw [core_modCore_self]

theorem mem_readyHeads {s : State} {cell i : Nat} : i ∈ readyHeads s cell ↔ i < 4 ∧ (s.core (4 * cell + i)).queue ≠ [] := by
  simp [readyHeads, upTo]

/-- The arbiter grants a core with a row in its queue (R196). -/
theorem grantee_ready {s : State} {cell i : Nat} (h : grantee s cell = some i) : i ∈ readyHeads s cell := by
  unfold grantee at h
  dsimp only at h
  split at h
  · next hc => cases h; exact List.contains_iff_mem.mp hc.1
  · exact List.contains_iff_mem.mp (List.find?_some h)

/-- It grants none only where no core has one. -/
theorem readyHeads_of_grantee_none {s : State} {cell : Nat} (h : grantee s cell = none) (ht : (s.cell cell).turn < 4) {j : Nat} (hj : j < 4) :
    j ∉ readyHeads s cell := by
  unfold grantee at h
  dsimp only at h
  split at h
  · cases h
  · rw [List.find?_eq_none] at h
    have hm : j ∈ [((s.cell cell).turn + 1) % 4, ((s.cell cell).turn + 2) % 4, ((s.cell cell).turn + 3) % 4, (s.cell cell).turn] := by
      simp only [List.mem_cons, List.not_mem_nil, or_false]
      omega
    exact fun hr => h j hm (List.contains_iff_mem.mpr hr)

/-- A free lane group is free (R195). -/
theorem freeLane_le {s : State} {cell : Nat} {g : Fin 4} (h : freeLane s cell = some g) : (s.cell cell).lanes.get g ≤ s.cycle := by
  obtain ⟨i, -, hi⟩ := List.exists_of_findSome?_eq_some h
  by_cases h4 : i < 4
  · rw [dif_pos h4] at hi
    split at hi
    · next hle => cases hi; exact hle
    · cases hi
  · rw [dif_neg h4] at hi
    cases hi

/-- Settles O42: the lemmas about `effRow` for the issue, those about `rowStarted` and the arbiter for the start. -/
theorem rowInstructionsIssue : Obligations.RowInstructionsIssue := by
  refine ⟨fun i s hi hr => ?_, fun s core d rest u us g hq hu hg hm hgr => ?_, fun s core h => congrArg Host.Outcome.next (effRowStart_idle h),
    fun s core d rest hq hu h => congrArg Host.Outcome.next (effRowStart_waits hq hu (.inr h)),
    fun s core d rest hq hu h => congrArg Host.Outcome.next (effRowStart_waits hq hu (.inl h)),
    fun s cell i => ⟨fun h => mem_readyHeads.mp (grantee_ready h), fun h j hj ht => ?_⟩, fun s cell g h => freeLane_le h⟩
  · have hctx := effRow_ctx i s
    refine ⟨effRow i s, rowDispatch i s, (exec_rowInstr hi s).trans (next_runSlot hr rfl), effRow_queue i s, rfl, rfl, rfl, rfl,
      fun u hu p hp => effRow_pends i s hu hp, fun p hp h => effRow_pending i s hp h, fun key => ?_, by rw [hctx], by rw [hctx], by rw [hctx],
      by rw [hctx], fun j hj => effRow_ctx_ne i s hj, fun c hc => effRow_core_ne i s hc, effRow_sameBytes i s⟩
    rw [effRow_row]
    exact ⟨rfl, rfl, rfl⟩
  · have hctx := rowStarted_ctx core d rest u us g s
    have hlanes := rowStarted_cell core d rest u us g s
    have hlast : us.isEmpty = true ↔ us = [] := List.isEmpty_iff
    refine ⟨rowStarted core d rest u us g s, _, congrArg Host.Outcome.next (effRowStart_starts hq hu hg hm hgr), by rw [hctx], rfl, rfl,
      ?_, ?_, ?_, ?_, fun i hi => ?_, by rw [hctx], .of_eq rfl rfl rfl rfl⟩
    · exact if_congr hlast rfl rfl
    · exact if_congr hlast rfl rfl
    · rw [rowStarted_queue]; exact if_congr hlast rfl rfl
    · rw [hlanes]; exact Vector.getElem_set_self _
    · rw [hlanes]; exact Vector.getElem_set_ne _ _ fun e => hi (Fin.ext e.symm)
  · by_contra hne
    exact readyHeads_of_grantee_none h ht hj (mem_readyHeads.mpr ⟨hj, hne⟩)

end Sys2Proof.Machine
end

section
/-! PROOFS. Boot, attestation and tenants' keys (R18, R404 to R406, R409). -/

namespace Sys2Proof.Machine

/-! ## Images (R404) -/

/-- An image that stops boot. -/
def Refused (img : BootImage) : Prop :=
  img.magic.toNat ≠ 0x37494B534C474952 ∨ 8 ≤ img.stage.toNat ∨ img.version.toNat < Config.fuseVersion.toNat ∨
  img.reserved = false ∨ Config.verifies img.digest img.signature = false ∨ shake256 img.body img.length.toNat ≠ img.digest

theorem refuseReason_eq_none_iff (img : BootImage) : refuseReason img = none ↔ ¬ Refused img := by
  unfold refuseReason Refused
  split_ifs <;> simp_all

theorem effBootImage_refused {s : State} {pkg : Nat} {img : BootImage} (hs : (s.pkg pkg).bootStopped = false) (h : Refused img) :
    ∃ n, effBootImage pkg img s = (latent (4 * pkg) 0x11 7 0 (img.stage.zeroExtend 64) (BitVec.ofNat 64 n) s).modPkg pkg
      fun x => { x with bootStopped := true } := by
  cases hr : refuseReason img with
  | none => exact absurd h ((refuseReason_eq_none_iff img).mp hr)
  | some n => exact ⟨n, by simp only [effBootImage, hs, hr, Bool.false_eq_true, if_false]⟩

/-- A package whose measurement of the image's stage is extended. -/
def Pkg.measured (img : BootImage) (x : Pkg) : Pkg :=
  { x with measure := vset x.measure img.stage.toNat (shake256 ((vget x.measure img.stage.toNat).toNat + img.digest.toNat * 2 ^ 512) 128) }

theorem effBootImage_extends {s : State} {pkg : Nat} {img : BootImage} (hs : (s.pkg pkg).bootStopped = false) (h : ¬ Refused img) :
    effBootImage pkg img s = s.modPkg pkg (Pkg.measured img) := by
  simp only [effBootImage, hs, (refuseReason_eq_none_iff img).mpr h, Bool.false_eq_true, if_false]
  rfl

theorem get_vset {m w : Nat} (v : Vector (BitVec w) m) (i : Nat) (x : BitVec w) (j : Fin m) :
    (vset v i x).get j = if j.val = i then x else v.get j := by
  have h := vget_vset v i j.val x
  have hg : ∀ u : Vector (BitVec w) m, vget u j.val = u.get j := fun u => by simp [vget]
  rw [hg, hg] at h
  rw [h]
  by_cases hj : j.val = i
  · rw [if_pos hj, if_pos ⟨hj, hj ▸ j.isLt⟩]
  · rw [if_neg hj, if_neg fun e => hj e.1]

theorem latent_pkg (d code unit inst : Nat) (a b : Word) (s : State) (p : Nat) : (latent d code unit inst a b s).pkg p = s.pkg p := by
  rw [latent_eq]; rfl

/-- An image at boot: refused, boot stops; taken, its stage's measurement alone is extended. -/
theorem effBootImage_spec {s : State} {pkg : Nat} {img : BootImage} (hs : (s.pkg pkg).bootStopped = false) : let t := effBootImage pkg img s
    ((t.pkg pkg).bootStopped = true ↔ Refused img) ∧
    (∀ i : Fin 8, i.val ≠ img.stage.toNat ∨ Refused img → (t.pkg pkg).measure.get i = (s.pkg pkg).measure.get i) ∧
    (∀ h : img.stage.toNat < 8, ¬ Refused img → (t.pkg pkg).measure.get ⟨img.stage.toNat, h⟩ =
      shake256 (((s.pkg pkg).measure.get ⟨img.stage.toNat, h⟩).toNat + img.digest.toNat * 2 ^ 512) 128) ∧
    t.ctxs = s.ctxs ∧ SameBytes s t := by
  by_cases hr : Refused img
  · obtain ⟨n, e⟩ := effBootImage_refused hs hr
    rw [e]
    dsimp only
    rw [pkg_modPkg_self, latent_pkg]
    refine ⟨⟨fun _ => hr, fun _ => rfl⟩, fun _ _ => rfl, fun _ h => absurd hr h, ?_, ?_⟩
    · rw [latent_eq]; rfl
    · rw [latent_eq]; exact .of_eq rfl rfl rfl rfl
  · rw [effBootImage_extends hs hr]
    intro t
    rw [show t.pkg pkg = Pkg.measured img (s.pkg pkg) from pkg_modPkg_self s pkg _]
    refine ⟨⟨fun h => absurd (hs.symm.trans h) Bool.false_ne_true, fun h => absurd h hr⟩, fun i hi => ?_, fun h _ => ?_, rfl, .of_eq rfl rfl rfl rfl⟩
    · exact (get_vset _ _ _ i).trans (if_neg (hi.resolve_right hr))
    · refine (get_vset _ _ _ ⟨img.stage.toNat, h⟩).trans ((if_pos rfl).trans ?_)
      rw [vget, dif_pos h]

/-! ## Self-test (R18, R409) -/

/-- The bits of a 4-bit number put together from a predicate. -/
theorem getLsbD_bitsOf (f : Nat → Bool) {i : Nat} (h : i < 4) :
    (BitVec.ofNat 4 ((upTo 4).map fun i => if f i then 2 ^ i else 0).sum).getLsbD i = f i := by
  have hs : ((upTo 4).map fun i => if f i then 2 ^ i else 0).sum = (if f 0 then 1 else 0) + ((if f 1 then 2 else 0) +
      ((if f 2 then 4 else 0) + (if f 3 then 8 else 0))) := by
    simp [upTo, List.range_succ]
  have hall : ∀ a b c d : Bool, ∀ j : Fin 4, (BitVec.ofNat 4 ((if a then 1 else 0) + ((if b then 2 else 0) + ((if c then 4 else 0) +
      (if d then 8 else 0))))).getLsbD j.val = [a, b, c, d].get j := by decide
  rw [hs]
  refine (hall _ _ _ _ ⟨i, h⟩).trans ?_
  interval_cases i <;> rfl

theorem effSelfTest_again {s : State} {core : Nat} (h : (s.pkg (pkgOf core)).booted = true ∨ (s.core core).tested = true ∨ (s.core core).launch ≠ none)
    (found : SelfTest) (withheld : Bool) : effSelfTest core found withheld s = s := by
  unfold effSelfTest
  dsimp only
  rw [if_pos (by rw [Option.isSome_iff_ne_none]; exact h)]

/-- A core after its self-test. -/
def CoreSt.selfTested (out : Nat → Bool) (withheld : Bool) (x : CoreSt) : CoreSt := { x with
  tested := true, rfout := BitVec.ofNat 4 (((upTo 4).map fun i => if out i then 2 ^ i else 0).sum)
  ntile := if withheld then 0 else BitVec.ofNat 5 (4 * ((upTo 4).filter fun i => !out i).length) }

theorem effSelfTest_first {s : State} {core : Nat} (hb : (s.pkg (pkgOf core)).booted = false) (ht : (s.core core).tested = false)
    (hl : (s.core core).launch = none) (found : SelfTest) (withheld : Bool) : effSelfTest core found withheld s =
      { s.modCore core (CoreSt.selfTested (mapsOut found.bad (look [] s.corrected core) found.corrected) withheld) with
        corrected := put core found.corrected s.corrected } := by
  unfold effSelfTest
  dsimp only
  rw [if_neg (by simp [hb, ht, hl])]
  rfl

/-- What the first self-test leaves (R18, R409). -/
theorem effSelfTest_spec {s : State} {core : Nat} (hb : (s.pkg (pkgOf core)).booted = false) (ht : (s.core core).tested = false)
    (hl : (s.core core).launch = none) (bad : BitVec 4) (withheld : Bool) (corrected : List Nat) : let t := effSelfTest core ⟨bad, corrected⟩ withheld s
    let out := mapsOut bad (look [] s.corrected core) corrected
    t = { s with cores := t.cores, corrected := t.corrected } ∧ (∀ c, c ≠ core → t.core c = s.core c) ∧ (t.core core).rows = (s.core core).rows ∧
    look [] t.corrected core = corrected ∧ (∀ i, i < 4 → (t.core core).rfout.getLsbD i = out i) ∧
    (t.core core).ntile = (if withheld then 0 else BitVec.ofNat 5 (4 * ((List.range 4).filter fun i => !out i).length)) := by
  rw [effSelfTest_first hb ht hl]
  intro t out
  have hc : t.core core = CoreSt.selfTested out withheld (s.core core) := core_modCore_self s core _
  rw [hc]
  refine ⟨rfl, fun c h => core_modCore_ne s _ core c h, rfl, ?_, fun i h => getLsbD_bitsOf out h, rfl⟩
  exact (look_put [] core core corrected s.corrected).trans (if_pos rfl)

/-! ## Attestation (R405) -/

/-- A core's map-out as a report shows it (log entry 60). -/
def reportedMapOut (x : CoreSt) : BitVec 5 := (x.rfout.zeroExtend 5) ||| (if x.ntile = 0 then 16 else 0)

theorem reportedMapOut_banks (x : CoreSt) {j : Nat} (h : j < 4) : (reportedMapOut x).getLsbD j = x.rfout.getLsbD j := by
  have hall : ∀ r : BitVec 4, ∀ z : Bool, ∀ j : Fin 4, ((r.zeroExtend 5) ||| (if z then (16 : BitVec 5) else 0)).getLsbD j.val = r.getLsbD j.val := by
    decide
  have e := hall x.rfout (decide (x.ntile = 0)) ⟨j, h⟩
  simpa [reportedMapOut] using e

theorem reportedMapOut_withheld (x : CoreSt) : (reportedMapOut x).getLsbD 4 = true ↔ x.ntile = 0 := by
  have hall : ∀ r : BitVec 4, ∀ z : Bool, ((r.zeroExtend 5) ||| (if z then (16 : BitVec 5) else 0)).getLsbD 4 = z := by decide
  have e := hall x.rfout (decide (x.ntile = 0))
  simp only [reportedMapOut]
  rw [show (if x.ntile = 0 then (16 : BitVec 5) else 0) = if decide (x.ntile = 0) then 16 else 0 by simp, e, decide_eq_true_iff]

/-- The asids of a package with their tenants: of its queues and of its launches. -/
def reportedTenants (s : State) (pkg : Nat) : List (BitVec 16 × BitVec 16) :=
  (((s.qcbs.filter fun p => p.1 / 4096 == pkg).map fun p => (p.2.qasid, p.2.tenant)) ++
    (s.launches.filter fun p => p.2.pkg == pkg).map fun p => (p.2.asid, p.2.tenant)).dedup

theorem mem_reportedTenants (s : State) (pkg : Nat) (a ten : BitVec 16) : (a, ten) ∈ reportedTenants s pkg ↔
    (∃ p ∈ s.qcbs, p.1 / 4096 = pkg ∧ p.2.qasid = a ∧ p.2.tenant = ten) ∨ ∃ p ∈ s.launches, p.2.pkg = pkg ∧ p.2.asid = a ∧ p.2.tenant = ten := by
  simp only [reportedTenants, List.mem_dedup, List.mem_append, List.mem_map, List.mem_filter, beq_iff_eq, Prod.mk.injEq, and_assoc]

/-- The key slots in use of a package's dies. -/
def reportedKeys (s : State) (pkg : Nat) : List (Nat × Nat × Nat) :=
  (upTo 4).flatMap fun i => (s.die (4 * pkg + i)).keys.map fun y => (4 * pkg + i, y.1, y.2.1)

theorem mem_reportedKeys (s : State) (pkg d j ten : Nat) :
    (d, j, ten) ∈ reportedKeys s pkg ↔ d / 4 = pkg ∧ ∃ key, (j, ten, key) ∈ (s.die d).keys := by
  simp only [reportedKeys, upTo, List.mem_flatMap, List.mem_range, List.mem_map, Prod.mk.injEq]
  constructor
  · rintro ⟨i, hi, ⟨j', ten', key⟩, hk, rfl, rfl, rfl⟩
    exact ⟨by omega, key, hk⟩
  · rintro ⟨rfl, key, hk⟩
    have e : 4 * (d / 4) + d % 4 = d := Nat.div_add_mod d 4
    exact ⟨d % 4, Nat.mod_lt _ (by decide), (j, ten, key), by rw [e]; exact hk, e, rfl, rfl⟩

/-- A report (R405): its map-out, tenants, keys and capcores. -/
theorem effAttest_report (s : State) (pkg : Nat) (nonce : BitVec 256) : ∃ signature, effAttest pkg nonce s = { s with
    hostOut := s.hostOut ++ [.report pkg nonce (s.pkg pkg).measure ((upTo 4096).map fun i => (capcore (s.core (4096 * pkg + i))).truncate 16)
      ((upTo 4096).map fun i => reportedMapOut (s.core (4096 * pkg + i))) (reportedTenants s pkg) (reportedKeys s pkg)
      (s.die (4 * pkg)).windows (BitVec.ofNat 64 (dial s (4 * pkg))) signature] } := ⟨_, rfl⟩

/-- An entry of a list over the numbers below n. -/
theorem getElem?_upTo_map {α : Type} (n : Nat) (f : Nat → α) {i : Nat} (h : i < n) : ((upTo n).map f)[i]? = some (f i) := by
  simp [upTo, h]

/-! ## Key slots (R406) -/

theorem effKeyLoad_keys (die : Nat) (index : Byte) (tenant : Nat) (key : BitVec 512) (s : State) : ((effKeyLoad die index tenant key s).die die).keys =
    (index.toNat, tenant, key) :: (s.die die).keys.filter fun p => p.1 ≠ index.toNat := by
  rw [effKeyLoad, die_modDie_self]

theorem mem_effKeyLoad_keys_ne {die : Nat} {index : Byte} {tenant : Nat} {key : BitVec 512} {s : State} {j : Nat} (hj : j ≠ index.toNat)
    (ten : Nat) (x : BitVec 512) : (j, ten, x) ∈ ((effKeyLoad die index tenant key s).die die).keys ↔ (j, ten, x) ∈ (s.die die).keys := by
  rw [effKeyLoad_keys]
  simp [hj]

end Sys2Proof.Machine
end

section
/-! PROOFS. The latent record (R411 to R413) and storage errors (R407, R408). -/

namespace Sys2Proof.Machine

/-! ## The order of a cycle's events (R411, R412) -/

theorem rank_le (e : Event) : e.rank ≤ 2 ^ 16 := by
  unfold Event.rank
  have hu := e.unit.isLt
  have hi := e.inst.isLt
  split <;> omega

theorem rank_of_ne {e : Event} (h : e.code ≠ 0x12) : e.rank = e.unit.toNat * 2 ^ 12 + e.inst.toNat := by rw [Event.rank, if_neg h]

/-- An event that nothing of its cycle outranks is the last, and so heads the ring. -/
theorem noteEvent_last (now : Nat) {e : Event} (h : e.rank = 2 ^ 16) (x : Die) :
    ∃ rest, (noteEvent now e x).latent = { e with seq := x.seq } :: rest := by
  have hw : ∀ l : List Event, l.takeWhile (fun y => decide (e.rank < y.rank)) = [] := by
    intro l
    cases l with
    | nil => rfl
    | cons y l =>
      have hy := rank_le y
      rw [List.takeWhile_cons_of_neg (by rw [h]; simpa using hy)]
  unfold noteEvent
  dsimp only
  rw [hw, List.nil_append, List.length_cons, upTo, List.range_succ_eq_map, List.zip_cons_cons, List.map_cons, List.cons_append, List.take_succ_cons]
  exact ⟨_, congrArg₂ List.cons (by simp) rfl⟩

/-- The second event of a cycle takes its place beside the first, and both take their SEQ again. -/
theorem noteEvent_second {now : Nat} {e f : Event} {x : Die} {rest : List Event} (hat : x.latentAt = now) (hn : x.latentNow = 1)
    (hl : x.latent = f :: rest) : (noteEvent now e x).latent =
      ((if e.rank < f.rank then [{ f with seq := x.seq }, { e with seq := x.seq - 1 }]
        else [{ e with seq := x.seq }, { f with seq := x.seq - 1 }]) ++ rest).take 4096 := by
  unfold noteEvent
  simp only [hat, hn, hl, if_true, List.take_succ_cons, List.take_zero, List.drop_succ_cons, List.drop_zero]
  by_cases h : e.rank < f.rank
  · simp [h, upTo, List.range_succ]
  · simp [h, upTo, List.range_succ]

/-- An event of die d in the state s. -/
def eventOf (s : State) (d code unit inst : Nat) (a b : Word) : Event :=
  ⟨BitVec.ofNat 64 (dial s d), (s.die d).seq, BitVec.ofNat 16 code, BitVec.ofNat 4 unit, BitVec.ofNat 12 inst, a, b⟩

theorem latent_die {d : Nat} {s : State} (h : (s.die d).frozen = false) (code unit inst : Nat) (a b : Word) :
    (latent d code unit inst a b s).die d = noteEvent s.cycle (eventOf s d code unit inst a b) (s.die d) := by
  simp only [latent, h, Bool.false_eq_true, if_false]
  exact die_modDie_self _ _ _

/-- The ring has no event of this cycle. -/
def Fresh (s : State) (d : Nat) : Prop := (s.die d).latentAt ≠ s.cycle ∨ (s.die d).latentNow = 0

theorem latent_fresh {d : Nat} {s : State} (h : (s.die d).frozen = false) (hf : Fresh s d) (code unit inst : Nat) (a b : Word) :
    ((latent d code unit inst a b s).die d).latent = (eventOf s d code unit inst a b :: (s.die d).latent).take 4096 := by
  rw [latent_die h, noteEvent_fresh hf]
  rfl

/-- Two events of one cycle, the first to enter a fresh ring. -/
theorem latent_two {d : Nat} {s : State} (h : (s.die d).frozen = false) (hf : Fresh s d) (c1 u1 i1 c2 u2 i2 : Nat) (a1 b1 a2 b2 : Word) :
    let e1 := eventOf s d c1 u1 i1 a1 b1
    let e2 := eventOf (latent d c1 u1 i1 a1 b1 s) d c2 u2 i2 a2 b2
    let n := (s.die d).seq
    ∃ rest, ((latent d c2 u2 i2 a2 b2 (latent d c1 u1 i1 a1 b1 s)).die d).latent =
      if e2.rank < e1.rank then { e1 with seq := n + 1 } :: { e2 with seq := n } :: rest
      else { e2 with seq := n + 1 } :: { e1 with seq := n } :: rest := by
  intro e1 e2 n
  have hd := latent_die h c1 u1 i1 a1 b1
  have hl := latent_fresh h hf c1 u1 i1 a1 b1
  have hcycle : (latent d c1 u1 i1 a1 b1 s).cycle = s.cycle := by rw [latent_eq]
  have hfrozen : ((latent d c1 u1 i1 a1 b1 s).die d).frozen = false := by rw [hd]; exact h
  have hseq : ((latent d c1 u1 i1 a1 b1 s).die d).seq = n + 1 := by rw [hd]; rfl
  have hat : ((latent d c1 u1 i1 a1 b1 s).die d).latentAt = s.cycle := by rw [hd]; rfl
  have hnow : ((latent d c1 u1 i1 a1 b1 s).die d).latentNow = 1 := by
    have h0 : (if (s.die d).latentAt = s.cycle then (s.die d).latentNow else 0) = 0 := by
      rcases hf with e | e <;> simp [e]
    rw [hd]
    simp [noteEvent, h0]
  have hn : n + 1 - 1 = n := BitVec.add_sub_cancel n 1
  rw [latent_die hfrozen, hcycle, noteEvent_second hat hnow hl, hseq, hn]
  by_cases hlt : e2.rank < e1.rank
  · rw [if_pos hlt]
    exact ⟨((s.die d).latent.take 4095).take 4094, (if_pos hlt).symm⟩
  · rw [if_neg hlt]
    exact ⟨((s.die d).latent.take 4095).take 4094, (if_neg hlt).symm⟩

/-- Of two events that are no freeze, the one of the greater UNIT, then INST, is the later (R411). -/
theorem rank_eventOf {s : State} {d code unit inst : Nat} (hc : code < 2 ^ 16) (hne : code ≠ 0x12) (hu : unit < 16) (hi : inst < 4096) (a b : Word) :
    (eventOf s d code unit inst a b).rank = unit * 2 ^ 12 + inst := by
  have hcode : (eventOf s d code unit inst a b).code ≠ 0x12 := by
    intro e
    have e' := congrArg BitVec.toNat e
    rw [show (eventOf s d code unit inst a b).code.toNat = code from Nat.mod_eq_of_lt hc] at e'
    exact hne e'
  rw [rank_of_ne hcode, show (eventOf s d code unit inst a b).unit.toNat = unit from Nat.mod_eq_of_lt hu,
    show (eventOf s d code unit inst a b).inst.toNat = inst from Nat.mod_eq_of_lt hi]

/-! ## Read-out and freeze (R412, R413) -/

/-- A read-out (R413) clears nothing. -/
theorem effReadout_answer (s : State) (die : Nat) (nonce : BitVec 256) : ∃ signature, effReadout die nonce s = { s with
    hostOut := s.hostOut ++ [.latent die (s.die die).frozen (((s.die die).latent.reverse.map (·.seq)).headD 0)
      (((s.die die).latent.map (·.seq)).headD 0) nonce (s.die die).latent.reverse signature] } := by
  have h : ((s.die die).latent.reverse.map (·.seq)).getLastD 0 = ((s.die die).latent.map (·.seq)).headD 0 := by
    cases (s.die die).latent <;> simp [List.getLastD_eq_getLast?]
  unfold effReadout
  dsimp only
  rw [h]
  exact ⟨_, rfl⟩

/-- The record freezes: event 0x12 heads the ring, and the vector is raised (R412). -/
theorem effFreeze_eq {s : State} {die : Nat} (h : (s.die die).frozen = false) (cause : Word) : effFreeze die cause s =
    msix die 2 ((latent die 0x12 7 0 cause 0 s).modDie die fun d => { d with frozen := true }) := by
  rw [effFreeze, h, if_neg Bool.false_ne_true]

theorem msix_die (d v j : Nat) (s : State) : (msix d v s).die j = s.die j := rfl

theorem effFreeze_die {s : State} {die : Nat} (h : (s.die die).frozen = false) (cause : Word) : (effFreeze die cause s).die die =
    { noteEvent s.cycle (eventOf s die 0x12 7 0 cause 0) (s.die die) with frozen := true } := by
  rw [effFreeze_eq h, msix_die, die_modDie_self, latent_die h]

theorem effFreeze_msix {s : State} {die : Nat} (h : (s.die die).frozen = false) (cause : Word) :
    ((effFreeze die cause s).pkg (die / 4)).msix = (s.pkg (die / 4)).msix ++ [4 * (die % 4) + 2] := by
  rw [effFreeze_eq h, msix, pkg_modPkg_self, modDie_pkg, latent_pkg]

theorem effFreeze_sameBytes (die : Nat) (cause : Word) (s : State) : SameBytes s (effFreeze die cause s) := by
  cases h : (s.die die).frozen with
  | true => rw [effFreeze, h, if_pos rfl]; exact .refl s
  | false => rw [effFreeze_eq h, latent_eq]; exact .of_eq rfl rfl rfl rfl

/-! ## The event of a storage error (R407) -/

/-- The ring of a die has the event of a storage error first, where it takes one and had none this cycle. -/
def Noted (ok : Bool) (s t : State) (die : Nat) (a0 a1 : Word) : Prop := (s.die die).frozen = false →
  ((s.die die).latentAt ≠ s.cycle ∨ (s.die die).latentNow = 0) →
  ∃ e : Event, (t.die die).latent = (e :: (s.die die).latent).take 4096 ∧ e.code = (if ok then 0x0A else 0x0B) ∧ e.arg0 = a0 ∧ e.arg1 = a1

theorem noted_latent (ok : Bool) (s : State) (d unit inst : Nat) (a b : Word) :
    Noted ok s (latent d (if ok then 0x0A else 0x0B) unit inst a b s) d a b :=
  fun h hf => ⟨_, latent_fresh h hf _ _ _ _ _, by cases ok <;> rfl, rfl, rfl⟩

theorem Noted.of_dies {ok : Bool} {s t u : State} {d : Nat} {a b : Word} (h : Noted ok s t d a b) (e : u.dies = t.dies) : Noted ok s u d a b := by
  unfold Noted
  rw [show u.die d = t.die d by rw [State.die, State.die, e]]
  exact h

theorem eccEvent_eq (u : EccUnit) (ok : Bool) (s : State) : eccEvent u ok s = { s with dies := (eccEvent u ok s).dies } := by
  cases u <;> exact latent_eq _ _ _ _ _ _ _

theorem eccEvent_ctx (u : EccUnit) (ok : Bool) (s : State) (k : Nat) : (eccEvent u ok s).ctx k = s.ctx k := by rw [eccEvent_eq]; rfl

theorem eccEvent_core (u : EccUnit) (ok : Bool) (s : State) (c : Nat) : (eccEvent u ok s).core c = s.core c := by rw [eccEvent_eq]; rfl

theorem eccEvent_bank (u : EccUnit) (ok : Bool) (s : State) (b : Nat) : (eccEvent u ok s).bank b = s.bank b := by rw [eccEvent_eq]; rfl

/-! ## A unit poisoned (R408) -/

theorem setCtlPoison_dies (k n : Nat) (bad : Bool) (s : State) : (setCtlPoison k n bad s).dies = s.dies := by
  rw [(setCtlPoison_only k n bad s).1]

theorem poisonUnit_bank (a : Nat) (s : State) : poisonUnit (.bank a) s = { s with bankPoison := (poisonUnit (.bank a) s).bankPoison } := by
  unfold poisonUnit
  dsimp only
  split <;> rfl

theorem mem_poisonUnit_bank (a x : Nat) (s : State) : x ∈ (poisonUnit (.bank a) s).bankPoison ↔ x ∈ s.bankPoison ∨ x = a / 8 := by
  unfold poisonUnit
  dsimp only
  split
  · next h => exact ⟨.inl, fun e => e.elim id fun e => e ▸ List.contains_iff_mem.mp h⟩
  · simp

theorem poisonUnit_hbm (a : Nat) (s : State) : poisonUnit (.hbm a) s = { s with hbmPoison := (poisonUnit (.hbm a) s).hbmPoison } := by
  unfold poisonUnit
  dsimp only
  split <;> rfl

theorem mem_poisonUnit_hbm (a x : Nat) (s : State) : x ∈ (poisonUnit (.hbm a) s).hbmPoison ↔ x ∈ s.hbmPoison ∨ x = a / 64 := by
  unfold poisonUnit
  dsimp only
  split
  · next h => exact ⟨.inl, fun e => e.elim id fun e => e ▸ List.contains_iff_mem.mp h⟩
  · simp

theorem poisonUnit_bankRead (k a : Nat) (s : State) : poisonUnit (.bankRead k a) s = poisonUnit (.bank a) s := rfl

theorem poisonUnit_hbmRead (k a : Nat) (s : State) : poisonUnit (.hbmRead k a) s = poisonUnit (.hbm a) s := rfl

theorem poisonUnit_reg {k : Nat} {r : SReg} (h : r ≠ 0) (s : State) : poisonUnit (.reg k r) s =
    s.modCtx k fun c => { c with poison := put r.toNat ⟨causeEcc, 0⟩ c.poison } := if_neg h

theorem poisonUnit_reg_zero (k : Nat) (s : State) : poisonUnit (.reg k 0) s = s := by simp [poisonUnit]

theorem poisonUnit_cond {k : Nat} {r : CReg} (h : r ≠ 0) (s : State) : poisonUnit (.cond k r) s =
    s.modCtx k fun c => { c with badC := setBit c.badC r.toNat true } := if_neg h

theorem poisonUnit_cond_zero (k : Nat) (s : State) : poisonUnit (.cond k 0) s = s := by simp [poisonUnit]

/-- What poisoning a unit changes of a state: lists of poison, and records of banks, dies, cores and contexts. -/
theorem poisonUnit_eq (u : EccUnit) (s : State) : poisonUnit u s = { s with
    bankPoison := (poisonUnit u s).bankPoison, hbmPoison := (poisonUnit u s).hbmPoison, banks := (poisonUnit u s).banks
    dies := (poisonUnit u s).dies, cores := (poisonUnit u s).cores, ctxs := (poisonUnit u s).ctxs } := by
  cases u with
  | bank a => rw [poisonUnit_bank]
  | bankRead k a => rw [poisonUnit_bankRead, poisonUnit_bank]
  | hbm a => rw [poisonUnit_hbm]
  | hbmRead k a => rw [poisonUnit_hbmRead, poisonUnit_hbm]
  | reg k r =>
    by_cases h : r = 0
    · rw [h, poisonUnit_reg_zero]
    · rw [poisonUnit_reg h]; rfl
  | cond k r =>
    by_cases h : r = 0
    · rw [h, poisonUnit_cond_zero]
    · rw [poisonUnit_cond h]; rfl
  | ctl k n =>
    show setCtlPoison k n true s = { s with ctxs := (setCtlPoison k n true s).ctxs, bankPoison := (setCtlPoison k n true s).bankPoison
                                            hbmPoison := (setCtlPoison k n true s).hbmPoison, banks := (setCtlPoison k n true s).banks
                                            dies := (setCtlPoison k n true s).dies, cores := (setCtlPoison k n true s).cores }
    rw [(setCtlPoison_only k n true s).1]
  | _ => rfl

end Sys2Proof.Machine
end

section
/-! PROOFS. Scrubbing (R407, R408), and the statement about boot and the latent record. -/

namespace Sys2Proof.Machine

/-! ## ECC_SCRUB (R407, R408) -/

theorem effScrub_poisons (u : EccUnit) (s : State) : effScrub u false s = poisonUnit u (eccEvent u false s) := rfl

theorem effScrub_corrects {u : EccUnit} (h : eccConsumer u = none) (s : State) : effScrub u true s = eccEvent u true s := by
  simp only [effScrub, h]; rfl

theorem effScrub_counts {u : EccUnit} {k : Nat} (h : eccConsumer u = some k) (s : State) : effScrub u true s = countEv k 12 1 (eccEvent u true s) := by
  simp only [effScrub, h]; rfl

/-- A corrected error changes contexts' counters and the ring alone. -/
theorem effScrub_corrected_eq (u : EccUnit) (s : State) : effScrub u true s = { s with
    dies := (eccEvent u true s).dies, ctxs := (effScrub u true s).ctxs } := by
  cases h : eccConsumer u with
  | none => rw [effScrub_corrects h, eccEvent_eq]
  | some k => rw [effScrub_counts h, eccEvent_eq]; rfl

theorem countEv_keeps (k i n : Nat) (s : State) : ∃ evc, (countEv k i n s).ctx k = { s.ctx k with evc := evc } := by
  unfold countEv
  rw [ctx_modCtx_self]
  split
  · exact ⟨_, rfl⟩
  · exact ⟨(s.ctx k).evc, rfl⟩

/-- Of a context a corrected error changes the counters alone. -/
theorem effScrub_corrected_ctx (u : EccUnit) (s : State) (j : Nat) : ∃ evc, (effScrub u true s).ctx j = { s.ctx j with evc := evc } := by
  have he := eccEvent_ctx u true s j
  cases h : eccConsumer u with
  | none => exact ⟨(s.ctx j).evc, by rw [effScrub_corrects h, he]⟩
  | some k =>
    rw [effScrub_counts h]
    by_cases hj : j = k
    · subst hj
      obtain ⟨evc, hc⟩ := countEv_keeps j 12 1 (eccEvent u true s)
      exact ⟨evc, by rw [hc, he]⟩
    · exact ⟨(s.ctx j).evc, by rw [(countEv_only k 12 1 _).2 j hj, he]⟩

/-- No byte changes: an error is corrected, or its unit poisoned. -/
theorem effScrub_sameBytes (u : EccUnit) (ok : Bool) (s : State) : SameBytes s (effScrub u ok s) := by
  cases ok with
  | true => rw [effScrub_corrected_eq]; exact .of_eq rfl rfl rfl rfl
  | false => rw [effScrub_poisons, poisonUnit_eq, eccEvent_eq]; exact .of_eq rfl rfl rfl rfl

/-- The units but a die's waiters, whose poison lies outside the dies. -/
theorem poisonUnit_dies {u : EccUnit} (h : ∀ d i, u ≠ .dieWaiter d i) (s : State) : (poisonUnit u s).dies = s.dies := by
  cases u with
  | dieWaiter d i => exact absurd rfl (h d i)
  | bank a => rw [poisonUnit_bank]
  | bankRead k a => rw [poisonUnit_bankRead, poisonUnit_bank]
  | hbm a => rw [poisonUnit_hbm]
  | hbmRead k a => rw [poisonUnit_hbmRead, poisonUnit_hbm]
  | reg k r =>
    by_cases h : r = 0
    · rw [h, poisonUnit_reg_zero]
    · rw [poisonUnit_reg h]; rfl
  | cond k r =>
    by_cases h : r = 0
    · rw [h, poisonUnit_cond_zero]
    · rw [poisonUnit_cond h]; rfl
  | ctl k n => exact setCtlPoison_dies k n true s
  | _ => rfl

theorem effScrub_dies {u : EccUnit} (h : ∀ d i, u ≠ .dieWaiter d i) (ok : Bool) (s : State) : (effScrub u ok s).dies = (eccEvent u ok s).dies := by
  cases ok with
  | true => rw [effScrub_corrected_eq]
  | false => rw [effScrub_poisons, poisonUnit_dies h]

theorem Noted.of_scrub {u : EccUnit} {ok : Bool} {s : State} {d : Nat} {a b : Word} (h : Noted ok s (eccEvent u ok s) d a b)
    (hu : ∀ d i, u ≠ .dieWaiter d i) : Noted ok s (effScrub u ok s) d a b := h.of_dies (effScrub_dies hu ok s)

/-- The event of a unit of a bank (R407; log entry 61). -/
theorem noted_eccEvent_bank (a : Nat) (ok : Bool) (s : State) : Noted ok s (eccEvent (.bank a) ok s) (a / 8192 / 16 / 1024)
    (bankBase (a / 8192) + BitVec.ofNat 64 (a % 8192)) 0 := noted_latent ok s _ _ _ _ _

theorem noted_eccEvent_hbm (a : Nat) (ok : Bool) (s : State) : Noted ok s (eccEvent (.hbm a) ok s) (a / 2 ^ 52)
    (BitVec.ofNat 64 (a % 2 ^ 52)) 3 := noted_latent ok s _ _ _ _ _

theorem noted_eccEvent_row (k key unit : Nat) (ok : Bool) (s : State) : Noted ok s (eccEvent (.row k key unit) ok s) (k / 8 / 1024) 0 1 :=
  noted_latent ok s _ _ _ _ _

theorem noted_eccEvent_reg (k : Nat) (r : SReg) (ok : Bool) (s : State) : Noted ok s (eccEvent (.reg k r) ok s) (k / 8 / 1024) 0 2 :=
  noted_latent ok s _ _ _ _ _

theorem noted_eccEvent_cond (k : Nat) (r : CReg) (ok : Bool) (s : State) : Noted ok s (eccEvent (.cond k r) ok s) (k / 8 / 1024) 0 2 :=
  noted_latent ok s _ _ _ _ _

/-! One lemma per unit: what an error found there leaves. -/

theorem effScrub_bank (a : Nat) (ok : Bool) (s : State) : (∀ x, x ∈ (effScrub (.bank a) ok s).bankPoison ↔ x ∈ s.bankPoison ∨ ok = false ∧ x = a / 8) ∧
    (effScrub (.bank a) ok s).ctxs = s.ctxs := by
  cases ok with
  | true => rw [effScrub_corrects rfl, eccEvent_eq]; exact ⟨fun x => by simp, rfl⟩
  | false =>
    rw [effScrub_poisons]
    refine ⟨fun x => ?_, by rw [poisonUnit_bank, eccEvent_eq]⟩
    rw [mem_poisonUnit_bank, eccEvent_eq]
    simp

theorem effScrub_hbm (a : Nat) (ok : Bool) (s : State) : (∀ x, x ∈ (effScrub (.hbm a) ok s).hbmPoison ↔ x ∈ s.hbmPoison ∨ ok = false ∧ x = a / 64) ∧
    (effScrub (.hbm a) ok s).ctxs = s.ctxs := by
  cases ok with
  | true => rw [effScrub_corrects rfl, eccEvent_eq]; exact ⟨fun x => by simp, rfl⟩
  | false =>
    rw [effScrub_poisons]
    refine ⟨fun x => ?_, by rw [poisonUnit_hbm, eccEvent_eq]⟩
    rw [mem_poisonUnit_hbm, eccEvent_eq]
    simp

/-- A bank's unit that a context reads is poisoned as any other. -/
theorem effScrub_bankRead (k a : Nat) (ok : Bool) (s : State) (x : Nat) :
    x ∈ (effScrub (.bankRead k a) ok s).bankPoison ↔ x ∈ s.bankPoison ∨ ok = false ∧ x = a / 8 := by
  cases ok with
  | true => rw [effScrub_corrected_eq]; simp
  | false => rw [effScrub_poisons, poisonUnit_bankRead, mem_poisonUnit_bank, eccEvent_eq]; simp

theorem effScrub_hbmRead (k a : Nat) (ok : Bool) (s : State) (x : Nat) :
    x ∈ (effScrub (.hbmRead k a) ok s).hbmPoison ↔ x ∈ s.hbmPoison ∨ ok = false ∧ x = a / 64 := by
  cases ok with
  | true => rw [effScrub_corrected_eq]; simp
  | false => rw [effScrub_poisons, poisonUnit_hbmRead, mem_poisonUnit_hbm, eccEvent_eq]; simp

/-- A bit of a mask with bit i set. -/
theorem getLsbD_or_two_pow {n i : Nat} (v : BitVec n) (h : i < n) : (v ||| BitVec.ofNat n (2 ^ i)).getLsbD i = true := by
  rw [BitVec.getLsbD_or, BitVec.getLsbD_ofNat, Nat.testBit_two_pow]
  simp [h]

theorem effScrub_row {k key unit : Nat} (hu : unit < 33) (ok : Bool) (s : State) :
    (ok = false → (((effScrub (.row k key unit) ok s).core (k / 8)).row key).bad.getLsbD unit = true) ∧
    (ok = true → (effScrub (.row k key unit) ok s).cores = s.cores) := by
  refine ⟨fun e => ?_, fun e => ?_⟩ <;> subst e
  · have h := modRow_row (coreOf k) key key (fun r => { r with bad := r.bad ||| BitVec.ofNat 33 (2 ^ unit) }) (eccEvent (.row k key unit) false s)
    rw [if_pos rfl] at h
    exact (congrArg (fun r : Row => r.bad.getLsbD unit) h).trans (getLsbD_or_two_pow _ hu)
  · rw [effScrub_corrected_eq]

theorem effScrub_reg (k : Nat) (r : SReg) (ok : Bool) (s : State) : let c := (effScrub (.reg k r) ok s).ctx k
    (ok = false → r ≠ 0 → find? c.poison r.toNat = some ⟨0x13, 0⟩) ∧ (ok = true → c.poison = (s.ctx k).poison) ∧ c.s = (s.ctx k).s := by
  intro c
  cases ok with
  | true =>
    obtain ⟨evc, hc⟩ := effScrub_corrected_ctx (.reg k r) s k
    rw [show c = _ from hc]
    exact ⟨nofun, fun _ => rfl, rfl⟩
  | false =>
    by_cases hr : r = 0
    · have hc : c = s.ctx k := by rw [← eccEvent_ctx (.reg k r) false s k, hr, ← poisonUnit_reg_zero k (eccEvent (.reg k 0) false s), ← hr]; rfl
      exact ⟨fun _ h => absurd hr h, nofun, congrArg Ctx.s hc⟩
    · have hc : c = { s.ctx k with poison := put r.toNat ⟨causeEcc, 0⟩ (s.ctx k).poison } := by
        rw [← eccEvent_ctx (.reg k r) false s k]
        exact (congrArg (·.ctx k) (poisonUnit_reg hr _)).trans (ctx_modCtx_self _ _ _)
      rw [hc]
      exact ⟨fun _ _ => (find?_put _ _ _ _).trans (if_pos rfl), nofun, rfl⟩

theorem effScrub_cond (k : Nat) (r : CReg) (ok : Bool) (s : State) : let c := (effScrub (.cond k r) ok s).ctx k
    (ok = false → r ≠ 0 → c.badC.getLsbD r.toNat = true) ∧ (ok = true → c.badC = (s.ctx k).badC) ∧ c.c = (s.ctx k).c := by
  intro c
  cases ok with
  | true =>
    obtain ⟨evc, hc⟩ := effScrub_corrected_ctx (.cond k r) s k
    rw [show c = _ from hc]
    exact ⟨nofun, fun _ => rfl, rfl⟩
  | false =>
    by_cases hr : r = 0
    · have hc : c = s.ctx k := by rw [← eccEvent_ctx (.cond k r) false s k, hr, ← poisonUnit_cond_zero k (eccEvent (.cond k 0) false s), ← hr]; rfl
      exact ⟨fun _ h => absurd hr h, nofun, congrArg Ctx.c hc⟩
    · have hc : c = { s.ctx k with badC := setBit (s.ctx k).badC r.toNat true } := by
        rw [← eccEvent_ctx (.cond k r) false s k]
        exact (congrArg (·.ctx k) (poisonUnit_cond hr _)).trans (ctx_modCtx_self _ _ _)
      rw [hc]
      exact ⟨fun _ _ => (getLsbD_setBit _ _ _ _ r.isLt).trans (if_pos rfl), nofun, rfl⟩

theorem effScrub_desc (b : Nat) (ok : Bool) (s : State) : let t := effScrub (.desc b) ok s
    (ok = false → (t.bank b).badDesc = true) ∧ (t.bank b).desc = (s.bank b).desc ∧ (ok = true → t.banks = s.banks) := by
  intro t
  cases ok with
  | true =>
    have h : t.banks = s.banks := by rw [show t = _ from effScrub_corrected_eq (.desc b) s]
    exact ⟨nofun, by rw [State.bank, h]; rfl, fun _ => h⟩
  | false =>
    have h : t.bank b = { s.bank b with badDesc := true } := by
      rw [← eccEvent_bank (.desc b) false s]
      exact bank_modBank_self (eccEvent (.desc b) false s) b fun x => { x with badDesc := true }
    rw [h]
    exact ⟨fun _ => rfl, rfl, nofun⟩

theorem modPlate_plate (core n : Nat) (f : Plate → Plate) (s : State) : ((modPlate core n f s).core core).plate n = f ((s.core core).plate n) := by
  simp only [modPlate, core_modCore_self, CoreSt.plate, look_put, if_true]

theorem effScrub_cal (core n w : Nat) (ok : Bool) (s : State) : let t := effScrub (.cal core n w) ok s
    (ok = false → w ∈ ((t.core core).plate n).badCal) ∧ ((t.core core).plate n).w = ((s.core core).plate n).w ∧ (ok = true → t.cores = s.cores) := by
  intro t
  cases ok with
  | true =>
    have h : t.cores = s.cores := by rw [show t = _ from effScrub_corrected_eq (.cal core n w) s]
    exact ⟨nofun, by rw [State.core, h]; rfl, fun _ => h⟩
  | false =>
    have h : (t.core core).plate n = { (s.core core).plate n with badCal := w :: ((s.core core).plate n).badCal.filter (· ≠ w) } := by
      rw [← eccEvent_core (.cal core n w) false s]
      exact modPlate_plate core n (fun p => { p with badCal := w :: p.badCal.filter (· ≠ w) }) _
    rw [h]
    exact ⟨fun _ => List.mem_cons_self, rfl, nofun⟩

theorem modCtx_evc (s : State) (j k : Nat) {f : Ctx → Ctx} (h : ∀ c, (f c).evc = c.evc) : ((s.modCtx j f).ctx k).evc = (s.ctx k).evc := by
  rw [ctx_modCtx]
  split
  · next e => rw [h, e]
  · rfl

/-- Poison counts nothing. -/
theorem poisonUnit_evc (u : EccUnit) (s : State) (k : Nat) : ((poisonUnit u s).ctx k).evc = (s.ctx k).evc := by
  cases u with
  | bank a => rw [poisonUnit_bank]; rfl
  | bankRead _ a => rw [poisonUnit_bankRead, poisonUnit_bank]; rfl
  | hbm a => rw [poisonUnit_hbm]; rfl
  | hbmRead _ a => rw [poisonUnit_hbmRead, poisonUnit_hbm]; rfl
  | reg j r =>
    by_cases h : r = 0
    · rw [h, poisonUnit_reg_zero]
    · rw [poisonUnit_reg h]; exact modCtx_evc s j k fun _ => rfl
  | cond j r =>
    by_cases h : r = 0
    · rw [h, poisonUnit_cond_zero]
    · rw [poisonUnit_cond h]; exact modCtx_evc s j k fun _ => rfl
  | ctl j n =>
    show ((setCtlPoison j n true s).ctx k).evc = _
    rw [(setCtlPoison_only j n true s).2 k]
  | tray j i => exact modCtx_evc s j k fun _ => rfl
  | _ => rfl

/-- A corrected error is counted by the context that reads the unit (R407). -/
theorem effScrub_evc {u : EccUnit} {k : Nat} (h : eccConsumer u = some k) (ok : Bool) (s : State) :
    ((effScrub u ok s).ctx k).evc.get 12 = (if ok then satInc ((s.ctx k).evc.get 12) 1 else (s.ctx k).evc.get 12) := by
  cases ok with
  | true =>
    have hc := countEv_evc k 1 (i := 12) (by decide) (eccEvent u true s)
    rw [effScrub_counts h, hc, eccEvent_ctx]
    exact Vector.getElem_set_self _
  | false => rw [effScrub_poisons, poisonUnit_evc, eccEvent_ctx]; rfl

/-! ## The order of two events -/

/-- What an event says: its CODE, UNIT, INST and first argument. -/
def Event.Says (e : Event) (c u i : Nat) (a : Word) : Prop := e.code.toNat = c ∧ e.unit.toNat = u ∧ e.inst.toNat = i ∧ e.arg0 = a

theorem says_eventOf {s : State} {d c u i : Nat} (hc : c < 2 ^ 16) (hu : u < 16) (hi : i < 4096) (a b : Word) (q : Half) :
    Event.Says { eventOf s d c u i a b with seq := q } c u i a :=
  ⟨Nat.mod_eq_of_lt hc, Nat.mod_eq_of_lt hu, Nat.mod_eq_of_lt hi, rfl⟩

/-- Two events of one cycle take SEQ in increasing UNIT and then INST (R411). -/
theorem latent_order {s : State} {d c1 c2 u1 u2 i1 i2 : Nat} (h : (s.die d).frozen = false) (hf : Fresh s d) (hc1 : c1 < 2 ^ 16)
    (hc2 : c2 < 2 ^ 16) (hn1 : c1 ≠ 0x12) (hn2 : c2 ≠ 0x12) (hu1 : u1 < 16) (hu2 : u2 < 16) (hi1 : i1 < 4096) (hi2 : i2 < 4096)
    (a1 a2 b1 b2 : Word) : ∃ e f rest, ((latent d c2 u2 i2 a2 b2 (latent d c1 u1 i1 a1 b1 s)).die d).latent = e :: f :: rest ∧
      f.seq = (s.die d).seq ∧ e.seq = (s.die d).seq + 1 ∧
      (u2 < u1 ∨ u2 = u1 ∧ i2 < i1 → e.Says c1 u1 i1 a1 ∧ f.Says c2 u2 i2 a2) ∧
      (¬ (u2 < u1 ∨ u2 = u1 ∧ i2 < i1) → e.Says c2 u2 i2 a2 ∧ f.Says c1 u1 i1 a1) := by
  obtain ⟨rest, hl⟩ := latent_two h hf c1 u1 i1 c2 u2 i2 a1 b1 a2 b2
  have hr1 := rank_eventOf (s := s) (d := d) hc1 hn1 hu1 hi1 a1 b1
  have hr2 := rank_eventOf (s := latent d c1 u1 i1 a1 b1 s) (d := d) hc2 hn2 hu2 hi2 a2 b2
  have hlt : (eventOf (latent d c1 u1 i1 a1 b1 s) d c2 u2 i2 a2 b2).rank < (eventOf s d c1 u1 i1 a1 b1).rank ↔
      u2 < u1 ∨ u2 = u1 ∧ i2 < i1 := by
    rw [hr1, hr2]
    omega
  by_cases hord : u2 < u1 ∨ u2 = u1 ∧ i2 < i1
  · rw [if_pos (hlt.mpr hord)] at hl
    exact ⟨_, _, rest, hl, rfl, rfl, fun _ => ⟨says_eventOf hc1 hu1 hi1 _ _ _, says_eventOf hc2 hu2 hi2 _ _ _⟩, fun hno => absurd hord hno⟩
  · rw [if_neg fun e => hord (hlt.mp e)] at hl
    exact ⟨_, _, rest, hl, rfl, rfl, fun hyes => absurd hyes hord, fun _ => ⟨says_eventOf hc2 hu2 hi2 _ _ _, says_eventOf hc1 hu1 hi1 _ _ _⟩⟩

/-! ## The statement -/

/-- Settles O59: the lemmas about each event of boot, of the latent record and of storage errors. -/
theorem bootAndLatentRecord : Obligations.BootAndLatentRecord := by
  refine ⟨⟨fun s pkg img hs => ?_, fun s core bad withheld corrected => ⟨fun hb ht hl => ?_, fun h => ?_⟩, fun s pkg nonce => ?_,
    fun s die index tenant key => ?_⟩, fun s die nonce => ?_, fun s die cause h => ?_, fun s die cause h => ?_,
    fun s die c1 c2 u1 u2 i1 i2 a1 a2 b1 b2 h hf hc1 hc2 hn1 hn2 hu1 hu2 hi1 hi2 => ?_, fun s a ok => ⟨?_, ?_, fun k key unit hu => ?_, fun k r => ?_,
    fun k r => ?_, ?_, fun n w => ?_, fun k key unit r c u hu => ?_⟩⟩
  · exact ⟨effBootImage pkg img s, rfl, effBootImage_spec hs⟩
  · exact ⟨effSelfTest core ⟨bad, corrected⟩ withheld s, rfl, effSelfTest_spec hb ht hl bad withheld corrected⟩
  · exact congrArg Host.Outcome.next (effSelfTest_again h ⟨bad, corrected⟩ withheld)
  · obtain ⟨signature, e⟩ := effAttest_report s pkg nonce
    refine ⟨_, _, _, _, signature, congrArg Host.Outcome.next e, fun i hi => ⟨_, getElem?_upTo_map _ _ hi, fun j hj => reportedMapOut_banks _ hj,
      reportedMapOut_withheld _⟩, mem_reportedTenants s pkg, ?_, fun i hi => getElem?_upTo_map _ _ hi, mem_reportedKeys s pkg⟩
    rw [List.length_map, upTo, List.length_range]
  · refine ⟨effKeyLoad die index tenant key s, rfl, rfl, ?_, fun j ten x hj => mem_effKeyLoad_keys_ne hj ten x, fun d hd => die_modDie_ne _ _ _ _ hd⟩
    rw [effKeyLoad_keys]
    exact List.mem_cons_self
  · obtain ⟨signature, e⟩ := effReadout_answer s die nonce
    exact ⟨signature, congrArg Host.Outcome.next e⟩
  · have hd := effFreeze_die h cause
    obtain ⟨rest, hrest⟩ := noteEvent_last s.cycle (e := eventOf s die 0x12 7 0 cause 0) rfl (s.die die)
    refine ⟨effFreeze die cause s, _, rfl, by rw [hd], ⟨rest, by rw [hd]; exact hrest⟩, rfl, rfl, rfl, fun hf => ?_, rfl,
      effFreeze_msix h cause, effFreeze_sameBytes die cause s⟩
    rw [hd]
    exact noteEvent_fresh hf _
  · exact ⟨congrArg Host.Outcome.next (by rw [effFreeze, h, if_pos rfl]), fun code unit inst a b => latent_frozen h code unit inst a b⟩
  · exact latent_order h hf hc1 hc2 hn1 hn2 hu1 hu2 hi1 hi2 a1 a2 b1 b2
  · obtain ⟨hpoison, hctxs⟩ := effScrub_bank a ok s
    exact ⟨_, rfl, (noted_eccEvent_bank a ok s).of_scrub (fun _ _ e => by cases e), hpoison, effScrub_sameBytes _ ok s, hctxs⟩
  · obtain ⟨hpoison, hctxs⟩ := effScrub_hbm a ok s
    exact ⟨_, rfl, (noted_eccEvent_hbm a ok s).of_scrub (fun _ _ e => by cases e), hpoison, effScrub_sameBytes _ ok s, hctxs⟩
  · obtain ⟨hbad, hcores⟩ := effScrub_row (k := k) (key := key) hu ok s
    exact ⟨_, rfl, (noted_eccEvent_row k key unit ok s).of_scrub (fun _ _ e => by cases e), hbad, hcores, effScrub_sameBytes _ ok s⟩
  · obtain ⟨hbad, hgood, hregs⟩ := effScrub_reg k r ok s
    exact ⟨_, rfl, (noted_eccEvent_reg k r ok s).of_scrub (fun _ _ e => by cases e), hbad, hgood, hregs, effScrub_sameBytes _ ok s⟩
  · obtain ⟨hbad, hgood, hconds⟩ := effScrub_cond k r ok s
    exact ⟨_, rfl, (noted_eccEvent_cond k r ok s).of_scrub (fun _ _ e => by cases e), hbad, hgood, hconds, effScrub_sameBytes _ ok s⟩
  · obtain ⟨hbad, hdesc, hgood⟩ := effScrub_desc a ok s
    exact ⟨_, rfl, hbad, hdesc, hgood, effScrub_sameBytes _ ok s⟩
  · obtain ⟨hbad, hword, hgood⟩ := effScrub_cal a n w ok s
    exact ⟨_, rfl, hbad, hword, hgood, effScrub_sameBytes _ ok s⟩
  · have hcons : eccConsumer u = some k := by
      simp only [List.mem_cons, List.not_mem_nil, or_false] at hu
      rcases hu with rfl | rfl | rfl | rfl | rfl <;> rfl
    exact ⟨_, rfl, effScrub_evc hcons ok s, fun e x => e ▸ effScrub_bankRead k a ok s x, fun e x => e ▸ effScrub_hbmRead k a ok s x⟩

end Sys2Proof.Machine
end

section
/-! PROOFS. The results of MUL, MULH, DIV and REM (R33, R83). -/

namespace Sys2Proof.Machine

/-! ## Products (R83) -/

/-- A form with W reads the low 32 bits of its result alone (R81). -/
theorem narrow_mul (w : Bool) (x y : Word) : narrow w (x * y) = onForm w (· * ·) x y := by
  cases w with
  | false => simp only [narrow, onForm, Bool.false_eq_true, if_false]
  | true => simp only [narrow, onForm, if_true, sext32, BitVec.truncate, BitVec.setWidth_mul x y (show 32 ≤ 64 by decide)]

/-- Bits [127:64] of an integer (R83). -/
theorem extract_high (p : Int) : (BitVec.ofInt 128 p).extractLsb' 64 64 = wordOf (p / (2 ^ 64 : Nat)) := by
  apply BitVec.eq_of_toNat_eq
  simp only [BitVec.extractLsb'_toNat, wordOf, BitVec.toNat_ofInt, Nat.shiftRight_eq_div_pow]
  omega

/-- MULH of two integers that the 128-bit operands hold (R83). -/
theorem mulHigh_eq {sa sb : Bool} {x y : Word} {p q : BitVec 128}
    (hp : BitVec.ofInt 128 (if sa then x.toInt else (x.toNat : Int)) = p) (hq : BitVec.ofInt 128 (if sb then y.toInt else (y.toNat : Int)) = q) :
    mulHigh sa sb x y = (p * q).extractLsb' 64 64 := by
  rw [← hp, ← hq, ← BitVec.ofInt_mul, extract_high]
  rfl

theorem ofInt_toNat_zeroExtend (x : Word) : BitVec.ofInt 128 x.toNat = x.zeroExtend 128 := by
  rw [BitVec.ofInt_natCast, BitVec.ofNat_toNat]

/-! ## Quotients and remainders (R33) -/

theorem signed_toNat (n : Nat) (x : Word) : signed n x.toNat = (x.truncate n).toInt := by
  simp only [signed, BitVec.toInt, BitVec.truncate, BitVec.toNat_setWidth]

/-- A form with W keeps the low bits of its width, sign-extended (R81). -/
theorem narrow_wordOf (w : Bool) (v : Int) :
    narrow w (wordOf v) = if w then (BitVec.ofInt 32 v).signExtend 64 else BitVec.ofInt 64 v := by
  cases w with
  | false => simp only [narrow, wordOf, Bool.false_eq_true, if_false]
  | true =>
    have h : (BitVec.ofInt 64 v).setWidth 32 = BitVec.ofInt 32 v := by
      apply BitVec.eq_of_toNat_eq
      simp only [BitVec.toNat_setWidth, BitVec.toNat_ofInt]
      omega
    simp only [narrow, wordOf, if_true, sext32, BitVec.truncate, h]

/-- An operation whose result on n bits, for both widths n, is the low n bits of an integer (R81). -/
theorem narrow_wordOf_eq_onForm {w : Bool} {x y : Word} {v : Nat → Int} {f : {n : Nat} → BitVec n → BitVec n → BitVec n}
    (h : ∀ n, BitVec.ofInt n (v n) = f (x.truncate n) (y.truncate n)) : narrow w (wordOf (v (opBits w))) = onForm w f x y := by
  rw [narrow_wordOf]
  cases w with
  | false =>
    have h64 := h 64
    simp only [BitVec.truncate, BitVec.setWidth_eq] at h64
    simp only [opBits, onForm, Bool.false_eq_true, if_false, h64]
  | true => simp only [opBits, onForm, if_true, h 32]

theorem ofInt_toNat {n : Nat} (p : BitVec n) : BitVec.ofInt n p.toNat = p := by
  rw [BitVec.ofInt_natCast, BitVec.ofNat_toNat, BitVec.setWidth_eq]

theorem ofInt_tdiv {n : Nat} (p q : BitVec n) : BitVec.ofInt n (p.toInt.tdiv q.toInt) = p.sdiv q :=
  BitVec.eq_of_toInt_eq (by rw [BitVec.toInt_ofInt, BitVec.toInt_sdiv])

theorem ofInt_tmod {n : Nat} (p q : BitVec n) : BitVec.ofInt n (p.toInt.tmod q.toInt) = p.srem q := by
  rw [← BitVec.toInt_srem, BitVec.ofInt_toInt]

/-- R33's quotient and remainder as integers are those of the low n bits. -/
theorem divRem_truncate (n : Nat) (u : Bool) (x y : Word) : divRem n u x y =
    let p := x.truncate n
    let q := y.truncate n
    if q = 0 then (-1, if u then (p.toNat : Int) else p.toInt)
    else if u then (((p.udiv q).toNat : Int), ((p.umod q).toNat : Int)) else (p.toInt.tdiv q.toInt, p.toInt.tmod q.toInt) := by
  have hx : x.toNat % 2 ^ n = (x.truncate n).toNat := (BitVec.toNat_setWidth n x).symm
  have hy : y.toNat % 2 ^ n = (y.truncate n).toNat := (BitVec.toNat_setWidth n y).symm
  have hz : ∀ q : BitVec n, q.toInt = 0 ↔ q = 0 := fun q => by
    rw [← BitVec.toInt_zero (w := n)]
    exact BitVec.toInt_inj
  have hn : ∀ q : BitVec n, q.toNat = 0 ↔ q = 0 := fun q => BitVec.toNat_inj (y := 0)
  cases u with
  | false =>
    simp only [divRem, signed_toNat, Bool.false_eq_true, if_false, hz]
  | true =>
    simp only [divRem, hx, hy, if_true, hn]
    rfl

/-- The quotient of R33 is the integer one, modulo 2^n. -/
theorem divRem_quotient (n : Nat) (u : Bool) (x y : Word) :
    BitVec.ofInt n (divRem n u x y).1 = quotient u (x.truncate n) (y.truncate n) := by
  rw [divRem_truncate, quotient]
  dsimp only
  split
  · exact BitVec.ofInt_neg.trans BitVec.neg_one_eq_allOnes
  · cases u with
    | false => exact ofInt_tdiv _ _
    | true => exact ofInt_toNat _

/-- The remainder of R33 is the integer one, modulo 2^n. -/
theorem divRem_remainder (n : Nat) (u : Bool) (x y : Word) :
    BitVec.ofInt n (divRem n u x y).2 = remainder u (x.truncate n) (y.truncate n) := by
  rw [divRem_truncate, remainder]
  dsimp only
  split
  · cases u with
    | false => exact BitVec.ofInt_toInt
    | true => exact ofInt_toNat _
  · cases u with
    | false => exact ofInt_tmod _ _
    | true => exact ofInt_toNat _

theorem divQ_eq (u w : Bool) (x y : Word) : divQ u w x y = onForm w (quotient u) x y :=
  narrow_wordOf_eq_onForm (v := fun n => (divRem n u x y).1) fun n => divRem_quotient n u x y

theorem divR_eq (u w : Bool) (x y : Word) : divR u w x y = onForm w (remainder u) x y :=
  narrow_wordOf_eq_onForm (v := fun n => (divRem n u x y).2) fun n => divRem_remainder n u x y

/-- Settles O4: each instruction queues the value of its function in Alu, which is the exact one (R33, R83). -/
theorem multiplyDivideResults : Obligations.MultiplyDivideResults := by
  intro s g d a b
  refine ⟨fun w h => next_runSlot h ?_, fun h => next_runSlot h ?_, fun h => next_runSlot h ?_, fun h => next_runSlot h ?_,
    fun u w h => next_runSlot h ?_, fun u w h => next_runSlot h ?_⟩
  · rw [narrow_mul]
  · rw [mulHigh_eq rfl rfl]
    rfl
  · rw [mulHigh_eq (sa := false) (sb := false) (ofInt_toNat_zeroExtend _) (ofInt_toNat_zeroExtend _)]
  · rw [mulHigh_eq (sa := true) (sb := false) rfl (ofInt_toNat_zeroExtend _)]
    rfl
  · rw [divQ_eq]
  · rw [divR_eq]

end Sys2Proof.Machine
end

section
/-! PROOFS. Rounding (R36, R38, R40): the value chosen between two neighbours, the pattern that it becomes, and what that
pattern reads as. -/

namespace Sys2Proof.Machine

/-! ## An exact value in units of the smaller of two exponents -/

/-- m x 2^e, counted in units of 2^(min e q). -/
def inUnits (m : Nat) (e q : Int) : Nat := m * 2 ^ (e - min e q).toNat

/-- 2^q, counted in units of 2^(min e q). -/
def unitOf (e q : Int) : Nat := 2 ^ (q - min e q).toNat

theorem unitOf_pos (e q : Int) : 0 < unitOf e q := Nat.two_pow_pos _

theorem inUnits_of_le {e q : Int} (h : q ≤ e) (m : Nat) : inUnits m e q = m * 2 ^ (e - q).toNat := by
  rw [inUnits, min_eq_right h]

theorem inUnits_of_lt {e q : Int} (h : e < q) (m : Nat) : inUnits m e q = m := by
  rw [inUnits, min_eq_left h.le, sub_self, Int.toNat_zero, pow_zero, mul_one]

theorem unitOf_of_le {e q : Int} (h : q ≤ e) : unitOf e q = 1 := by
  rw [unitOf, min_eq_right h, sub_self, Int.toNat_zero, pow_zero]

theorem unitOf_of_lt {e q : Int} (h : e < q) : unitOf e q = 2 ^ (q - e).toNat := by
  rw [unitOf, min_eq_left h.le]

theorem unitOf_succ {e q : Int} (h : e < q) : unitOf e (q + 1) = 2 * unitOf e q := by
  rw [unitOf_of_lt h, unitOf_of_lt (by omega), show (q + 1 - e).toNat = (q - e).toNat + 1 by omega, pow_succ']

/-- The leading bit of m tells how many units m x 2^e has at least. -/
theorem le_inUnits {m n : Nat} {e q : Int} (hm : 0 < m) (h : q + n ≤ e + bitLen m - 1) : 2 ^ n * unitOf e q ≤ inUnits m e q := by
  have hlead : 2 ^ Nat.log2 m ≤ m := Nat.log2_self_le hm.ne'
  rw [bitLen, if_neg hm.ne'] at h
  rw [unitOf, inUnits, ← pow_add]
  calc 2 ^ (n + (q - min e q).toNat) ≤ 2 ^ (Nat.log2 m + (e - min e q).toNat) := Nat.pow_le_pow_right (by decide) (by omega)
    _ = 2 ^ Nat.log2 m * 2 ^ (e - min e q).toNat := pow_add _ _ _
    _ ≤ m * 2 ^ (e - min e q).toNat := Nat.mul_le_mul_right _ hlead

/-- And how many it has at most. -/
theorem inUnits_lt {m n : Nat} {e q : Int} (hm : 0 < m) (h : e + bitLen m ≤ q + n) : inUnits m e q < 2 ^ n * unitOf e q := by
  have hlead : m < 2 ^ (Nat.log2 m + 1) := Nat.lt_log2_self
  rw [bitLen, if_neg hm.ne'] at h
  rw [unitOf, inUnits, ← pow_add]
  calc m * 2 ^ (e - min e q).toNat < 2 ^ (Nat.log2 m + 1) * 2 ^ (e - min e q).toNat :=
        Nat.mul_lt_mul_of_pos_right hlead (Nat.two_pow_pos _)
    _ = 2 ^ (Nat.log2 m + 1 + (e - min e q).toNat) := (pow_add _ _ _).symm
    _ ≤ 2 ^ (n + (q - min e q).toNat) := Nat.pow_le_pow_right (by decide) (by omega)

/-! ## The multiple of u that a mode chooses for x (R36) -/

/-- The mode rounds towards zero. -/
abbrev RoundsDown (rm : Rm) (neg : Bool) : Prop := rm = .rtz ∨ rm = .rdn ∧ neg = false ∨ rm = .rup ∧ neg = true

/-- The mode rounds away from zero. -/
abbrev RoundsAway (rm : Rm) (neg : Bool) : Prop := rm = .rup ∧ neg = false ∨ rm = .rdn ∧ neg = true

/-- Whether the multiple of u above x is chosen, not the one below. -/
def takesUpper (rm : Rm) (neg : Bool) (x u : Nat) : Bool :=
  match rm with
  | .rne => decide (u < 2 * (x % u)) || (decide (2 * (x % u) = u) && decide (x / u % 2 = 1))
  | .rtz => false
  | .rdn => neg && x % u != 0
  | .rup => !neg && x % u != 0

/-- The multiple of u chosen for x. -/
def chosen (rm : Rm) (neg : Bool) (x u : Nat) : Nat := x / u + if takesUpper rm neg x u then 1 else 0

theorem RoundsDown.ne_rne {rm : Rm} {neg : Bool} (h : RoundsDown rm neg) : rm ≠ .rne := by
  rintro rfl
  simp [RoundsDown] at h

theorem RoundsAway.ne_rne {rm : Rm} {neg : Bool} (h : RoundsAway rm neg) : rm ≠ .rne := by
  rintro rfl
  simp [RoundsAway] at h

theorem RoundsDown.not_away {rm : Rm} {neg : Bool} (h : RoundsDown rm neg) : ¬ RoundsAway rm neg := by
  rcases h with rfl | ⟨rfl, rfl⟩ | ⟨rfl, rfl⟩ <;> simp [RoundsAway]

/-- Every mode is one of three. -/
theorem rm_cases (rm : Rm) (neg : Bool) : rm = .rne ∨ RoundsDown rm neg ∨ RoundsAway rm neg := by
  cases rm <;> cases neg <;> decide

theorem takesUpper_down {rm : Rm} {neg : Bool} (h : RoundsDown rm neg) (x u : Nat) : takesUpper rm neg x u = false := by
  rcases h with rfl | ⟨rfl, rfl⟩ | ⟨rfl, rfl⟩ <;> rfl

theorem takesUpper_away {rm : Rm} {neg : Bool} (h : RoundsAway rm neg) (x u : Nat) : takesUpper rm neg x u = (x % u != 0) := by
  rcases h with ⟨rfl, rfl⟩ | ⟨rfl, rfl⟩ <;> rfl

theorem takesUpper_rne (neg : Bool) (x u : Nat) :
    takesUpper .rne neg x u = true ↔ u < 2 * (x % u) ∨ 2 * (x % u) = u ∧ x / u % 2 = 1 := by
  simp [takesUpper]

section
variable {x u : Nat} (hu : 0 < u)
include hu

theorem chosen_down {rm : Rm} {neg : Bool} (h : RoundsDown rm neg) : chosen rm neg x u * u ≤ x ∧ x < chosen rm neg x u * u + u := by
  rw [chosen, takesUpper_down h]
  exact ⟨Nat.div_mul_le_self x u, by simpa [Nat.add_mul] using Nat.lt_div_mul_add hu⟩

theorem chosen_away {rm : Rm} {neg : Bool} (h : RoundsAway rm neg) : x ≤ chosen rm neg x u * u ∧ chosen rm neg x u * u < x + u := by
  have hdiv := Nat.div_add_mod' x u
  have hmod := Nat.mod_lt x hu
  rw [chosen, takesUpper_away h]
  by_cases h0 : x % u = 0
  · simp only [h0, bne_self_eq_false, Bool.false_eq_true, if_false, Nat.add_zero]
    omega
  · simp only [bne_iff_ne, ne_eq, h0, not_false_eq_true, if_true, Nat.add_mul, Nat.one_mul]
    omega

theorem chosen_rne (neg : Bool) : 2 * (chosen .rne neg x u * u) ≤ 2 * x + u ∧ 2 * x ≤ 2 * (chosen .rne neg x u * u) + u ∧
    (2 * x = 2 * (chosen .rne neg x u * u) + u ∨ 2 * (chosen .rne neg x u * u) = 2 * x + u → chosen .rne neg x u % 2 = 0) := by
  have hdiv := Nat.div_add_mod' x u
  have hmod := Nat.mod_lt x hu
  by_cases h : takesUpper .rne neg x u = true
  · rw [chosen, if_pos h, Nat.add_mul, Nat.one_mul]
    rcases (takesUpper_rne neg x u).mp h with h | ⟨h, hodd⟩ <;> omega
  · rw [chosen, if_neg h, Nat.add_zero]
    have h' := (takesUpper_rne neg x u).not.mp h
    omega

/-- Every mode chooses one of the two neighbours. -/
theorem chosen_near (rm : Rm) (neg : Bool) : chosen rm neg x u * u < x + u ∧ x < chosen rm neg x u * u + u := by
  rcases rm_cases rm neg with rfl | h | h
  · obtain ⟨hlo, hhi, -⟩ := chosen_rne (x := x) hu neg
    omega
  · obtain ⟨hlo, hhi⟩ := chosen_down (x := x) hu h
    omega
  · obtain ⟨hlo, hhi⟩ := chosen_away (x := x) hu h
    omega

/-- A multiple of u is chosen for itself alone. -/
theorem chosen_mul_eq_iff (rm : Rm) (neg : Bool) : chosen rm neg x u * u = x ↔ x % u = 0 := by
  refine ⟨fun h => h ▸ Nat.mul_mod_left _ _, fun h => ?_⟩
  have hup : takesUpper rm neg x u = false := by
    cases rm <;> simp [takesUpper, h, hu.ne]
  rw [chosen, hup, if_neg Bool.false_ne_true, Nat.add_zero, Nat.div_mul_cancel (Nat.dvd_of_mod_eq_zero h)]

theorem le_chosen {n : Nat} (h : n * u ≤ x) (rm : Rm) (neg : Bool) : n ≤ chosen rm neg x u := by
  obtain ⟨-, hlt⟩ := chosen_near (x := x) hu rm neg
  exact Nat.lt_succ_iff.mp (Nat.lt_of_mul_lt_mul_right (a := u) (by rw [Nat.succ_mul]; omega))

theorem chosen_le {n : Nat} (h : x < n * u) (rm : Rm) (neg : Bool) : chosen rm neg x u ≤ n := by
  obtain ⟨hlt, -⟩ := chosen_near (x := x) hu rm neg
  exact Nat.lt_succ_iff.mp (Nat.lt_of_mul_lt_mul_right (a := u) (by rw [Nat.succ_mul]; omega))

end

/-- An odd multiple is passed where x is past it, or halfway beyond it, or a whole unit beyond it. -/
theorem lt_chosen_iff {x u n : Nat} (hu : 0 < u) (hn : n % 2 = 1) (rm : Rm) (neg : Bool) : n < chosen rm neg x u ↔
    if rm = .rne then 2 * (n * u) + u ≤ 2 * x else if RoundsAway rm neg then n * u < x else n * u + u ≤ x := by
  have hle : ∀ a b : Nat, a * u < b * u → a < b := fun a b h => Nat.lt_of_mul_lt_mul_right h
  have hmul : ∀ b : Nat, n < b → n * u + u ≤ b * u := fun b h => Nat.succ_mul n u ▸ Nat.mul_le_mul_right u h
  rcases rm_cases rm neg with rfl | h | h
  · rw [if_pos rfl]
    obtain ⟨hlo, hhi, htie⟩ := chosen_rne (x := x) hu neg
    refine ⟨fun hlt => ?_, fun hx => ?_⟩
    · have := hmul _ hlt
      omega
    · by_contra hc
      have hcn := Nat.mul_le_mul_right u (Nat.le_of_not_lt hc)
      have heq : chosen .rne neg x u = n := by
        refine Nat.le_antisymm (Nat.le_of_not_lt hc) (Nat.le_of_mul_le_mul_right (c := u) ?_ hu)
        omega
      rw [heq] at htie hhi
      omega
  · rw [if_neg h.ne_rne, if_neg h.not_away]
    obtain ⟨hlo, hhi⟩ := chosen_down (x := x) hu h
    refine ⟨fun hlt => (hmul _ hlt).trans hlo, fun hx => hle _ _ (by omega)⟩
  · rw [if_neg h.ne_rne, if_pos h]
    obtain ⟨hlo, hhi⟩ := chosen_away (x := x) hu h
    refine ⟨fun hlt => ?_, fun hx => hle _ _ (by omega)⟩
    have := hmul _ hlt
    omega

/-! ## The pattern (R35, R36) -/

/-- The exponent of the last place that a format keeps of m x 2^e. -/
def lastPlace (t : Fmt) (m : Nat) (e : Int) : Int := max (e + bitLen m - 1) t.emin - t.f

/-- The rounded magnitude in units of its last place. -/
def kept (t : Fmt) (rm : Rm) (neg : Bool) (m : Nat) (e : Int) : Nat :=
  chosen rm neg (inUnits m e (lastPlace t m e)) (unitOf e (lastPlace t m e))

/-- How far the last place is above that of the smallest numbers. -/
def places (t : Fmt) (m : Nat) (e : Int) : Nat := (lastPlace t m e - (t.emin - t.f)).toNat

/-- The pattern of the rounded magnitude, before an overflow is seen to. -/
def roundedBits (t : Fmt) (rm : Rm) (neg : Bool) (m : Nat) (e : Int) : Nat := places t m e * 2 ^ t.f + kept t rm neg m e

/-- The magnitude is no multiple of its last place (R40). -/
def inexactAt (t : Fmt) (m : Nat) (e : Int) : Bool := inUnits m e (lastPlace t m e) % unitOf e (lastPlace t m e) != 0

section
variable (m : Nat) (e q : Int)

/-- The significand that `round` keeps. -/
theorem shifted_eq_div : (if q - e ≤ 0 then m * 2 ^ (-(q - e)).toNat else m / 2 ^ (q - e).toNat) = inUnits m e q / unitOf e q := by
  split
  · rw [inUnits_of_le (by omega), unitOf_of_le (by omega), Nat.div_one, neg_sub]
  · rw [inUnits_of_lt (by omega), unitOf_of_lt (by omega)]

/-- How `round` compares what it drops with half of the last place. -/
theorem shifted_compare : (if q - e ≤ 0 then .lt else compare (2 * (m % 2 ^ (q - e).toNat)) (2 ^ (q - e).toNat)) =
    compare (2 * (inUnits m e q % unitOf e q)) (unitOf e q) := by
  split
  · rw [inUnits_of_le (by omega), unitOf_of_le (by omega), Nat.mod_one]
    rfl
  · rw [inUnits_of_lt (by omega), unitOf_of_lt (by omega)]

/-- Whether `round` drops anything. -/
theorem shifted_inexact : (decide (0 < q - e) && m % 2 ^ (q - e).toNat != 0) = (inUnits m e q % unitOf e q != 0) := by
  by_cases h : 0 < q - e
  · rw [inUnits_of_lt (by omega), unitOf_of_lt (by omega), decide_eq_true h, Bool.true_and]
  · rw [unitOf_of_le (by omega), Nat.mod_one, decide_eq_false h, Bool.false_and]
    rfl

end

/-- `round` of an exact value other than zero (R36, R38, R40). -/
theorem round_eq (t : Fmt) (rm : Rm) (ftz neg : Bool) {m : Nat} (hm : 0 < m) (e : Int) : round t rm ftz neg m e =
    if t.inf ≤ roundedBits t rm neg m e then
      ⟨t.sign neg + if rm = .rne ∨ RoundsAway rm neg then t.inf else t.inf - 1, flOF ||| flNX⟩
    else if ftz = true ∧ roundedBits t rm neg m e < 2 ^ t.f then ⟨zeroBits t neg, flUF ||| flNX⟩
    else ⟨t.sign neg + roundedBits t rm neg m e, (if inexactAt t m e then flNX else 0) |||
      if (decide (e + bitLen m - 1 < t.emin) && inexactAt t m e) = true then flUF else 0⟩ := by
  have hplaces : (max (e + bitLen m - 1) t.emin + t.bias - 1).toNat = places t m e := by
    simp only [places, lastPlace, Fmt.emin]
    congr 1
    omega
  unfold round
  rw [if_neg (by simp [hm.ne'])]
  dsimp only
  rw [hplaces, shifted_eq_div, shifted_compare, shifted_inexact]
  simp only [compare_gt_iff_gt, compare_eq_iff_eq, Bool.false_or]
  cases rm with
  | rne => rfl
  | rtz => rfl
  | rdn => cases neg <;> rfl
  | rup => cases neg <;> rfl

/-! ## What a pattern reads as (R35) -/

section
variable {t : Fmt} (neg : Bool) {x : Nat} (hx : x < 2 ^ (t.e + t.f))
include hx

theorem sign_add_div : (t.sign neg + x) / 2 ^ (t.e + t.f) % 2 = neg.toNat := by
  have hdiv : x / 2 ^ (t.e + t.f) = 0 := Nat.div_eq_of_lt hx
  cases neg with
  | false => rw [Fmt.sign, if_neg Bool.false_ne_true, Nat.zero_add, hdiv]; rfl
  | true => rw [Fmt.sign, if_pos rfl, Nat.add_div_left _ (Nat.two_pow_pos _), hdiv]; rfl

theorem sign_add_mod : (t.sign neg + x) % 2 ^ (t.e + t.f) = x := by
  cases neg with
  | false => rw [Fmt.sign, if_neg Bool.false_ne_true, Nat.zero_add, Nat.mod_eq_of_lt hx]
  | true => rw [Fmt.sign, if_pos rfl, Nat.add_mod_left, Nat.mod_eq_of_lt hx]

/-- A pattern with its sign bit. -/
theorem unpack_sign_add : unpack t false (t.sign neg + x) =
    if x / 2 ^ t.f = 2 ^ t.e - 1 then (if x % 2 ^ t.f = 0 then .inf neg else .nan (x % 2 ^ t.f < 2 ^ (t.f - 1)))
    else if x / 2 ^ t.f = 0 then .fin neg (x % 2 ^ t.f) (t.emin - t.f)
    else .fin neg (2 ^ t.f + x % 2 ^ t.f) (t.emin - t.f + ((x / 2 ^ t.f : Nat) - 1 : Int)) := by
  have hsign : decide ((t.sign neg + x) / 2 ^ (t.e + t.f) % 2 = 1) = neg := by
    rw [sign_add_div neg hx]
    cases neg <;> rfl
  have hex : (t.sign neg + x) / 2 ^ t.f % 2 ^ t.e = x / 2 ^ t.f := by
    rw [← Nat.mod_mul_right_div_self, ← pow_add, Nat.add_comm t.f, sign_add_mod neg hx]
  have hfr : (t.sign neg + x) % 2 ^ t.f = x % 2 ^ t.f := by
    rw [← Nat.mod_mod_of_dvd _ (Nat.pow_dvd_pow 2 (Nat.le_add_left t.f t.e)), sign_add_mod neg hx]
  simp only [unpack, hsign, hex, hfr, Bool.false_eq_true, if_false]

end

theorem inf_lt (t : Fmt) : t.inf < 2 ^ (t.e + t.f) := by
  have hpos := Nat.two_pow_pos t.e
  rw [Fmt.inf, pow_add]
  exact Nat.mul_lt_mul_of_pos_right (by omega) (Nat.two_pow_pos _)

/-- A pattern below infinity reads as a finite value: a smallest number, or one with a leading bit. -/
theorem unpack_below_inf {t : Fmt} {x : Nat} (neg : Bool) (h : x < t.inf) : unpack t false (t.sign neg + x) =
    if x / 2 ^ t.f = 0 then .fin neg (x % 2 ^ t.f) (t.emin - t.f)
    else .fin neg (2 ^ t.f + x % 2 ^ t.f) (t.emin - t.f + ((x / 2 ^ t.f : Nat) - 1 : Int)) := by
  have hdiv : x / 2 ^ t.f < 2 ^ t.e - 1 := Nat.div_lt_of_lt_mul (by rwa [Nat.mul_comm])
  rw [unpack_sign_add neg (h.trans (inf_lt t)), if_neg hdiv.ne]

/-- The value of significand v whose last place is j above that of the smallest numbers, as its pattern reads. -/
theorem unpack_places {t : Fmt} {j v : Nat} (neg : Bool) (h : j * 2 ^ t.f + v < t.inf) (hlead : 0 < j → 2 ^ t.f ≤ v) :
    (v < 2 ^ (t.f + 1) → unpack t false (t.sign neg + (j * 2 ^ t.f + v)) = .fin neg v (t.emin - t.f + j)) ∧
    (v = 2 ^ (t.f + 1) → unpack t false (t.sign neg + (j * 2 ^ t.f + v)) = .fin neg (2 ^ t.f) (t.emin - t.f + j + 1)) := by
  have hpos := Nat.two_pow_pos t.f
  rw [unpack_below_inf neg h, Nat.mul_comm j, Nat.mul_add_div hpos, Nat.mul_add_mod]
  refine ⟨fun hv => ?_, fun hv => ?_⟩
  · by_cases hlow : v < 2 ^ t.f
    · have hj : j = 0 := by
        by_contra hj
        exact absurd (hlead (Nat.pos_of_ne_zero hj)) (Nat.not_le.mpr hlow)
      rw [hj, Nat.div_eq_of_lt hlow, Nat.mod_eq_of_lt hlow]
      simp
    · have hv' : v = 2 ^ t.f + (v - 2 ^ t.f) := by omega
      have hrest : v - 2 ^ t.f < 2 ^ t.f := by
        rw [pow_succ] at hv
        omega
      have hdiv : v / 2 ^ t.f = 1 := by
        rw [hv', Nat.add_div_left _ hpos, Nat.div_eq_of_lt hrest]
      have hmod : v % 2 ^ t.f = v - 2 ^ t.f := by
        rw [hv', Nat.add_mod_left, Nat.mod_eq_of_lt hrest]
        omega
      rw [hdiv, hmod, if_neg (by omega), ← hv']
      simp
  · have hdiv : v / 2 ^ t.f = 2 := by
      rw [hv, pow_succ, Nat.mul_div_cancel_left _ hpos]
    have hmod : v % 2 ^ t.f = 0 := by
      rw [hv, pow_succ, Nat.mul_mod_right]
    rw [hdiv, hmod, if_neg (by omega), Nat.add_zero]
    congr 1
    push_cast
    omega

/-! ## Significands (R36) -/

section
variable (t : Fmt) (rm : Rm) (neg : Bool) {m : Nat} (hm : 0 < m) (e : Int)

theorem lastPlace_eq : lastPlace t m e = t.emin - t.f + places t m e := by
  rw [places, Int.toNat_of_nonneg (by rw [lastPlace]; omega)]
  omega

include hm

/-- Above the smallest numbers a leading bit is kept. -/
theorem kept_lead (h : 0 < places t m e) : 2 ^ t.f ≤ kept t rm neg m e := by
  refine le_chosen (unitOf_pos _ _) (le_inUnits hm ?_) rm neg
  rw [places, lastPlace] at h
  rw [lastPlace]
  omega

/-- The units kept before rounding are fewer than 2^(f+1). -/
theorem inUnits_lastPlace_lt : inUnits m e (lastPlace t m e) < 2 ^ (t.f + 1) * unitOf e (lastPlace t m e) := by
  refine inUnits_lt hm ?_
  rw [lastPlace]
  push_cast
  omega

theorem kept_le : kept t rm neg m e ≤ 2 ^ (t.f + 1) := chosen_le (unitOf_pos _ _) (inUnits_lastPlace_lt t hm e) rm neg

/-- Only rounding reaches 2^(f+1), so something was dropped. -/
theorem lt_lastPlace_of_kept (h : kept t rm neg m e = 2 ^ (t.f + 1)) : e < lastPlace t m e := by
  by_contra hle
  have hu : unitOf e (lastPlace t m e) = 1 := unitOf_of_le (by omega)
  have hx := (chosen_mul_eq_iff (x := inUnits m e (lastPlace t m e)) (unitOf_pos e _) rm neg).mpr (by rw [hu, Nat.mod_one])
  have hlt := inUnits_lastPlace_lt t hm e
  rw [← hx, ← kept, h] at hlt
  exact lt_irrefl _ hlt

end

/-! ## The delivered value (R36, R40) -/

/-- The multiple `got` of ulp is one that the mode may deliver for x, and is even where a tie was decided. -/
def Delivers (rm : Rm) (neg : Bool) (x got ulp : Nat) (even : Prop) : Prop :=
  (RoundsDown rm neg → got ≤ x ∧ x < got + ulp) ∧ (RoundsAway rm neg → x ≤ got ∧ got < x + ulp) ∧
  (rm = .rne → 2 * got ≤ 2 * x + ulp ∧ 2 * x ≤ 2 * got + ulp ∧ (2 * x = 2 * got + ulp ∨ 2 * got = 2 * x + ulp → even))

theorem delivers_chosen {x u : Nat} (hu : 0 < u) (rm : Rm) (neg : Bool) :
    Delivers rm neg x (chosen rm neg x u * u) u (chosen rm neg x u % 2 = 0) :=
  ⟨fun h => chosen_down hu h, fun h => chosen_away hu h, fun h => h ▸ chosen_rne hu neg⟩

/-- Where the last place of the delivered value is twice that of the rounding, no tie is left. -/
theorem Delivers.double {rm : Rm} {neg : Bool} {x got u : Nat} {even : Prop} (h : Delivers rm neg x got u even) (hu : 0 < u) (p : Prop) :
    Delivers rm neg x got (2 * u) p := by
  obtain ⟨hdown, haway, hrne⟩ := h
  refine ⟨fun hm => ?_, fun hm => ?_, fun hm => ?_⟩
  · have := hdown hm
    omega
  · have := haway hm
    omega
  · have := hrne hm
    omega

section
variable {t : Fmt} {rm : Rm} {neg : Bool} {m : Nat} {e : Int}

theorem inexactAt_eq_false : inexactAt t m e = false ↔ kept t rm neg m e * unitOf e (lastPlace t m e) = inUnits m e (lastPlace t m e) := by
  rw [kept, chosen_mul_eq_iff (unitOf_pos _ _), inexactAt, bne_eq_false_iff_eq]

/-- The value that the rounded pattern reads as. -/
theorem unpack_roundedBits (hm : 0 < m) (h : roundedBits t rm neg m e < t.inf) :
    ∃ z q, unpack t false (t.sign neg + roundedBits t rm neg m e) = .fin neg z q ∧
      Delivers rm neg (inUnits m e q) (z * unitOf e q) (unitOf e q) (kept t rm neg m e % 2 = 0) ∧
      (inexactAt t m e = false ↔ z * unitOf e q = inUnits m e q) := by
  obtain ⟨hbelow, htop⟩ := unpack_places neg h (kept_lead t rm neg hm e)
  have hdelivers : Delivers rm neg _ _ _ (kept t rm neg m e % 2 = 0) :=
    delivers_chosen (x := inUnits m e (lastPlace t m e)) (unitOf_pos _ _) rm neg
  rw [← kept] at hdelivers
  rw [← lastPlace_eq] at hbelow htop
  rcases (kept_le t rm neg hm e).lt_or_eq with hv | hv
  · exact ⟨_, _, hbelow hv, hdelivers, inexactAt_eq_false⟩
  · have hlt := lt_lastPlace_of_kept t rm neg hm e hv
    have hx : inUnits m e (lastPlace t m e + 1) = inUnits m e (lastPlace t m e) := by
      rw [inUnits_of_lt hlt, inUnits_of_lt (by omega)]
    have hgot : 2 ^ t.f * unitOf e (lastPlace t m e + 1) = kept t rm neg m e * unitOf e (lastPlace t m e) := by
      rw [unitOf_succ hlt, hv, pow_succ, Nat.mul_assoc]
    refine ⟨_, _, htop hv, ?_, ?_⟩
    · rw [hx, hgot, unitOf_succ hlt]
      exact hdelivers.double (unitOf_pos _ _) _
    · rw [hx, hgot]
      exact inexactAt_eq_false

/-- A pattern is even with its significand. -/
theorem sign_add_roundedBits_mod_two (hf : 1 ≤ t.f) : (t.sign neg + roundedBits t rm neg m e) % 2 = kept t rm neg m e % 2 := by
  have hpow : ∀ n, 1 ≤ n → 2 ∣ 2 ^ n := fun n hn => dvd_pow_self 2 (by omega)
  have hsign : 2 ∣ t.sign neg := by
    rw [Fmt.sign]
    split
    · exact hpow _ (by omega)
    · exact dvd_zero 2
  have hplaces : 2 ∣ places t m e * 2 ^ t.f := Dvd.dvd.mul_left (hpow _ hf) _
  rw [roundedBits]
  omega

/-! ## Flags and overflow (R36, R38, R40) -/

/-- The flags of a result that is no overflow. -/
theorem exactFlags (nx uf : Bool) : let fl := (if nx then flNX else 0) ||| (if (uf && nx) = true then flUF else 0)
    fl &&& flOF = 0 ∧ (fl &&& flNX = 0 ↔ nx = false) := by
  cases nx <;> cases uf <;> decide

/-- A result that overflows: infinity or the largest finite value, by the mode (R36). -/
theorem round_overflow (ftz : Bool) (hm : 0 < m) (h : t.inf ≤ roundedBits t rm neg m e) : round t rm ftz neg m e =
    ⟨t.sign neg + if rm = .rne ∨ RoundsAway rm neg then t.inf else t.inf - 1, flOF ||| flNX⟩ := by
  rw [round_eq t rm ftz neg hm e, if_pos h]

/-- A result that is no overflow, without flush. -/
theorem round_no_overflow (hm : 0 < m) (h : roundedBits t rm neg m e < t.inf) :
    (round t rm false neg m e).bits = t.sign neg + roundedBits t rm neg m e ∧ (round t rm false neg m e).fl &&& flOF = 0 ∧
    ((round t rm false neg m e).fl &&& flNX = 0 ↔ inexactAt t m e = false) := by
  rw [round_eq t rm false neg hm e, if_neg (Nat.not_le.mpr h), if_neg (by simp)]
  exact ⟨rfl, exactFlags _ _⟩

/-- OF says whether the pattern reached infinity (R40). -/
theorem round_flOF (hm : 0 < m) : (round t rm false neg m e).fl &&& flOF = 0 ↔ roundedBits t rm neg m e < t.inf := by
  refine ⟨fun h => ?_, fun h => (round_no_overflow hm h).2.1⟩
  by_contra hle
  rw [round_overflow false hm (Nat.le_of_not_lt hle)] at h
  exact absurd h (show ¬ (flOF ||| flNX) &&& flOF = 0 by decide)

/-- Under FTZ a result below the smallest normal is flushed, and nothing else differs (R38). -/
theorem round_ftz (hm : 0 < m) : round t rm true neg m e =
    if roundedBits t rm neg m e < t.inf ∧ roundedBits t rm neg m e < 2 ^ t.f then ⟨zeroBits t neg, flUF ||| flNX⟩
    else round t rm false neg m e := by
  by_cases h : t.inf ≤ roundedBits t rm neg m e
  · have hno : ¬ (roundedBits t rm neg m e < t.inf ∧ roundedBits t rm neg m e < 2 ^ t.f) := fun hlt => Nat.not_le.mpr hlt.1 h
    rw [if_neg hno, round_overflow true hm h, round_overflow false hm h]
  · have h' := Nat.lt_of_not_le h
    rw [round_eq t rm true neg hm e, round_eq t rm false neg hm e, if_neg h, if_neg h]
    simp only [true_and, h', Bool.false_eq_true, false_and, if_false]

/-- The exponent of the last place of the largest finite value. -/
def topPlace (t : Fmt) : Int := t.bias - t.f

/-- Infinity is reached where the largest finite significand is passed at its own last place. -/
theorem inf_le_roundedBits (he : 2 ≤ t.e) (hm : 0 < m) :
    t.inf ≤ roundedBits t rm neg m e ↔ 2 ^ (t.f + 1) - 1 < chosen rm neg (inUnits m e (topPlace t)) (unitOf e (topPlace t)) := by
  obtain ⟨p, hp⟩ : ∃ p, 2 ^ (t.e - 1) = p + 2 := Nat.exists_eq_add_of_le' (by
    calc 2 = 2 ^ 1 := rfl
      _ ≤ 2 ^ (t.e - 1) := Nat.pow_le_pow_right (by decide) (by omega))
  have hpow : 2 ^ t.e = 2 * p + 4 := by
    rw [show t.e = t.e - 1 + 1 by omega, pow_succ, hp]
    omega
  have hbias : t.bias = p + 1 := by
    rw [Fmt.bias, hp]
    omega
  have hinf : t.inf = (2 * p + 1) * 2 ^ t.f + 2 * 2 ^ t.f := by
    rw [Fmt.inf, hpow, ← Nat.add_mul]
    rfl
  have hF := Nat.two_pow_pos t.f
  have hmax : lastPlace t m e = max (e + bitLen m - 1) t.emin - t.f := rfl
  have hplaces : (places t m e : Int) = lastPlace t m e - topPlace t + (2 * p + 1) := by
    rw [lastPlace_eq, topPlace, Fmt.emin, hbias]
    omega
  have hemin : t.emin = topPlace t + t.f - (2 * p + 1) := by
    rw [topPlace, Fmt.emin, hbias]
    omega
  rw [roundedBits, hinf, pow_succ']
  rcases lt_trichotomy (lastPlace t m e) (topPlace t) with hlt | heq | hgt
  · have hrows : (places t m e + 1) * 2 ^ t.f ≤ (2 * p + 1) * 2 ^ t.f := Nat.mul_le_mul_right _ (by omega)
    have hkept := kept_le t rm neg hm e
    have hchosen := chosen_le (unitOf_pos e _) (inUnits_lt (q := topPlace t) (n := t.f) hm (by omega)) rm neg
    rw [pow_succ'] at hkept
    rw [Nat.succ_mul] at hrows
    omega
  · have hrows : places t m e = 2 * p + 1 := by omega
    rw [hrows, kept, heq]
    omega
  · have hrows : (2 * p + 2) * 2 ^ t.f ≤ places t m e * 2 ^ t.f := Nat.mul_le_mul_right _ (by omega)
    have hkept := kept_lead t rm neg hm e (by omega)
    have hchosen := le_chosen (unitOf_pos e _) (le_inUnits (q := topPlace t) (n := t.f + 1) hm (by push_cast; omega)) rm neg
    rw [pow_succ'] at hchosen
    rw [Nat.succ_mul] at hrows
    omega

end

/-! ## The statement -/

theorem mem_formats {t : Fmt} (h : t ∈ [fp32, fp16, bf16]) : 2 ≤ t.e ∧ 1 ≤ t.f := by
  simp only [List.mem_cons, List.not_mem_nil, or_false] at h
  rcases h with rfl | rfl | rfl <;> decide

/-- Settles O6: a result below infinity by the value that its pattern reads as, an overflow by the place of the largest finite
value, and FTZ by the pattern of the smallest normal. -/
theorem roundingIsCorrect : Obligations.RoundingIsCorrect := by
  intro t neg m e ht hm
  obtain ⟨he, hf⟩ := mem_formats ht
  refine ⟨fun rm h => ?_, fun rm => ?_, fun rm => ?_⟩
  · have hlt := (round_flOF hm).mp h
    obtain ⟨hbits, -, hnx⟩ := round_no_overflow hm hlt
    obtain ⟨z, q, hread, ⟨hdown, haway, hrne⟩, hexact⟩ := unpack_roundedBits hm hlt
    rw [← sign_add_roundedBits_mod_two hf, ← hbits] at hrne
    exact ⟨z, q, hbits ▸ hread, hdown, haway, hrne, hnx.trans hexact⟩
  · have hodd : (2 ^ (t.f + 1) - 1) % 2 = 1 := by
      have := Nat.two_pow_pos t.f
      rw [pow_succ]
      omega
    refine ⟨?_, fun hof => ?_⟩
    · rw [ne_eq, round_flOF hm, Nat.not_lt, inf_le_roundedBits he hm, lt_chosen_iff (unitOf_pos _ _) hodd]
      rfl
    · rw [round_overflow false hm (Nat.le_of_not_lt fun h => hof ((round_flOF hm).mpr h))]
      exact ⟨rfl, rfl⟩
  · dsimp only
    rw [round_ftz hm]
    by_cases hlt : roundedBits t rm neg m e < t.inf
    · rw [(round_no_overflow hm hlt).1, sign_add_mod neg (hlt.trans (inf_lt t))]
      simp only [hlt, (round_flOF hm).mpr hlt]
    · simp only [hlt, round_flOF hm, false_and, if_false]

end Sys2Proof.Machine
end

section
/-! PROOFS. Rows by their lanes (R4, R71): what a lane of a packed row reads, the lists of lanes over rows, flags of several
lanes (R40), and results made row by row. -/

namespace Sys2Proof.Machine

/-! ## Lanes -/

theorem laneBits_mul_laneCount (y : LaneType) : laneBits y * laneCount y = 1024 := by cases y <;> rfl

theorem packLanes_div (w : Nat) (l : List Nat) : ∀ j, packLanes w l / 2 ^ (w * j) % 2 ^ w = l.getD j 0 % 2 ^ w := by
  induction l with
  | nil => intro j; simp [packLanes]
  | cons x l ih =>
    intro j
    have hpos := Nat.two_pow_pos w
    cases j with
    | zero => simp [packLanes]
    | succ j =>
      have hdiv : (x % 2 ^ w + 2 ^ w * packLanes w l) / 2 ^ w = packLanes w l := by
        rw [Nat.add_mul_div_left _ _ hpos, Nat.div_eq_of_lt (Nat.mod_lt x hpos), Nat.zero_add]
      rw [packLanes, Nat.mul_succ, Nat.add_comm (w * j), pow_add, ← Nat.div_div_eq_div_mul, hdiv, ih j, List.getD_cons_succ]

/-- Bits of a number inside the width that it is cut to. -/
theorem toNat_ofNat_shift_mod {k w n : Nat} (h : k + w ≤ n) (x : Nat) : (BitVec.ofNat n x >>> k).toNat % 2 ^ w = x / 2 ^ k % 2 ^ w := by
  rw [BitVec.toNat_ushiftRight, BitVec.toNat_ofNat, Nat.shiftRight_eq_div_pow, show 2 ^ n = 2 ^ k * 2 ^ (n - k) by
    rw [← pow_add, Nat.add_sub_cancel' (by omega)], Nat.mod_mul_right_div_self, Nat.mod_mod_of_dvd _ (Nat.pow_dvd_pow 2 (by omega))]

/-- A lane of a row made of lanes (R4). -/
theorem lane_rowFrom {w j : Nat} (l : List Nat) (h : w * j + w ≤ 1024) : lane w (rowFrom w l) j = l.getD j 0 % 2 ^ w := by
  rw [lane, rowFrom, toNat_ofNat_shift_mod h, packLanes_div]

theorem getD_upTo_map {α : Type} (n : Nat) (f : Nat → α) (x : α) {i : Nat} (h : i < n) : ((upTo n).map f).getD i x = f i := by
  rw [List.getD_eq_getElem?_getD, getElem?_upTo_map n f h, Option.getD_some]

theorem mem_upTo {n i : Nat} : i ∈ upTo n ↔ i < n := List.mem_range

/-- A lane below the count of its type is inside the row. -/
theorem lane_fits {y : LaneType} {j : Nat} (h : j < laneCount y) : laneBits y * j + laneBits y ≤ 1024 := by
  rw [← Nat.mul_succ, ← laneBits_mul_laneCount y]
  exact Nat.mul_le_mul_left _ h

theorem lane_rowFrom_map {y : LaneType} {j : Nat} (f : Nat → Nat) (h : j < laneCount y) :
    lane (laneBits y) (rowFrom (laneBits y) ((upTo (laneCount y)).map f)) j = f j % 2 ^ laneBits y := by
  rw [lane_rowFrom _ (lane_fits h), getD_upTo_map _ _ _ h]

/-- Lanes of several rows in one list, the first row's first. -/
theorem flatMap_upTo {α : Type} (m n : Nat) (f : Nat → Nat → α) :
    (upTo m).flatMap (fun i => (upTo n).map (f i)) = (upTo (m * n)).map fun q => f (q / n) (q % n) := by
  induction m with
  | zero => simp [upTo]
  | succ m ih =>
    rw [show upTo (m + 1) = upTo m ++ [m] from List.range_succ, List.flatMap_append, ih, Nat.succ_mul,
      show upTo (m * n + n) = upTo (m * n) ++ (upTo n).map (m * n + ·) from List.range_add .., List.map_append]
    congr 1
    simp only [List.flatMap_cons, List.flatMap_nil, List.append_nil, List.map_map, upTo]
    refine List.map_congr_left fun j hj => ?_
    have hj := List.mem_range.mp hj
    have hn : 0 < n := by omega
    simp only [Function.comp_apply]
    rw [Nat.mul_comm m, Nat.mul_add_div hn, Nat.mul_add_mod, Nat.div_eq_of_lt hj, Nat.mod_eq_of_lt hj, Nat.add_zero]

/-! ## Flags of several results (R40) -/

/-- The union of flags over a list has a bit where one of them has it. -/
theorem getLsbD_foldl_or {α : Type} (g : α → Flags5) (bit : Nat) (l : List α) : ∀ a : Flags5,
    ((l.foldl (fun (f : Flags5) x => f ||| g x) a).getLsbD bit = true ↔ a.getLsbD bit = true ∨ ∃ x ∈ l, (g x).getLsbD bit = true) := by
  induction l with
  | nil => intro a; simp
  | cons x l ih =>
    intro a
    rw [List.foldl_cons, ih, BitVec.getLsbD_or, Bool.or_eq_true, List.exists_mem_cons_iff, or_assoc]

theorem getLsbD_orFlags (l : List FR) (bit : Nat) : (orFlags l).getLsbD bit = true ↔ ∃ x ∈ l, x.fl.getLsbD bit = true := by
  rw [orFlags, getLsbD_foldl_or]
  simp

/-! ## Results row by row -/

theorem lane_exactRow {y : LaneType} {j : Nat} (f : Nat → FR) (h : j < laneCount y) :
    lane (laneBits y) (exactRow (laneBits y) ((upTo (laneCount y)).map f)).row.data j = (f j).bits % 2 ^ laneBits y := by
  rw [exactRow, List.map_map]
  exact lane_rowFrom_map _ h

/-- Source rows lane by lane, as one list: of the named row, or of a whole tile. -/
theorem flatMap_rowsOf {α : Type} (r : Rows) (n : Nat) (f : Nat → Nat → α) : (rowsOf r).flatMap (fun i => (upTo n).map (f i)) =
    (upTo (if r.w then 16 * n else n)).map fun q => if r.w then f (q / n) (q % n) else f r.row.toNat q := by
  unfold rowsOf
  cases r.w with
  | false => simp
  | true => simpa using flatMap_upTo 16 n f

theorem byRow_units (r : Rows) (d : TReg) (cycles : Nat) (g : Nat → RowOut) :
    (byRow r d cycles g).units = (rowsOf r).map fun n => [((d, n), (g n).row)] := by
  simp [byRow, Function.comp_def]

theorem byRow_fl (r : Rows) (d : TReg) (cycles : Nat) (g : Nat → RowOut) (bit : Nat) :
    (byRow r d cycles g).fl.getLsbD bit = true ↔ ∃ n ∈ rowsOf r, (g n).fl.getLsbD bit = true := by
  rw [byRow, getLsbD_foldl_or (fun p : Nat × RowOut => p.2.fl)]
  simp

/-- The rows of res are those of d named by r, each lane of type y that of f, and its flags are those of all the lanes. -/
def LaneRows (res : RowRes) (d : TReg) (r : Rows) (y : LaneType) (f : Nat → Nat → FR) : Prop :=
  ∃ o : Nat → Row, res.units = (rowsOf r).map (fun n => [((d, n), o n)]) ∧
    (∀ n j, n ∈ rowsOf r → j < laneCount y → lane (laneBits y) (o n).data j = (f n j).bits % 2 ^ laneBits y) ∧
    ∀ bit, bit < 5 → (res.fl.getLsbD bit = true ↔ ∃ n j, n ∈ rowsOf r ∧ j < laneCount y ∧ (f n j).fl.getLsbD bit = true)

theorem laneRows_byRow (r : Rows) (d : TReg) (cycles : Nat) {y : LaneType} {g : Nat → RowOut} {f : Nat → Nat → FR}
    (h : ∀ n, g n = exactRow (laneBits y) ((upTo (laneCount y)).map (f n))) : LaneRows (byRow r d cycles g) d r y f := by
  refine ⟨fun n => (g n).row, byRow_units r d cycles g, fun n j _ hj => ?_, fun bit _ => ?_⟩
  · dsimp only
    rw [h, lane_exactRow _ hj]
  · simp only [byRow_fl, h, exactRow, getLsbD_orFlags, List.mem_map, mem_upTo]
    exact ⟨fun ⟨n, hn, x, ⟨j, hj, hx⟩, hb⟩ => ⟨n, j, hn, hj, hx ▸ hb⟩, fun ⟨n, j, hn, hj, hb⟩ => ⟨n, hn, _, ⟨j, hj, rfl⟩, hb⟩⟩

end Sys2Proof.Machine
end

section
/-! PROOFS. The exact float rows, each lane a scalar operation of its format (R171, R175, R177, R181, R182, R185). -/

namespace Sys2Proof.Machine

/-! ## Rows of one operation for every lane -/

theorem zip_lanesOf (w : Nat) (a b : RowData) :
    (lanesOf w a).zip (lanesOf w b) = (upTo (1024 / w)).map fun j => (lane w a j, lane w b j) := List.zip_map' ..

theorem zip3_lanesOf (w : Nat) (a b d : RowData) : (lanesOf w a).zip ((lanesOf w b).zip (lanesOf w d)) =
    (upTo (1024 / w)).map fun j => (lane w a j, lane w b j, lane w d j) := by
  rw [zip_lanesOf]
  exact List.zip_map' ..

theorem zip_map_lanesOf {α : Type} (w : Nat) (a b : RowData) (f : Nat → α) :
    (lanesOf w a).zip ((lanesOf w b).map f) = (upTo (1024 / w)).map fun j => (lane w a j, f (lane w b j)) := by
  rw [lanesOf, lanesOf, List.map_map]
  exact List.zip_map' ..

theorem modeFor_exact {y : LaneType} (h : y.bounded = false) (c : Ctx) :
    modeFor y c = (rmOf (c.mode.extractLsb' 4 2), c.mode.getLsbD 3) := by rw [modeFor, h]; rfl

theorem modeFor_bounded {y : LaneType} (h : y.bounded = true) (c : Ctx) : modeFor y c = (.rne, false) := by rw [modeFor, h]; rfl

theorem bounded_of_flt {y : LaneType} (h : y.flt = true) : y.bounded = false := by
  revert h
  cases y <;> decide

section
variable {y : LaneType} {t : Fmt} (hfmt : laneFmt y = some t)
include hfmt

/-- A row of R171 of an exact float type. -/
theorem arithRow_exact (hb : y.bounded = false) (o : Arith) (c : Ctx) (a b d : Row) : arithRow o y c a b d =
    exactRow (laneBits y) ((upTo (laneCount y)).map fun j => floatOp o t (rmOf (c.mode.extractLsb' 4 2)) (c.mode.getLsbD 3)
      (lane (laneBits y) a.data j) (lane (laneBits y) b.data j) (lane (laneBits y) d.data j)) := by
  rw [arithRow, hfmt, modeFor_exact hb, zip3_lanesOf]
  simp only [hb, Bool.false_eq_true, if_false, List.map_map, Function.comp_def, laneCount]

/-- A row of VSCALE of an exact type (R181). -/
theorem scaleRow_exact (hb : y.bounded = false) (c : Ctx) (a b : Row) : scaleRow y c a b =
    exactRow (laneBits y) ((upTo (laneCount y)).map fun j => scaleLane t (rmOf (c.mode.extractLsb' 4 2)) (c.mode.getLsbD 3)
      (lane (laneBits y) a.data j) (signed (laneBits y) (lane (laneBits y) b.data j))) := by
  rw [scaleRow, hfmt, modeFor_exact hb, zip_map_lanesOf]
  simp only [hb, Bool.false_eq_true, if_false, List.map_map, Function.comp_def, laneCount]

/-- A transcendental row (R182). -/
theorem fcall_eq (c : Ctx) (x : Row) (f : Fmt → Bool → Nat → FR) : rowRes.fcall c y x f =
    exactRow (laneBits y) ((upTo (laneCount y)).map fun j => f t (c.mode.getLsbD 3) (lane (laneBits y) x.data j)) := by
  rw [rowRes.fcall, hfmt]
  simp only [lanesOf, List.map_map, Function.comp_def]
  rfl

/-- A float lane of VCMP (R175). -/
theorem compareLane_float (lt ftz : Bool) (x z : Nat) : compareLane lt y ftz x z =
    ⟨if (if lt then ltV (unpack t ftz x) (unpack t ftz z) else eqV (unpack t ftz x) (unpack t ftz z)) then 2 ^ laneBits y - 1 else 0,
      cmpFlags (unpack t ftz x) (unpack t ftz z) lt⟩ := by
  rw [compareLane, hfmt]

/-- A float row of VCMP (R175). -/
theorem compareRow_float (lt ftz : Bool) (a b : RowData) :
    exactRow (laneBits y) (((lanesOf (laneBits y) a).zip (lanesOf (laneBits y) b)).map fun p => compareLane lt y ftz p.1 p.2) =
      exactRow (laneBits y) ((upTo (laneCount y)).map fun j =>
        let u := unpack t ftz (lane (laneBits y) a j)
        let v := unpack t ftz (lane (laneBits y) b j)
        ⟨if (if lt then ltV u v else eqV u v) then 2 ^ laneBits y - 1 else 0, cmpFlags u v lt⟩) := by
  rw [zip_lanesOf, List.map_map]
  exact congrArg _ (List.map_congr_left fun j _ => compareLane_float hfmt lt ftz _ _)

/-- A float lane of VSRCH (R185). -/
theorem countBelow_float (ftz : Bool) (n : Nat) (f : Nat → Nat) (b : Nat) : countBelow y ftz ((upTo n).map f) b =
    ⟨(upTo n).countP fun q => ltV (unpack t ftz (f q)) (unpack t ftz b),
      if ((unpack t ftz b).isNan || (upTo n).any fun q => (unpack t ftz (f q)).isNan) = true then flNV else 0⟩ := by
  rw [countBelow, hfmt]
  simp only [List.map_map, List.filter_map, List.length_map, List.any_map, Function.comp_def, List.countP_eq_length_filter]

end

/-- The first k of n lanes, filled up to k. -/
theorem take_append_replicate {α : Type} (n k : Nat) (f : Nat → α) (z : α) :
    ((upTo n).take k).map f ++ List.replicate (k - n) z = (upTo k).map fun j => if j < n then f j else z := by
  apply List.ext_getElem
  · simp only [upTo, List.length_append, List.length_map, List.length_take, List.length_range, List.length_replicate]
    omega
  · intro j h1 h2
    simp only [upTo, List.getElem_append, List.length_map, List.length_take, List.length_range, List.getElem_map, List.getElem_take,
      List.getElem_range, List.getElem_replicate]
    simp only [upTo, List.length_map, List.length_range] at h2
    by_cases h : j < n
    · rw [dif_pos (by omega), if_pos h]
    · rw [dif_neg (by omega), if_neg h]

/-- A row of VCVT between exact types (R177): the lanes that both have, then zeros. -/
theorem convertRow_exact {src : LaneType} (hb : src.bounded = false) (dst : LaneType) (c : Ctx) (a : Row) : convertRow src dst c a =
    exactRow (laneBits dst) ((upTo (laneCount dst)).map fun j => if j < laneCount src then
      convertLane src dst (rmOf (c.mode.extractLsb' 4 2)) (c.mode.getLsbD 3) (lane (laneBits src) a.data j) else ⟨0, 0⟩) := by
  rw [convertRow, modeFor_exact hb, ← take_append_replicate]
  simp only [hb, Bool.false_eq_true, if_false, lanesOf, ← List.map_take, List.map_map]
  cases laneFmt dst <;> rfl

/-! ## Conversions (R42, R177) -/

/-- The least integer of a type. -/
def laneMin (y : LaneType) : Int := if laneSigned y then -(2 ^ (laneBits y - 1) : Nat) else 0

/-- The largest integer of a type. -/
def laneMax (y : LaneType) : Int := if laneSigned y then (2 ^ (laneBits y - 1) : Nat) - 1 else (2 ^ laneBits y : Nat) - 1

theorem laneMin_le_laneMax (y : LaneType) : laneMin y ≤ laneMax y := by
  have hpos : ∀ n : Nat, (1 : Int) ≤ ((2 ^ n : Nat) : Int) := fun n => by exact_mod_cast Nat.two_pow_pos n
  have hhalf := hpos (laneBits y - 1)
  have hfull := hpos (laneBits y)
  unfold laneMin laneMax
  split <;> omega

/-- The pattern that a lane of VCVT delivers (R42, R177). -/
def convertedBits (src dst : LaneType) (rm : Rm) (ftz : Bool) (x : Nat) : Nat :=
  match laneFmt src, laneFmt dst with
  | some p, some q => (convert p q rm ftz x).bits % 2 ^ laneBits dst
  | some p, none => (match unpack p ftz x with
      | .nan _ => 0
      | .inf n => wrap (laneBits dst) (if n then laneMin dst else laneMax dst)
      | .fin n m e => wrap (laneBits dst) (max (laneMin dst) (min (laneMax dst) (roundToInt rm n m e).1)))
  | none, some q => (roundInt q rm ftz false (laneInt src x) 0).bits % 2 ^ laneBits dst
  | none, none => wrap (laneBits dst) (max (laneMin dst) (min (laneMax dst) (laneInt src x)))

theorem wrap_mod (n : Nat) (x : Int) : wrap n x % 2 ^ n = wrap n x := by
  have hpos : (0 : Int) < ((2 ^ n : Nat) : Int) := by exact_mod_cast Nat.two_pow_pos n
  refine Nat.mod_eq_of_lt ?_
  rw [wrap, Int.toNat_lt (Int.emod_nonneg _ hpos.ne')]
  exact Int.emod_lt_of_pos _ hpos

/-- Saturation written as a choice is a clamp. -/
theorem clamp_eq {lo hi : Int} (h : lo ≤ hi) (v : Int) : (if v < lo then lo else if hi < v then hi else v) = max lo (min hi v) := by
  split
  · omega
  · split <;> omega

/-- The integer that a finite value is converted to (R42). -/
theorem toInt_fin {t : Fmt} {rm : Rm} {ftz n : Bool} {x m : Nat} {e : Int} (dst : LaneType) (h : unpack t ftz x = .fin n m e) :
    (toInt t rm ftz (laneSigned dst) (laneBits dst) x).1 = max (laneMin dst) (min (laneMax dst) (roundToInt rm n m e).1) := by
  rw [← clamp_eq (laneMin_le_laneMax dst), toInt, h]
  dsimp only
  rw [apply_ite Prod.fst, apply_ite Prod.fst]
  rfl

/-- Saturation to an integer type (R34). -/
theorem saturate_eq (dst : LaneType) (v : Int) :
    (if laneSigned dst then satS v (laneBits dst) else satU v (laneBits dst)) = max (laneMin dst) (min (laneMax dst) v) := by
  have hle := laneMin_le_laneMax dst
  unfold laneMin laneMax at hle ⊢
  split at hle <;> simp only [satS, satU, *, if_true, if_false, Bool.false_eq_true] <;> omega

theorem convertLane_bits (src dst : LaneType) (rm : Rm) (ftz : Bool) (x : Nat) :
    (convertLane src dst rm ftz x).bits % 2 ^ laneBits dst = convertedBits src dst rm ftz x := by
  unfold convertLane convertedBits
  cases laneFmt src with
  | some p =>
    cases laneFmt dst with
    | some q => rfl
    | none =>
      dsimp only
      rw [wrap_mod]
      cases h : unpack p ftz x with
      | nan s =>
        rw [toInt, h]
        exact Int.toNat_eq_zero.mpr (by simp)
      | inf n =>
        rw [toInt, h]
        rfl
      | fin n m e => rw [toInt_fin dst h]
  | none =>
    cases laneFmt dst with
    | some q => rfl
    | none =>
      dsimp only
      rw [wrap_mod, saturate_eq]

/-- A float lane converted to its own type. -/
theorem convertLane_same {y : LaneType} {t : Fmt} (h : laneFmt y = some t) (rm : Rm) (ftz : Bool) (x : Nat) :
    convertLane y y rm ftz x = convert t t rm ftz x := by
  rw [convertLane, h]

/-- A row of VCVT of an exact float type to itself. -/
theorem convertRow_same {y : LaneType} {t : Fmt} (h : laneFmt y = some t) (hb : y.bounded = false) (c : Ctx) (a : Row) :
    convertRow y y c a = exactRow (laneBits y) ((upTo (laneCount y)).map fun j =>
      convert t t (rmOf (c.mode.extractLsb' 4 2)) (c.mode.getLsbD 3) (lane (laneBits y) a.data j)) := by
  rw [convertRow_exact hb]
  refine congrArg _ (List.map_congr_left fun j hj => ?_)
  rw [if_pos (mem_upTo.mp hj), convertLane_same h]

end Sys2Proof.Machine
end

section
/-! PROOFS. Scans, searches and reductions of float lanes (R179, R184, R185, R191). -/

namespace Sys2Proof.Machine

/-! ## Scans (R184) -/

/-- What has come of op after elements 0 to q of f, from a on. -/
def foldThrough {α : Type} (op : Nat → α → Nat) (a : Nat) (f : Nat → α) (q : Nat) : Nat := ((upTo (q + 1)).map f).foldl op a

theorem foldThrough_zero {α : Type} (op : Nat → α → Nat) (a : Nat) (f : Nat → α) : foldThrough op a f 0 = op a (f 0) := rfl

theorem foldThrough_succ {α : Type} (op : Nat → α → Nat) (a : Nat) (f : Nat → α) (q : Nat) :
    foldThrough op a f (q + 1) = op (foldThrough op a f q) (f (q + 1)) := by
  rw [foldThrough, show upTo (q + 1 + 1) = upTo (q + 1) ++ [q + 1] from List.range_succ, List.map_append, List.foldl_append]
  rfl

theorem tail_scanl_upTo {α : Type} (op : Nat → α → Nat) (a n : Nat) (f : Nat → α) :
    (((upTo n).map f).scanl op a).tail = (upTo n).map (foldThrough op a f) := by
  refine List.ext_getElem? fun q => ?_
  rw [List.getElem?_tail, List.getElem?_scanl, List.length_map, upTo, List.length_range, ← upTo]
  by_cases h : q + 1 ≤ n
  · rw [if_pos h, getElem?_upTo_map _ _ h, ← List.map_take, upTo, List.take_range, min_eq_left h]
    rfl
  · rw [if_neg h, List.getElem?_eq_none (by simp [upTo]; omega)]

/-- One step of the running sum, on patterns. -/
def sumStep (ftz : Bool) (s x : Nat) : Nat := (fadd fp32 .rne ftz s x).bits

/-- One step of a running maximum, on patterns. -/
def maxStep (t : Fmt) (ftz : Bool) (m x : Nat) : Nat := (fminmax t ftz true m x).bits

theorem scanl_eq_cons_tail {α : Type} (op : Nat → α → Nat) (a : Nat) (l : List α) : l.scanl op a = a :: (l.scanl op a).tail := by
  cases l <;> simp

theorem scanSums_bits (ftz : Bool) (l : List FR) :
    ∀ a, (scanSums ftz a l).map (·.bits) = ((l.map (·.bits)).scanl (sumStep ftz) a).tail := by
  induction l with
  | nil => intro a; rfl
  | cons x l ih =>
    intro a
    rw [scanSums, List.map_cons, ih, List.map_cons, List.scanl_cons, List.tail_cons]
    exact (scanl_eq_cons_tail ..).symm

theorem scanMax_bits (t : Fmt) (ftz : Bool) (l : List Nat) :
    ∀ a, (scanMax t ftz a l).map (·.bits) = (l.scanl (maxStep t ftz) a).tail := by
  induction l with
  | nil => intro a; rfl
  | cons x l ih =>
    intro a
    rw [scanMax, List.map_cons, ih, List.scanl_cons, List.tail_cons]
    exact (scanl_eq_cons_tail ..).symm

/-- A sequence moved up by one, as an exclusive scan shows it. -/
theorem cons_dropLast_upTo {n : Nat} (hn : 0 < n) (z : Nat) (f : Nat → Nat) :
    z :: ((upTo n).map f).dropLast = (upTo n).map fun q => if q = 0 then z else f (q - 1) := by
  obtain ⟨n, rfl⟩ := Nat.exists_eq_succ_of_ne_zero hn.ne'
  rw [show upTo n.succ = upTo n ++ [n] from List.range_succ, List.map_append, List.map_singleton, List.dropLast_concat,
    show upTo n ++ [n] = 0 :: (upTo n).map Nat.succ from List.range_succ.symm.trans List.range_succ_eq_map, List.map_cons, List.map_map]
  rfl

/-- The sum that a scan has reached at place q of the sequence with elements S, in FP32 (R184). -/
def scanSum (t : Fmt) (ftz : Bool) (S : Nat → Nat) : Nat → Nat := foldThrough (sumStep ftz) 0 fun i => (widen t ftz (S i)).bits

/-- The maximum that a scan has reached at place q. -/
def scanTop (t : Fmt) (ftz : Bool) (S : Nat → Nat) : Nat → Nat := foldThrough (maxStep t ftz) t.nan S

/-- What a float scan shows at place q of the sequence with elements S (R184). -/
def scanValue (op : ScanOp) (t : Fmt) (ftz : Bool) (S : Nat → Nat) (q : Nat) : Nat :=
  match op with
  | .max => scanTop t ftz S q
  | .sum => (convert fp32 t .rne ftz (scanSum t ftz S q)).bits
  | .xsum => if q = 0 then 0 else (convert fp32 t .rne ftz (scanSum t ftz S (q - 1))).bits

/-- Results with more flags on the first. -/
def flagFirst (fl : Flags5) : List FR → List FR
  | [] => []
  | x :: r => ⟨x.bits, x.fl ||| fl⟩ :: r

theorem flagFirst_bits (fl : Flags5) (l : List FR) : (flagFirst fl l).map (·.bits) = l.map (·.bits) := by
  cases l <;> rfl

/-- The sums rounded to the lane's format, as results without flags of their own. -/
def roundedSums (t : Fmt) (ftz : Bool) (l : List Nat) : List FR :=
  (scanSums ftz 0 (l.map (widen t ftz))).map fun r => convert fp32 t .rne ftz r.bits

theorem roundedSums_bits (t : Fmt) (ftz : Bool) (n : Nat) (S : Nat → Nat) :
    (roundedSums t ftz ((upTo n).map S)).map (·.bits) = (upTo n).map (scanValue .sum t ftz S) := by
  have h := scanSums_bits ftz (((upTo n).map S).map (widen t ftz)) 0
  rw [List.map_map, List.map_map, tail_scanl_upTo] at h
  have h' := congrArg (List.map fun s => (convert fp32 t .rne ftz s).bits) h
  rw [List.map_map, List.map_map] at h'
  rw [roundedSums, List.map_map, List.map_map]
  exact h'

section
variable {y : LaneType} {t : Fmt} (hfmt : laneFmt y = some t)
include hfmt

theorem scanLanes_sum (ftz : Bool) (l : List Nat) :
    scanLanes .sum y ftz l = flagFirst (orFlags (scanSums ftz 0 (l.map (widen t ftz)))) (roundedSums t ftz l) := by
  simp only [scanLanes, hfmt, reduceCtorEq, if_false]
  rfl

theorem scanLanes_xsum (ftz : Bool) (l : List Nat) : scanLanes .xsum y ftz l =
    flagFirst (orFlags (scanSums ftz 0 (l.map (widen t ftz)))) (⟨0, 0⟩ :: (roundedSums t ftz l).dropLast) := by
  simp only [scanLanes, hfmt, if_true]
  rfl

theorem scanLanes_max (ftz : Bool) (l : List Nat) : scanLanes .max y ftz l = scanMax t ftz t.nan l := by
  rw [scanLanes, hfmt]

theorem scanLanes_bits (op : ScanOp) (ftz : Bool) {n : Nat} (hn : 0 < n) (S : Nat → Nat) :
    (scanLanes op y ftz ((upTo n).map S)).map (·.bits) = (upTo n).map (scanValue op t ftz S) := by
  cases op with
  | max =>
    rw [scanLanes_max hfmt, scanMax_bits, tail_scanl_upTo]
    rfl
  | sum => rw [scanLanes_sum hfmt, flagFirst_bits, roundedSums_bits]
  | xsum =>
    rw [scanLanes_xsum hfmt, flagFirst_bits, List.map_cons, List.map_dropLast, roundedSums_bits, cons_dropLast_upTo hn]
    rfl

end

/-! ## Scans over rows -/

theorem chunk_eq {α : Type} (n m : Nat) : ∀ l : List α, chunk n m l = (upTo m).map fun i => (l.drop (i * n)).take n := by
  induction m with
  | zero => intro l; rfl
  | succ m ih =>
    intro l
    rw [chunk, ih, show upTo (m + 1) = 0 :: (upTo m).map Nat.succ from List.range_succ_eq_map, List.map_cons, List.map_map]
    simp only [Nat.zero_mul, List.drop_zero, Function.comp_def, List.drop_drop, Nat.succ_mul, Nat.add_comm]

/-- The place in a sequence over rows where row n begins. -/
def rowStart (r : Rows) (count n : Nat) : Nat := if r.w then n * count else 0

theorem chunk_zip_rowsOf {α : Type} (r : Rows) (count : Nat) (l : List α) : (chunk count (rowsOf r).length l).zip (rowsOf r) =
    (rowsOf r).map fun n => ((l.drop (rowStart r count n)).take count, n) := by
  unfold rowsOf rowStart
  cases r.w with
  | false => rfl
  | true =>
    rw [if_pos rfl, chunk_eq, show (upTo 16).length = 16 from List.length_range]
    exact (congrArg (List.zip _) (List.map_id (upTo 16)).symm).trans (List.zip_map' ..)

/-- Lane q of the rows of a that r names, one row after another. -/
def sequenceLane (s : State) (k : Nat) (c : Ctx) (a : TReg) (r : Rows) (y : LaneType) (q : Nat) : Nat :=
  if r.w then lane (laneBits y) (rowAt s k c a (q / laneCount y)).data (q % laneCount y)
  else lane (laneBits y) (rowAt s k c a r.row.toNat).data q

theorem rowsOf_lanes (s : State) (k : Nat) (c : Ctx) (a : TReg) (r : Rows) (y : LaneType) :
    (rowsOf r).flatMap (fun i => lanesOf (laneBits y) (rowAt s k c a i).data) =
      (upTo (if r.w then 16 * laneCount y else laneCount y)).map (sequenceLane s k c a r y) :=
  flatMap_rowsOf r (laneCount y) fun i j => lane (laneBits y) (rowAt s k c a i).data j

theorem laneCount_pos (y : LaneType) : 0 < laneCount y := by cases y <;> decide

theorem sequence_pos (r : Rows) (y : LaneType) : 0 < if r.w then 16 * laneCount y else laneCount y := by
  have := laneCount_pos y
  split <;> omega

/-- Lane j of a named row is inside the sequence. -/
theorem rowStart_add_lt {r : Rows} {count n j : Nat} (hn : n ∈ rowsOf r) (hj : j < count) :
    rowStart r count n + j < if r.w then 16 * count else count := by
  unfold rowsOf at hn
  unfold rowStart
  split at hn
  · have hrow : (n + 1) * count ≤ 16 * count := Nat.mul_le_mul_right _ (mem_upTo.mp hn)
    rw [Nat.succ_mul] at hrow
    simp only [*, if_true]
    omega
  · simp only [*, Bool.false_eq_true, if_false, Nat.zero_add]

/-- Rows of lanes cut out of one sequence. -/
theorem lane_of_sequence {y : LaneType} {r : Rows} {n j : Nat} (f : Nat → Nat) (hn : n ∈ rowsOf r) (hj : j < laneCount y) :
    lane (laneBits y) (rowFrom (laneBits y) ((((upTo (if r.w then 16 * laneCount y else laneCount y)).map f).drop
      (rowStart r (laneCount y) n)).take (laneCount y))) j = f (rowStart r (laneCount y) n + j) % 2 ^ laneBits y := by
  rw [lane_rowFrom _ (lane_fits hj), List.getD_eq_getElem?_getD, List.getElem?_take_of_lt hj, List.getElem?_drop,
    getElem?_upTo_map _ _ (rowStart_add_lt hn hj), Option.getD_some]

/-- Row n of a sequence of results. -/
def sequenceRow (y : LaneType) (r : Rows) (l : List Nat) (n : Nat) : Row :=
  { data := rowFrom (laneBits y) ((l.drop (rowStart r (laneCount y) n)).take (laneCount y)) }

/-- The rows of VSCAN (R184). -/
theorem rowRes_vscan (s : State) (k : Nat) (c : Ctx) (g : Guard) (d a : TReg) (op : ScanOp) (r : Rows) (y : LaneType) :
    (rowRes s k c (.vscan g d a op r y)).units = (rowsOf r).map fun n => [((d, n), sequenceRow y r ((scanLanes op y (c.mode.getLsbD 3)
      ((rowsOf r).flatMap fun i => lanesOf (laneBits y) (rowAt s k c a i).data)).map (·.bits)) n)] := by
  simp only [rowRes, chunk_zip_rowsOf, List.map_map, sequenceRow, ← List.map_drop, ← List.map_take]
  rfl

/-- The lanes of a float scan (R184). -/
theorem rowRes_vscan_lanes {y : LaneType} {t : Fmt} (hfmt : laneFmt y = some t) (s : State) (k : Nat) (c : Ctx) (g : Guard) (d a : TReg) (op : ScanOp)
    (r : Rows) : ∃ o : Nat → Row, (rowRes s k c (.vscan g d a op r y)).units = (rowsOf r).map (fun n => [((d, n), o n)]) ∧
      ∀ n j, n ∈ rowsOf r → j < laneCount y → lane (laneBits y) (o n).data j =
        scanValue op t (c.mode.getLsbD 3) (sequenceLane s k c a r y) (rowStart r (laneCount y) n + j) % 2 ^ laneBits y := by
  refine ⟨_, rowRes_vscan s k c g d a op r y, fun n j hn hj => ?_⟩
  rw [sequenceRow, rowsOf_lanes, scanLanes_bits hfmt op _ (sequence_pos r y)]
  exact lane_of_sequence _ hn hj

/-! ## Searches (R185) -/

/-- The table of VSRCH is the sequence of the rows that r names. -/
theorem searchTable_eq {α : Type} (r : Rows) (f : Nat → List α) :
    (if r.w then (upTo 16).flatMap f else f r.row.toNat) = (rowsOf r).flatMap f := by
  unfold rowsOf
  split
  · rfl
  · rw [List.flatMap_singleton]

/-- A row of VSRCH (R185), over the table with elements S. -/
theorem searchRow_float {y : LaneType} {t : Fmt} (hfmt : laneFmt y = some t) (ftz : Bool) {r : Rows} {f : Nat → List Nat} {n : Nat} {S : Nat → Nat}
    (hS : (rowsOf r).flatMap f = (upTo n).map S) (b : RowData) :
    exactRow (laneBits y) ((lanesOf (laneBits y) b).map (countBelow y ftz (if r.w then (upTo 16).flatMap f else f r.row.toNat))) =
      exactRow (laneBits y) ((upTo (laneCount y)).map fun j =>
        let v := unpack t ftz (lane (laneBits y) b j)
        ⟨(upTo n).countP fun q => ltV (unpack t ftz (S q)) v,
          if (v.isNan || (upTo n).any fun q => (unpack t ftz (S q)).isNan) = true then flNV else 0⟩) := by
  rw [searchTable_eq, hS, lanesOf, List.map_map]
  exact congrArg _ (List.map_congr_left fun j _ => countBelow_float hfmt ftz n S _)

/-! ## The largest element (R179) -/

/-- One element seen by `argMax`: the place of the last element, the place of the best and its value. -/
def argStep (p : Nat × Nat × Int) (x : Int) : Nat × Nat × Int :=
  if p.2.2 < x then (p.1 + 1, p.1 + 1, x) else (p.1 + 1, p.2.1, p.2.2)

/-- p tells the last place of l, and the place and value of its first largest element. -/
def Tops (l : List Int) (p : Nat × Nat × Int) : Prop :=
  p.1 + 1 = l.length ∧ l[p.2.1]? = some p.2.2 ∧ (∀ (q : Nat) (v : Int), l[q]? = some v → v ≤ p.2.2) ∧
    ∀ (q : Nat) (v : Int), q < p.2.1 → l[q]? = some v → v < p.2.2

theorem getElem?_concat_cases {l : List Int} {x v : Int} {q : Nat} (h : (l ++ [x])[q]? = some v) :
    l[q]? = some v ∨ q = l.length ∧ v = x := by
  rw [List.getElem?_append] at h
  split at h
  · exact .inl h
  · obtain ⟨hq, hv⟩ := List.getElem?_eq_some_iff.mp h
    simp only [List.length_singleton] at hq
    exact .inr ⟨by omega, by simpa using hv.symm⟩

theorem Tops.step {l : List Int} {p : Nat × Nat × Int} (h : Tops l p) (x : Int) : Tops (l ++ [x]) (argStep p x) := by
  obtain ⟨hlast, hbest, hmax, hfirst⟩ := h
  unfold argStep
  split
  next hlt =>
    refine ⟨by simp [hlast], by simp [hlast], fun q v hv => ?_, fun q v hq hv => ?_⟩
    · rcases getElem?_concat_cases hv with hv | ⟨-, rfl⟩
      · exact (hmax q v hv).trans hlt.le
      · exact le_rfl
    · rcases getElem?_concat_cases hv with hv | ⟨rfl, -⟩
      · exact (hmax q v hv).trans_lt hlt
      · dsimp only at hq
        omega
  next hle =>
    have hin : p.2.1 < l.length := (List.getElem?_eq_some_iff.mp hbest).1
    refine ⟨by simp [hlast], by rw [List.getElem?_append_left hin, hbest], fun q v hv => ?_, fun q v hq hv => ?_⟩
    · rcases getElem?_concat_cases hv with hv | ⟨-, rfl⟩
      · exact hmax q v hv
      · exact not_lt.mp hle
    · rcases getElem?_concat_cases hv with hv | ⟨rfl, -⟩
      · exact hfirst q v hq hv
      · dsimp only at hq
        omega

theorem Tops.foldl (r : List Int) : ∀ {l : List Int} {p : Nat × Nat × Int}, Tops l p → Tops (l ++ r) (r.foldl argStep p) := by
  induction r with
  | nil => intro l p h; simpa using h
  | cons x r ih =>
    intro l p h
    have := ih (h.step x)
    rwa [List.append_assoc] at this

/-- `argMax` finds the first of the largest elements. -/
theorem argMax_spec {n : Nat} (hn : 0 < n) (f : Nat → Int) : argMax ((upTo n).map f) < n ∧
    (∀ p, p < n → f p ≤ f (argMax ((upTo n).map f))) ∧ ∀ p, p < argMax ((upTo n).map f) → f p < f (argMax ((upTo n).map f)) := by
  obtain ⟨n, rfl⟩ := Nat.exists_eq_succ_of_ne_zero hn.ne'
  have hcons : (upTo n.succ).map f = f 0 :: ((upTo n).map fun i => f (i + 1)) := by
    rw [show upTo n.succ = 0 :: (upTo n).map Nat.succ from List.range_succ_eq_map, List.map_cons, List.map_map]
    rfl
  have hstart : Tops [f 0] (0, 0, f 0) :=
    ⟨rfl, rfl, fun q v hv => (List.mem_singleton.mp (List.mem_of_getElem? hv)).le, fun q v hq => absurd hq (Nat.not_lt_zero q)⟩
  obtain ⟨-, hbest, hmax, hfirst⟩ : Tops ((upTo n.succ).map f) (((upTo n).map fun i => f (i + 1)).foldl argStep (0, 0, f 0)) :=
    hcons ▸ hstart.foldl _
  have harg : argMax ((upTo n.succ).map f) = (((upTo n).map fun i => f (i + 1)).foldl argStep (0, 0, f 0)).2.1 := by
    rw [hcons]
    rfl
  rw [← harg] at hbest hfirst
  have hlt : argMax ((upTo n.succ).map f) < n.succ := by
    simpa [upTo] using (List.getElem?_eq_some_iff.mp hbest).1
  rw [getElem?_upTo_map _ _ hlt, Option.some_inj] at hbest
  rw [← hbest] at hmax hfirst
  exact ⟨hlt, fun p hp => hmax p _ (getElem?_upTo_map _ _ hp), fun p hp => hfirst p _ hp (getElem?_upTo_map _ _ (hp.trans hlt))⟩

/-! ## Reductions (R179, R191) -/

/-- Column j of a tile, as TCOLRED takes it from the rows' lanes. -/
theorem column_eq (s : State) (k : Nat) (c : Ctx) (a : TReg) {y : LaneType} {j : Nat} (hj : j < laneCount y) :
    (((upTo 16).map fun i => lanesOf (laneBits y) (rowAt s k c a i).data).map fun l => l.getD j 0) =
      (upTo 16).map fun i => lane (laneBits y) (rowAt s k c a i).data j := by
  rw [List.map_map]
  exact List.map_congr_left fun i _ => getD_upTo_map _ _ _ hj

/-- TCOLRED's row: each lane the reduction of its column (R191). -/
theorem rowRes_tcolred (s : State) (k : Nat) (c : Ctx) (g : Guard) (d a : TReg) (op : ColOp) (row : BitVec 4) (y : LaneType) :
    (rowRes s k c (.tcolred g d a op row y)).units = [[((d, row.toNat), (exactRow (laneBits y) ((upTo (laneCount y)).map fun j =>
      rowRes.colRed c op y ((upTo 16).map fun i => lane (laneBits y) (rowAt s k c a i).data j))).row)]] := by
  rw [← List.map_congr_left fun j hj => congrArg (rowRes.colRed c op y) (column_eq s k c a (mem_upTo.mp hj))]
  rfl

section
variable {y : LaneType} {t : Fmt} (hfmt : laneFmt y = some t) (s : State) (k : Nat) (c : Ctx) (g : Guard)
include hfmt

/-- The sum of VRED: a tree over each row, then one over the rows (R179). -/
theorem rowRes_vred_sum (x : SReg) (a : TReg) (r : Rows) : (rowRes s k c (.vred g x a .sum r y)).reg = some (x, BitVec.ofNat 64
    (treeSum 5 ((rowsOf r).map fun i => treeSum 8 ((upTo (laneCount y)).map fun j =>
      widen t (c.mode.getLsbD 3) (lane (laneBits y) (rowAt s k c a i).data j)) (c.mode.getLsbD 3)) (c.mode.getLsbD 3)).bits) := by
  simp only [rowRes, reduceRows, hfmt, lanesOf, List.map_map, Function.comp_def]
  rfl

/-- VRED's ARGMAX is that of the sequence of the rows' lanes (R179). -/
theorem rowRes_vred_argmax (x : SReg) (a : TReg) (r : Rows) {n : Nat} {S : Nat → Nat}
    (hS : (rowsOf r).flatMap (fun i => lanesOf (laneBits y) (rowAt s k c a i).data) = (upTo n).map S) :
    (rowRes s k c (.vred g x a .argmax r y)).reg =
      some (x, BitVec.ofNat 64 (argMax ((upTo n).map fun q => rank32 (widen t (c.mode.getLsbD 3) (S q)).bits))) := by
  have h := congrArg (List.map fun v => rank32 (widen t (c.mode.getLsbD 3) v).bits) hS
  rw [List.map_map, List.map_flatMap] at h
  simp only [rowRes, reduceRows, hfmt, ← List.flatMap_def, List.map_map, List.map_flatMap, Function.comp_def]
  simp only [Function.comp_def] at h
  rw [← h]
  rfl

/-- A column's sum: the pairwise tree over its widened lanes, rounded to the lane's format (R191). -/
theorem colRed_sum_bits (col : List Nat) : (rowRes.colRed c .sum y col).bits =
    (convert fp32 t .rne (c.mode.getLsbD 3) (treeSum 5 (col.map (widen t (c.mode.getLsbD 3))) (c.mode.getLsbD 3)).bits).bits := by
  rw [rowRes.colRed, hfmt]
  rfl

end

end Sys2Proof.Machine
end

section
/-! PROOFS. Error bounds as rational numbers (R55 to R57), and the bounded rows. -/

namespace Sys2Proof.Machine

/-! ## Bounds as rational numbers (R55) -/

/-- The number that a bound stands for. -/
def Dy.val (d : Dy) : ℚ := d.n * (2 : ℚ) ^ d.e

theorem Dy.val_nonneg (d : Dy) : 0 ≤ d.val := mul_nonneg (Nat.cast_nonneg _) (zpow_nonneg (by norm_num) _)

/-- A significand brought to a smaller exponent. -/
theorem rescale_val (n : Nat) {e e0 : Int} (h : e0 ≤ e) : ((n * 2 ^ (e - e0).toNat : Nat) : ℚ) * (2 : ℚ) ^ e0 = n * (2 : ℚ) ^ e := by
  rw [Nat.cast_mul, Nat.cast_pow, Nat.cast_ofNat, ← zpow_natCast, Int.toNat_of_nonneg (by omega), mul_assoc, ← zpow_add₀ (by norm_num),
    sub_add_cancel]

@[simp] theorem Dy.val_add (a b : Dy) : (a.add b).val = a.val + b.val := by
  simp only [Dy.val, Dy.add]
  rw [Nat.cast_add, add_mul, rescale_val _ (min_le_left _ _), rescale_val _ (min_le_right _ _)]

@[simp] theorem Dy.val_mul (a b : Dy) : (a.mul b).val = a.val * b.val := by
  simp only [Dy.val, Dy.mul]
  rw [Nat.cast_mul, zpow_add₀ (by norm_num)]
  ring

theorem Dy.le_iff (a b : Dy) : a.le b = true ↔ a.val ≤ b.val := by
  have hpos : (0 : ℚ) < 2 ^ min a.e b.e := zpow_pos (by norm_num) _
  rw [Dy.val, Dy.val, ← rescale_val a.n (min_le_left a.e b.e), ← rescale_val b.n (min_le_right a.e b.e), mul_le_mul_iff_left₀ hpos, Nat.cast_le]
  simp only [Dy.le, decide_eq_true_eq]

@[simp] theorem val_dyMax (a b : Dy) : (a.max b).val = max a.val b.val := by
  unfold Dy.max
  split
  next h => rw [max_eq_right ((Dy.le_iff a b).mp h)]
  next h => rw [max_eq_left (not_le.mp fun hle => h ((Dy.le_iff a b).mpr hle)).le]

@[simp] theorem Dy.val_zero (e : Int) : (⟨0, e⟩ : Dy).val = 0 := by
  rw [Dy.val, Nat.cast_zero, zero_mul]

@[simp] theorem Dy.val_one (e : Int) : (⟨1, e⟩ : Dy).val = (2 : ℚ) ^ e := by
  rw [Dy.val, Nat.cast_one, one_mul]

/-- The largest of several bounds is below what bounds them all. -/
theorem foldl_max_val_le {α : Type} (g : α → Dy) (b : ℚ) (l : List α) :
    ∀ a : Dy, (l.foldl (fun (m : Dy) p => m.max (g p)) a).val ≤ b ↔ a.val ≤ b ∧ ∀ p ∈ l, (g p).val ≤ b := by
  induction l with
  | nil => intro a; simp
  | cons x l ih =>
    intro a
    rw [List.foldl_cons, ih, val_dyMax, max_le_iff, List.forall_mem_cons, and_assoc]

/-! ## Bound(d) (R55) -/

/-- The least exponent c with d at most 2^c, for d other than 0. -/
def Dy.ceilLog (d : Dy) : Int := d.e + ((bitLen d.n - 1 : Nat) : Int) + if d.n = 2 ^ (bitLen d.n - 1) then 0 else 1

theorem Dy.ceilLog_spec {d : Dy} (h : d.n ≠ 0) : (2 : ℚ) ^ (d.ceilLog - 1) < d.val ∧ d.val ≤ (2 : ℚ) ^ d.ceilLog := by
  have hlen : bitLen d.n - 1 = Nat.log2 d.n := by rw [bitLen, if_neg h, Nat.add_sub_cancel]
  have hlo : 2 ^ Nat.log2 d.n ≤ d.n := Nat.log2_self_le h
  have hhi : d.n < 2 ^ (Nat.log2 d.n + 1) := Nat.lt_log2_self
  have hpos : (0 : ℚ) < 2 ^ d.e := zpow_pos (by norm_num) _
  have hscale : ∀ k : Nat, (2 : ℚ) ^ (d.e + k) = ((2 ^ k : Nat) : ℚ) * 2 ^ d.e := fun k => by
    rw [zpow_add₀ (by norm_num), zpow_natCast, Nat.cast_pow, Nat.cast_ofNat, mul_comm]
  rw [Dy.ceilLog, hlen, Dy.val]
  by_cases hn : d.n = 2 ^ Nat.log2 d.n
  · rw [if_pos hn, add_zero]
    refine ⟨?_, ?_⟩
    · calc (2 : ℚ) ^ (d.e + (Nat.log2 d.n : Int) - 1) < 2 ^ (d.e + (Nat.log2 d.n : Int)) := zpow_lt_zpow_right₀ (by norm_num) (by omega)
        _ = d.n * 2 ^ d.e := by rw [hscale, ← hn]
    · rw [hscale, ← hn]
  · rw [if_neg hn, add_sub_cancel_right, add_assoc, ← Nat.cast_succ, hscale, hscale]
    exact ⟨mul_lt_mul_of_pos_right (by exact_mod_cast lt_of_le_of_ne hlo (Ne.symm hn)) hpos,
      mul_le_mul_of_nonneg_right (by exact_mod_cast hhi.le) hpos.le⟩

theorem boundOf_eq {d : Dy} (h : d.n ≠ 0) : boundOf d =
    if d.ceilLog ≤ -127 then 0 else if 127 < d.ceilLog then 0xFF else BitVec.ofInt 8 (127 + d.ceilLog) := by
  rw [boundOf, if_neg h]
  dsimp only
  rw [← Dy.ceilLog]
  simp only [show (254 < 127 + d.ceilLog) ↔ 127 < d.ceilLog by omega]

/-- Small bounds are tag 0. -/
theorem boundOf_small {d : Dy} (h : d.val ≤ (2 : ℚ) ^ (-127 : Int)) : boundOf d = 0 := by
  by_cases hn : d.n = 0
  · rw [boundOf, if_pos hn]
  · have hlt := (zpow_lt_zpow_iff_right₀ (by norm_num : (1 : ℚ) < 2)).mp ((Dy.ceilLog_spec hn).1.trans_le h)
    rw [boundOf_eq hn, if_pos (by omega)]

/-- A larger bound is rounded up to a power of two; 0xFF stands for those that no tag holds. -/
theorem boundOf_power {d : Dy} {q : Int} (hq : -127 < q) (hlo : (2 : ℚ) ^ (q - 1) < d.val) (hhi : d.val ≤ (2 : ℚ) ^ q) :
    boundOf d = if 127 < q then 0xFF else BitVec.ofInt 8 (127 + q) := by
  have hn : d.n ≠ 0 := fun hn => by
    rw [Dy.val, hn, Nat.cast_zero, zero_mul] at hlo
    exact absurd hlo (zpow_pos (by norm_num) _).le.not_gt
  obtain ⟨hclo, hchi⟩ := Dy.ceilLog_spec hn
  have h1 := (zpow_lt_zpow_iff_right₀ (by norm_num : (1 : ℚ) < 2)).mp (hclo.trans_le hhi)
  have h2 := (zpow_lt_zpow_iff_right₀ (by norm_num : (1 : ℚ) < 2)).mp (hlo.trans_le hchi)
  have hc : d.ceilLog = q := by omega
  rw [boundOf_eq hn, hc, if_neg (by omega)]

/-! ## Tags (R57) -/

/-- The lane's result is neither infinite nor NaN. -/
def FiniteLane (t : Fmt) (z : FR) : Prop := ∃ n m e, unpack t false z.bits = .fin n m e

/-- The tag of a result row with lanes z and lane errors e (R57). -/
def TagIs (t : Fmt) (count : Nat) (any : Bool) (z : Nat → FR) (e : Nat → ℚ) (o : Row) : Prop :=
  (any = false → o.b = false ∧ o.e = 0) ∧
  (any = true → o.b = true ∧ (∀ j, j < count → ¬ FiniteLane t (z j) → o.e = 0xFF) ∧
    ((∀ j, j < count → FiniteLane t (z j)) → ∀ m : ℚ, (∀ j, j < count → e j ≤ m) → (∃ j, j < count ∧ e j = m) →
      (m ≤ (2 : ℚ) ^ (-127 : Int) → o.e = 0) ∧
      ∀ q : Int, -127 < q → (2 : ℚ) ^ (q - 1) < m → m ≤ (2 : ℚ) ^ q → o.e = if 127 < q then 0xFF else BitVec.ofInt 8 (127 + q)))

/-- A lane is infinite or NaN, as `taggedRow` looks for it. -/
def infinite (t : Fmt) (z : FR) : Bool := match unpack t false z.bits with | .fin .. => false | _ => true

theorem infinite_eq_true (t : Fmt) (z : FR) : infinite t z = true ↔ ¬ FiniteLane t z := by
  unfold infinite FiniteLane
  cases unpack t false z.bits <;> simp

/-- The largest lane error. -/
def worstError (l : List (FR × Dy)) : Dy := l.foldl (fun (m : Dy) p => m.max p.2) ⟨0, 0⟩

theorem taggedRow_eq (t : Fmt) (any : Bool) (l : List (FR × Dy)) : (taggedRow t any l).row =
    { data := rowFrom t.width (l.map fun p => p.1.bits), b := any
      e := if any then (if l.any (fun p => infinite t p.1) then 0xFF else boundOf (worstError l)) else 0 } := by
  cases any <;> rfl

theorem worstError_val {count : Nat} {z : Nat → FR} {err : Nat → Dy} {m : ℚ} (hle : ∀ j, j < count → (err j).val ≤ m)
    (hat : ∃ j, j < count ∧ (err j).val = m) : (worstError ((upTo count).map fun j => (z j, err j))).val = m := by
  obtain ⟨i, hi, hm⟩ := hat
  refine le_antisymm ?_ ?_
  · refine (foldl_max_val_le _ _ _ _).mpr ⟨?_, fun p hp => ?_⟩
    · rw [Dy.val_zero, ← hm]
      exact (err i).val_nonneg
    · obtain ⟨j, hj, rfl⟩ := List.mem_map.mp hp
      exact hle j (mem_upTo.mp hj)
  · rw [← hm]
    exact ((foldl_max_val_le _ _ _ _).mp le_rfl).2 _ (List.mem_map.mpr ⟨i, mem_upTo.mpr hi, rfl⟩)

theorem tagIs_taggedRow (t : Fmt) (count : Nat) (any : Bool) (z : Nat → FR) {err : Nat → Dy} {e : Nat → ℚ}
    (he : ∀ j, j < count → (err j).val = e j) : TagIs t count any z e (taggedRow t any ((upTo count).map fun j => (z j, err j))).row := by
  rw [taggedRow_eq]
  refine ⟨fun hany => ?_, fun hany => ⟨hany, fun j hj hz => ?_, fun hz m hle hat => ?_⟩⟩
  · rw [hany]
    exact ⟨rfl, rfl⟩
  · have hbad : ((upTo count).map fun j => (z j, err j)).any (fun p => infinite t p.1) = true :=
      List.any_eq_true.mpr ⟨_, List.mem_map.mpr ⟨j, mem_upTo.mpr hj, rfl⟩, (infinite_eq_true t (z j)).mpr hz⟩
    rw [hany, hbad]
    rfl
  · have hgood : ((upTo count).map fun j => (z j, err j)).any (fun p => infinite t p.1) = false := by
      refine List.any_eq_false.mpr fun p hp hinf => ?_
      obtain ⟨j, hj, rfl⟩ := List.mem_map.mp hp
      exact (infinite_eq_true t (z j)).mp hinf (hz j (mem_upTo.mp hj))
    have hval := worstError_val (z := z) (fun j hj => (he j hj).le.trans (hle j hj)) (hat.imp fun j hj => ⟨hj.1, (he j hj.1).trans hj.2⟩)
    rw [hany, hgood]
    exact ⟨fun hm => boundOf_small (hval ▸ hm), fun q hq hlo hhi => boundOf_power hq (hval ▸ hlo) (hval ▸ hhi)⟩

/-! ## Lane errors (R56) -/

/-- The bound of a row's tag (R55). -/
def tagVal (o : Row) : ℚ := if o.b then (2 : ℚ) ^ ((o.e.toNat : Int) - 127) else 0

/-- The magnitude of a finite pattern. -/
def patternVal (t : Fmt) (x : Nat) : ℚ :=
  match unpack t false x with
  | .fin _ m e => m * (2 : ℚ) ^ e
  | _ => 0

/-- The rounding's share of a lane's error (R56). -/
def roundingVal (t : Fmt) (z : FR) : ℚ :=
  if z.fl &&& flNX = 0 then 0 else
  match unpack t false z.bits with
  | .fin _ m e => (2 : ℚ) ^ ((if m = 0 then -126 else max (e + (Nat.log2 m : Int)) (-126)) - ((t.f : Int) + 1))
  | _ => 0

@[simp] theorem tagBound_val (o : Row) : (tagBound o.b o.e).val = tagVal o := by
  unfold tagBound tagVal
  split <;> simp

@[simp] theorem magnitude_val (t : Fmt) (x : Nat) : (magnitude t x).val = patternVal t x := by
  unfold magnitude patternVal
  cases unpack t false x <;> simp [Dy.val]

@[simp] theorem roundError_val (t : Fmt) (z : FR) : (roundError t z.bits (z.fl &&& flNX != 0)).val = roundingVal t z := by
  unfold roundError roundingVal
  by_cases hnx : z.fl &&& flNX = 0
  · simp [hnx]
  · simp only [bne_iff_ne.mpr hnx, Bool.not_true, Bool.false_eq_true, if_false, if_neg hnx]
    cases unpack t false z.bits with
    | nan s => simp
    | inf n => simp
    | fin n m e =>
      dsimp only
      by_cases hm : m = 0
      · rw [if_pos hm, if_pos hm, Dy.val_one]
      · rw [if_neg hm, if_neg hm, Dy.val_one, bitLen, if_neg hm]
        congr 3
        omega

/-- The error of a lane of R171: a and b are its operands' magnitudes, da, db and dc the bounds of its rows, h the rounding's share. -/
def arithVal (o : Arith) (a b da db dc h : ℚ) : ℚ :=
  match o with
  | .add | .sub => da + db + h
  | .mul => a * db + b * da + da * db + h
  | .fma => a * db + b * da + da * db + dc + h
  | .min | .max => max da db

/-- The error that `arithRow` finds for a lane. -/
theorem arithError_val (o : Arith) (a b da db dc h : Dy) :
    ((propError o a b da db dc).add (if o = .min ∨ o = .max then ⟨0, 0⟩ else h)).val = arithVal o a.val b.val da.val db.val dc.val h.val := by
  cases o <;> simp [propError, arithVal]

/-! ## Bounded rows (R56, R57) -/

/-- The rows of res are those of d named by r: lanes of z, and the tag of the lane errors e. -/
def TaggedRows (res : RowRes) (d : TReg) (r : Rows) (y : LaneType) (t : Fmt) (any : Nat → Bool) (z : Nat → Nat → FR) (e : Nat → Nat → ℚ) : Prop :=
  ∃ o : Nat → Row, res.units = (rowsOf r).map (fun n => [((d, n), o n)]) ∧ ∀ n, n ∈ rowsOf r →
    (∀ j, j < laneCount y → lane (laneBits y) (o n).data j = (z n j).bits % 2 ^ laneBits y) ∧ TagIs t (laneCount y) (any n) (z n) (e n) (o n)

theorem width_of_bounded {y : LaneType} {t : Fmt} (hb : y.bounded = true) (hfmt : laneFmt y = some t) : t.width = laneBits y := by
  cases y with
  | f32b => exact Option.some.inj hfmt ▸ rfl
  | bf16b => exact Option.some.inj hfmt ▸ rfl
  | _ => exact absurd hb (by decide)

section
variable {y : LaneType} {t : Fmt} (hb : y.bounded = true) (hfmt : laneFmt y = some t)
include hb hfmt

theorem taggedRows_byRow (r : Rows) (d : TReg) (cycles : Nat) {g : Nat → RowOut} {any : Nat → Bool} {z : Nat → Nat → FR} {err : Nat → Nat → Dy}
    {e : Nat → Nat → ℚ} (h : ∀ n, g n = taggedRow t (any n) ((upTo (laneCount y)).map fun j => (z n j, err n j)))
    (he : ∀ n j, j < laneCount y → (err n j).val = e n j) : TaggedRows (byRow r d cycles g) d r y t any z e := by
  refine ⟨fun n => (g n).row, byRow_units r d cycles g, fun n _ => ⟨fun j hj => ?_, ?_⟩⟩ <;> dsimp only
  · rw [h, taggedRow_eq, width_of_bounded hb hfmt, List.map_map]
    exact lane_rowFrom_map _ hj
  · rw [h]
    exact tagIs_taggedRow t _ _ _ (he n)

/-- A row of R171 of a bounded type. -/
theorem arithRow_bounded (o : Arith) (c : Ctx) (a b d : Row) : arithRow o y c a b d =
    taggedRow t (a.b || b.b || (o == .fma && d.b)) ((upTo (laneCount y)).map fun j =>
      let u := lane (laneBits y) a.data j
      let v := lane (laneBits y) b.data j
      let z := floatOp o t .rne false u v (lane (laneBits y) d.data j)
      (z, (propError o (magnitude t u) (magnitude t v) (tagBound a.b a.e) (tagBound b.b b.e) (tagBound d.b d.e)).add
        (if o = .min ∨ o = .max then ⟨0, 0⟩ else roundError t z.bits (z.fl &&& flNX != 0)))) := by
  rw [arithRow, hfmt, modeFor_bounded hb, zip3_lanesOf]
  simp only [hb, if_true, List.map_map, Function.comp_def]
  rfl

/-- The rows of R171 of a bounded type. -/
theorem taggedRows_arith (r : Rows) (d : TReg) (cycles : Nat) (o : Arith) (c : Ctx) (Ra Rb Rd : Nat → Row) {any : Nat → Bool}
    (hany : ∀ n, ((Ra n).b || (Rb n).b || (o == .fma && (Rd n).b)) = any n) :
    let z (n j : Nat) : FR := floatOp o t .rne false (lane (laneBits y) (Ra n).data j) (lane (laneBits y) (Rb n).data j) (lane (laneBits y) (Rd n).data j)
    TaggedRows (byRow r d cycles fun n => arithRow o y c (Ra n) (Rb n) (Rd n)) d r y t any z fun n j =>
      arithVal o (patternVal t (lane (laneBits y) (Ra n).data j)) (patternVal t (lane (laneBits y) (Rb n).data j))
        (tagVal (Ra n)) (tagVal (Rb n)) (tagVal (Rd n)) (roundingVal t (z n j)) := by
  refine taggedRows_byRow hb hfmt r d cycles (fun n => (arithRow_bounded hb hfmt o c (Ra n) (Rb n) (Rd n)).trans (by rw [hany])) fun n j _ => ?_
  dsimp only
  rw [arithError_val, magnitude_val, magnitude_val, tagBound_val, tagBound_val, tagBound_val, roundError_val]

/-- A row of VSCALE of a bounded type (R181). -/
theorem scaleRow_bounded (c : Ctx) (a b : Row) : scaleRow y c a b = taggedRow t (a.b || b.b) ((upTo (laneCount y)).map fun j =>
    let m := signed (laneBits y) (lane (laneBits y) b.data j)
    let z := scaleLane t .rne false (lane (laneBits y) a.data j) m
    (z, ((⟨1, m⟩ : Dy).mul (tagBound a.b a.e)).add (roundError t z.bits (z.fl &&& flNX != 0)))) := by
  rw [scaleRow, hfmt, modeFor_bounded hb, zip_map_lanesOf]
  simp only [hb, if_true, List.map_map, Function.comp_def]
  rfl

/-- The rows of VSCALE of a bounded type (R181). -/
theorem taggedRows_scale (r : Rows) (d : TReg) (cycles : Nat) (c : Ctx) (Ra Rb : Nat → Row) :
    let m (n j : Nat) : Int := signed (laneBits y) (lane (laneBits y) (Rb n).data j)
    let z (n j : Nat) : FR := scaleLane t .rne false (lane (laneBits y) (Ra n).data j) (m n j)
    TaggedRows (byRow r d cycles fun n => scaleRow y c (Ra n) (Rb n)) d r y t (fun n => (Ra n).b || (Rb n).b) z fun n j =>
      (2 : ℚ) ^ m n j * tagVal (Ra n) + roundingVal t (z n j) := by
  refine taggedRows_byRow hb hfmt r d cycles (fun n => scaleRow_bounded hb hfmt c (Ra n) (Rb n)) fun n j _ => ?_
  rw [Dy.val_add, Dy.val_mul, Dy.val_one, tagBound_val, roundError_val]

end

/-- A row of VCVT between bounded types (R177). -/
theorem convertRow_bounded {src dst : LaneType} {t u : Fmt} (hsrc : src.bounded = true) (hfsrc : laneFmt src = some u) (hfdst : laneFmt dst = some t)
    (c : Ctx) (a : Row) : convertRow src dst c a = taggedRow t a.b ((upTo (laneCount dst)).map fun j =>
      let z := convert u t .rne false (lane (laneBits src) a.data j)
      (if j < laneCount src then z else ⟨0, 0⟩,
        if j < laneCount src then (tagBound a.b a.e).add (roundError t z.bits (z.fl &&& flNX != 0)) else ⟨0, 0⟩)) := by
  have hconv : convertLane src dst .rne false = convert u t .rne false := funext fun x => by rw [convertLane, hfsrc, hfdst]
  have hlanes := take_append_replicate (laneCount src) (laneCount dst) (fun j =>
    let z := convert u t .rne false (lane (laneBits src) a.data j)
    (z, (tagBound a.b a.e).add (roundError t z.bits (z.fl &&& flNX != 0)))) ((⟨0, 0⟩ : FR), (⟨0, 0⟩ : Dy))
  rw [convertRow, hfdst, modeFor_bounded hsrc]
  simp only [hsrc, if_true, hconv, lanesOf, ← List.map_take, List.map_map, List.map_replicate, Function.comp_def]
  refine congrArg _ (hlanes.trans (List.map_congr_left fun j _ => ?_))
  split <;> rfl

/-- The rows of VCVT between bounded types (R177). -/
theorem taggedRows_convert {src dst : LaneType} {t u : Fmt} (hsrc : src.bounded = true) (hdst : dst.bounded = true) (hfsrc : laneFmt src = some u)
    (hfdst : laneFmt dst = some t) (r : Rows) (d : TReg) (cycles : Nat) (c : Ctx) (Ra : Nat → Row) :
    let z (n j : Nat) : FR := if j < laneCount src then convert u t .rne false (lane (laneBits src) (Ra n).data j) else ⟨0, 0⟩
    TaggedRows (byRow r d cycles fun n => convertRow src dst c (Ra n)) d r dst t (fun n => (Ra n).b) z fun n j =>
      if j < laneCount src then tagVal (Ra n) + roundingVal t (z n j) else 0 := by
  refine taggedRows_byRow hdst hfdst r d cycles (fun n => convertRow_bounded hsrc hfsrc hfdst c (Ra n)) fun n j _ => ?_
  by_cases h : j < laneCount src
  · simp only [h, if_true, Dy.val_add, tagBound_val, roundError_val]
  · simp only [h, if_false, Dy.val_zero]

end Sys2Proof.Machine
end

section
/-! PROOFS. The statement about the rows of the float instructions and of scaling, conversion and reduction. -/

namespace Sys2Proof.Machine

/-- Settles O44: the exact rows by the form of each row's lanes, VCVT by what a converted lane delivers, and the bounded rows by
their lane errors as rational numbers. -/
theorem floatRowValues : Obligations.FloatRowValues := by
  refine ⟨fun s k c g d a b r y t hfmt hflt => ?_, fun s k c g d a r src dst hsrc hdst => ?_, fun s k c g d a b r y x t u hy hx hty hux => ?_⟩
  · have hb := bounded_of_flt hflt
    dsimp only
    refine ⟨?_, ?_, ?_, ?_, ?_, ?_, ?_, ?_, ?_, ?_, ?_, ?_, ?_, ?_, ?_, ?_, ?_, ?_, ?_⟩
    · exact laneRows_byRow r d 1 fun n => arithRow_exact hfmt hb .add c _ _ _
    · exact laneRows_byRow r d 1 fun n => arithRow_exact hfmt hb .sub c _ _ _
    · exact laneRows_byRow r d 1 fun n => arithRow_exact hfmt hb .mul c _ _ _
    · exact laneRows_byRow r d 1 fun n => arithRow_exact hfmt hb .fma c _ _ _
    · exact laneRows_byRow r d 1 fun n => arithRow_exact hfmt hb .min c _ _ _
    · exact laneRows_byRow r d 1 fun n => arithRow_exact hfmt hb .max c _ _ _
    · exact laneRows_byRow r d 1 fun n => scaleRow_exact hfmt hb c _ _
    · exact laneRows_byRow r d 4 fun n => fcall_eq hfmt c _ exp2
    · exact laneRows_byRow r d 4 fun n => fcall_eq hfmt c _ log2
    · exact laneRows_byRow r d 3 fun n => fcall_eq hfmt c _ rcp
    · exact laneRows_byRow r d 3 fun n => fcall_eq hfmt c _ rsqrt
    · exact laneRows_byRow r d 1 fun n => convertRow_same hfmt hb c _
    · exact laneRows_byRow r d 1 fun n => compareRow_float hfmt true _ _ _
    · exact laneRows_byRow r d 1 fun n => compareRow_float hfmt false _ _ _
    · exact laneRows_byRow r d _ fun n => searchRow_float hfmt _ (rowsOf_lanes s k c a r y) _
    · exact ⟨scanSum t (c.mode.getLsbD 3) (sequenceLane s k c a r y), scanTop t (c.mode.getLsbD 3) (sequenceLane s k c a r y),
        foldThrough_zero .., foldThrough_succ _ _ _, foldThrough_zero .., foldThrough_succ _ _ _, rowRes_vscan_lanes hfmt s k c g d a .sum r,
        rowRes_vscan_lanes hfmt s k c g d a .xsum r, rowRes_vscan_lanes hfmt s k c g d a .max r⟩
    · exact fun x => rowRes_vred_sum hfmt s k c g x a r
    · intro x
      obtain ⟨hlt, hmax, hfirst⟩ := argMax_spec (sequence_pos r y) fun q =>
        rank32 (widen t (c.mode.getLsbD 3) (sequenceLane s k c a r y q)).bits
      exact ⟨_, hlt, rowRes_vred_argmax hfmt s k c g x a r (rowsOf_lanes s k c a r y), hmax, hfirst⟩
    · refine fun row => ⟨_, rowRes_tcolred s k c g d a .sum row y, fun j hj => ?_⟩
      rw [lane_exactRow _ hj, colRed_sum_bits hfmt, List.map_map]
      rfl
  · refine ⟨fun n => (convertRow src dst c (rowAt s k c a n)).row, byRow_units r d 1 _, fun n j _ hj => ?_⟩
    dsimp only
    rw [convertRow_exact hsrc, lane_exactRow _ hj]
    split
    · exact convertLane_bits src dst _ _ _
    · exact Nat.zero_mod _
  · dsimp only
    refine ⟨?_, ?_, ?_, ?_, ?_, ?_, ?_, ?_⟩
    · exact taggedRows_arith hy hty r d 1 .add c (rowAt s k c a) (rowAt s k c b) (fun _ => {}) fun n => Bool.or_false _
    · exact taggedRows_arith hy hty r d 1 .sub c (rowAt s k c a) (rowAt s k c b) (fun _ => {}) fun n => Bool.or_false _
    · exact taggedRows_arith hy hty r d 1 .mul c (rowAt s k c a) (rowAt s k c b) (fun _ => {}) fun n => Bool.or_false _
    · exact taggedRows_arith hy hty r d 1 .fma c (rowAt s k c a) (rowAt s k c b) (rowAt s k c d) fun n => rfl
    · exact taggedRows_arith hy hty r d 1 .min c (rowAt s k c a) (rowAt s k c b) (fun _ => {}) fun n => Bool.or_false _
    · exact taggedRows_arith hy hty r d 1 .max c (rowAt s k c a) (rowAt s k c b) (fun _ => {}) fun n => Bool.or_false _
    · exact taggedRows_scale hy hty r d 1 c (rowAt s k c a) (rowAt s k c b)
    · exact taggedRows_convert hx hy hux hty r d 1 c (rowAt s k c a)

end Sys2Proof.Machine
end

section
/-! PROOFS. Words written out from the encoding tables (R58, R66, R69, R75), each evaluated by the decoder. -/

namespace Sys2Proof

/-- Settles O23: the decoder evaluates each word. -/
theorem knownWords : Obligations.KnownWords := by
  unfold Obligations.KnownWords
  refine ⟨rfl, rfl, rfl, rfl, rfl, rfl, rfl, rfl, rfl, rfl, rfl, rfl, rfl, rfl⟩

end Sys2Proof
end

section
/-! PROOFS. A step that runs the decoded bundle (R58, R60, R203): what each layer between the agenda and the bundle does
when nothing holds it, then the three clauses. -/

namespace Sys2Proof.Machine

/-! ## Parts of a step -/

theorem andThen_next (s : State) (f : State → Out) : andThen (.next s) f = f s := rfl

/-- A part after which nothing follows. -/
theorem andThen_id (o : Out) : andThen o (fun s => .next s) = o := by
  cases o <;> rfl

/-! ## From the agenda to the bundle -/

theorem tellTeam_nil (x : Bundle) (o : Option TeamOut) (s : State) : tellTeam x o [] s = s := rfl

/-- Nothing due and no exchange of dials: the agenda's turn of a core with a free slot is that core's issue slot. -/
theorem step_turn {s : State} {k : Nat} {rest : List Move} (due : firstEvent (dueEvents s) s = none)
    (dials : dialMove s = none) (turn : s.sched = .turn k :: rest) (free : slotFree { s with sched := rest } (coreOf k) = true) :
    step s = andThen (issueCore exec (coreOf k) { s with sched := rest }) fun t => .next (afterMove t) := by
  simp only [step, nextMove, due, dials, turn, runMove, free, if_true]

/-- A core whose context has no closure to run issues that context's next bundle. -/
theorem issueCore_bundle {ex : Instr → State → Out} {s : State} {core k : Nat} (served : pick s core = some k)
    (idle : ((select k s).ctx k).running = none) (noClosure : readyClosure (select k s) k = none)
    (alone : ((select k s).ctx k).backlog = []) (due : bundleDue (select k s) k = true) :
    issueCore ex core s = issueNext ex k (useSlot core (select k s)) := by
  have dueHere : bundleDue (useSlot core (select k s)) k = true := due
  have aloneHere : ((useSlot core (select k s)).ctx k).backlog = [] := alone
  simp only [issueCore, served, idle, noClosure, alone, due, issueTurn, aloneHere, dueHere, Option.filter_none,
    Option.isSome_none, Bool.false_and, List.isEmpty_nil, Bool.not_true, Bool.false_or, if_true, Bool.false_eq_true, if_false,
    andThen_id]

/-- A context outside the firmware with nothing to redo fetches its words and issues them. -/
theorem issueNext_words {ex : Instr → State → Out} {s f : State} {k : Nat} {w0 w1 : Half} (program : inFirmware s k = false)
    (fresh : (s.ctx k).redo = none) (fetched : fetch k { s with cur := k } = (.words w0 w1, f)) :
    issueNext ex k s = issueWords ex w0 w1 k f := by
  simp only [issueNext, program, fresh, fetched, Option.filter_none, ite_self, Bool.false_eq_true, if_false]

/-- A bundle that issues on its own is the run of its slots. -/
theorem runBundle_issue {ex : Instr → State → Out} {x : Bundle} {s : State} {k : Nat} {da db : Bool}
    (forming : x.a = .gang → gangFormed (s.ctx k) = false) (issues : judge x.a x.b { s with cur := k } k = .issue da db)
    (alone : teamOf { s with cur := k } k = []) : runBundle ex x k s = issueBundle ex x da db k { s with cur := k } := by
  have notFormed : ¬ (x.a = .gang ∧ gangFormed (s.ctx k) = true) := fun h => by simp [forming h.1] at h
  have sameCtx : ({ s with cur := k } : State).ctx k = s.ctx k := rfl
  simp only [runBundle, sameCtx, notFormed, issues, alone, if_false, List.any_nil, Bool.false_eq_true, tellTeam_nil, ite_self,
    andThen_id]

/-! ## The bundle's slots -/

/-- Both slots of an issuing bundle outside a tray: each on the registers as they stood before it (R60). -/
theorem runSlots_issue (ex : Instr → State → Out) (a b : Instr) (s : State) :
    runSlots ex a b false false s =
      (let runB (t : State) : Out := if guardOpen b (s.ctx s.cur) then ex b t else .next t
       if slotBFirst a b then andThen (runB (openBundle s.cur s)) (ex a) else andThen (ex a (openBundle s.cur s)) runB) := by
  by_cases open? : guardOpen b (s.ctx s.cur) = true <;>
    simp only [runSlots, runOne, open?, Bool.false_eq_true, if_true, if_false] <;> rfl

/-- Settles O26: the agenda's turn passes through every layer down to the bundle, and the slots of a bundle are `exec`. -/
theorem stepRunsDecodedBundle : Obligations.StepRunsDecodedBundle := by
  unfold Obligations.StepRunsDecodedBundle
  refine ⟨?turn, ?slots, ?gang⟩
  case turn =>
    intro s rest k w0 w1 f x due dials turn s0 v u free served idle noClosure alone dueBundle program fresh
      fetched decoded forming issues single
    have words : issueWords exec w0 w1 k f = runBundle exec x k f := by simp only [issueWords, decoded]
    rw [step_turn due dials turn free, issueCore_bundle served idle noClosure alone dueBundle,
      issueNext_words program fresh fetched, words, runBundle_issue forming issues single]
  case slots =>
    intro s x k notGang
    simp only [issueBundle, notGang, if_false, runSlots_issue]
    rfl
  case gang =>
    intro s x k isGang
    simp only [issueBundle, isGang, if_true]
    rfl

end Sys2Proof.Machine
end

section
/-! PROOFS. The results of the integer forms and of the shifts (R81, R82, R84, R89, R93). A form with W is read bit by bit:
bit i of its result is bit `formBit w i` of the operation. -/

namespace Sys2Proof.Machine

/-! ## Sums, differences and immediates (R81, R82, R89) -/

/-- The low 32 bits of a sum are the sum of the low 32 bits (R81). -/
theorem narrow_add (w : Bool) (x y : Word) : narrow w (x + y) = onForm w (· + ·) x y := by
  cases w with
  | false => simp only [narrow, onForm, Bool.false_eq_true, if_false]
  | true => simp only [narrow, onForm, if_true, sext32, BitVec.truncate, BitVec.setWidth_add x y (show 32 ≤ 64 by decide)]

/-- The low 32 bits of a difference are the difference of the low 32 bits (R81). -/
theorem narrow_sub (w : Bool) (x y : Word) : narrow w (x - y) = onForm w (· - ·) x y := by
  cases w with
  | false => simp only [narrow, onForm, Bool.false_eq_true, if_false]
  | true =>
    have low : (x - y).setWidth 32 = x.setWidth 32 - y.setWidth 32 := by
      apply BitVec.eq_of_toNat_eq
      simp only [BitVec.toNat_setWidth, BitVec.toNat_sub]
      omega
    simp only [narrow, onForm, if_true, sext32, BitVec.truncate, low]

/-- LEA's sum is that of the natural numbers, modulo 2^64 (R89). -/
theorem add_shiftLeft_eq_ofNat (x y : Word) (n : Nat) : x + y <<< n = BitVec.ofNat 64 (x.toNat + y.toNat * 2 ^ n) := by
  rw [BitVec.ofNat_add, ← Nat.shiftLeft_eq, BitVec.ofNat_toNat, BitVec.setWidth_eq]
  rfl

/-! ## Bits of a result with W (R81) -/

theorem formBit_lt {w : Bool} {i : Nat} (h : i < 64) : formBit w i < formBits w := by
  cases w <;> simp only [formBit, formBits, Bool.false_eq_true, if_false, if_true] <;> omega

theorem formBits_le (w : Bool) : formBits w ≤ 64 := by
  cases w <;> decide

/-- Sign extension from 32 bits repeats bit 31. -/
theorem getLsbD_signExtend_of_32 (v : BitVec 32) {i : Nat} (h : i < 64) :
    (v.signExtend 64).getLsbD i = v.getLsbD (min i 31) := by
  rw [BitVec.getLsbD_signExtend, BitVec.msb_eq_getLsbD_last]
  by_cases low : i < 32
  · simp [low, h, show min i 31 = i by omega]
  · simp [low, h, show min i 31 = 31 by omega]

theorem getLsbD_sext32 (v : Word) {i : Nat} (h : i < 64) : (sext32 v).getLsbD i = v.getLsbD (min i 31) := by
  rw [sext32, getLsbD_signExtend_of_32 _ h, BitVec.truncate, BitVec.getLsbD_setWidth]
  simp [show min i 31 < 32 by omega]

theorem getLsbD_narrow (w : Bool) (v : Word) {i : Nat} (h : i < 64) : (narrow w v).getLsbD i = v.getLsbD (formBit w i) := by
  cases w with
  | false => rfl
  | true => exact getLsbD_sext32 v h

/-- Bits of a number whose low 32 bits are sign-extended. -/
theorem getLsbD_sext_32 (n : Nat) {i : Nat} (h : i < 64) : (sext 32 n).getLsbD i = n.testBit (min i 31) := by
  have low : sext 32 n = (BitVec.ofNat 32 n).signExtend 64 := by
    simp only [sext, wordOf, signed, BitVec.signExtend, BitVec.toInt, BitVec.toNat_ofNat]
  rw [low, getLsbD_signExtend_of_32 _ h, BitVec.getLsbD_ofNat]
  simp [show min i 31 < 32 by omega]

/-! ## Shifts, bit by bit (R84) -/

/-- The amount in a register is sb[5:0], or sb[4:0] with .w. -/
theorem amountOf_eq (w : Bool) (v : Word) : amountOf w v = v.toNat % formBits w := by
  cases w <;> simp only [amountOf, formBits, wf, field, Bool.false_eq_true, if_false, if_true, Nat.pow_zero, Nat.div_one] <;> rfl

theorem getLsbD_shiftL (w : Bool) (x : Word) (n : Nat) {i : Nat} (h : i < 64) :
    (shiftL w x n).getLsbD i = (decide (n ≤ formBit w i) && x.getLsbD (formBit w i - n)) := by
  have inWord : formBit w i < 64 := Nat.lt_of_lt_of_le (formBit_lt h) (formBits_le w)
  rw [shiftL, getLsbD_narrow w _ h, BitVec.getLsbD_shiftLeft]
  by_cases moved : n ≤ formBit w i
  · simp [moved, inWord]
  · simp [moved, show formBit w i < n by omega]

theorem getLsbD_shiftR (w : Bool) (x : Word) (n : Nat) {i : Nat} (h : i < 64) :
    (shiftR w x n).getLsbD i = (decide (formBit w i + n < formBits w) && x.getLsbD (formBit w i + n)) := by
  cases w with
  | false =>
    rw [shiftR, if_neg (by decide), BitVec.getLsbD_ushiftRight, Nat.add_comm]
    by_cases inWord : i + n < 64
    · simp only [formBit, formBits, Bool.false_eq_true, if_false, inWord, decide_true, Bool.true_and]
    · simp only [formBit, formBits, Bool.false_eq_true, if_false, inWord, decide_false, Bool.false_and]
      exact BitVec.getLsbD_of_ge x (i + n) (by omega)
  | true =>
    rw [shiftR, if_pos rfl, getLsbD_sext32 _ h, BitVec.getLsbD_ushiftRight, zext, BitVec.getLsbD_ofNat, Nat.testBit_mod_two_pow,
      Nat.add_comm]
    have inWord : (min i 31 + n < 32) → min i 31 + n < 64 := by omega
    by_cases inForm : min i 31 + n < 32
    · simp only [formBit, formBits, if_true, inForm, inWord, decide_true, Bool.true_and, BitVec.getLsbD]
    · simp only [formBit, formBits, if_true, inForm, decide_false, Bool.false_and, Bool.and_false]

theorem getLsbD_shiftA (w : Bool) (x : Word) (n : Nat) {i : Nat} (h : i < 64) :
    (shiftA w x n).getLsbD i = x.getLsbD (min (formBit w i + n) (formBits w - 1)) := by
  have inWord : ¬ 64 ≤ formBit w i := Nat.not_le_of_lt (Nat.lt_of_lt_of_le (formBit_lt h) (formBits_le w))
  rw [shiftA, getLsbD_narrow w _ h, BitVec.getLsbD_sshiftRight, BitVec.msb_eq_getLsbD_last]
  simp only [inWord, decide_false, Bool.not_false, Bool.true_and]
  by_cases moved : n + formBit w i < 64
  · have sameBit : formBit w (n + formBit w i) = min (formBit w i + n) (formBits w - 1) := by
      cases w <;> simp only [formBit, formBits, Bool.false_eq_true, if_false, if_true] at moved ⊢ <;> omega
    rw [if_pos moved, getLsbD_narrow w x moved, sameBit]
  · have signBit : formBit w 63 = min (formBit w i + n) (formBits w - 1) := by
      cases w <;> simp only [formBit, formBits, Bool.false_eq_true, if_false, if_true] at moved ⊢ <;> omega
    rw [if_neg moved, getLsbD_narrow w x (by decide), signBit]

theorem getLsbD_rotate (w : Bool) (x : Word) {n : Nat} (amount : n < formBits w) {i : Nat} (h : i < 64) :
    (rotate w x n).getLsbD i = x.getLsbD ((formBit w i + n) % formBits w) := by
  cases w with
  | false =>
    have small : n % 64 = n := Nat.mod_eq_of_lt amount
    rw [rotate, if_neg (by decide), BitVec.getLsbD_rotateRight, small]
    by_cases inWord : i < 64 - n
    · have sum : n + i = (i + n) % 64 := by omega
      simp only [formBit, formBits, Bool.false_eq_true, if_false, inWord, decide_true, cond_true, sum]
    · have back : i - (64 - n) = (i + n) % 64 := by omega
      simp only [formBit, formBits, Bool.false_eq_true, if_false, inWord, decide_false, cond_false, h, decide_true,
        Bool.true_and, back]
  | true =>
    have small : n < 32 := amount
    have upper : x.toNat % 2 ^ 32 / 2 ^ n < 2 ^ (32 - n) := by
      rw [Nat.div_lt_iff_lt_mul (Nat.two_pow_pos n), ← Nat.pow_add, Nat.sub_add_cancel (Nat.le_of_lt small)]
      exact Nat.mod_lt _ (Nat.two_pow_pos 32)
    rw [rotate, if_pos rfl, getLsbD_sext_32 _ h, Nat.add_comm, Nat.mul_comm, Nat.testBit_two_pow_mul_add _ upper]
    by_cases inForm : min i 31 < 32 - n
    · simp only [inForm, if_true, Nat.testBit_div_two_pow, Nat.testBit_mod_two_pow, formBit, formBits, BitVec.getLsbD,
        Nat.mod_eq_of_lt (show min i 31 + n < 32 by omega), show min i 31 + n < 32 by omega, decide_true, Bool.true_and]
    · simp only [inForm, if_false, Nat.testBit_mod_two_pow, formBit, formBits, if_true, BitVec.getLsbD,
        show (min i 31 + n) % 32 = min i 31 - (32 - n) by omega, show min i 31 - (32 - n) < 32 by omega, decide_true,
        Bool.true_and]

/-- Settles O1: each instruction writes the value of its function in Alu, and the shifts' values are read bit by bit. -/
theorem integerAndShiftResults : Obligations.IntegerAndShiftResults := by
  refine ⟨?arith, ?shifts⟩
  case arith =>
    intro s g d a b
    refine ⟨fun W h => next_runSlot h ?add, fun W h => next_runSlot h ?sub, fun imm h => next_runSlot h rfl,
      fun h => next_runSlot h rfl, fun h => next_runSlot h rfl, fun h => next_runSlot h rfl, fun h => next_runSlot h rfl,
      fun sh h => next_runSlot h ?lea, fun imm h => next_runSlot h rfl⟩
    case add => rw [narrow_add]
    case sub => rw [narrow_sub]
    case lea => rw [add_shiftLeft_eq_ofNat]
  case shifts =>
    intro s g d a b W m immediate x n bits left right arith turn
    have inRegister : n < formBits W := by
      cases W <;> exact Nat.mod_lt _ (by decide)
    have inImmediate : m.toNat < formBits W := by
      cases W with
      | false => exact m.isLt
      | true => exact immediate rfl
    refine ⟨fun h => ⟨_, next_runSlot h rfl, ?shl⟩, fun h => ⟨_, next_runSlot h rfl, ?shlImm⟩,
      fun h => ⟨_, next_runSlot h rfl, ?shr⟩, fun h => ⟨_, next_runSlot h rfl, ?shrImm⟩,
      fun h => ⟨_, next_runSlot h rfl, ?sra⟩, fun h => ⟨_, next_runSlot h rfl, ?sraImm⟩,
      fun h => ⟨_, next_runSlot h rfl, ?rot⟩, fun h => ⟨_, next_runSlot h rfl, ?rotImm⟩⟩
    case shlImm => exact fun i hi => getLsbD_shiftL W x m.toNat hi
    case shrImm => exact fun i hi => getLsbD_shiftR W x m.toNat hi
    case sraImm => exact fun i hi => getLsbD_shiftA W x m.toNat hi
    case rotImm => exact fun i hi => getLsbD_rotate W x inImmediate hi
    case shl => rw [amountOf_eq]; exact fun i hi => getLsbD_shiftL W x n hi
    case shr => rw [amountOf_eq]; exact fun i hi => getLsbD_shiftR W x n hi
    case sra => rw [amountOf_eq]; exact fun i hi => getLsbD_shiftA W x n hi
    case rot => rw [amountOf_eq]; exact fun i hi => getLsbD_rotate W x inRegister hi

end Sys2Proof.Machine
end

section
/-! PROOFS. Words as lists of fields: the bits of a word, the word of a list of fields, and what its bits read. -/

namespace Sys2Proof

/-! ## Bits of a word -/

theorem bits_lt (w hi lo : Nat) : bits w hi lo < 2 ^ (hi + 1 - lo) := Nat.mod_lt _ (Nat.two_pow_pos _)

/-- Bits of bits of a word. -/
theorem bits_bits {w a b hi lo : Nat} (order : lo ≤ hi) (h : hi + b ≤ a) :
    bits (bits w a b) hi lo = bits w (hi + b) (lo + b) := by
  have width : 2 ^ (a + 1 - b) = 2 ^ lo * 2 ^ (a + 1 - b - lo) := by rw [← Nat.pow_add]; congr 1; omega
  have inside : 2 ^ (hi + 1 - lo) ∣ 2 ^ (a + 1 - b - lo) := Nat.pow_dvd_pow 2 (by omega)
  have count : hi + b + 1 - (lo + b) = hi + 1 - lo := by omega
  rw [bits, bits, width, Nat.mod_mul_right_div_self, Nat.mod_mod_of_dvd _ inside, Nat.div_div_eq_div_mul, ← Nat.pow_add, bits,
    count, Nat.add_comm b lo]

/-- Two runs of bits side by side. -/
theorem bits_join {w hi lo b : Nat} (h : lo ≤ b) (h' : b ≤ hi) :
    bits w hi lo = bits w hi b * 2 ^ (b - lo) + w / 2 ^ lo % 2 ^ (b - lo) := by
  have width : 2 ^ (hi + 1 - lo) = 2 ^ (b - lo) * 2 ^ (hi + 1 - b) := by rw [← Nat.pow_add]; congr 1; omega
  have upper : w / 2 ^ lo / 2 ^ (b - lo) = w / 2 ^ b := by
    rw [Nat.div_div_eq_div_mul, ← Nat.pow_add, Nat.add_sub_cancel' h]
  rw [bits, width, Nat.mod_mul, upper, bits, Nat.mul_comm, Nat.add_comm]

/-! ## Words as fields -/

/-- Fields that fill k bits, each a width and a value that fits it. -/
def FieldsFit : Nat → List (Nat × Nat) → Prop
  | k, [] => k = 0
  | k, (n, v) :: l => 0 < n ∧ n ≤ k ∧ v < 2 ^ n ∧ FieldsFit (k - n) l

/-- The k-bit word of fields, the highest bits first. -/
def packFields : Nat → List (Nat × Nat) → Nat
  | _, [] => 0
  | k, (n, v) :: l => v * 2 ^ (k - n) + packFields (k - n) l

/-- The low k bits of w read as fields. -/
def Spells (w : Nat) : Nat → List (Nat × Nat) → Prop
  | k, [] => k = 0
  | k, (n, v) :: l => 0 < n ∧ n ≤ k ∧ bits w (k - 1) (k - n) = v ∧ Spells w (k - n) l

/-- Bits [hi:lo] of a k-bit word of fields, found in the fields that hold them. -/
def readFields : Nat → List (Nat × Nat) → Nat → Nat → Nat
  | _, [], _, _ => 0
  | k, (n, v) :: l, hi, lo =>
    if hi < k - n then readFields (k - n) l hi lo
    else if k - n < lo then bits v (hi - (k - n)) (lo - (k - n))
    else
      let top := if hi + 1 = k then v else bits v (hi - (k - n)) 0
      if k - n = lo then top else top * 2 ^ (k - n - lo) + readFields (k - n) l (k - n - 1) lo

theorem packFields_lt : ∀ {l : List (Nat × Nat)} {k : Nat}, FieldsFit k l → packFields k l < 2 ^ k
  | [], _, _ => Nat.two_pow_pos _
  | (n, v) :: l, k, ⟨_, inside, small, rest⟩ => by
    calc packFields k ((n, v) :: l) < (v + 1) * 2 ^ (k - n) := by
          have := packFields_lt rest
          rw [packFields, Nat.add_one_mul]
          omega
      _ ≤ 2 ^ n * 2 ^ (k - n) := Nat.mul_le_mul_right _ small
      _ = 2 ^ k := by rw [← Nat.pow_add, Nat.add_sub_cancel' inside]

/-- The highest field of a word and the rest. -/
theorem mod_two_pow_eq_field (w : Nat) {n k : Nat} (h : 0 < n) (inside : n ≤ k) :
    w % 2 ^ k = bits w (k - 1) (k - n) * 2 ^ (k - n) + w % 2 ^ (k - n) := by
  have width : 2 ^ k = 2 ^ (k - n) * 2 ^ n := by rw [← Nat.pow_add, Nat.sub_add_cancel inside]
  have top : k - 1 + 1 - (k - n) = n := by omega
  rw [width, Nat.mod_mul, bits, top, Nat.mul_comm, Nat.add_comm]

/-- A word that reads as fields is their word. -/
theorem Spells.packFields_eq {w : Nat} : ∀ {l : List (Nat × Nat)} {k : Nat}, Spells w k l → packFields k l = w % 2 ^ k
  | [], _, h => by rw [packFields, h, Nat.pow_zero, Nat.mod_one]
  | (n, v) :: l, k, ⟨pos, inside, value, rest⟩ => by
    rw [packFields, mod_two_pow_eq_field w pos inside, value, rest.packFields_eq]

/-- The word of fields that fit reads as them. -/
theorem spells_of_packFields_eq {w : Nat} : ∀ {l : List (Nat × Nat)} {k : Nat},
    FieldsFit k l → packFields k l = w % 2 ^ k → Spells w k l
  | [], _, fits, _ => fits
  | (n, v) :: l, k, ⟨pos, inside, small, rest⟩, word => by
    rw [packFields, mod_two_pow_eq_field w pos inside] at word
    have lower := packFields_lt rest
    have lower' : w % 2 ^ (k - n) < 2 ^ (k - n) := Nat.mod_lt _ (Nat.two_pow_pos _)
    have quotient (q r : Nat) (h : r < 2 ^ (k - n)) : (q * 2 ^ (k - n) + r) / 2 ^ (k - n) = q := by
      rw [Nat.mul_comm, Nat.mul_add_div (Nat.two_pow_pos _), Nat.div_eq_of_lt h, Nat.add_zero]
    have value : v = bits w (k - 1) (k - n) := by rw [← quotient v _ lower, word, quotient _ _ lower']
    rw [← value] at word
    exact ⟨pos, inside, value.symm, spells_of_packFields_eq rest (Nat.add_left_cancel word)⟩

/-- A word that reads as fields has their bits. -/
theorem Spells.bits_eq {w : Nat} : ∀ {l : List (Nat × Nat)} {k : Nat}, Spells w k l →
    ∀ {hi lo : Nat}, lo ≤ hi → hi < k → bits w hi lo = readFields k l hi lo
  | [], k, h, _, _, _, high => by
    have empty : k = 0 := h
    omega
  | (n, v) :: l, k, ⟨pos, inside, value, rest⟩, hi, lo, order, high => by
    have within {a b : Nat} (hb : b ≤ a) (ha : a + (k - n) ≤ k - 1) : bits v a b = bits w (a + (k - n)) (b + (k - n)) := by
      rw [← value, bits_bits hb ha]
    rw [readFields]
    split
    · exact rest.bits_eq order ‹_›
    · split
      · rw [within (by omega) (by omega)]
        congr 1 <;> omega
      · have top : (if hi + 1 = k then v else bits v (hi - (k - n)) 0) = bits w hi (k - n) := by
          split
          · rw [← value]
            congr 1
            omega
          · rw [within (by omega) (by omega)]
            congr 1 <;> omega
        dsimp only
        rw [top]
        split
        · rw [‹k - n = lo›]
        · have below : w / 2 ^ lo % 2 ^ (k - n - lo) = bits w (k - n - 1) lo := by
            rw [bits]
            congr 2
            omega
          rw [← rest.bits_eq (by omega) (by omega), bits_join (by omega) (by omega : k - n ≤ hi), below]

end Sys2Proof
end

section
/-! PROOFS. The fields of each instruction, from the encoding tables (R58, R66, R69), and the encoder. -/

namespace Sys2Proof

/-! ## The codes of an instruction's choices -/

/-- A choice in a field of n bits: its code fits, and is read back as the choice and as no other. -/
structure Coded {α : Type} (of : Nat → Option α) (code : α → Nat) (n : Nat) : Prop where
  lt : ∀ z, code z < 2 ^ n
  of_code : ∀ z, of (code z) = some z
  eq_code : ∀ {c z}, of c = some z → c = code z

theorem LdMode.coded : Coded LdMode.of LdMode.code 3 where
  lt z := by cases z <;> decide
  of_code z := by cases z <;> rfl
  eq_code h := by unfold LdMode.of at h; split at h <;> cases h <;> rfl

theorem Size.coded : Coded Size.of Size.code 2 where
  lt z := by cases z <;> decide
  of_code z := by cases z <;> rfl
  eq_code h := by unfold Size.of at h; split at h <;> cases h <;> rfl

theorem Scope.coded : Coded Scope.of Scope.code 4 where
  lt z := by cases z <;> decide
  of_code z := by cases z <;> rfl
  eq_code h := by unfold Scope.of at h; split at h <;> cases h <;> rfl

theorem Kind.coded : Coded Kind.of Kind.code 3 where
  lt z := by cases z <;> decide
  of_code z := by cases z <;> rfl
  eq_code h := by unfold Kind.of at h; split at h <;> cases h <;> rfl

theorem FenceKind.coded : Coded FenceKind.of FenceKind.code 2 where
  lt z := by cases z <;> decide
  of_code z := by cases z <;> rfl
  eq_code h := by unfold FenceKind.of at h; split at h <;> cases h <;> rfl

theorem Domain.coded : Coded Domain.of Domain.code 3 where
  lt z := by cases z <;> decide
  of_code z := by cases z <;> rfl
  eq_code h := by unfold Domain.of at h; split at h <;> cases h <;> rfl

theorem RedOp.coded : Coded RedOp.of RedOp.code 4 where
  lt z := by cases z <;> decide
  of_code z := by cases z <;> rfl
  eq_code h := by unfold RedOp.of at h; split at h <;> cases h <;> rfl

theorem EngineSel.coded : Coded EngineSel.of EngineSel.code 2 where
  lt z := by cases z <;> decide
  of_code z := by cases z <;> rfl
  eq_code h := by unfold EngineSel.of at h; split at h <;> cases h <;> rfl

theorem NredOp.coded : Coded NredOp.of NredOp.code 4 where
  lt z := by cases z <;> decide
  of_code z := by cases z <;> rfl
  eq_code h := by unfold NredOp.of at h; split at h <;> cases h <;> rfl

theorem CmpRel.coded : Coded CmpRel.of CmpRel.code 3 where
  lt z := by cases z <;> decide
  of_code z := by cases z <;> rfl
  eq_code h := by unfold CmpRel.of at h; split at h <;> cases h <;> rfl

theorem FcmpRel.coded : Coded FcmpRel.of FcmpRel.code 2 where
  lt z := by cases z <;> decide
  of_code z := by cases z <;> rfl
  eq_code h := by unfold FcmpRel.of at h; split at h <;> cases h <;> rfl

theorem ExtKind.coded : Coded ExtKind.of ExtKind.code 3 where
  lt z := by cases z <;> decide
  of_code z := by cases z <;> rfl
  eq_code h := by unfold ExtKind.of at h; split at h <;> cases h <;> rfl

theorem FcvtOp.coded : Coded FcvtOp.of FcvtOp.code 5 where
  lt z := by cases z <;> decide
  of_code z := by cases z <;> rfl
  eq_code h := by unfold FcvtOp.of at h; split at h <;> cases h <;> rfl

theorem FRound.coded : Coded FRound.of FRound.code 3 where
  lt z := by cases z <;> decide
  of_code z := by cases z <;> rfl
  eq_code h := by unfold FRound.of at h; split at h <;> cases h <;> rfl

theorem LogicOp.coded : Coded LogicOp.of LogicOp.code 4 where
  lt z := by cases z <;> decide
  of_code z := by cases z <;> rfl
  eq_code h := by unfold LogicOp.of at h; split at h <;> cases h <;> rfl

theorem VredOp.coded : Coded VredOp.of VredOp.code 2 where
  lt z := by cases z <;> decide
  of_code z := by cases z <;> rfl
  eq_code h := by unfold VredOp.of at h; split at h <;> cases h <;> rfl

theorem ScanOp.coded : Coded ScanOp.of ScanOp.code 2 where
  lt z := by cases z <;> decide
  of_code z := by cases z <;> rfl
  eq_code h := by unfold ScanOp.of at h; split at h <;> cases h <;> rfl

theorem ColOp.coded : Coded ColOp.of ColOp.code 2 where
  lt z := by cases z <;> decide
  of_code z := by cases z <;> rfl
  eq_code h := by unfold ColOp.of at h; split at h <;> cases h <;> rfl

theorem GroupSize.coded : Coded GroupSize.of GroupSize.code 2 where
  lt z := by cases z <;> decide
  of_code z := by cases z <;> rfl
  eq_code h := by unfold GroupSize.of at h; split at h <;> cases h <;> rfl

theorem TopkType.coded : Coded TopkType.of TopkType.code 2 where
  lt z := by cases z <;> decide
  of_code z := by cases z <;> rfl
  eq_code h := by unfold TopkType.of at h; split at h <;> cases h <;> rfl

theorem LaneType.coded : Coded LaneType.of LaneType.code 4 where
  lt z := by cases z <;> decide
  of_code z := by cases z <;> rfl
  eq_code h := by unfold LaneType.of at h; split at h <;> cases h <;> rfl

/-! ## The fields of each instruction -/

/-- The source register of a port move, or zero (R219). -/
def PortVal.source : PortVal → Nat
  | .reg a => a.toNat
  | .imm _ => 0

/-- K of a port move (R219). -/
def PortVal.kind : PortVal → Nat
  | .reg _ => 0
  | .imm _ => 1

/-- The immediate bits of a port move, or zero (R219). -/
def PortVal.low : PortVal → Nat
  | .reg _ => 0
  | .imm x => x.low

/-- The fields of a slot A word below the stall count, from the encoding tables: the major opcode first. -/
def fieldsA : Instr → List (Nat × Nat)
  | .nop => [(6, 0x00), (22, 0)]
  | .br off => [(6, 0x01), (22, off.low)]
  | .bc c sense off => [(6, 0x02), (3, c.toNat), (1, bnat sense), (18, off.low)]
  | .bpend a off => [(6, 0x03), (5, a.toNat), (1, 1), (16, off.low)]
  | .bnpend a off => [(6, 0x03), (5, a.toNat), (1, 0), (16, off.low)]
  | .call off => [(6, 0x04), (22, off.low)]
  | .jr d a => [(6, 0x05), (5, d.toNat), (5, a.toNat), (12, 0)]
  | .ret => [(6, 0x05), (22, 1)]
  | .loop level stop a => [(6, 0x06), (2, level.toNat), (1, 0), (12, stop.toNat), (2, 0), (5, a.toNat)]
  | .loopi level stop cnt => [(6, 0x06), (2, level.toNat), (1, 1), (12, stop.toNat), (7, cnt.low)]
  | .lbrk => [(6, 0x07), (22, 0)]
  | .ld d a m off => [(6, 0x08), (5, d.toNat), (5, a.toNat), (3, m.code), (9, off.low)]
  | .ldAcq d a z u sc _ => [(6, 0x08), (5, d.toNat), (5, a.toNat), (3, 7), (2, z.code), (1, bnat u), (4, sc.code), (2, 0)]
  | .st d a z off => [(6, 0x09), (5, d.toNat), (5, a.toNat), (2, z.code), (1, 0), (9, off.low)]
  | .stRel d a z sc _ => [(6, 0x09), (5, d.toNat), (5, a.toNat), (2, z.code), (1, 1), (4, sc.code), (5, 0)]
  | .ldp d a off => [(6, 0x0A), (5, d.toNat), (5, a.toNat), (2, 0), (10, off.low)]
  | .ldpAcq d a sc _ => [(6, 0x0A), (5, d.toNat), (5, a.toNat), (2, 1), (4, sc.code), (6, 0)]
  | .stp d a off => [(6, 0x0A), (5, d.toNat), (5, a.toNat), (2, 2), (10, off.low)]
  | .stpRel d a sc _ => [(6, 0x0A), (5, d.toNat), (5, a.toNat), (2, 3), (4, sc.code), (6, 0)]
  | .lds d a z k off => [(6, 0x0B), (5, d.toNat), (5, a.toNat), (1, 0), (2, z.code), (5, k.toNat), (4, off.low)]
  | .sts d a z k off => [(6, 0x0B), (5, d.toNat), (5, a.toNat), (1, 1), (2, z.code), (5, k.toNat), (4, off.low)]
  | .xch d a w off => [(6, 0x0C), (5, d.toNat), (5, a.toNat), (2, 0), (1, bnat w), (9, off.low)]
  | .xchS d a w k off => [(6, 0x0C), (5, d.toNat), (5, a.toNat), (2, 1), (1, bnat w), (5, k.toNat), (4, off.low)]
  | .cas d a w off => [(6, 0x0C), (5, d.toNat), (5, a.toNat), (2, 2), (1, bnat w), (9, off.low)]
  | .aadd d a w sc k _ => [(6, 0x0D), (5, d.toNat), (5, a.toNat), (4, 0), (1, bnat w), (4, sc.code), (3, k.code)]
  | .aand d a w sc k _ => [(6, 0x0D), (5, d.toNat), (5, a.toNat), (4, 1), (1, bnat w), (4, sc.code), (3, k.code)]
  | .aor d a w sc k _ => [(6, 0x0D), (5, d.toNat), (5, a.toNat), (4, 2), (1, bnat w), (4, sc.code), (3, k.code)]
  | .axor d a w sc k _ => [(6, 0x0D), (5, d.toNat), (5, a.toNat), (4, 3), (1, bnat w), (4, sc.code), (3, k.code)]
  | .amaxs d a w sc k _ => [(6, 0x0D), (5, d.toNat), (5, a.toNat), (4, 4), (1, bnat w), (4, sc.code), (3, k.code)]
  | .amins d a w sc k _ => [(6, 0x0D), (5, d.toNat), (5, a.toNat), (4, 5), (1, bnat w), (4, sc.code), (3, k.code)]
  | .amaxu d a w sc k _ => [(6, 0x0D), (5, d.toNat), (5, a.toNat), (4, 6), (1, bnat w), (4, sc.code), (3, k.code)]
  | .aminu d a w sc k _ => [(6, 0x0D), (5, d.toNat), (5, a.toNat), (4, 7), (1, bnat w), (4, sc.code), (3, k.code)]
  | .afadd d a sc k _ => [(6, 0x0D), (5, d.toNat), (5, a.toNat), (5, 0x11), (4, sc.code), (3, k.code)]
  | .afmax d a sc k _ => [(6, 0x0D), (5, d.toNat), (5, a.toNat), (5, 0x13), (4, sc.code), (3, k.code)]
  | .afmin d a sc k _ => [(6, 0x0D), (5, d.toNat), (5, a.toNat), (5, 0x15), (4, sc.code), (3, k.code)]
  | .red d a op w sc k _ => [(6, 0x0E), (5, d.toNat), (5, a.toNat), (4, op.code), (1, bnat w), (4, sc.code), (3, k.code)]
  | .faddt d a sc _ => [(6, 0x0F), (5, d.toNat), (5, a.toNat), (1, 0), (4, sc.code), (7, 0)]
  | .waitw d a _ => [(6, 0x0F), (5, d.toNat), (5, a.toNat), (12, 0x800)]
  | .scld d a w off => [(6, 0x10), (5, d.toNat), (5, a.toNat), (2, 0), (1, bnat w), (9, off.low)]
  | .scst d a w off => [(6, 0x10), (5, d.toNat), (5, a.toNat), (2, 1), (1, bnat w), (9, off.low)]
  | .scx d a w off => [(6, 0x10), (5, d.toNat), (5, a.toNat), (2, 2), (1, bnat w), (9, off.low)]
  | .fence k sc => [(6, 0x11), (16, 0), (2, k.code), (4, sc.code)]
  | .tld t a r off => [(6, 0x12), (1, 0), (4, t.toNat), (5, a.toNat), (1, bnat r.w), (4, r.row.toNat), (1, 0), (6, off.low)]
  | .tst t a r off => [(6, 0x13), (1, 0), (4, t.toNat), (5, a.toNat), (1, bnat r.w), (4, r.row.toNat), (1, 0), (6, off.low)]
  | .tstB t a r off => [(6, 0x13), (1, 0), (4, t.toNat), (5, a.toNat), (1, bnat r.w), (4, r.row.toNat), (1, 1), (6, off.low)]
  | .tldx t a b => [(6, 0x14), (1, 0), (4, t.toNat), (5, a.toNat), (5, b.toNat), (7, 0)]
  | .bguiseClear d a bank => [(6, 0x15), (5, d.toNat), (5, a.toNat), (8, 0), (4, bank.toNat)]
  | .bguiseKeep d a bank => [(6, 0x15), (5, d.toNat), (5, a.toNat), (8, 1), (4, bank.toNat)]
  | .bguiseConvert d a bank => [(6, 0x15), (5, d.toNat), (5, a.toNat), (8, 2), (4, bank.toNat)]
  | .bdesc d bank => [(6, 0x16), (5, d.toNat), (13, 0), (4, bank.toNat)]
  | .arcade d a b => [(6, 0x16), (5, d.toNat), (5, a.toNat), (5, b.toNat), (7, 0x40)]
  | .arcadeDis d a => [(6, 0x16), (5, d.toNat), (5, a.toNat), (12, 0x50)]
  | .barArrive d b dom gather swap => [(6, 0x17), (5, d.toNat), (5, 0), (5, b.toNat), (3, dom.code), (1, bnat gather),
      (1, bnat swap), (2, 0)]
  | .barWait a dom => [(6, 0x17), (5, 0), (5, a.toNat), (5, 0), (3, dom.code), (4, 1)]
  | .barSync d b dom gather swap => [(6, 0x17), (5, d.toNat), (5, 0), (5, b.toNat), (3, dom.code), (1, bnat gather),
      (1, bnat swap), (2, 2)]
  | .barDepart dom => [(6, 0x17), (15, 0), (3, dom.code), (4, 3)]
  | .gang => [(6, 0x18), (22, 0)]
  | .fork d a q mask => [(6, 0x19), (5, d.toNat), (5, a.toNat), (6, 0), (3, q.toNat), (3, mask.toNat)]
  | .forkTry d a q mask => [(6, 0x19), (5, d.toNat), (5, a.toNat), (6, 1), (3, q.toNat), (3, mask.toNat)]
  | .rendez d => [(6, 0x1A), (5, d.toNat), (17, 0)]
  | .chain d a b e q => [(6, 0x1B), (5, d.toNat), (5, a.toNat), (5, b.toNat), (1, 0), (2, e.code), (3, q.toNat), (1, 0)]
  | .chainTry d a b e q => [(6, 0x1B), (5, d.toNat), (5, a.toNat), (5, b.toNat), (1, 1), (2, e.code), (3, q.toNat), (1, 0)]
  | .pmovPsel v => [(6, 0x1C), (5, 0), (5, v.source), (1, 0), (1, v.kind), (4, 0), (6, v.low)]
  | .pmovXin t row => [(6, 0x1C), (1, 0), (4, t.toNat), (13, 0x84), (4, row.toNat)]
  | .pmovGain v => [(6, 0x1C), (5, 0), (5, v.source), (1, 0), (1, v.kind), (4, 2), (6, v.low)]
  | .pmovXscl v => [(6, 0x1C), (5, 0), (5, v.source), (1, 0), (1, v.kind), (4, 3), (6, v.low)]
  | .pmovWscl v => [(6, 0x1C), (5, 0), (5, v.source), (1, 0), (1, v.kind), (4, 4), (6, v.low)]
  | .pmovYout v => [(6, 0x1C), (5, 0), (5, v.source), (1, 0), (1, v.kind), (4, 5), (6, v.low)]
  | .pmovExpose => [(6, 0x1C), (22, 0x580)]
  | .pmovWrow t a row => [(6, 0x1C), (1, 0), (4, t.toNat), (5, a.toNat), (8, 0x9C), (4, row.toNat)]
  | .pmovWgo => [(6, 0x1C), (22, 0x600)]
  | .pmovRefix => [(6, 0x1C), (22, 0x640)]
  | .pmovStat d => [(6, 0x1C), (5, d.toNat), (17, 0xE80)]
  | .pmovCalwWrite d a => [(6, 0x1C), (5, d.toNat), (5, a.toNat), (12, 0x2C0)]
  | .pmovCalwRead d a => [(6, 0x1C), (5, d.toNat), (5, a.toNat), (12, 0xEC0)]
  | .trayq d => [(6, 0x1D), (5, d.toNat), (17, 0)]
  | .trayqDep d a => [(6, 0x1D), (5, d.toNat), (5, a.toNat), (12, 1)]
  | .trayqStop d => [(6, 0x1D), (5, d.toNat), (17, 2)]
  | .trayqLand a => [(6, 0x1D), (5, 0), (5, a.toNat), (12, 3)]
  | .traydrain => [(6, 0x1D), (22, 4)]
  | .detach => [(6, 0x1E), (22, 0)]
  | .attach dom => [(6, 0x1E), (15, 0), (3, dom.code), (4, 1)]
  | .follow a dom => [(6, 0x1E), (5, 0), (5, a.toNat), (5, 0), (3, dom.code), (4, 2)]
  | .rdtime d => [(6, 0x1F), (5, d.toNat), (17, 0)]
  | .waitt a => [(6, 0x1F), (5, 0), (5, a.toNat), (12, 1)]
  | .wsplit d => [(6, 0x20), (5, d.toNat), (17, 0)]
  | .wreturn a => [(6, 0x20), (5, 0), (5, a.toNat), (12, 1)]
  | .wsplitAdd a => [(6, 0x20), (5, 0), (5, a.toNat), (12, 2)]
  | .nred d a b dom op => [(6, 0x21), (5, d.toNat), (5, a.toNat), (5, b.toNat), (3, dom.code), (4, op.code)]
  | .nredMergek t u row dom => [(6, 0x21), (1, 0), (4, t.toNat), (1, 0), (4, u.toNat), (1, 0), (4, row.toNat),
      (3, dom.code), (4, 4)]
  | .spill d n => [(6, 0x22), (5, d.toNat), (14, 0x3E00), (3, n.toNat)]
  | .fill d n => [(6, 0x22), (5, d.toNat), (14, 0x3E01), (3, n.toNat)]
  | .csrr d csr => [(6, 0x23), (5, d.toNat), (7, 0), (10, csr.toNat)]
  | .csrw d a csr => [(6, 0x23), (5, d.toNat), (5, a.toNat), (2, 1), (10, csr.toNat)]
  | .csrs d a csr => [(6, 0x23), (5, d.toNat), (5, a.toNat), (2, 2), (10, csr.toNat)]
  | .csrc d a csr => [(6, 0x23), (5, d.toNat), (5, a.toNat), (2, 3), (10, csr.toNat)]
  | .trap a code => [(6, 0x24), (5, 0), (5, a.toNat), (5, code.toNat), (7, 0)]
  | .break_ a code => [(6, 0x24), (5, 0), (5, a.toNat), (5, code.toNat), (7, 1)]
  | .eret => [(6, 0x24), (22, 2)]
  | .eretU => [(6, 0x24), (22, 3)]
  | .eretTo a => [(6, 0x24), (5, 0), (5, a.toNat), (12, 4)]
  | .wfi a => [(6, 0x24), (5, 0), (5, a.toNat), (12, 5)]
  | .replay a b => [(6, 0x24), (5, 0), (5, a.toNat), (5, b.toNat), (7, 6)]
  | .replayFail a b => [(6, 0x24), (5, 0), (5, a.toNat), (5, b.toNat), (7, 7)]
  | .movi d imm => [(6, 0x25), (5, d.toNat), (5, 0), (12, imm.low)]
  | _ => []

/-- The fields of a slot B word: the opcode, the guard (R69), and the rest. -/
def guardedFields (op : Nat) (g : Guard) (l : List (Nat × Nat)) : List (Nat × Nat) :=
  (7, op) :: (3, g.c.toNat) :: (1, bnat g.neg) :: l

/-- The fields of a slot B word, from the encoding tables. -/
def fieldsB : Instr → List (Nat × Nat)
  | .add g d a b w => guardedFields 0x00 g [(5, d.toNat), (5, a.toNat), (5, b.toNat), (5, 0), (1, bnat w)]
  | .sub g d a b w => guardedFields 0x01 g [(5, d.toNat), (5, a.toNat), (5, b.toNat), (5, 0), (1, bnat w)]
  | .addi g d a imm => guardedFields 0x02 g [(5, d.toNat), (5, a.toNat), (11, imm.toNat)]
  | .mul g d a b w => guardedFields 0x03 g [(5, d.toNat), (5, a.toNat), (5, b.toNat), (5, 0), (1, bnat w)]
  | .mulh g d a b => guardedFields 0x04 g [(5, d.toNat), (5, a.toNat), (5, b.toNat), (6, 0)]
  | .mulhU g d a b => guardedFields 0x04 g [(5, d.toNat), (5, a.toNat), (5, b.toNat), (6, 2)]
  | .mulhSu g d a b => guardedFields 0x04 g [(5, d.toNat), (5, a.toNat), (5, b.toNat), (6, 4)]
  | .div g d a b u w => guardedFields 0x05 g [(5, d.toNat), (5, a.toNat), (5, b.toNat), (4, 0), (1, bnat u), (1, bnat w)]
  | .rem g d a b u w => guardedFields 0x06 g [(5, d.toNat), (5, a.toNat), (5, b.toNat), (4, 0), (1, bnat u), (1, bnat w)]
  | .and_ g d a b => guardedFields 0x07 g [(5, d.toNat), (5, a.toNat), (5, b.toNat), (6, 0)]
  | .or_ g d a b => guardedFields 0x08 g [(5, d.toNat), (5, a.toNat), (5, b.toNat), (6, 0)]
  | .xor_ g d a b => guardedFields 0x09 g [(5, d.toNat), (5, a.toNat), (5, b.toNat), (6, 0)]
  | .andn g d a b => guardedFields 0x0A g [(5, d.toNat), (5, a.toNat), (5, b.toNat), (6, 0)]
  | .shl g d a b w => guardedFields 0x0B g [(5, d.toNat), (5, a.toNat), (5, b.toNat), (5, 0), (1, bnat w)]
  | .shlImm g d a n w => guardedFields 0x0B g [(5, d.toNat), (5, a.toNat), (5, n.toNat % 32), (1, 1), (1, n.toNat / 32), (3, 0),
      (1, bnat w)]
  | .shr g d a b w => guardedFields 0x0C g [(5, d.toNat), (5, a.toNat), (5, b.toNat), (5, 0), (1, bnat w)]
  | .shrImm g d a n w => guardedFields 0x0C g [(5, d.toNat), (5, a.toNat), (5, n.toNat % 32), (1, 1), (1, n.toNat / 32), (3, 0),
      (1, bnat w)]
  | .sra g d a b w => guardedFields 0x0D g [(5, d.toNat), (5, a.toNat), (5, b.toNat), (5, 0), (1, bnat w)]
  | .sraImm g d a n w => guardedFields 0x0D g [(5, d.toNat), (5, a.toNat), (5, n.toNat % 32), (1, 1), (1, n.toNat / 32), (3, 0),
      (1, bnat w)]
  | .rot g d a b w => guardedFields 0x0E g [(5, d.toNat), (5, a.toNat), (5, b.toNat), (5, 0), (1, bnat w)]
  | .rotImm g d a n w => guardedFields 0x0E g [(5, d.toNat), (5, a.toNat), (5, n.toNat % 32), (1, 1), (1, n.toNat / 32), (3, 0),
      (1, bnat w)]
  | .clz g d a w => guardedFields 0x0F g [(5, d.toNat), (5, a.toNat), (8, 0), (1, bnat w), (2, 0)]
  | .ctz g d a w => guardedFields 0x0F g [(5, d.toNat), (5, a.toNat), (8, 0), (1, bnat w), (2, 1)]
  | .popc g d a w => guardedFields 0x0F g [(5, d.toNat), (5, a.toNat), (8, 0), (1, bnat w), (2, 2)]
  | .rev g d a w => guardedFields 0x0F g [(5, d.toNat), (5, a.toNat), (8, 0), (1, bnat w), (2, 3)]
  | .min_ g d a b w => guardedFields 0x10 g [(5, d.toNat), (5, a.toNat), (5, b.toNat), (3, 0), (1, bnat w), (2, 0)]
  | .max_ g d a b w => guardedFields 0x10 g [(5, d.toNat), (5, a.toNat), (5, b.toNat), (3, 0), (1, bnat w), (2, 1)]
  | .minu g d a b w => guardedFields 0x10 g [(5, d.toNat), (5, a.toNat), (5, b.toNat), (3, 0), (1, bnat w), (2, 2)]
  | .maxu g d a b w => guardedFields 0x10 g [(5, d.toNat), (5, a.toNat), (5, b.toNat), (3, 0), (1, bnat w), (2, 3)]
  | .cmp g c a b r => guardedFields 0x11 g [(2, 0), (3, c.toNat), (5, a.toNat), (5, b.toNat), (3, 0), (3, r.code)]
  | .sel g d a b neg c => guardedFields 0x12 g [(5, d.toNat), (5, a.toNat), (5, b.toNat), (2, 0), (1, bnat neg), (3, c.toNat)]
  | .ext g d a x => guardedFields 0x13 g [(5, d.toNat), (5, a.toNat), (8, 0), (3, x.code)]
  | .bfx g d a b sx => guardedFields 0x14 g [(5, d.toNat), (5, a.toNat), (5, b.toNat), (5, 0), (1, bnat sx)]
  | .bfi g d a b => guardedFields 0x15 g [(5, d.toNat), (5, a.toNat), (5, b.toNat), (6, 0)]
  | .lea g d a b sh => guardedFields 0x16 g [(5, d.toNat), (5, a.toNat), (5, b.toNat), (3, 0), (3, sh.toNat)]
  | .cond g c x y table => guardedFields 0x17 g [(2, 0), (3, c.toNat), (2, 0), (3, x.toNat), (2, 0), (3, y.toNat), (2, 0),
      (4, table.toNat)]
  | .fadd g d a b => guardedFields 0x18 g [(5, d.toNat), (5, a.toNat), (5, b.toNat), (6, 0)]
  | .fsub g d a b => guardedFields 0x19 g [(5, d.toNat), (5, a.toNat), (5, b.toNat), (6, 0)]
  | .fmul g d a b => guardedFields 0x1A g [(5, d.toNat), (5, a.toNat), (5, b.toNat), (6, 0)]
  | .ffma g d a b c => guardedFields 0x1B g [(5, d.toNat), (5, a.toNat), (5, b.toNat), (1, 0), (5, c.toNat)]
  | .fmin g d a b => guardedFields 0x1C g [(5, d.toNat), (5, a.toNat), (5, b.toNat), (6, 0)]
  | .fmax g d a b => guardedFields 0x1C g [(5, d.toNat), (5, a.toNat), (5, b.toNat), (6, 1)]
  | .fcmp g c a b r => guardedFields 0x1D g [(2, 0), (3, c.toNat), (5, a.toNat), (5, b.toNat), (4, 0), (2, r.code)]
  | .fcvt g d a op m => guardedFields 0x1E g [(5, d.toNat), (5, a.toNat), (5, op.code), (3, 0), (3, m.code)]
  | .fclass g d a => guardedFields 0x1F g [(5, d.toNat), (5, a.toNat), (11, 0)]
  | .vadd g d a b r y => guardedFields 0x20 g [(4, d.toNat), (4, a.toNat), (4, b.toNat), (4, r.row.toNat), (1, bnat r.w),
      (4, y.code)]
  | .vsub g d a b r y => guardedFields 0x21 g [(4, d.toNat), (4, a.toNat), (4, b.toNat), (4, r.row.toNat), (1, bnat r.w),
      (4, y.code)]
  | .vmul g d a b r y => guardedFields 0x22 g [(4, d.toNat), (4, a.toNat), (4, b.toNat), (4, r.row.toNat), (1, bnat r.w),
      (4, y.code)]
  | .vfma g d a b r y => guardedFields 0x23 g [(4, d.toNat), (4, a.toNat), (4, b.toNat), (4, r.row.toNat), (1, bnat r.w),
      (4, y.code)]
  | .vmin g d a b r y => guardedFields 0x24 g [(4, d.toNat), (4, a.toNat), (4, b.toNat), (4, r.row.toNat), (1, bnat r.w),
      (4, y.code)]
  | .vmax g d a b r y => guardedFields 0x25 g [(4, d.toNat), (4, a.toNat), (4, b.toNat), (4, r.row.toNat), (1, bnat r.w),
      (4, y.code)]
  | .vabs g d a r y => guardedFields 0x26 g [(4, d.toNat), (4, a.toNat), (4, 0), (4, r.row.toNat), (1, bnat r.w), (4, y.code)]
  | .vneg g d a r y => guardedFields 0x26 g [(4, d.toNat), (4, a.toNat), (4, 1), (4, r.row.toNat), (1, bnat r.w), (4, y.code)]
  | .vnabs g d a r y => guardedFields 0x26 g [(4, d.toNat), (4, a.toNat), (4, 2), (4, r.row.toNat), (1, bnat r.w), (4, y.code)]
  | .vlogic g d a b r op => guardedFields 0x27 g [(4, d.toNat), (4, a.toNat), (4, b.toNat), (4, r.row.toNat), (1, bnat r.w),
      (4, op.code)]
  | .vshift g d a b r y => guardedFields 0x28 g [(4, d.toNat), (4, a.toNat), (4, b.toNat), (4, r.row.toNat), (1, bnat r.w),
      (4, y.code)]
  | .vcmp g d a b r lt y => guardedFields 0x29 g [(4, d.toNat), (4, a.toNat), (4, b.toNat), (4, r.row.toNat), (1, bnat r.w),
      (1, bnat lt), (3, y.code)]
  | .vsel g d a b r y => guardedFields 0x2A g [(4, d.toNat), (4, a.toNat), (4, b.toNat), (4, r.row.toNat), (1, bnat r.w),
      (4, y.code)]
  | .vcvt g d a x r y => guardedFields 0x2B g [(4, d.toNat), (4, a.toNat), (4, x.code), (4, r.row.toNat), (1, bnat r.w),
      (4, y.code)]
  | .vpack g d a b r m => guardedFields 0x2C g [(4, d.toNat), (4, a.toNat), (4, b.toNat), (4, r.row.toNat), (1, bnat r.w),
      (4, m.toNat)]
  | .vunpk g d a b r m => guardedFields 0x2D g [(4, d.toNat), (4, a.toNat), (4, b.toNat), (4, r.row.toNat), (1, bnat r.w),
      (4, m.toNat)]
  | .vred g d a op r y => guardedFields 0x2E g [(4, d.toNat % 16), (4, a.toNat), (1, 0), (2, op.code), (1, d.toNat / 16),
      (4, r.row.toNat), (1, bnat r.w), (4, y.code)]
  | .vbcast g d a r y => guardedFields 0x2F g [(4, d.toNat), (4, a.toNat % 16), (3, 0), (1, a.toNat / 16), (4, r.row.toNat),
      (1, bnat r.w), (4, y.code)]
  | .vscale g d a b r y => guardedFields 0x30 g [(4, d.toNat), (4, a.toNat), (4, b.toNat), (4, r.row.toNat), (1, bnat r.w),
      (4, y.code)]
  | .vexp2 g d a r y => guardedFields 0x31 g [(4, d.toNat), (4, a.toNat), (4, 0), (4, r.row.toNat), (1, bnat r.w), (4, y.code)]
  | .vlog2 g d a r y => guardedFields 0x32 g [(4, d.toNat), (4, a.toNat), (4, 0), (4, r.row.toNat), (1, bnat r.w), (4, y.code)]
  | .vrcp g d a r y => guardedFields 0x33 g [(4, d.toNat), (4, a.toNat), (4, 0), (4, r.row.toNat), (1, bnat r.w), (4, y.code)]
  | .vrsqrt g d a r y => guardedFields 0x33 g [(4, d.toNat), (4, a.toNat), (4, 1), (4, r.row.toNat), (1, bnat r.w), (4, y.code)]
  | .vperm g d a b r y => guardedFields 0x34 g [(4, d.toNat), (4, a.toNat), (4, b.toNat), (4, r.row.toNat), (1, bnat r.w),
      (4, y.code)]
  | .vscan g d a op r y => guardedFields 0x35 g [(4, d.toNat), (4, a.toNat), (2, 0), (2, op.code), (4, r.row.toNat),
      (1, bnat r.w), (4, y.code)]
  | .vsrch g d a b r y => guardedFields 0x36 g [(4, d.toNat), (4, a.toNat), (4, b.toNat), (4, r.row.toNat), (1, bnat r.w),
      (4, y.code)]
  | .vmix g d a b r y => guardedFields 0x37 g [(4, d.toNat), (4, a.toNat), (4, b.toNat), (4, r.row.toNat), (1, bnat r.w),
      (4, y.code)]
  | .viota g d a p h r y => guardedFields 0x38 g [(4, d.toNat), (4, a.toNat % 16), (1, bnat p), (2, h.toNat), (1, a.toNat / 16),
      (4, r.row.toNat), (1, bnat r.w), (4, y.code)]
  | .tmov g d a r => guardedFields 0x40 g [(4, d.toNat), (4, a.toNat), (4, 0), (4, r.row.toNat), (1, bnat r.w), (4, 0)]
  | .tzero g d r => guardedFields 0x41 g [(4, d.toNat), (8, 0), (4, r.row.toNat), (1, bnat r.w), (4, 0)]
  | .ttrans g d a y => guardedFields 0x42 g [(4, d.toNat), (4, a.toNat), (9, 1), (4, y.code)]
  | .topk g d a b k grp e => guardedFields 0x43 g [(4, d.toNat), (4, a.toNat), (4, b.toNat), (4, k.toNat), (1, 0), (2, grp.code),
      (2, e.code)]
  | .tcolred g d a op row y => guardedFields 0x44 g [(4, d.toNat), (4, a.toNat), (2, 0), (2, op.code), (4, row.toNat), (1, 0),
      (4, y.code)]
  | .tfix g d a r y => guardedFields 0x45 g [(4, d.toNat), (4, a.toNat), (4, 0), (4, r.row.toNat), (1, bnat r.w), (4, y.code)]
  | .tbndRd g d a row y => guardedFields 0x46 g [(4, d.toNat % 16), (4, a.toNat), (3, 0), (1, d.toNat / 16), (4, row.toNat),
      (1, 0), (4, y.code)]
  | .tbndSet g d a r y => guardedFields 0x46 g [(4, d.toNat), (4, a.toNat % 16), (3, 1), (1, a.toNat / 16), (4, r.row.toNat),
      (1, bnat r.w), (4, y.code)]
  | .mma g d a b => guardedFields 0x50 g [(5, d.toNat), (5, a.toNat), (5, b.toNat), (6, 0)]
  | .mzero g => guardedFields 0x51 g [(21, 0)]
  | .mdrain g d a => guardedFields 0x52 g [(5, d.toNat), (5, a.toNat), (11, 0)]
  | .rleave g drop => guardedFields 0x53 g [(20, 0), (1, bnat drop)]
  | .nopB => [(7, 0x7F), (25, 0)]
  | _ => []

/-! ## The encoder writes the fields -/

theorem bnat_lt (b : Bool) : bnat b < 2 ^ 1 := by cases b <;> decide

theorem Imm.low_lt {n : Nat} : ∀ x : Imm n, x.low < 2 ^ n
  | .short v => v.isLt
  | .lone _ => Nat.two_pow_pos n

theorem PortVal.source_lt : ∀ v : PortVal, v.source < 2 ^ 5
  | .reg a => a.isLt
  | .imm _ => Nat.two_pow_pos 5

theorem PortVal.kind_lt : ∀ v : PortVal, v.kind < 2 ^ 1
  | .reg _ => Nat.two_pow_pos 1
  | .imm _ => Nat.one_lt_two

theorem PortVal.low_lt : ∀ v : PortVal, v.low < 2 ^ 6
  | .reg _ => Nat.two_pow_pos 6
  | .imm x => x.low_lt

theorem portBits_eq (v : PortVal) : portBits v = v.source * 2 ^ 12 + v.kind * 2 ^ 10 + v.low := by
  cases v <;> simp only [portBits, PortVal.source, PortVal.kind, PortVal.low] <;> omega

/-- The encoder of slot A adds up the fields. -/
theorem encodeWordA_eq_packFields {i : Instr} (h : slotA? i = some true) : encodeWordA i = packFields 28 (fieldsA i) := by
  cases i <;> cases h
  all_goals
    delta encodeWordA fieldsA
    simp only [packFields, portBits_eq, Nat.reducePow, Nat.reduceSub] <;> omega

/-- The encoder of slot B adds up the fields. -/
theorem encodeWordB_eq_packFields {i : Instr} (h : slotA? i = some false) : encodeWordB i = packFields 32 (fieldsB i) := by
  cases i <;> cases h
  all_goals
    delta encodeWordB fieldsB
    simp only [guardedFields, packFields, Nat.reducePow, Nat.reduceSub] <;> omega

/-- Every field of a slot A word fits its place. -/
theorem fits_fieldsA {i : Instr} (h : slotA? i = some true) : FieldsFit 28 (fieldsA i) := by
  cases i <;> cases h
  all_goals
    delta fieldsA
    simp only [FieldsFit, ↓BitVec.isLt, ↓Imm.low_lt, ↓PortVal.source_lt, ↓PortVal.kind_lt, ↓PortVal.low_lt, ↓bnat_lt,
      ↓LdMode.coded.lt, ↓Size.coded.lt, ↓Scope.coded.lt, ↓Kind.coded.lt, ↓FenceKind.coded.lt, ↓Domain.coded.lt,
      ↓RedOp.coded.lt, ↓EngineSel.coded.lt, ↓NredOp.coded.lt, Nat.reducePow, Nat.reduceLT, Nat.reduceLeDiff, Nat.reduceSub,
      and_self]

/-- Every field of a well-formed slot B word fits its place: VCMP's type has three bits (R71). -/
theorem fits_fieldsB {i : Instr} (h : slotA? i = some false) (legal : wellFormed i = true) : FieldsFit 32 (fieldsB i) := by
  cases i <;> cases h
  case' vcmp g d a b r lt y =>
    have exact : y.code < 2 ^ 3 := by
      simp only [wellFormed, LaneType.exact, Bool.and_eq_true, decide_eq_true_eq] at legal
      omega
  all_goals
    delta fieldsB
    simp only [*, guardedFields, FieldsFit, ↓BitVec.isLt, ↓bnat_lt, ↓CmpRel.coded.lt, ↓FcmpRel.coded.lt,
      ↓ExtKind.coded.lt, ↓FcvtOp.coded.lt, ↓FRound.coded.lt, ↓LogicOp.coded.lt, ↓VredOp.coded.lt, ↓ScanOp.coded.lt,
      ↓ColOp.coded.lt, ↓GroupSize.coded.lt, ↓TopkType.coded.lt, ↓LaneType.coded.lt, Nat.reducePow, Nat.reduceLT,
      Nat.reduceLeDiff, Nat.reduceSub, and_self, true_and, and_true] <;> omega

end Sys2Proof
end

section
/-! PROOFS. The decoder reads back what the encoder writes (R58, R66, R69): the tests of a major opcode that name a field
of the word hold or fail by that field's value, and the tests that span fields by their bits. -/

namespace Sys2Proof

/-! ## The decoder reads the fields -/

theorem sreg_eq (w lo : Nat) : sreg w lo = BitVec.ofNat 5 (bits w (lo + 4) lo) := by
  rw [sreg, bits, (by omega : lo + 4 + 1 - lo = 5)]
  rfl

theorem treg_eq (w lo : Nat) : treg w lo = BitVec.ofNat 4 (bits w (lo + 3) lo) := by
  rw [treg, bits, (by omega : lo + 3 + 1 - lo = 4)]
  rfl

theorem creg_eq (w lo : Nat) : creg w lo = BitVec.ofNat 3 (bits w (lo + 2) lo) := by
  rw [creg, bits, (by omega : lo + 2 + 1 - lo = 3)]
  rfl

theorem bnat_eq_one (b : Bool) : (bnat b = 1) = (b = true) := by cases b <;> decide

theorem immOf_low {n : Nat} (x : Imm n) : immOf x.lit n x.low = some x := by
  cases x <;> simp only [immOf, Imm.lit, Imm.low, BitVec.ofNat_toNat, BitVec.setWidth_eq, if_true]

/-- An immediate without bits. -/
theorem immOf_empty (x : Imm 0) : immOf x.lit 0 0 = some x := by
  have h : x.low = 0 := by
    have := x.low_lt
    omega
  rw [← immOf_low x, h]

/-- The code that marks LD.ACQ is no mode of LD (R115). -/
theorem LdMode.code_ne_seven (m : LdMode) : (m.code = 7) = False := by cases m <;> decide

/-- The code that marks NRED.MERGEK is no operation of NRED (R141). -/
theorem NredOp.code_ne_four (m : NredOp) : (m.code = 4) = False := by cases m <;> decide

/-- The major opcode of a slot A word. -/
theorem Spells.majorA {w op : Nat} {l : List (Nat × Nat)} (h : Spells w 28 ((6, op) :: l)) : bits w 27 22 = op := h.2.2.1

/-- The major opcode of a slot A instruction. -/
def majorA (i : Instr) : Nat := ((fieldsA i).headD (0, 0)).2

/-- The slot A decoder reads back branches, loops and the accesses of scalar registers. -/
theorem rawA_of_spells_lower {i : Instr} (h : slotA? i = some true) (lower : (majorA i).blt 0x12 = true) {w : Nat}
    (word : Spells w 28 (fieldsA i)) : rawA w (literal i) = some i := by
  cases i <;> cases h <;> cases lower
  all_goals
    delta fieldsA at word
    delta literal
    dsimp only at word ⊢
    have fields := word
    simp only [Spells, Nat.reduceSub, Nat.reduceLT, Nat.reduceLeDiff, true_and, and_true] at fields
    rw [rawA, word.majorA]
    simp only [decA00, decA01, decA02, decA03, decA04, decA05, decA06, decA07, decA08, decA09, decA0A, decA0B, decA0C, decA0D,
      decA0E, decA0F, decA10, decA11, sreg_eq, creg_eq, fields, bnat_eq_one, Bool.decide_eq_true, Nat.reduceAdd,
      Nat.reduceEqDiff, OfNat.ofNat_ne_zero, OfNat.zero_ne_ofNat, LdMode.code_ne_seven, and_false, and_self, reduceIte,
      BitVec.ofNat_toNat, BitVec.setWidth_eq, immOf_low, immOf_empty, LdMode.coded.of_code, Size.coded.of_code,
      Scope.coded.of_code, Kind.coded.of_code, FenceKind.coded.of_code, RedOp.coded.of_code, Option.bind_eq_bind,
      Option.bind_some]
  all_goals
    simp only [word.bits_eq, readFields, Nat.reduceAdd, Nat.reduceSub, Nat.reduceLT, Nat.reduceLeDiff, Nat.reduceEqDiff,
      reduceIte]
    simp only [bits, Nat.reduceAdd, Nat.reduceSub, Nat.reduceEqDiff, reduceIte, Nat.reducePow, Nat.reduceDiv, Nat.reduceMod,
      and_false, OfNat.ofNat_ne_zero]

/-- The slot A decoder reads back the accesses of tiles, barriers, teams, chains and port moves. -/
theorem rawA_of_spells_middle {i : Instr} (h : slotA? i = some true) (middle : (majorA i).blt 0x12 = false)
    (middle' : (majorA i).blt 0x1D = true) {w : Nat} (word : Spells w 28 (fieldsA i)) : rawA w (literal i) = some i := by
  cases i <;> cases h <;> cases middle <;> cases middle'
  case' pmovPsel v | pmovGain v | pmovXscl v | pmovWscl v | pmovYout v => cases v
  all_goals
    delta fieldsA at word
    delta literal
    dsimp only at word ⊢
    have fields := word
    simp only [Spells, PortVal.source, PortVal.kind, PortVal.low, Nat.reduceSub, Nat.reduceLT, Nat.reduceLeDiff, true_and,
      and_true] at fields
    rw [rawA, word.majorA]
    simp only [decA12, decA13, decA14, decA15, decA16, decA17, decA18, decA19, decA1A, decA1B, decA1C, sreg_eq, treg_eq,
      creg_eq, portOf, fields, bnat_eq_one, Bool.decide_eq_true, Nat.reduceAdd, Nat.reduceEqDiff, OfNat.ofNat_ne_zero,
      OfNat.zero_ne_ofNat, Nat.one_ne_zero, and_false, false_and, and_true, true_or, and_self, reduceIte, BitVec.ofNat_toNat,
      BitVec.setWidth_eq, immOf_low, Domain.coded.of_code, EngineSel.coded.of_code, Option.bind_eq_bind, Option.bind_some]
  all_goals
    simp only [word.bits_eq, readFields, Nat.reduceAdd, Nat.reduceSub, Nat.reduceLT, Nat.reduceLeDiff, Nat.reduceEqDiff,
      reduceIte]
    simp only [bits, PortVal.source, PortVal.kind, PortVal.low, Nat.reduceAdd, Nat.reduceSub, Nat.reduceMul, Nat.reduceEqDiff,
      reduceIte, Nat.reducePow, Nat.reduceDiv, Nat.reduceMod, and_false, false_and, OfNat.ofNat_ne_zero]
  case arcade => exact if_neg (by omega)
  all_goals repeat rw [if_neg (by omega)]

/-- The slot A decoder reads back the instructions of the tray, the time, the weight, NRED, banks of registers and status. -/
theorem rawA_of_spells_upper {i : Instr} (h : slotA? i = some true) (upper : (majorA i).blt 0x1D = false) {w : Nat}
    (word : Spells w 28 (fieldsA i)) : rawA w (literal i) = some i := by
  cases i <;> cases h <;> cases upper
  all_goals
    delta fieldsA at word
    delta literal
    dsimp only at word ⊢
    have fields := word
    simp only [Spells, Nat.reduceSub, Nat.reduceLT, Nat.reduceLeDiff, true_and, and_true] at fields
    rw [rawA, word.majorA]
    simp only [decA1D, decA1E, decA1F, decA20, decA21, decA22, decA23, decA24, decA25, sreg_eq, treg_eq, creg_eq, fields,
      Nat.reduceAdd, Nat.reduceEqDiff, OfNat.ofNat_ne_zero, OfNat.zero_ne_ofNat, NredOp.code_ne_four, false_and,
      and_true, and_self, reduceIte, BitVec.ofNat_toNat, BitVec.setWidth_eq, immOf_low, Domain.coded.of_code,
      NredOp.coded.of_code, Option.bind_eq_bind, Option.bind_some]
  all_goals
    simp only [word.bits_eq, readFields, Nat.reduceAdd, Nat.reduceSub, Nat.reduceLT, Nat.reduceLeDiff, Nat.reduceEqDiff,
      reduceIte]
  all_goals
    simp only [bits, Nat.reduceAdd, Nat.reduceSub, Nat.reduceMul, Nat.reduceEqDiff, reduceIte, Nat.reducePow, Nat.reduceDiv,
      Nat.reduceMod, false_and, OfNat.ofNat_ne_zero]
  all_goals repeat rw [if_neg (by omega)]

/-- The slot A decoder reads back what the encoder writes (R66). -/
theorem rawA_of_spells {i : Instr} (h : slotA? i = some true) {w : Nat} (word : Spells w 28 (fieldsA i)) :
    rawA w (literal i) = some i := by
  cases lower : (majorA i).blt 0x12
  · cases upper : (majorA i).blt 0x1D
    · exact rawA_of_spells_upper h upper word
    · exact rawA_of_spells_middle h lower upper word
  · exact rawA_of_spells_lower h lower word

/-- The opcode of a slot B word. -/
theorem Spells.majorB {w op : Nat} {l : List (Nat × Nat)} (h : Spells w 32 ((7, op) :: l)) : bits w 31 25 = op := h.2.2.1

/-- The opcode of a slot B instruction. -/
def majorB (i : Instr) : Nat := ((fieldsB i).headD (0, 0)).2

/-- The slot B decoder reads back the scalar instructions: an immediate shift is no register shift, whose bit 5 is zero. -/
theorem rawB_of_spells_scalar {i : Instr} (h : slotA? i = some false) (scalar : (majorB i).blt 0x20 = true) {w : Nat}
    (word : Spells w 32 (fieldsB i)) : rawB w = some i := by
  cases i <;> cases h <;> cases scalar
  all_goals
    delta fieldsB at word
    dsimp only [guardedFields] at word ⊢
    have fields := word
    simp only [Spells, Nat.reduceSub, Nat.reduceLT, Nat.reduceLeDiff, true_and, and_true] at fields
    rw [rawB, word.majorB]
    simp only [decB00, decB01, decB02, decB03, decB04, decB05, decB06, decB07, decB08, decB09, decB0A, decB0B, decB0C, decB0D,
      decB0E, decB0F, decB10, decB11, decB12, decB13, decB14, decB15, decB16, decB17, decB18, decB19, decB1A, decB1B, decB1C,
      decB1D, decB1E, decB1F, guardOf, sreg_eq, treg_eq, creg_eq, fields, bnat_eq_one, Bool.decide_eq_true, Nat.reduceAdd,
      Nat.reduceEqDiff, OfNat.ofNat_ne_zero, OfNat.zero_ne_ofNat, Nat.one_ne_zero, and_true, and_self, reduceIte,
      Nat.mod_add_div, BitVec.ofNat_toNat, BitVec.setWidth_eq, CmpRel.coded.of_code, FcmpRel.coded.of_code,
      ExtKind.coded.of_code, FcvtOp.coded.of_code, FRound.coded.of_code, Option.bind_eq_bind, Option.bind_some]
  all_goals
    simp only [word.bits_eq, readFields, Nat.reduceAdd, Nat.reduceSub, Nat.reduceLT, Nat.reduceLeDiff, Nat.reduceEqDiff,
      reduceIte]
    rw [if_neg (by omega)]

/-- The slot B decoder reads back the instructions of rows up to VSCALE. -/
theorem rawB_of_spells_row {i : Instr} (h : slotA? i = some false) (row : (majorB i).blt 0x20 = false)
    (row' : (majorB i).blt 0x31 = true) {w : Nat} (word : Spells w 32 (fieldsB i)) : rawB w = some i := by
  cases i <;> cases h <;> cases row <;> cases row'
  all_goals
    delta fieldsB at word
    dsimp only [guardedFields] at word ⊢
    have fields := word
    simp only [Spells, Nat.reduceSub, Nat.reduceLT, Nat.reduceLeDiff, true_and, and_true] at fields
    rw [rawB, word.majorB]
    simp only [decB20, decB21, decB22, decB23, decB24, decB25, decB26, decB27, decB28, decB29, decB2A, decB2B, decB2C, decB2D,
      decB2E, decB2F, decB30, guardOf, rowsOf, treg_eq, creg_eq, fields, bnat_eq_one, Bool.decide_eq_true, Nat.reduceAdd,
      Nat.reduceEqDiff, OfNat.ofNat_ne_zero, OfNat.zero_ne_ofNat, Nat.one_ne_zero, reduceIte, Nat.mod_add_div,
      BitVec.ofNat_toNat, BitVec.setWidth_eq, LogicOp.coded.of_code, VredOp.coded.of_code, LaneType.coded.of_code,
      Option.bind_eq_bind, Option.bind_some]

/-- The slot B decoder reads back the other instructions of rows, those of tiles and of the matrix unit, and NOP.B. -/
theorem rawB_of_spells_tile {i : Instr} (h : slotA? i = some false) (tile : (majorB i).blt 0x31 = false) {w : Nat}
    (word : Spells w 32 (fieldsB i)) : rawB w = some i := by
  cases i <;> cases h <;> cases tile
  all_goals
    delta fieldsB at word
    dsimp only [guardedFields] at word ⊢
    have fields := word
    simp only [Spells, Nat.reduceSub, Nat.reduceLT, Nat.reduceLeDiff, true_and, and_true] at fields
    rw [rawB, word.majorB]
    simp only [decB31, decB32, decB33, decB34, decB35, decB36, decB37, decB38, decB40, decB41, decB42, decB43, decB44, decB45,
      decB46, decB50, decB51, decB52, decB53, decB7F, guardOf, rowsOf, sreg_eq, treg_eq, creg_eq, fields, bnat_eq_one,
      Bool.decide_eq_true, Nat.reduceAdd, Nat.reduceEqDiff, Nat.one_ne_zero, and_false, and_self, reduceIte, Nat.mod_add_div,
      BitVec.ofNat_toNat, BitVec.setWidth_eq, ScanOp.coded.of_code, ColOp.coded.of_code, GroupSize.coded.of_code,
      TopkType.coded.of_code, LaneType.coded.of_code, Option.bind_eq_bind, Option.bind_some]

/-- The slot B decoder reads back what the encoder writes (R69). -/
theorem rawB_of_spells {i : Instr} (h : slotA? i = some false) {w : Nat} (word : Spells w 32 (fieldsB i)) :
    rawB w = some i := by
  cases scalar : (majorB i).blt 0x20
  · cases row : (majorB i).blt 0x31
    · exact rawB_of_spells_tile h row word
    · exact rawB_of_spells_row h scalar row word
  · exact rawB_of_spells_scalar h scalar word

/-! ## Bundles -/

theorem encodeWordA_lt {i : Instr} (h : slotA? i = some true) : encodeWordA i < 2 ^ 28 := by
  rw [encodeWordA_eq_packFields h]
  exact packFields_lt (fits_fieldsA h)

theorem encodeWordB_lt {i : Instr} (h : slotA? i = some false) (legal : wellFormed i = true) : encodeWordB i < 2 ^ 32 := by
  rw [encodeWordB_eq_packFields h]
  exact packFields_lt (fits_fieldsB h legal)

/-- The slot A decoder does not look above bit 27. -/
theorem decodeA_encodeWordA {i : Instr} (h : slotA? i = some true) (legal : wellFormed i = true) {w : Nat}
    (word : w % 2 ^ 28 = encodeWordA i) : decodeA w (literal i) = some i := by
  have reads : Spells w 28 (fieldsA i) := spells_of_packFields_eq (fits_fieldsA h) (by rw [word, encodeWordA_eq_packFields h])
  simp only [decodeA, checked, rawA_of_spells h reads, legal, if_true]

theorem decodeB_encodeWordB {i : Instr} (h : slotA? i = some false) (legal : wellFormed i = true) :
    decodeB (encodeWordB i) = some i := by
  have reads : Spells (encodeWordB i) 32 (fieldsB i) :=
    spells_of_packFields_eq (fits_fieldsB h legal) (by
      rw [Nat.mod_eq_of_lt (encodeWordB_lt h legal), encodeWordB_eq_packFields h])
  simp only [decodeB, checked, rawB_of_spells h reads, legal, if_true]

/-- Word 0 of a bundle: the lone bit, the stall count and slot A (R58). -/
theorem word0_fields {A : Nat} (small : A < 2 ^ 28) (stall : BitVec 3) (lone : Bool) {w : Half}
    (word : w = BitVec.ofNat 32 (A + stall.toNat * 2 ^ 28 + bnat lone * 2 ^ 31)) :
    bits w.toNat 31 31 = bnat lone ∧ creg w.toNat 28 = stall ∧ w.toNat % 2 ^ 28 = A := by
  have loneBit := bnat_lt lone
  have value : w.toNat = A + stall.toNat * 2 ^ 28 + bnat lone * 2 ^ 31 := by
    rw [word, BitVec.toNat_ofNat]
    omega
  refine ⟨?_, BitVec.eq_of_toNat_eq ?_, ?_⟩
  · rw [bits, value]
    omega
  · rw [creg, BitVec.toNat_ofNat, value]
    omega
  · omega

/-- Settles O21: both decoders read back the fields that the encoder writes, under the stall count and the lone bit. -/
theorem decodeOfEncode : Obligations.DecodeOfEncode := by
  refine ⟨?pair, ?lone⟩
  case pair =>
    intro a b stall ha hb legalA legalB noLiteral mma
    obtain ⟨loneBit, stallBits, wordA⟩ := word0_fields (encodeWordA_lt ha) stall false rfl
    have slotA := decodeA_encodeWordA ha legalA wordA
    have slotB := decodeB_encodeWordB hb legalB
    have wordB : (BitVec.ofNat 32 (encodeWordB b)).toNat = encodeWordB b := by
      rw [BitVec.toNat_ofNat, Nat.mod_eq_of_lt (encodeWordB_lt hb legalB)]
    have gang : (isMma b && a != .gang) = false := by
      cases isMmaB : isMma b with
      | false => rfl
      | true => rw [mma isMmaB, bne_self_eq_false, Bool.and_false]
    rw [noLiteral] at slotA
    have notLone : bnat false = 0 := rfl
    have sum : encodeWordA a + stall.toNat * 2 ^ 28 = encodeWordA a + stall.toNat * 2 ^ 28 + bnat false * 2 ^ 31 := by omega
    rw [sum]
    simp only [decode, loneBit, bnat_eq_one, Bool.false_eq_true, if_false, slotA, wordB, slotB, gang, stallBits]
  case lone =>
    intro a l stall ha legal lit
    obtain ⟨loneBit, stallBits, wordA⟩ := word0_fields (encodeWordA_lt ha) stall true rfl
    have slotA := decodeA_encodeWordA ha legal wordA
    rw [lit] at slotA
    have isLone : bnat true = 1 := rfl
    have sum : encodeWordA a + stall.toNat * 2 ^ 28 + 2 ^ 31 = encodeWordA a + stall.toNat * 2 ^ 28 + bnat true * 2 ^ 31 := by
      omega
    rw [sum]
    simp only [decode, loneBit, bnat_eq_one, if_true, slotA, stallBits]

end Sys2Proof
end

section
/-! PROOFS. What decodes is the encoding of what it decodes to (R75): every test and every operand of a decoder
is a field of the word. -/

namespace Sys2Proof

/-! ## What a decoder found stands in the word -/

theorem toNat_sreg (w lo : Nat) : (sreg w lo).toNat = bits w (lo + 4) lo := by
  rw [sreg_eq, BitVec.toNat_ofNat]
  exact Nat.mod_eq_of_lt (Nat.lt_of_lt_of_le (bits_lt w (lo + 4) lo) (Nat.pow_le_pow_right (by decide) (by omega)))

theorem toNat_treg (w lo : Nat) : (treg w lo).toNat = bits w (lo + 3) lo := by
  rw [treg_eq, BitVec.toNat_ofNat]
  exact Nat.mod_eq_of_lt (Nat.lt_of_lt_of_le (bits_lt w (lo + 3) lo) (Nat.pow_le_pow_right (by decide) (by omega)))

theorem toNat_creg (w lo : Nat) : (creg w lo).toNat = bits w (lo + 2) lo := by
  rw [creg_eq, BitVec.toNat_ofNat]
  exact Nat.mod_eq_of_lt (Nat.lt_of_lt_of_le (bits_lt w (lo + 2) lo) (Nat.pow_le_pow_right (by decide) (by omega)))

/-- A field of the width of its operand. -/
theorem toNat_ofNat_bits {n hi lo : Nat} (w : Nat) (h : hi + 1 = lo + n) :
    (BitVec.ofNat n (bits w hi lo)).toNat = bits w hi lo := by
  rw [BitVec.toNat_ofNat]
  have small := bits_lt w hi lo
  rw [(by omega : hi + 1 - lo = n)] at small
  exact Nat.mod_eq_of_lt small

/-- A one-bit field. -/
theorem bnat_bit (w i : Nat) : bnat (decide (bits w i i = 1)) = bits w i i := by
  have small := bits_lt w i i
  rw [Nat.add_sub_cancel_left, Nat.pow_one] at small
  by_cases set : bits w i i = 1
  · simp only [set, decide_true, bnat, if_true]
  · simp only [set, decide_false, bnat, Bool.false_eq_true, if_false]
    omega

theorem Coded.of_eq_some {α : Type} {of : Nat → Option α} {code : α → Nat} {n : Nat} (h : Coded of code n)
    {c : Nat} {z : α} : of c = some z ↔ c = code z :=
  ⟨h.eq_code, fun e => e ▸ h.of_code z⟩

/-- An immediate is found in its field, or in the literal with the field zero (R66). -/
theorem immOf_eq_some {l : Option Half} {n hi lo w : Nat} (h : hi + 1 = lo + n) {x : Imm n} :
    immOf l n (bits w hi lo) = some x ↔ x.lit = l ∧ bits w hi lo = x.low := by
  constructor
  · intro found
    cases l with
    | none =>
      cases found
      exact ⟨rfl, (toNat_ofNat_bits w h).symm⟩
    | some y =>
      simp only [immOf] at found
      split at found <;> cases found
      exact ⟨rfl, ‹_›⟩
  · rintro ⟨rfl, field⟩
    rw [field, immOf_low]

/-- The value of a port move is found in its fields (R219). -/
theorem portOf_eq_some {l : Option Half} {w : Nat} {v : PortVal} :
    portOf l w = some v ↔
      bits w 16 12 = v.source ∧ bits w 10 10 = v.kind ∧ bits w 5 0 = v.low ∧ ∀ x, v = .imm x → x.lit = l := by
  constructor
  · intro found
    unfold portOf at found
    split at found
    case isTrue isReg =>
      split at found <;> cases found
      exact ⟨(toNat_sreg w 12).symm, isReg, ‹_›, fun _ h => nomatch h⟩
    case isFalse isImm =>
      split at found
      · obtain ⟨x, immediate, value⟩ := Option.bind_eq_some_iff.1 found
        cases value
        obtain ⟨lit, field⟩ := (immOf_eq_some (by rfl : 5 + 1 = 0 + 6)).1 immediate
        have oneBit : bits w 10 10 < 2 := bits_lt w 10 10
        exact ⟨‹_›, by rw [PortVal.kind]; omega, field, fun y h => by cases h; exact lit⟩
      · cases found
  · rintro ⟨source, kind, low, lit⟩
    cases v with
    | reg a =>
      have register : sreg w 12 = a := BitVec.eq_of_toNat_eq (by rw [toNat_sreg]; exact source)
      simp only [portOf, kind, low, PortVal.kind, PortVal.low, if_true, register]
    | imm x =>
      have immediate : immOf l 6 (bits w 5 0) = some x := (immOf_eq_some (by rfl : 5 + 1 = 0 + 6)).2 ⟨lit x rfl, low⟩
      simp only [portOf, kind, source, PortVal.kind, PortVal.source, Nat.one_ne_zero, if_false, if_true, immediate,
        Option.bind_eq_bind, Option.bind_some]

/-- The amount of an immediate shift stands in two fields. -/
theorem amount_fields (w : Nat) : (BitVec.ofNat 6 (bits w 10 6 + 32 * bits w 4 4)).toNat % 32 = bits w 10 6 ∧
    (BitVec.ofNat 6 (bits w 10 6 + 32 * bits w 4 4)).toNat / 32 = bits w 4 4 := by
  have low : bits w 10 6 < 32 := bits_lt w 10 6
  have high : bits w 4 4 < 2 := bits_lt w 4 4
  rw [BitVec.toNat_ofNat]
  omega

/-- A scalar register beside tile registers has its top bit in a field of its own. -/
theorem register_fields {hi lo : Nat} (w : Nat) (h : hi + 1 = lo + 4) :
    (BitVec.ofNat 5 (bits w hi lo + 16 * bits w 9 9)).toNat % 16 = bits w hi lo ∧
    (BitVec.ofNat 5 (bits w hi lo + 16 * bits w 9 9)).toNat / 16 = bits w 9 9 := by
  have low := bits_lt w hi lo
  have high : bits w 9 9 < 2 := bits_lt w 9 9
  rw [(by omega : hi + 1 - lo = 4)] at low
  rw [BitVec.toNat_ofNat]
  omega

/-- The decoder's result r, where there is one, stands in this slot and in the k bits of the word. -/
def StandsIn (slot : Bool) (fields : Instr → List (Nat × Nat)) (k w : Nat) (r : Option Instr) : Prop :=
  ∀ i, r = some i → slotA? i = some slot ∧ Spells w k (fields i)

section
variable {slot : Bool} {fields : Instr → List (Nat × Nat)} {k w : Nat}

theorem standsIn_none : StandsIn slot fields k w none := fun _ h => nomatch h

theorem standsIn_some {i : Instr} : StandsIn slot fields k w (some i) ↔ slotA? i = some slot ∧ Spells w k (fields i) := by
  simp only [StandsIn, Option.some.injEq, forall_eq']

theorem standsIn_bind {α : Type} {x : Option α} {f : α → Option Instr} :
    StandsIn slot fields k w (x >>= f) ↔ ∀ z, x = some z → StandsIn slot fields k w (f z) := by
  cases x with
  | none => exact ⟨fun _ _ h => (nomatch h), fun _ _ h => (nomatch h)⟩
  | some z => simp only [Option.bind_eq_bind, Option.bind_some, Option.some.injEq, forall_eq']

theorem standsIn_ite {c : Prop} [Decidable c] {x y : Option Instr} (hx : c → StandsIn slot fields k w x)
    (hy : StandsIn slot fields k w y) : StandsIn slot fields k w (if c then x else y) := by
  split
  · exact hx ‹_›
  · exact hy

end

/-- What the slot A decoder finds stands in the word: each test names a field, and so does each operand (R66). -/
theorem standsIn_rawA (w : Nat) (l : Option Half) : StandsIn true fieldsA 28 w (rawA w l) := by
  unfold rawA
  split
  all_goals
    simp only [standsIn_none, decA00, decA01, decA02, decA03, decA04, decA05, decA06, decA07, decA08, decA09, decA0A, decA0B,
      decA0C, decA0D, decA0E, decA0F, decA10, decA11, decA12, decA13, decA14, decA15, decA16, decA17, decA18, decA19, decA1A,
      decA1B, decA1C, decA1D, decA1E, decA1F, decA20, decA21, decA22, decA23, decA24, decA25]
  all_goals repeat' refine standsIn_ite (fun test => ?_) ?_
  all_goals
    simp only [standsIn_none, standsIn_bind, standsIn_some, LdMode.coded.of_eq_some, Size.coded.of_eq_some,
      Scope.coded.of_eq_some, Kind.coded.of_eq_some, FenceKind.coded.of_eq_some, Domain.coded.of_eq_some,
      RedOp.coded.of_eq_some, EngineSel.coded.of_eq_some, NredOp.coded.of_eq_some, immOf_eq_some, portOf_eq_some]
  all_goals
    intros
    refine ⟨rfl, ?_⟩
    delta fieldsA
    dsimp only
    simp only [Spells, toNat_sreg, toNat_creg, toNat_treg, toNat_ofNat_bits, bnat_bit, Nat.reduceSub, Nat.reduceLT,
      Nat.reduceLeDiff, Nat.reduceAdd, and_true, *]

/-- What the slot B decoder finds stands in the word (R69). -/
theorem standsIn_rawB (w : Nat) : StandsIn false fieldsB 32 w (rawB w) := by
  unfold rawB
  split
  all_goals
    simp only [standsIn_none, decB00, decB01, decB02, decB03, decB04, decB05, decB06, decB07, decB08, decB09, decB0A, decB0B,
      decB0C, decB0D, decB0E, decB0F, decB10, decB11, decB12, decB13, decB14, decB15, decB16, decB17, decB18, decB19, decB1A,
      decB1B, decB1C, decB1D, decB1E, decB1F, decB20, decB21, decB22, decB23, decB24, decB25, decB26, decB27, decB28, decB29,
      decB2A, decB2B, decB2C, decB2D, decB2E, decB2F, decB30, decB31, decB32, decB33, decB34, decB35, decB36, decB37, decB38,
      decB40, decB41, decB42, decB43, decB44, decB45, decB46, decB50, decB51, decB52, decB53, decB7F]
  all_goals repeat' refine standsIn_ite (fun test => ?_) ?_
  all_goals
    simp only [standsIn_none, standsIn_bind, standsIn_some, CmpRel.coded.of_eq_some, FcmpRel.coded.of_eq_some,
      ExtKind.coded.of_eq_some, FcvtOp.coded.of_eq_some, FRound.coded.of_eq_some, LogicOp.coded.of_eq_some,
      VredOp.coded.of_eq_some, ScanOp.coded.of_eq_some, ColOp.coded.of_eq_some, GroupSize.coded.of_eq_some,
      TopkType.coded.of_eq_some, LaneType.coded.of_eq_some]
  all_goals
    intros
    refine ⟨rfl, ?_⟩
    delta fieldsB
    dsimp only
    simp only [guardedFields, Spells, guardOf, rowsOf, toNat_sreg, toNat_creg, toNat_treg, toNat_ofNat_bits, bnat_bit,
      amount_fields, register_fields, Nat.reduceSub, Nat.reduceLT, Nat.reduceLeDiff, Nat.reduceAdd, and_true, *]

/-! ## Bundles that decode -/

/-- What passes the check is what was found, and well formed (R75). -/
theorem checked_eq_some {r : Option Instr} {i : Instr} : checked r = some i ↔ r = some i ∧ wellFormed i = true := by
  cases r with
  | none => simp only [checked, reduceCtorEq, false_and]
  | some j =>
    simp only [checked, Option.ite_none_right_eq_some, Option.some.injEq]
    constructor
    · rintro ⟨legal, rfl⟩
      exact ⟨rfl, legal⟩
    · rintro ⟨rfl, legal⟩
      exact ⟨legal, rfl⟩

/-- A slot A word that decodes is its instruction's. -/
theorem encodeWordA_of_decodeA {w : Nat} {l : Option Half} {i : Instr} (h : decodeA w l = some i) :
    wellFormed i = true ∧ encodeWordA i = w % 2 ^ 28 := by
  obtain ⟨found, legal⟩ := checked_eq_some.1 h
  obtain ⟨slot, word⟩ := standsIn_rawA w l i found
  exact ⟨legal, by rw [encodeWordA_eq_packFields slot, word.packFields_eq]⟩

/-- A slot B word that decodes is its instruction's. -/
theorem encodeWordB_of_decodeB {w : Half} {i : Instr} (h : decodeB w.toNat = some i) :
    wellFormed i = true ∧ w = BitVec.ofNat 32 (encodeWordB i) := by
  obtain ⟨found, legal⟩ := checked_eq_some.1 h
  obtain ⟨slot, word⟩ := standsIn_rawB w.toNat i found
  refine ⟨legal, BitVec.eq_of_toNat_eq ?_⟩
  rw [encodeWordB_eq_packFields slot, word.packFields_eq, BitVec.toNat_ofNat, Nat.mod_mod, Nat.mod_eq_of_lt w.isLt]

/-- Word 0 of a bundle is its slot A, its stall count and its lone bit (R58). -/
theorem word0_eq {A : Nat} {w : Half} (word : A = w.toNat % 2 ^ 28) :
    w = BitVec.ofNat 32 (A + (creg w.toNat 28).toNat * 2 ^ 28 + bits w.toNat 31 31 * 2 ^ 31) := by
  have inWord := w.isLt
  apply BitVec.eq_of_toNat_eq
  rw [BitVec.toNat_ofNat, toNat_creg, bits, bits, word]
  omega

/-- Settles O22: what each decoder finds stands in the fields of its word, which the encoder writes. -/
theorem encodeOfDecode : Obligations.EncodeOfDecode := by
  intro w0 w1 x decoded
  simp only [decode] at decoded
  split at decoded
  case isTrue lone =>
    split at decoded <;> cases decoded
    case h_1 a slotA =>
      obtain ⟨legal, word⟩ := encodeWordA_of_decodeA slotA
      have value := word0_eq word
      rw [lone, Nat.one_mul] at value
      exact ⟨legal, rfl, value, rfl, rfl⟩
  case isFalse paired =>
    split at decoded
    · cases decoded
    case h_2 a slotA =>
      split at decoded
      · cases decoded
      case h_2 b slotB =>
        split at decoded <;> cases decoded
        obtain ⟨legalA, word⟩ := encodeWordA_of_decodeA slotA
        obtain ⟨legalB, value1⟩ := encodeWordB_of_decodeB slotB
        have oneBit : bits w0.toNat 31 31 < 2 := bits_lt w0.toNat 31 31
        have value0 := word0_eq word
        rw [(by omega : bits w0.toNat 31 31 = 0), Nat.zero_mul, Nat.add_zero] at value0
        exact ⟨legalA, legalB, value0, value1⟩

end Sys2Proof
end

section
/-! PROOFS. The results of BITS and MINMAX (R85, R86): counts and reversal bit by bit over the operand's width, and the smaller
or larger of two operands. -/

namespace Sys2Proof.Machine

/-! ## Counts and reversal (R85) -/

/-- The first number below n with p, or n: none before it has p, and it has p where it is below n. -/
theorem find?_upTo_getD (p : Nat → Bool) (n : Nat) :
    let k := ((upTo n).find? p).getD n
    k ≤ n ∧ (∀ i, i < k → p i = false) ∧ (k < n → p k = true) := by
  cases found : (upTo n).find? p with
  | none =>
    refine ⟨Nat.le_refl n, fun i below => ?_, fun above => absurd above (Nat.lt_irrefl n)⟩
    exact Bool.eq_false_iff.mpr (List.find?_eq_none.mp found i (List.mem_range.mpr below))
  | some k =>
    obtain ⟨holds, inRange, before⟩ := List.find?_range_eq_some.mp found
    exact ⟨Nat.le_of_lt (List.mem_range.mp inRange), fun i below => by simpa using before i below, fun _ => holds⟩

/-- The bits of the operand, over its width. -/
theorem testBit_bitsOf (w : Bool) (x : Word) {i : Nat} (h : i < formBits w) : (bitsOf w x).testBit i = x.getLsbD i := by
  have inForm : i < opBits w := h
  rw [bitsOf, Nat.testBit_mod_two_pow, decide_eq_true inForm, Bool.true_and]
  rfl

/-- A digit of base 2 as a bit. -/
theorem digit_eq_testBit (m : Nat) : (fun i => decide (m / 2 ^ i % 2 = 1)) = m.testBit :=
  funext fun _ => (Nat.testBit_eq_decide_div_mod_eq).symm

theorem lt_two_pow_bitLen (m : Nat) : m < 2 ^ bitLen m := by
  by_cases zero : m = 0
  · simp [bitLen, zero]
  · rw [bitLen, if_neg zero]
    exact Nat.lt_log2_self

theorem bitLen_le {m n : Nat} (h : m < 2 ^ n) : bitLen m ≤ n := by
  by_cases zero : m = 0
  · simp [bitLen, zero]
  · rw [bitLen, if_neg zero]
    exact (Nat.log2_lt zero).mpr h

/-- The top bit of a number that is not 0 is 1. -/
theorem testBit_bitLen_sub_one {m : Nat} (h : 0 < bitLen m) : m.testBit (bitLen m - 1) = true := by
  by_cases zero : m = 0
  · simp [bitLen, zero] at h
  · rw [bitLen, if_neg zero, Nat.add_sub_cancel]
    exact Nat.testBit_log2 zero

/-- CLZ's count is that of the zeros above the highest 1. -/
theorem clz_spec (w : Bool) (x : Word) :
    let n := formBits w - bitLen (bitsOf w x)
    n ≤ formBits w ∧ (∀ i, formBits w - n ≤ i → i < formBits w → x.getLsbD i = false) ∧
    (n < formBits w → x.getLsbD (formBits w - 1 - n) = true) := by
  intro n
  have len : bitLen (bitsOf w x) ≤ formBits w := bitLen_le (Nat.mod_lt _ (Nat.two_pow_pos _))
  refine ⟨Nat.sub_le _ _, fun i above inForm => ?_, fun counted => ?_⟩
  · rw [← testBit_bitsOf w x inForm]
    refine Nat.testBit_lt_two_pow (Nat.lt_of_lt_of_le (lt_two_pow_bitLen _) (Nat.pow_le_pow_right (by decide) ?_))
    omega
  · rw [← testBit_bitsOf w x (by omega), show formBits w - 1 - n = bitLen (bitsOf w x) - 1 by omega]
    exact testBit_bitLen_sub_one (by omega)

/-- CTZ's count is the place of the lowest 1. -/
theorem ctz_spec (w : Bool) (x : Word) :
    let n := ((upTo (opBits w)).find? fun i => bitsOf w x / 2 ^ i % 2 = 1).getD (opBits w)
    n ≤ formBits w ∧ (∀ i, i < n → x.getLsbD i = false) ∧ (n < formBits w → x.getLsbD n = true) := by
  rw [digit_eq_testBit]
  obtain ⟨le, before, found⟩ := find?_upTo_getD (bitsOf w x).testBit (opBits w)
  refine ⟨le, fun i below => ?_, fun inForm => ?_⟩
  · rw [← testBit_bitsOf w x (Nat.lt_of_lt_of_le below le)]
    exact before i below
  · rw [← testBit_bitsOf w x inForm]
    exact found inForm

/-- POPC counts the ones. -/
theorem countOnes_eq (w : Bool) (x : Word) : countOnes w x = BitVec.ofNat 64 ((List.range (formBits w)).countP x.getLsbD) := by
  rw [countOnes, digit_eq_testBit, ← List.countP_eq_length_filter]
  exact congrArg _ (List.countP_congr fun i inRange => by rw [testBit_bitsOf w x (List.mem_range.mp inRange)])

/-- The number whose digits of base 2, the highest first, are the low n digits of m from the lowest up: its bits are those of m,
reversed. -/
theorem testBit_foldl_digits (m n : Nat) : ∀ j,
    ((upTo n).foldl (fun (a : Nat) i => 2 * a + m / 2 ^ i % 2) 0).testBit j = (decide (j < n) && m.testBit (n - 1 - j)) := by
  induction n with
  | zero => intro j; simp [upTo]
  | succ n ih =>
    intro j
    simp only [upTo, List.range_succ, List.foldl_append, List.foldl_cons, List.foldl_nil] at ih ⊢
    cases j with
    | zero => simp [Nat.testBit_eq_decide_div_mod_eq, Nat.add_mod]
    | succ j =>
      have half : ∀ r, (2 * r + m / 2 ^ n % 2) / 2 = r := by omega
      rw [Nat.testBit_succ, half, ih, show n + 1 - 1 - (j + 1) = n - 1 - j by omega]
      simp

/-- REV, bit by bit. -/
theorem getLsbD_reverse (w : Bool) (x : Word) {i : Nat} (h : i < 64) :
    (reverse w x).getLsbD i = x.getLsbD (formBits w - 1 - formBit w i) := by
  have inForm : formBit w i < opBits w := formBit_lt h
  have inWord : formBit w i < 64 := Nat.lt_of_lt_of_le inForm (formBits_le w)
  rw [reverse, getLsbD_narrow w _ h, BitVec.getLsbD_ofNat, testBit_foldl_digits, decide_eq_true inForm, decide_eq_true inWord,
    Bool.true_and, Bool.true_and]
  exact testBit_bitsOf w x (show opBits w - 1 - formBit w i < opBits w by omega)

/-! ## Minima and maxima (R86) -/

/-- p is the smaller, compared as unsigned or signed. -/
def smaller {n : Nat} (u : Bool) (p q : BitVec n) : Bool := if u then p.ult q else p.slt q

/-- Where p is not the smaller, either q is or the two are equal: the smaller of the two is the same. -/
theorem ite_smaller_swap {n : Nat} (u : Bool) (p q : BitVec n) :
    (if smaller u p q = false then q else p) = if smaller u q p = true then q else p := by
  cases u with
  | false =>
    simp only [smaller, Bool.false_eq_true, if_false, BitVec.slt, decide_eq_false_iff_not, decide_eq_true_eq]
    rcases lt_trichotomy p.toInt q.toInt with lt | eq | gt
    · rw [if_neg (not_not_intro lt), if_neg (by omega)]
    · rw [BitVec.eq_of_toInt_eq eq, ite_self, ite_self]
    · rw [if_pos (by omega), if_pos gt]
  | true =>
    simp only [smaller, if_true, BitVec.ult, decide_eq_false_iff_not, decide_eq_true_eq]
    rcases lt_trichotomy p.toNat q.toNat with lt | eq | gt
    · rw [if_neg (not_not_intro lt), if_neg (by omega)]
    · rw [BitVec.eq_of_toNat_eq eq, ite_self, ite_self]
    · rw [if_pos (by omega), if_pos gt]

/-- The low 32 bits of a word stand under their sign extension. -/
theorem toNat_sext32_mod (x : Word) : (sext32 x).toNat % 2 ^ 32 = (x.truncate 32).toNat := by
  have low : (sext32 x).setWidth 32 = x.setWidth 32 := by
    refine BitVec.eq_of_getLsbD_eq fun i hi => ?_
    rw [BitVec.getLsbD_setWidth, BitVec.getLsbD_setWidth, getLsbD_sext32 x (by omega), show min i 31 = i by omega]
  rw [← BitVec.toNat_setWidth, low]

theorem toInt_sext32 (x : Word) : (sext32 x).toInt = (x.truncate 32).toInt :=
  BitVec.toInt_signExtend_of_le (by decide)

/-- MINMAX delivers one of its operands, by their order over the form's width (R81, R86). -/
theorem minMax_eq_onForm {hi u w : Bool} {x y : Word} {f : {n : Nat} → BitVec n → BitVec n → BitVec n}
    (h : ∀ {n : Nat} (p q : BitVec n), (if smaller u p q = hi then q else p) = f p q) : minMax hi u w x y = onForm w f x y := by
  cases w with
  | false =>
    have order : (if u then decide (x.toNat % 2 ^ 64 < y.toNat % 2 ^ 64) else decide (x.toInt < y.toInt)) = smaller u x y := by
      rw [Nat.mod_eq_of_lt x.isLt, Nat.mod_eq_of_lt y.isLt]
      rfl
    simp only [minMax, onForm, narrow, opBits, Bool.false_eq_true, if_false, order, h]
  | true =>
    simp only [minMax, onForm, narrow, opBits, if_true, toNat_sext32_mod, toInt_sext32, ← h]
    exact (apply_ite (BitVec.signExtend 64) _ _ _).symm

/-- Settles O2: counts and reversal by the operand's bits, MINMAX by `minMax_eq_onForm`. -/
theorem bitsAndMinMaxResults : Obligations.BitsAndMinMaxResults := by
  intro s g d a b w
  refine ⟨fun h => ⟨_, next_runSlot h rfl, clz_spec w _⟩, fun h => ⟨_, next_runSlot h rfl, ctz_spec w _⟩,
    fun h => next_runSlot h ?popc, fun h => ⟨_, next_runSlot h rfl, fun i hi => getLsbD_reverse w _ hi⟩,
    fun h => next_runSlot h ?min, fun h => next_runSlot h ?max, fun h => next_runSlot h ?minu, fun h => next_runSlot h ?maxu⟩
  case popc => rw [countOnes_eq]
  case min => rw [minMax_eq_onForm fun p q => ite_smaller_swap false p q]; rfl
  case max => rw [minMax_eq_onForm fun p q => rfl]; rfl
  case minu => rw [minMax_eq_onForm fun p q => ite_smaller_swap true p q]; rfl
  case maxu => rw [minMax_eq_onForm fun p q => rfl]; rfl

end Sys2Proof.Machine
end

section
/-! PROOFS. The results of EXT, SEL, BFX, BFI, CMP, COND and FCMP (R87, R88, R90 to R92, R98) and of the scalar float
instructions (R95 to R100). A field is read bit by bit. -/

namespace Sys2Proof.Machine

/-! ## Extensions (R81, R87) -/

/-- The low n bits of a number, sign-extended. -/
theorem sext_eq_signExtend (n m : Nat) : sext n m = (BitVec.ofNat n m).signExtend 64 := by
  simp only [sext, wordOf, signed, BitVec.signExtend, BitVec.toInt, BitVec.toNat_ofNat]

/-- The low n bits of a number, zero-extended. -/
theorem zext_eq_zeroExtend (n m : Nat) : zext n m = (BitVec.ofNat n m).zeroExtend 64 := by
  apply BitVec.eq_of_toNat_eq
  simp only [zext, BitVec.zeroExtend, BitVec.toNat_setWidth, BitVec.toNat_ofNat]

theorem sext_toNat (n : Nat) (x : Word) : sext n x.toNat = (x.truncate n).signExtend 64 := by
  rw [sext_eq_signExtend, BitVec.ofNat_toNat]

theorem zext_toNat (n : Nat) (x : Word) : zext n x.toNat = (x.truncate n).zeroExtend 64 := by
  rw [zext_eq_zeroExtend, BitVec.ofNat_toNat]

/-- Above its n bits a sign-extended field repeats its top bit. -/
theorem getLsbD_sext {n : Nat} (hn : 0 < n) (m : Nat) {i : Nat} (h : i < 64) :
    (sext n m).getLsbD i = m.testBit (if i < n then i else n - 1) := by
  rw [sext_eq_signExtend, BitVec.getLsbD_signExtend, BitVec.msb_eq_getLsbD_last, BitVec.getLsbD_ofNat, BitVec.getLsbD_ofNat]
  by_cases inField : i < n
  · simp [inField, h]
  · simp [inField, h, hn]

/-- Above its n bits a zero-extended field is 0. -/
theorem getLsbD_zext (n m : Nat) {i : Nat} (h : i < 64) : (zext n m).getLsbD i = (decide (i < n) && m.testBit i) := by
  rw [zext, BitVec.getLsbD_ofNat, Nat.testBit_mod_two_pow, decide_eq_true h, Bool.true_and]

/-! ## Bit fields (R88) -/

/-- A descriptor's position is sb[5:0]; its length, sb[13:8] + 1, is cut off at bit 63. -/
theorem fieldOf_eq (v : Word) : fieldOf v = (v.toNat % 64, min (v.toNat / 256 % 64 + 1) (64 - v.toNat % 64)) := by
  simp only [fieldOf, wf, field, Nat.pow_zero, Nat.div_one]
  rfl

/-- BFX, bit by bit: the n bits from p, and above them zeros or the field's top bit. -/
theorem getLsbD_bitExtract {sx : Bool} {x v : Word} {p n : Nat} (descriptor : fieldOf v = (p, n)) (hn : 0 < n) {i : Nat} (h : i < 64) :
    (bitExtract sx x v).getLsbD i = if i < n then x.getLsbD (p + i) else (sx && x.getLsbD (p + n - 1)) := by
  have shifted : ∀ j, (x.toNat / 2 ^ p).testBit j = x.getLsbD (p + j) := fun j => by
    rw [Nat.testBit_div_two_pow, Nat.add_comm]
    rfl
  simp only [bitExtract, descriptor]
  cases sx with
  | false =>
    rw [if_neg Bool.false_ne_true, getLsbD_zext _ _ h, shifted]
    by_cases inField : i < n <;> simp [inField]
  | true =>
    rw [if_pos rfl, getLsbD_sext hn _ h, shifted]
    by_cases inField : i < n
    · simp [inField]
    · simp [inField, Nat.add_sub_assoc hn]

/-- A mask of n ones from position p. -/
theorem testBit_mask (n p i : Nat) : ((2 ^ n - 1) * 2 ^ p).testBit i = decide (p ≤ i ∧ i < p + n) := by
  rw [Nat.testBit_mul_two_pow, Nat.testBit_two_pow_sub_one]
  by_cases above : p ≤ i
  · simp [above, show i - p < n ↔ i < p + n by omega]
  · simp [above]

/-- BFI, bit by bit: the low n bits of x at p, and outside them the old word. -/
theorem getLsbD_bitInsert {old x v : Word} {p n : Nat} (descriptor : fieldOf v = (p, n)) {i : Nat} (h : i < 64) :
    (bitInsert old x v).getLsbD i = if p ≤ i ∧ i < p + n then x.getLsbD (i - p) else old.getLsbD i := by
  simp only [bitInsert, descriptor, BitVec.getLsbD_or, BitVec.getLsbD_and, BitVec.getLsbD_not, BitVec.getLsbD_shiftLeft,
    BitVec.getLsbD_ofNat, testBit_mask, h, decide_true, Bool.true_and]
  by_cases inField : p ≤ i ∧ i < p + n
  · simp [inField]
  · simp [inField]

/-! ## Comparisons (R90, R98) -/

/-- Of a NaN and another value none is the smaller. -/
theorem ltV_of_isNan {a b : FV} (h : (a.isNan || b.isNan) = true) : ltV a b = false := by
  cases a with
  | nan => rfl
  | inf =>
    cases b with
    | nan => rfl
    | inf => cases h
    | fin => cases h
  | fin =>
    cases b with
    | nan => rfl
    | inf => cases h
    | fin => cases h

/-- A NaN equals nothing (R98). -/
theorem eqV_of_isNan {a b : FV} (h : (a.isNan || b.isNan) = true) : eqV a b = false := by
  rw [eqV, ← Bool.not_or, h]
  rfl

/-- FCMP's relation between two values (R98). -/
def fpRelation (r : FcmpRel) (u v : FV) : Bool :=
  match r with
  | .eq => eqV u v | .lt => ltV u v | .le => ltV u v || eqV u v | .un => u.isNan || v.isNan

/-- A comparison with a NaN holds of UN alone (R98). -/
theorem fpRelation_of_isNan {r : FcmpRel} {u v : FV} (h : (u.isNan || v.isNan) = true) (hr : r ≠ .un) : fpRelation r u v = false := by
  cases r with
  | eq => exact eqV_of_isNan h
  | lt => exact ltV_of_isNan h
  | le => rw [fpRelation, ltV_of_isNan h, eqV_of_isNan h, Bool.or_self]
  | un => exact absurd rfl hr

/-- FCMP's result is its relation, and LT and LE signal for every NaN (R98). -/
theorem compareFp_eq (ftz : Bool) (r : FcmpRel) (x y : Word) :
    compareFp ftz r x y =
      let u := unpack fp32 ftz (x.toNat % 2 ^ 32)
      let v := unpack fp32 ftz (y.toNat % 2 ^ 32)
      (fpRelation r u v, cmpFlags u v (r == .lt || r == .le)) := by
  cases r <;> rfl

/-- Settles O3: each instruction writes the value of its function in Alu; the fields' values are read bit by bit. -/
theorem selectFieldAndCompareResults : Obligations.SelectFieldAndCompareResults := by
  refine ⟨fun s g d a b => ?select, fun s g d a b => ?fields, fun s g c a b => ?compare⟩
  case select =>
    refine ⟨fun h => next_runSlot h ?sb, fun h => next_runSlot h ?sh, fun h => next_runSlot h ?sw, fun h => next_runSlot h ?zb,
      fun h => next_runSlot h ?zh, fun h => next_runSlot h ?zw, fun neg c h => next_runSlot h ?sel⟩
    case sb => rw [← sext_toNat]; rfl
    case sh => rw [← sext_toNat]; rfl
    case sw => rw [← sext_toNat]; rfl
    case zb => rw [← zext_toNat]; rfl
    case zh => rw [← zext_toNat]; rfl
    case zw => rw [← zext_toNat]; rfl
    case sel => rw [Bool.bne_eq_xor]
  case fields =>
    intro p n
    have descriptor : fieldOf (rdS s b) = (p, n) := fieldOf_eq _
    have nonempty : 0 < n := by omega
    exact ⟨fun sx h => ⟨_, next_runSlot h rfl, fun i hi => getLsbD_bitExtract descriptor nonempty hi⟩,
      fun h => ⟨_, next_runSlot h rfl, fun i hi => getLsbD_bitInsert descriptor hi⟩⟩
  case compare =>
    refine ⟨fun h => next_runSlot h rfl, fun h => next_runSlot h ?ne, fun h => next_runSlot h rfl, fun h => next_runSlot h ?ge,
      fun h => next_runSlot h rfl, fun h => next_runSlot h ?geu, fun p q table h => next_runSlot h rfl,
      fun r h => ⟨next_runSlot h ?fcmp, fpRelation_of_isNan⟩⟩
    case ne => rw [decide_not]; rfl
    case ge => rw [BitVec.sle_eq_not_slt]; rfl
    case geu => rw [BitVec.ule_eq_not_ult]; rfl
    case fcmp => rw [compareFp_eq]; rfl

/-! ## Float results (R95 to R100) -/

/-- Settles O5: each instruction writes the value of its function in Alu, with the flags that it raises. -/
theorem floatResults : Obligations.FloatResults := by
  intro s g d a b c
  refine ⟨fun h => next_runSlot h rfl, fun h => next_runSlot h rfl, fun h => next_runSlot h rfl, fun h => next_runSlot h rfl,
    fun h => next_runSlot h rfl, fun h => next_runSlot h rfl, fun m => ?_, fun h => next_runSlot h rfl⟩
  exact ⟨fun h => next_runSlot h rfl, fun h => next_runSlot h rfl, fun h => next_runSlot h rfl, fun h => next_runSlot h rfl,
    fun h => next_runSlot h rfl, fun h => next_runSlot h rfl, fun h => next_runSlot h rfl, fun h => next_runSlot h rfl,
    fun h => next_runSlot h rfl, fun h => next_runSlot h rfl⟩

end Sys2Proof.Machine
end

section
/-! PROOFS. Branches, calls and returns (R101 to R103), and the hardware loops: opening a level, leaving it, the end of a pass and
the LOOP traps (R105 to R109). -/

namespace Sys2Proof.Machine

/-! ## Transfers (R101 to R103) -/

/-- A branch that is taken where p holds (R101, R102). -/
theorem effBranch_decide (off : Int) (p : Prop) [Decidable p] (s : State) :
    effBranch off (decide p) s = if p then transfer (branchTarget s off) s else s := by
  by_cases taken : p <;> simp only [effBranch, taken, decide_true, decide_false, Bool.false_eq_true, if_true, if_false]

/-- A branch that is taken where b does not hold (R102). -/
theorem effBranch_not (off : Int) (b : Bool) (s : State) :
    effBranch off (!b) s = if b = true then s else transfer (branchTarget s off) s := by
  cases b <;> rfl

/-- Settles O10: each instruction is the transfer that its row names, under its condition. -/
theorem branchResults : Obligations.BranchResults := by
  intro s c sense d a
  refine ⟨fun off h => next_runSlot h rfl, fun off h => next_runSlot h ?bc, fun off h => next_runSlot h ?bpend,
    fun off h => next_runSlot h ?bnpend, fun off h => next_runSlot h rfl, fun h => next_runSlot h rfl, fun h => next_runSlot h rfl,
    fun h => next_runSlot h rfl, fun h => next_runSlot h rfl, fun target => ⟨OnlyCtx.modCtx _ _ _, ctx_modCtx_self _ _ _⟩⟩
  case bc => exact effBranch_decide off.signed (rdC s c = sense) s
  case bpend => rfl
  case bnpend => exact effBranch_not off.signed _ s

/-! ## The depth of the loops (R105) -/

/-- The depth is that of the first level whose count is 0, or 4 where no count is. -/
theorem loopDepth_spec (c : Ctx) :
    loopDepth c ≤ 4 ∧ (∀ n, n < loopDepth c → vget c.lct n ≠ 0) ∧ (loopDepth c < 4 → vget c.lct (loopDepth c) = 0) := by
  obtain ⟨le, opened, closed⟩ := find?_upTo_getD (fun n => vget c.lct n == 0) 4
  exact ⟨le, fun n below => beq_eq_false_iff_ne.mp (opened n below), fun room => eq_of_beq (closed room)⟩

theorem atLoopEnd_iff (c : Ctx) :
    atLoopEnd c = true ↔ loopDepth c ≠ 0 ∧ aligned c.pc = aligned (vget c.lea (loopDepth c - 1)) := by
  simp only [atLoopEnd, Bool.and_eq_true, bne_iff_ne, beq_iff_eq]

/-! ## Opening a level (R106) -/

/-- A LOOP with a count that is not 0 opens its level; one with a count of 0 passes over the body. -/
theorem effLoop_eq (level : BitVec 2) (stop : BitVec 12) (n : Word) (s : State) :
    effLoop level stop n s =
      let last := (me s).pc + BitVec.ofNat 64 (8 * stop.toNat)
      if n = 0 then transfer (last + 8) s else s.modCtx s.cur fun c => { c with
        lsa := vset c.lsa level.toNat ((me s).pc + 8), lea := vset c.lea level.toNat last, lct := vset c.lct level.toNat n } := by
  have target : branchTarget s stop.toNat = (me s).pc + BitVec.ofNat 64 (8 * stop.toNat) := by
    rw [branchTarget, wordOf, ← BitVec.ofInt_natCast, Nat.cast_mul, Nat.cast_ofNat]
    rfl
  simp only [effLoop, target]
  rfl

/-- An immediate count is below 2^64: it is 0 as a word just where it is 0. -/
theorem ofNat_unsigned_eq_zero (cnt : Imm 7) : BitVec.ofNat 64 cnt.unsigned = 0 ↔ cnt.unsigned = 0 := by
  have small : cnt.unsigned < 2 ^ 64 := by
    cases cnt with
    | short v => exact Nat.lt_trans v.isLt (by decide)
    | lone v => exact Nat.lt_trans v.isLt (by decide)
  rw [← BitVec.toNat_inj, BitVec.toNat_ofNat, Nat.mod_eq_of_lt small]
  rfl

/-! ## The end of a pass (R107) -/

/-- Where no pass ends, nothing changes: outside a loop, away from the end bundle, or behind a taken transfer. -/
theorem loopPass_of_not {k : Nat} {pre : Ctx} {s : State} (h : atLoopEnd pre = false ∨ (s.ctx k).taken = true) (a : Instr) :
    loopPass k pre a s = s := by
  rcases h with h | h <;> simp [loopPass, h]

/-- A pass that ends changes its context's count and next PC. -/
theorem loopPass_ends {k n : Nat} {pre : Ctx} {s : State} (depth : loopDepth pre = n + 1) (straight : (s.ctx k).taken = false)
    (atEnd : aligned pre.pc = aligned (vget pre.lea n)) (a : Instr) :
    loopPass k pre a s = s.modCtx k fun x => { x with
      lct := if writesCount a n then x.lct else vset x.lct n (vget pre.lct n - 1)
      npc := if vget pre.lct n - 1 = 0 then x.npc else aligned (vget pre.lsa n) } := by
  have ends : atLoopEnd pre = true := (atLoopEnd_iff pre).mpr ⟨by omega, by rw [depth]; exact atEnd⟩
  simp only [loopPass, ends, straight, depth, Bool.not_true, Bool.or_self, Bool.false_eq_true, if_false, Nat.add_sub_cancel]

/-- The counts after a pass: the active level's falls by 1, unless the end bundle writes it, and every other stands. -/
theorem vget_lct_loopPass {k n : Nat} {pre : Ctx} {s : State} (depth : loopDepth pre = n + 1) (straight : (s.ctx k).taken = false)
    (atEnd : aligned pre.pc = aligned (vget pre.lea n)) (a : Instr) (m : Nat) :
    vget ((loopPass k pre a s).ctx k).lct m =
      if m = n ∧ writesCount a n = false then vget pre.lct n - 1 else vget (s.ctx k).lct m := by
  have inRange : n < 4 := by have := (loopDepth_spec pre).1; omega
  rw [loopPass_ends depth straight atEnd, ctx_modCtx_self]
  cases writes : writesCount a n with
  | false => simp [vget_vset, inRange]
  | true => simp

/-- Slot A writes a level's count where it is a control-register access that writes its number, 0x28 + n (R19, R284). -/
theorem writesCount_iff (a : Instr) (n : Nat) : writesCount a n = true ↔
    ∃ d x m, (a = .csrw d x m ∨ (x ≠ 0 ∧ (a = .csrs d x m ∨ a = .csrc d x m))) ∧ m.toNat = 0x28 + n := by
  unfold writesCount
  fun_cases csrForm a with
  | case1 d m => simp [csrWrites]
  | case2 d x m => simp [csrWrites]
  | case3 d x m => simp [csrWrites]
  | case4 d x m => simp [csrWrites]
  | case5 _ notCsrr notCsrw notCsrs notCsrc =>
    refine iff_of_false Bool.false_ne_true ?_
    rintro ⟨d, x, m, csrw | ⟨-, csrs | csrc⟩, -⟩
    · exact notCsrw d x m csrw
    · exact notCsrs d x m csrs
    · exact notCsrc d x m csrc

/-! ## The LOOP traps (R106, R108, R109) -/

/-- What a LOOP or LOOPI of a level traps on, in the order of its checks. -/
theorem loopTrap_loop (c : Ctx) (level : BitVec 2) (stop : BitVec 12) (a : SReg) :
    loopTrap c (.loop level stop a) =
      if loopDepth c = 4 then some (trapOf causeLoop 1 0) else if level.toNat ≠ loopDepth c then some (trapOf causeLoop 2 0)
      else if loopDepth c ≠ 0 ∧ aligned c.pc = aligned (vget c.lea (loopDepth c - 1)) then some (trapOf causeLoop 4 0) else none := by
  simp only [← atLoopEnd_iff]
  rfl

/-- Settles O11: openings by `effLoop_eq`, the depth by `loopDepth_spec`, passes by `loopPass_ends`, traps by `loopTrap_loop`. -/
theorem loopRules : Obligations.LoopRules := by
  refine ⟨fun s level stop => ⟨fun a h => next_runSlot h ?loop, fun cnt h => next_runSlot h ?loopi, fun h => next_runSlot h rfl⟩,
    ⟨loopDepth_spec, fun s k pre a h => loopPass_of_not ?noPass a, fun s k n pre a depth straight => ⟨fun away => ?away, fun atEnd => ?pass⟩,
      writesCount_iff⟩,
    fun c level stop a cnt => ⟨loopTrap_loop c level stop a, loopTrap_loop c level stop a, rfl⟩⟩
  case loop => exact effLoop_eq level stop _ s
  case loopi =>
    rw [effLoop_eq]
    simp only [ofNat_unsigned_eq_zero]
  case noPass =>
    refine h.imp_left fun outside => ?_
    simp only [atLoopEnd, outside, bne_self_eq_false, Bool.false_and]
  case away =>
    refine loopPass_of_not (.inl ?_) a
    rw [← Bool.not_eq_true, atLoopEnd_iff, depth]
    exact fun ends => away ends.2
  case pass =>
    refine ⟨?only, ?active, fun m other => ?others, ?next⟩
    case only => rw [loopPass_ends depth straight atEnd]; exact OnlyCtx.modCtx _ _ _
    case active =>
      rw [vget_lct_loopPass depth straight atEnd]
      cases writesCount a n <;> simp
    case others => rw [vget_lct_loopPass depth straight atEnd, if_neg fun same => other same.1]
    case next =>
      rw [loopPass_ends depth straight atEnd, ctx_modCtx_self]
      simp only [sub_eq_zero]

end Sys2Proof.Machine
end

section
/-! PROOFS. The accesses that the scalar loads and stores and the atomic forms issue (R110, R115 to R119, R121, R124, R127), and the
words that atomic operations leave (R41, R119, R121, R124). -/

namespace Sys2Proof.Machine

/-- A memory instruction that runs issues its accesses (R110 to R133). -/
theorem exec_issues {i : Instr} {s : State} (h : Runs i s) (hexec : ∀ s, exec i s = .next (runSlot i (effMem i) s)) {ops : List MemOp}
    (hops : memOps s s.cur (me s) i = ops) : exec i s = .next (issueOps ops s) := by
  rw [hexec, runSlot_runs h, effMem, hops]

/-- Settles O17: `exec_issues`, with the accesses that `memOps` lists for each form. -/
theorem loadsAndStoresIssue : Obligations.LoadsAndStoresIssue := by
  refine ⟨fun s d a => ⟨fun m off h => ?_, fun z u sc off h => ?_, fun off h => ?_, fun sc off h => ?_, fun z k off h => ?_, fun w off h => ?_⟩,
    fun s d a => ⟨fun z off h => ?_, fun z sc off h => ?_, fun off h => ?_, fun sc off h => ?_, fun z k off h => ?_, fun w off h => ?_⟩⟩
  case refine_1 => cases m <;> exact exec_issues h (fun _ => rfl) rfl
  all_goals exact exec_issues h (fun _ => rfl) rfl

/-! ## The new word of an integer operation -/

/-- The signed reading of n bits is the integer of their vector. -/
theorem signed_eq_toInt (n x : Nat) : signed n x = (BitVec.ofNat n x).toInt := by
  rw [BitVec.toInt_eq_toNat_cond, BitVec.toNat_ofNat]; rfl

/-- A choice between two numbers of n bits, made on their vectors. -/
theorem toNat_ite_ofNat {n x y : Nat} (hx : x < 2 ^ n) (hy : y < 2 ^ n) (p : Bool) :
    (if p then BitVec.ofNat n y else BitVec.ofNat n x).toNat = if p then y else x := by
  cases p
  · exact Nat.mod_eq_of_lt hx
  · exact Nat.mod_eq_of_lt hy

/-! ## AFMAX and AFMIN -/

/-- An FP32 zero is the pattern of its sign alone. -/
theorem zeroBits_of_isZero {x : Nat} (hx : x < 2 ^ 32) (h : (unpack fp32 false x).isZero = true) :
    zeroBits fp32 (unpack fp32 false x).neg = x := by
  simp only [unpack, fp32, Nat.reduceAdd, Nat.reducePow, Nat.reduceSub, Bool.false_eq_true, if_false] at h ⊢
  by_cases hmax : x / 8388608 % 256 = 255
  · by_cases hfrac : x % 8388608 = 0 <;> simp [hmax, hfrac, FV.isZero] at h
  · by_cases hexp : x / 8388608 % 256 = 0
    · simp only [hexp, Nat.reduceEqDiff, if_false, if_true, FV.isZero, beq_iff_eq] at h
      simp only [hexp, Nat.reduceEqDiff, if_false, if_true, FV.neg, zeroBits, Fmt.sign]
      by_cases hneg : x / 2147483648 % 2 = 1 <;> simp only [hneg, decide_true, decide_false, Bool.false_eq_true, if_true, if_false] <;> omega
    · simp only [hmax, hexp, if_false, FV.isZero, beq_iff_eq] at h
      omega

/-- With FTZ 0 an operand of AFMAX or AFMIN is delivered as it stands. -/
theorem delivered_eq {x : Nat} (hx : x < 2 ^ 32) :
    (if (unpack fp32 false x).isZero then zeroBits fp32 (unpack fp32 false x).neg else x) = x := by
  split
  · exact zeroBits_of_isZero hx ‹_›
  · rfl

theorem isSig_of_not_nan {a : FV} (h : a.isNan = false) : a.isSig = false := by
  cases a
  · cases h
  all_goals rfl

/-- What AFMAX (hi) and AFMIN leave and raise, by the NaNs among the two operands (R41, R121). -/
theorem fext_cases (hi : Bool) {x v : Nat} (hx : x < 2 ^ 32) : let y := v % 2 ^ 32
    let a := unpack fp32 false x
    let b := unpack fp32 false y
    let r := redNew.fext x v hi
    (a.isNan = true → b.isNan = true → r.1 = none) ∧ (a.isNan = true → b.isNan = false → r.1 = some y) ∧
    (a.isNan = false → b.isNan = true → r.1 = some x) ∧
    (a.isNan = false → b.isNan = false → r = (some (if hi then (if ltZ a b then y else x) else if ltZ b a then y else x), 0)) := by
  have hy : v % 2 ^ 32 < 2 ^ 32 := Nat.mod_lt _ (Nat.two_pow_pos _)
  refine ⟨fun ha hb => ?_, fun ha hb => ?_, fun ha hb => ?_, fun ha hb => ?_⟩ <;>
    simp only [redNew.fext, fminmax, delivered_eq hx, delivered_eq hy, ha, hb, Bool.and_self, Bool.and_false, Bool.and_true,
      Bool.false_eq_true, if_true, if_false]
  rw [isSig_of_not_nan ha, isSig_of_not_nan hb]
  cases hi <;> rfl

/-- Settles O18: `exec_issues` for the forms, and what `rmwNew` leaves of a word for each operation. -/
theorem atomicOperations : Obligations.AtomicOperations := by
  refine ⟨fun s d a w sc k z off => ?_, fun n x v e hn hx => ?_⟩
  · refine ⟨fun h => ?_, fun kk o h => ?_, fun h => ?_, fun h => ?_, fun h => ?_, fun h => ?_, fun h => ?_, fun h => ?_, fun h => ?_,
      fun h => ?_, fun h => ?_, fun h => ?_, fun h => ?_, fun h => ?_, fun op h => ?_, fun h => ?_, fun h => ?_⟩
    all_goals exact exec_issues h (fun _ => rfl) rfl
  · have hy : v.toNat % 2 ^ (8 * n) < 2 ^ (8 * n) := Nat.mod_lt _ (Nat.two_pow_pos _)
    have hV : BitVec.ofNat (8 * n) v.toNat = BitVec.ofNat (8 * n) (v.toNat % 2 ^ (8 * n)) := by
      apply BitVec.eq_of_toNat_eq; simp
    refine ⟨rfl, rfl, ?_, ?_, ?_, ?_, ?_, ?_, ?_, ?_, ?_⟩ <;> simp only [hV]
    · simp [rmwNew, redNew]
    · simp [rmwNew, redNew, Nat.mod_eq_of_lt hx]
    · simp [rmwNew, redNew, Nat.mod_eq_of_lt hx]
    · simp [rmwNew, redNew, Nat.mod_eq_of_lt hx]
    · rw [toNat_ite_ofNat hx hy]
      simp [rmwNew, redNew, signed_eq_toInt, BitVec.slt]
    · rw [toNat_ite_ofNat hx hy]
      simp [rmwNew, redNew, signed_eq_toInt, BitVec.slt]
    · rw [toNat_ite_ofNat hx hy]
      simp only [rmwNew, redNew, BitVec.ult, BitVec.toNat_ofNat, Nat.mod_mod, Nat.mod_eq_of_lt hx, decide_eq_true_eq]
      congr 2; split <;> omega
    · rw [toNat_ite_ofNat hx hy]
      simp only [rmwNew, redNew, BitVec.ult, BitVec.toNat_ofNat, Nat.mod_mod, Nat.mod_eq_of_lt hx, decide_eq_true_eq]
      congr 2; split <;> omega
    · rintro rfl
      obtain ⟨maxTwo, maxOld, maxNew, maxNone⟩ := fext_cases true (v := v.toNat) hx
      obtain ⟨minTwo, minOld, minNew, minNone⟩ := fext_cases false (v := v.toNat) hx
      exact ⟨rfl, fun ha hb => ⟨maxTwo ha hb, minTwo ha hb⟩, fun ha hb => ⟨maxOld ha hb, minOld ha hb⟩,
        fun ha hb => ⟨maxNew ha hb, minNew ha hb⟩, fun ha hb => ⟨maxNone ha hb, minNone ha hb⟩⟩

end Sys2Proof.Machine
end

section
/-! PROOFS. Tile transfers, WAITW, FENCE, and SPILL and FILL inside one bank of the carve-out (R125, R129 to R133, R302). -/

namespace Sys2Proof.Machine

/-! ## Tile rows -/

/-- The accesses to named rows of a tile that the context has: one for each row (R14, R130). -/
theorem filterMap_keyOf {s : State} {k : Nat} {c : Ctx} {t : TReg} {pt : Nat} (h : tileOf s k c t.toNat = some pt) (f : Nat → Nat → MemOp)
    (l : List Nat) : l.filterMap (fun i => (keyOf s k c (t, i)).map (f i)) = l.map fun i => f i (16 * pt + i) := by
  have hkey (i : Nat) : (keyOf s k c (t, i)).map (f i) = some (f i (16 * pt + i)) := by
    simp only [keyOf, h, Option.map_some, rowKey, Nat.mul_comm]
  simp only [hkey, List.filterMap_eq_map']

/-! ## Stack slots -/

section
variable {c : Ctx} {lo : Word} {m : Nat}

/-- m slots from lo on lie in one bank of the carve-out (R133, R302). -/
structure OneBank (c : Ctx) (lo : Word) (m : Nat) : Prop where
  window : isLocal lo = true
  above : c.spbase.toNat ≤ lo.toNat
  below : lo.toNat + 8 * m ≤ c.spbase.toNat + c.spsize.toNat
  bank : lo.toNat / 8192 = (lo.toNat + 8 * m - 1) / 8192

variable (h : OneBank c lo m) {j : Nat} (hj : j < m)
include h

theorem OneBank.div_eq : lo.toNat / 2 ^ 57 = 0x7E := by
  have hw := h.window
  simp only [isLocal, wf, field, beq_iff_eq] at hw
  omega

include hj

/-- Slot j stands 8 j bytes above the first. -/
theorem OneBank.slot_toNat : (lo + BitVec.ofNat 64 (8 * j)).toNat = lo.toNat + 8 * j := by
  have hd := h.div_eq
  have hb := h.bank
  rw [BitVec.toNat_add, BitVec.toNat_ofNat]
  omega

theorem OneBank.slotOf_eq : slotOf c (lo + BitVec.ofNat 64 (8 * j)) = .ok (lo + BitVec.ofNat 64 (8 * j)) := by
  have ha := h.above
  have hb := h.below
  rw [slotOf, h.slot_toNat hj]
  exact if_pos ⟨by omega, by omega⟩

theorem OneBank.joinRun_eq (first : Nat) : joinRun [⟨lo, first, j⟩] j (lo + BitVec.ofNat 64 (8 * j)) = [⟨lo, first, j + 1⟩] := by
  have hd := h.div_eq
  have hb := h.bank
  have hx := h.slot_toNat hj
  refine if_pos ⟨?_, rfl, ?_⟩
  · simp only [wf, field, hx]; omega
  · show _ / 8192 = lo.toNat / 8192
    rw [hx]; omega

end

/-- The slots are one run (R302). -/
theorem OneBank.slotRuns_eq {c : Ctx} {lo : Word} {m : Nat} (h : OneBank c lo m) {x : Nat → Word}
    (hx : ∀ j, j < m → x j = lo + BitVec.ofNat 64 (8 * j)) {n : Nat} (hn : n < m) : slotRuns c x (n + 1) = [⟨lo, 0, n + 1⟩] := by
  induction n with
  | zero =>
    have hs := h.slotOf_eq hn
    simp only [slotRuns, upTo, List.range_succ, List.range_zero, List.nil_append, List.foldl_cons, List.foldl_nil, hx 0 hn, hs]
    simp [joinRun]
  | succ n ih =>
    have ih := ih (by omega)
    unfold slotRuns upTo at ih ⊢
    rw [List.range_succ, List.foldl_append, ih]
    simp only [List.foldl_cons, List.foldl_nil, hx _ hn, h.slotOf_eq hn, h.joinRun_eq hn]

/-- The bits of a run of registers, the first lowest. -/
theorem getLsbD_runData (c : Ctx) (d : SReg) (ea : Word) (first n i : Nat) (hi : i < 2048) : (runData c d ⟨ea, first, n⟩).getLsbD i =
    (decide (i < 64 * n) && (c.rd (d + BitVec.ofNat 5 (first + i / 64))).getLsbD (i % 64)) := by
  unfold runData upTo
  simp only
  induction n with
  | zero => simp
  | succ n ih =>
    rw [List.range_succ, List.foldl_append, List.foldl_cons, List.foldl_nil, BitVec.getLsbD_or, ih, BitVec.getLsbD_shiftLeft,
      BitVec.getLsbD_setWidth]
    by_cases hn : i < 64 * n
    · simp [hn, (show i < 64 * (n + 1) by omega)]
    · by_cases hn' : i < 64 * (n + 1)
      · have hdiv : i / 64 = n := by omega
        have hmod : i - 64 * n = i % 64 := by omega
        simp [hn, hn', hi, hdiv, hmod, (show i % 64 < 2048 by omega)]
      · simp [hn, hn', BitVec.getLsbD_of_ge _ (i - 64 * n) (show 64 ≤ i - 64 * n by omega)]

/-- Word i of a run is its register i. -/
theorem extractLsb'_runData (c : Ctx) (d : SReg) (ea : Word) {n i : Nat} (hn : n ≤ 32) (hi : i < n) :
    (runData c d ⟨ea, 0, n⟩).extractLsb' (64 * i) 64 = c.rd (d + BitVec.ofNat 5 i) := by
  apply BitVec.eq_of_getLsbD_eq
  intro j hj
  rw [BitVec.getLsbD_extractLsb', getLsbD_runData _ _ _ _ _ _ (by omega)]
  have hdiv : (64 * i + j) / 64 = i := by omega
  have hmod : (64 * i + j) % 64 = j := by omega
  have hlt : 64 * i + j < 64 * n := by omega
  simp only [hj, hlt, decide_true, Bool.true_and, Nat.zero_add, hdiv, hmod]

/-- A SPILL inside one bank is one write below s31 (R133, R302). -/
theorem memOps_spill {s : State} {k : Nat} {c : Ctx} {d : SReg} {n : BitVec 3} {lo : Word} (h : OneBank c lo (n.toNat + 1))
    (hlo : lo = c.rd 31 - BitVec.ofNat 64 (8 * (n.toNat + 1))) : memOps s k c (.spill d n) = [{
      ea := lo, n := 8 * (n.toNat + 1), acc := .write (8 * (n.toNat + 1)) (runData c d ⟨lo, 0, n.toNat + 1⟩), align := 8 }] := by
  have hslot : ∀ j, j < n.toNat + 1 → spillAddr c (n.toNat + 1) j = lo + BitVec.ofNat 64 (8 * j) := by
    intro j hj
    rw [hlo, spillAddr]
    rw [show 8 * (n.toNat + 1) = 8 * (n.toNat + 1 - j) + 8 * j by omega, BitVec.ofNat_add, ← sub_sub, sub_add_cancel]
  have hruns := h.slotRuns_eq hslot (Nat.lt_succ_self _)
  simp only [memOps, hruns, List.map_cons, List.map_nil]

/-- A FILL inside one bank is one read from s31 up (R133, R302). -/
theorem memOps_fill {s : State} {k : Nat} {c : Ctx} {d : SReg} {n : BitVec 3} (h : OneBank c (c.rd 31) (n.toNat + 1)) :
    memOps s k c (.fill d n) = [{
      ea := c.rd 31, n := 8 * (n.toNat + 1), acc := .read (8 * (n.toNat + 1)), dest := .regs d (n.toNat + 1), align := 8 }] := by
  have hruns := h.slotRuns_eq (x := fillAddr c) (fun _ _ => rfl) (Nat.lt_succ_self _)
  simp only [memOps, hruns, List.map_cons, List.map_nil]
  rw [show d + BitVec.ofNat 5 0 = d from BitVec.add_zero d]

/-- Slots inside the window keep their access as it is (R133). -/
theorem effSpill_local {i : Instr} {s : State} {op : MemOp} (hops : memOps s s.cur (me s) i = [op]) (hl : isLocal op.ea = true) (n : Nat) (up : Bool) :
    effSpill i n up s = wrS 31 (if up then (me s).rd 31 + BitVec.ofNat 64 (8 * n) else (me s).rd 31 - BitVec.ofNat 64 (8 * n)) (issueOps [op] s) := by
  simp [effSpill, hops, hl]

theorem slotOf_eq (c : Ctx) (x : Word) :
    let b := c.spbase.toNat
    let top := b + c.spsize.toNat
    slotOf c x =
      if b ≤ x.toNat ∧ x.toNat < top then .ok x
      else if c.spovf ≠ 0 ∧ x.toNat < b ∧ b ≤ x.toNat + 2 ^ 18 then .ok (c.spovf - (c.spbase - x))
      else if top ≤ x.toNat then .error 2 else .error 1 := by
  have swap : (c.spovf ≠ 0 ∧ c.spbase.toNat ≤ x.toNat + 2 ^ 18 ∧ x.toNat < c.spbase.toNat) =
      (c.spovf ≠ 0 ∧ x.toNat < c.spbase.toNat ∧ c.spbase.toNat ≤ x.toNat + 2 ^ 18) := by rw [and_comm (a := _ ≤ _)]
  simp only [slotOf, swap, apply_ite Except.error]

/-- Settles O19: the rows by `filterMap_keyOf`, the stack slots by `OneBank.slotRuns_eq`. -/
theorem tilesWaitsFencesAndStack : Obligations.TilesWaitsFencesAndStack := by
  refine ⟨fun s t a b r off pt ht => ⟨fun h => ?_, fun h => ?_, fun h => ?_, fun h => ?_, rfl⟩,
    fun s d a => ⟨fun z h => ?_, fun k sc h => ?_, fun k c kd sc h => ?_, fun n => ⟨fun h hin => ?_, fun h hin => ?_⟩, slotOf_eq⟩⟩
  · exact exec_issues h (fun _ => rfl) ((filterMap_keyOf ht _ _).trans (by cases off <;> rfl))
  · exact exec_issues h (fun _ => rfl) ((filterMap_keyOf ht _ _).trans (by cases off <;> rfl))
  · exact exec_issues h (fun _ => rfl) ((filterMap_keyOf ht _ _).trans (by cases off <;> rfl))
  · refine exec_issues h (fun _ => rfl) ((filterMap_keyOf ht _ _).trans ?_)
    rw [signed_toNat]
    rfl
  · exact next_runSlot h rfl
  · exact next_runSlot h rfl
  · have hw : waitsFlush c (.fence kd sc) = true := by
      rcases h with h | h <;> simp [waitsFlush, isReporting, unflushed, h]
    simp [mustWait, hw]
  · obtain ⟨hwin, habove, hbelow, hbank⟩ := hin
    have hone : OneBank (me s) _ _ := ⟨hwin, habove, hbelow, hbank⟩
    exact ⟨_, next_runSlot h (effSpill_local (memOps_spill hone rfl) hwin _ false), fun i hi => extractLsb'_runData _ _ _ (by omega) hi⟩
  · obtain ⟨hwin, habove, hbelow, hbank⟩ := hin
    have hone : OneBank (me s) _ _ := ⟨hwin, habove, hbelow, hbank⟩
    exact next_runSlot h (effSpill_local (memOps_fill hone) hwin _ true)

end Sys2Proof.Machine
end

section
/-! PROOFS. Waits that end with a time: WAITT, WFI, WAITW's deadline and CWAIT (R126, R288, R292, R374, R426). -/

namespace Sys2Proof.Machine

/-! ## The dial's parks (R288, R292) -/

/-- A parked context as it goes on (R9). -/
def Ctx.resumed (c : Ctx) : Ctx := { c with status := if c.h then .stopped else .ready, park := .none }

/-- A wait for a dial time ends exactly when the time has come (R9). -/
theorem settle_parked {s : State} {k : Nat} {w : Word} (hs : (s.ctx k).status = .parked)
    (hp : (s.ctx k).park = .waitt w ∨ (s.ctx k).park = .wfi w) :
    settle k s = if parkOver s k (s.ctx k).park then s.modCtx k Ctx.resumed else s := by
  have hu : unpark k s = s.modCtx k Ctx.resumed := by simp [unpark, State.modCtx, hs, Ctx.resumed, Ctx.rested]
  rcases hp with hp | hp <;> simp only [settle, hs, hp, true_and, hu]

/-! ## WAITW (R126) -/

/-- The one registration of a context is the one whose deadline is found to have passed. -/
theorem find?_of_unique {α : Type} {l : List α} {f : α → Bool} {w : α} (hw : w ∈ l) (hf : f w = true) (h : ∀ x ∈ l, f x = true → x = w) :
    l.find? f = some w := by
  cases e : l.find? f with
  | none => exact absurd hf (by simpa using List.find?_eq_none.mp e w hw)
  | some x => rw [h x (List.mem_of_find?_eq_some e) (List.find?_some e)]

/-- A context's waiter that is woken: its request is over and its value lands (R125). -/
theorem wake_ctx {s : State} {k q n : Nat} {w : Registered} {r : Req} {d : SReg} {sg : Bool} (hwho : w.who = .ctx k q)
    (hr : (s.ctx k).reqs.find? (fun x => x.seq = q) = some r) (hd : r.dest = .reg d n sg) (bank : Option Nat) (v : Nat) :
    wake bank w v s = queueLanding k (wakeLanding (hears s bank k) bank.isSome w.bad d v)
      (s.modCtx k fun c => { c with reqs := c.reqs.filter fun r => r.seq ≠ q }) := by
  simp only [wake, hwho, hr, hd]
  rfl

/-- A registered WAITW whose deadline has passed ends with TIMEOUT (R126). -/
theorem effWaitwTimeout_ends {s : State} {k q n : Nat} {w : Registered} {r : Req} {d : SReg} {sg : Bool} (hw : w ∈ allRegistered s)
    (hwho : w.who = .ctx k q) (h0 : w.deadline ≠ 0) (hdue : w.deadline.toNat ≤ dialOf s k)
    (hone : ∀ x ∈ allRegistered s, (∃ j, x.who = .ctx k j) → x = w) (hr : (s.ctx k).reqs.find? (fun x => x.seq = q) = some r)
    (hd : r.dest = .reg d n sg) : effWaitwTimeout k s = queueLanding k (wakeLanding s.cycle false w.bad d 5)
      ((unregister (fun x => x.who == w.who) s).modCtx k fun c => { c with reqs := c.reqs.filter fun r => r.seq ≠ q }) := by
  have hfind : (allRegistered s).find? (fun x => x.deadline != 0 && x.deadline.toNat ≤ dialOf s k && x.of k) = some w := by
    refine find?_of_unique hw (by simp [show ¬w.deadline = 0#64 from h0, hdue, Registered.of, hwho]) fun x hx hf => hone x hx ?_
    have hof : x.of k = true := (Bool.and_eq_true_iff.mp hf).2
    unfold Registered.of at hof
    split at hof
    · next j q' e => exact ⟨q', by rw [e, beq_iff_eq.mp hof]⟩
    · cases hof
  have hctx : (unregister (fun x => x.who == w.who) s).ctx k = s.ctx k := by rw [unregister_eq]; rfl
  have hcycle : (unregister (fun x => x.who == w.who) s).cycle = s.cycle := by rw [unregister_eq]
  simp only [effWaitwTimeout, hfind]
  rw [wake_ctx hwho (by rw [hctx]; exact hr) hd, hears, hcycle]
  rfl

/-! ## CWAIT (R426) -/

/-- What a trap with no closure running leaves of its context (R277). -/
theorem enterTrap_ctx {t : TrapInfo} {k : Nat} {s : State} (hrun : (s.ctx k).running = none) (hfull : t.cause ≠ causeTrayFull) :
    (enterTrap t k s).ctx k = { s.ctx k with
      redo := redoOf (s.ctx k), gang := (s.ctx k).gang.filter (·.formed), nextIssue := max (s.ctx k).nextIssue (fixedDone (s.ctx k))
      xcause := t.cause, xsub := t.sub, xaddr := t.addr, xpc := trapPc (s.ctx k), xstat := t.stat.getD (s.ctx k).xstat
      h := true, mode := (s.ctx k).mode ||| 0x40, pc := (s.core (coreOf k)).stvec, npc := (s.core (coreOf k)).stvec, taken := true
      exiting := false, failure := if (s.ctx k).failure = some t then none else (s.ctx k).failure
      after := none, leader := none, lastLeader := (s.ctx k).leader <|> (s.ctx k).lastLeader, backlog := []
      status := .stopped, park := .none } := by
  unfold enterTrap
  simp only [hrun, if_neg hfull]
  generalize hu : (if (s.ctx k).park = .gang then unarrive (coreOf k / 4) (arrivedBy k) s else s) = u
  have huctx : u.ctx k = s.ctx k := by
    rw [← hu]
    split
    · rw [unarrive_eq]; rfl
    · rfl
  have hustvec : (u.core (coreOf k)).stvec = (s.core (coreOf k)).stvec := by
    rw [← hu]
    split
    · exact unarrive_stvec _ _ _ _
    · rfl
  have hlatent (p : Prop) [Decidable p] (core code : Nat) (a b : Word) (v : State) : (if p then latentCore core code a b v else v).ctx k = v.ctx k := by
    split
    · exact latentCore_ctx _ _ _ _ _ _
    · rfl
  rw [latentCore_ctx, hlatent, yieldCore_ctx_rests (by rw [ctx_modCtx_self]; nofun), ctx_modCtx_self, huctx, hustvec]
  simp only [hrun, Option.isSome_none, Bool.false_eq_true, if_false]

/-- The mark that a timed-out wait leaves in its domain (R426). -/
def barMarked (k : Nat) (dom : Domain) (p : Nat) (s : State) : State := s.modCtx k fun c => c.setBar dom fun b => { b with timedOut := some p }

section
variable {s : State} {k p : Nat} {dom : Domain} (hp : (s.ctx k).park = .barPhase dom p)
include hp

/-- A wait on a phase does not end early, nor without CWAIT, nor once the phase is complete (R426). -/
theorem effCwaitTimeout_waits (h : cwaitOf s k = 0 ∨ dialOf s k < (s.ctx k).parkAt + cwaitOf s k ∨ p < doneFor s k dom) :
    effCwaitTimeout k s = s := by
  unfold effCwaitTimeout
  dsimp only
  split
  · rfl
  · next hn =>
    have hover : parkOver s k (s.ctx k).park = true := by
      rw [hp]
      exact decide_eq_true ((h.resolve_left fun e => hn (.inr (.inl e))).resolve_left fun e => hn (.inr (.inr (.inl e))))
    rw [if_pos (.inl hover)]

/-- A wait that outlasts CWAIT with its phase incomplete traps TIMEOUT (R426). -/
theorem effCwaitTimeout_traps (hs : (s.ctx k).status = .parked) (hrun : (s.ctx k).running = none) (hh : (s.ctx k).h = false)
    (hw : cwaitOf s k ≠ 0) (hlate : (s.ctx k).parkAt + cwaitOf s k ≤ dialOf s k) (hdone : ¬ p < doneFor s k dom) :
    effCwaitTimeout k s = enterTrap (trapOf causeTimeout 1 (BitVec.ofNat 64 (domCode dom))) k (barMarked k dom p s) := by
  have hgo : ¬ ((s.ctx k).status ≠ .parked ∨ cwaitOf s k = 0 ∨ dialOf s k < (s.ctx k).parkAt + cwaitOf s k ∨ (s.ctx k).running.isSome = true) := by
    simp only [hs, hrun, hw, ne_eq, not_true_eq_false, Option.isSome_none, Bool.false_eq_true, or_false, false_or, not_lt]
    exact hlate
  have hopen : ¬ (parkOver s k (s.ctx k).park = true ∨ ((s.ctx k).park.again = true ∧ (parksFor s k).isNone = true)) := by
    rw [hp]
    simp [parkOver, hdone, Park.again]
  unfold effCwaitTimeout
  dsimp only
  rw [if_neg hgo, if_neg hopen]
  simp only [timeoutOf, hp]
  exact takeTrap_enters _ (by rw [ctx_modCtx_self]; exact hh)

end

/-- Settles O32: `settle_parked` for the dial's parks, `effWaitwTimeout_ends` for WAITW, `effCwaitTimeout_traps` for CWAIT. -/
theorem timeouts : Obligations.Timeouts := by
  refine ⟨⟨fun s k w hs => ⟨fun hp => ?_, fun hp => ?_⟩, fun s q ch rest w hq hw hd => ?_,
    fun s k q n w r d sg hw hwho h0 hdue hone hr hd => ?_⟩, fun s k p dom hs hp hrun hh => ⟨fun h => ?_, fun hw hlate hdone => ?_⟩⟩
  · show Host.Outcome.next (effWaittExpire (.ctx k) s) = _
    simp only [effWaittExpire, hp]
    rw [settle_parked hs (.inl hp), hp]
    simp only [parkOver, decide_eq_true_eq]
    split <;> rfl
  · show Host.Outcome.next (effWfiDeadline k s) = _
    simp only [effWfiDeadline, hp]
    rw [settle_parked hs (.inr hp), hp]
    simp only [parkOver, Bool.and_eq_true, decide_eq_true_eq]
    split <;> rfl
  · show Host.Outcome.next (effChainExpire q s) = _
    simp [effChainExpire, hq, hw, hd]
  · obtain ⟨hl, -, -⟩ := queueLanding_landings k (wakeLanding s.cycle false w.bad d 5)
      ((unregister (fun x => x.who == w.who) s).modCtx k fun c => { c with reqs := c.reqs.filter fun r => r.seq ≠ q })
    have hctx : (unregister (fun x => x.who == w.who) s).ctx k = s.ctx k := by rw [unregister_eq]; rfl
    rw [ctx_modCtx_self, hctx] at hl
    refine ⟨_, _, congrArg Host.Outcome.next (effWaitwTimeout_ends hw hwho h0 hdue hone hr hd), hl, rfl, rfl, fun b x hx => ?_, fun b x hx => ?_, fun x => ?_⟩
    · have := unregister_banks _ s b x hx
      rw [hwho] at this
      exact beq_eq_false_iff_ne.mp this
    · have := unregister_dies _ s b x hx
      rw [hwho] at this
      exact beq_eq_false_iff_ne.mp this
    · rw [queueLanding_ctx, ctx_modCtx_self, hctx]
      simp
  · exact congrArg Host.Outcome.next (effCwaitTimeout_waits hp h)
  · have hctx := enterTrap_ctx (t := trapOf causeTimeout 1 (BitVec.ofNat 64 (domCode dom))) (k := k) (s := barMarked k dom p s)
      (by rw [barMarked, ctx_modCtx_self]; exact hrun) (show causeTimeout ≠ causeTrayFull by decide)
    refine ⟨_, congrArg Host.Outcome.next (effCwaitTimeout_traps hp hs hrun hh hw hlate hdone), ?_⟩
    rw [hctx, barMarked, ctx_modCtx_self]
    have hpc : trapPc ((s.ctx k).setBar dom fun b => { b with timedOut := some p }) = (s.ctx k).parkPc := if_pos hs
    have hmark : (((s.ctx k).setBar dom fun b => { b with timedOut := some p }).bar dom).timedOut = some p := by rw [bar_setBar_self]
    exact ⟨rfl, rfl, rfl, hpc, rfl, hmark, rfl, rfl⟩

end Sys2Proof.Machine
end

section
/-! PROOFS. The counterexample to BarrierRules. -/

namespace Sys2Proof.Machine

/-- A closure as it leaves the tray. -/
def barClosure : Closure :=
  { instr := .nop, pc := 0, age := 0, s := Vector.replicate 32 0, c := 0, frm := 0, ftz := false, byName := [], behind := [], faulted := false
    readyAt := none }

/-- A context that has arrived once at its core's barrier and runs a closure. -/
def barContext : Ctx := { Ctx.setBar {} .core fun b => { b with arrived := 1 } with running := some barClosure }

/-- A slot instruction of that context runs. -/
def barState : State := { State.reset with ctxs := [(0, barContext)], view := some barContext }

/-- The number of the second phase is on its way to s1, which still reads 0 (R236). -/
theorem effBarArrive_barState : ((effBarArrive 1 0 .core false false barState).ctx 0).rd 1 = 0 := by decide

/-- Refutes O40: while a closure runs, a latency-1 result lands in the next cycle (R236), so ARRIVE's phase number is not in its
register yet; the statement does not ask that no closure runs. -/
theorem not_barrierRules : ¬ Obligations.BarrierRules := by
  rintro ⟨h, -⟩
  obtain ⟨harrive, -⟩ := h barState 1 0 0 .core false false (by decide) (by decide) rfl
  obtain ⟨t, hexec, ⟨-, -, -, -, hregs, -⟩, -⟩ := harrive ⟨rfl, .inl rfl⟩
  obtain rfl : effBarArrive 1 0 .core false false barState = t := Host.Outcome.next.inj hexec
  exact absurd (effBarArrive_barState.symm.trans (hregs 1)) (by decide)

end Sys2Proof.Machine
end

section
/-! PROOFS. NRED: contributions to a round of the combining tree, and a complete round that lands (R141, R142, R368, R369). -/

namespace Sys2Proof.Machine

/-! ## Pending destinations (R27) -/

theorem pendDest_eq (k : Nat) (dest : Dest) (s : State) :
    pendDest k dest s = { s with ctxs := (pendDest k dest s).ctxs, cores := (pendDest k dest s).cores } := by
  unfold pendDest
  rw [pendRows_eq]
  rfl

theorem pendDest_ctx (k j : Nat) (dest : Dest) (s : State) : (pendDest k dest s).ctx j = (setPending k (destNames dest) s).ctx j := by
  unfold pendDest
  rw [pendRows_eq]
  rfl

/-- Of its context a destination changes the pending bits alone. -/
theorem pendDest_ctx_self (k : Nat) (dest : Dest) (s : State) :
    (pendDest k dest s).ctx k = { s.ctx k with pend := ((pendDest k dest s).ctx k).pend } := by
  rw [pendDest_ctx, setPending_ctx]

theorem pendDest_sameBytes (k : Nat) (dest : Dest) (s : State) : SameBytes s (pendDest k dest s) := by
  rw [pendDest_eq]; exact .of_eq rfl rfl rfl rfl

/-- The registers of a destination are pending. -/
theorem pendDest_pending {d : SReg} {dest : Dest} (h : d ∈ destNames dest) (hd : d ≠ 0) (k : Nat) (s : State) :
    ((pendDest k dest s).ctx k).pending d = true := by
  rw [pendDest_ctx, setPending_pending]
  simp [h, show ¬d = 0#5 from hd]

/-- The row of a destination is pending. -/
theorem pendDest_row (k key : Nat) (s : State) : ((pendDest k (.row key) s).core (coreOf k)).row key =
    { (s.core (coreOf k)).row key with pend := ((s.core (coreOf k)).row key).pend + 1 } := by
  show ((modRow (coreOf k) key (fun r => { r with pend := r.pend + 1 }) (setPending k [] s)).core (coreOf k)).row key = _
  rw [modRow_row, if_pos rfl]
  rfl

/-! ## Contributions (R141) -/

/-- r is the round of context k's group at its domain. -/
def Round.at (s : State) (k : Nat) (dom : Domain) (r : Round) : Prop :=
  r.launch = groupOf s (launchOf s k) ∧ r.dom = dom ∧ r.inst = domInst dom (coreOf k)

/-- No round is open, or the one of context k's group with these parts. -/
def OpenRound (s : State) (k : Nat) (dom : Domain) (parts : List Contribution) : Prop :=
  s.rounds = [] ∧ parts = [] ∨ ∃ r, s.rounds = [r] ∧ r.at s k dom ∧ parts = r.parts

/-- A contribution changes its context's mark and the rounds alone. -/
theorem contribute_eq (k : Nat) (dom : Domain) (x : Contribution) (s : State) : contribute k dom x s =
    { s.modCtx k (fun c => { c with nredBusy := setBit c.nredBusy (domCode dom) true }) with rounds := (contribute k dom x s).rounds } := by
  unfold contribute
  dsimp only
  split <;> rfl

/-- A contribution opens the round or joins it, which is then due the tree's latency later (R141, R368). -/
theorem contribute_rounds {s : State} {k : Nat} {dom : Domain} {parts : List Contribution} (h : OpenRound s k dom parts) (x : Contribution) :
    (contribute k dom x s).rounds =
      [⟨groupOf s (launchOf s k), dom, domInst dom (coreOf k), parts ++ [x], s.cycle + treeLatency dom⟩] := by
  unfold contribute
  rcases h with ⟨hr, rfl⟩ | ⟨r, hr, ⟨hl, hd, hi⟩, rfl⟩
  · simp [hr]
  · simp [hr, hl, hd, hi]

/-- A contribution whose destination is pending, and the core perhaps given up (R10). -/
def contributed (k : Nat) (dom : Domain) (x : Contribution) (s : State) : State := offCore k (pendDest k x.dest (contribute k dom x s))

section
variable (k : Nat) (dom : Domain) (x : Contribution) (s : State)

theorem contributed_rounds {parts : List Contribution} (h : OpenRound s k dom parts) : (contributed k dom x s).rounds =
    [⟨groupOf s (launchOf s k), dom, domInst dom (coreOf k), parts ++ [x], s.cycle + treeLatency dom⟩] := by
  rw [contributed, offCore_eq, ← contribute_rounds h x, pendDest_eq]

theorem contributed_sameBytes : SameBytes s (contributed k dom x s) := by
  have h : SameBytes s (contribute k dom x s) := by rw [contribute_eq]; exact .of_eq rfl rfl rfl rfl
  exact (h.trans (pendDest_sameBytes _ _ _)).trans (offCore_sameBytes _ _)

theorem contribute_ctx : (contribute k dom x s).ctx k = { s.ctx k with nredBusy := setBit (s.ctx k).nredBusy (domCode dom) true } := by
  rw [contribute_eq]
  exact ctx_modCtx_self s k fun c => { c with nredBusy := setBit c.nredBusy (domCode dom) true }

theorem contributed_s : ((contributed k dom x s).ctx k).s = (s.ctx k).s := by
  rw [contributed, offCore_ctx, pendDest_ctx_self, contribute_ctx]

theorem contributed_pending {d : SReg} (h : d ∈ destNames x.dest) (hd : d ≠ 0) : ((contributed k dom x s).ctx k).pending d = true := by
  rw [contributed, offCore_ctx]
  exact pendDest_pending h hd k _

theorem contributed_busy : ((contributed k dom x s).ctx k).nredBusy.getLsbD (domCode dom) = true := by
  rw [contributed, offCore_ctx, pendDest_ctx_self, contribute_ctx]
  have hlt : domCode dom < 8 := by cases dom <;> decide
  simp [getLsbD_setBit _ _ _ _ hlt]

theorem contributed_row (key : Nat) (h : x.dest = .row key) : (((contributed k dom x s).core (coreOf k)).row key).pend ≠ 0 := by
  rw [contributed, offCore_row, h, pendDest_row]
  exact Nat.succ_ne_zero _

end

/-- NRED contributes, its register or pair pending (R141). -/
theorem nred_joins {s : State} {d a b : SReg} {dom : Domain} {op : NredOp} (hd : d ≠ 0) (hruns : Runs (.nred d a b dom op) s)
    {parts : List Contribution} (h : OpenRound s s.cur dom parts) : let k := s.cur
    ∃ t x, exec (.nred d a b dom op) s = .next t ∧
      t.rounds = [⟨groupOf s (launchOf s k), dom, domInst dom (coreOf k), parts ++ [x], s.cycle + treeLatency dom⟩] ∧ x.ctx = k ∧
      x.op = op ∧ x.merge = false ∧ x.value = rdS s a ∧ x.payload = (rdS s b).truncate 32 ∧ (t.ctx k).pending d = true ∧
      (t.ctx k).nredBusy.getLsbD (domCode dom) = true ∧ (t.ctx k).s = (s.ctx k).s ∧ SameBytes s t := by
  have hdest : d ∈ destNames (if op = .maxkey then .pair d else .reg d 8 true) := by split <;> simp [destNames, destRegs]
  exact ⟨_, _, next_runSlot hruns rfl, contributed_rounds _ _ _ _ h, rfl, rfl, rfl, rfl, rfl, contributed_pending _ _ _ _ hdest hd,
    contributed_busy _ _ _ _, contributed_s _ _ _ _, contributed_sameBytes _ _ _ _⟩

/-- NRED MERGEK contributes a row, its destination row pending (R142). -/
theorem mergek_joins {s : State} {t u : TReg} {row : BitVec 4} {dom : Domain} {td us : Nat} (hruns : Runs (.nredMergek t u row dom) s)
    (ht : keyOf s s.cur (me s) (t, row.toNat) = some td) (hu : keyOf s s.cur (me s) (u, row.toNat) = some us)
    {parts : List Contribution} (h : OpenRound s s.cur dom parts) : ∃ v x, exec (.nredMergek t u row dom) s = .next v ∧
      v.rounds = [⟨groupOf s (launchOf s s.cur), dom, domInst dom (coreOf s.cur), parts ++ [x], s.cycle + treeLatency dom⟩] ∧
      x.merge = true ∧ x.row = rowData s s.cur us ∧ x.dest = .row td ∧ ((v.core (coreOf s.cur)).row td).pend ≠ 0 ∧ SameBytes s v := by
  have heff : effMergek t u row dom s = contributed s.cur dom
      { ctx := s.cur, op := .sum64, merge := true, value := 0, payload := 0, row := rowData s s.cur us, dest := .row td } s := by
    simp only [effMergek, ht, hu]
    rfl
  exact ⟨_, _, next_runSlot hruns heff, contributed_rounds _ _ _ _ h, rfl, rfl, rfl, contributed_row _ _ _ _ _ rfl, contributed_sameBytes _ _ _ _⟩

/-! ## A complete round lands (R368, R369) -/

/-- A context after a round of domain dom brought the value v to its register d. -/
def Ctx.treeLanded (dom : Domain) (d : SReg) (v : Word) (c : Ctx) : Ctx :=
  { landReg none c (d, v) with nredBusy := setBit c.nredBusy (domCode dom) false }

theorem put_put {α : Type} (k : Nat) (v w : α) (m : List (Nat × α)) : put k w (put k v m) = put k w m := by
  induction m with
  | nil => simp [put]
  | cons p t ih =>
    obtain ⟨j, x⟩ := p
    by_cases h1 : k < j
    · simp [put, h1]
    · by_cases h2 : k = j
      · simp [put, h2]
      · simp [put, h1, h2, ih]

theorem modCtx_modCtx (s : State) (k : Nat) (f g : Ctx → Ctx) : (s.modCtx k f).modCtx k g = s.modCtx k fun c => g (f c) := by
  rw [State.modCtx, ctx_modCtx_self]
  simp only [State.modCtx, put_put]

/-- A scalar result of a round lands (R141). -/
theorem applyLanding_tree {k : Nat} {dom : Domain} {d : SReg} {v : Word} {s : State} (hp : ∀ t, (s.ctx k).park ≠ .wfi t) :
    applyLanding k { Landing.empty with regs := [(d, v)], nred := some dom } s = s.modCtx k (Ctx.treeLanded dom d v) := by
  have hmod : (s.modCtx k fun c => landReg none c (d, v)).modCtx k (fun c => { c with nredBusy := setBit c.nredBusy (domCode dom) false }) =
      s.modCtx k (Ctx.treeLanded dom d v) := by
    rw [modCtx_modCtx]
    congr 1
    funext c
    rw [Ctx.treeLanded, landReg_eq]
  have hw : wakeWfi k (s.modCtx k (Ctx.treeLanded dom d v)) = s.modCtx k (Ctx.treeLanded dom d v) :=
    wakeWfi_of_ne (by rw [ctx_modCtx_self, Ctx.treeLanded, landReg_eq]; exact hp)
  show (if ([(d, v)].all (·.1 = 0) ∧ ([] : List (Nat × Row)).isEmpty ∧ ([] : List SReg).all (· = 0)) then
    (s.modCtx k fun c => landReg none c (d, v)).modCtx k (fun c => { c with nredBusy := setBit c.nredBusy (domCode dom) false })
    else wakeWfi k ((s.modCtx k fun c => landReg none c (d, v)).modCtx k (fun c => { c with nredBusy := setBit c.nredBusy (domCode dom) false }))) = _
  rw [hmod, hw, ite_self]

/-- A landing at one member of a round, if it is still one. -/
def landPart (r : Round) (s : State) (p : Contribution) : State :=
  if groupOf s (launchOf s p.ctx) = r.launch ∧ (s.ctx p.ctx).status ≠ .idle then applyLanding p.ctx (treeLanding r p) s else s

/-- A member of the launch at which a scalar result can land. -/
structure Awaits (s : State) (r : Round) (p : Contribution) (d : SReg) : Prop where
  dest : p.dest = .reg d 8 true
  group : groupOf s (launchOf s p.ctx) = r.launch
  live : (s.ctx p.ctx).status ≠ .idle
  awake : ∀ w, (s.ctx p.ctx).park ≠ .wfi w

/-- The members of a round whose operation is one land one after another, each its value, and nothing else changes. -/
theorem foldl_landPart {r : Round} {v : Word} (hv : ∀ p ∈ r.parts, ∀ d, p.dest = .reg d 8 true →
      treeLanding r p = { Landing.empty with regs := [(d, v)], nred := some r.dom }) (l : List Contribution) :
    ∀ s : State, (∀ p ∈ l, p ∈ r.parts) → (l.map (·.ctx)).Nodup → (∀ p ∈ l, ∃ d, Awaits s r p d) →
      let t := l.foldl (landPart r) s
      t = { s with ctxs := t.ctxs } ∧ (∀ j, j ∉ l.map (·.ctx) → t.ctx j = s.ctx j) ∧
      ∀ p ∈ l, ∀ d, p.dest = .reg d 8 true → t.ctx p.ctx = Ctx.treeLanded r.dom d v (s.ctx p.ctx) := by
  induction l with
  | nil => intro s _ _ _; exact ⟨rfl, fun _ _ => rfl, fun p hp => absurd hp List.not_mem_nil⟩
  | cons p l ih =>
    intro s hmem hnodup hawaits
    rw [List.map_cons, List.nodup_cons] at hnodup
    obtain ⟨hnot, hnodup⟩ := hnodup
    obtain ⟨d, hdest, hgroup, hlive, hawake⟩ := hawaits p List.mem_cons_self
    have hland : landPart r s p = s.modCtx p.ctx (Ctx.treeLanded r.dom d v) := by
      rw [landPart, if_pos ⟨hgroup, hlive⟩, hv p (hmem p List.mem_cons_self) d hdest, applyLanding_tree hawake]
    have hne : ∀ q ∈ l, (landPart r s p).ctx q.ctx = s.ctx q.ctx := fun q hq => by
      rw [hland]
      exact ctx_modCtx_ne _ _ _ _ fun e => hnot (e ▸ List.mem_map_of_mem hq)
    obtain ⟨heq, hother, hthis⟩ := ih (landPart r s p) (fun q hq => hmem q (List.mem_cons_of_mem _ hq)) hnodup fun q hq => by
      obtain ⟨e, he⟩ := hawaits q (List.mem_cons_of_mem _ hq)
      refine ⟨e, he.dest, ?_, by rw [hne q hq]; exact he.live, by rw [hne q hq]; exact he.awake⟩
      rw [← he.group, launchOf, launchOf, hne q hq, hland]
      rfl
    rw [List.foldl_cons]
    refine ⟨?_, fun j hj => ?_, fun q hq e he => ?_⟩
    · rw [heq, hland]
      rfl
    · rw [List.map_cons, List.mem_cons, not_or] at hj
      rw [hother j hj.2, hland, ctx_modCtx_ne _ _ _ _ hj.1]
    · rcases List.mem_cons.mp hq with rfl | hq
      · obtain rfl : d = e := by rw [hdest] at he; exact (Dest.reg.inj he).1
        rw [hother _ hnot, hland, ctx_modCtx_self]
      · rw [hthis q hq e he, hne q hq]

end Sys2Proof.Machine
end

section
/-! PROOFS. The result of a round of the combining tree: sums, extremes, bitwise forms, and MERGEK's row (R141, R142, R369). -/

namespace Sys2Proof.Machine

/-! ## Folds over contributions (R369) -/

/-- A fold that keeps the better of two ends with an element that no other beats. -/
theorem foldl_best {α : Type} (lt : α → α → Bool) (le : α → α → Prop) (hrefl : ∀ a, le a a) (htrans : ∀ a b c, le a b → le b c → le a c)
    (htrue : ∀ a b, lt a b = true → le b a) (hfalse : ∀ a b, lt a b = false → le a b) (l : List α) :
    ∀ p, let m := l.foldl (fun m x => if lt m x then x else m) p
      (m = p ∨ m ∈ l) ∧ le m p ∧ ∀ q ∈ l, le m q := by
  induction l with
  | nil => exact fun p => ⟨.inl rfl, hrefl p, fun q hq => absurd hq List.not_mem_nil⟩
  | cons x l ih =>
    intro p
    rw [List.foldl_cons]
    cases h : lt p x with
    | true =>
      obtain ⟨hmem, hle, hall⟩ := ih x
      simp only [if_true]
      exact ⟨.inr (List.mem_cons.mpr hmem), htrans _ _ _ hle (htrue p x h), fun q hq =>
        (List.mem_cons.mp hq).elim (fun e => e ▸ hle) (hall q)⟩
    | false =>
      obtain ⟨hmem, hle, hall⟩ := ih p
      simp only [Bool.false_eq_true, if_false]
      exact ⟨hmem.imp_right (List.mem_cons_of_mem _), hle, fun q hq =>
        (List.mem_cons.mp hq).elim (fun e => e ▸ htrans _ _ _ hle (hfalse p x h)) (hall q)⟩

/-- The best of some contributions is one of them. -/
theorem exists_best {α : Type} (lt : α → α → Bool) (le : α → α → Prop) (hrefl : ∀ a, le a a) (htrans : ∀ a b c, le a b → le b c → le a c)
    (htrue : ∀ a b, lt a b = true → le b a) (hfalse : ∀ a b, lt a b = false → le a b) (p : α) (l : List α) :
    ∃ m ∈ p :: l, l.foldl (fun m x => if lt m x then x else m) p = m ∧ ∀ q ∈ p :: l, le m q := by
  obtain ⟨hmem, hle, hall⟩ := foldl_best lt le hrefl htrans htrue hfalse l p
  exact ⟨_, List.mem_cons.mpr hmem, rfl, fun q hq => (List.mem_cons.mp hq).elim (fun e => e ▸ hle) (hall q)⟩

theorem foldl_add (f : Contribution → Word) (ps : List Contribution) : ∀ a : Word, ps.foldl (fun a p => a + f p) a = a + (ps.map f).sum := by
  induction ps with
  | nil => intro a; simp
  | cons p ps ih => intro a; rw [List.foldl_cons, ih, List.map_cons, List.sum_cons, BitVec.add_assoc]

theorem foldl_and (i : Nat) (ps : List Contribution) : ∀ a : Word,
    (ps.foldl (fun a p => a &&& p.value) a).getLsbD i = (a.getLsbD i && ps.all (·.value.getLsbD i)) := by
  induction ps with
  | nil => intro a; simp
  | cons p ps ih => intro a; rw [List.foldl_cons, ih, BitVec.getLsbD_and, List.all_cons, Bool.and_assoc]

theorem foldl_or (i : Nat) (ps : List Contribution) : ∀ a : Word,
    (ps.foldl (fun a p => a ||| p.value) a).getLsbD i = (a.getLsbD i || ps.any (·.value.getLsbD i)) := by
  induction ps with
  | nil => intro a; simp
  | cons p ps ih => intro a; rw [List.foldl_cons, ih, BitVec.getLsbD_or, List.any_cons, Bool.or_assoc]

/-! ## The scalar result (R369) -/

theorem treeResult_and (ps : List Contribution) {i : Nat} (h : i < 64) : (treeResult .and ps).1.getLsbD i = ps.all (·.value.getLsbD i) := by
  have hones : (-1 : Word).getLsbD i = true := by
    rw [show (-1 : Word) = BitVec.allOnes 64 from rfl, BitVec.getLsbD_allOnes, decide_eq_true h]
  show (ps.foldl (fun (a : Word) p => a &&& p.value) (-1)).getLsbD i = _
  rw [foldl_and, hones, Bool.true_and]

theorem treeResult_or (ps : List Contribution) (i : Nat) : (treeResult .or ps).1.getLsbD i = ps.any (·.value.getLsbD i) := by
  show (ps.foldl (fun (a : Word) p => a ||| p.value) 0#64).getLsbD i = _
  rw [foldl_or, BitVec.getLsbD_zero, Bool.false_or]

theorem treeResult_sum (ps : List Contribution) : (treeResult .sum64 ps).1 = (ps.map (·.value)).sum := by
  show ps.foldl (fun (a : Word) p => a + p.value) 0#64 = _
  rw [foldl_add, BitVec.zero_add]

theorem treeResult_max {ps : List Contribution} (h : ps ≠ []) :
    ∃ p ∈ ps, (treeResult .max ps).1 = p.value ∧ ∀ q ∈ ps, q.value.toInt ≤ p.value.toInt := by
  obtain ⟨p, ps, rfl⟩ := List.exists_cons_of_ne_nil h
  obtain ⟨m, hm, heq, hall⟩ := exists_best (fun m x : Contribution => m.value.toInt < x.value.toInt) (fun m q => q.value.toInt ≤ m.value.toInt)
    (fun _ => Int.le_refl _) (fun _ _ _ h1 h2 => Int.le_trans h2 h1) (fun _ _ h => Int.le_of_lt (of_decide_eq_true h))
    (fun _ _ h => Int.not_lt.mp (of_decide_eq_false h)) p ps
  exact ⟨m, hm, congrArg (·.value) heq, hall⟩

theorem treeResult_min {ps : List Contribution} (h : ps ≠ []) :
    ∃ p ∈ ps, (treeResult .min ps).1 = p.value ∧ ∀ q ∈ ps, p.value.toInt ≤ q.value.toInt := by
  obtain ⟨p, ps, rfl⟩ := List.exists_cons_of_ne_nil h
  obtain ⟨m, hm, heq, hall⟩ := exists_best (fun m x : Contribution => x.value.toInt < m.value.toInt) (fun m q => m.value.toInt ≤ q.value.toInt)
    (fun _ => Int.le_refl _) (fun _ _ _ h1 h2 => Int.le_trans h1 h2) (fun _ _ h => Int.le_of_lt (of_decide_eq_true h))
    (fun _ _ h => Int.not_lt.mp (of_decide_eq_false h)) p ps
  exact ⟨m, hm, congrArg (·.value) heq, hall⟩

theorem treeResult_bcast {ps : List Contribution} (h : ps ≠ []) :
    ∃ p ∈ ps, (treeResult .bcast ps).1 = p.value ∧ ∀ q ∈ ps, p.ctx ≤ q.ctx := by
  obtain ⟨p, ps, rfl⟩ := List.exists_cons_of_ne_nil h
  obtain ⟨m, hm, heq, hall⟩ := exists_best (fun m x : Contribution => x.ctx < m.ctx) (fun m q => m.ctx ≤ q.ctx)
    (fun _ => Nat.le_refl _) (fun _ _ _ h1 h2 => Nat.le_trans h1 h2) (fun _ _ h => Nat.le_of_lt (of_decide_eq_true h))
    (fun _ _ h => Nat.not_lt.mp (of_decide_eq_false h)) p ps
  exact ⟨m, hm, congrArg (·.value) heq, hall⟩

/-- MAXKEY's order: by the greater key, then by the lower payload. -/
def Contribution.leads (p q : Contribution) : Prop :=
  q.value.toInt < p.value.toInt ∨ q.value = p.value ∧ p.payload.toNat ≤ q.payload.toNat

theorem Contribution.leads_trans (a b c : Contribution) : a.leads b → b.leads c → a.leads c := by
  rintro (h1 | ⟨h1, h1'⟩) (h2 | ⟨h2, h2'⟩)
  · exact .inl (Int.lt_trans h2 h1)
  · exact .inl (h2 ▸ h1)
  · exact .inl (h1 ▸ h2)
  · exact .inr ⟨h2.trans h1, Nat.le_trans h1' h2'⟩

/-- Whether x replaces m in MAXKEY's fold. -/
def Contribution.beaten (m x : Contribution) : Bool :=
  m.value.toInt < x.value.toInt || (m.value == x.value && x.payload.toNat < m.payload.toNat)

theorem Contribution.leads_of_beaten (m x : Contribution) (h : m.beaten x = true) : x.leads m := by
  simp only [beaten, Bool.or_eq_true, Bool.and_eq_true, decide_eq_true_eq, beq_iff_eq] at h
  exact h.imp_right fun ⟨e, hlt⟩ => ⟨e, Nat.le_of_lt hlt⟩

theorem Contribution.leads_of_not_beaten (m x : Contribution) (h : m.beaten x = false) : m.leads x := by
  simp only [beaten, Bool.or_eq_false_iff, Bool.and_eq_false_iff, decide_eq_false_iff_not, beq_eq_false_iff_ne, Int.not_lt, Nat.not_lt] at h
  obtain ⟨hle, hne⟩ := h
  rcases Int.lt_or_eq_of_le hle with hlt | heq
  · exact .inl hlt
  · have hval := (BitVec.toInt_inj.mp heq)
    exact .inr ⟨hval, hne.resolve_left fun hn => hn hval.symm⟩

theorem treeResult_maxkey {ps : List Contribution} (h : ps ≠ []) :
    ∃ p ∈ ps, treeResult .maxkey ps = (p.value, p.payload) ∧ ∀ q ∈ ps, p.leads q := by
  obtain ⟨p, ps, rfl⟩ := List.exists_cons_of_ne_nil h
  obtain ⟨m, hm, heq, hall⟩ := exists_best Contribution.beaten Contribution.leads
    (fun _ => .inr ⟨rfl, Nat.le_refl _⟩) Contribution.leads_trans Contribution.leads_of_beaten Contribution.leads_of_not_beaten p ps
  exact ⟨m, hm, congrArg (fun m : Contribution => (m.value, m.payload)) heq, hall⟩

/-! ## MERGEK's order (R142) -/

/-- The order of two entries: key, index, and the key's bits (log entry 105). -/
theorem entryBefore_iff (a b : Nat) : entryBefore a b = true ↔ keyRank (b % 2 ^ 32) < keyRank (a % 2 ^ 32) ∨
    keyRank (a % 2 ^ 32) = keyRank (b % 2 ^ 32) ∧ (a / 2 ^ 32 < b / 2 ^ 32 ∨ a / 2 ^ 32 = b / 2 ^ 32 ∧ a % 2 ^ 32 < b % 2 ^ 32) := by
  simp only [entryBefore, Bool.or_eq_true, Bool.and_eq_true, decide_eq_true_eq, beq_iff_eq, gt_iff_lt]

theorem entryBefore_false_iff (a b : Nat) : entryBefore a b = false ↔ ¬(keyRank (b % 2 ^ 32) < keyRank (a % 2 ^ 32) ∨
    keyRank (a % 2 ^ 32) = keyRank (b % 2 ^ 32) ∧ (a / 2 ^ 32 < b / 2 ^ 32 ∨ a / 2 ^ 32 = b / 2 ^ 32 ∧ a % 2 ^ 32 < b % 2 ^ 32)) := by
  rw [← entryBefore_iff, Bool.not_eq_true]

theorem entryBefore_asymm {a b : Nat} (h : entryBefore a b = true) : entryBefore b a = false := by
  rw [entryBefore_iff] at h
  rw [entryBefore_false_iff]
  omega

theorem entryBefore_trans_not {x y z : Nat} (h : entryBefore x y = true) (h' : entryBefore z y = false) : entryBefore z x = false := by
  rw [entryBefore_iff] at h
  rw [entryBefore_false_iff] at h' ⊢
  omega

theorem keyRank_pos {x : Nat} (h : x ≤ 0x7F800000) : keyRank x = x ∧ keyRank (2 ^ 31 + x) = -(x : Int) - 1 := by
  have h1 : x % 2 ^ 31 = x := by omega
  have h2 : (2 ^ 31 + x) % 2 ^ 31 = x := by omega
  have h3 : x / 2 ^ 31 % 2 = 0 := by omega
  have h4 : (2 ^ 31 + x) / 2 ^ 31 % 2 = 1 := by omega
  have h5 : ¬0x7F800000 < x := by omega
  simp only [keyRank, h1, h2, h3, h4, h5, if_false, if_true, Nat.zero_ne_one, and_self]

/-- NaN keys of either sign stand below every other key (R142). -/
theorem keyRank_nan {x : Nat} (hlt : x < 2 ^ 31) (h : 0x7F800000 < x) : keyRank x < keyRank 0xFF800000 ∧ keyRank (2 ^ 31 + x) = keyRank x := by
  have h1 : x % 2 ^ 31 = x := by omega
  have h2 : (2 ^ 31 + x) % 2 ^ 31 = x := by omega
  simp only [keyRank, h1, h2, h, if_true, and_true]
  decide

theorem insertEntry_perm (x : Nat) (l : List Nat) : (insertEntry x l).Perm (x :: l) := by
  induction l with
  | nil => exact .refl _
  | cons y l ih =>
    rw [insertEntry]
    split
    · exact .refl _
    · exact (ih.cons y).trans (.swap x y l)

theorem insertEntry_sorted (x : Nat) {l : List Nat} (h : l.Pairwise fun a b => entryBefore b a = false) :
    (insertEntry x l).Pairwise fun a b => entryBefore b a = false := by
  induction l with
  | nil => exact List.pairwise_singleton _ _
  | cons y l ih =>
    obtain ⟨hy, hl⟩ := List.pairwise_cons.mp h
    rw [insertEntry]
    split
    · next hxy =>
      refine List.pairwise_cons.mpr ⟨fun z hz => ?_, h⟩
      rcases List.mem_cons.mp hz with rfl | hz
      · exact entryBefore_asymm hxy
      · exact entryBefore_trans_not hxy (hy z hz)
    · next hxy =>
      refine List.pairwise_cons.mpr ⟨fun z hz => ?_, ih hl⟩
      rcases List.mem_cons.mp ((insertEntry_perm x l).mem_iff.mp hz) with rfl | hz
      · exact eq_false_of_ne_true hxy
      · exact hy z hz

theorem foldl_insertEntry (es : List Nat) : ∀ l : List Nat, (l.Pairwise fun a b => entryBefore b a = false) →
    (es.foldl (fun l e => insertEntry e l) l).Perm (es ++ l) ∧
      (es.foldl (fun l e => insertEntry e l) l).Pairwise fun a b => entryBefore b a = false := by
  induction es with
  | nil => exact fun l h => ⟨.refl _, h⟩
  | cons e es ih =>
    intro l h
    obtain ⟨hperm, hsorted⟩ := ih _ (insertEntry_sorted e h)
    exact ⟨hperm.trans (((insertEntry_perm e l).append_left es).trans List.perm_middle), hsorted⟩

/-! ## MERGEK's row (R142) -/

theorem ofLanes_lt (w n : Nat) (f : Nat → Nat) : ofLanes w n f < 2 ^ (w * n) := by
  induction n with
  | zero => exact Nat.one_pos
  | succ n ih =>
    have hlane : f n % 2 ^ w + 1 ≤ 2 ^ w := Nat.mod_lt _ (Nat.two_pow_pos w)
    calc ofLanes w n f + f n % 2 ^ w * 2 ^ (w * n) < 2 ^ (w * n) + f n % 2 ^ w * 2 ^ (w * n) := Nat.add_lt_add_right ih _
      _ = (f n % 2 ^ w + 1) * 2 ^ (w * n) := by ring
      _ ≤ 2 ^ w * 2 ^ (w * n) := Nat.mul_le_mul_right _ hlane
      _ = 2 ^ (w * (n + 1)) := by rw [Nat.mul_succ, pow_add, Nat.mul_comm]

theorem ofLanes_div {w n j : Nat} (f : Nat → Nat) (h : j < n) : ofLanes w n f / 2 ^ (w * j) % 2 ^ w = f j % 2 ^ w := by
  induction n with
  | zero => exact absurd h (Nat.not_lt_zero j)
  | succ n ih =>
    rw [ofLanes]
    rcases Nat.lt_succ_iff_lt_or_eq.mp h with hlt | rfl
    · have hsplit : f n % 2 ^ w * 2 ^ (w * n) = 2 ^ (w * j) * (2 ^ w * (f n % 2 ^ w * 2 ^ (w * (n - j - 1)))) := by
        have hexp : w * n = w * j + (w + w * (n - j - 1)) := by
          obtain ⟨m, rfl⟩ := Nat.exists_eq_add_of_lt hlt
          rw [show j + m + 1 - j - 1 = m by omega]
          ring
        rw [hexp, pow_add, pow_add]
        ring
      rw [hsplit, Nat.add_mul_div_left _ _ (Nat.two_pow_pos _), Nat.add_mul_mod_self_left, ih hlt]
    · rw [Nat.add_mul_div_right _ _ (Nat.two_pow_pos _), Nat.div_eq_of_lt (ofLanes_lt w j f), Nat.zero_add, Nat.mod_mod]

/-- A lane of a row made of its lanes (R4). -/
theorem lane_rowOf {w n j : Nat} (f : Nat → Nat) (h : j < n) (hfit : w * j + w ≤ 1024) : lane w (rowOf w n f) j = f j % 2 ^ w := by
  rw [lane, rowOf, toNat_ofNat_shift_mod hfit, ofLanes_div f h]

/-- MERGEK's row: the entries in order, then empty ones (R142). -/
theorem mergeRows_lanes (rows : List RowData) :
    let live := (rows.flatMap fun r => (upTo 16).map (lane 64 r)).filter fun e => e / 2 ^ 32 ≠ 0xFFFFFFFF
    ∃ sorted : List Nat, sorted.Perm live ∧ sorted.Pairwise (fun a b => entryBefore b a = false) ∧
      ∀ i, i < 16 → (i < sorted.length → lane 64 (mergeRows rows) i = sorted.getD i 0) ∧
        (sorted.length ≤ i → lane 64 (mergeRows rows) i / 2 ^ 32 = 0xFFFFFFFF) := by
  intro live
  obtain ⟨hperm, hsorted⟩ := foldl_insertEntry live [] List.Pairwise.nil
  rw [List.append_nil] at hperm
  generalize hs : live.foldl (fun (l : List Nat) e => insertEntry e l) [] = sorted at hperm hsorted
  refine ⟨sorted, hperm, hsorted, fun i hi => ?_⟩
  have hlane : lane 64 (mergeRows rows) i = sorted.getD i (0xFFFFFFFF * 2 ^ 32 + (Config.padKey rows i).toNat) % 2 ^ 64 := by
    rw [← hs]
    exact lane_rowOf _ hi (by omega)
  refine ⟨fun hlt => ?_, fun hge => ?_⟩
  · have hmem : sorted[i] ∈ live := hperm.mem_iff.mp (List.getElem_mem hlt)
    have hfit : sorted[i] < 2 ^ 64 := by
      obtain ⟨r, -, hr⟩ := List.mem_flatMap.mp (List.mem_of_mem_filter hmem)
      obtain ⟨j, -, hj⟩ := List.mem_map.mp hr
      rw [← hj]
      exact Nat.mod_lt _ (Nat.two_pow_pos 64)
    rw [hlane, List.getD_eq_getElem _ _ hlt, List.getD_eq_getElem _ _ hlt, Nat.mod_eq_of_lt hfit]
  · have hpad := (Config.padKey rows i).isLt
    rw [hlane, List.getD_eq_default _ _ hge]
    omega

end Sys2Proof.Machine
end

section
/-! PROOFS. A complete round lands (R141, R142, R368, R369), and termination weight (R139, R332): the statement about collectives and weight. -/

namespace Sys2Proof.Machine

/-! ## What a round lands (R141, R142, R369) -/

theorem sameOp_iff_cons (p : Contribution) (r : List Contribution) :
    sameOp (p :: r) = true ↔ ∀ x ∈ r, x.merge = p.merge ∧ (p.merge = true ∨ x.op = p.op) := by
  simp only [sameOp, List.all_eq_true, Bool.and_eq_true, Bool.or_eq_true, beq_iff_eq]

/-- Contributions of one scalar operation name one operation. -/
theorem sameOp_of_op {ps : List Contribution} {op : NredOp} (h : ∀ p ∈ ps, p.merge = false ∧ p.op = op) : sameOp ps = true := by
  cases ps with
  | nil => rfl
  | cons p r =>
    obtain ⟨hm, ho⟩ := h p List.mem_cons_self
    refine (sameOp_iff_cons p r).mpr fun x hx => ?_
    obtain ⟨hxm, hxo⟩ := h x (List.mem_cons_of_mem _ hx)
    exact ⟨hxm.trans hm.symm, .inr (hxo.trans ho.symm)⟩

/-- Contributions of MERGEK name one operation. -/
theorem sameOp_of_merge {ps : List Contribution} (h : ∀ p ∈ ps, p.merge = true) : sameOp ps = true := by
  cases ps with
  | nil => rfl
  | cons p r =>
    exact (sameOp_iff_cons p r).mpr fun x hx => ⟨(h x (List.mem_cons_of_mem _ hx)).trans (h p List.mem_cons_self).symm, .inl (h p List.mem_cons_self)⟩

/-- In a list of one operation any two scalar contributions agree. -/
theorem op_eq_of_sameOp {ps : List Contribution} (h : sameOp ps = true) {x y : Contribution} (hx : x ∈ ps) (hy : y ∈ ps)
    (hxm : x.merge = false) (hym : y.merge = false) : x.op = y.op := by
  cases ps with
  | nil => exact absurd hx List.not_mem_nil
  | cons p r =>
    have key : ∀ z ∈ p :: r, z.merge = false → z.op = p.op := fun z hz hzm => by
      rcases List.mem_cons.mp hz with rfl | hz
      · rfl
      · obtain ⟨hm, ho⟩ := (sameOp_iff_cons p r).mp h z hz
        exact ho.resolve_left fun e => Bool.false_ne_true (hzm.symm.trans (hm.trans e))
    exact (key x hx hxm).trans (key y hy hym).symm

theorem treeLanding_mixed {r : Round} (h : sameOp r.parts = false) (p : Contribution) : (treeLanding r p).poison = some ⟨0x02, 0⟩ := by
  rw [treeLanding, h]; rfl

/-- A value of 64 bits lands as it is, whatever its payload (R141). -/
theorem sext_payload (v : Word) (n : Nat) : extendTo 8 true (v.toNat + n * 2 ^ 64) = v := by
  have hval : BitVec.ofNat 64 (v.toNat + n * 2 ^ 64) = v := by
    apply BitVec.eq_of_toNat_eq
    rw [BitVec.toNat_ofNat, Nat.add_mul_mod_self_right, Nat.mod_eq_of_lt v.isLt]
  show wordOf (signed 64 (v.toNat + n * 2 ^ 64)) = v
  rw [signed_eq_toInt, hval]
  exact BitVec.ofInt_toInt

theorem treeLanding_scalar {r : Round} {p : Contribution} {d : SReg} (hsame : sameOp r.parts = true) (hm : p.merge = false)
    (hdest : p.dest = .reg d 8 true) :
    treeLanding r p = { Landing.empty with regs := [(d, (treeResult p.op r.parts).1)], nred := some r.dom } := by
  simp only [treeLanding, hsame, hm, hdest, Bool.not_true, Bool.false_eq_true, if_false, destRegs, sext_payload]

theorem put_perm {α : Type} {k : Nat} (v : α) {m : List (Nat × α)} (h : ∀ q ∈ m, q.1 ≠ k) : (put k v m).Perm ((k, v) :: m) := by
  induction m with
  | nil => exact .refl _
  | cons q m ih =>
    obtain ⟨j, x⟩ := q
    have hj : ¬k = j := fun e => h (j, x) List.mem_cons_self e.symm
    rw [put]
    split
    · exact .refl _
    · exact ((ih fun q hq => h q (List.mem_cons_of_mem _ hq)).cons _).trans (.swap _ _ _)

theorem roundRows_fold (ps : List Contribution) : ∀ l : List (Nat × RowData), (ps.map (·.ctx)).Nodup →
    (∀ p ∈ ps, ∀ q ∈ l, q.1 ≠ p.ctx) → (ps.foldl (fun l p => put p.ctx p.row l) l).Perm (ps.map (fun p => (p.ctx, p.row)) ++ l) := by
  induction ps with
  | nil => exact fun l _ _ => .refl _
  | cons p ps ih =>
    intro l hnodup hnew
    obtain ⟨hp, hps⟩ := List.nodup_cons.mp (List.map_cons ▸ hnodup)
    have hput := put_perm p.row (hnew p List.mem_cons_self)
    refine (ih _ hps fun q hq x hx => ?_).trans ((hput.append_left _).trans List.perm_middle)
    rcases List.mem_cons.mp (hput.mem_iff.mp hx) with rfl | hx
    · exact fun e => hp (List.mem_map.mpr ⟨q, hq, e.symm⟩)
    · exact hnew q (List.mem_cons_of_mem _ hq) x hx

/-- The rows of a round are its contributions' rows, in some order (R369). -/
theorem roundRows_perm {ps : List Contribution} (h : (ps.map (·.ctx)).Nodup) : (roundRows ps).Perm (ps.map (·.row)) := by
  have hfold := roundRows_fold ps [] h fun _ _ q hq => absurd hq List.not_mem_nil
  rw [List.append_nil] at hfold
  have hmap := hfold.map (·.2)
  rwa [List.map_map] at hmap

/-! ## The landing of a complete round (R368) -/

/-- A round before its members have all contributed, or before the tree's latency has passed, does not land. -/
theorem effRoundLand_waits {s : State} {r : Round} (hr : s.rounds = [r]) (h : roundReady s r = false ∨ s.cycle < r.due) :
    effRoundLand r.launch r.inst r.dom s = s := by
  have hnot : ¬(roundReady s r = true ∧ r.due ≤ s.cycle) := fun ⟨hready, hdue⟩ =>
    h.elim (fun e => Bool.false_ne_true (e.symm.trans hready)) fun hlt => Nat.not_lt.mpr hdue hlt
  simp only [effRoundLand, hr, List.find?_cons, beq_self_eq_true, Bool.and_true, hnot, if_false]

/-- A complete round is closed and lands at its members one after another. -/
theorem effRoundLand_ready {s : State} {r : Round} (hr : s.rounds = [r]) (hready : roundReady s r = true) (hdue : r.due ≤ s.cycle) :
    effRoundLand r.launch r.inst r.dom s = r.parts.foldl (landPart r) { s with rounds := [] } := by
  simp only [effRoundLand, hr, List.find?_cons, List.filter_cons, List.filter_nil, beq_self_eq_true, Bool.and_true, hready, hdue,
    Bool.not_true, Bool.false_eq_true, if_false, if_true, and_self]
  rfl

/-- What a member's context reads once its value has landed. -/
theorem treeLanded_reads {d : SReg} (hd : d ≠ 0) (dom : Domain) (v : Word) (c : Ctx) : (c.treeLanded dom d v).rd d = v ∧
    (c.treeLanded dom d v).pending d = false ∧ (c.treeLanded dom d v).nredBusy.getLsbD (domCode dom) = false := by
  have hlt : domCode dom < 8 := by cases dom <;> decide
  refine ⟨?_, ?_, ?_⟩
  · exact (landReg_rd c d d v hd).trans (if_pos rfl)
  · exact (landReg_pending c d d v hd).trans (if_pos rfl)
  · exact (getLsbD_setBit _ _ _ _ hlt).trans (if_pos rfl)

/-- A complete round of one scalar operation lands its result at every member. -/
theorem round_lands {s : State} {r : Round} {op : NredOp} (hr : s.rounds = [r]) (hnodup : (r.parts.map (·.ctx)).Nodup)
    (hparts : ∀ p ∈ r.parts, p.merge = false ∧ p.op = op ∧ ∃ d, d ≠ 0 ∧ Awaits s r p d) (hready : roundReady s r = true)
    (hdue : r.due ≤ s.cycle) : let t := effRoundLand r.launch r.inst r.dom s
    t.rounds = [] ∧ (∀ p ∈ r.parts, ∀ d, p.dest = .reg d 8 true → (t.ctx p.ctx).rd d = (treeResult op r.parts).1 ∧
      (t.ctx p.ctx).pending d = false ∧ (t.ctx p.ctx).nredBusy.getLsbD (domCode r.dom) = false) ∧ SameBytes s t := by
  have hsame : sameOp r.parts = true := sameOp_of_op fun p hp => ⟨(hparts p hp).1, (hparts p hp).2.1⟩
  have hvalue : ∀ p ∈ r.parts, ∀ d, p.dest = .reg d 8 true →
      treeLanding r p = { Landing.empty with regs := [(d, (treeResult op r.parts).1)], nred := some r.dom } := fun p hp d hdest => by
    obtain ⟨hm, hop, -⟩ := hparts p hp
    rw [treeLanding_scalar hsame hm hdest, hop]
  obtain ⟨heq, -, hland⟩ := foldl_landPart hvalue r.parts { s with rounds := [] } (fun _ hp => hp) hnodup fun p hp => by
    obtain ⟨-, -, d, -, hdest, hgroup, hlive, hawake⟩ := hparts p hp
    exact ⟨d, hdest, hgroup, hlive, hawake⟩
  rw [effRoundLand_ready hr hready hdue]
  refine ⟨by rw [heq], fun p hp d hdest => ?_, by rw [heq]; exact .of_eq rfl rfl rfl rfl⟩
  obtain ⟨-, -, e, he, hawaits⟩ := hparts p hp
  obtain rfl : d = e := (Dest.reg.inj (hdest.symm.trans hawaits.dest)).1
  rw [hland p hp d hdest]
  exact treeLanded_reads he r.dom _ _

/-! ## Termination weight (R139, R332) -/

theorem wrCtx_wgt (cycle : Nat) (r : SReg) (v : Word) (c : Ctx) : (wrCtx cycle r v c).wgt = c.wgt := by
  unfold wrCtx Ctx.setS
  split <;> rfl

theorem setPend_wgt (c : Ctx) (r : SReg) (b : Bool) : (c.setPend r b).wgt = c.wgt := by rw [setPend_eq]

theorem wrS_wgt (d : SReg) (v : Word) (s : State) : ((wrS d v s).ctx s.cur).wgt = (s.ctx s.cur).wgt := by
  unfold wrS
  split
  · rw [wrFixed, ctx_modCtx_self]
    split
    · rfl
    · exact setPend_wgt _ _ _
  · rw [ctx_modCtx_self, wrCtx_wgt]

/-- The weight of a context set. -/
def setWgt (k : Nat) (w : BitVec 63) (s : State) : State := s.modCtx k fun c => { c with wgt := w }

theorem setWgt_ctx (k : Nat) (w : BitVec 63) (s : State) : (setWgt k w s).ctx k = { s.ctx k with wgt := w } :=
  ctx_modCtx_self s k fun c => { c with wgt := w }

/-- A weight of 2 or more is halved, the odd unit staying (R139). -/
theorem wsplit_halves {s : State} {d : SReg} (hruns : Runs (.wsplit d) s) (hw : 2 ≤ (s.ctx s.cur).wgt.toNat) :
    let k := s.cur
    let w := (s.ctx k).wgt
    ∃ t, exec (.wsplit d) s = .next t ∧ OnlyCtx k s t ∧
      ((s.ctx k).running = none → ∀ r, (t.ctx k).rd r = if r = d ∧ d ≠ 0 then BitVec.ofNat 64 (w.toNat / 2) else (s.ctx k).rd r) ∧
      (t.ctx k).wgt.toNat + w.toNat / 2 = w.toNat := by
  intro k w
  let u := setWgt k (BitVec.ofNat 63 (w.toNat - w.toNat / 2)) s
  have heff : effWsplit d s = wrS d (BitVec.ofNat 64 (w.toNat / 2)) u := by
    have hne : ¬(s.ctx s.cur).wgt.toNat = 1 := by omega
    simp only [effWsplit, hne, if_false]
    rfl
  have hu : u.ctx k = { s.ctx k with wgt := BitVec.ofNat 63 (w.toNat - w.toNat / 2) } := setWgt_ctx k _ s
  have hcur : u.cur = k := rfl
  refine ⟨_, next_runSlot hruns heff, (OnlyCtx.modCtx s k _).trans (wrS_only _ _ u), fun hrun r => ?_, ?_⟩
  · have hrd := wrS_rd d r (BitVec.ofNat 64 (w.toNat / 2)) u (by rw [hcur, hu]; exact hrun)
    rwa [hcur, hu] at hrd
  · have hwgt := wrS_wgt d (BitVec.ofNat 64 (w.toNat / 2)) u
    rw [hcur, hu] at hwgt
    have hlt := w.isLt
    rw [hwgt, BitVec.toNat_ofNat, Nat.mod_eq_of_lt (by omega)]
    omega

/-- With weight 1 a context borrows at the root before it splits (R139). -/
theorem wsplit_borrows {s : State} {d : SReg} {l : Nat} {root : Launch} (hl : (s.ctx s.cur).launch = some l)
    (hroot : find? s.launches (groupOf s l) = some root) (hruns : Runs (.wsplit d) s) (hw : (s.ctx s.cur).wgt = 1) (hd : d ≠ 0) :
    let k := s.cur
    ∃ t y z, exec (.wsplit d) s = .next t ∧ find? t.launches (groupOf s l) = some y ∧
      y.outstanding = signed64 (root.outstanding + 2 ^ 20) ∧ y.returns = root.returns ∧
      (t.ctx k).landings = (s.ctx k).landings ++ [z] ∧
      z.regs = [(d, BitVec.ofNat 64 (2 ^ 19))] ∧ (t.ctx k).wgt.toNat = 2 ^ 19 + 1 ∧ (t.ctx k).pending d = true := by
  intro k
  let u := setWgt k (BitVec.ofNat 63 (2 ^ 19 + 1)) s
  let b := u.modLaunch (groupOf s l) fun x => { x with outstanding := signed64 (x.outstanding + borrowUnits) }
  have hu : u.ctx k = { s.ctx k with wgt := BitVec.ofNat 63 (2 ^ 19 + 1) } := setWgt_ctx k _ s
  have hborrow : borrow k u = b := by simp only [borrow, hu, hl, k]; rfl
  have heff : effWsplit d s = offCore k (queueLanding k { Landing.empty with
      due := (borrow k u).cycle + 1, regs := [(d, BitVec.ofNat 64 (2 ^ 19))] } (setPending k [d] (borrow k u))) := by
    simp only [effWsplit, hw, show (1 : BitVec 63).toNat = 1 from rfl, if_true]
    rfl
  have hfind : find? b.launches (groupOf s l) = some { root with outstanding := signed64 (root.outstanding + borrowUnits) } := by
    rw [find_modLaunch, if_pos rfl]
    show Option.map _ (find? s.launches _) = _
    rw [hroot]
    rfl
  rw [hborrow] at heff
  have hb : b.ctx k = { s.ctx k with wgt := BitVec.ofNat 63 (2 ^ 19 + 1) } := (modLaunch_ctx u _ k _).trans hu
  refine ⟨_, { root with outstanding := signed64 (root.outstanding + borrowUnits) },
    { Landing.empty with seq := b.seq, due := b.cycle + 1, regs := [(d, BitVec.ofNat 64 (2 ^ 19))] }, next_runSlot hruns heff, ?_, rfl, rfl, ?_, ?_, ?_, ?_⟩
  · rw [offCore_eq]; exact hfind
  · rw [offCore_ctx, queueLanding_ctx, setPending_ctx, hb]; rfl
  · rfl
  · rw [offCore_ctx, queueLanding_ctx, setPending_ctx, hb]; rfl
  · rw [offCore_ctx, queueLanding_ctx]
    exact (setPending_pending k [d] d b).trans (by simp [show ¬d = 0#5 from hd])

/-- Units sent to the root join the launch's list. -/
theorem returnWeight_launch {s : State} {k l : Nat} (hl : (s.ctx k).launch = some l) (n : Int) :
    returnWeight k n s = s.modLaunch l fun x => { x with returns := x.returns ++ [n] } := by
  simp only [returnWeight, hl]

theorem returnWeight_find {s : State} {k l : Nat} {x : Launch} (hl : (s.ctx k).launch = some l) (hx : find? s.launches l = some x) (n : Int) :
    find? (returnWeight k n s).launches l = some { x with returns := x.returns ++ [n] } := by
  rw [returnWeight_launch hl, find_modLaunch, if_pos rfl, hx]
  rfl

/-- WRETURN with s0 sends all of the weight (R139). -/
theorem wreturn_all {s : State} {l : Nat} {x : Launch} (hl : (s.ctx s.cur).launch = some l) (hx : find? s.launches l = some x)
    (hruns : Runs (.wreturn 0) s) : let k := s.cur
    ∃ t y, exec (.wreturn 0) s = .next t ∧ (t.ctx k).wgt = 0 ∧ find? t.launches l = some y ∧
      y.returns = x.returns ++ [((s.ctx k).wgt.toNat : Int)] ∧ (t.ctx k).s = (s.ctx k).s := by
  intro k
  have hctx : (setWgt k 0 (returnWeight k (s.ctx k).wgt.toNat s)).ctx k = { s.ctx k with wgt := 0 } := by
    rw [setWgt_ctx, returnWeight_launch hl, modLaunch_ctx]
  exact ⟨_, _, next_runSlot hruns (show effWreturn 0 s = setWgt k 0 (returnWeight k (s.ctx k).wgt.toNat s) from rfl), by rw [hctx],
    returnWeight_find hl hx _, rfl, by rw [hctx]⟩

/-- WRETURN with a register sends as many units as it reads (R139). -/
theorem wreturn_some {s : State} {a : SReg} {l : Nat} {x : Launch} (hl : (s.ctx s.cur).launch = some l) (hx : find? s.launches l = some x)
    (hruns : Runs (.wreturn a) s) (ha : a ≠ 0) : ∃ t y, exec (.wreturn a) s = .next t ∧ t.ctxs = s.ctxs ∧ find? t.launches l = some y ∧
      y.returns = x.returns ++ [((rdS s a).toNat : Int)] := by
  have heff : effWreturn a s = returnWeight s.cur (rdS s a).toNat s := if_neg ha
  refine ⟨_, _, next_runSlot hruns heff, ?_, returnWeight_find hl hx _, rfl⟩
  rw [returnWeight_launch hl, modLaunch_ctxs]

/-- WSPLIT.ADD adds its units to the weight (R139). -/
theorem wsplitAdd_adds {s : State} {a : SReg} (hruns : Runs (.wsplitAdd a) s) (hfit : (s.ctx s.cur).wgt.toNat + (rdS s a).toNat < 2 ^ 63) :
    ∃ t, exec (.wsplitAdd a) s = .next t ∧ OnlyCtx s.cur s t ∧
      (t.ctx s.cur).wgt.toNat = (s.ctx s.cur).wgt.toNat + (rdS s a).toNat ∧ (t.ctx s.cur).s = (s.ctx s.cur).s := by
  have hctx : (effWsplitAdd a s).ctx s.cur =
      { s.ctx s.cur with wgt := BitVec.ofNat 63 ((s.ctx s.cur).wgt.toNat + (rdS s a).toNat) } :=
    ctx_modCtx_self s s.cur fun c => { c with wgt := BitVec.ofNat 63 (c.wgt.toNat + (rdS s a).toNat) }
  refine ⟨_, next_runSlot hruns rfl, OnlyCtx.modCtx s s.cur fun c => { c with wgt := BitVec.ofNat 63 (c.wgt.toNat + (rdS s a).toNat) }, ?_, by rw [hctx]⟩
  rw [hctx, BitVec.toNat_ofNat, Nat.mod_eq_of_lt hfit]

/-- A launch after a return of u units reached it as the root (R332). -/
def Launch.weighed (u : Int) (r l : Launch) : Launch :=
  let ends : Bool := !r.phaseEnded && decide (0 ≤ u) && decide (signed64 (r.outstanding - u) ≤ 0)
  { l with
    outstanding := signed64 (r.outstanding - u), phaseEnded := l.phaseEnded || ends, phaseOwed := l.phaseOwed || (ends && l.w.get 29 != 0) }

/-- The oldest return reaches the root; with no PHASE word nothing is written (R332). -/
theorem effWeightArrive_eq {s : State} {l : Nat} {x root : Launch} {u : Int} {rest : List Int} (hx : find? s.launches l = some x)
    (hroot : find? s.launches (groupOf s l) = some root) (hret : x.returns = u :: rest) (hphase : root.w.get 29 = 0) :
    effWeightArrive l s = (takeReturn l s).modLaunch (groupOf s l) (Launch.weighed u root) := by
  simp only [effWeightArrive, hx, hroot, hret, hphase, bne_self_eq_false, Bool.and_false, Bool.false_eq_true, if_false]
  rfl

theorem weighed_phaseEnded (u : Int) (root : Launch) : ((root.weighed u root).phaseEnded = true ↔
    root.phaseEnded = true ∨ 0 ≤ u ∧ signed64 (root.outstanding - u) ≤ 0) := by
  cases h : root.phaseEnded <;> simp [Launch.weighed, h]

/-- An arriving return lowers the root's count by its units, and the phase ends once (R332). -/
theorem weightReturn_arrives {s : State} {l : Nat} {x root : Launch} {u : Int} {rest : List Int} (hx : find? s.launches l = some x)
    (hroot : find? s.launches (groupOf s l) = some root) (hret : x.returns = u :: rest) (hphase : root.w.get 29 = 0) :
    ∃ t y z, exec (.weightReturnArrive l) s = .next t ∧ find? t.launches (groupOf s l) = some y ∧ find? t.launches l = some z ∧
      z.returns = rest ∧ y.outstanding = signed64 (root.outstanding - u) ∧
      (y.phaseEnded = true ↔ root.phaseEnded = true ∨ 0 ≤ u ∧ signed64 (root.outstanding - u) ≤ 0) ∧ SameBytes s t := by
  have htaken : find? (takeReturn l s).launches l = some { x with returns := rest } := by
    rw [takeReturn, find_modLaunch, if_pos rfl, hx, Option.map_some, hret]
    rfl
  have hbytes : SameBytes s ((takeReturn l s).modLaunch (groupOf s l) (Launch.weighed u root)) := by
    rw [modLaunch_eq, takeReturn, modLaunch_eq]
    exact .of_eq rfl rfl rfl rfl
  have hnext : exec (.weightReturnArrive l) s = .next ((takeReturn l s).modLaunch (groupOf s l) (Launch.weighed u root)) :=
    congrArg Host.Outcome.next (effWeightArrive_eq hx hroot hret hphase)
  by_cases hl : groupOf s l = l
  · rw [hl, hx] at hroot
    obtain rfl := Option.some.inj hroot
    have hfind : find? ((takeReturn l s).modLaunch (groupOf s l) (Launch.weighed u x)).launches l =
        some (Launch.weighed u x { x with returns := rest }) := by
      rw [find_modLaunch, hl, if_pos rfl, htaken]
      rfl
    exact ⟨_, Launch.weighed u x { x with returns := rest }, _, hnext, by rw [hl] at hfind ⊢; exact hfind, hfind, rfl, rfl, weighed_phaseEnded u x, hbytes⟩
  · have hfindRoot : find? ((takeReturn l s).modLaunch (groupOf s l) (Launch.weighed u root)).launches (groupOf s l) =
        some (Launch.weighed u root root) := by
      rw [find_modLaunch, if_pos rfl, takeReturn, find_modLaunch, if_neg hl, hroot]
      rfl
    have hfind : find? ((takeReturn l s).modLaunch (groupOf s l) (Launch.weighed u root)).launches l = some { x with returns := rest } := by
      rw [find_modLaunch, if_neg (Ne.symm hl), htaken]
    exact ⟨_, _, _, hnext, hfindRoot, hfind, rfl, rfl, weighed_phaseEnded u root, hbytes⟩

/-! ## The obligation -/

/-- Settles O41: a round takes contributions and lands them by folding over its members; weight is counted at the root. -/
theorem collectivesAndWeight : Obligations.CollectivesAndWeight := by
  refine ⟨⟨fun s d a b dom op hd hruns => ⟨fun hr => nred_joins hd hruns (.inl ⟨hr, rfl⟩), fun r hr hsame =>
      nred_joins hd hruns (.inr ⟨r, hr, hsame, rfl⟩)⟩,
    fun s t u row dom td us hruns ht hu => ⟨fun hr => mergek_joins hruns ht hu (.inl ⟨hr, rfl⟩), fun r hr hsame =>
      mergek_joins hruns ht hu (.inr ⟨r, hr, hsame, rfl⟩)⟩,
    ?_, rfl,
    fun ps => ⟨treeResult_sum ps, fun i hi => ⟨treeResult_and ps hi, treeResult_or ps i⟩, fun h =>
      ⟨treeResult_max h, treeResult_min h, treeResult_bcast h, treeResult_maxkey h⟩⟩,
    mergeRows_lanes, fun a b h => ?_, fun x hx => ⟨keyRank_pos, keyRank_nan hx⟩, ?_, fun r p x y hx hy hxm hym hne => ?_⟩,
    fun s d a l x root hl hx hroot => ⟨wsplit_halves, wsplit_borrows hl hroot, wreturn_all hl hx, wreturn_some hl hx, wsplitAdd_adds⟩,
    fun s l x root u rest hx hroot hret hphase => weightReturn_arrives hx hroot hret hphase⟩
  · rintro s _ _ _ r op hr rfl rfl rfl - hnodup hparts
    refine ⟨fun h => congrArg Host.Outcome.next (effRoundLand_waits hr h), fun hready hdue => ⟨_, rfl, round_lands hr hnodup (fun p hp => ?_) hready hdue⟩⟩
    obtain ⟨hm, hop, ⟨d, hd, hdest⟩, hgroup, hlive, hawake⟩ := hparts p hp
    exact ⟨hm, hop, d, hd, hdest, hgroup, hlive, hawake⟩
  · rw [entryBefore_iff]
    omega
  · intro r p key hp hmerge hdest hnodup
    refine ⟨roundRows r.parts, roundRows_perm hnodup, ?_⟩
    simp only [treeLanding, sameOp_of_merge hmerge, hmerge p hp, hdest, Bool.not_true, Bool.false_eq_true, if_false, if_true]
    exact ⟨rfl, rfl⟩
  · refine treeLanding_mixed (eq_false_of_ne_true fun h => hne (op_eq_of_sameOp h hx hy hxm hym)) p

end Sys2Proof.Machine
end

section
/-! PROOFS. The counterexample to AccessEvents: a FADDT that wakes a WAITW of its own context. -/

namespace Sys2Proof.Machine

/-- FADDT of s2, with the threshold s3, at the address in s4. -/
def wakingAdd : Instr := .faddt 2 4 .core (.short 0)

/-- The last 8 bytes of bank 15 of core 0. -/
def wakingWord : Word := 0xFC0000000001FFF8

/-- A context with 1 to add, the threshold 1 and the address of the word. -/
def addingCtx : Ctx := { status := .running, s := vset (vset (vset (Vector.replicate 32 0) 2 1) 3 1) 4 wakingWord }

/-- That context, of a core that the tenant 1 holds, is about to issue its bundle. -/
def addingState : State := { State.reset with ctxs := [(0, addingCtx)], cores := [(0, { tenant := some 1 })] }

/-- The request that FADDT leaves. -/
def addRequest : Req := {
  seq := 0, acc := .faddt 1 1, addr := wakingWord, dest := .reg 2 8 true, ord := relAt .core, user := true, pc := addingCtx.pc
  plain := true, metClosed := false, due := 1, state := .issued }

/-- A younger WAITW of the same context for the value 1, registered on the same word. -/
def ownWaitw : Req := { addRequest with seq := 1, acc := .waitw 1 0, ord := {}, state := .registered }

/-- The bank's slot has come for FADDT, and the bank's registry holds the WAITW. -/
def ownWaiter : State := { State.reset with
  cycle := 4, ctxs := [(0, { reqs := [addRequest, ownWaitw] })]
  banks := [(15, { waiters := [⟨.ctx 0 1, localKey 0 wakingWord, 1, 0, false⟩] })] }

theorem wakingAdd_runs : Runs wakingAdd addingState := ⟨by decide, .inr (by decide +kernel)⟩

theorem wakingAdd_request : (match exec wakingAdd addingState with | .next t => (t.ctx 0).reqs | _ => []) = [addRequest] := by decide +kernel

theorem ownWaiter_serves : Serves ownWaiter 0 0 15 addRequest .own false := by
  have h : chosenAt ownWaiter 15 = some ⟨15, .own, 0, 0, 0, 0, false, .ctx 0 0 0⟩ ∧
      (ownWaiter.ctx 0).reqs.find? (fun x => x.seq = addRequest.seq) = some addRequest ∧ oddOfPair ownWaiter 15 = false := by decide +kernel
  obtain ⟨hchosen, hfind, hodd⟩ := h
  exact ⟨by decide, by decide, by decide, by decide, rfl, ⟨_, hchosen, rfl, rfl, rfl⟩, hfind, rfl, rfl, rfl, rfl, hodd, rfl⟩

/-- FADDT raises the word from 0 to the threshold: the WAITW is woken, and its request is over as well (R124). -/
theorem ownWaiter_woken : (match exec (slotEvent 0 15 false) ownWaiter with | .next t => (t.ctx 0).reqs | _ => []) = [] := by decide +kernel

/-- Refutes O29: a FADDT whose crossing wakes a WAITW of its own context ends two requests, while `Over` keeps every request but
the one served: the statement frees `Performed` alone of the waiters, and takes any state that serves FADDT, one with a younger
registered WAITW (R310) among them. -/
theorem not_accessEvents : ¬ Obligations.AccessEvents := by
  rintro ⟨h, -⟩
  obtain ⟨t, l, hexec, hreqs, -, -, hserved⟩ := h wakingAdd addingState rfl wakingAdd_runs rfl
  have hl : l = [addRequest] := by
    have hreq := wakingAdd_request
    rw [hexec] at hreq
    exact hreqs.symm.trans hreq
  obtain ⟨v, hserve, ⟨hover, -⟩, -⟩ := (hserved addRequest (hl ▸ List.mem_singleton_self _) ownWaiter 0 15 .own false ownWaiter_serves rfl).1
    (fun f hf => absurd hf List.not_mem_nil) nofun
  have hwoken := ownWaiter_woken
  rw [hserve] at hwoken
  have hkept : ownWaitw ∈ (v.ctx 0).reqs := (hover ownWaitw).mpr ⟨by decide, by decide⟩
  rw [show (v.ctx 0).reqs = [] from hwoken] at hkept
  exact absurd hkept List.not_mem_nil

end Sys2Proof.Machine
end

section
/-! PROOFS. Bytes of banks read after a write (R4), the frame of a write inside one bank, and the fields of a valid descriptor
(R143 to R146). -/

namespace Sys2Proof.Machine

/-! ## Reading a part of what was written -/

/-- Reading in two parts. -/
theorem readN_add (m : List Host.Cell) (j k : Nat) : ∀ a, readN m a (j + k) = readN m a j + 256 ^ j * readN m (a + j) k := by
  induction j with
  | zero => intro a; simp [readN]
  | succ j ih =>
    intro a
    rw [Nat.succ_add, readN, readN, ih, Nat.pow_succ, Nat.add_assoc a 1 j, Nat.add_comm 1 j]
    ring

/-- A part of n bytes that were written reads that part of the number. -/
theorem readN_writeN_part {n off k : Nat} (h : off + k ≤ n) (m : List Host.Cell) (a v : Nat) :
    readN (writeN m a n v) (a + off) k = v / 256 ^ off % 256 ^ k := by
  rw [← readN_writeN k m (a + off) (v / 256 ^ off)]
  refine readN_congr k _ fun b hlo hhi => ?_
  rw [readByte_writeN, readByte_writeN, if_pos (by omega), if_pos (by omega), Nat.div_div_eq_div_mul, ← Nat.pow_add,
    show off + (b - (a + off)) = b - a by omega]

section
variable (key n v : Nat) (s : State)

@[simp] theorem bankWrite_bank (b : Nat) : (bankWrite key n v s).bank b = s.bank b := rfl
@[simp] theorem bankWrite_descOf (b : Nat) : descOf (bankWrite key n v s) b = descOf s b := rfl

end

@[simp] theorem modBank_bankRead (s : State) (b : Nat) (f) (key n : Nat) : bankRead (s.modBank b f) key n = bankRead s key n := rfl
@[simp] theorem modBank_hdCount (s : State) (b : Nat) (f) (x : Nat) : hdCount (s.modBank b f) x = hdCount s x := rfl
@[simp] theorem modBank_hdHead (s : State) (b : Nat) (f) (x : Nat) : hdHead (s.modBank b f) x = hdHead s x := rfl
@[simp] theorem modBank_elemAt (s : State) (b : Nat) (f) (d : Word) (x i : Nat) : elemAt (s.modBank b f) d x i = elemAt s d x i := rfl

/-- The same bytes where a range of bank space is read. -/
theorem bankRead_congr {s t : State} {key n : Nat} (h : ∀ a, key ≤ a → a < key + n → readByte t.bankMem a = readByte s.bankMem a) :
    bankRead t key n = bankRead s key n := readN_congr n _ h

theorem bankRead_lt (s : State) (key n : Nat) : bankRead s key n < 256 ^ n := readN_lt _ _ _

/-- What was written is read (R4). -/
theorem bankRead_bankWrite (s : State) (key n v : Nat) : bankRead (bankWrite key n v s) key n = v % 256 ^ n := readN_writeN n _ _ _

/-- A range apart from the one written reads as before. -/
theorem bankRead_bankWrite_apart (s : State) {key n key' n' : Nat} (v : Nat) (h : key' + n' ≤ key ∨ key + n ≤ key') :
    bankRead (bankWrite key n v s) key' n' = bankRead s key' n' := by
  refine bankRead_congr fun a hlo hhi => ?_
  rw [readByte_bankWrite, if_neg (by omega)]

/-- A part of the range that was written. -/
theorem bankRead_bankWrite_part (s : State) {key n off k : Nat} (v : Nat) (h : off + k ≤ n) :
    bankRead (bankWrite key n v s) (key + off) k = v / 256 ^ off % 256 ^ k := readN_writeN_part h _ _ _

/-! ## Writes inside one bank -/

theorem OnlyBank.refl (b : Nat) (s : State) : OnlyBank b s s := ⟨rfl, fun _ _ => rfl, rfl, fun _ _ => rfl⟩

theorem OnlyBank.trans {b : Nat} {s t u : State} (h : OnlyBank b s t) (h' : OnlyBank b t u) : OnlyBank b s u := by
  obtain ⟨hst, hbanks, hdesc, hbytes⟩ := h
  obtain ⟨htu, hbanks', hdesc', hbytes'⟩ := h'
  exact ⟨by rw [htu, hst], fun x hx => (hbanks' x hx).trans (hbanks x hx), hdesc'.trans hdesc, fun a ha => (hbytes' a ha).trans (hbytes a ha)⟩

theorem OnlyBank.poison {b : Nat} {s t : State} (h : OnlyBank b s t) : t.bankPoison = s.bankPoison := by rw [h.1]

/-- A write of n bytes at an offset of a bank without poison. -/
theorem onlyBank_bankWrite {b off n : Nat} {s : State} (hp : s.bankPoison = []) (h : off + n ≤ 8192) (v : Nat) :
    OnlyBank b s (bankWrite (bkey b off) n v s) := by
  refine ⟨?_, fun _ _ => rfl, rfl, fun a ha => ?_⟩
  · show bankWrite (bkey b off) n v s = { s with bankMem := (bankWrite (bkey b off) n v s).bankMem }
    rw [bankWrite, if_pos hp, ← hp]
  · rw [readByte_bankWrite, if_neg (by unfold bkey; omega)]

/-- A bank's ages changed. -/
theorem onlyBank_ages (b : Nat) (s : State) (f : List Nat → List Nat) : OnlyBank b s (s.modBank b fun x => { x with ages := f x.ages }) := by
  refine ⟨rfl, fun x hx => bank_modBank_ne _ _ _ _ hx, ?_, fun _ _ => rfl⟩
  rw [descOf, bank_modBank_self]
  rfl

/-! ## Fields -/

theorem wf_lt (x : Word) (hi lo : Nat) : wf x hi lo < 2 ^ (hi + 1 - lo) := Nat.mod_lt _ (Nat.two_pow_pos _)

/-- The bytes of an element (R144). -/
theorem ewBytes_eq (d : Word) : ewOf d / 8 = 2 ^ wf d 17 16 := by rw [ewOf, Nat.mul_div_cancel_left _ (by decide)]

/-- A value of EW bits fills an element's bytes (R144). -/
theorem pow_ewBytes (d : Word) : 256 ^ (ewOf d / 8) = 2 ^ ewOf d := by
  rw [ewBytes_eq, ewOf, show 256 = 2 ^ 8 from rfl, ← Nat.pow_mul]

theorem ewOf_le (d : Word) : ewOf d ≤ 64 := by
  have h : 2 ^ wf d 17 16 ≤ 2 ^ 3 := Nat.pow_le_pow_right (by decide) (Nat.le_of_lt_succ (wf_lt d 17 16))
  rw [ewOf]
  omega

/-- A number of EW bits is one of 8 bytes. -/
theorem mod_ewOf_lt (d : Word) (v : Nat) : v % 2 ^ ewOf d < 2 ^ 64 :=
  (Nat.mod_lt v (Nat.two_pow_pos _)).trans_le (Nat.pow_le_pow_right (by decide) (ewOf_le d))

theorem kwOf_le (d : Word) : kwOf d ≤ 64 := by
  have h : 2 ^ wf d 19 18 ≤ 2 ^ 3 := Nat.pow_le_pow_right (by decide) (Nat.le_of_lt_succ (wf_lt d 19 18))
  rw [kwOf]
  omega

/-- A key is a number of 8 bytes. -/
theorem mod_kwOf_lt (d : Word) (v : Nat) : v % 2 ^ kwOf d < 2 ^ 64 :=
  (Nat.mod_lt v (Nat.two_pow_pos _)).trans_le (Nat.pow_le_pow_right (by decide) (kwOf_le d))

section
variable {d : Word} {n : Nat} (h : descValid d n = true)
include h

/-- The slots of a QUEUE or STACK lie in its bank (R144). -/
theorem seq_fits (hk : kindOf d = 1 ∨ kindOf d = 2) : capOf d * (ewOf d / 8) ≤ 8128 := by
  rw [ewBytes_eq]
  refine (Nat.le_div_iff_mul_le (Nat.two_pow_pos _)).mp ?_
  rcases hk with hk | hk <;> simp only [descValid, hk, Bool.and_eq_true, decide_eq_true_eq] at h <;> omega

/-- The slots of a MAP or HEAP lie in its bank (R144). -/
theorem cap_le_508 (hk : kindOf d = 3 ∨ kindOf d = 4) : capOf d ≤ 508 := by
  rcases hk with hk | hk <;> simp only [descValid, hk, Bool.and_eq_true, decide_eq_true_eq] at h <;> omega

/-- The bins of a HIST lie in its bank (R144). -/
theorem bmask_le (hk : kindOf d = 5) : bmaskOf d ≤ 2031 := by
  simp only [descValid, hk, Bool.and_eq_true, decide_eq_true_eq] at h
  exact h.2

end

end Sys2Proof.Machine
end

section
/-! PROOFS. QUEUE and STACK banks (R146, R147): what PUT and TAKE leave of the header, of the slots and of the elements. -/

namespace Sys2Proof.Machine

/-- The image of a QUEUE or STACK is well formed and its slots lie in the bank (R144 to R146). -/
def SeqImage (s : State) (b : Nat) : Prop :=
  (kindOf (descOf s b) = 1 ∨ kindOf (descOf s b) = 2) ∧ capOf (descOf s b) * (ewOf (descOf s b) / 8) ≤ 8128 ∧
  hdCount s b ≤ capOf (descOf s b) ∧ s.bankPoison = [] ∧
  (kindOf (descOf s b) = 1 → hdHead s b < capOf (descOf s b) ∧ hdTail s b = (hdHead s b + hdCount s b) % capOf (descOf s b))

theorem ImageBank.seqImage {s : State} {b : Nat} (h : ImageBank s b) (hk : kindOf (descOf s b) = 1 ∨ kindOf (descOf s b) = 2) : SeqImage s b := by
  obtain ⟨-, hvalid, -, -, -, -, -, hpoison, hcount, hqueue⟩ := h
  exact ⟨hk, seq_fits hvalid hk, hcount, hpoison, hqueue⟩

/-- A slot below CAP ends inside the bank. -/
theorem SeqImage.slot_fits {s : State} {b i : Nat} (h : SeqImage s b) (hi : i < capOf (descOf s b)) :
    0x40 + i * (ewOf (descOf s b) / 8) + ewOf (descOf s b) / 8 ≤ 8192 := by
  have := Nat.mul_le_mul_right (ewOf (descOf s b) / 8) (Nat.succ_le_of_lt hi)
  have := h.2.1
  rw [Nat.succ_mul] at *
  omega

theorem capOf_lt (d : Word) : capOf d < 2 ^ 13 := wf_lt d 15 3

theorem slotBytes_seq {d : Word} (hk : kindOf d = 1 ∨ kindOf d = 2) : slotBytes d = ewOf d / 8 := by
  rcases hk with hk | hk <;> simp only [slotBytes, hk]

/-- Different steps below c from one place go to different places of a ring of c. -/
theorem add_mod_ne (h : Nat) {i n c : Nat} (hi : i < n) (hn : n < c) : (h + i) % c ≠ (h + n) % c := fun e => by
  have e : i % c = n % c := Nat.ModEq.add_left_cancel' h e
  rw [Nat.mod_eq_of_lt (hi.trans hn), Nat.mod_eq_of_lt hn] at e
  exact hi.ne e

/-- Two slots share no byte. -/
theorem slots_apart {w i j : Nat} (h : i ≠ j) : i * w + w ≤ j * w ∨ j * w + w ≤ i * w := by
  rcases Nat.lt_or_gt_of_ne h with h | h
  · exact .inl (by rw [← Nat.succ_mul]; exact Nat.mul_le_mul_right w h)
  · exact .inr (by rw [← Nat.succ_mul]; exact Nat.mul_le_mul_right w h)

/-- An element read after a write into slot j. -/
theorem elemAt_bankWrite_slot {d : Word} (hk : kindOf d = 1 ∨ kindOf d = 2) (s : State) (b i j v : Nat) :
    elemAt (bankWrite (slotKey d b j) (ewOf d / 8) v s) d b i = if i = j then v % 2 ^ ewOf d else elemAt s d b i := by
  unfold elemAt slotKey
  rw [slotBytes_seq hk]
  split
  · next h => rw [h, bankRead_bankWrite, pow_ewBytes]
  · next h =>
    have := slots_apart (w := ewOf d / 8) h
    exact bankRead_bankWrite_apart _ _ (by unfold bkey; omega)

/-- A write into the header leaves the elements. -/
theorem elemAt_bankWrite_header {d : Word} (s : State) {off n : Nat} (h : off + n ≤ 0x40) (b i v : Nat) :
    elemAt (bankWrite (bkey b off) n v s) d b i = elemAt s d b i :=
  bankRead_bankWrite_apart _ _ (by unfold slotKey bkey; omega)

/-- A write into a slot leaves the header. -/
theorem header_bankWrite_slot {off n : Nat} (h : off + n ≤ 0x40) (d : Word) (b j w v : Nat) (s : State) :
    bankRead (bankWrite (slotKey d b j) w v s) (bkey b off) n = bankRead s (bkey b off) n :=
  bankRead_bankWrite_apart _ _ (by unfold slotKey bkey; omega)

/-- The elements of a QUEUE, oldest first. -/
theorem elems_queue {s : State} {b : Nat} (hk : kindOf (descOf s b) = 1) : elems s b =
    (List.range (hdCount s b)).map fun i => elemAt s (descOf s b) b ((hdHead s b + i) % capOf (descOf s b)) := by simp only [elems, hk, if_true]

/-- The elements of a STACK, top first. -/
theorem elems_stack {s : State} {b : Nat} (hk : kindOf (descOf s b) = 2) : elems s b =
    (List.range (hdCount s b)).map fun i => elemAt s (descOf s b) b (hdCount s b - 1 - i) := by
  simp only [elems, hk, Nat.reduceEqDiff, if_false]

@[simp] theorem length_elems (s : State) (b : Nat) : (elems s b).length = hdCount s b := by
  unfold elems
  dsimp only
  split <;> rw [List.length_map, List.length_range]

/-- An element is a number of EW bits. -/
theorem elems_lt {s : State} {b x : Nat} (hx : x ∈ elems s b) : x < 256 ^ (ewOf (descOf s b) / 8) := by
  unfold elems at hx
  dsimp only at hx
  split at hx
  · obtain ⟨i, -, rfl⟩ := List.mem_map.mp hx
    exact bankRead_lt _ _ _
  · obtain ⟨i, -, rfl⟩ := List.mem_map.mp hx
    exact bankRead_lt _ _ _

/-! ## PUT -/

/-- The bytes that a PUT writes. -/
def putBytes (b v : Nat) (s : State) : State :=
  let d := descOf s b
  bankWrite (bkey b 8) 4 (hdCount s b + 1) (if kindOf d = 1 then
    bankWrite (bkey b 4) 4 ((hdTail s b + 1) % capOf d) (bankWrite (slotKey d b (hdTail s b)) (ewOf d / 8) v s)
  else bankWrite (slotKey d b (hdCount s b)) (ewOf d / 8) v s)

/-- A PUT writes its bytes and takes the next age. -/
theorem putOne_eq (b v : Nat) (s : State) : putOne b v s =
    { (putBytes b v s).modBank b (fun x => { x with ages := x.ages ++ [s.seq] }) with seq := s.seq + 1 } := by
  unfold putOne putBytes
  dsimp only
  split <;> rfl

theorem putOne_bankMem (b v : Nat) (s : State) : (putOne b v s).bankMem = (putBytes b v s).bankMem := by rw [putOne_eq]; rfl

theorem bankRead_putOne (b v key n : Nat) (s : State) : bankRead (putOne b v s) key n = bankRead (putBytes b v s) key n := by
  rw [bankRead, putOne_bankMem, ← bankRead]

theorem putBytes_descOf (b v : Nat) (s : State) : descOf (putBytes b v s) b = descOf s b := by
  unfold putBytes
  dsimp only
  split <;> rfl

theorem putOne_descOf (b v : Nat) (s : State) : descOf (putOne b v s) b = descOf s b := by
  rw [putOne_eq]
  exact (onlyBank_ages b (putBytes b v s) fun l => l ++ [s.seq]).2.2.1.trans (putBytes_descOf b v s)

section
variable {s : State} {b : Nat} (h : SeqImage s b) (hroom : hdCount s b < capOf (descOf s b)) (v : Nat)
include h hroom

/-- The slot that a PUT fills is one of the bank's. -/
theorem putSlot_lt : (if kindOf (descOf s b) = 1 then hdTail s b else hdCount s b) < capOf (descOf s b) := by
  obtain ⟨-, -, -, -, hqueue⟩ := h
  split
  · next hk => rw [(hqueue hk).2]; exact Nat.mod_lt _ (by omega)
  · exact hroom

theorem onlyBank_putOne : OnlyBank b s (putOne b v s) := by
  have hslot := h.slot_fits (putSlot_lt h hroom)
  have hwrite (j : Nat) (hj : j = if kindOf (descOf s b) = 1 then hdTail s b else hdCount s b) :
      OnlyBank b s (bankWrite (slotKey (descOf s b) b j) (ewOf (descOf s b) / 8) v s) :=
    onlyBank_bankWrite h.2.2.2.1 (by rw [slotBytes_seq h.1, hj]; exact hslot) v
  have hbytes : OnlyBank b s (putBytes b v s) := by
    unfold putBytes
    dsimp only
    split
    · next hk =>
      have h1 := hwrite (hdTail s b) (by rw [if_pos hk])
      have h2 := h1.trans (onlyBank_bankWrite (off := 4) (n := 4) (h1.poison.trans h.2.2.2.1) (by decide)
        ((hdTail s b + 1) % capOf (descOf s b)))
      exact h2.trans (onlyBank_bankWrite (h2.poison.trans h.2.2.2.1) (by decide) _)
    · next hk =>
      have h1 := hwrite (hdCount s b) (by rw [if_neg hk])
      exact h1.trans (onlyBank_bankWrite (h1.poison.trans h.2.2.2.1) (by decide) _)
  rw [putOne_eq]
  exact (hbytes.trans (onlyBank_ages b _ fun l => l ++ [s.seq])).trans ⟨rfl, fun _ _ => rfl, rfl, fun _ _ => rfl⟩

end

theorem hdCount_putOne {s : State} {b : Nat} (hroom : hdCount s b < capOf (descOf s b)) (v : Nat) : hdCount (putOne b v s) b = hdCount s b + 1 := by
  have := capOf_lt (descOf s b)
  rw [hdCount, bankRead_putOne, putBytes, bankRead_bankWrite, Nat.mod_eq_of_lt (by omega)]

theorem elemAt_putOne {s : State} {b : Nat} (h : SeqImage s b) (v i : Nat) : elemAt (putOne b v s) (descOf s b) b i =
    if i = (if kindOf (descOf s b) = 1 then hdTail s b else hdCount s b) then v % 2 ^ ewOf (descOf s b) else elemAt s (descOf s b) b i := by
  rw [elemAt, bankRead_putOne, putBytes, ← elemAt, elemAt_bankWrite_header _ (by decide)]
  split
  · rw [elemAt_bankWrite_header _ (by decide), elemAt_bankWrite_slot h.1]
  · rw [elemAt_bankWrite_slot h.1]

theorem hdHead_putOne {s : State} {b : Nat} (hk : kindOf (descOf s b) = 1) (v : Nat) : hdHead (putOne b v s) b = hdHead s b := by
  rw [hdHead, bankRead_putOne, putBytes, bankRead_bankWrite_apart _ _ (by unfold bkey; omega), if_pos hk,
    bankRead_bankWrite_apart _ _ (by unfold bkey; omega), header_bankWrite_slot (by decide), hdHead]

theorem hdTail_putOne {s : State} {b : Nat} (hk : kindOf (descOf s b) = 1) (hroom : hdCount s b < capOf (descOf s b)) (v : Nat) :
    hdTail (putOne b v s) b = (hdTail s b + 1) % capOf (descOf s b) := by
  have := capOf_lt (descOf s b)
  have := Nat.mod_lt (hdTail s b + 1) (show 0 < capOf (descOf s b) by omega)
  have hread : hdTail (putOne b v s) b = (hdTail s b + 1) % capOf (descOf s b) % 256 ^ 4 := by
    rw [hdTail, bankRead_putOne, putBytes, bankRead_bankWrite_apart _ _ (by unfold bkey; omega), if_pos hk, bankRead_bankWrite]
  rw [hread, Nat.mod_eq_of_lt (by omega)]

section
variable {s : State} {b : Nat} (h : SeqImage s b) (hroom : hdCount s b < capOf (descOf s b)) (v : Nat)
include h hroom

/-- A PUT keeps the image well formed. -/
theorem seqImage_putOne : SeqImage (putOne b v s) b := by
  have honly := onlyBank_putOne h hroom v
  obtain ⟨hk, hfits, -, hpoison, hqueue⟩ := h
  rw [SeqImage, putOne_descOf, hdCount_putOne hroom]
  refine ⟨hk, hfits, hroom, honly.poison.trans hpoison, fun hk1 => ?_⟩
  obtain ⟨hhead, htail⟩ := hqueue hk1
  rw [hdHead_putOne hk1, hdTail_putOne hk1 hroom, htail, Nat.mod_add_mod, Nat.add_assoc]
  exact ⟨hhead, rfl⟩

/-- PUT at the tail of a QUEUE, at the top of a STACK (R146). -/
theorem elems_putOne : elems (putOne b v s) b = if kindOf (descOf s b) = 1 then elems s b ++ [v % 2 ^ ewOf (descOf s b)]
    else v % 2 ^ ewOf (descOf s b) :: elems s b := by
  have hdesc := putOne_descOf b v s
  have hcount := hdCount_putOne hroom v
  split
  · next hk =>
    obtain ⟨hhead, htail⟩ := h.2.2.2.2 hk
    rw [elems_queue (by rw [hdesc]; exact hk), elems_queue hk, hdesc, hcount, hdHead_putOne hk, List.range_succ, List.map_append]
    congr 1
    · refine List.map_congr_left fun i hi => ?_
      have hi := List.mem_range.mp hi
      rw [elemAt_putOne h, if_pos hk, htail, if_neg (add_mod_ne _ hi hroom)]
    · simp only [List.map_cons, List.map_nil, elemAt_putOne h, if_pos hk, htail, if_true]
  · next hk =>
    have hk2 := h.1.resolve_left hk
    rw [elems_stack (by rw [hdesc]; exact hk2), elems_stack hk2, hdesc, hcount, List.range_succ_eq_map, List.map_cons, List.map_map]
    congr 1
    · rw [elemAt_putOne h, if_neg hk, if_pos (by omega)]
    · refine List.map_congr_left fun i hi => ?_
      have hi := List.mem_range.mp hi
      rw [Function.comp, elemAt_putOne h, if_neg hk, if_neg (by omega)]
      congr 1
      omega

end

/-! ## TAKE -/

/-- The bytes that a TAKE writes. -/
def takeBytes (b : Nat) (s : State) : State :=
  let counted := bankWrite (bkey b 8) 4 (hdCount s b - 1) s
  if kindOf (descOf s b) = 1 then bankWrite (bkey b 0) 4 ((hdHead s b + 1) % capOf (descOf s b)) counted else counted

/-- A TAKE writes its bytes and drops an age. -/
theorem takeOne_eq (b : Nat) (s : State) : (takeOne b s).2 =
    (takeBytes b s).modBank b fun x => { x with ages := (if kindOf (descOf s b) = 1 then List.tail else List.dropLast) x.ages } := by
  unfold takeOne takeBytes
  dsimp only
  split <;> rfl

theorem onlyBank_takeOne {s : State} {b : Nat} (hp : s.bankPoison = []) : OnlyBank b s (takeOne b s).2 := by
  have hcounted : OnlyBank b s (bankWrite (bkey b 8) 4 (hdCount s b - 1) s) := onlyBank_bankWrite hp (by decide) _
  have hbytes : OnlyBank b s (takeBytes b s) := by
    unfold takeBytes
    dsimp only
    split
    · exact hcounted.trans (onlyBank_bankWrite (hcounted.poison.trans hp) (by decide) _)
    · exact hcounted
  rw [takeOne_eq]
  exact hbytes.trans (onlyBank_ages b _ _)

theorem elemAt_takeOne (s : State) (d : Word) (b i : Nat) : elemAt (takeOne b s).2 d b i = elemAt s d b i := by
  rw [takeOne_eq, modBank_elemAt]
  unfold takeBytes
  dsimp only
  split
  · rw [elemAt_bankWrite_header _ (by decide), elemAt_bankWrite_header _ (by decide)]
  · rw [elemAt_bankWrite_header _ (by decide)]

theorem hdCount_takeOne {s : State} {b n : Nat} (hn : hdCount s b = n + 1) : hdCount (takeOne b s).2 b = n := by
  have hlt : hdCount s b < 256 ^ 4 := bankRead_lt _ _ _
  have hread : hdCount (bankWrite (bkey b 8) 4 (hdCount s b - 1) s) b = n := by
    rw [hdCount, bankRead_bankWrite, Nat.mod_eq_of_lt (by omega), hn, Nat.add_sub_cancel]
  rw [takeOne_eq, modBank_hdCount]
  unfold takeBytes
  dsimp only
  split
  · rw [← hread, hdCount, bankRead_bankWrite_apart _ _ (by unfold bkey; omega), ← hdCount]
  · exact hread

theorem hdHead_takeOne {s : State} {b : Nat} (hk : kindOf (descOf s b) = 1) (hhead : hdHead s b < capOf (descOf s b)) :
    hdHead (takeOne b s).2 b = (hdHead s b + 1) % capOf (descOf s b) := by
  have := capOf_lt (descOf s b)
  have := Nat.mod_lt (hdHead s b + 1) (show 0 < capOf (descOf s b) by omega)
  have hread : hdHead (takeBytes b s) b = (hdHead s b + 1) % capOf (descOf s b) % 256 ^ 4 := by
    rw [hdHead, takeBytes, if_pos hk, bankRead_bankWrite]
  rw [takeOne_eq, modBank_hdHead, hread, Nat.mod_eq_of_lt (by omega)]

/-- TAKE takes the oldest element of a QUEUE, the newest of a STACK, and leaves the others (R146). -/
theorem elems_takeOne {s : State} {b : Nat} (h : SeqImage s b) (hsome : hdCount s b ≠ 0) :
    elems s b = (takeOne b s).1 :: elems (takeOne b s).2 b := by
  have hdesc : descOf (takeOne b s).2 b = descOf s b := (onlyBank_takeOne h.2.2.2.1).2.2.1
  obtain ⟨n, hn⟩ := Nat.exists_eq_succ_of_ne_zero hsome
  have hcount := hdCount_takeOne hn
  obtain ⟨hk, -, -, -, hqueue⟩ := h
  rcases hk with hk | hk
  · have hhead := (hqueue hk).1
    have hvalue : (takeOne b s).1 = elemAt s (descOf s b) b (hdHead s b) := by simp only [takeOne, hk, if_true]
    rw [elems_queue hk, elems_queue (by rw [hdesc]; exact hk), hdesc, hcount, hdHead_takeOne hk hhead, hvalue, hn, List.range_succ_eq_map,
      List.map_cons, List.map_map, Nat.add_zero, Nat.mod_eq_of_lt hhead]
    congr 1
    refine List.map_congr_left fun i _ => ?_
    rw [Function.comp, elemAt_takeOne, Nat.mod_add_mod, Nat.succ_eq_add_one, Nat.add_assoc, Nat.add_comm 1 i]
  · have hvalue : (takeOne b s).1 = elemAt s (descOf s b) b (hdCount s b - 1) := by simp only [takeOne, hk, Nat.reduceEqDiff, if_false]
    rw [elems_stack hk, elems_stack (by rw [hdesc]; exact hk), hdesc, hcount, hvalue, hn, List.range_succ_eq_map, List.map_cons, List.map_map]
    congr 1
    refine List.map_congr_left fun i _ => ?_
    rw [Function.comp, elemAt_takeOne]
    congr 1
    omega

end Sys2Proof.Machine
end

section
/-! PROOFS. MAP, HEAP and HIST banks (R146, R147): INSERT, DELETE and MIN on the slots, and a bin changed. -/

namespace Sys2Proof.Machine

/-! ## Slots of 16 bytes -/

/-- Slot i of a MAP as its key and its value (R146). -/
def key16 (s : State) (b i : Nat) : Nat := bankRead s (bkey b (0x40 + 16 * i)) 8
def value16 (s : State) (b i : Nat) : Nat := bankRead s (bkey b (0x48 + 16 * i)) 8

/-- A slot's 16 bytes are its key and its value. -/
theorem bankRead_slot16 (s : State) (b i : Nat) : bankRead s (bkey b (0x40 + 16 * i)) 16 = key16 s b i + 2 ^ 64 * value16 s b i := by
  rw [bankRead, show 16 = 8 + 8 from rfl, readN_add, show bkey b (0x40 + 16 * i) + 8 = bkey b (0x48 + 16 * i) by unfold bkey; omega]
  rfl

theorem key16_lt (s : State) (b i : Nat) : key16 s b i < 2 ^ 64 := bankRead_lt _ _ _

/-- A slot written, read by its key and its value. -/
theorem key16_bankWrite_slot (s : State) (b i j v : Nat) :
    key16 (bankWrite (bkey b (0x40 + 16 * i)) 16 v s) b j = if j = i then v % 2 ^ 64 else key16 s b j := by
  unfold key16
  split
  · next h =>
    have hpart := bankRead_bankWrite_part (key := bkey b (0x40 + 16 * i)) (n := 16) (off := 0) (k := 8) s v (by decide)
    rw [Nat.pow_zero, Nat.div_one, Nat.add_zero] at hpart
    rw [h]
    exact hpart
  · exact bankRead_bankWrite_apart _ _ (by unfold bkey; omega)

theorem value16_bankWrite_slot (s : State) (b i j v : Nat) :
    value16 (bankWrite (bkey b (0x40 + 16 * i)) 16 v s) b j = if j = i then v / 2 ^ 64 % 2 ^ 64 else value16 s b j := by
  unfold value16
  split
  · next h =>
    rw [h, show bkey b (0x48 + 16 * i) = bkey b (0x40 + 16 * i) + 8 by unfold bkey; omega]
    exact bankRead_bankWrite_part s v (by decide)
  · exact bankRead_bankWrite_apart _ _ (by unfold bkey; omega)

/-- The value of a slot written. -/
theorem key16_bankWrite_value (s : State) (b i j v : Nat) : key16 (bankWrite (bkey b (0x48 + 16 * i)) 8 v s) b j = key16 s b j :=
  bankRead_bankWrite_apart _ _ (by unfold bkey; omega)

theorem value16_bankWrite_value (s : State) (b i j v : Nat) :
    value16 (bankWrite (bkey b (0x48 + 16 * i)) 8 v s) b j = if j = i then v % 2 ^ 64 else value16 s b j := by
  unfold value16
  split
  · next h => rw [h]; exact bankRead_bankWrite _ _ _ _
  · exact bankRead_bankWrite_apart _ _ (by unfold bkey; omega)

/-- COUNT written. -/
theorem key16_bankWrite_count (s : State) (b j v : Nat) : key16 (bankWrite (bkey b 8) 4 v s) b j = key16 s b j :=
  bankRead_bankWrite_apart _ _ (by unfold bkey; omega)

theorem value16_bankWrite_count (s : State) (b j v : Nat) : value16 (bankWrite (bkey b 8) 4 v s) b j = value16 s b j :=
  bankRead_bankWrite_apart _ _ (by unfold bkey; omega)

theorem hdCount_bankWrite_count (s : State) (b : Nat) {n : Nat} (h : n ≤ 508) : hdCount (bankWrite (bkey b 8) 4 n s) b = n := by
  rw [hdCount, bankRead_bankWrite]
  exact Nat.mod_eq_of_lt (by omega)

/-- What lies above the header is not COUNT. -/
theorem hdCount_bankWrite_slots (s : State) (b : Nat) {off : Nat} (h : 0x40 ≤ off) (n v : Nat) :
    hdCount (bankWrite (bkey b off) n v s) b = hdCount s b :=
  bankRead_bankWrite_apart _ _ (by unfold bkey; omega)

/-! ## MAP: the value under a key -/

/-- The value under a key of a MAP (R146). -/
def mapValue (s : State) (b x : Nat) : Option Nat := (findKey s b x).map fun i => value16 s b i

theorem findKey_eq {s : State} {b : Nat} (h : hdCount s b ≤ 508) (x : Nat) :
    findKey s b x = (List.range (hdCount s b)).find? fun i => key16 s b i = x := by
  rw [findKey, Nat.min_eq_left h]
  rfl

theorem findKey_some {s : State} {b x i : Nat} (h : hdCount s b ≤ 508) (hf : findKey s b x = some i) : i < hdCount s b ∧ key16 s b i = x := by
  rw [findKey_eq h] at hf
  exact ⟨List.mem_range.mp (List.mem_of_find?_eq_some hf), by simpa using List.find?_some hf⟩

/-- The value of a key written in place (R147). -/
theorem mapValue_bankWrite_value {s : State} {b x i : Nat} (h : hdCount s b ≤ 508) (hf : findKey s b x = some i) {v : Nat} (hv : v < 2 ^ 64) (y : Nat) :
    mapValue (bankWrite (bkey b (0x48 + 16 * i)) 8 v s) b y = if y = x then some v else mapValue s b y := by
  have hcount := hdCount_bankWrite_slots s b (show 0x40 ≤ 0x48 + 16 * i by omega) 8 v
  have hfind (y : Nat) : findKey (bankWrite (bkey b (0x48 + 16 * i)) 8 v s) b y = findKey s b y := by
    rw [findKey_eq (by rw [hcount]; exact h), findKey_eq h, hcount]
    simp only [key16_bankWrite_value]
  rw [mapValue, hfind]
  split
  · next hy => rw [hy, hf, Option.map_some, value16_bankWrite_value, if_pos rfl, Nat.mod_eq_of_lt hv]
  · next hy =>
    rw [mapValue]
    obtain e | ⟨j, e⟩ := Option.eq_none_or_eq_some (findKey s b y) <;> rw [e]
    · simp only [Option.map_none]
    · have hne : j ≠ i := fun hji => hy (by rw [← (findKey_some h e).2, hji, (findKey_some h hf).2])
      rw [Option.map_some, Option.map_some, value16_bankWrite_value, if_neg hne]

/-- The state after INSERT of a new key (R146). -/
def mapAppend (b x v : Nat) (s : State) : State :=
  bankWrite (bkey b 8) 4 (hdCount s b + 1) (bankWrite (bkey b (0x40 + 16 * hdCount s b)) 16 (x + v * 2 ^ 64) s)

theorem onlyBank_mapAppend {s : State} {b : Nat} (hp : s.bankPoison = []) (h : hdCount s b < 508) (x v : Nat) : OnlyBank b s (mapAppend b x v s) := by
  have hslot : OnlyBank b s (bankWrite (bkey b (0x40 + 16 * hdCount s b)) 16 (x + v * 2 ^ 64) s) := onlyBank_bankWrite hp (by omega) _
  exact hslot.trans (onlyBank_bankWrite (hslot.poison.trans hp) (by decide) _)

/-- A new key goes behind the others (R146). -/
theorem mapValue_mapAppend {s : State} {b x : Nat} (h : hdCount s b < 508) (hf : findKey s b x = none) (hx : x < 2 ^ 64) {v : Nat}
    (hv : v < 2 ^ 64) (y : Nat) :
    mapValue (mapAppend b x v s) b y = if y = x then some v else mapValue s b y := by
  have hcount : hdCount (mapAppend b x v s) b = hdCount s b + 1 := hdCount_bankWrite_count _ _ (by omega)
  have hkey (j : Nat) : key16 (mapAppend b x v s) b j = if j = hdCount s b then x else key16 s b j := by
    rw [mapAppend, key16_bankWrite_count, key16_bankWrite_slot, show (x + v * 2 ^ 64) % 2 ^ 64 = x by omega]
  have hvalue (j : Nat) : value16 (mapAppend b x v s) b j = if j = hdCount s b then v else value16 s b j := by
    rw [mapAppend, value16_bankWrite_count, value16_bankWrite_slot, show (x + v * 2 ^ 64) / 2 ^ 64 % 2 ^ 64 = v by omega]
  have hfind : findKey (mapAppend b x v s) b y = (findKey s b y).or (if y = x then some (hdCount s b) else none) := by
    have hold : ((List.range (hdCount s b)).find? fun j => key16 (mapAppend b x v s) b j = y) = findKey s b y := by
      rw [findKey_eq h.le]
      refine List.find?_congr fun j hj => ?_
      rw [hkey, if_neg (List.mem_range.mp hj).ne]
    rw [findKey_eq (by omega), hcount, List.range_succ, List.find?_append, hold, List.find?_singleton, hkey, if_pos rfl]
    simp only [decide_eq_true_eq, eq_comm (a := x)]
  rw [mapValue, hfind]
  by_cases hy : y = x
  · rw [if_pos hy, if_pos hy, hy, hf, Option.none_or, Option.map_some, hvalue, if_pos rfl]
  · rw [if_neg hy, if_neg hy, Option.or_none, mapValue]
    obtain e | ⟨j, e⟩ := Option.eq_none_or_eq_some (findKey s b y) <;> rw [e]
    · simp only [Option.map_none]
    · have := (findKey_some h.le e).1
      rw [Option.map_some, Option.map_some, hvalue, if_neg (by omega)]

/-- Under distinct keys, the value of a key is that of the slot that holds it. -/
theorem mapValue_eq_some {s : State} {b : Nat} (h : hdCount s b ≤ 508)
    (hinj : ∀ i j, i < hdCount s b → j < hdCount s b → key16 s b i = key16 s b j → i = j) (x z : Nat) :
    mapValue s b x = some z ↔ ∃ j, j < hdCount s b ∧ key16 s b j = x ∧ value16 s b j = z := by
  rw [mapValue, Option.map_eq_some_iff]
  constructor
  · rintro ⟨j, hj, hz⟩
    obtain ⟨hlt, hkey⟩ := findKey_some h hj
    exact ⟨j, hlt, hkey, hz⟩
  · rintro ⟨j, hlt, hkey, hz⟩
    obtain e | ⟨i, e⟩ := Option.eq_none_or_eq_some (findKey s b x)
    · rw [findKey_eq h, List.find?_eq_none] at e
      exact absurd (decide_eq_true hkey) (e j (List.mem_range.mpr hlt))
    · obtain ⟨hi, hikey⟩ := findKey_some h e
      exact ⟨i, e, by rw [hinj i j hi hlt (hikey.trans hkey.symm)]; exact hz⟩

/-- The state after DELETE of the key in slot i: the last slot goes into its place (R146). -/
def mapRemove (b i : Nat) (s : State) : State :=
  bankWrite (bkey b 8) 4 (hdCount s b - 1) (bankWrite (bkey b (0x40 + 16 * i)) 16 (bankRead s (bkey b (0x40 + 16 * (hdCount s b - 1))) 16) s)

theorem onlyBank_mapRemove {s : State} {b i : Nat} (hp : s.bankPoison = []) (h : i < 508) : OnlyBank b s (mapRemove b i s) := by
  have hslot : OnlyBank b s (bankWrite (bkey b (0x40 + 16 * i)) 16 (bankRead s (bkey b (0x40 + 16 * (hdCount s b - 1))) 16) s) :=
    onlyBank_bankWrite hp (by omega) _
  exact hslot.trans (onlyBank_bankWrite (hslot.poison.trans hp) (by decide) _)

/-- A list of keys without repetition names each slot by its key. -/
theorem keys_injective {s : State} {b n : Nat} (h : ((List.range n).map fun i => bankRead s (bkey b (0x40 + 16 * i)) 8).Nodup) (i j : Nat)
    (hi : i < n) (hj : j < n) (e : key16 s b i = key16 s b j) : i = j :=
  List.inj_on_of_nodup_map h (List.mem_range.mpr hi) (List.mem_range.mpr hj) e

/-- The slot of n whose content stands in slot j once slot i has taken the last one's. -/
def refilled (n i j : Nat) : Nat := if j = i then n - 1 else j

/-- DELETE takes one key, whichever slot the others stand in after it (R146). -/
theorem mapValue_mapRemove {s : State} {b x i : Nat} (h : hdCount s b ≤ 508) (hf : findKey s b x = some i)
    (hinj : ∀ i j, i < hdCount s b → j < hdCount s b → key16 s b i = key16 s b j → i = j) (y : Nat) :
    mapValue (mapRemove b i s) b y = if y = x then none else mapValue s b y := by
  obtain ⟨hi, hikey⟩ := findKey_some h hf
  have hcount : hdCount (mapRemove b i s) b = hdCount s b - 1 := hdCount_bankWrite_count _ _ (by omega)
  have hold (j : Nat) (hj : j < hdCount s b - 1) : refilled (hdCount s b) i j < hdCount s b := by unfold refilled; split <;> omega
  have hlast := bankRead_slot16 s b (hdCount s b - 1)
  have := key16_lt s b (hdCount s b - 1)
  have : value16 s b (hdCount s b - 1) < 2 ^ 64 := bankRead_lt _ _ _
  have hkey (j : Nat) : key16 (mapRemove b i s) b j = key16 s b (refilled (hdCount s b) i j) := by
    rw [mapRemove, key16_bankWrite_count, key16_bankWrite_slot, hlast]
    unfold refilled
    split <;> omega
  have hvalue (j : Nat) : value16 (mapRemove b i s) b j = value16 s b (refilled (hdCount s b) i j) := by
    rw [mapRemove, value16_bankWrite_count, value16_bankWrite_slot, hlast]
    unfold refilled
    split <;> omega
  have hinj' (j l : Nat) (hj : j < hdCount (mapRemove b i s) b) (hl : l < hdCount (mapRemove b i s) b)
      (e : key16 (mapRemove b i s) b j = key16 (mapRemove b i s) b l) : j = l := by
    rw [hcount] at hj hl
    rw [hkey, hkey] at e
    have := hinj _ _ (hold j hj) (hold l hl) e
    unfold refilled at this
    split at this <;> split at this <;> omega
  refine Option.ext fun z => ?_
  rw [mapValue_eq_some (by omega) hinj', hcount]
  simp only [hkey, hvalue]
  split
  · next hy =>
    refine iff_of_false ?_ nofun
    rintro ⟨j, hj, hkeyj, -⟩
    have := hinj _ i (hold j hj) hi (hkeyj.trans (hy.trans hikey.symm))
    unfold refilled at this
    split at this <;> omega
  · next hy =>
    rw [mapValue_eq_some h hinj]
    constructor
    · rintro ⟨j, hj, hkeyj, hz⟩
      exact ⟨refilled _ i j, hold j hj, hkeyj, hz⟩
    · rintro ⟨j, hj, hkeyj, hz⟩
      have hji : j ≠ i := fun e => hy (by rw [← hkeyj, e, hikey])
      refine ⟨if j = hdCount s b - 1 then i else j, by split <;> omega, ?_⟩
      have hback : refilled (hdCount s b) i (if j = hdCount s b - 1 then i else j) = j := by
        by_cases hlast : j = hdCount s b - 1
        · rw [if_pos hlast, refilled, if_pos rfl, hlast]
        · rw [if_neg hlast, refilled, if_neg hji]
      rw [hback]
      exact ⟨hkeyj, hz⟩

/-! ## HEAP -/

/-- Two entries exchanged. -/
theorem swap_perm {l : List Nat} {i j : Nat} (hi : i < l.length) (hj : j < l.length) : ((l.set i (nth l j)).set j (nth l i)).Perm l := by
  have e (n : Nat) (hn : n < l.length) : nth l n = l[n] := by simp [nth, hn]
  rw [e i hi, e j hj]
  exact List.set_set_perm hi hj

/-- Sifting keeps the entries (R146). -/
theorem siftUp_perm (fuel : Nat) : ∀ (i : Nat) (l : List Nat), i < l.length → (siftUp fuel i l).Perm l := by
  induction fuel with
  | zero => intro i l _; exact .refl _
  | succ fuel ih =>
    intro i l hi
    rw [siftUp]
    split
    · exact .refl _
    · dsimp only
      split
      · exact (ih _ _ (by simp; omega)).trans (swap_perm hi (by omega))
      · exact .refl _

theorem siftDown_perm (fuel : Nat) : ∀ (i : Nat) (l : List Nat), i < l.length → (siftDown fuel i l).Perm l := by
  induction fuel with
  | zero => intro i l _; exact .refl _
  | succ fuel ih =>
    intro i l hi
    rw [siftDown]
    dsimp only
    split
    · exact .refl _
    · generalize hc : (if 2 * i + 1 + 1 < l.length ∧ heapLess (nth l (2 * i + 1 + 1)) (nth l (2 * i + 1)) then 2 * i + 1 + 1 else 2 * i + 1) = c
      have hlt : c < l.length := by rw [← hc]; split <;> omega
      split
      · exact (ih _ _ (by simp; omega)).trans (swap_perm hi hlt)
      · exact .refl _

/-- MIN takes the entry of slot 0 and no other (R146). -/
theorem heapPop_perm (x : Nat) (l : List Nat) : (heapPop (x :: l)).1 = x ∧ (heapPop (x :: l)).2.Perm l := by
  cases l with
  | nil => exact ⟨rfl, .refl _⟩
  | cons y r =>
    refine ⟨rfl, (siftDown_perm 16 0 _ (by simp)).trans ?_⟩
    have hne : y :: r ≠ [] := List.cons_ne_nil _ _
    rw [List.getLastD_eq_getLast?, List.getLast?_eq_some_getLast hne, Option.getD_some]
    have h := List.perm_append_comm (l₁ := (y :: r).dropLast) (l₂ := [(y :: r).getLast hne])
    rw [List.dropLast_append_getLast] at h
    exact h.symm

theorem writeEntries_bank (b x : Nat) (l : List Nat) : ∀ (i : Nat) (s : State), (writeEntries b i l s).bank x = s.bank x := by
  induction l with
  | nil => intro i s; rfl
  | cons y r ih =>
    intro i s
    rw [writeEntries, ih]
    split <;> rfl

/-- Entries written back from slot i on. -/
theorem writeEntries_spec (b : Nat) (l : List Nat) : ∀ (i : Nat) (s : State), i + l.length ≤ 508 → (∀ x ∈ l, x < 2 ^ 128) → s.bankPoison = [] →
    OnlyBank b s (writeEntries b i l s) ∧
    (∀ off n, off + n ≤ 0x40 → bankRead (writeEntries b i l s) (bkey b off) n = bankRead s (bkey b off) n) ∧
    ∀ j, bankRead (writeEntries b i l s) (bkey b (0x40 + 16 * j)) 16 =
      if i ≤ j ∧ j < i + l.length then nth l (j - i) else bankRead s (bkey b (0x40 + 16 * j)) 16 := by
  induction l with
  | nil =>
    intro i s _ _ _
    refine ⟨.refl _ _, fun _ _ _ => rfl, fun j => ?_⟩
    rw [if_neg (by simp), writeEntries]
  | cons x r ih =>
    intro i s hfit hsmall hp
    rw [List.length_cons] at hfit
    generalize ht : (if bankRead s (bkey b (0x40 + 16 * i)) 16 = x then s else bankWrite (bkey b (0x40 + 16 * i)) 16 x s) = t
    have hslot : bankRead t (bkey b (0x40 + 16 * i)) 16 = x := by
      rw [← ht]
      split
      · assumption
      · rw [bankRead_bankWrite]
        exact Nat.mod_eq_of_lt (hsmall x List.mem_cons_self)
    have honly : OnlyBank b s t := by
      rw [← ht]
      split
      · exact .refl _ _
      · exact onlyBank_bankWrite hp (by omega) _
    have hapart (key n : Nat) (h : key + n ≤ bkey b (0x40 + 16 * i) ∨ bkey b (0x40 + 16 * i) + 16 ≤ key) : bankRead t key n = bankRead s key n := by
      rw [← ht]
      split
      · rfl
      · exact bankRead_bankWrite_apart _ _ h
    obtain ⟨honly', hheader, hentries⟩ := ih (i + 1) t (by omega) (fun y hy => hsmall y (List.mem_cons_of_mem _ hy)) (honly.poison.trans hp)
    rw [writeEntries, ht]
    refine ⟨honly.trans honly', fun off n h => (hheader off n h).trans (hapart _ _ (by unfold bkey; omega)), fun j => ?_⟩
    rw [hentries, List.length_cons]
    by_cases hj : j = i
    · rw [hj, if_neg (by omega), hslot, if_pos (by omega), Nat.sub_self]
      rfl
    · rw [hapart _ _ (by unfold bkey; omega)]
      by_cases hin : i + 1 ≤ j ∧ j < i + 1 + r.length
      · rw [if_pos hin, if_pos (by omega), show j - i = j - (i + 1) + 1 by omega]
        rfl
      · rw [if_neg hin, if_neg (by omega)]

end Sys2Proof.Machine
end

section
/-! PROOFS. The port operations at a bank alone (R147, R152), and the statement about them. -/

namespace Sys2Proof.Machine

/-! ## A bank alone -/

section
variable {s : State} {b : Nat} (h : ImageBank s b)
include h

/-- A bank alone is all that a port of it reaches (R162). -/
theorem ImageBank.members_eq : members s b = [b] := by rw [members, h.1, if_neg (by decide)]

theorem ImageBank.waiters_eq : (s.bank b).waiters = [] := h.2.2.2.2.2.1

theorem ImageBank.poison_eq : s.bankPoison = [] := h.2.2.2.2.2.2.2.1

theorem ImageBank.count_le : hdCount s b ≤ capOf (descOf s b) := h.2.2.2.2.2.2.2.2.1

theorem ImageBank.count_le_508 (hk : kindOf (descOf s b) = 3 ∨ kindOf (descOf s b) = 4) : hdCount s b ≤ 508 :=
  h.count_le.trans (cap_le_508 h.2.1 hk)

end

/-- No waiter hears of a bank without waiters (R153). -/
theorem grew_eq {s : State} {b : Nat} (h : (s.bank b).waiters = []) (n : Nat) : grew b n s = s := by
  unfold grew
  split
  · simp only [crossBank, h, List.filter_nil, if_true]
  · rfl

theorem countAll_one (s : State) (b : Nat) : countAll s [b] = hdCount s b := by simp only [countAll, List.map_cons, List.map_nil, List.sum_singleton]

/-- TAKE and PEEK reach a bank alone where it has an element. -/
theorem takeFrom_one (s : State) (b : Nat) : takeFrom s [b] = if hdCount s b = 0 then none else some b := by
  unfold takeFrom
  by_cases hn : hdCount s b = 0
  · rw [if_pos hn, List.filter_cons_of_neg (by simpa using hn)]
    rfl
  · rw [if_neg hn, List.filter_cons_of_pos (by simpa using hn)]
    rfl

theorem mapMember_one (b key : Nat) : mapMember [b] key = b := by simp only [mapMember, List.length_singleton, Nat.mod_one, List.getD_cons_zero]

theorem binKey_one (b i : Nat) : binKey [b] i = bkey b (0x40 + 4 * i) := by simp only [binKey, List.length_singleton, Nat.mod_one, List.getD_cons_zero]

theorem putOne_waiters (b v : Nat) (s : State) : ((putOne b v s).bank b).waiters = (s.bank b).waiters := by
  have hbytes : (putBytes b v s).bank b = s.bank b := by
    unfold putBytes
    dsimp only
    split <;> rfl
  have hbank : ∀ (t : State) (n : Nat), State.bank { t with seq := n } b = t.bank b := fun _ _ => rfl
  rw [putOne_eq, hbank, bank_modBank_self, hbytes]

/-! ## QUEUE and STACK -/

section
variable {s : State} {b : Nat} (h : ImageBank s b) (v : Nat)
include h

theorem portOp_count : portOp b .count v s = (ansOk (hdCount s b), s) := by
  simp only [portOp, h.members_eq, countAll_one]

theorem portOp_put_room (hroom : hdCount s b < capOf (descOf s b)) : portOp b .put v s = (ansOk 0, putOne b (v % 2 ^ ewOf (descOf s b)) s) := by
  simp only [portOp, h.members_eq, List.find?_singleton, decide_eq_true hroom, if_true]
  rw [grew_eq ((putOne_waiters _ _ _).trans h.waiters_eq)]

theorem portOp_put_full (hfull : hdCount s b = capOf (descOf s b)) : portOp b .put v s = (ansFull, s) := by
  simp only [portOp, h.members_eq, List.find?_singleton, hfull, Nat.lt_irrefl, decide_false, Bool.false_eq_true, if_false]

theorem portOp_take_some (hsome : hdCount s b ≠ 0) : portOp b .take v s = (ansOk (takeOne b s).1, (takeOne b s).2) := by
  simp only [portOp, h.members_eq, takeFrom_one, if_neg hsome]

theorem portOp_peek_some (hsome : hdCount s b ≠ 0) : portOp b .peek v s = (ansOk (takeOne b s).1, s) := by
  simp only [portOp, h.members_eq, takeFrom_one, if_neg hsome]

theorem portOp_take_empty (hnone : hdCount s b = 0) : portOp b .take v s = (ansEmpty, s) ∧ portOp b .peek v s = (ansEmpty, s) := by
  constructor <;> simp only [portOp, h.members_eq, takeFrom_one, if_pos hnone]

/-! ## MAP -/

theorem portOp_find : portOp b .find v s = match mapValue s b (v % 2 ^ kwOf (descOf s b)) with
    | some x => (ansOk x, s)
    | none => (ansAbsent, s) := by
  simp only [portOp, h.members_eq, mapMember_one, mapValue]
  obtain e | ⟨i, e⟩ := Option.eq_none_or_eq_some (findKey s b (v % 2 ^ kwOf (descOf s b))) <;> rw [e]
  · rw [Option.map_none]
  · rw [Option.map_some]
    rfl

theorem portOp_delete : portOp b .delete v s = match findKey s b (v % 2 ^ kwOf (descOf s b)) with
    | some i => (ansOk (value16 s b i), mapRemove b i s)
    | none => (ansAbsent, s) := by
  simp only [portOp, h.members_eq, mapMember_one]
  obtain e | ⟨i, e⟩ := Option.eq_none_or_eq_some (findKey s b (v % 2 ^ kwOf (descOf s b))) <;> rw [e]
  rfl

/-- INSERT of a present key (R147). -/
theorem portOp_insert_present {i : Nat} (hf : findKey s b (v % 2 ^ kwOf (descOf s b)) = some i) :
    portOp b .insert v s = (ansOk 0, bankWrite (bkey b (0x48 + 16 * i)) 8 (v / 2 ^ 64 % 2 ^ ewOf (descOf s b)) s) := by
  simp only [portOp, h.members_eq, mapMember_one, mapInsert, hf, ansOk, if_true]
  rw [grew_eq]
  rw [bankWrite_bank, h.waiters_eq]

theorem portOp_insert_new (hf : findKey s b (v % 2 ^ kwOf (descOf s b)) = none) (hroom : hdCount s b < capOf (descOf s b)) :
    portOp b .insert v s = (ansOk 0, mapAppend b (v % 2 ^ kwOf (descOf s b)) (v / 2 ^ 64 % 2 ^ ewOf (descOf s b)) s) := by
  simp only [portOp, h.members_eq, mapMember_one, mapInsert, hf, if_neg (Nat.not_le_of_lt hroom), ansOk, if_true]
  rw [grew_eq]
  · rw [mapAppend]
  · rw [bankWrite_bank, bankWrite_bank, h.waiters_eq]

theorem portOp_insert_full (hf : findKey s b (v % 2 ^ kwOf (descOf s b)) = none) (hfull : hdCount s b = capOf (descOf s b)) :
    portOp b .insert v s = (ansFull, s) := by
  simp only [portOp, h.members_eq, mapMember_one, mapInsert, hf, hfull, Nat.le_refl, if_true]
  rfl

/-! ## HIST -/

theorem portOp_bump : portOp b .bump v s =
    (ansOk 0, (binAdd (bkey b (0x40 + 4 * ((v / 2 ^ bshiftOf (descOf s b)) &&& bmaskOf (descOf s b)))) 1 s).2) := by
  simp only [portOp, h.members_eq, binKey_one]

theorem portOp_hadd : portOp b .hadd v s = if bmaskOf (descOf s b) < v % 2 ^ 32 then (ansAbsent, s) else
    (ansOk (bankRead s (bkey b (0x40 + 4 * (v % 2 ^ 32))) 4), (binAdd (bkey b (0x40 + 4 * (v % 2 ^ 32))) (signed 32 (v / 2 ^ 32)) s).2) := by
  simp only [portOp, h.members_eq, binKey_one]
  split <;> rfl

theorem portOp_bin (i : Nat) : portOp b (.bin i) v s = (ansOk (bankRead s (bkey b (0x40 + 4 * i)) 4), s) := by
  simp only [portOp, h.members_eq, binKey_one]

end

/-- A bin changed by an amount, saturating (R147). -/
theorem bankRead_binAdd (key : Nat) (delta : Int) (s : State) :
    (bankRead (binAdd key delta s).2 key 4 : Int) = max 0 (min ((bankRead s key 4 : Int) + delta) (2 ^ 32 - 1)) := by
  have hread : bankRead (binAdd key delta s).2 key 4 = (satU ((bankRead s key 4 : Int) + delta) 32).toNat % 256 ^ 4 := bankRead_bankWrite _ _ _ _
  rw [hread]
  unfold satU
  omega

/-- Of a HIST one bin changes, and the others stand (R147). -/
theorem binAdd_spec {s : State} {b x : Nat} (hp : s.bankPoison = []) (hx : x ≤ 2031) (delta : Int) (i : Nat) :
    let t := (binAdd (bkey b (0x40 + 4 * x)) delta s).2
    let bin (u : State) (j : Nat) : Nat := bankRead u (bkey b (0x40 + 4 * j)) 4
    OnlyBank b s t ∧ (bin t x : Int) = max 0 (min ((bin s x : Int) + delta) (2 ^ 32 - 1)) ∧ (i ≠ x → bin t i = bin s i) :=
  ⟨onlyBank_bankWrite hp (by omega) _, bankRead_binAdd _ _ _, fun hne => bankRead_bankWrite_apart _ _ (by unfold bkey; omega)⟩

/-! ## HEAP -/

theorem entries_eq_map {s : State} {b : Nat} (h : hdCount s b ≤ 508) :
    entries s b = (List.range (hdCount s b)).map fun i => bankRead s (bkey b (0x40 + 16 * i)) 16 := by
  rw [entries, Nat.min_eq_left h]
  rfl

theorem length_entries {s : State} {b : Nat} (h : hdCount s b ≤ 508) : (entries s b).length = hdCount s b := by
  rw [entries_eq_map h, List.length_map, List.length_range]

theorem entry_lt {s : State} {b x : Nat} (hx : x ∈ entries s b) : x < 2 ^ 128 := by
  obtain ⟨i, -, rfl⟩ := List.mem_map.mp hx
  exact bankRead_lt _ _ _

theorem heapEntry_lt (prio : Int) {stamp value : Nat} (hs : stamp < 2 ^ 32) (hv : value < 2 ^ 64) : heapEntry prio stamp value < 2 ^ 128 := by
  have : wrap 32 prio < 2 ^ 32 := by
    unfold wrap
    omega
  rw [heapEntry]
  omega

/-- The entries and COUNT written. -/
def storeEntries (b : Nat) (l : List Nat) (s : State) : State := bankWrite (bkey b 8) 4 l.length (writeEntries b 0 l s)

/-- What is written is what the bank holds then (R145, R146). -/
theorem storeEntries_spec {s : State} {b : Nat} {l : List Nat} (hfit : l.length ≤ 508) (hsmall : ∀ x ∈ l, x < 2 ^ 128) (hp : s.bankPoison = []) :
    OnlyBank b s (storeEntries b l s) ∧ hdCount (storeEntries b l s) b = l.length ∧ entries (storeEntries b l s) b = l ∧
    hdStamp (storeEntries b l s) b = hdStamp s b := by
  obtain ⟨honly, hheader, hslots⟩ := writeEntries_spec b l 0 s (by omega) hsmall hp
  have hcount : hdCount (storeEntries b l s) b = l.length := hdCount_bankWrite_count _ _ hfit
  refine ⟨honly.trans (onlyBank_bankWrite (honly.poison.trans hp) (by decide) _), hcount, ?_, ?_⟩
  · rw [entries_eq_map (by omega), hcount]
    refine List.ext_getElem (by simp) fun j hj hj' => ?_
    rw [List.getElem_map, List.getElem_range, storeEntries, bankRead_bankWrite_apart _ _ (by unfold bkey; omega), hslots, if_pos (by omega),
      Nat.sub_zero, nth, List.getD_eq_getElem _ _ hj']
  · rw [hdStamp, storeEntries, bankRead_bankWrite_apart _ _ (by unfold bkey; omega), hheader _ _ (by decide), hdStamp]

/-- The entries of a heap after INSERT, slot by slot (R146). -/
def insertedEntries (s : State) (b v : Nat) : List Nat :=
  siftUp 16 (hdCount s b) (entries s b ++ [heapEntry (signed 32 v) (hdStamp s b) (v / 2 ^ 64 % 2 ^ ewOf (descOf s b))])

theorem insertedEntries_perm {s : State} {b : Nat} (hcount : hdCount s b ≤ 508) (v : Nat) : (insertedEntries s b v).Perm
    (heapEntry (signed 32 v) (hdStamp s b) (v / 2 ^ 64 % 2 ^ ewOf (descOf s b)) :: entries s b) := by
  have hlen := length_entries hcount
  exact (siftUp_perm 16 _ _ (by rw [List.length_append, hlen, List.length_singleton]; omega)).trans List.perm_append_comm

theorem length_insertedEntries {s : State} {b : Nat} (hcount : hdCount s b ≤ 508) (v : Nat) : (insertedEntries s b v).length = hdCount s b + 1 := by
  rw [(insertedEntries_perm hcount v).length_eq, List.length_cons, length_entries hcount]

theorem heapInsert_full {s : State} {b : Nat} (hfull : hdCount s b = capOf (descOf s b)) (prio : Int) (v : Nat) :
    heapInsert b prio v s = (ansFull, s) := by simp only [heapInsert, hfull, Nat.le_refl, if_true]

/-- INSERT where STAMP need not be renumbered (R146). -/
theorem heapInsert_room {s : State} {b : Nat} (hcount : hdCount s b ≤ 508) (hroom : hdCount s b < capOf (descOf s b))
    (hstamp : hdStamp s b < 2 ^ 32 - 1) (v : Nat) : heapInsert b (signed 32 v) (v / 2 ^ 64 % 2 ^ ewOf (descOf s b)) s =
      (ansOk 0, bankWrite (bkey b 16) 4 (hdStamp s b + 1) (storeEntries b (insertedEntries s b v) s)) := by
  rw [storeEntries, length_insertedEntries hcount, insertedEntries]
  simp only [heapInsert, if_neg (Nat.not_le_of_lt hroom), if_neg (show ¬hdStamp s b = 0xFFFFFFFF by omega)]

/-- STAMP is no part of the entries. -/
theorem entries_bankWrite_stamp {s : State} {b : Nat} (hcount : hdCount s b ≤ 508) (n : Nat) :
    entries (bankWrite (bkey b 16) 4 n s) b = entries s b := by
  have hsame : hdCount (bankWrite (bkey b 16) 4 n s) b = hdCount s b := bankRead_bankWrite_apart _ _ (by unfold bkey; omega)
  rw [entries_eq_map (by omega), entries_eq_map hcount, hsame]
  refine List.map_congr_left fun i _ => ?_
  rw [bankRead_bankWrite_apart _ _ (by unfold bkey; omega)]

section
variable {s : State} {b : Nat} (h : ImageBank s b) (v : Nat)

theorem portOp_hinsert_full (hfull : hdCount s b = capOf (descOf s b)) : portOp b .hinsert v s = (ansFull, s) := by
  simp only [portOp, heapInsert_full hfull, ansFull, OfNat.ofNat_ne_zero, if_false]

include h

theorem portOp_hinsert_room (hk : kindOf (descOf s b) = 4) (hroom : hdCount s b < capOf (descOf s b)) (hstamp : hdStamp s b < 2 ^ 32 - 1) :
    portOp b .hinsert v s = (ansOk 0, bankWrite (bkey b 16) 4 (hdStamp s b + 1) (storeEntries b (insertedEntries s b v) s)) := by
  simp only [portOp, heapInsert_room (h.count_le_508 (.inr hk)) hroom hstamp, ansOk, if_true]
  rw [grew_eq]
  rw [bankWrite_bank, storeEntries, bankWrite_bank, writeEntries_bank, h.waiters_eq]

/-- INSERT adds its entry with the next stamp (R146). -/
theorem heapInserted_spec (hk : kindOf (descOf s b) = 4) (hroom : hdCount s b < capOf (descOf s b)) (hstamp : hdStamp s b < 2 ^ 32 - 1) :
    let t := bankWrite (bkey b 16) 4 (hdStamp s b + 1) (storeEntries b (insertedEntries s b v) s)
    OnlyBank b s t ∧ hdStamp t b = hdStamp s b + 1 ∧ entries t b = insertedEntries s b v := by
  have hcount := h.count_le_508 (.inr hk)
  have hcap := cap_le_508 h.2.1 (.inr hk)
  have hsmall : ∀ x ∈ insertedEntries s b v, x < 2 ^ 128 := fun x hx => by
    rcases List.mem_cons.mp ((insertedEntries_perm hcount v).mem_iff.mp hx) with rfl | hx
    · exact heapEntry_lt _ (by omega) (mod_ewOf_lt _ _)
    · exact entry_lt hx
  obtain ⟨honly, hcount', hentries, -⟩ := storeEntries_spec (by rw [length_insertedEntries hcount]; omega) hsmall h.poison_eq
  rw [length_insertedEntries hcount] at hcount'
  refine ⟨honly.trans (onlyBank_bankWrite (honly.poison.trans h.poison_eq) (by decide) _), ?_, ?_⟩
  · rw [hdStamp, bankRead_bankWrite, Nat.mod_eq_of_lt (by omega)]
  · rw [entries_bankWrite_stamp (by omega), hentries]

omit h in
theorem portOp_heap_empty (hnone : entries s b = []) : portOp b .hmin v s = (ansEmpty, s) ∧ portOp b .hpeek v s = (ansEmpty, s) := by
  constructor <;> simp only [portOp, hnone, if_true]

omit h in
/-- MIN and PEEK where there is an entry (R146). -/
theorem portOp_heap_some {x : Nat} {l : List Nat} (he : entries s b = x :: l) :
    portOp b .hmin v s = (ansOk (wrap 64 (signed 32 x) + x / 2 ^ 64 * 2 ^ 64), storeEntries b (heapPop (x :: l)).2 s) ∧
    portOp b .hpeek v s = (ansOk (wrap 64 (signed 32 x) + x / 2 ^ 64 * 2 ^ 64), s) := by
  constructor
  · simp only [portOp, he, if_neg (List.cons_ne_nil x l), (heapPop_perm x l).1, storeEntries]
  · simp only [portOp, he, if_neg (List.cons_ne_nil x l), nth, List.getD_cons_zero]

end

end Sys2Proof.Machine
end

section
/-! PROOFS. The statement about the ports of structures in banks (R146, R147, R148, R152). -/

namespace Sys2Proof.Machine

/-- An access at a port of a bank alone is that port's operation (R147, R152). -/
theorem bankPerf_port {s : State} {core : Nat} {ea : Word} {acc : Access} {ord : Order} {row plain : Bool} {p : Port}
    (h : ImageBank s (localKey core ea / 8192)) (hk : kindOf (descOf s (localKey core ea / 8192)) ∈ [1, 2, 3, 4, 5]) (hdesc : acc ≠ .desc)
    (hwait : acc.isWaitw = false) (hport : portAt (descOf s (localKey core ea / 8192)) (wf ea 12 0) (portKind row ord acc) plain = some p)
    (dest : Dest) (who : Waiter) : let r := portOp (localKey core ea / 8192) p (portData acc) s
    bankPerf core ea acc dest ord row plain who s = (.done r.1.status r.1.value 0, r.2) := by
  have hmembers := h.members_eq
  obtain ⟨hrole, -, hodd, hclosing, hbad, -, hheld, hpoison, -⟩ := h
  have hplain : ¬(kindOf (descOf s (localKey core ea / 8192)) = 0 ∨ kindOf (descOf s (localKey core ea / 8192)) = 6) := by
    intro hor
    rcases hor with e | e <;> rw [e] at hk <;> exact absurd hk (by decide)
  have hread (l : List (Nat × Nat)) : badIn s l = none := by rw [badIn, if_pos hpoison]
  simp only [bankPerf, hclosing, hbad, hodd, hdesc, hplain, hrole, hwait, hport, hmembers, hheld, hread, Option.isSome_none, List.any_cons,
    List.any_nil, List.contains_nil, Bool.or_false, Bool.and_false, Bool.false_eq_true, if_false,
    if_neg (show ¬2 ≤ 0 by decide)]

/-- Which port an access reaches (R147). -/
theorem portAt_table (d : Word) (bin : Bool) : let n := ewOf d / 8
    (kindOf d = 1 ∨ kindOf d = 2 → portAt d 0 (.store n) bin = some .put ∧ portAt d 0 (.load n) bin = some .take ∧
      portAt d 8 (.load n) bin = some .peek) ∧
    (kindOf d = 1 → portAt d 0x10 (.load 4) bin = some .count ∧ portAt d 0x10 (.load 8) bin = some .count) ∧
    (kindOf d ∈ [2, 3, 4] → portAt d 0x18 (.load 4) bin = some .count ∧ portAt d 0x18 (.load 8) bin = some .count) ∧
    (kindOf d = 3 → portAt d 0 .stp bin = some .insert ∧ portAt d 8 (.xch 8) bin = some .find ∧ portAt d 0x10 (.xch 8) bin = some .delete) ∧
    (kindOf d = 4 → portAt d 0 .stp bin = some .hinsert ∧ portAt d 8 .ldp bin = some .hmin ∧ portAt d 0x10 .ldp bin = some .hpeek) ∧
    (kindOf d = 5 → (∀ m, portAt d 0 (.store m) bin = some .bump) ∧ portAt d 8 (.xch 8) bin = some .hadd ∧
      ∀ i, i ≤ bmaskOf d → portAt d (0x40 + 4 * i) (.load 4) true = some (.bin i)) := by
  unfold portAt
  refine ⟨fun hk => ?_, fun hk => ?_, fun hk => ?_, fun hk => ?_, fun hk => ?_, fun hk => ⟨fun m => ?_, ?_, fun i hi => ?_⟩⟩
  · rcases hk with hk | hk <;> simp [portAt.seq, hk]
  · simp [portAt.seq, hk]
  · simp only [List.mem_cons, List.not_mem_nil, or_false] at hk
    rcases hk with hk | hk | hk <;> simp [portAt.seq, hk]
  · simp [hk]
  · simp [hk]
  · simp [hk]
  · simp [hk]
  · simp only [hk, Nat.add_sub_cancel_left, Nat.mul_div_cancel_left _ (show 0 < 4 by decide)]
    rw [if_pos ⟨trivial, by omega, by omega, hi⟩]

/-- Settles O36: `bankPerf_port` for the accesses, `elems_putOne` and `elems_takeOne` for sequences, the lemmas about `mapValue` for
MAP, `heapInserted_spec` and `heapPop_perm` for HEAP, `binAdd_spec` for HIST. -/
theorem portOperations : Obligations.PortOperations := by
  refine ⟨fun s core ea acc dest ord row plain who p h hk hdesc hwait hport => bankPerf_port h hk hdesc hwait hport dest who, portAt_table,
    fun s b v h => ⟨fun _ => portOp_count h v, fun hk => ?seq⟩, fun s b v h hk => ?map, fun s b v h hk => ?heap, fun s b v i h hk => ?hist⟩
  case seq =>
    have himage := h.seqImage hk
    refine ⟨portOp_put_full h v, fun hroom => ?put, fun hnone => portOp_take_empty h v (by rw [← length_elems, hnone]; rfl),
      fun x l hsome => ?take⟩
    case put =>
      dsimp only
      rw [portOp_put_room h v hroom]
      refine ⟨rfl, onlyBank_putOne himage hroom _, ?_⟩
      rw [elems_putOne himage hroom, Nat.mod_mod]
    case take =>
      have hcount : hdCount s b ≠ 0 := by rw [← length_elems, hsome]; exact Nat.succ_ne_zero _
      have htake := elems_takeOne himage hcount
      rw [hsome] at htake
      obtain ⟨rfl, rfl⟩ := List.cons.inj htake
      dsimp only
      rw [portOp_take_some h v hcount, portOp_peek_some h v hcount]
      exact ⟨rfl, onlyBank_takeOne h.poison_eq, rfl, rfl⟩
  case map =>
    have hcount := h.count_le_508 (.inl hk)
    have hcap := cap_le_508 h.2.1 (.inl hk)
    refine ⟨fun hnone => ?absent, fun x hsome => ?find, fun hnone hfull => ?full, fun hroom => ?insert, fun hnodup x hsome => ?delete⟩
    case absent =>
      have hnone : mapValue s b (v % 2 ^ kwOf (descOf s b)) = none := hnone
      have hfind : findKey s b (v % 2 ^ kwOf (descOf s b)) = none := Option.map_eq_none_iff.mp hnone
      dsimp only
      rw [portOp_find h, portOp_delete h, hnone, hfind]
      exact ⟨rfl, rfl⟩
    case find =>
      have hsome : mapValue s b (v % 2 ^ kwOf (descOf s b)) = some x := hsome
      dsimp only
      rw [portOp_find h, hsome]
    case full => exact portOp_insert_full h v (Option.map_eq_none_iff.mp hnone) hfull
    case insert =>
      have hvalue := mod_ewOf_lt (descOf s b) (v / 2 ^ 64)
      dsimp only
      obtain hfind | ⟨i, hfind⟩ := Option.eq_none_or_eq_some (findKey s b (v % 2 ^ kwOf (descOf s b)))
      · have hroom : hdCount s b < capOf (descOf s b) := hroom.resolve_left fun hne => hne (Option.map_eq_none_iff.mpr hfind)
        rw [portOp_insert_new h v hfind hroom]
        exact ⟨rfl, onlyBank_mapAppend h.poison_eq (by omega) _ _, mapValue_mapAppend (by omega) hfind (mod_kwOf_lt _ _) hvalue⟩
      · have := (findKey_some hcount hfind).1
        rw [portOp_insert_present h v hfind]
        exact ⟨rfl, onlyBank_bankWrite h.poison_eq (by omega) _, mapValue_bankWrite_value hcount hfind hvalue⟩
    case delete =>
      obtain ⟨i, hfind, hvalue⟩ := Option.map_eq_some_iff.mp hsome
      have := (findKey_some hcount hfind).1
      dsimp only
      rw [portOp_delete h, hfind]
      exact ⟨congrArg ansOk hvalue, onlyBank_mapRemove h.poison_eq (by omega) , mapValue_mapRemove hcount hfind (keys_injective hnodup)⟩
  case heap =>
    have hcount := h.count_le_508 (.inr hk)
    refine ⟨portOp_hinsert_full v, fun hroom hstamp => ?insert, fun hnone => ?empty, fun x l hsome => ?min⟩
    case insert =>
      obtain ⟨honly, hnext, hentries⟩ := heapInserted_spec h v hk hroom hstamp
      dsimp only
      rw [portOp_hinsert_room h v hk hroom hstamp]
      rw [hentries]
      exact ⟨rfl, honly, hnext, insertedEntries_perm hcount v⟩
    case empty => exact portOp_heap_empty v (List.length_eq_zero_iff.mp ((length_entries hcount).trans hnone))
    case min =>
      obtain ⟨hmin, hpeek⟩ := portOp_heap_some v hsome
      have hperm := (heapPop_perm x l).2
      have hlen := length_entries hcount
      rw [hsome, List.length_cons] at hlen
      obtain ⟨honly, -, hentries, -⟩ := storeEntries_spec (b := b) (l := (heapPop (x :: l)).2) (by rw [hperm.length_eq]; omega)
        (fun y hy => entry_lt (s := s) (b := b) (by rw [hsome]; exact List.mem_cons_of_mem _ (hperm.mem_iff.mp hy))) h.poison_eq
      dsimp only
      rw [hmin, hpeek, hentries]
      exact ⟨rfl, rfl, honly, hperm⟩
  case hist =>
    have hmask := bmask_le h.2.1 hk
    have hbin (x : Nat) (hx : x ≤ bmaskOf (descOf s b)) (delta : Int) := binAdd_spec (b := b) h.poison_eq (hx.trans hmask) delta i
    dsimp only
    rw [portOp_bump h, portOp_hadd h, portOp_bin h]
    refine ⟨⟨rfl, ?bump⟩, fun hout => if_pos hout, fun hin => ?add, rfl⟩
    case bump =>
      obtain ⟨honly, hvalue, hothers⟩ := hbin _ Nat.and_le_right 1
      exact ⟨honly, hvalue, fun _ => hothers⟩
    case add =>
      obtain ⟨honly, hvalue, hothers⟩ := hbin _ hin (signed 32 (v / 2 ^ 32))
      rw [if_neg (Nat.not_lt_of_le hin)]
      exact ⟨rfl, honly, hvalue, fun _ => hothers⟩

end Sys2Proof.Machine
end

section
/-! PROOFS. EXCH pairs (R154, R155): the bank that an access reaches, and what an exchange leaves of both. -/

namespace Sys2Proof.Machine

/-- The bank of a byte of bank space. -/
theorem bkey_div (b : Nat) {i : Nat} (h : i < 8192) : bkey b i / 8192 = b := by
  unfold bkey
  omega

/-- No byte without poison is bad (R408). -/
theorem bankBad_eq {s : State} (h : s.bankPoison = []) (key n : Nat) : bankBad s key n = false := by simp [bankBad, h]

/-- An access at the even bank of a pair is a plain one at the front bank or the negative (R154). -/
theorem bankPerf_pair {s : State} {core : Nat} {ea : Word} {acc : Access} (hk : kindOf (descOf s (localKey core ea / 8192)) = 6)
    (hclosing : (s.bank (localKey core ea / 8192)).closing = none) (hbad : (s.bank (localKey core ea / 8192)).badDesc = false)
    (hodd : oddOfPair s (localKey core ea / 8192) = false) (hdesc : acc ≠ .desc) (dest : Dest) (ord : Order) (row plain : Bool) (who : Waiter) :
    bankPerf core ea acc dest ord row plain who s =
      actAt (.bank (plainKey s (localKey core ea / 8192 / 16 == core) (storeLike acc dest) (localKey core ea / 8192) (wf ea 12 0)))
        (.bank (localKey core ea)) ea acc who (dieOf core) s := by
  simp only [bankPerf, hclosing, hbad, hodd, hdesc, hk, Option.isSome_none, Bool.false_eq_true, if_false, or_true, if_true]

theorem actAt_read {s : State} (h : s.bankPoison = []) (key n : Nat) (q : Place) (ea : Word) (who : Waiter) (die : Nat) :
    actAt (.bank key) q ea (.read n) who die s = (.done 0 (readN s.bankMem key n) 0, s) := by
  simp only [actAt, placeBad, bankBad_eq h, Bool.and_false, Bool.false_eq_true, if_false]
  rfl

theorem actAt_write (s : State) (key n : Nat) (v : BitVec 2048) (q : Place) (ea : Word) (who : Waiter) (die : Nat) :
    actAt (.bank key) q ea (.write n v) who die s = (.done 0 0 0, bankWrite key n v.toNat s) := by
  simp only [actAt, Access.isWrite, Bool.not_true, Bool.false_and, Bool.false_eq_true, if_false]
  rfl

/-- The key of a pair's byte: the front's, or for the stores of other parties the negative's (R154). -/
theorem plainKey_pair {s : State} {b : Nat} (hk : kindOf (descOf s b) = 6) (own store : Bool) (off : Nat) :
    plainKey s own store b off = bkey (exchBank s b (store && !own)) off := by rw [plainKey, if_pos hk]

/-- Front and negative of a pair (R154). -/
theorem exchBank_eq (s : State) (b : Nat) (negative : Bool) :
    exchBank s b negative = if (s.bank b).flipped = negative then b else b + 1 := by
  unfold exchBank
  cases (s.bank b).flipped <;> cases negative <;> rfl

/-- Loads and the owner's accesses reach the front bank (R154). -/
theorem exchBank_front (s : State) (b : Nat) : exchBank s b false = if (s.bank b).flipped then b + 1 else b := by
  rw [exchBank_eq]
  cases (s.bank b).flipped <;> rfl

/-- Stores reach the front bank from the owner's core, the negative from others (R154). -/
theorem exchBank_store (s : State) (b home core : Nat) : exchBank s b (!(home == core)) =
    if home = core then (if (s.bank b).flipped then b + 1 else b) else if (s.bank b).flipped then b else b + 1 := by
  rw [exchBank_eq]
  by_cases h : home = core
  · rw [if_pos h, beq_iff_eq.mpr h]
    cases (s.bank b).flipped <;> rfl
  · rw [if_neg h, beq_eq_false_iff_ne.mpr h]
    cases (s.bank b).flipped <;> rfl

/-! ## Exchanges -/

/-- An exchange before the new negative bank is cleared. -/
def flipPair (b : Nat) (s : State) : State := s.modBank b fun x => { x with flipped := !x.flipped }

theorem flipPair_descOf (b : Nat) (s : State) : descOf (flipPair b s) b = descOf s b := by
  rw [descOf, flipPair, bank_modBank_self, descOf]

/-- After an exchange the former negative bank is the front, and the former front the negative (R155). -/
theorem exchBank_flipPair (b : Nat) (s : State) (negative : Bool) : exchBank (flipPair b s) b negative = exchBank s b (!negative) := by
  rw [exchBank_eq, exchBank_eq, flipPair, bank_modBank_self]
  cases (s.bank b).flipped <;> cases negative <;> rfl

theorem swapPair_eq (b : Nat) (s : State) : swapPair b s =
    if (descOf s b).getLsbD 37 = true then flipPair b s else clearBank (exchBank s b false) (flipPair b s) := by
  have hpol : wf (descOf s b) 37 37 = 1 ↔ (descOf s b).getLsbD 37 = true := by
    rw [BitVec.getLsbD, Nat.testBit_eq_decide_div_mod_eq, decide_eq_true_iff]
    rfl
  unfold swapPair flipPair
  dsimp only
  by_cases h : (descOf s b).getLsbD 37 = true
  · rw [if_pos h, if_pos (hpol.mpr h)]
  · rw [if_neg h, if_neg (mt hpol.mp h)]

/-- A byte of bank space after an exchange: under POL CLEAR the former front is zeroed (R155). -/
theorem readByte_swapPair (b a : Nat) (s : State) : readByte (swapPair b s).bankMem a =
    if (descOf s b).getLsbD 37 = false ∧ a / 8192 = exchBank s b false then 0 else readByte s.bankMem a := by
  rw [swapPair_eq]
  cases (descOf s b).getLsbD 37
  · rw [if_neg (by decide), clearBank, readByte_eraseN]
    by_cases ha : a / 8192 = exchBank s b false
    · rw [if_pos (by unfold bkey; omega), if_pos ⟨rfl, ha⟩]
    · rw [if_neg (by unfold bkey; omega), if_neg fun hand => ha hand.2]
      rfl
  · rw [if_pos rfl, if_neg (by simp)]
    rfl

theorem plainKey_swapPair {s : State} {b : Nat} (hk : kindOf (descOf s b) = 6) (own store : Bool) (off : Nat) :
    plainKey (swapPair b s) own store b off = bkey (exchBank s b (!(store && !own))) off := by
  have hsame : (swapPair b s).bank b = (flipPair b s).bank b := by
    rw [swapPair_eq]
    split <;> rfl
  have hdesc : descOf (swapPair b s) b = descOf s b := by rw [descOf, hsame, ← descOf, flipPair_descOf]
  have hexch : exchBank (swapPair b s) b (store && !own) = exchBank (flipPair b s) b (store && !own) := by rw [exchBank, hsame, ← exchBank]
  rw [plainKey_pair (by rw [hdesc]; exact hk), hexch, exchBank_flipPair]

end Sys2Proof.Machine
end

section
/-! PROOFS. CONVERT of live elements (R160): its counts, the packed array, and elements put one by one; and the statement about
pairs and conversions. -/

namespace Sys2Proof.Machine

/-! ## The parts of a CONVERT -/

/-- The bank emptied, with its new descriptor. -/
def emptied (b : Nat) (new : Word) (s : State) : State := (clearBank b s).modBank b fun x => { x with desc := new, ages := [] }

/-- One element inserted, or dropped, and counted (R160). -/
def convertStep (b : Nat) (old : Word) (p : Nat × Nat × State) (e : Elem) : Nat × Nat × State :=
  let x := convertOne b old e p.2.2
  if !x.1 then (p.1, p.2.1 + 1, x.2.2) else if x.2.1 then (p.1, p.2.1 + 1, x.2.2) else (p.1 + 1, p.2.1, x.2.2)

section
variable {s : State} {b : Nat} (h : kindOf (descOf s b) ≠ 0) {new : Word}
include h

/-- To plain bytes (R160, fate a). -/
theorem convertBank_pack (hnew : kindOf new = 0) : convertBank b new s = (BitVec.ofNat 64 ((liveOf s b).1.length * 2 ^ 32),
    packArray b (descOf s b) (liveOf s b).1 (liveOf s b).2 (emptied b new s)) := by
  simp only [convertBank, if_neg h, hnew, if_true]
  rfl

/-- To a structure, element by element (R160). -/
theorem convertBank_fold (hnew : kindOf new ≠ 0) : convertBank b new s =
    let r := (liveOf s b).1.foldl (convertStep b (descOf s b)) (0, 0, emptied b new s)
    (BitVec.ofNat 64 (r.1 * 2 ^ 32 + r.2.1), r.2.2) := by
  simp only [convertBank, if_neg h, if_neg hnew]
  rfl

end

/-! ## Counts -/

/-- The two counts of a CONVERT, read from the status word (R157). -/
theorem wf_counts {i d : Nat} (hi : i < 2 ^ 32) (hd : d < 2 ^ 32) :
    wf (BitVec.ofNat 64 (i * 2 ^ 32 + d)) 63 32 = i ∧ wf (BitVec.ofNat 64 (i * 2 ^ 32 + d)) 31 0 = d := by
  unfold wf field
  rw [BitVec.toNat_ofNat]
  omega

/-- Every element is kept or counted as dropped (R160). -/
theorem convertStep_total (b : Nat) (old : Word) (p : Nat × Nat × State) (e : Elem) :
    (convertStep b old p e).1 + (convertStep b old p e).2.1 = p.1 + p.2.1 + 1 := by
  unfold convertStep
  dsimp only
  split
  · exact (Nat.add_assoc _ _ _).symm
  · split
    · exact (Nat.add_assoc _ _ _).symm
    · exact Nat.add_right_comm _ _ _

theorem foldl_convertStep_total (b : Nat) (old : Word) (l : List Elem) : ∀ p : Nat × Nat × State,
    (l.foldl (convertStep b old) p).1 + (l.foldl (convertStep b old) p).2.1 = p.1 + p.2.1 + l.length := by
  induction l with
  | nil => intro p; rfl
  | cons e l ih => intro p; rw [List.foldl_cons, ih, convertStep_total, List.length_cons]; omega

theorem length_popAll_le (fuel : Nat) : ∀ l : List Nat, (popAll fuel l).length ≤ fuel := by
  induction fuel with
  | zero => intro l; exact Nat.le_refl _
  | succ fuel ih =>
    intro l
    cases l with
    | nil => exact Nat.zero_le _
    | cons x r => exact Nat.succ_le_succ (ih _)

/-- The live elements are fewer than a count of 32 bits holds. -/
theorem length_liveOf_lt (s : State) (b : Nat) : (liveOf s b).1.length < 2 ^ 32 := by
  have hcount : hdCount s b < 256 ^ 4 := bankRead_lt _ _ _
  have hmask : bmaskOf (descOf s b) < 2 ^ 11 := wf_lt _ _ _
  have hentries : (entries s b).length ≤ 508 := by
    rw [entries, List.length_map, upTo, List.length_range]
    exact Nat.min_le_right _ _
  have hpop := length_popAll_le (hdCount s b) (entries s b)
  unfold liveOf
  dsimp only
  split
  · rw [List.length_mapIdx, List.length_map, upTo, List.length_range]; omega
  · rw [List.length_mapIdx, List.length_map, upTo, List.length_range]; omega
  · rw [List.length_map]; omega
  · rw [List.length_map]; omega
  · have hfilter := List.length_filter_le (fun p : Nat × Nat => p.2 ≠ 0)
      ((upTo (bmaskOf (descOf s b) + 1)).map fun i => (i, bankRead s (bkey b (0x40 + 4 * i)) 4))
    rw [List.length_map, upTo, List.length_range] at hfilter
    rw [List.length_map]
    exact hfilter.trans_lt (by omega)
  · exact Nat.two_pow_pos _

/-- Kept and dropped elements together are the live ones (R160). -/
theorem convertBank_total {s : State} {b : Nat} (h : kindOf (descOf s b) ≠ 0) (new : Word) :
    wf (convertBank b new s).1 63 32 + wf (convertBank b new s).1 31 0 = (liveOf s b).1.length := by
  have hlive := length_liveOf_lt s b
  by_cases hnew : kindOf new = 0
  · obtain ⟨hkept, hdropped⟩ := wf_counts hlive (show 0 < 2 ^ 32 by decide)
    rw [Nat.add_zero] at hkept hdropped
    rw [convertBank_pack h hnew, hkept, hdropped, Nat.add_zero]
  · have htotal := foldl_convertStep_total b (descOf s b) (liveOf s b).1 (0, 0, emptied b new s)
    rw [show (0, 0, emptied b new s).1 + (0, 0, emptied b new s).2.1 = 0 from rfl, Nat.zero_add] at htotal
    rw [convertBank_fold h hnew]
    obtain ⟨hkept, hdropped⟩ := wf_counts (i := ((liveOf s b).1.foldl (convertStep b (descOf s b)) (0, 0, emptied b new s)).1)
      (d := ((liveOf s b).1.foldl (convertStep b (descOf s b)) (0, 0, emptied b new s)).2.1) (by omega) (by omega)
    dsimp only
    rw [hkept, hdropped, htotal]

/-! ## A QUEUE or STACK converted -/

theorem map_value_mapIdx (l : List Nat) : (l.mapIdx fun i (v : Nat) => (⟨i, v⟩ : Elem)).map (·.value) = l :=
  List.ext_getElem (by rw [List.length_map, List.length_mapIdx]) fun i _ _ => by rw [List.getElem_map, List.getElem_mapIdx]

/-- The live elements of a QUEUE or STACK are its elements, in order (R146). -/
theorem liveOf_seq {s : State} {b : Nat} (hk : kindOf (descOf s b) = 1 ∨ kindOf (descOf s b) = 2) :
    (liveOf s b).1.map (·.value) = elems s b ∧ (liveOf s b).2 = elems s b := by
  have hlive : liveOf s b = ((elems s b).mapIdx fun i (v : Nat) => (⟨i, v⟩ : Elem), elems s b) := by
    rcases hk with hk | hk
    · rw [elems_queue hk]
      simp only [liveOf, hk, upTo]
    · rw [elems_stack hk]
      simp only [liveOf, hk, upTo]
  rw [hlive]
  exact ⟨map_value_mapIdx _, rfl⟩

theorem emptied_descOf (b : Nat) (new : Word) (s : State) : descOf (emptied b new s) b = new := by
  rw [descOf, emptied, bank_modBank_self]

/-- Every byte of the emptied bank is 0. -/
theorem bankRead_emptied (b : Nat) (new : Word) (s : State) {off n : Nat} (h : off + n ≤ 8192) : bankRead (emptied b new s) (bkey b off) n = 0 := by
  have hzero (a : Nat) : readN [] a n = 0 := by
    clear h
    induction n generalizing a with
    | zero => rfl
    | succ n ih => rw [readN, ih]; rfl
  rw [← hzero (bkey b off)]
  refine readN_congr n _ fun a hlo hhi => ?_
  show readByte (clearBank b s).bankMem a = 0
  rw [clearBank, readByte_eraseN, if_pos (by unfold bkey at *; omega)]

/-- The emptied bank is an empty QUEUE or STACK. -/
theorem emptied_seqImage {s : State} {b : Nat} {new : Word} (hk : kindOf new = 1 ∨ kindOf new = 2) (hvalid : descValid new (b % 16) = true)
    (hp : s.bankPoison = []) : SeqImage (emptied b new s) b ∧ elems (emptied b new s) b = [] := by
  have hcount : hdCount (emptied b new s) b = 0 := bankRead_emptied _ _ _ (by decide)
  have hhead : hdHead (emptied b new s) b = 0 := bankRead_emptied _ _ _ (by decide)
  have htail : hdTail (emptied b new s) b = 0 := bankRead_emptied _ _ _ (by decide)
  have hpoison : (emptied b new s).bankPoison = [] := by
    show s.bankPoison.filter _ = []
    rw [hp, List.filter_nil]
  refine ⟨?_, List.length_eq_zero_iff.mp (by rw [length_elems, hcount])⟩
  rw [SeqImage, emptied_descOf, hcount, hhead, htail]
  refine ⟨hk, seq_fits hvalid hk, Nat.zero_le _, hpoison, fun hk1 => ⟨?_, (Nat.zero_mod _).symm⟩⟩
  simp only [descValid, hk1, Bool.and_eq_true, decide_eq_true_eq] at hvalid
  omega

/-- An element of a QUEUE or STACK put into one, where it fits and there is room (R160). -/
theorem convertStep_seq {b i d : Nat} {old : Word} {s : State} (hold : kindOf old = 1 ∨ kindOf old = 2)
    (hnew : kindOf (descOf s b) = 1 ∨ kindOf (descOf s b) = 2) (e : Elem) : convertStep b old (i, d, s) e =
    if e.value < 2 ^ ewOf (descOf s b) ∧ hdCount s b < capOf (descOf s b) then (i + 1, d, putOne b e.value s) else (i, d + 1, s) := by
  have hone : convertOne b old e s =
      if e.value < 2 ^ ewOf (descOf s b) ∧ hdCount s b < capOf (descOf s b) then (true, false, putOne b e.value s) else (false, false, s) := by
    rcases hold with hold | hold <;> rcases hnew with hnew | hnew <;>
      simp only [convertOne, hold, hnew, Bool.and_eq_true, decide_eq_true_eq]
  unfold convertStep
  rw [hone]
  split <;> rfl

/-- The elements that go into a structure of this width with so much room (R160). -/
def keptOf (d : Word) (room : Nat) (l : List Nat) : List Nat := (l.filter (· < 2 ^ ewOf d)).take room

theorem keptOf_nil (d : Word) (room : Nat) : keptOf d room [] = [] := by rw [keptOf, List.filter_nil, List.take_nil]

/-- A QUEUE or STACK filled: those that fit, in order, up to CAP (R160). -/
theorem foldl_convertStep_seq {b : Nat} {old new : Word} (hold : kindOf old = 1 ∨ kindOf old = 2) (hnew : kindOf new = 1 ∨ kindOf new = 2)
    (l : List Elem) : ∀ (i d : Nat) (s : State), SeqImage s b → descOf s b = new →
    let r := l.foldl (convertStep b old) (i, d, s)
    let kept := keptOf new (capOf new - hdCount s b) (l.map (·.value))
    r.1 = i + kept.length ∧ descOf r.2.2 b = new ∧ elems r.2.2 b = if kindOf new = 1 then elems s b ++ kept else kept.reverse ++ elems s b := by
  induction l with
  | nil =>
    intro i d s _ hdesc
    dsimp only
    rw [List.map_nil, List.foldl_nil]
    rw [keptOf_nil, List.append_nil, List.reverse_nil, List.nil_append, ite_self]
    exact ⟨rfl, hdesc, rfl⟩
  | cons e l ih =>
    intro i d s h hdesc
    dsimp only
    rw [List.foldl_cons, convertStep_seq hold (by rw [hdesc]; exact hnew), List.map_cons, hdesc]
    by_cases hfit : e.value < 2 ^ ewOf new
    · by_cases hroom : hdCount s b < capOf new
      · have hroom' : hdCount s b < capOf (descOf s b) := by rw [hdesc]; exact hroom
        obtain ⟨hcount, hdesc', helems⟩ := ih (i + 1) d (putOne b e.value s) (seqImage_putOne h hroom' _) ((putOne_descOf _ _ _).trans hdesc)
        have hkept : keptOf new (capOf new - hdCount s b) (e.value :: l.map (·.value)) =
            e.value :: keptOf new (capOf new - (hdCount s b + 1)) (l.map (·.value)) := by
          obtain ⟨room, hr⟩ := Nat.exists_eq_succ_of_ne_zero (show capOf new - hdCount s b ≠ 0 by omega)
          rw [keptOf, keptOf, List.filter_cons_of_pos (by simpa using hfit), hr, List.take_succ_cons, show capOf new - (hdCount s b + 1) = room by omega]
        rw [hdCount_putOne hroom'] at hcount helems
        rw [elems_putOne h hroom', hdesc, Nat.mod_eq_of_lt hfit] at helems
        rw [if_pos ⟨hfit, hroom⟩, hkept]
        refine ⟨by rw [hcount, List.length_cons]; omega, hdesc', helems.trans ?_⟩
        split
        · rw [List.append_assoc, List.singleton_append]
        · rw [List.reverse_cons, List.append_assoc, List.singleton_append]
      · have hkept (r : List Nat) : keptOf new (capOf new - hdCount s b) r = [] := by
          rw [keptOf, Nat.sub_eq_zero_of_le (Nat.le_of_not_lt hroom), List.take_zero]
        rw [if_neg fun hand => hroom hand.2]
        obtain ⟨hcount, hrest⟩ := ih i (d + 1) s h hdesc
        rw [hkept] at hcount hrest ⊢
        exact ⟨hcount, hrest⟩
    · have hkept : keptOf new (capOf new - hdCount s b) (e.value :: l.map (·.value)) = keptOf new (capOf new - hdCount s b) (l.map (·.value)) := by
        rw [keptOf, List.filter_cons_of_neg (by simpa using hfit), ← keptOf]
      rw [if_neg fun hand => hfit hand.1, hkept]
      exact ih i (d + 1) s h hdesc

/-- A QUEUE or STACK becomes one of those that fit (R160). -/
theorem convertBank_seq {s : State} {b : Nat} {new : Word} (hold : kindOf (descOf s b) = 1 ∨ kindOf (descOf s b) = 2)
    (hnew : kindOf new = 1 ∨ kindOf new = 2) (hvalid : descValid new (b % 16) = true) (hp : s.bankPoison = []) :
    let kept := keptOf new (capOf new) (elems s b)
    wf (convertBank b new s).1 63 32 = kept.length ∧ descOf (convertBank b new s).2 b = new ∧
    elems (convertBank b new s).2 b = if kindOf new = 1 then kept else kept.reverse := by
  obtain ⟨himage, hempty⟩ := emptied_seqImage (b := b) hnew hvalid hp
  have hlive := length_liveOf_lt s b
  have htotal := foldl_convertStep_total b (descOf s b) (liveOf s b).1 (0, 0, emptied b new s)
  rw [show (0, 0, emptied b new s).1 + (0, 0, emptied b new s).2.1 = 0 from rfl, Nat.zero_add] at htotal
  obtain ⟨hcount, hdesc, helems⟩ := foldl_convertStep_seq hold hnew (liveOf s b).1 0 0 _ himage (emptied_descOf _ _ _)
  rw [← length_elems, hempty, List.length_nil, Nat.sub_zero, (liveOf_seq hold).1] at hcount helems
  rw [List.nil_append, List.append_nil] at helems
  rw [convertBank_fold (by omega) (by omega)]
  dsimp only
  rw [(wf_counts (by omega) (by omega)).1, hcount, Nat.zero_add]
  exact ⟨rfl, hdesc, helems⟩

/-! ## The packed array (R160, fate a) -/

/-- The first n elements of w bytes written side by side. -/
def packSlots (b w : Nat) (l : List Nat) (n : Nat) (s : State) : State :=
  (List.range n).foldl (fun s i => bankWrite (bkey b (0x40 + w * i)) w (nth l i) s) s

theorem packSlots_spec (b w : Nat) (l : List Nat) (n : Nat) (s : State) :
    (∀ off k, off + k ≤ 0x40 → bankRead (packSlots b w l n s) (bkey b off) k = bankRead s (bkey b off) k) ∧
    ∀ i, i < n → bankRead (packSlots b w l n s) (bkey b (0x40 + w * i)) w = nth l i % 256 ^ w := by
  induction n with
  | zero => exact ⟨fun _ _ _ => rfl, fun _ h => absurd h (Nat.not_lt_zero _)⟩
  | succ n ih =>
    obtain ⟨hheader, hslots⟩ := ih
    have hlast : packSlots b w l (n + 1) s = bankWrite (bkey b (0x40 + w * n)) w (nth l n) (packSlots b w l n s) := by
      rw [packSlots, List.range_succ, List.foldl_append, List.foldl_cons, List.foldl_nil, ← packSlots]
    rw [hlast]
    refine ⟨fun off k h => (bankRead_bankWrite_apart _ _ (by unfold bkey; omega)).trans (hheader off k h), fun i hi => ?_⟩
    by_cases hin : i = n
    · rw [hin, bankRead_bankWrite]
    · have hapart := slots_apart (w := w) hin
      rw [Nat.mul_comm i, Nat.mul_comm n] at hapart
      rw [bankRead_bankWrite_apart _ _ (by unfold bkey; omega)]
      exact hslots i (by omega)

/-- A QUEUE or STACK becomes its count and its elements side by side (R160). -/
theorem convertBank_packed {s : State} {b : Nat} {new : Word} (hold : kindOf (descOf s b) = 1 ∨ kindOf (descOf s b) = 2) (hnew : kindOf new = 0) :
    let t := (convertBank b new s).2
    bankRead t (bkey b 0) 8 = (elems s b).length ∧ ∀ i x, (elems s b)[i]? = some x →
      bankRead t (bkey b (0x40 + ewOf (descOf s b) / 8 * i)) (ewOf (descOf s b) / 8) = x := by
  obtain ⟨hlive, hraw⟩ := liveOf_seq hold
  have hlen : (liveOf s b).1.length = (elems s b).length := by rw [← hlive, List.length_map]
  have hlt := length_liveOf_lt s b
  have hstored : (convertBank b new s).2 = packSlots b (ewOf (descOf s b) / 8) (elems s b) (elems s b).length
      (bankWrite (bkey b 0) 8 (elems s b).length (emptied b new s)) := by
    rw [convertBank_pack (by omega) hnew]
    simp only [packArray, if_neg (show ¬kindOf (descOf s b) = 5 by omega), slotBytes_seq hold, hraw, hlen, upTo, packSlots]
  dsimp only
  obtain ⟨hheader, hslots⟩ := packSlots_spec b (ewOf (descOf s b) / 8) (elems s b) (elems s b).length
    (bankWrite (bkey b 0) 8 (elems s b).length (emptied b new s))
  rw [hstored]
  refine ⟨?_, fun i x hx => ?_⟩
  · rw [hheader _ _ (by decide), bankRead_bankWrite, Nat.mod_eq_of_lt (by omega)]
  · obtain ⟨hi, rfl⟩ := List.getElem?_eq_some_iff.mp hx
    rw [hslots i hi, nth, List.getD_eq_getElem _ _ hi]
    exact Nat.mod_eq_of_lt (elems_lt (List.getElem_mem hi))

/-! ## The statement -/

/-- Settles O37: `bankPerf_pair` and `readByte_swapPair` for pairs, `convertBank_total`, `convertBank_packed` and `convertBank_seq` for
conversions. -/
theorem pairsAndConversions : Obligations.PairsAndConversions := by
  refine ⟨fun s core b n ea v dest row plain who heven hk hclosing hbad hp hodd hkey hn hfit => ?access,
    fun s core ea acc dest ord row plain who hodd hclosing hbad hdesc => ?odd, fun s b i hk hi => ?exchange,
    fun s b new himage hk hvalid => ⟨fun _ => convertBank_total (by rintro e; rw [e] at hk; exact absurd hk (by decide)) new,
      fun hold => ⟨fun hnew => ?pack, fun hnew => convertBank_seq hold hnew hvalid himage.poison_eq⟩⟩⟩
  case access =>
    subst hkey
    have hread := bankPerf_pair (acc := .read n) hk hclosing hbad hodd nofun dest {} row plain who
    have hwrite := bankPerf_pair (acc := .write n (v.zeroExtend 2048)) hk hclosing hbad hodd nofun dest {} row plain who
    have hv : (v.zeroExtend 2048).toNat = v.toNat := BitVec.toNat_setWidth_of_le (by decide)
    rw [actAt_read hp, plainKey_pair hk, show storeLike (.read n) dest = false from rfl, Bool.false_and, exchBank_front] at hread
    rw [actAt_write, plainKey_pair hk, show storeLike (.write n (v.zeroExtend 2048)) dest = true from rfl, Bool.true_and, exchBank_store, hv] at hwrite
    dsimp only
    rw [hread, hwrite]
    refine ⟨rfl, rfl, bankRead_bankWrite _ _ _ _, fun a ha => ?_⟩
    rw [readByte_bankWrite, if_neg ha]
  case odd =>
    simp only [bankPerf, hclosing, hbad, hodd, hdesc, Option.isSome_none, Bool.false_eq_true, if_false, if_true]
    rfl
  case exchange =>
    have hne : exchBank s b true ≠ exchBank s b false := by
      rw [exchBank_eq, exchBank_eq]
      cases (s.bank b).flipped <;> simp
    dsimp only
    rw [plainKey_swapPair hk, plainKey_swapPair hk, plainKey_pair hk, plainKey_pair hk]
    refine ⟨?_, ?_, fun a ha ha' => ?_⟩
    · rw [readByte_swapPair, if_neg fun hand => hne ((bkey_div _ hi).symm.trans hand.2)]
      rfl
    · rw [readByte_swapPair]
      cases (descOf s b).getLsbD 37
      · rw [if_pos ⟨rfl, bkey_div _ hi⟩]
        rfl
      · rw [if_neg (by simp)]
        rfl
    · have hother : a / 8192 ≠ exchBank s b false := by
        rw [exchBank_eq]
        split <;> assumption
      rw [readByte_swapPair, if_neg fun hand => hother hand.2]
  case pack =>
    have hcounts := wf_counts (length_liveOf_lt s b) (show 0 < 2 ^ 32 by decide)
    rw [Nat.add_zero] at hcounts
    refine ⟨?_, convertBank_packed hold hnew⟩
    rw [convertBank_pack (by omega) hnew]
    exact hcounts.2

end Sys2Proof.Machine
end

section
/-! PROOFS. Requests of a context: how they are queued at issue (R110, R296), which request a bank's slot performs (R299), and what
its end leaves. -/

namespace Sys2Proof.Machine

/-! ## Addresses of banks (R25) -/

/-- A bank's address lies in the local window, and names the bank from a core of its pavilion. -/
theorem bankBase_names (core : Nat) {bank : Nat} (h : bank < 16) : isLocal (bankBase (16 * core + bank)) = true ∧
    windowCore core (bankBase (16 * core + bank)) = core ∧ bankAt core (bankBase (16 * core + bank)) = 16 * core + bank := by
  have haddr : (bankBase (16 * core + bank)).toNat = 0x7E * 2 ^ 57 + core % 256 * 2 ^ 17 + bank * 2 ^ 13 := by
    rw [bankBase, BitVec.toNat_ofNat]
    omega
  have hcore : windowCore core (bankBase (16 * core + bank)) = core := by
    rw [windowCore, wf, haddr, field]
    omega
  refine ⟨beq_iff_eq.mpr ?_, hcore, ?_⟩
  · rw [wf, haddr, field]
    omega
  · rw [bankAt, windowBank, hcore, wf, haddr, field]
    omega

/-- A scalar access at the first byte of an own bank. -/
theorem ownBankOp_base {core bank : Nat} (h : bank < 16) {op : MemOp} (hea : op.ea = bankBase (16 * core + bank)) (hrow : op.row = false) :
    ownBankOp core op = true := by
  obtain ⟨hlocal, hcore, -⟩ := bankBase_names core h
  rw [ownBankOp, hea, hlocal, hcore, hrow]
  simp

/-! ## Issue -/

/-- The request that an access becomes (R110, R128). -/
def queuedReq (tile : Option Nat) (op : MemOp) (s : State) : Req := {
  seq := s.seq, acc := op.acc, addr := op.ea, dest := op.dest, ord := op.ord, user := !((me s).mode.getLsbD 6), pc := (me s).pc
  plain := op.plain, metClosed := false, due := s.cycle + 1, state := .issued, issued := s.cycle, tile := tile }

/-- An access that is no SC operation joins its context's requests. -/
theorem sendReq_eq {op : MemOp} (h : op.ord.sc = false) (tile : Option Nat) (s : State) : sendReq tile op s =
    { s.modCtx s.cur (fun c => { c with reqs := c.reqs ++ [queuedReq tile op s] }) with seq := s.seq + 1 } := by
  simp only [sendReq, h, Bool.false_eq_true, if_false]
  rfl

theorem sendReq_ctx {op : MemOp} (h : op.ord.sc = false) (tile : Option Nat) (s : State) :
    (sendReq tile op s).ctx s.cur = { s.ctx s.cur with reqs := (s.ctx s.cur).reqs ++ [queuedReq tile op s] } := by
  rw [sendReq_eq h]
  show (s.modCtx s.cur fun c => { c with reqs := c.reqs ++ [queuedReq tile op s] }).ctx s.cur = _
  rw [ctx_modCtx_self]

theorem sendReq_ctx_ne {op : MemOp} (h : op.ord.sc = false) (tile : Option Nat) (s : State) {j : Nat} (hj : j ≠ s.cur) :
    (sendReq tile op s).ctx j = s.ctx j := by
  rw [sendReq_eq h]
  show (s.modCtx s.cur fun c => { c with reqs := c.reqs ++ [queuedReq tile op s] }).ctx j = _
  rw [ctx_modCtx_ne _ _ _ _ hj]

theorem sendReq_frame {op : MemOp} (h : op.ord.sc = false) (tile : Option Nat) (s : State) :
    sendReq tile op s = { s with ctxs := (sendReq tile op s).ctxs, seq := s.seq + 1 } := by
  rw [sendReq_eq h]
  rfl

/-! ## The end of a request -/

/-- t is s but for contexts, announcements and ages: an answer on its way. -/
def OnlyAnswers (s t : State) : Prop := t = { s with ctxs := t.ctxs, announces := t.announces, seq := t.seq }

theorem OnlyAnswers.refl (s : State) : OnlyAnswers s s := rfl

theorem OnlyAnswers.trans {s t u : State} (h : OnlyAnswers s t) (h' : OnlyAnswers t u) : OnlyAnswers s u := by
  unfold OnlyAnswers at *
  rw [h', h]

theorem OnlyAnswers.sameBytes {s t : State} (h : OnlyAnswers s t) : SameBytes s t := by
  unfold OnlyAnswers at h
  rw [h]
  exact .of_eq rfl rfl rfl rfl

theorem OnlyAnswers.banks {s t : State} (h : OnlyAnswers s t) : t.banks = s.banks := by
  unfold OnlyAnswers at h
  rw [h]

theorem onlyAnswers_modCtx (s : State) (k : Nat) (f : Ctx → Ctx) : OnlyAnswers s (s.modCtx k f) := rfl

theorem onlyAnswers_queueLanding (k : Nat) (l : Landing) (s : State) : OnlyAnswers s (queueLanding k l s) := rfl

theorem onlyAnswers_endReq (k : Nat) (r : Req) (s : State) : OnlyAnswers s (endReq k r s) := rfl

/-- A request that is over has left its context (R27). -/
theorem endReq_ctx (k : Nat) (r : Req) (s : State) :
    (endReq k r s).ctx k = { s.ctx k with reqs := (s.ctx k).reqs.filter fun x => x.seq ≠ r.seq } := by
  have hreqs : ((s.ctx k).reqs.filterMap fun x => if x.seq = r.seq then none else some x) = (s.ctx k).reqs.filter fun x => x.seq ≠ r.seq := by
    rw [← List.filterMap_eq_filter]
    refine List.filterMap_congr fun x _ => ?_
    by_cases hx : x.seq = r.seq <;> simp [hx, Option.guard]
  show (s.modCtx k fun c => { c with reqs := c.reqs.filterMap fun x => if x.seq = r.seq then none else some x }).ctx k = _
  rw [ctx_modCtx_self, hreqs]

theorem endReq_ctx_ne (k : Nat) (r : Req) (s : State) {j : Nat} (h : j ≠ k) : (endReq k r s).ctx j = s.ctx j := by
  show (s.modCtx k fun c => { c with reqs := c.reqs.filterMap fun x => if x.seq = r.seq then none else some x }).ctx j = _
  rw [ctx_modCtx_ne _ _ _ _ h]

theorem mem_endReq (k : Nat) (r x : Req) (s : State) : x ∈ ((endReq k r s).ctx k).reqs ↔ x ∈ (s.ctx k).reqs ∧ x.seq ≠ r.seq := by
  rw [endReq_ctx]
  simp

/-! ## The slot's request -/

theorem exec_slotEvent {s : State} {core bank : Nat} {a : Ask} (hb : bank < 16) (h : chosenAt s (16 * core + bank) = some a) :
    exec (slotEvent core bank a.replay) s = .next (serve a (useTurn s a)) := by
  have heff : effBankSlot a.replay core bank s = serve a (useTurn s a) := by
    rw [effBankSlot, Nat.mod_eq_of_lt hb, h]
    exact if_pos rfl
  rw [← heff, slotEvent]
  cases a.replay <;> rfl

/-- The first part of a request's bytes. -/
def wholePart (k : Nat) (r : Req) : Piece := ⟨localKey (coreOf k) r.addr / 8192, localKey (coreOf k) r.addr % 8192, 0, r.acc.bytes⟩

/-- A request that lies in one bank and has not begun is performed whole. -/
theorem serve_whole {s : State} {k : Nat} {r : Req} {a : Ask} (hwho : a.who = .ctx k r.seq 0)
    (hfind : (s.ctx k).reqs.find? (fun x => x.seq = r.seq) = some r) (hdid : r.did = 0)
    (hfit : localKey (coreOf k) r.addr % 8192 + r.acc.bytes ≤ 8192) : serve a s = performReq k r 0 (wholePart k r) a.slot s := by
  have hparts : openParts (coreOf k) r = [(0, wholePart k r)] := by
    rw [openParts, partsAt, if_pos (by omega), hdid]
    simp [wholePart, upTo]
  simp only [serve, hwho, hfind, hparts, List.find?_singleton, decide_true, if_true]

end Sys2Proof.Machine
end

section
/-! PROOFS. The counterexample to ReplaysPathsAndWindows: two requests of one context with one age. -/

namespace Sys2Proof.Machine

/-- A load of the first word of core 0's bank 14, which answers. -/
def openLoad : Req := {
  seq := 0, acc := .read 8, addr := bankBase 14, dest := .reg 2 8 true, ord := {}, user := true, pc := 0, plain := true, metClosed := false
  due := 1, state := .issued }

/-- A load of the first word of bank 15, with the age of the other. -/
def closedLoad : Req := { openLoad with addr := bankBase 15 }

/-- The slot of core 0's own banks, with both loads waiting and bank 15 under change. -/
def sharedAge : State := { State.reset with
  cycle := 4, ctxs := [(0, { reqs := [openLoad, closedLoad] })], banks := [(15, { closing := some (.arcade 0) })] }

theorem sharedAge_chosen : chosenAt sharedAge 15 = some ⟨15, .own, 0, 0, 0, 0, false, .ctx 0 0 0⟩ := by decide +kernel

theorem sharedAge_closing : (sharedAge.bank 15).closing = some (.arcade 0) := by decide +kernel

theorem sharedAge_found : (sharedAge.ctx 0).reqs.find? (fun x => x.seq = openLoad.seq) = some openLoad := by decide +kernel

/-- Bank 15's slot performs the load of bank 14, whose value is on its way. -/
theorem sharedAge_lands : (match exec (slotEvent 0 15 false) sharedAge with | .next t => (t.ctx 0).landings.length | _ => 0) = 1 := by
  decide +kernel

/-- Refutes O30: its clause about CLOSED names the request by its age and does not say that the request lies in the bank under
change, nor that a context's ages differ. Where two loads share an age, the slot of the closed bank 15 performs the first of
them, at bank 14, and its value lands, while the statement has no landing. -/
theorem not_replaysPathsAndWindows : ¬ Obligations.ReplaysPathsAndWindows := by
  rintro ⟨⟨-, -, h⟩, -⟩
  obtain ⟨t, hexec, -, -, hclosed, -⟩ := h sharedAge 0 0 15 openLoad _ (.arcade 0) (by decide) sharedAge_chosen rfl rfl nofun
    sharedAge_found sharedAge_closing nofun
  have hlands := sharedAge_lands
  have hnone : (t.ctx 0).landings = (sharedAge.ctx 0).landings := (hclosed nofun).1
  rw [hexec] at hlands
  have hlen : (t.ctx 0).landings.length = 1 := hlands
  rw [hnone, show (sharedAge.ctx 0).landings = [] from rfl] at hlen
  exact absurd hlen (by decide)

end Sys2Proof.Machine
end

section
/-! PROOFS. BGUISE and BDESC: their issue, and what the slot of their bank does (R156, R157). -/

namespace Sys2Proof.Machine

/-! ## Issue to an own bank (R296) -/

/-- What an access that makes its destination pending leaves as it joins its context's requests. -/
theorem issueOps_pends {op : MemOp} {s : State} (hown : ownBankOp (coreOf s.cur) op = true) (hfix : fixedLoad s (coreOf s.cur) op = false)
    (hheld : holdsNext s (coreOf s.cur) op = false) (hoff : isOffCore (coreOf s.cur) op = true) (hsc : op.ord.sc = false) :
    let k := s.cur
    let t := issueOps [op] s
    ∃ r, (t.ctx k).reqs = (s.ctx k).reqs ++ [r] ∧ r.acc = op.acc ∧ r.addr = op.ea ∧ r.dest = op.dest ∧ r.issued = s.cycle ∧
      (∀ d ∈ destNames op.dest, d ≠ 0 → (t.ctx k).pending d = true) ∧ (t.ctx k).s = (s.ctx k).s ∧ (∀ j, j ≠ k → t.ctx j = s.ctx j) ∧
      t.banks = s.banks ∧ SameBytes s t := by
  dsimp only
  obtain ⟨u, hu⟩ : ∃ u, u = noteOwn (coreOf s.cur) (ownBank (coreOf s.cur) op) (pendDest s.cur op.dest s) := ⟨_, rfl⟩
  have hframe : u = { s with ctxs := u.ctxs, cores := u.cores } := by rw [hu, pendDest_eq]; rfl
  have hcur : u.cur = s.cur := by rw [hframe]
  have hctx (j : Nat) : u.ctx j = (pendDest s.cur op.dest s).ctx j := by rw [hu]; rfl
  have hcur' : (sendReq none op u).cur = s.cur := by rw [sendReq_frame hsc]; exact hcur
  have hissue : issueOps [op] s = offCore s.cur (sendReq none op u) := by
    simp only [issueOps, List.foldl_cons, List.foldl_nil, List.any_cons, List.any_nil, Bool.or_false, hown, hoff, if_true, ownIssue, hfix,
      hheld, Bool.false_eq_true, if_false, ← hu, hcur']
  have hsent := sendReq_ctx hsc none u
  rw [hcur, hctx] at hsent
  have hself := offCore_ctx s.cur (sendReq none op u)
  rw [hsent] at hself
  have hpend := pendDest_ctx_self s.cur op.dest s
  rw [hissue]
  refine ⟨queuedReq none op u, ?_, rfl, rfl, rfl, ?_, fun d hd hz => ?_, ?_, fun j hj => ?_, ?_, ?_⟩
  · rw [hself, hpend]
  · show u.cycle = _; rw [hframe]
  · rw [hself]; exact pendDest_pending hd hz s.cur s
  · rw [hself, hpend]
  · rw [offCore_ctx_ne _ hj, sendReq_ctx_ne hsc _ _ (by rw [hcur]; exact hj), hctx, pendDest_ctx]
    exact (setPending_only _ _ _).2 j hj
  · rw [offCore_eq, sendReq_frame hsc, hframe]
  · refine .trans ?_ (offCore_sameBytes _ _)
    rw [sendReq_frame hsc, hframe]
    exact .of_eq rfl rfl rfl rfl

/-- BGUISE's access to its bank's slot 0. -/
def guiseOp (d : SReg) (b : Nat) (mode : GuiseMode) (new : Word) : MemOp :=
  { ea := bankBase b, n := 8, acc := .guise mode new, dest := .reg d 8 true, align := 8 }

/-- BDESC's access to its bank's slot 0. -/
def descOp (d : SReg) (b : Nat) : MemOp := { ea := bankBase b, n := 8, acc := .desc, dest := .reg d 8 true, align := 8 }

theorem guiseOp_issue (s : State) (d : SReg) (bank : BitVec 4) (mode : GuiseMode) (new : Word) :
    let k := s.cur
    let b := 16 * coreOf k + bank.toNat
    let t := issueOps [guiseOp d b mode new] s
    ∃ r, (t.ctx k).reqs = (s.ctx k).reqs ++ [r] ∧ r.acc = .guise mode new ∧ r.addr = bankBase b ∧ r.dest = .reg d 8 true ∧
      r.issued = s.cycle ∧ (d ≠ 0 → (t.ctx k).pending d = true) ∧ (t.ctx k).s = (s.ctx k).s ∧ (∀ j, j ≠ k → t.ctx j = s.ctx j) ∧
      t.banks = s.banks ∧ SameBytes s t := by
  have hown := ownBankOp_base (core := coreOf s.cur) bank.isLt (op := guiseOp d (16 * coreOf s.cur + bank.toNat) mode new) rfl rfl
  obtain ⟨r, hreqs, hacc, haddr, hdest, hissued, hpend, hrest⟩ := issueOps_pends hown (by simp [fixedLoad, guiseOp, Access.isRead])
    (by simp [holdsNext, guiseOp]) (by simp [isOffCore, guiseOp, Access.isRead]) rfl
  exact ⟨r, hreqs, hacc, haddr, hdest, hissued, hpend d (List.mem_singleton_self d), hrest⟩

/-- Register d waits for the cycle in which its value lands, request q of cycle `now` bringing it (R62). -/
def Ctx.awaitingReg (c : Ctx) (d : SReg) (q now : Nat) : Ctx :=
  { c.setPend d (c.running.isSome || c.pend.getLsbD d.toNat) with
    fixed := c.fixed ++ [{ reg := d, value := 0, due := now + 4, pends := c.running.isSome, of := some q }] }

/-- Register d waits, and so does the context's next bundle, with the loop counts that a trap restores (R149, R156). -/
def Ctx.awaiting (c : Ctx) (d : SReg) (q now : Nat) (lct : Vector Word 4) : Ctx :=
  { c.awaitingReg d q now with nextIssue := max c.nextIssue (now + 4), portWait := some ⟨q, lct, c.running⟩ }

theorem Ctx.awaitingReg_eq (c : Ctx) (d : SReg) (q now : Nat) : c.awaitingReg d q now = { c with
    pend := (c.awaitingReg d q now).pend, fixed := (c.awaitingReg d q now).fixed } := by
  unfold Ctx.awaitingReg Ctx.setPend
  split <;> rfl

theorem Ctx.awaiting_eq (c : Ctx) (d : SReg) (q now : Nat) (lct : Vector Word 4) : c.awaiting d q now lct = { c with
    pend := (c.awaiting d q now lct).pend, fixed := (c.awaiting d q now lct).fixed, nextIssue := (c.awaiting d q now lct).nextIssue
    portWait := (c.awaiting d q now lct).portWait } := by
  rw [Ctx.awaiting, Ctx.awaitingReg_eq]

theorem awaitFixed_reg {d : SReg} (hd : d ≠ 0) (q : Nat) (s : State) :
    awaitFixed (.reg d 8 true) q s = s.modCtx s.cur fun c => c.awaitingReg d q s.cycle := by
  have hnames : (destNames (.reg d 8 true)).filter (· != 0) = [d] := List.filter_cons_of_pos (by simpa using hd)
  rw [awaitFixed]
  simp only [hnames, List.foldl_cons, List.foldl_nil]
  rfl

theorem descOp_ownIssue {s : State} {d : SReg} (hd : d ≠ 0) {b : Nat} (hown : ownBankOp (coreOf s.cur) (descOp d b) = true) :
    ∃ lct, issueOps [descOp d b] s = sendReq none (descOp d b) (noteOwn (coreOf s.cur) (ownBank (coreOf s.cur) (descOp d b))
      (s.modCtx s.cur fun c => c.awaiting d s.seq s.cycle lct)) := by
  have hfix : fixedLoad s (coreOf s.cur) (descOp d b) = true := by rw [fixedLoad, hown]; rfl
  have hheld : holdsNext s (coreOf s.cur) (descOp d b) = true := by rw [holdsNext, hown]; rfl
  have hoff : isOffCore (coreOf s.cur) (descOp d b) = false := by
    have hplace : isLocal (bankBase b) = true ∧ windowCore (coreOf s.cur) (bankBase b) = coreOf s.cur := by
      simpa [ownBankOp, descOp] using hown
    simp [isOffCore, descOp, hplace]
  simp only [issueOps, List.foldl_cons, List.foldl_nil, List.any_cons, List.any_nil, Bool.or_false, hown, hoff, if_true, ownIssue, hfix,
      hheld, Bool.false_eq_true, if_false]
  rw [show (descOp d b).dest = .reg d 8 true from rfl, awaitFixed_reg hd, modCtx_modCtx]
  refine ⟨(me (s.modCtx s.cur fun c => c.awaitingReg d s.seq s.cycle)).lct, ?_⟩
  congr 3
  funext c
  have hnext : (c.awaitingReg d s.seq s.cycle).nextIssue = c.nextIssue := by rw [Ctx.awaitingReg_eq]
  have hrun : (c.awaitingReg d s.seq s.cycle).running = c.running := by rw [Ctx.awaitingReg_eq]
  rw [Ctx.awaiting, hnext, hrun]
  rfl

/-- BDESC's access: its register waits for the landing cycle, and the context's next bundle for the answer (R149, R156). -/
theorem descOp_issue (s : State) {d : SReg} (hd : d ≠ 0) (bank : BitVec 4) :
    let k := s.cur
    let b := 16 * coreOf k + bank.toNat
    let t := issueOps [descOp d b] s
    ∃ r, (t.ctx k).reqs = (s.ctx k).reqs ++ [r] ∧ r.acc = .desc ∧ r.addr = bankBase b ∧
       r.dest = .reg d 8 true ∧ r.issued = s.cycle ∧ s.cycle + 4 ≤ (t.ctx k).nextIssue ∧ (t.ctx k).s = (s.ctx k).s ∧ SameBytes s t ∧
       ∃ f ∈ (t.ctx k).fixed, f.reg = d ∧ f.due = s.cycle + 4 ∧ f.of = some r.seq := by
  dsimp only
  have hown := ownBankOp_base (core := coreOf s.cur) bank.isLt (op := descOp d (16 * coreOf s.cur + bank.toNat)) rfl rfl
  obtain ⟨lct, hissue⟩ := descOp_ownIssue hd hown
  rw [hissue]
  generalize hop : descOp d (16 * coreOf s.cur + bank.toNat) = op
  generalize hu : noteOwn (coreOf s.cur) (ownBank (coreOf s.cur) op) (s.modCtx s.cur fun c => c.awaiting d s.seq s.cycle lct) = u
  have hframe : u = { s with ctxs := u.ctxs, cores := u.cores } := by rw [← hu]; rfl
  have hcur : u.cur = s.cur := by rw [hframe]
  have hctx : u.ctx s.cur = (s.ctx s.cur).awaiting d s.seq s.cycle lct := by
    rw [← hu]
    exact ctx_modCtx_self s s.cur fun c => c.awaiting d s.seq s.cycle lct
  have hsent := sendReq_ctx (op := op) (by rw [← hop]; rfl) none u
  rw [hcur, hctx] at hsent
  rw [hsent, Ctx.awaiting_eq]
  refine ⟨queuedReq none op u, rfl, by rw [← hop]; rfl, by rw [← hop]; rfl, by rw [← hop]; rfl, ?_, Nat.le_max_right _ _, rfl, ?_,
    _, List.mem_append_right _ (List.mem_singleton_self _), rfl, rfl, ?_⟩
  · show u.cycle = _; rw [hframe]
  · rw [sendReq_frame (by rw [← hop]; rfl), hframe]
    exact .of_eq rfl rfl rfl rfl
  · show _ = some u.seq; rw [hframe]

end Sys2Proof.Machine
end

section
/-! PROOFS. What the slot of a bank does for BGUISE and BDESC (R156, R157), and the end of a BGUISE. -/

namespace Sys2Proof.Machine

/-! ## A bank that nobody waits at, in no arcade -/

theorem changedWith_alone {s : State} {b : Nat} (h : inArcade s b = false) : changedWith s b = [b] := by
  rw [changedWith, h, if_neg (by decide)]

theorem detachBank_alone {s : State} {b : Nat} (h : inArcade s b = false) : detachBank b s = s := by
  rw [detachBank, h, if_neg (by decide)]

theorem wakeClosed_none {s : State} {b : Nat} (h : (s.bank b).waiters = []) : wakeClosed b s = s := if_pos h

/-! ## The change of the bank -/

/-- The bank with the descriptor that BGUISE gives it. -/
def Bank.guised (x : Bank) (full : Word) : Bank := { x with desc := full, ages := [], badDesc := false }

section
variable {s : State} {b : Nat} {new : Word} (hnew : kindOf new ≠ 6) (hold : kindOf (descOf s b) ≠ 6)
include hnew hold

theorem guiseApply_clear : guiseApply b .clear new s =
    (none, false, (clearBank b s).modBank b fun x => x.guised (withGen new (descOf s b))) := by
  simp [guiseApply, hnew, hold]
  rfl

theorem guiseApply_keep : guiseApply b .keep new s = if keepOk s b new then
    (none, false, s.modBank b fun x => x.guised (withGen new (descOf s b))) else (none, true, s) := by
  cases hok : keepOk s b new <;> simp [guiseApply, hnew, hold, hok]
  rfl

end

theorem guiseApply_convert {s : State} {b : Nat} (h : kindOf (descOf s b) = 0) (new : Word) : guiseApply b .convert new s =
    (some 0, false, s.modBank b fun x => { x with desc := withGen new (descOf s b) }) := by
  simp [guiseApply, convertBank, h]

/-! ## BGUISE in its slot -/

/-- A changing bank: it answers CLOSED until cycle `due`, when register d of context k takes the old descriptor. -/
def Bank.changing (x : Bank) (k : Nat) (d : SReg) (pc old : Word) (due : Nat) (bad : Bool) (counts : Option Word) : Bank :=
  { x with closing := some (.guise k d pc old due bad counts) }

/-- BGUISE at a bank that nothing else concerns. -/
theorem guisePerform_eq {s : State} {k b : Nat} {r : Req} {d : SReg} {mode : GuiseMode} {new : Word} (hb : localKey (coreOf k) r.addr / 8192 = b)
    (hdest : r.dest = .reg d 8 true) (hclosing : (s.bank b).closing = none) (hdesc : (s.bank b).badDesc = false) (hpoison : s.bankPoison = [])
    (hwait : (s.bank b).waiters = []) (hfree : inArcade s b = false) :
    guisePerform k r mode new s = (guiseApply b mode new (endReq k r s)).2.2.modBank b fun x => x.changing k d r.pc (descOf s b)
      ((guiseApply b mode new (endReq k r s)).2.2.cycle + r.issued % 4 + guiseTime mode (guiseApply b mode new (endReq k r s)).1 - 4)
      (guiseApply b mode new (endReq k r s)).2.1 (guiseApply b mode new (endReq k r s)).1 := by
  have hbad : badIn s (guiseReads s b mode new) = none := if_pos hpoison
  have hbank : ((endReq k r s).bank b).waiters = [] := hwait
  have hfree' : inArcade (endReq k r s) b = false := hfree
  simp only [guisePerform, hb, hclosing, hdesc, hbad, Option.isSome_none, Bool.false_eq_true, and_false, if_false, changedWith_alone hfree,
    List.foldl_cons, List.foldl_nil, wakeClosed_none hbank, detachBank_alone hfree', hdest]
  rfl

/-- What the slot of a BGUISE leaves besides the bank's bytes and descriptor. -/
def GuiseClosed (s t : State) (k b : Nat) (d : SReg) (r : Req) (n : Nat) (bad : Bool) (counts : Option Word) : Prop :=
  (t.bank b).closing = some (.guise k d r.pc (descOf s b) (s.cycle + r.issued % 4 + n) bad counts) ∧
  (∀ x, x ∈ (t.ctx k).reqs ↔ x ∈ (s.ctx k).reqs ∧ x.seq ≠ r.seq) ∧
  (t.ctx k).s = (s.ctx k).s ∧ (∀ j, j ≠ k → t.ctx j = s.ctx j) ∧ (∀ x, x ≠ b → t.bank x = s.bank x) ∧ t.hbm = s.hbm

/-- u is v but for bank b's record and the bytes of banks. -/
def OnlyImage (b : Nat) (v u : State) : Prop :=
  u = { v with banks := u.banks, bankMem := u.bankMem, bankPoison := u.bankPoison } ∧ ∀ x, x ≠ b → u.bank x = v.bank x

theorem OnlyImage.modBank (b : Nat) (v : State) (f : Bank → Bank) : OnlyImage b v (v.modBank b f) :=
  ⟨rfl, fun _ h => bank_modBank_ne _ _ _ _ h⟩

theorem OnlyImage.modBank_clearBank (b : Nat) (v : State) (f : Bank → Bank) : OnlyImage b v ((clearBank b v).modBank b f) :=
  ⟨rfl, fun _ h => bank_modBank_ne _ _ _ _ h⟩

theorem OnlyImage.refl (b : Nat) (v : State) : OnlyImage b v v := ⟨rfl, fun _ _ => rfl⟩

/-- The bank's change once it is known what the slot made of the bank. -/
theorem guiseClosed_changing {s v u : State} {k b : Nat} {r : Req} (hv : v = { s with turns := v.turns }) (hu : OnlyImage b (endReq k r v) u)
    (d : SReg) {n due : Nat} (hdue : due = s.cycle + r.issued % 4 + n) (bad : Bool) (counts : Option Word) :
    GuiseClosed s (u.modBank b fun x => x.changing k d r.pc (descOf s b) due bad counts) k b d r n bad counts := by
  obtain ⟨hframe, hbanks⟩ := hu
  have hctx (j : Nat) : (u.modBank b fun x => x.changing k d r.pc (descOf s b) due bad counts).ctx j = (endReq k r s).ctx j := by
    rw [hframe, hv]; rfl
  refine ⟨?_, fun x => ?_, ?_, fun j hj => ?_, fun x hx => ?_, ?_⟩
  · rw [bank_modBank_self, hdue]; rfl
  · rw [hctx, mem_endReq]
  · rw [hctx, endReq_ctx]
  · rw [hctx, endReq_ctx_ne _ _ _ hj]
  · rw [bank_modBank_ne _ _ _ _ hx, hbanks x hx, hv]; rfl
  · rw [hframe, hv]; rfl

/-- The slot of an own bank performs the request that it serves. -/
theorem servesOwn_exec {s : State} {k core bank : Nat} {r : Req} {again : Bool} (hbank : bank < 16)
    (h : ServesOwn s k (16 * core + bank) r again) (hbytes : r.acc.bytes ≤ 8192) : ∃ a, exec (slotEvent core bank again) s =
      .next (performReq k r 0 (wholePart k r) .own (useTurn s a)) := by
  obtain ⟨hkey, hdid, hfind, ⟨a, hchosen, hwho, hslot, hagain⟩, -⟩ := h
  have hkey' : localKey (coreOf k) r.addr = 8192 * (16 * core + bank) := hkey
  refine ⟨a, ?_⟩
  rw [← hagain, exec_slotEvent hbank hchosen, serve_whole (s := useTurn s a) hwho hfind hdid (by rw [hkey']; omega), hslot]

theorem servesOwn_guise {s : State} {k core bank : Nat} {r : Req} {again : Bool} {mode : GuiseMode} {new : Word} (hbank : bank < 16)
    (h : ServesOwn s k (16 * core + bank) r again) (hacc : r.acc = .guise mode new) :
    ∃ a, exec (slotEvent core bank again) s = .next (guisePerform k r mode new (useTurn s a)) := by
  obtain ⟨a, hexec⟩ := servesOwn_exec hbank h (by rw [hacc, Access.bytes]; omega)
  obtain ⟨-, -, -, -, hlist, -⟩ := h
  have hlist' : listFor (useTurn s a) k r = none := hlist
  refine ⟨a, ?_⟩
  rw [hexec]
  simp only [performReq, hlist', hacc]


/-- KEEP's check reads the bank's bytes alone. -/
theorem keepOk_congr {s v : State} (h : v.bankMem = s.bankMem) (b : Nat) (new : Word) : keepOk v b new = keepOk s b new := by
  unfold keepOk entries hdCount hdHead hdTail hdStamp bankRead
  rw [h]

/-- Context k's BGUISE is served at a bank where nobody waits and which is in no arcade and in no pair, before or after. -/
def ServesGuise (s : State) (k b : Nat) (r : Req) (again : Bool) (d : SReg) (mode : GuiseMode) (new : Word) : Prop :=
  ServesOwn s k b r again ∧ r.acc = .guise mode new ∧ r.dest = .reg d 8 true ∧ (s.bank b).waiters = [] ∧ inArcade s b = false ∧
  kindOf new ≠ 6 ∧ kindOf (descOf s b) ≠ 6

section
variable {s : State} {k core bank : Nat} {r : Req} {again : Bool} {d : SReg} {new : Word}

/-- BGUISE in its slot: what `guiseApply` makes of the bank, which then is CLOSED. -/
theorem exec_guise {mode : GuiseMode} (hbank : bank < 16) (h : ServesGuise s k (16 * core + bank) r again d mode new)
    {counts : Option Word} {bad : Bool} {change : State → State}
    (happly : ∀ v, descOf v (16 * core + bank) = descOf s (16 * core + bank) → v.bankMem = s.bankMem →
      guiseApply (16 * core + bank) mode new v = (counts, bad, change v))
    (hchange : ∀ v, OnlyImage (16 * core + bank) v (change v)) {n : Nat} (hn : guiseTime mode counts = n + 4) :
    ∃ v f, v.bank (16 * core + bank) = s.bank (16 * core + bank) ∧ SameBytes s v ∧ exec (slotEvent core bank again) s =
      .next ((change v).modBank (16 * core + bank) fun x => { x with closing := f }) ∧
      GuiseClosed s ((change v).modBank (16 * core + bank) fun x => { x with closing := f }) k (16 * core + bank) d r n bad counts := by
  obtain ⟨hserves, hacc, hdest, hwait, hfree, -⟩ := h
  obtain ⟨a, hexec⟩ := servesOwn_guise hbank hserves hacc
  obtain ⟨hkey, -, -, -, -, hclosing, hdesc, hpoison⟩ := hserves
  have hkey' : localKey (coreOf k) r.addr = 8192 * (16 * core + bank) := hkey
  rw [guisePerform_eq (s := useTurn s a) (b := 16 * core + bank) (by rw [hkey']; omega) hdest hclosing hdesc hpoison hwait hfree,
    happly (endReq k r (useTurn s a)) rfl rfl] at hexec
  have hcycle : (change (endReq k r (useTurn s a))).cycle = s.cycle := by rw [(hchange _).1]; rfl
  refine ⟨endReq k r (useTurn s a), _, rfl, .of_eq rfl rfl rfl rfl, hexec, ?_⟩
  exact guiseClosed_changing rfl (hchange _) d (by rw [hcycle, hn]; omega) bad counts

/-- The descriptor once the bank has it and is CLOSED. -/
theorem descOf_changing (b : Nat) (u : State) (f : Bank → Bank) (c : Option Closing) :
    descOf ((u.modBank b f).modBank b fun x => { x with closing := c }) b = (f (u.bank b)).desc := by
  rw [descOf, bank_modBank_self, bank_modBank_self]

/-- CLEAR zeroes the bank. -/
theorem exec_guiseClear (hbank : bank < 16) (h : ServesGuise s k (16 * core + bank) r again d .clear new) :
    ∃ t, exec (slotEvent core bank again) s = .next t ∧ GuiseClosed s t k (16 * core + bank) d r 0 false none ∧
      descOf t (16 * core + bank) = withGen new (descOf s (16 * core + bank)) ∧
      ∀ x, readByte t.bankMem x = if x / 8192 = 16 * core + bank then 0 else readByte s.bankMem x := by
  have ⟨_, _, _, _, _, hnew, hold⟩ := h
  obtain ⟨v, f, hv, hbytes, hexec, hclosed⟩ := exec_guise hbank h
    (change := fun v => (clearBank (16 * core + bank) v).modBank (16 * core + bank) fun x => x.guised (withGen new (descOf s (16 * core + bank))))
    (fun v hdesc _ => by rw [guiseApply_clear hnew (by rw [hdesc]; exact hold), hdesc]) (fun v => .modBank_clearBank _ _ _) (n := 0) rfl
  refine ⟨_, hexec, hclosed, descOf_changing _ _ _ _, fun x => ?_⟩
  show readByte (eraseN v.bankMem (bkey (16 * core + bank) 0) 8192) x = _
  rw [readByte_eraseN, hbytes.1 x]
  exact if_congr (by unfold bkey; omega) rfl rfl

/-- KEEP of a bank whose header fits the descriptor leaves its bytes. -/
theorem exec_guiseKeep (hbank : bank < 16) (h : ServesGuise s k (16 * core + bank) r again d .keep new)
    (hok : keepOk s (16 * core + bank) new = true) :
    ∃ t, exec (slotEvent core bank again) s = .next t ∧ GuiseClosed s t k (16 * core + bank) d r 0 false none ∧
      descOf t (16 * core + bank) = withGen new (descOf s (16 * core + bank)) ∧ SameBytes s t := by
  have ⟨_, _, _, _, _, hnew, hold⟩ := h
  obtain ⟨v, f, hv, hbytes, hexec, hclosed⟩ := exec_guise hbank h
    (change := fun v => v.modBank (16 * core + bank) fun x => x.guised (withGen new (descOf s (16 * core + bank))))
    (fun v hdesc hmem => by rw [guiseApply_keep hnew (by rw [hdesc]; exact hold), keepOk_congr hmem, hok, hdesc]; rfl)
    (fun v => .modBank _ _ _) (n := 0) rfl
  exact ⟨_, hexec, hclosed, descOf_changing _ _ _ _, hbytes.trans (.of_eq rfl rfl rfl rfl)⟩

/-- A refused KEEP changes nothing. -/
theorem exec_guiseRefused (hbank : bank < 16) (h : ServesGuise s k (16 * core + bank) r again d .keep new)
    (hok : keepOk s (16 * core + bank) new = false) :
    ∃ t, exec (slotEvent core bank again) s = .next t ∧ GuiseClosed s t k (16 * core + bank) d r 0 true none ∧
      descOf t (16 * core + bank) = descOf s (16 * core + bank) ∧ SameBytes s t := by
  have ⟨_, _, _, _, _, hnew, hold⟩ := h
  obtain ⟨v, f, hv, hbytes, hexec, hclosed⟩ := exec_guise hbank h (change := id)
    (fun v hdesc hmem => by rw [guiseApply_keep hnew (by rw [hdesc]; exact hold), keepOk_congr hmem, hok]; rfl)
    (fun v => .refl _ _) (n := 0) rfl
  refine ⟨_, hexec, hclosed, ?_, hbytes.trans (.of_eq rfl rfl rfl rfl)⟩
  rw [descOf, bank_modBank_self]
  show (v.bank (16 * core + bank)).desc = _
  rw [hv]
  rfl

/-- CONVERT of a plain bank leaves its bytes and counts no element. -/
theorem exec_guiseConvert (hbank : bank < 16) (h : ServesGuise s k (16 * core + bank) r again d .convert new)
    (hplain : kindOf (descOf s (16 * core + bank)) = 0) :
    ∃ t, exec (slotEvent core bank again) s = .next t ∧ GuiseClosed s t k (16 * core + bank) d r 4 false (some 0) ∧
      descOf t (16 * core + bank) = withGen new (descOf s (16 * core + bank)) ∧ SameBytes s t := by
  obtain ⟨v, f, hv, hbytes, hexec, hclosed⟩ := exec_guise hbank h
    (change := fun v => v.modBank (16 * core + bank) fun x => { x with desc := withGen new (descOf s (16 * core + bank)) })
    (fun v hdesc _ => by rw [guiseApply_convert (by rw [hdesc]; exact hplain), hdesc]) (fun v => .modBank _ _ _) (n := 4) rfl
  exact ⟨_, hexec, hclosed, descOf_changing _ _ _ _, hbytes.trans (.of_eq rfl rfl rfl rfl)⟩

end

end Sys2Proof.Machine
end

section
/-! PROOFS. The answer of an own bank's slot to BDESC (R156), and the end of a BGUISE (R157). -/

namespace Sys2Proof.Machine

/-! ## A value of slot 0 (R149, R296) -/

/-- The context's next bundle is no longer held for request r (R149). -/
def portFreed (k : Nat) (r : Req) (s : State) : State :=
  if ((s.ctx k).portWait.filter fun w => w.seq == r.seq).isSome then s.modCtx k fun c => { c with
    portWait := none, nextIssue := max c.nextIssue (s.cycle + r.issued % 4) } else s

theorem portFreed_answers (k : Nat) (r : Req) (s : State) : OnlyAnswers s (portFreed k r s) := by
  unfold portFreed
  split <;> rfl

theorem portFreed_ctx (k : Nat) (r : Req) (s : State) : (portFreed k r s).ctx k = { s.ctx k with
    portWait := ((portFreed k r s).ctx k).portWait, nextIssue := ((portFreed k r s).ctx k).nextIssue } := by
  unfold portFreed
  split
  · rw [ctx_modCtx_self]
  · rfl

/-- The replays of a request are counted once it is over (R148). -/
def replaysCounted (k : Nat) (r : Req) (s : State) : State := if r.metClosed then countEv k 8 1 s else s

theorem replaysCounted_answers (k : Nat) (r : Req) (s : State) : OnlyAnswers s (replaysCounted k r s) := by
  unfold replaysCounted
  split <;> rfl

theorem replaysCounted_ctx (k : Nat) (r : Req) (s : State) : ∃ evc, (replaysCounted k r s).ctx k = { s.ctx k with evc := evc } := by
  unfold replaysCounted
  split
  · exact countEv_keeps k 8 1 s
  · exact ⟨_, rfl⟩

section
variable {k : Nat} {r : Req} {s : State}

theorem afterOwn_awaited (h : awaits (s.ctx k) r.seq = true) (v : Nat) (fl : Flags5) : afterOwn k r (.done 0 v fl) s =
    replaysCounted k r ((endReq k r (portFreed k r s)).modCtx k (giveFixed r.seq (destRegs r.dest 0 v).1 none)) := by
  simp only [afterOwn, h, ne_eq, not_true_eq_false, false_and, if_false, if_true]
  rfl

theorem afterOwn_lands (h : awaits (s.ctx k) r.seq = false) (hdest : r.dest ≠ .none) (v : Nat) (fl : Flags5) :
    afterOwn k r (.done 0 v fl) s = queueLanding k
      { landingOf r.dest ((portFreed k r s).cycle + r.issued % 4) 0 v fl with firm := true, waitw := r.acc.isWaitw }
      (replaysCounted k r (endReq k r (portFreed k r s))) := by
  simp only [afterOwn, h, afterPerf, hdest, ne_eq, not_true_eq_false, false_and, if_false, Bool.false_eq_true, false_or]
  rfl

end

/-- What the value of a scalar register leaves as an own bank's slot answers: it stands with the register that waits for it,
or is on its way. -/
theorem afterOwn_reg {k : Nat} {r : Req} {d : SReg} (hdest : r.dest = .reg d 8 true) (s : State) (v : Word) :
    let t := afterOwn k r (.done 0 v.toNat 0) s
    OnlyAnswers s t ∧ (t.ctx k).s = (s.ctx k).s ∧ (∀ x, x ∈ (t.ctx k).reqs ↔ x ∈ (s.ctx k).reqs ∧ x.seq ≠ r.seq) ∧
    (∀ f ∈ (s.ctx k).fixed, f.of = some r.seq → f.reg = d → { f with value := v, of := none, bad := none } ∈ (t.ctx k).fixed) ∧
    ((∀ f ∈ (s.ctx k).fixed, f.of ≠ some r.seq) → ∃ l, (t.ctx k).landings = (s.ctx k).landings ++ [l] ∧
      l.regs = [(d, v)] ∧ l.due = s.cycle + r.issued % 4 ∧ l.poison = none) := by
  have hval : extendTo 8 true v.toNat = v := by simpa using sext_payload v 0
  have hfreed := portFreed_ctx k r s
  have hended : (endReq k r (portFreed k r s)).ctx k = _ := endReq_ctx k r (portFreed k r s)
  rw [hfreed] at hended
  have hanswers := (portFreed_answers k r s).trans (onlyAnswers_endReq k r _)
  have hcycle : (portFreed k r s).cycle = s.cycle := by rw [portFreed_answers k r s]
  dsimp only
  cases hawaits : awaits (s.ctx k) r.seq
  · have hnone : ∀ f ∈ (s.ctx k).fixed, f.of ≠ some r.seq := by simpa [awaits] using hawaits
    obtain ⟨evc, hevc⟩ := replaysCounted_ctx k r (endReq k r (portFreed k r s))
    rw [afterOwn_lands hawaits (by rw [hdest]; nofun), queueLanding_ctx, hevc, hended]
    refine ⟨(hanswers.trans (replaysCounted_answers k r _)).trans (onlyAnswers_queueLanding _ _ _), rfl, fun x => by simp,
      fun f hf hof => absurd hof (hnone f hf), fun _ => ⟨_, rfl, ?_, ?_, ?_⟩⟩
    · simp [landingOf, hdest, destRegs, hval]
    · simp [landingOf, hcycle]
    · rfl
  · obtain ⟨evc, hevc⟩ := replaysCounted_ctx k r ((endReq k r (portFreed k r s)).modCtx k (giveFixed r.seq (destRegs r.dest 0 v.toNat).1 none))
    rw [ctx_modCtx_self, hended] at hevc
    rw [afterOwn_awaited hawaits, hevc]
    refine ⟨(hanswers.trans (onlyAnswers_modCtx _ _ _)).trans (replaysCounted_answers k r _), rfl, fun x => by simp [giveFixed],
      fun f hf hof hreg => ?_, fun hnone => ?_⟩
    · refine List.mem_map.mpr ⟨f, hf, ?_⟩
      simp [hof, hdest, destRegs, hreg, hval]
    · obtain ⟨f, hf, hof⟩ := List.any_eq_true.mp hawaits
      exact absurd (beq_iff_eq.mp hof) (hnone f hf)

theorem performReq_desc {k b : Nat} {d : SReg} {r : Req} {s : State} (hb : localKey (coreOf k) r.addr / 8192 = b) (hlist : listFor s k r = none)
    (hclosing : (s.bank b).closing = none) (hdesc : (s.bank b).badDesc = false) (hacc : r.acc = .desc) (hdest : r.dest = .reg d 8 true) :
    performReq k r 0 (wholePart k r) .own s = afterOwn k r (.done 0 (descOf s b).toNat 0) s := by
  have haddr : r.addr + BitVec.ofNat 64 (wholePart k r).start = r.addr := BitVec.add_zero _
  have hperf : bankPerf (coreOf k) (r.addr + BitVec.ofNat 64 (wholePart k r).start) .desc (.reg d 8 true) r.ord (isRowReq r) r.plain
      (.ctx k r.seq) s = (.done 0 (descOf s b).toNat 0, s) := by
    rw [haddr]
    unfold bankPerf
    simp only [hb, hclosing, hdesc, Option.isSome_none, Bool.false_eq_true, if_false, if_true]
  have hpart : partAcc .desc (wholePart k r) = .desc := rfl
  simp only [performReq, hlist, hacc, hdest, hpart, hperf, if_true]

/-! ## The end of a BGUISE -/

/-- The bank answers again. -/
def reopened (b : Nat) (s : State) : State := s.modBank b fun x => { x with closing := none }

/-- GEN rises in the descriptor and, where there is one, in the image (R157). -/
theorem bumpGen_spec (b : Nat) (s : State) : OnlyImage b s (bumpGen b s) ∧ ((bumpGen b s).bank b).closing = (s.bank b).closing ∧
    descOf (bumpGen b s) b = descOf s b + BitVec.ofNat 64 (2 ^ 48) := by
  have hbank (j : Nat) : (bumpGen b s).bank j = (s.modBank b fun x => { x with desc := x.desc + BitVec.ofNat 64 (2 ^ 48) }).bank j := by
    unfold bumpGen
    dsimp only
    split
    · rfl
    · rw [bankWrite_bank]
  have hframe : bumpGen b s = { s with banks := (bumpGen b s).banks, bankMem := (bumpGen b s).bankMem, bankPoison := (bumpGen b s).bankPoison } := by
    unfold bumpGen
    dsimp only
    split <;> rfl
  refine ⟨⟨hframe, fun x hx => ?_⟩, ?_, ?_⟩
  · rw [hbank, bank_modBank_ne _ _ _ _ hx]
  · rw [hbank, bank_modBank_self]
  · rw [descOf, hbank, bank_modBank_self]; rfl

section
variable {s : State} {k core bank due : Nat} {d : SReg} {pc old : Word} {bad : Bool}

theorem effBguiseComplete_early (hbank : bank < 16) (h : (s.bank (16 * core + bank)).closing = some (.guise k d pc old due bad none))
    (hdue : s.cycle < due) : effBguiseComplete core bank s = s := by
  simp only [effBguiseComplete, Nat.mod_eq_of_lt hbank, h, hdue, if_true]

/-- A BGUISE that was not refused ends: GEN rises and the old descriptor lands. -/
theorem effBguiseComplete_done (hbank : bank < 16) (h : (s.bank (16 * core + bank)).closing = some (.guise k d pc old due false none))
    (hdue : due ≤ s.cycle) (hpark : ∀ t, (s.ctx k).park ≠ .wfi t) : effBguiseComplete core bank s =
    (bumpGen (16 * core + bank) (reopened (16 * core + bank) s)).modCtx k fun c => landReg none c (d, old) := by
  have hpark' : ∀ t, ((bumpGen (16 * core + bank) (reopened (16 * core + bank) s)).ctx k).park ≠ .wfi t := by
    rw [(bumpGen_spec _ _).1.1]
    exact hpark
  simp only [effBguiseComplete, Nat.mod_eq_of_lt hbank, h, Nat.not_lt.mpr hdue, if_false, Bool.false_eq_true, false_and]
  exact applyLanding_reg rfl hpark'

/-- A refused KEEP ends: the old descriptor lands, and the context traps at the bundle. -/
theorem effBguiseComplete_refused (hbank : bank < 16) (h : (s.bank (16 * core + bank)).closing = some (.guise k d pc old due true none))
    (hdue : due ≤ s.cycle) (hpark : ∀ t, (s.ctx k).park ≠ .wfi t) (hidle : (s.ctx k).status ≠ .idle) : effBguiseComplete core bank s =
    takeTrapAt (trapOf causeStruct 0x23 (bankBase (16 * core + bank))) pc k
      ((reopened (16 * core + bank) s).modCtx k fun c => landReg none c (d, old)) := by
  have hland : applyLanding k { Landing.empty with regs := [(d, old)] } (reopened (16 * core + bank) s) =
      (reopened (16 * core + bank) s).modCtx k fun c => landReg none c (d, old) := applyLanding_reg rfl hpark
  have hstatus : (((reopened (16 * core + bank) s).modCtx k fun c => landReg none c (d, old)).ctx k).status ≠ .idle := by
    rw [ctx_modCtx_self, landReg_eq]
    exact hidle
  have hreopen : (s.modBank (16 * core + bank) fun x => { x with closing := none }) = reopened (16 * core + bank) s := rfl
  simp only [effBguiseComplete, Nat.mod_eq_of_lt hbank, h, Nat.not_lt.mpr hdue, if_false, if_true, hreopen, hland, ne_eq, hstatus,
    not_false_eq_true, and_self]

end

/-! ## A trap at a stated bundle -/

/-- t is s but for contexts, cores, joint arrays and the dies' records. -/
def OnlyControl (s t : State) : Prop := t = { s with ctxs := t.ctxs, cores := t.cores, cells := t.cells, dies := t.dies }

theorem OnlyControl.refl (s : State) : OnlyControl s s := rfl

theorem OnlyControl.trans {s t u : State} (h : OnlyControl s t) (h' : OnlyControl t u) : OnlyControl s u := by
  unfold OnlyControl at *
  rw [h', h]

theorem OnlyControl.modCtx (s : State) (k : Nat) (f : Ctx → Ctx) : OnlyControl s (s.modCtx k f) := rfl

theorem onlyControl_unarrive (cell : Nat) (f : Arrival → Bool) (s : State) : OnlyControl s (unarrive cell f s) := by
  rw [unarrive_eq]; rfl

theorem onlyControl_yieldCore (k : Nat) (s : State) : OnlyControl s (yieldCore k s) := by
  rw [yieldCore_eq]; rfl

theorem onlyControl_latentCore (core code : Nat) (a b : Word) (s : State) : OnlyControl s (latentCore core code a b s) := by
  rw [latentCore_eq]; rfl

theorem enterTrap_control {t : TrapInfo} {k : Nat} {s : State} (hrun : (s.ctx k).running = none) (hfull : t.cause ≠ causeTrayFull)
    (htime : t.cause ≠ causeTimeout) : OnlyControl s (enterTrap t k s) := by
  unfold enterTrap
  simp only [hrun, if_neg hfull, if_neg htime]
  have hgang : OnlyControl s (if (s.ctx k).park = .gang then unarrive (coreOf k / 4) (arrivedBy k) s else s) := by
    split
    · exact onlyControl_unarrive _ _ _
    · exact .refl s
  exact ((hgang.trans (.modCtx _ _ _)).trans (onlyControl_yieldCore _ _)).trans (onlyControl_latentCore _ _ _ _ _)

/-- A trap at a stated bundle, of a context that runs no closure and handles no trap (R157, R277). -/
theorem takeTrapAt_enters {t : TrapInfo} {k : Nat} {s : State} (pc : Word) (hh : (s.ctx k).h = false) (hrun : (s.ctx k).running = none)
    (hfull : t.cause ≠ causeTrayFull) (htime : t.cause ≠ causeTimeout) : let u := takeTrapAt t pc k s
    (u.ctx k).s = (s.ctx k).s ∧ (u.ctx k).xcause = t.cause ∧ (u.ctx k).xsub = t.sub ∧ (u.ctx k).xaddr = t.addr ∧ (u.ctx k).xpc = pc ∧
    (u.ctx k).h = true ∧ OnlyControl s u := by
  have hunrun : (unrun k s).ctx k = s.ctx k := by rw [unrun, ctx_modCtx_self, hrun]
  have hrun' : ((unrun k s).ctx k).running = none := by rw [hunrun, hrun]
  rw [takeTrapAt, hh, if_neg (by decide)]
  refine ⟨?_, ?_, ?_, ?_, ?_, ?_, ((OnlyControl.modCtx s k _).trans (enterTrap_control hrun' hfull htime)).trans (.modCtx _ _ _)⟩ <;>
    rw [ctx_modCtx_self, enterTrap_ctx hrun' hfull, hunrun]

/-! ## BGUISE and BDESC -/

/-- The end of a BGUISE that was not refused (R157). -/
theorem guiseEnd_done {s : State} {k core bank due : Nat} {d : SReg} {pc old : Word} (hbank : bank < 16) (hd : d ≠ 0)
    (h : (s.bank (16 * core + bank)).closing = some (.guise k d pc old due false none)) (hdue : due ≤ s.cycle)
    (hpark : ∀ t, (s.ctx k).park ≠ .wfi t) :
    let b := 16 * core + bank
    ∃ t, exec (.bguiseComplete core bank) s = .next t ∧ (t.ctx k).rd d = old ∧
      (t.ctx k).pending d = false ∧ (t.bank b).closing = none ∧ descOf t b = descOf s b + BitVec.ofNat 64 (2 ^ 48) ∧
      (∀ r, r ≠ d → (t.ctx k).rd r = (s.ctx k).rd r) ∧ (∀ x, x ≠ b → t.bank x = s.bank x) := by
  dsimp only
  obtain ⟨⟨hframe, hbanks⟩, hclosing, hdesc⟩ := bumpGen_spec (16 * core + bank) (reopened (16 * core + bank) s)
  have hctx : (bumpGen (16 * core + bank) (reopened (16 * core + bank) s)).ctx k = s.ctx k := by rw [hframe]; rfl
  refine ⟨_, congrArg Host.Outcome.next (effBguiseComplete_done hbank h hdue hpark), ?_, ?_, ?_, ?_, fun r hr => ?_, fun x hx => ?_⟩
  · rw [ctx_modCtx_self, landReg_rd _ _ _ _ hd, if_pos rfl]
  · rw [ctx_modCtx_self, landReg_pending _ _ _ _ hd, if_pos rfl]
  · rw [modCtx_bank, hclosing, reopened, bank_modBank_self]
  · rw [descOf, modCtx_bank]
    refine hdesc.trans ?_
    rw [descOf, reopened, bank_modBank_self]
    rfl
  · rw [ctx_modCtx_self, landReg_rd _ _ _ _ hd, if_neg hr, hctx]
  · rw [modCtx_bank, hbanks x hx, reopened, bank_modBank_ne _ _ _ _ hx]

/-- The end of a refused KEEP (R157). -/
theorem guiseEnd_refused {s : State} {k core bank due : Nat} {d : SReg} {pc old : Word} (hbank : bank < 16) (hd : d ≠ 0)
    (h : (s.bank (16 * core + bank)).closing = some (.guise k d pc old due true none)) (hdue : due ≤ s.cycle)
    (hpark : ∀ t, (s.ctx k).park ≠ .wfi t) (hh : (s.ctx k).h = false) (hrun : (s.ctx k).running = none) (hidle : (s.ctx k).status ≠ .idle) :
    let b := 16 * core + bank
    ∃ t, exec (.bguiseComplete core bank) s = .next t ∧ (t.ctx k).rd d = old ∧ (t.ctx k).xcause = 0x0B ∧ (t.ctx k).xsub = 0x23 ∧
      (t.ctx k).xaddr = bankBase b ∧ (t.ctx k).xpc = pc ∧ (t.ctx k).h = true ∧ (t.bank b).closing = none ∧
      descOf t b = descOf s b ∧ SameBytes s t := by
  dsimp only
  generalize hu : (reopened (16 * core + bank) s).modCtx k (fun c => landReg none c (d, old)) = u
  have hctx : u.ctx k = landReg none (s.ctx k) (d, old) := by rw [← hu]; exact ctx_modCtx_self _ _ _
  have hbank' : (u.bank (16 * core + bank)) = { s.bank (16 * core + bank) with closing := none } := by
    rw [← hu, modCtx_bank, reopened, bank_modBank_self]
  obtain ⟨hs, hcause, hsub, haddr, hpc, hh', hcontrol⟩ := takeTrapAt_enters (t := trapOf causeStruct 0x23 (bankBase (16 * core + bank)))
    (k := k) (s := u) pc (by rw [hctx, landReg_eq]; exact hh) (by rw [hctx, landReg_eq]; exact hrun)
    (show causeStruct ≠ causeTrayFull by decide) (show causeStruct ≠ causeTimeout by decide)
  have hbanks (x : Nat) : (takeTrapAt (trapOf causeStruct 0x23 (bankBase (16 * core + bank))) pc k u).bank x = u.bank x := by
    rw [hcontrol]; rfl
  refine ⟨_, congrArg Host.Outcome.next ((effBguiseComplete_refused hbank h hdue hpark hidle).trans (by rw [hu])), ?_, hcause, hsub, haddr, hpc,
    hh', ?_, ?_, ?_⟩
  · rw [rd_congr hs, hctx, landReg_rd _ _ _ _ hd, if_pos rfl]
  · rw [hbanks, hbank']
  · rw [descOf, hbanks, hbank']; rfl
  · rw [hcontrol, ← hu]; exact .of_eq rfl rfl rfl rfl

/-- BDESC in its slot (R156). -/
theorem exec_bdescSlot {s : State} {k core bank : Nat} {d : SReg} {r : Req} {again : Bool} (hbank : bank < 16)
    (h : ServesOwn s k (16 * core + bank) r again) (hacc : r.acc = .desc) (hdest : r.dest = .reg d 8 true) :
    ∃ v, v = { s with turns := v.turns } ∧ exec (slotEvent core bank again) s =
      .next (afterOwn k r (.done 0 (descOf s (16 * core + bank)).toNat 0) v) := by
  obtain ⟨a, hexec⟩ := servesOwn_exec hbank h (by rw [hacc, Access.bytes]; omega)
  obtain ⟨hkey, -, -, -, hlist, hclosing, hdesc, -⟩ := h
  have hkey' : localKey (coreOf k) r.addr = 8192 * (16 * core + bank) := hkey
  refine ⟨useTurn s a, rfl, ?_⟩
  rw [hexec, performReq_desc (s := useTurn s a) (b := 16 * core + bank) (by rw [hkey']; omega) hlist hclosing hdesc hacc hdest]
  rfl

/-- Settles O34: the issue of the two accesses, what `guiseApply` makes of the bank for each mode, the answer of an own bank's slot,
and the end of a BGUISE. -/
theorem guiseInstructions : Obligations.GuiseInstructions := by
  refine ⟨fun s d a bank => ?issue, fun s k core bank d mode new r again => ?slot, ?ends, fun s d bank hruns hd => ?bdesc,
    fun s k core bank d r again => ?answer⟩
  case issue =>
    refine ⟨fun h => ?_, fun h => ?_, fun h => ?_⟩
    all_goals
      obtain ⟨r, hr⟩ := guiseOp_issue s d bank _ (guiseDesc (rdS s a))
      exact ⟨_, r, next_runSlot h rfl, hr⟩
  case slot =>
    intro b old closed set hbank hserves hacc hdest hwait hfree hnew hold
    refine ⟨fun hmode => ?_, fun hmode hok => ?_, fun hmode hok => ?_, fun hmode hplain => ?_⟩ <;> subst hmode
    · exact exec_guiseClear hbank ⟨hserves, hacc, hdest, hwait, hfree, hnew, hold⟩
    · exact exec_guiseKeep hbank ⟨hserves, hacc, hdest, hwait, hfree, hnew, hold⟩ hok
    · exact exec_guiseRefused hbank ⟨hserves, hacc, hdest, hwait, hfree, hnew, hold⟩ hok
    · exact exec_guiseConvert hbank ⟨hserves, hacc, hdest, hwait, hfree, hnew, hold⟩ hplain
  case ends =>
    intro s core bank k due d pc old bad hbank hd b hclosing hpark
    refine ⟨fun hdue => ?_, fun hdue hbad => ?_, fun hdue hbad hh hrun hidle => ?_⟩
    · exact congrArg Host.Outcome.next (effBguiseComplete_early hbank hclosing hdue)
    · subst hbad
      exact guiseEnd_done hbank hd hclosing hdue hpark
    · subst hbad
      exact guiseEnd_refused hbank hd hclosing hdue hpark hh hrun hidle
  case bdesc =>
    obtain ⟨r, hr⟩ := descOp_issue s hd bank
    exact ⟨_, r, next_runSlot hruns rfl, hr⟩
  case answer =>
    intro b hbank hserves hacc hdest hplain
    obtain ⟨v, hv, hexec⟩ := exec_bdescSlot hbank hserves hacc hdest
    obtain ⟨honly, hregs, hreqs, hfixed, hlands⟩ := afterOwn_reg hdest v (descOf s (16 * core + bank))
    have hctx : v.ctx k = s.ctx k := by rw [hv]; rfl
    have hcycle : v.cycle = s.cycle := by rw [hv]
    rw [hctx] at hregs hreqs hfixed hlands
    rw [hcycle] at hlands
    refine ⟨_, hexec, ?_, ?_, hregs, hreqs, hfixed, hlands⟩
    · refine .trans ?_ honly.sameBytes
      rw [hv]
      exact .of_eq rfl rfl rfl rfl
    · rw [honly.banks, hv]

end Sys2Proof.Machine
end

section
/-! PROOFS. Several banks changed at once, waiters woken with CLOSED (R153), and banks linked as an arcade (R161). -/

namespace Sys2Proof.Machine

/-! ## One change of each bank of a list -/

/-- f applied to the banks of a list in turn. -/
def onBanks (f : Bank → Bank) (l : List Nat) (s : State) : State := l.foldl (fun s x => s.modBank x f) s

theorem closeFor_eq (k : Nat) (l : List Nat) (s : State) : closeFor k l s = onBanks (fun y => { y with closing := some (.arcade k) }) l s := rfl

theorem reopen_eq (l : List Nat) (s : State) : reopen l s = onBanks (fun y => { y with closing := none }) l s := rfl

theorem onBanks_frame (f : Bank → Bank) (l : List Nat) : ∀ s : State, onBanks f l s = { s with banks := (onBanks f l s).banks } := by
  induction l with
  | nil => exact fun _ => rfl
  | cons x l ih =>
    intro s
    show onBanks f l (s.modBank x f) = _
    rw [ih]
    rfl

/-- Each bank of the list is changed, once or more, and no other. -/
theorem onBanks_bank {f : Bank → Bank} (hf : ∀ y, f (f y) = f y) (l : List Nat) (j : Nat) : ∀ s : State,
    (onBanks f l s).bank j = if j ∈ l then f (s.bank j) else s.bank j := by
  induction l with
  | nil => exact fun _ => rfl
  | cons x l ih =>
    intro s
    show (onBanks f l (s.modBank x f)).bank j = _
    rw [ih, bank_modBank]
    by_cases hx : j = x
    · subst hx
      by_cases hl : j ∈ l <;> simp [hl, hf]
    · simp [hx]

theorem closeFor_bank (k : Nat) (l : List Nat) (s : State) (j : Nat) :
    (closeFor k l s).bank j = if j ∈ l then { s.bank j with closing := some (.arcade k) } else s.bank j :=
  onBanks_bank (f := fun y => { y with closing := some (.arcade k) }) (fun _ => rfl) l j s

theorem reopen_bank (l : List Nat) (s : State) (j : Nat) :
    (reopen l s).bank j = if j ∈ l then { s.bank j with closing := none } else s.bank j :=
  onBanks_bank (f := fun y => { y with closing := none }) (fun _ => rfl) l j s

theorem closeFor_descOf (k : Nat) (l : List Nat) (s : State) (j : Nat) : descOf (closeFor k l s) j = descOf s j := by
  rw [descOf, closeFor_bank]
  split <;> rfl

theorem reopen_descOf (l : List Nat) (s : State) (j : Nat) : descOf (reopen l s) j = descOf s j := by
  rw [descOf, reopen_bank]
  split <;> rfl

/-! ## Waiters woken with CLOSED -/

/-- t is s but for what hears of a change of banks: contexts, saved launches, queues, dependences, registries and MAP's images. -/
def OnlyWoken (s t : State) : Prop := t = { s with
    ctxs := t.ctxs, seq := t.seq, launches := t.launches, queues := t.queues, qcbs := t.qcbs, banks := t.banks
    bankMem := t.bankMem, bankPoison := t.bankPoison } ∧
  ∀ j, t.bank j = { s.bank j with waiters := (t.bank j).waiters }

theorem OnlyWoken.refl (s : State) : OnlyWoken s s := ⟨rfl, fun _ => rfl⟩

theorem OnlyWoken.trans {s t u : State} (h : OnlyWoken s t) (h' : OnlyWoken t u) : OnlyWoken s u :=
  ⟨by rw [h'.1, h.1], fun j => by rw [h'.2, h.2]⟩

theorem OnlyWoken.descOf {s t : State} (h : OnlyWoken s t) (j : Nat) : descOf t j = descOf s j := by
  unfold Machine.descOf
  rw [h.2]

theorem wake_only (bank : Option Nat) (w : Registered) (v : Nat) (s : State) : OnlyWoken s (wake bank w v s) := by
  unfold wake
  split
  · split
    · dsimp only
      split
      · exact ⟨rfl, fun _ => rfl⟩
      · exact ⟨rfl, fun _ => rfl⟩
    · exact ⟨rfl, fun _ => rfl⟩
  · exact ⟨rfl, fun _ => rfl⟩
  · exact ⟨rfl, fun _ => rfl⟩

theorem wakeAll_only (bank : Option Nat) (l : List Registered) (v : Nat) : ∀ s : State, OnlyWoken s (wakeAll bank l v s) := by
  induction l with
  | nil => exact .refl
  | cons w l ih => exact fun s => (wake_only bank w v s).trans (ih _)

theorem syncMask_only (b : Nat) (s : State) : OnlyWoken s (syncMask b s) := by
  refine ⟨?_, fun j => ?_⟩
  · rw [syncMask_eq]
  · rw [syncMask_bank]

theorem wakeClosed_only (b : Nat) (s : State) : OnlyWoken s (wakeClosed b s) := by
  unfold wakeClosed
  dsimp only
  split
  · exact .refl s
  · have hemptied : OnlyWoken s (s.modBank b fun x => { x with waiters := [] }) := by
      refine ⟨rfl, fun j => ?_⟩
      rw [bank_modBank]
      split
      · next h => rw [h]
      · rfl
    exact (hemptied.trans (wakeAll_only _ _ _ _)).trans (syncMask_only _ _)

theorem foldl_wakeClosed_only (l : List Nat) : ∀ s : State, OnlyWoken s (l.foldl (fun s x => wakeClosed x s) s) := by
  induction l with
  | nil => exact .refl
  | cons x l ih => exact fun s => (wakeClosed_only x s).trans (ih _)

/-! ## The arcade fields of a descriptor (R161) -/

/-- A bit of a descriptor whose role and link are set. -/
theorem getLsbD_withLink (d : Word) {role link : Nat} (hrole : role < 4) (hlink : link < 256) {i : Nat} (h : i < 64) :
    (withLink d role link).getLsbD i = if 38 ≤ i ∧ i < 48 then (role + 4 * link).testBit (i - 38) else d.getLsbD i := by
  have hfields : role * 2 ^ 38 + link * 2 ^ 40 = (role + 4 * link) <<< 38 := by rw [Nat.shiftLeft_eq]; omega
  have hmask := testBit_mask 10 38 i
  rw [withLink, BitVec.getLsbD_or, BitVec.getLsbD_and, BitVec.getLsbD_not, BitVec.getLsbD_ofNat, BitVec.getLsbD_ofNat, hfields,
    Nat.testBit_shiftLeft, show 0x3FF * 2 ^ 38 = (2 ^ 10 - 1) * 2 ^ 38 from rfl, hmask]
  by_cases h38 : 38 ≤ i
  · by_cases h48 : i < 48
    · simp [h, h38, h48]
    · have hzero : (role + 4 * link).testBit (i - 38) = false := Nat.testBit_lt_two_pow (lt_of_lt_of_le (show role + 4 * link < 2 ^ 10 by omega)
        (Nat.pow_le_pow_right (by decide) (by omega)))
      simp [h, h38, h48, hzero]
  · simp [h, h38]

theorem testBit_wf (x : Word) (hi lo i : Nat) : (wf x hi lo).testBit i = (decide (i < hi + 1 - lo) && x.getLsbD (lo + i)) := by
  rw [wf, field, Nat.testBit_mod_two_pow, Nat.testBit_div_two_pow, BitVec.getLsbD, Nat.add_comm i lo]

/-- The fields of a descriptor whose role and link are set. -/
theorem withLink_fields (d : Word) {role link : Nat} (hrole : role < 4) (hlink : link < 256) : aroleOf (withLink d role link) = role ∧
    alinkOf (withLink d role link) = link ∧ kindOf (withLink d role link) = kindOf d ∧ capOf (withLink d role link) = capOf d := by
  have hrole' : role = (role + 4 * link) % 2 ^ 2 := by omega
  have hlink' : link = (role + 4 * link) / 2 ^ 2 % 2 ^ 8 := by omega
  refine ⟨?_, ?_, ?_, ?_⟩
  · conv_rhs => rw [hrole']
    refine Nat.eq_of_testBit_eq fun i => ?_
    rw [aroleOf, testBit_wf, Nat.testBit_mod_two_pow]
    by_cases hi : i < 2
    · rw [getLsbD_withLink d hrole hlink (by omega), if_pos (by omega), Nat.add_sub_cancel_left]
    · simp [hi]
  · conv_rhs => rw [hlink']
    refine Nat.eq_of_testBit_eq fun i => ?_
    rw [alinkOf, testBit_wf, Nat.testBit_mod_two_pow, Nat.testBit_div_two_pow]
    by_cases hi : i < 8
    · rw [getLsbD_withLink d hrole hlink (by omega), if_pos (by omega), show 40 + i - 38 = i + 2 by omega]
    · simp [hi]
  · refine Nat.eq_of_testBit_eq fun i => ?_
    rw [kindOf, kindOf, testBit_wf, testBit_wf]
    by_cases hi : i < 3
    · rw [getLsbD_withLink d hrole hlink (by omega), if_neg (by omega)]
    · simp [hi]
  · refine Nat.eq_of_testBit_eq fun i => ?_
    rw [capOf, capOf, testBit_wf, testBit_wf]
    by_cases hi : i < 13
    · rw [getLsbD_withLink d hrole hlink (by omega), if_neg (by omega)]
    · simp [hi]

/-! ## The members linked -/

/-- A change of its own for each bank of a list, in turn. -/
def onEach (g : Nat → Nat) (f : Nat → Bank → Bank) (n : Nat) (s : State) : State :=
  (List.range n).foldl (fun s i => s.modBank (g i) (f i)) s

theorem onEach_succ (g : Nat → Nat) (f : Nat → Bank → Bank) (n : Nat) (s : State) :
    onEach g f (n + 1) s = (onEach g f n s).modBank (g n) (f n) := by
  rw [onEach, List.range_succ, List.foldl_append, List.foldl_cons, List.foldl_nil, ← onEach]

theorem onEach_frame (g : Nat → Nat) (f : Nat → Bank → Bank) (n : Nat) (s : State) :
    onEach g f n s = { s with banks := (onEach g f n s).banks } := by
  induction n with
  | zero => rfl
  | succ n ih => rw [onEach_succ, ih]; rfl

/-- Where the list names no bank twice, each is changed as its place says. -/
theorem onEach_bank {g : Nat → Nat} {n : Nat} (hg : ∀ i j, i < n → j < n → g i = g j → i = j) (f : Nat → Bank → Bank) (s : State) :
    (∀ i, i < n → (onEach g f n s).bank (g i) = f i (s.bank (g i))) ∧
    ∀ j, (∀ i, i < n → g i ≠ j) → (onEach g f n s).bank j = s.bank j := by
  induction n with
  | zero => exact ⟨fun i h => absurd h (Nat.not_lt_zero i), fun _ _ => rfl⟩
  | succ n ih =>
    obtain ⟨hin, hout⟩ := ih fun i j hi hj => hg i j (by omega) (by omega)
    rw [onEach_succ]
    refine ⟨fun i hi => ?_, fun j hj => ?_⟩
    · by_cases hlast : i = n
      · subst hlast
        rw [bank_modBank_self, hout _ fun j hj h => absurd (hg j i (by omega) hi h) (by omega)]
      · rw [bank_modBank_ne _ _ _ _ fun h => hlast (hg i n hi (by omega) h), hin i (by omega)]
    · rw [bank_modBank_ne _ _ _ _ (Ne.symm (hj n (by omega))), hout j fun i hi => hj i (by omega)]

/-- The role and the link of the i-th member of an arcade (R161). -/
def memberRole (ms : List Nat) (i : Nat) : Nat := if i = 0 then 1 else if i + 1 = ms.length then 3 else 2
def memberLink (ms : List Nat) (i : Nat) : Nat := nth ms (if i + 1 = ms.length then 0 else i + 1) % 256

theorem linkBanks_eq {ms : List Nat} (h : 2 ≤ ms.length) (s : State) : linkBanks ms s =
    onEach (nth ms) (fun i x => { x with desc := withLink x.desc (memberRole ms i) (memberLink ms i) }) ms.length s := by
  match ms, h with
  | _ :: _ :: _, _ => rfl

theorem nth_injective {ms : List Nat} (h : ms.Nodup) (i j : Nat) (hi : i < ms.length) (hj : j < ms.length) (he : nth ms i = nth ms j) : i = j := by
  rw [nth, nth, List.getD_eq_getElem _ _ hi, List.getD_eq_getElem _ _ hj] at he
  exact (List.Nodup.getElem_inj_iff h).mp he

/-- A member once its arcade is linked. -/
theorem linkBanks_bank {ms : List Nat} (h : 2 ≤ ms.length) (hnodup : ms.Nodup) (s : State) {i : Nat} (hi : i < ms.length) :
    (linkBanks ms s).bank (nth ms i) = { s.bank (nth ms i) with
      desc := withLink (s.bank (nth ms i)).desc (memberRole ms i) (memberLink ms i) } := by
  rw [linkBanks_eq h]
  exact (onEach_bank (nth_injective hnodup) _ s).1 i hi

theorem linkBanks_frame (ms : List Nat) (s : State) : linkBanks ms s = { s with banks := (linkBanks ms s).banks } := by
  match ms with
  | [] => rfl
  | [_] => rfl
  | x :: y :: l => rw [linkBanks_eq (by simp), onEach_frame]

end Sys2Proof.Machine
end

section
/-! PROOFS. ARCADE and ARCADE.DIS (R161): their issue, the list read in its slot, and their end. -/

namespace Sys2Proof.Machine

/-! ## A composition or dissolution made -/

/-- The banks without the ages of their entries. -/
def agesCleared (named : List Nat) (s : State) : State := onBanks (fun y => { y with ages := [] }) named s

theorem arrange_compose (named : List Nat) (s : State) :
    arrange true named s = linkBanks named (agesCleared named (named.foldl (fun s x => wakeClosed x s) s)) := rfl

theorem arrange_dissolve (named : List Nat) (s : State) : arrange false named s =
    onBanks (fun y => { y with desc := withLink y.desc 0 0 }) named (named.foldl (fun s x => wakeClosed x s) s) := rfl

theorem arrange_frame (compose : Bool) (named : List Nat) (s : State) : arrange compose named s = { s with
    ctxs := (arrange compose named s).ctxs, seq := (arrange compose named s).seq, launches := (arrange compose named s).launches
    queues := (arrange compose named s).queues, qcbs := (arrange compose named s).qcbs, banks := (arrange compose named s).banks
    bankMem := (arrange compose named s).bankMem, bankPoison := (arrange compose named s).bankPoison } := by
  have hwoken := (foldl_wakeClosed_only named s).1
  cases compose
  · rw [arrange_dissolve, onBanks_frame, hwoken]
  · rw [arrange_compose, linkBanks_frame, agesCleared, onBanks_frame, hwoken]

theorem withLink_withLink (d : Word) : withLink (withLink d 0 0) 0 0 = withLink d 0 0 := by
  simp [withLink, BitVec.and_assoc]

/-- A bank that a dissolution frees (R161). -/
theorem arrange_dissolve_descOf {named : List Nat} {x : Nat} (h : x ∈ named) (s : State) :
    descOf (arrange false named s) x = withLink (descOf s x) 0 0 := by
  rw [descOf, arrange_dissolve, onBanks_bank (f := fun y => { y with desc := withLink y.desc 0 0 })
    (fun y => by simp only [withLink_withLink]), if_pos h]
  exact congrArg (withLink · 0 0) ((foldl_wakeClosed_only named s).descOf x)

/-- A member that a composition links (R161). -/
theorem arrange_compose_descOf {named : List Nat} (h : 2 ≤ named.length) (hnodup : named.Nodup) (s : State) {i : Nat} (hi : i < named.length) :
    descOf (arrange true named s) (nth named i) = withLink (descOf s (nth named i)) (memberRole named i) (memberLink named i) := by
  have hages (j : Nat) (u : State) : ((agesCleared named u).bank j).desc = descOf u j := by
    rw [agesCleared, onBanks_bank (f := fun y => { y with ages := [] }) fun _ => rfl]
    split <;> rfl
  rw [arrange_compose, descOf, linkBanks_bank h hnodup _ hi, hages, (foldl_wakeClosed_only named s).descOf]

/-! ## Issue -/

/-- An ARCADE begun: its register is pending, the banks that it names are CLOSED, and it is in progress. -/
def arcadeStarted (op : ArcadeOp) (s : State) : State :=
  { closeFor op.ctx op.named (setPending op.ctx [op.d] s) with arcades := s.arcades ++ [op] }

theorem arcadeStarted_frame (op : ArcadeOp) (s : State) : arcadeStarted op s = { s with
    ctxs := (arcadeStarted op s).ctxs, banks := (arcadeStarted op s).banks, arcades := s.arcades ++ [op] } := by
  rw [arcadeStarted, closeFor_eq, onBanks_frame]
  rfl

theorem arcadeStarted_ctx (op : ArcadeOp) (s : State) (j : Nat) : (arcadeStarted op s).ctx j = (setPending op.ctx [op.d] s).ctx j := by
  show (closeFor op.ctx op.named (setPending op.ctx [op.d] s)).ctx j = _
  rw [closeFor_eq, onBanks_frame]
  rfl

theorem arcadeStarted_bank (op : ArcadeOp) (s : State) (j : Nat) : (arcadeStarted op s).bank j =
    if j ∈ op.named then { s.bank j with closing := some (.arcade op.ctx) } else s.bank j := closeFor_bank _ _ _ _

/-- The state once an ARCADE is issued, whatever else its issue does to the cores. -/
theorem arcadeStarted_spec {op : ArcadeOp} {s t : State} (ht : t.banks = (arcadeStarted op s).banks) : (∀ x, descOf t x = descOf s x) ∧
    ∀ x ∈ op.named, (t.bank x).closing = some (.arcade op.ctx) := by
  have hbank (x : Nat) : t.bank x = (arcadeStarted op s).bank x := by rw [State.bank, ht]; rfl
  refine ⟨fun x => ?_, fun x hx => ?_⟩
  · rw [descOf, hbank, arcadeStarted_bank]
    split <;> rfl
  · rw [hbank, arcadeStarted_bank, if_pos hx]

theorem arcadeStarted_pending (op : ArcadeOp) (s : State) (h : op.d ≠ 0) : ((arcadeStarted op s).ctx op.ctx).pending op.d = true := by
  rw [arcadeStarted_ctx, setPending_pending]
  simp [show ¬op.d = 0#5 from h]

theorem arcadeStarted_reqs (op : ArcadeOp) (s : State) : ((arcadeStarted op s).ctx op.ctx).reqs = (s.ctx op.ctx).reqs := by
  rw [arcadeStarted_ctx, setPending_ctx]

/-- An ARCADE as its issue leaves it in progress (R161). -/
def issuedArcade (s : State) (d : SReg) (named : List Nat) (code m : Nat) (list : Option Nat) : ArcadeOp :=
  { ctx := s.cur, d := d, code := code, named := named, due := s.cycle + 4 + 2 * m, list := list }

/-- The access that reads the list of an ARCADE. -/
def listAccess (ea : Word) (n : Nat) : MemOp := { listOp ea n with plain := false }

section
variable {s : State} {d a b : SReg}

/-- A count outside 2 to 16 reads no list and names no bank. -/
theorem effArcade_refused (h : (rdS s b).toNat < 2 ∨ 16 < (rdS s b).toNat) :
    effArcade d a (some b) s = offCore s.cur (arcadeStarted (issuedArcade s d [] 1 (rdS s b).toNat none) s) := by
  have hplan : arcadePlan s (coreOf s.cur) (rdS s a) (some (rdS s b).toNat) = ([], 1, (rdS s b).toNat) := by
    simp only [arcadePlan, composeCode, if_pos h]
    rfl
  have hreads : (some (rdS s b).toNat).filter (fun n => 2 ≤ n && n ≤ 16) = none := by
    rw [Option.filter_some, if_neg (by simp only [Bool.and_eq_true, decide_eq_true_eq]; omega)]
  simp only [effArcade, Option.map_some, hplan, hreads, one_ne_zero, false_and, if_false, Option.map_none]
  rfl

/-- A composition's list is read by an access of its own. -/
theorem effArcade_reads (h : 2 ≤ (rdS s b).toNat) (h' : (rdS s b).toNat ≤ 16) :
    let n := (rdS s b).toNat
    let l := listed s (coreOf s.cur) (rdS s a) n
    let op := issuedArcade s d (ownListed s (coreOf s.cur) l) (composeCode s (coreOf s.cur) n l) n (some s.seq)
    ∃ u, u = { arcadeStarted op s with cores := u.cores } ∧
      effArcade d a (some b) s = offCore s.cur (sendReq none (listAccess (rdS s a) n) u) := by
  dsimp only
  have hplan : arcadePlan s (coreOf s.cur) (rdS s a) (some (rdS s b).toNat) =
      (ownListed s (coreOf s.cur) (listed s (coreOf s.cur) (rdS s a) (rdS s b).toNat),
        composeCode s (coreOf s.cur) (rdS s b).toNat (listed s (coreOf s.cur) (rdS s a) (rdS s b).toNat), (rdS s b).toNat) := by
    simp only [arcadePlan, if_neg (show ¬((rdS s b).toNat < 2 ∨ 16 < (rdS s b).toNat) by omega)]
  have hreads : (some (rdS s b).toNat).filter (fun n => 2 ≤ n && n ≤ 16) = some (rdS s b).toNat := by
    rw [Option.filter_some, if_pos (by simp only [Bool.and_eq_true, decide_eq_true_eq]; omega)]
  simp only [effArcade, Option.map_some, hplan, hreads, Option.isNone_some, Bool.false_eq_true, and_false, if_false]
  refine ⟨_, ?_, rfl⟩
  split <;> rfl

/-- A dissolution of a bank that leads no arcade is refused. -/
theorem effArcade_noLead (h : aroleOf (descOf s (bankAt (coreOf s.cur) (rdS s a))) ≠ 1) :
    effArcade d a none s = offCore s.cur (arcadeStarted (issuedArcade s d [bankAt (coreOf s.cur) (rdS s a)] 6 0 none) s) := by
  simp only [effArcade, Option.map_none, arcadePlan, if_neg h, Option.filter_none, OfNat.ofNat_ne_zero, false_and, if_false]
  rfl

/-- A dissolution is made at once. -/
theorem effArcade_dissolves (h : aroleOf (descOf s (bankAt (coreOf s.cur) (rdS s a))) = 1) :
    let ms := linkedFrom s 16 (bankAt (coreOf s.cur) (rdS s a))
    effArcade d a none s = offCore s.cur { closeFor s.cur ms (arrange false ms (setPending s.cur [d] s)) with
      arcades := s.arcades ++ [issuedArcade s d ms 0 ms.length none] } := by
  dsimp only
  have hframe := arrange_frame false (linkedFrom s 16 (bankAt (coreOf s.cur) (rdS s a))) (setPending s.cur [d] s)
  have hcycle : (arrange false (linkedFrom s 16 (bankAt (coreOf s.cur) (rdS s a))) (setPending s.cur [d] s)).cycle = s.cycle := by rw [hframe]; rfl
  have harcades : (arrange false (linkedFrom s 16 (bankAt (coreOf s.cur) (rdS s a))) (setPending s.cur [d] s)).arcades = s.arcades := by
    rw [hframe]; rfl
  simp only [effArcade, Option.map_none, arcadePlan, if_pos h, Option.filter_none, Option.isNone_none, and_self, if_true, hcycle, harcades]
  rfl

end

/-! ## The list read in its slot -/

/-- A load at a bank with no personality. -/
theorem bankPerf_plainRead {s : State} {core : Nat} {ea : Word} (hclosing : (s.bank (localKey core ea / 8192)).closing = none)
    (hbad : (s.bank (localKey core ea / 8192)).badDesc = false) (hdesc : descOf s (localKey core ea / 8192) = 0)
    (hodd : oddOfPair s (localKey core ea / 8192) = false) (hpoison : s.bankPoison = []) (n : Nat) (ord : Order) (row plain : Bool) (who : Waiter) :
    bankPerf core ea (.read n) .none ord row plain who s = (.done 0 (readN s.bankMem (localKey core ea) n) 0, s) := by
  have hkey : plainKey s (localKey core ea / 8192 / 16 == core) (storeLike (.read n) .none) (localKey core ea / 8192) (wf ea 12 0) = localKey core ea := by
    rw [plainKey, hdesc, if_neg (by decide), localKey, bkey_div _ (wf_lt ea 12 0)]
  rw [← actAt_read hpoison (localKey core ea) n (.bank (localKey core ea)) ea who (dieOf core)]
  unfold bankPerf
  simp only [hclosing, hbad, hodd, hdesc, hkey, Option.isSome_none, Bool.false_eq_true, if_false, reduceCtorEq]
  rfl

/-- The banks as a list's read sees bank b: what is CLOSED for its own ARCADE answers. -/
def ownOpened (k b : Nat) (s : State) : State := if (s.bank b).closing = some (.arcade k) then reopen [b] s else s

theorem ownOpened_spec {k b : Nat} {s : State} (h : (s.bank b).closing = none ∨ (s.bank b).closing = some (.arcade k)) :
    ownOpened k b s = { s with banks := (ownOpened k b s).banks } ∧ ((ownOpened k b s).bank b).closing = none ∧
    ((ownOpened k b s).bank b).badDesc = (s.bank b).badDesc ∧ ∀ j, descOf (ownOpened k b s) j = descOf s j := by
  unfold ownOpened
  split
  · refine ⟨onBanks_frame _ _ _, ?_, ?_, reopen_descOf _ _⟩ <;> rw [reopen_bank, if_pos (List.mem_singleton_self b)]
  · exact ⟨rfl, h.resolve_right ‹_›, rfl, fun _ => rfl⟩

/-- The list of an ARCADE, read whole: what the bank holds decides the composition. -/
theorem performList_whole {k n b : Nat} {r : Req} {op : ArcadeOp} {s : State} (hb : localKey (coreOf k) r.addr / 8192 = b)
    (hacc : r.acc = .read n) (hgot : r.got = 0) (hclosing : (s.bank b).closing = none ∨ (s.bank b).closing = some (.arcade k))
    (hbad : (s.bank b).badDesc = false) (hdesc : descOf s b = 0) (hodd : oddOfPair s b = false) (hpoison : s.bankPoison = []) :
    performList k r op 0 (wholePart k r) s = composeListed k r op (readN s.bankMem (localKey (coreOf k) r.addr) n) s := by
  subst hb
  have hseen : (if (s.bank (wholePart k r).bank).closing = some (.arcade k) then reopen [(wholePart k r).bank] s else s) =
      ownOpened k (localKey (coreOf k) r.addr / 8192) s := rfl
  obtain ⟨hframe, hopen, hbad', hdesc'⟩ := ownOpened_spec hclosing
  generalize ownOpened k (localKey (coreOf k) r.addr / 8192) s = seen at hseen hframe hopen hbad' hdesc'
  have hodd' : oddOfPair seen (localKey (coreOf k) r.addr / 8192) = false := by rw [oddOfPair, hdesc', ← oddOfPair]; exact hodd
  have hread := bankPerf_plainRead (core := coreOf k) (ea := r.addr) hopen (hbad'.trans hbad) ((hdesc' _).trans hdesc) hodd'
    (by rw [hframe]; exact hpoison) n {} false false (.ctx k r.seq)
  rw [show seen.bankMem = s.bankMem by rw [hframe]] at hread
  have haddr : r.addr + BitVec.ofNat 64 (wholePart k r).start = r.addr := BitVec.add_zero _
  have hlen : r.acc.bytes = n := by rw [hacc]; rfl
  have hbytes : (wholePart k r).n = n := hlen
  have hvalue (v : Nat) : 0 + v * 2 ^ (8 * (wholePart k r).start) = v := (Nat.zero_add _).trans (Nat.mul_one v)
  simp only [performList, hseen, haddr, hbytes, hread, hlen, true_or, if_true, hgot, hvalue]

/-- An ARCADE whose list has been read: the named banks are CLOSED, linked where the code is 0, and the code is fixed. -/
def composed (k : Nat) (r : Req) (op : ArcadeOp) (named : List Nat) (code : Nat) (u : State) : State :=
  setArcade op (fun x => some { x with named := named, code := code, list := none })
    (replaysCounted k r (closeFor k named (if code = 0 then arrange true named (endReq k r u) else endReq k r u)))

theorem composeListed_made {k n v : Nat} {r : Req} {op : ArcadeOp} {s : State} (hacc : r.acc = .read n) (hpoison : s.bankPoison = [])
    (hopen : ∀ x ∈ ownListed s (coreOf k) (banksIn (coreOf k) n v), ((reopen op.named s).bank x).closing = none ∧ (s.bank x).badDesc = false) :
    composeListed k r op v s = composed k r op (ownListed s (coreOf k) (banksIn (coreOf k) n v))
      (composeCode (reopen op.named s) (coreOf k) n (banksIn (coreOf k) n v)) (reopen op.named s) := by
  have hlen : r.acc.bytes = n := by rw [hacc]; rfl
  have hclosing : ((ownListed s (coreOf k) (banksIn (coreOf k) n v)).any fun b => ((reopen op.named s).bank b).closing.isSome) = false :=
    List.any_eq_false.mpr fun x hx => by rw [(hopen x hx).1]; decide
  have hbad : ((ownListed s (coreOf k) (banksIn (coreOf k) n v)).any fun b => ((reopen op.named s).bank b).badDesc) = false :=
    List.any_eq_false.mpr fun x hx => by
      rw [reopen_bank, Bool.not_eq_true, ← (hopen x hx).2]
      split <;> rfl
  have hnone (l : List (Nat × Nat)) : badIn (reopen op.named s) l = none := if_pos (by rw [reopen_eq, onBanks_frame]; exact hpoison)
  simp only [composeListed, hlen, hclosing, hbad, hnone, Bool.false_eq_true, if_false]
  rfl

section
variable {k : Nat} {r : Req} {op : ArcadeOp} {named : List Nat} {code : Nat} {u : State}

theorem composed_arcades (h : op ∈ u.arcades) : { op with named := named, code := code, list := none } ∈ (composed k r op named code u).arcades := by
  have hcounted (w : State) : (replaysCounted k r w).arcades = w.arcades := by rw [replaysCounted_answers k r w]
  have harcades : (replaysCounted k r (closeFor k named (if code = 0 then arrange true named (endReq k r u) else endReq k r u))).arcades = u.arcades := by
    rw [hcounted, closeFor_eq, onBanks_frame]
    dsimp only
    split
    · rw [arrange_frame]; rfl
    · rfl
  refine List.mem_filterMap.mpr ⟨op, ?_, if_pos rfl⟩
  rw [harcades]
  exact h

theorem composed_bank (x : Nat) : (composed k r op named code u).bank x =
    (closeFor k named (if code = 0 then arrange true named (endReq k r u) else endReq k r u)).bank x := by
  show (replaysCounted k r _).bank x = _
  rw [State.bank, (replaysCounted_answers k r _).banks]
  rfl

theorem composed_closing {x : Nat} (h : x ∈ named) : ((composed k r op named code u).bank x).closing = some (.arcade k) := by
  rw [composed_bank, closeFor_bank, if_pos h]

theorem composed_refused (h : code ≠ 0) :
    (∀ x, descOf (composed k r op named code u) x = descOf u x) ∧ SameBytes u (composed k r op named code u) := by
  refine ⟨fun x => ?_, ?_⟩
  · rw [descOf, composed_bank, if_neg h]
    exact closeFor_descOf k named (endReq k r u) x
  · rw [composed, if_neg h]
    have hclosed : SameBytes u (closeFor k named (endReq k r u)) := by
      rw [closeFor_eq, onBanks_frame]
      exact .of_eq rfl rfl rfl rfl
    exact (hclosed.trans (replaysCounted_answers k r _).sameBytes).trans (.of_eq rfl rfl rfl rfl)

theorem composed_linked (h : 2 ≤ named.length) (hnodup : named.Nodup) {i : Nat} (hi : i < named.length) :
    descOf (composed k r op named 0 u) (nth named i) = withLink (descOf u (nth named i)) (memberRole named i) (memberLink named i) := by
  rw [descOf, composed_bank, if_pos rfl, ← descOf, closeFor_descOf, arrange_compose_descOf h hnodup _ hi]
  rfl

end

/-! ## The members of a composition -/

theorem length_banksIn (core n v : Nat) : (banksIn core n v).length = n := by simp [banksIn, upTo]

theorem composeCode_zero {s : State} {core n : Nat} {l : List Nat} (h : composeCode s core n l = 0) : 2 ≤ n ∧ (ownListed s core l).length = n := by
  unfold composeCode at h
  split at h
  · cases h
  · next hcount =>
    split at h
    · cases h
    · next hlen => exact ⟨by omega, not_not.mp hlen⟩

/-- Where the tenant's banks of a list are as many as the list, they are the list, and none stands in it twice. -/
theorem ownListed_whole {s : State} {core : Nat} {l : List Nat} (h : (ownListed s core l).length = l.length) : ownListed s core l = l ∧ l.Nodup := by
  have heq : ownListed s core l = l := ((List.dedup_sublist _).trans List.filter_sublist).eq_of_length h
  exact ⟨heq, heq ▸ List.nodup_dedup _⟩

/-- The fields of a linked member (R161). -/
theorem linked_fields {l : List Nat} {n i x : Nat} (hn : l.length = n) (h2 : 2 ≤ n) (hx : l[i]? = some x) (d : Word) :
    i < n ∧ nth l i = x ∧ ∃ y, l[(i + 1) % n]? = some y ∧
      aroleOf (withLink d (memberRole l i) (memberLink l i)) = (if i = 0 then 1 else if i + 1 = n then 3 else 2) ∧
      alinkOf (withLink d (memberRole l i) (memberLink l i)) = y % 256 ∧
      kindOf (withLink d (memberRole l i) (memberLink l i)) = kindOf d ∧ capOf (withLink d (memberRole l i) (memberLink l i)) = capOf d := by
  obtain ⟨hi, hget⟩ := List.getElem?_eq_some_iff.mp hx
  have hnext : (i + 1) % n = if i + 1 = l.length then 0 else i + 1 := by
    split
    · next h => rw [h, hn, Nat.mod_self]
    · exact Nat.mod_eq_of_lt (by omega)
  have hlt : (i + 1) % n < l.length := by rw [hn]; exact Nat.mod_lt _ (by omega)
  have hrole : memberRole l i < 4 := by unfold memberRole; split <;> [decide; (split <;> decide)]
  have hlink : memberLink l i = l[(i + 1) % n] % 256 := by
    rw [memberLink, ← hnext, nth, List.getD_eq_getElem _ _ hlt]
  obtain ⟨harole, halink, hkind, hcap⟩ := withLink_fields d hrole (link := memberLink l i) (Nat.mod_lt _ (by decide))
  refine ⟨hn ▸ hi, by rw [nth, List.getD_eq_getElem _ _ hi, hget], _, List.getElem?_eq_getElem hlt, ?_, halink.trans hlink, hkind, hcap⟩
  rw [harole, memberRole, hn]

end Sys2Proof.Machine
end

section
/-! PROOFS. ARCADE and ARCADE.DIS as a whole (R161). -/

namespace Sys2Proof.Machine

/-! ## The slot of the list -/

theorem reopen_turns (l : List Nat) : ∀ (s : State) (x : List (Nat × Turn)), reopen l { s with turns := x } = { reopen l s with turns := x } := by
  induction l with
  | nil => exact fun _ _ => rfl
  | cons b l ih => exact fun s x => ih (s.modBank b fun y => { y with closing := none }) x

theorem composeCode_turns (s : State) (x : List (Nat × Turn)) (core n : Nat) (l : List Nat) :
    composeCode { s with turns := x } core n l = composeCode s core n l := rfl

theorem listFor_mem {s : State} {k : Nat} {r : Req} {op : ArcadeOp} (h : listFor s k r = some op) : op ∈ s.arcades := List.mem_of_find?_eq_some h

/-- The slot that reads the list of an ARCADE makes the composition, or refuses it. -/
theorem exec_listSlot {s : State} {k core bank n : Nat} {r : Req} {op : ArcadeOp} {again : Bool} (hbank : bank < 16)
    (hkey : localKey (k / 8) r.addr / 8192 = 16 * core + bank) (hfit : localKey (k / 8) r.addr % 8192 + n ≤ 8192) (hacc : r.acc = .read n)
    (hdid : r.did = 0) (hgot : r.got = 0) (hfind : (s.ctx k).reqs.find? (fun x => x.seq = r.seq) = some r) (hlist : listFor s k r = some op)
    (hask : ∃ a, chosenAt s (16 * core + bank) = some a ∧ a.who = .ctx k r.seq 0 ∧ a.replay = again)
    (hclosing : (s.bank (16 * core + bank)).closing = none ∨ (s.bank (16 * core + bank)).closing = some (.arcade k))
    (hbad : (s.bank (16 * core + bank)).badDesc = false) (hdesc : descOf s (16 * core + bank) = 0)
    (hodd : oddOfPair s (16 * core + bank) = false) (hpoison : s.bankPoison = []) {l : List Nat}
    (hl : l = banksIn (k / 8) n (readN s.bankMem (localKey (k / 8) r.addr) n))
    (hopen : ∀ x ∈ ownListed s (k / 8) l, ((reopen op.named s).bank x).closing = none ∧ (s.bank x).badDesc = false) :
    ∃ turns, exec (slotEvent core bank again) s = .next (composed k r op (ownListed s (k / 8) l) (composeCode (reopen op.named s) (k / 8) n l)
      { reopen op.named s with turns := turns }) := by
  obtain ⟨a, hchosen, hwho, hagain⟩ := hask
  have hlist' : listFor (useTurn s a) k r = some op := hlist
  have hwhole := performList_whole (s := useTurn s a) (op := op) hkey hacc hgot hclosing hbad hdesc hodd hpoison
  have hmade := composeListed_made (s := useTurn s a) (op := op) (r := r) (k := k) (v := readN s.bankMem (localKey (k / 8) r.addr) n) hacc hpoison
    (by
      rw [useTurn_only, reopen_turns]
      subst hl
      exact hopen)
  have hperf : performReq k r 0 (wholePart k r) a.slot (useTurn s a) = performList k r op 0 (wholePart k r) (useTurn s a) := by
    unfold performReq
    simp only [hlist']
  refine ⟨(useTurn s a).turns, ?_⟩
  rw [← hagain, exec_slotEvent hbank hchosen, serve_whole (s := useTurn s a) hwho hfind hdid (by rw [hacc]; exact hfit), hperf, hwhole]
  refine (congrArg Host.Outcome.next hmade).trans ?_
  rw [useTurn_only, reopen_turns, composeCode_turns, hl]
  rfl

/-! ## The end -/

/-- The ARCADEs of a context that land their code now. -/
def ArcadeOp.isDue (s : State) (k : Nat) (x : ArcadeOp) : Prop := x.ctx = k ∧ x.list = none ∧ x.due ≤ s.cycle

theorem effArcadeComplete_none {s : State} {k : Nat} (h : ∀ x ∈ s.arcades, ¬x.isDue s k) : effArcadeComplete k s = s := by
  have hnone : s.arcades.find? (fun x => x.ctx = k ∧ x.list = none ∧ x.due ≤ s.cycle) = none :=
    List.find?_eq_none.mpr fun x hx => by simpa [ArcadeOp.isDue] using h x hx
  rw [effArcadeComplete, hnone]

/-- An ARCADE that is over: it is in progress no longer and its banks answer. -/
def arcadeOver (op : ArcadeOp) (s : State) : State := reopen op.named (setArcade op (fun _ => none) s)

theorem effArcadeComplete_one {s : State} {k : Nat} {op : ArcadeOp} (hmem : op ∈ s.arcades) (hdue : op.isDue s k)
    (honly : ∀ x ∈ s.arcades, x.isDue s k → x = op) (hpark : ∀ t, (s.ctx k).park ≠ .wfi t) :
    effArcadeComplete k s = (arcadeOver op s).modCtx k fun c => landReg none c (op.d, BitVec.ofNat 64 op.code) := by
  have hfind : s.arcades.find? (fun x => x.ctx = k ∧ x.list = none ∧ x.due ≤ s.cycle) = some op := by
    cases h : s.arcades.find? (fun x => x.ctx = k ∧ x.list = none ∧ x.due ≤ s.cycle) with
    | none => exact absurd (by simpa [ArcadeOp.isDue] using hdue) (List.find?_eq_none.mp h op hmem)
    | some x => rw [honly x (List.mem_of_find?_eq_some h) (by simpa [ArcadeOp.isDue] using List.find?_some h)]
  have hctx : (arcadeOver op s).ctx k = s.ctx k := by rw [arcadeOver, reopen_eq, onBanks_frame]; rfl
  rw [effArcadeComplete, hfind]
  exact applyLanding_reg (s := arcadeOver op s) rfl (by rw [hctx]; exact hpark)

theorem mem_setArcade_none (op x : ArcadeOp) (s : State) : x ∈ (setArcade op (fun _ => none) s).arcades ↔ x ∈ s.arcades ∧ x ≠ op := by
  constructor
  · intro h
    obtain ⟨y, hy, he⟩ := List.mem_filterMap.mp h
    split at he
    · cases he
    · next hne => cases he; exact ⟨hy, hne⟩
  · rintro ⟨h, hne⟩
    exact List.mem_filterMap.mpr ⟨x, h, if_neg hne⟩

/-! ## ARCADE -/

/-- What the issue of an ARCADE leaves once the context may have given up its core. -/
theorem arcadeIssue_spec {s w : State} {op : ArcadeOp} (hctx : op.ctx = s.cur) (hbanks : w.banks = (arcadeStarted op s).banks)
    (harcades : w.arcades = s.arcades ++ [op]) (hbytes : SameBytes s w)
    (hpend : (w.ctx s.cur).pend = ((arcadeStarted op s).ctx s.cur).pend) :
    let k := s.cur
    let t := offCore k w
    t.arcades = s.arcades ++ [op] ∧ (op.d ≠ 0 → (t.ctx k).pending op.d = true) ∧ (∀ x, descOf t x = descOf s x) ∧ SameBytes s t ∧
    (∀ x ∈ op.named, (t.bank x).closing = some (.arcade k)) ∧ (t.ctx k).reqs = (w.ctx k).reqs := by
  dsimp only
  have hbanks' : (offCore s.cur w).banks = (arcadeStarted op s).banks := by rw [offCore_eq]; exact hbanks
  obtain ⟨hdesc, hclosing⟩ := arcadeStarted_spec hbanks'
  rw [hctx] at hclosing
  refine ⟨by rw [offCore_eq]; exact harcades, fun hd => ?_, hdesc, hbytes.trans (offCore_sameBytes _ _), hclosing, by rw [offCore_ctx]⟩
  have hstarted := arcadeStarted_pending op s hd
  rw [hctx] at hstarted
  rw [offCore_ctx]
  unfold Ctx.pending at *
  rw [← hpend] at hstarted
  exact hstarted

/-- The reading of a composition's list at issue (R161, R299). -/
theorem arcadeReads_spec {s u : State} {op : ArcadeOp} (hctx : op.ctx = s.cur) (hu : u = { arcadeStarted op s with cores := u.cores })
    (ea : Word) (n : Nat) :
    let k := s.cur
    let t := offCore k (sendReq none (listAccess ea n) u)
    t.arcades = s.arcades ++ [op] ∧ (op.d ≠ 0 → (t.ctx k).pending op.d = true) ∧ (∀ x, descOf t x = descOf s x) ∧ SameBytes s t ∧
    (∀ x ∈ op.named, (t.bank x).closing = some (.arcade k)) ∧
    ∃ r, (t.ctx k).reqs = (s.ctx k).reqs ++ [r] ∧ r.seq = s.seq ∧ r.acc = .read n ∧ r.addr = ea := by
  dsimp only
  have hframe : u = { s with ctxs := u.ctxs, banks := u.banks, cores := u.cores, arcades := s.arcades ++ [op] } := by
    rw [hu, arcadeStarted_frame]
  have hcur : u.cur = s.cur := by rw [hframe]
  have huctx : u.ctx s.cur = (arcadeStarted op s).ctx s.cur := by rw [hu]; rfl
  have hsent := sendReq_ctx (op := listAccess ea n) rfl none u
  rw [hcur, huctx] at hsent
  obtain ⟨harcades, hpending, hdesc, hbytes, hclosing, hreqs⟩ := arcadeIssue_spec (w := sendReq none (listAccess ea n) u) hctx
    (by rw [sendReq_frame rfl, hu]) (by rw [sendReq_frame rfl, hframe])
    (by rw [sendReq_frame rfl, hframe]; exact .of_eq rfl rfl rfl rfl) (by rw [hsent])
  refine ⟨harcades, hpending, hdesc, hbytes, hclosing, queuedReq none (listAccess ea n) u, ?_, ?_, rfl, rfl⟩
  · have hstarted := arcadeStarted_reqs op s
    rw [hctx] at hstarted
    rw [hreqs, hsent, hstarted]
  · show u.seq = _; rw [hframe]

/-- A member that a dissolution frees is CLOSED, and has no role and no link. -/
theorem arcadeDissolved_spec (k : Nat) (s : State) {ms : List Nat} {x : Nat} (h : x ∈ ms) {t : State}
    (ht : t.banks = (closeFor k ms (arrange false ms s)).banks) :
    (t.bank x).closing = some (.arcade k) ∧ aroleOf (descOf t x) = 0 ∧ alinkOf (descOf t x) = 0 := by
  have hbank : t.bank x = (closeFor k ms (arrange false ms s)).bank x := by rw [State.bank, ht]; rfl
  have hdesc : descOf t x = withLink (descOf s x) 0 0 := by
    rw [descOf, hbank, ← descOf, closeFor_descOf, arrange_dissolve_descOf h]
  obtain ⟨harole, halink, -⟩ := withLink_fields (descOf s x) (role := 0) (link := 0) (by decide) (by decide)
  refine ⟨?_, hdesc ▸ harole, hdesc ▸ halink⟩
  rw [hbank, closeFor_bank, if_pos h]

/-- Settles O35: the issue of the four kinds of ARCADE, the list's slot as `composed`, and the end as `arcadeOver`. -/
theorem arcadeResults : Obligations.ArcadeResults := by
  refine ⟨fun s d a b hruns => ?issue, fun s k core bank n r op again => ?slot, fun s d a hruns => ⟨fun h => ?refused, fun h => ?dissolved⟩,
    fun s k => ⟨fun h => ?none, fun op hmem hdue honly hd hpark => ?one⟩⟩
  case issue =>
    intro k n
    by_cases hn : n < 2 ∨ 16 < n
    · obtain ⟨harcades, hpending, hdesc, hbytes, hclosing, hreqs⟩ := arcadeIssue_spec (s := s) (op := issuedArcade s d [] 1 n none) rfl rfl
        (by rw [arcadeStarted_frame]) (by rw [arcadeStarted_frame]; exact .of_eq rfl rfl rfl rfl) rfl
      have hkept : (s.ctx k).reqs = ((arcadeStarted (issuedArcade s d [] 1 n none) s).ctx k).reqs :=
        (arcadeStarted_reqs (issuedArcade s d [] 1 n none) s).symm
      exact ⟨_, _, next_runSlot hruns (effArcade_refused hn), harcades, rfl, rfl, rfl, hpending, hdesc, hbytes, hclosing,
        fun _ => ⟨rfl, rfl, rfl, hreqs.trans hkept.symm⟩, fun h2 h16 => by omega⟩
    · obtain ⟨u, hu, heff⟩ := effArcade_reads (s := s) (d := d) (a := a) (b := b) (by omega) (by omega)
      obtain ⟨harcades, hpending, hdesc, hbytes, hclosing, r, hreqs, hseq, hacc, haddr⟩ := arcadeReads_spec rfl hu (rdS s a) n
      exact ⟨_, _, next_runSlot hruns heff, harcades, rfl, rfl, rfl, hpending, hdesc, hbytes, hclosing, fun h => absurd h hn,
        fun _ _ => ⟨rfl, r, hreqs, congrArg some hseq.symm, hacc, haddr⟩⟩
  case slot =>
    intro b key l named open_ code hbank hkey hfit hacc hn hdid hgot hfind hlist hask hclosing hbad hdesc hodd hpoison hopen
    obtain ⟨turns, hexec⟩ := exec_listSlot hbank hkey hfit hacc hdid hgot hfind hlist hask hclosing hbad hdesc hodd hpoison rfl hopen
    refine ⟨_, hexec, ?_, fun x hx => composed_closing hx, fun hcode => ?_, fun hcode i x hx => ?_⟩
    · refine composed_arcades ?_
      show op ∈ (reopen op.named s).arcades
      rw [reopen_eq, onBanks_frame]
      exact listFor_mem hlist
    · obtain ⟨hkept, hbytes⟩ := composed_refused (k := k) (r := r) (op := op) (named := named) (u := { reopen op.named s with turns := turns }) hcode
      refine ⟨fun x => (hkept x).trans (reopen_descOf _ _ _), .trans ?_ hbytes⟩
      rw [reopen_eq, onBanks_frame]
      exact .of_eq rfl rfl rfl rfl
    · obtain ⟨h2, hlen⟩ := composeCode_zero hcode
      have hln : l.length = n := length_banksIn _ _ _
      have hcores : ownListed open_ (k / 8) l = ownListed s (k / 8) l := by
        show ownListed (reopen op.named s) _ _ = _
        rw [reopen_eq, onBanks_frame]
        rfl
      obtain ⟨hnamed, hnodup⟩ := ownListed_whole (s := s) (core := k / 8) (l := l) (by rw [← hcores, hlen, hln])
      obtain ⟨hi, hnth, y, hy, hfields⟩ := linked_fields hln h2 hx (descOf s x)
      have hlinked := composed_linked (k := k) (r := r) (op := op) (named := l) (u := { reopen op.named s with turns := turns })
        (by rw [hln]; exact h2) hnodup (by rw [hln]; exact hi)
      rw [hnth, show descOf { reopen op.named s with turns := turns } x = descOf s x from reopen_descOf _ _ _] at hlinked
      refine ⟨y, hy, ?_⟩
      rw [show composeCode (reopen op.named s) (k / 8) n (banksIn (k / 8) n (readN s.bankMem (localKey (k / 8) r.addr) n)) = 0 from hcode,
        show ownListed s (k / 8) (banksIn (k / 8) n (readN s.bankMem (localKey (k / 8) r.addr) n)) = l from hnamed, hlinked]
      exact hfields
  case refused =>
    obtain ⟨harcades, -, hdesc, -⟩ := arcadeIssue_spec (s := s)
      (op := issuedArcade s d [bankAt (coreOf s.cur) (rdS s a)] 6 0 none) rfl rfl (by rw [arcadeStarted_frame])
      (by rw [arcadeStarted_frame]; exact .of_eq rfl rfl rfl rfl) rfl
    exact ⟨_, _, next_runSlot hruns (effArcade_noLead h), harcades, rfl, rfl, hdesc⟩
  case dissolved =>
    refine ⟨_, issuedArcade s d (linkedFrom s 16 (bankAt (coreOf s.cur) (rdS s a))) 0 _ none, next_runSlot hruns (effArcade_dissolves h), ?_,
      rfl, rfl, fun x hx => ?_⟩
    · rw [offCore_eq]
    · exact arcadeDissolved_spec s.cur (setPending s.cur [d] s) hx (by rw [offCore_eq])
  case none => exact congrArg Host.Outcome.next (effArcadeComplete_none h)
  case one =>
    refine ⟨_, congrArg Host.Outcome.next (effArcadeComplete_one hmem hdue honly hpark), ?_, ?_, fun x hx => ?_, fun x => ?_, ?_⟩
    · rw [ctx_modCtx_self, landReg_rd _ _ _ _ hd, if_pos rfl]
    · rw [ctx_modCtx_self, landReg_pending _ _ _ _ hd, if_pos rfl]
    · rw [modCtx_bank, arcadeOver, reopen_bank, if_pos hx]
    · show x ∈ (arcadeOver op s).arcades ↔ _
      rw [arcadeOver, reopen_eq, onBanks_frame]
      exact mem_setArcade_none op x s
    · rw [arcadeOver, reopen_eq, onBanks_frame]
      exact .of_eq rfl rfl rfl rfl

end Sys2Proof.Machine
end
